-- ==== Sys2Proof/Word.lean ====
section
/-! DEFINITION. The words of the YN740: bytes, counters, epochs, serials and the ms time base, as
00_scope.md section 6 and the chapters give their widths. -/

namespace Sys2Proof

/-- One byte of a frame, a telegram or the configuration memory. -/
abbrev Byte := BitVec 8

/-- A 16-bit counter of the part (00_scope.md section 6). -/
abbrev Counter := BitVec 16

/-- An epoch, 0-65535 (R61). -/
abbrev Epoch := BitVec 16

/-- A request serial (R80) or an event serial (R167). -/
abbrev Serial := BitVec 16

/-- The 32-bit ms time base (R14, R46). -/
abbrev Time := BitVec 32

/-- A counter advances by one and saturates at 65535 (00_scope.md section 6, R170). -/
def bump (c : Counter) : Counter :=
  if c = 65535 then c else c + 1

end Sys2Proof
end

