-- ==== Sys2Proof/Syntax.lean ====
section
/-! DEFINITION. The commands of the block: one constructor of Instr for each row of spec/opcode_table.json, and the types of
their operands. -/

namespace Sys2Proof

/-- How a message reaches a block: as a frame delivered by the frame handler (R50), or as a handover from a block of the same
node (R103, R123 to R126). -/
inductive Via where
  | frame
  | handover
deriving DecidableEq, Repr

/-- A symbol of the line (R40). -/
inductive LineSymbol where
  | comma
  | startDelim
  | endDelim
  | data (b : Byte)
deriving DecidableEq, Repr

/-- Running disparity (R40). -/
inductive Disparity where
  | negative
  | positive
deriving DecidableEq, Repr

/-- What a 10-bit group of the line holds more of. -/
inductive Balance where
  | ones
  | zeros
  | even
deriving DecidableEq, Repr

/-- What the code table makes of a 10-bit group (R40): one of the two code words of a symbol, the one a transmitter chooses at running
disparity `rd`; or no code word of any symbol. The table itself is not in the spec, so a group comes with what the table says of it
(log entry 7). -/
inductive GroupCode where
  | word (symbol : LineSymbol) (rd : Disparity)
  | invalid
deriving DecidableEq, Repr

/-- A 10-bit group on the line: the bit alignment at which it stands (R41), what the code table makes of it, and its balance. -/
structure LineGroup where
  align : Fin 10
  code : GroupCode
  balance : Balance
deriving DecidableEq, Repr

/-- Levels that one exchange of the field scan port returns (R4, R5, R17); bit k belongs to element k, 1 is high. A board that
does not answer and an open line read low. -/
structure Levels where
  /-- Detection channel A of sections 0-15: high is clear. -/
  chanA : BitVec 16
  /-- Detection channel B of sections 0-15: high is clear. -/
  chanB : BitVec 16
  /-- NORMAL contact of points 0-7: high is made. -/
  contactN : BitVec 8
  /-- REVERSE contact of points 0-7: high is made. -/
  contactR : BitVec 8
  /-- Lamp-proving input of the STOP lamps of signals 0-7: high is current. -/
  lampStop : BitVec 8
  /-- Lamp-proving input of the LEFT lamps. -/
  lampLeft : BitVec 8
  /-- Lamp-proving input of the STRAIGHT lamps. -/
  lampStraight : BitVec 8
  /-- Lamp-proving input of the RIGHT lamps. -/
  lampRight : BitVec 8
deriving DecidableEq, Repr

/-- How step 5 of start-up goes (R172, R175): the copies cannot be read; the write of copy A, or then of copy B, is not
confirmed; both are confirmed. -/
inductive EpochWrite where
  | readFailed
  | copyAFailed
  | copyBFailed
  | confirmed
deriving DecidableEq, Repr

/-- The commands: the rows of spec/opcode_table.json, each one whole and indivisible step of the part. -/
inductive Instr where
  /-- POWER_ON_RESET (R171): power-on or brown-out. -/
  | powerOnReset
  /-- PIN_RESET (R171): RESET is pulled low. -/
  | pinReset
  /-- RESET_RELEASE (R172): reset is released; the six straps read `straps` (0-63). -/
  | resetRelease (straps : Nat)
  /-- IMAGE_READ_DONE (R172): the image has been read; `acked`: the memory acknowledged every byte. -/
  | imageReadDone (acked : Bool)
  /-- EPOCH_WRITE_DONE (R175): how reading the copies and writing the new epoch went. -/
  | epochWriteDone (result : EpochWrite)
  /-- ROAD_RESTORE (R163): the road records are read back; item r of `acked`: record r was acknowledged. -/
  | roadRestore (acked : List Bool)
  /-- WINDOW_END (R5): the field scan port's exchange, with the levels it returns. -/
  | windowEnd (levels : Levels)
  /-- POINT_WINDOW_EVALUATION (R22): PU evaluates the window. -/
  | pointWindowEvaluation
  /-- SIGNAL_WINDOW_EVALUATION (R34): SU evaluates the window. -/
  | signalWindowEvaluation
  /-- PU_SECTION_CHANGE (R25): PU takes its oldest notice about `sect`. -/
  | puSectionChange (sect : Nat)
  /-- CT_SECTION_CHANGE (R108): CT takes its oldest notice about `sect`. -/
  | ctSectionChange (sect : Nat)
  /-- RE_SECTION_CHANGE (R132): RE takes its oldest notice about `sect`. -/
  | reSectionChange (sect : Nat)
  /-- YU_SECTION_CHANGE (R158): YU takes its oldest notice about `sect`. -/
  | yuSectionChange (sect : Nat)
  /-- TRAVEL_TIMER_EXPIRY (R23, R24): the travel timer of `point` reaches T_pt. -/
  | travelTimerExpiry (point : Nat)
  /-- PERMISSION_END (R26): PU takes a permission-end notice for `point`. -/
  | permissionEnd (point : Nat)
  /-- PROCEED_COMMAND (R33): SU takes the oldest command waiting for `signal`, a PROCEED. -/
  | proceedCommand (signal : Nat)
  /-- STOP_COMMAND (R35): SU takes the oldest command waiting for `signal`, a STOP. -/
  | stopCommand (signal : Nat)
  /-- CLEARING_TIMER_EXPIRY (R34). -/
  | clearingTimerExpiry (signal : Nat)
  /-- TRIAL_TIMER_EXPIRY (R37). -/
  | trialTimerExpiry (signal : Nat)
  /-- PROVED (R131): RE takes SU's oldest report about `signal`, a PROVED. -/
  | proved (signal : Nat)
  /-- CLEAR_FAIL (R131): RE takes SU's oldest report about `signal`, a CLEAR_FAIL. -/
  | clearFail (signal : Nat)
  /-- LAMP_FAULT (R132): RE takes SU's oldest report about `signal`, a LAMP_FAULT. -/
  | lampFault (signal : Nat)
  /-- START_DELIMITER (R41, R43): a start delimiter arrives on the line; which of its code words, where it stands, and its balance. -/
  | startDelimiter (align : Fin 10) (rd : Disparity) (balance : Balance)
  /-- OVERSIZE_DISCARD (R43): the groups that carry the frame in assembly to its 58th byte. -/
  | oversizeDiscard (groups : List LineGroup)
  /-- LOSS_OF_SYNC (R41): the groups up to the loss, and whether the line then is quiet. -/
  | lossOfSync (groups : List LineGroup) (quiet : Bool)
  /-- LINE_QUALITY_WINDOW (R42): the groups up to the 1024th of the window. -/
  | lineQualityWindow (groups : List LineGroup)
  /-- FRAME_RECEIVED (R44): the groups of the frame after its start delimiter, the end delimiter last. -/
  | frameReceived (groups : List LineGroup)
  /-- OWN_SOURCE_FRAME (R71): PT examines the oldest frame bearing the node's own ID. -/
  | ownSourceFrame
  /-- LINE_ACCESS (R54): access step `step` (0-255) of the round comes with the line quiet. -/
  | lineAccess (step : Nat)
  /-- TRANSMISSION_END (R53): the end delimiter is sent and the line released. -/
  | transmissionEnd
  /-- ACCESS_ROUND_TIMEOUT (R54): 256 steps pass with no station starting. -/
  | accessRoundTimeout
  /-- POOL_LOW_TIMER_EXPIRY (R48). -/
  | poolLowTimerExpiry
  /-- HOLD_OFF (R55): FS handles a HOLD-OFF frame. -/
  | holdOff
  /-- HOLD_OFF_TIMER_EXPIRY (R56). -/
  | holdOffTimerExpiry (peer : Nat)
  /-- ANNOUNCE (R63): PT handles an ANNOUNCE frame. -/
  | announce
  /-- STATE (R63): PT handles a STATE frame. -/
  | state
  /-- LISTEN_TIMER (R59): the listen timer reaches 250, 500 or 1000 ms. -/
  | listenTimer
  /-- STATE_TIMER (R60): the STATE timer reaches a further 250 ms. -/
  | stateTimer
  /-- PEER_SILENT (R64). -/
  | peerSilent (peer : Nat)
  /-- PEER_LOST (R64). -/
  | peerLost (peer : Nat)
  /-- CT_UNUSABLE (R114): CT takes its oldest notice about `peer`, an UNUSABLE. -/
  | ctUnusable (peer : Nat)
  /-- CT_USABLE (R116). -/
  | ctUsable (peer : Nat)
  /-- CT_EPOCH_CHANGE (R117). -/
  | ctEpochChange (peer : Nat)
  /-- RE_UNUSABLE (R136). -/
  | reUnusable (peer : Nat)
  /-- RE_USABLE (R136). -/
  | reUsable (peer : Nat)
  /-- RE_EPOCH_CHANGE (R136). -/
  | reEpochChange (peer : Nat)
  /-- YU_UNUSABLE (R159). -/
  | yuUnusable (peer : Nat)
  /-- YU_USABLE (R159). -/
  | yuUsable (peer : Nat)
  /-- YU_EPOCH_CHANGE (R160). -/
  | yuEpochChange (peer : Nat)
  /-- CT_ISOLATION (R118). -/
  | ctIsolation
  /-- RE_ISOLATION (R141). -/
  | reIsolation
  /-- RQ_ISOLATION (R89). -/
  | rqIsolation
  /-- YU_ISOLATION (R160). -/
  | yuIsolation
  /-- TELEGRAM_GAP_TIMEOUT (R75): 3 ms pass after a stop bit at request point `point`. -/
  | telegramGapTimeout (point : Nat)
  /-- IN_REQUEST (R78): RQ takes the oldest completed telegram of `point`, an IN. -/
  | inRequest (point : Nat)
  /-- OUT_REQUEST (R78). -/
  | outRequest (point : Nat)
  /-- ROAD_REQUEST (R78). -/
  | roadRequest (point : Nat)
  /-- DEST_REQUEST (R78). -/
  | destRequest (point : Nat)
  /-- CANCEL (R86). -/
  | cancel (point : Nat)
  /-- UNKNOWN_CODE_TELEGRAM (R78). -/
  | unknownCodeTelegram (point : Nat)
  /-- REFUSAL_HOLD_EXPIRY (R79). -/
  | refusalHoldExpiry (point : Nat)
  /-- SLOT_LIFETIME_EXPIRY (R87). -/
  | slotLifetimeExpiry (slot : Nat)
  /-- OUTCOME (R88): RQ takes the oldest outcome that RE has given. -/
  | outcome
  /-- CANCEL_INSTANCE (R138): RE takes the oldest cancel for instance `inst`. -/
  | cancelInstance (inst : Nat)
  /-- CLAIM (R96): CT evaluates a CLAIM, frame or local handover. -/
  | claim (via : Via)
  /-- SET (R104). -/
  | set (via : Via)
  /-- MOVE_DONE (R105): CT takes PU's oldest report about `point`, a MOVE_DONE. -/
  | moveDone (point : Nat)
  /-- MOVE_FAIL (R105). -/
  | moveFail (point : Nat)
  /-- DETECTION_LOST (R107). -/
  | detectionLost (point : Nat)
  /-- RELEASE (R113). -/
  | release (via : Via)
  /-- RESERVED_TIMER_EXPIRY (R106). -/
  | reservedTimerExpiry (claimId : Nat)
  /-- SET_TIMER_EXPIRY (R112). -/
  | setTimerExpiry (claimId : Nat)
  /-- ORPHAN_CLEAR_EXPIRY (R115): the timer of item `step` (from 0) of the record's steps. -/
  | orphanClearExpiry (claimId step : Nat)
  /-- GRANT (R129). -/
  | grant (via : Via)
  /-- DENY (R129). -/
  | deny (via : Via)
  /-- SET_DONE (R130). -/
  | setDone (via : Via)
  /-- SET_FAIL (R130). -/
  | setFail (via : Via)
  /-- CLAIM_LOST (R136). -/
  | claimLost (via : Via)
  /-- PASSED (R133). -/
  | passed (via : Via)
  /-- BID_CALL (R147). -/
  | bidCall (via : Via)
  /-- BID (R124). -/
  | bid (via : Via)
  /-- AWARD (R151). -/
  | award (via : Via)
  /-- AWARD_WITHDRAW (R153). -/
  | awardWithdraw (via : Via)
  /-- ROAD_CHANGE (R125). -/
  | roadChange (via : Via)
  /-- OFFER_EXPIRY (R150). -/
  | offerExpiry (road : Nat)
  /-- HOLD_TIMER_EXPIRY (R159): the timer of item `arrival` (from 0) of the road's pending arrivals. -/
  | holdTimerExpiry (road arrival : Nat)
  /-- ROAD_WRITE_DONE (R162). -/
  | roadWriteDone
  /-- ROAD_WRITE_FAIL (R162). -/
  | roadWriteFail
  /-- BID_TIMER_EXPIRY (R124). -/
  | bidTimerExpiry (inst : Nat)
  /-- ROAD_WAIT_EXPIRY (R125). -/
  | roadWaitExpiry (inst : Nat)
  /-- AWARD_WAIT_EXPIRY (R124). -/
  | awardWaitExpiry (inst : Nat)
  /-- CLAIM_WINDOW_EXPIRY (R129). -/
  | claimWindowExpiry (inst : Nat)
  /-- SET_WINDOW_EXPIRY (R130). -/
  | setWindowExpiry (inst : Nat)
  /-- APPROACH_TIMER_EXPIRY (R132). -/
  | approachTimerExpiry (inst : Nat)
  /-- RELEASE_DELAY_EXPIRY (R139). -/
  | releaseDelayExpiry (inst : Nat)
  /-- RUN_THROUGH_EXPIRY (R135). -/
  | runThroughExpiry (inst : Nat)
  /-- RETRY_TIMER_EXPIRY (R137). -/
  | retryTimerExpiry (inst : Nat)
  /-- INSPECT (R168): RP takes an INSPECT frame. -/
  | inspect
  /-- INSPECT_REPLY (R49): RP finishes with an INSPECT-REPLY frame. -/
  | inspectReply
  /-- EVENT (R49): RP finishes with an EVENT frame. -/
  | event
  /-- READER_INPUT_BYTE (R75): a byte ends on a reader input; `framed`: its stop bit read high. -/
  | readerInputByte (point : Nat) (value : Byte) (framed : Bool)
  /-- COMMA_RECEIVED (R41): a comma arrives on the line; which of its code words, where it stands, and its balance. -/
  | commaReceived (align : Fin 10) (rd : Disparity) (balance : Balance)
  /-- FIRST_IDLE_POINT (R54): a station not yet aligned has heard the line quiet for 512 us. -/
  | firstIdlePoint
deriving DecidableEq, Repr

end Sys2Proof
end

