-- ==== Sys2Proof/Decode.lean ====
section
/-! DEFINITION. Decoding of table words. No row of spec/opcode_table.json gives bits (98_reader.md: n_rows_with_fixed is 0), so
no word spells a command. -/

namespace Sys2Proof

/-- The command that a word spells by the table's bits: none, because the table gives no row any bits. -/
def decodeTableWord (_nbits _w : Nat) : Option Instr :=
  none

end Sys2Proof
end

