-- ==== Sys2Proof/Config.lean ====
section
/-! DEFINITION. What is fixed for the part, and the free values: contents that the manual leaves open. -/

namespace Sys2Proof.Config

/-- FREE VALUE (log entry 9): the byte that a failed or interrupted write leaves in a memory cell. -/
opaque freeByte : Nat → Byte

/-- FREE VALUE (log entry 9): which of the outcomes that R175 and R177 allow a reset inside a memory write has. -/
opaque freeChoice : Nat → Nat

/-- FREE VALUE (log entry 34): the code word of a symbol for a running disparity holds more of one level than of the other, and so
leaves the other disparity. The code table is not in the spec. -/
opaque wordTurns : LineSymbol → Disparity → Bool

/-- What a byte of the configuration memory that nothing has written reads as.
DESIGN CHOICE (log entry 8): FFh, the erased value; unsafe. -/
def unwrittenByte : Byte := 255

/-- Size of the configuration memory in bytes (R181). -/
def memoryBytes : Nat := 8192

/-- One window (R5). -/
def windowMs : Nat := 20
/-- Proof limit of a signal in CLEARING (R34). -/
def clearingMs : Nat := 100
/-- Dark phase of a lamp trial (R37). -/
def trialDarkMs : Nat := 1000
/-- Lit phase of a lamp trial (R37). -/
def trialLitMs : Nat := 100
/-- Hold time of a HOLD-OFF this node sends, and the pool-low timer (R48). -/
def poolLowMs : Nat := 40
/-- Listen time (R59). -/
def listenMs : Nat := 1000
/-- STATE period and spacing of the ANNOUNCE frames (R59, R60). -/
def stateMs : Nat := 250
/-- Two STATE frames this far apart or less put a JOINING peer in step (R63). -/
def inStepMs : Nat := 600
/-- Silence after which an IN_STEP record enters SILENT (R64). -/
def silentMs : Nat := 500
/-- Silence after which a SILENT record enters LOST (R64). -/
def lostMs : Nat := 1000
/-- Gap that ends a telegram (R75). -/
def gapMs : Nat := 3
/-- Refusal hold (R79). -/
def refusalHoldMs : Nat := 30000
/-- Lifetime of a request (R87). -/
def lifetimeMs : Nat := 600000
/-- Reserved timer (R106). -/
def reservedMs : Nat := 10000
/-- What the set timer adds to the approach limit (R112). -/
def setExtraMs : Nat := 15000
/-- Orphan clear timer (R115). -/
def orphanMs : Nat := 30000
/-- Bid window (R124). -/
def bidMs : Nat := 150
/-- Road-wait timer (R125). -/
def roadWaitMs : Nat := 5000
/-- Award-wait timer (R124). -/
def awardWaitMs : Nat := 60
/-- Claim window (R129). -/
def claimMs : Nat := 400
/-- Set window (R130). -/
def setMs : Nat := 8000
/-- Run-through limit (R135). -/
def runThroughMs : Nat := 300000
/-- Life of an offer (R148). -/
def offerMs : Nat := 1000
/-- Hold of a pending arrival of an unusable caller (R159). -/
def arrivalHoldMs : Nat := 120000

end Sys2Proof.Config
end

