-- ==== Sys2Proof/Machine/State.lean ====
section
/-! DEFINITION. The state of the YN740 as plain data, block by block, and the state right after a power-on reset. -/

namespace Sys2Proof.Machine

/-! ## Stops -/

/-- Reasons for a fault. The manual gives the part no fault that stops it (INVENTORY.md, Faults), so there is none. -/
inductive Fault where
deriving DecidableEq, Repr

/-- Reasons for a refusal. -/
inductive Refusal where
  /-- Raised by `exec` alone, for a command that has no meaning yet. Safe: the run stops. -/
  | notModelled (mnemonic : String)
deriving DecidableEq, Repr

/-! ## Common data -/

/-- Position of a point (00_scope.md section 4). -/
inductive Position where
  | normal
  | reverse
deriving DecidableEq, Repr

/-- Direction of a proceed aspect (00_scope.md section 4). -/
inductive Direction where
  | left
  | straight
  | right
deriving DecidableEq, Repr

/-- A running timer: ms run, and the limit it runs toward. A stopped timer is `none`. -/
structure Timer where
  elapsed : Nat
  limit : Nat
deriving DecidableEq, Repr

/-- Node mode (R58). -/
inductive Mode where
  | start
  | configFault
  | joining
  | running
  | isolated
deriving DecidableEq, Repr

/-- Reset cause (R58). -/
inductive ResetCause where
  | powerOn
  | pin
deriving DecidableEq, Repr

/-- Section state (R1). -/
inductive SectState where
  | clear
  | occupied
  | disturbed
deriving DecidableEq, Repr

/-- Section role (R2). -/
inductive SectRole where
  | route
  | approach
  | roadMouth
  | roadBody
deriving DecidableEq, Repr

/-- Route class (00_scope.md section 4). -/
inductive RouteClass where
  | runIn
  | runOut
  | shunt
deriving DecidableEq, Repr

/-- Identity of a bid call or direct award (R121): caller node and call sequence 0-255. -/
structure CallId where
  caller : Nat
  seq : Nat
deriving DecidableEq, Repr

/-- Identity of a claim (00_scope.md section 4, R92). -/
structure RouteKey where
  owner : Nat
  epoch : Epoch
  route : Nat
  serial : Serial
  attempt : Nat
deriving DecidableEq, Repr

/-- A point demand of a step. -/
structure Demand where
  point : Nat
  pos : Position
deriving DecidableEq, Repr

/-- Tram record of a bid call, an award and a pending arrival (R123, R145). -/
structure TramRec where
  tram : Nat
  places : Nat
  slot : Nat
deriving DecidableEq, Repr

/-- Award reference of a CLAIM (R92, R96). -/
structure AwardRef where
  call : CallId
  direct : Bool
deriving DecidableEq, Repr

/-! ## Yard description (the image, R172, R181) -/

/-- Configuration of a section (R1). -/
structure SectCfg where
  /-- SINGLE_CHANNEL (R7); otherwise TWO_CHANNEL (R6). -/
  single : Bool
  role : SectRole
  points : List Nat
deriving DecidableEq, Repr

/-- Configuration of a point (R18): section, and travel limit T_pt in s. -/
structure PointCfg where
  sect : Nat
  travel : Nat
deriving DecidableEq, Repr

/-- Configuration of a signal (R31). -/
structure SignalCfg where
  left : Bool
  straight : Bool
  right : Bool
  approach : Option Nat
  reqPoint : Option Nat
deriving DecidableEq, Repr

/-- Configuration of a road (R143). -/
structure RoadCfg where
  mouth : Nat
  body : Nat
  capacity : Nat
  weight : Nat
  runOut : Nat
deriving DecidableEq, Repr

/-- Destination of a route (R173, R181). -/
inductive Dest where
  | road (node idx : Nat)
  | line
  | code (n : Nat)
deriving DecidableEq, Repr

/-- A step of a configured route (R120). -/
structure RouteStep where
  owner : Nat
  sect : Nat
  mouth : Bool
  demands : List Demand
deriving DecidableEq, Repr

/-- A configured route (R120); the approach limit and the release delay are in s. -/
structure RouteCfg where
  signal : Nat
  cls : RouteClass
  dest : Dest
  dir : Direction
  approach : Nat
  delay : Nat
  steps : List RouteStep
deriving DecidableEq, Repr

/-- The yard description of the node. A request point is given by its entry signal (R74). -/
structure Yard where
  sects : List SectCfg
  points : List PointCfg
  signals : List SignalCfg
  reqPoints : List Nat
  roads : List RoadCfg
  routes : List RouteCfg
deriving DecidableEq, Repr

/-- No yard description: what the blocks hold until start-up hands it over (chapter 10, opening). -/
def Yard.none : Yard := ⟨[], [], [], [], [], []⟩

/-- An entry of the clamp list (R174): kind of value 1-5, index, value read, value used. -/
structure Clamp where
  kind : Nat
  index : Nat
  read : Nat
  used : Nat
deriving DecidableEq, Repr

/-! ## Notices, reports and handovers -/

/-- Section-change notice (R14). -/
structure SectNotice where
  sect : Nat
  before : SectState
  after : SectState
  time : Time
deriving DecidableEq, Repr

/-- Notice of PT about a peer (R69). -/
inductive PeerNotice where
  | unusable (peer : Nat) (epoch : Epoch)
  | usable (peer : Nat) (epoch : Epoch)
  | epochChange (peer : Nat) (old new : Epoch)
deriving DecidableEq, Repr

/-- MOVE_FAIL cause (R20). -/
inductive MoveCause where
  | timeout
  | occupied
  | fault
  | withdrawn
  | busy
deriving DecidableEq, Repr

/-- SET-FAIL cause (R104, R105, R107; codes in R179). -/
inductive SetFailCause where
  | timeout
  | occupied
  | fault
  | withdrawn
  | busy
  | detectionLost
  | noClaim
deriving DecidableEq, Repr

/-- CLAIM-LOST cause (R106, R107, R112; codes in R179). -/
inductive LostCause where
  | reservedExpired
  | expired
  | pointLost
deriving DecidableEq, Repr

/-- DENY reason (R96; codes in R179). -/
inductive DenyReason where
  | notReady
  | isolated
  | unknownPeer
  | held
  | badStep
  | tableFull
  | occupied
  | disturbed
  | pointFault
  | noAward
  | noRoom
deriving DecidableEq, Repr

/-- Report of PU to CT about a point (R20, R27). -/
inductive PuReport where
  | moveDone (point : Nat)
  | moveFail (point : Nat) (cause : MoveCause)
  | detectionLost (point : Nat)
deriving DecidableEq, Repr

/-- Command of RE (or of PT, R72) to SU (R32). -/
inductive SuCommand where
  | proceed (signal : Nat) (dir : Direction)
  | stop (signal : Nat)
deriving DecidableEq, Repr

/-- Report of SU to RE (R32). -/
inductive SuReport where
  | proved (signal : Nat)
  | clearFail (signal : Nat)
  | lampFault (signal : Nat)
deriving DecidableEq, Repr

/-- A step of a CLAIM (R96). `demandCount` is the count as the frame gives it (0-3, R182). -/
structure ReqStep where
  number : Nat
  sect : Nat
  nextLocal : Bool
  mouth : Bool
  demandCount : Nat
  demands : List Demand
deriving DecidableEq, Repr

/-- Content of a CLAIM (R96). A class code of 3 is `none` (R182). -/
structure ClaimReq where
  key : RouteKey
  cls : Option RouteClass
  tram : Nat
  approach : Nat
  award : Option AwardRef
  steps : List ReqStep
deriving DecidableEq, Repr

/-- What RE hands to its own CT (R103). -/
inductive CtMsg where
  | claim (req : ClaimReq)
  | set (key : RouteKey)
  | release (key : RouteKey)
deriving DecidableEq, Repr

/-- What CT answers to RE, by handover or frame (R103). `step` 0 and `point`, `detail` none as in R179; the time of a SET-DONE is
its arrival time, or the time of the handover (R130). -/
inductive ReMsg where
  | grant (key : RouteKey) (claimId : Nat)
  | deny (key : RouteKey) (reason : DenyReason) (step : Nat) (detail : Option Nat)
  | setDone (key : RouteKey) (at_ : Time)
  | setFail (key : RouteKey) (point : Option Nat) (cause : SetFailCause)
  | passed (key : RouteKey) (step : Nat)
  | claimLost (key : RouteKey) (cause : LostCause) (point : Option Nat)
deriving DecidableEq, Repr

/-- What RE hands to its own YU (R123 to R128). -/
inductive YuMsg where
  | bidCall (call : CallId) (tram : TramRec)
  | award (call : CallId) (road : Nat) (tram : TramRec) (direct : Bool)
  | withdraw (call : CallId)
deriving DecidableEq, Repr

/-- What YU hands to its own RE (R125, R148, R154). -/
inductive FromYu where
  | bid (call : CallId) (road score : Nat)
  | roadChange (road : Nat)
deriving DecidableEq, Repr

/-- Cause of a cancel that RQ passes to RE (R86, R87). -/
inductive CancelMark where
  | requested
  | lifetime
deriving DecidableEq, Repr

/-- A cancel passed to RE for an instance; slot and serial say for which request (R86, log entry 24). -/
structure CancelMsg where
  inst : Nat
  slot : Nat
  serial : Serial
  cause : CancelMark
deriving DecidableEq, Repr

/-! ## LI and FS -/

/-- Receive synchronisation state (R41). -/
inductive Sync where
  | hunt
  | check
  | inStep
deriving DecidableEq, Repr

/-- A frame in assembly (R43). -/
structure Assembly where
  bytes : List Byte
  damaged : Bool
deriving DecidableEq, Repr

/-- The twenty frame kinds (R49). -/
inductive Kind where
  | announce
  | state
  | holdOff
  | claim
  | grant
  | deny
  | set
  | setDone
  | setFail
  | release
  | passed
  | claimLost
  | bidCall
  | bid
  | award
  | awardWithdraw
  | roadChange
  | inspect
  | inspectReply
  | event
deriving DecidableEq, Repr

/-- Peer state (R62). -/
inductive PeerState where
  | unknown
  | joining
  | inStep
  | silent
  | lost
deriving DecidableEq, Repr

/-- PEER_STATE of a receive record (R46). -/
inductive RxPeer where
  | own
  | other (state : PeerState) (notHearing : Bool)
deriving DecidableEq, Repr

/-- Receive record (R46). -/
structure RxRec where
  arrival : Time
  source : Nat
  epoch : Epoch
  peer : RxPeer
  epochMatch : Bool
deriving DecidableEq, Repr

/-- A received frame in a buffer, with its receive record (R46). -/
structure RxFrame where
  kind : Kind
  rx : RxRec
  payload : List Byte
deriving DecidableEq, Repr

/-- A frame in the transmit queue (R51). `dest` 63 is broadcast. -/
structure TxFrame where
  kind : Kind
  dest : Nat
  payload : List Byte
  age : Nat
  deferred : Bool
deriving DecidableEq, Repr

/-- The frame a station contends with in an access round: its age, and its access rank, the step at which the station starts (R54). -/
structure Candidate where
  age : Nat
  rank : Nat
deriving DecidableEq, Repr

/-- Where the station stands in the access to the line (R54): not aligned; in a round with the frame it contends with, or with none; or
waiting for the idle point of a burst it heard. -/
inductive Access where
  | unaligned
  | round (candidate : Option Candidate)
  | waiting
deriving DecidableEq, Repr

/-- A code word as a transmitter sends it: the symbol, and the running disparity by which the word was chosen (R40). -/
structure CodeWord where
  symbol : LineSymbol
  rd : Disparity
deriving DecidableEq, Repr

/-- LI. -/
structure LI where
  sync : Sync
  /-- The symbol alignment taken from the comma (R41). -/
  align : Fin 10
  /-- The running disparity of what is received (R40, R41). -/
  disparity : Disparity
  violRun : Nat
  symCount : Nat
  violCount : Nat
  linePoor : Bool
  asm : Option Assembly
  access : Access
  /-- The burst in transmission: the code words of preamble, start delimiter, frame and end delimiter (R40, R53). -/
  sending : Option (List CodeWord)
  seq : Byte
deriving DecidableEq, Repr

/-- FS. -/
structure FS where
  free : Nat
  /-- The frames of all twenty inboxes in arrival order; the inbox of a kind is the list of its frames (R49). -/
  inbox : List RxFrame
  /-- The active lists of all four levels; the active list of a level is the list of its kinds (R49). -/
  active : List Kind
  /-- The frame the frame handler is busy with; none: free (R50). -/
  handler : Option RxFrame
  /-- The receive records of the frames with the node's own source, in handling by PT (R45). -/
  ownFrames : List RxRec
  queue : List TxFrame
  nextAge : Nat
  /-- End times of the hold-off timers of peers 0-62; none: stopped (R55). -/
  holdOff : List (Option Time)
  poolTimer : Option Timer
  poolLow : Bool
  txDrop : Bool
  /-- Whether the previous start delimiter taken obtained a buffer; none: none taken since reset (R47). -/
  lastStart : Option Bool
deriving DecidableEq, Repr

/-- The counters of group 0, in the order of R170. -/
structure Counters where
  code : Counter
  undersize : Counter
  oversize : Counter
  crc : Counter
  length : Counter
  unknownKind : Counter
  noBuffer : Counter
  noBufferBursts : Counter
  levelMismatch : Counter
  txDisplaced : Counter
  txDrop : Counter
  duplicateId : Counter
  ownIdSameEpoch : Counter
  badTelegram : Counter
  badTram : Counter
  granted : Counter
  denied : Counter
  lostSent : Counter
  orphaned : Counter
  orphanReleased : Counter
  bidCalls : Counter
  attemptsFailed : Counter
  routesSet : Counter
  staleReplies : Counter
  bidsSent : Counter
  awardsTaken : Counter
  awardsIgnored : Counter
  pushes : Counter
  pops : Counter
  roadWrites : Counter
  roadWriteFails : Counter
  inspectsAnswered : Counter
deriving DecidableEq, Repr

/-! ## PT -/

/-- Mode of a peer as its STATE frames show it (R62). -/
inductive PeerMode where
  | joining
  | running
  | isolated
deriving DecidableEq, Repr

/-- Peer record (R62). The lock map is kept as sent: section 0 is its most significant bit (R179). -/
structure PeerRec where
  state : PeerState
  epoch : Option Epoch
  lastState : Option Time
  mode : Option PeerMode
  cause : Option ResetCause
  lockMap : Option (BitVec 16)
  missRun : Nat
  notHearing : Bool
  owed : Bool
  epochChanges : Counter
  losses : Counter
deriving DecidableEq, Repr

/-- PT. -/
structure PT where
  mode : Mode
  cause : ResetCause
  node : Nat
  epoch : Epoch
  listen : Option Timer
  /-- ANNOUNCE frames offered since entry into JOINING (R59). -/
  announces : Nat
  /-- STATE timer: ms since the last moment a STATE frame was asked for; none: stopped (R60). -/
  stateMs : Option Nat
  peers : List PeerRec
deriving DecidableEq, Repr

/-! ## DU, PU, SU -/

/-- State and runs of a section (R1, R8). -/
structure SectRec where
  state : SectState
  clearRun : Nat
  distRun : Nat
deriving DecidableEq, Repr

/-- DU: records of the configured sections, and the sixteen disturbance counters. -/
structure DU where
  sects : List SectRec
  disturb : List Counter
deriving DecidableEq, Repr

/-- Point state (R18). -/
inductive PointState where
  | detN
  | detR
  | moving
  | backing
  | noDet
  | bothDet
  | failed
deriving DecidableEq, Repr

/-- Drive of a point (R18). -/
inductive Drive where
  | off
  | toNormal
  | toReverse
deriving DecidableEq, Repr

/-- Point record (R18). -/
structure PointRec where
  state : PointState
  target : Option Position
  start : Option Position
  retry : Bool
  drive : Drive
  travel : Option Timer
  seekRun : Nat
  lossRun : Nat
  /-- Every reading of the present loss run was BOTH (R27). -/
  lossBoth : Bool
  recRun : Nat
  recContact : Option Position
  faultRun : Nat
deriving DecidableEq, Repr

/-- PU. -/
structure PU where
  points : List PointRec
  moves : List Counter
  fails : List Counter
  /-- NORMAL and REVERSE contact levels of the window not yet evaluated (R5). -/
  readings : Option (BitVec 8 × BitVec 8)
  notices : List SectNotice
  permEnds : List Nat
deriving DecidableEq, Repr

/-- Signal state (R31). -/
inductive SignalState where
  | stop
  | clearing
  | proceed
  | lampFault
deriving DecidableEq, Repr

/-- A lamp of a signal (R31). -/
inductive Lamp where
  | stop
  | left
  | straight
  | right
deriving DecidableEq, Repr

/-- Phase of a lamp trial (R37). -/
inductive TrialPhase where
  | dark
  | lit
deriving DecidableEq, Repr

/-- Signal record (R31); its last field is the model's own (R17, log entry 50). -/
structure SignalRec where
  state : SignalState
  dir : Option Direction
  lit : Option Lamp
  proof : Nat
  dark : Nat
  clearing : Option Timer
  trial : Option (TrialPhase × Timer)
  /-- How many exchanges have sent the lit lamp since SU lit it, 2 for two or more (R17). -/
  sent : Nat
deriving DecidableEq, Repr

/-- The window's lamp-proving levels (R17). -/
structure LampReadings where
  stop : BitVec 8
  left : BitVec 8
  straight : BitVec 8
  right : BitVec 8
deriving DecidableEq, Repr

/-- SU. -/
structure SU where
  signals : List SignalRec
  readings : Option LampReadings
  commands : List SuCommand
deriving DecidableEq, Repr

/-- The outputs on the field as the last exchange sent them (R17). -/
structure Field where
  drives : List Drive
  lamps : List (Option Lamp)
deriving DecidableEq, Repr

/-! ## RQ -/

/-- What follows a completed telegram at a reader input (R75): nothing, the 3 ms in which a byte is an overrun, or an overrun
already counted. -/
inductive Overrun where
  | none
  | armed
  | counted
deriving DecidableEq, Repr

/-- Refusal hold (R79). The request code is kept as sent. -/
structure Hold where
  tram : Nat
  code : Nat
  endTime : Time
deriving DecidableEq, Repr

/-- Request point record (R74). The assembly is idle when it holds no byte. -/
structure ReqPoint where
  bytes : List Byte
  damaged : Bool
  /-- Time since the last stop bit, toward 3 ms (R75). -/
  gap : Option Timer
  overrun : Overrun
  hold : Option Hold
deriving DecidableEq, Repr

/-- A completed telegram on its way to validation (R75). -/
structure Telegram where
  point : Nat
  bytes : List Byte
  arrival : Time
deriving DecidableEq, Repr

/-- Request code of a request slot (R81). -/
inductive ReqCode where
  | inbound
  | outbound
  | road
  | dest
deriving DecidableEq, Repr

/-- What a QUEUED or ACTIVE slot holds (R81). -/
structure SlotData where
  serial : Serial
  tram : Nat
  places : Nat
  runOut : Nat
  code : ReqCode
  road : Option (Nat × Nat)
  destCode : Option Nat
  point : Nat
  signal : Nat
  route : Option Nat
  arrival : Time
  attempts : Nat
deriving DecidableEq, Repr

/-- A request slot (R81). -/
inductive Slot where
  | free
  | queued (d : SlotData)
  | active (d : SlotData) (inst : Nat) (mark : Option CancelMark)
deriving DecidableEq, Repr

/-- Detail of a refusal (R78). -/
inductive RefusalDetail where
  | badCode
  | noRoute
  | tableFull
  | notReady
  | signalFault
  | blocked
deriving DecidableEq, Repr

/-- Detail of a cancellation (R88). -/
inductive CancelDetail where
  | requested
  | approachTimeout
  | isolation
deriving DecidableEq, Repr

/-- Outcome code with its detail (R88). -/
inductive OutcomeCode where
  | done
  | degraded
  | cancelled (d : CancelDetail)
  | expired
  | clearFail
  | refused (d : RefusalDetail)
deriving DecidableEq, Repr

/-- Outcome record (R88). -/
structure OutcomeRec where
  serial : Option Serial
  tram : Nat
  signal : Nat
  code : OutcomeCode
  time : Time
deriving DecidableEq, Repr

/-- An outcome that RE gives to RQ (R88). -/
structure OutcomeMsg where
  inst : Nat
  slot : Nat
  serial : Serial
  code : OutcomeCode
deriving DecidableEq, Repr

/-- RQ. -/
structure RQ where
  points : List ReqPoint
  telegrams : List Telegram
  slots : List Slot
  queues : List (List Nat)
  serial : Serial
  lastServed : Nat
  /-- Outcome ring, newest record first (R90). -/
  ring : List OutcomeRec
  fault : List Bool
  lamps : List Bool
  outcomes : List OutcomeMsg
  isolated : Bool
deriving DecidableEq, Repr

/-! ## RE -/

/-- Instance state (R121). -/
inductive ReState where
  | calling
  | claiming
  | setting
  | clearing
  | clear
  | entered
  | backoff
  | cancelling
  | halted
deriving DecidableEq, Repr

/-- Call phase (R121). -/
inductive CallPhase where
  | bidding
  | waiting
  | awarding
deriving DecidableEq, Repr

/-- Best bid (R121). -/
structure BestBid where
  node : Nat
  road : Nat
  score : Nat
deriving DecidableEq, Repr

/-- Award of an instance (R121). -/
structure AwardRec where
  call : CallId
  node : Nat
  road : Nat
  direct : Bool
deriving DecidableEq, Repr

/-- Reply of an owner (R121). -/
inductive Reply where
  | none
  | granted (claimId : Nat)
  | denied
deriving DecidableEq, Repr

/-- Owner entry of an instance (R121). `changed`: the owner's epoch has changed (R134, R136). -/
structure OwnerEntry where
  node : Nat
  asked : Bool
  reply : Reply
  epoch : Option Epoch
  setDone : Bool
  setDoneTime : Option Time
  lost : Bool
  changed : Bool
deriving DecidableEq, Repr

/-- Cancel cause (R121). -/
inductive CancelCause where
  | requested
  | lifetime
  | approach
  | halt
  | lamp
deriving DecidableEq, Repr

/-- The nine timers of an instance (R121). -/
structure ReTimers where
  bid : Option Timer
  roadWait : Option Timer
  awardWait : Option Timer
  claim : Option Timer
  set : Option Timer
  approach : Option Timer
  runThrough : Option Timer
  delay : Option Timer
  retry : Option Timer
deriving DecidableEq, Repr

/-- A route instance in use (R121). -/
structure Inst where
  state : ReState
  slot : Nat
  serial : Serial
  tram : Nat
  places : Nat
  runOut : Nat
  code : ReqCode
  signal : Nat
  route : Option Nat
  attempt : Option Nat
  phase : Option CallPhase
  call : Option CallId
  best : Option BestBid
  bidders : List Nat
  award : Option AwardRec
  owners : List OwnerEntry
  passed : List Bool
  cause : Option CancelCause
  claimLost : Bool
  timers : ReTimers
deriving DecidableEq, Repr

/-- RE. -/
structure RE where
  insts : List (Option Inst)
  callSeq : Nat
  notices : List SectNotice
  peerNotices : List PeerNotice
  isolated : Bool
  cancels : List CancelMsg
  reports : List SuReport
  fromCt : List ReMsg
  fromYu : List FromYu
deriving DecidableEq, Repr

/-! ## CT -/

/-- State of a claim record in use (R92). -/
inductive ClaimState where
  | reserved
  | setting
  | set
  | orphaned
deriving DecidableEq, Repr

/-- A step of a claim record, with the kept points of its section (R92). -/
structure ClaimStep where
  number : Nat
  sect : Nat
  demands : List Demand
  nextLocal : Bool
  mouth : Bool
  /-- Locked; otherwise released. -/
  locked : Bool
  seen : Bool
  orphan : Option Timer
  kept : List Nat
deriving DecidableEq, Repr

/-- A claim record in use (R92). `lostPoint` is the point whose loss set the lost mark (R104, R116). -/
structure Claim where
  state : ClaimState
  key : RouteKey
  cls : RouteClass
  tram : Nat
  approach : Nat
  steps : List ClaimStep
  award : Option AwardRef
  prev : Option ClaimState
  orders : List Nat
  setFail : Bool
  lost : Bool
  lostPoint : Option Nat
  lostSent : Bool
  releaseMark : Bool
  orphanPending : Bool
  reservedT : Option Timer
  setT : Option Timer
deriving DecidableEq, Repr

/-- CT. A record that is not in use is `none` (FREE). -/
structure CT where
  records : List (Option Claim)
  free : List Nat
  /-- The lock of each configured section: the claim ID that locks it (R94). -/
  locks : List (Option Nat)
  notices : List SectNotice
  peerNotices : List PeerNotice
  isolated : Bool
  reports : List PuReport
  fromRe : List CtMsg
deriving DecidableEq, Repr

/-! ## YU -/

/-- Condition of a road (R146). -/
inductive RoadCond where
  | known
  | doubtful
deriving DecidableEq, Repr

/-- Cause of a change to DOUBTFUL (R146). -/
inductive DoubtCause where
  | unexpectedArrival
  | unknownDeparture
  | outOfOrder
  | duplicateTram
  | unrecordedArrival
  | restoreBad
  | restoreOverfill
  | restoreDuplicate
deriving DecidableEq, Repr

/-- Pending arrival (R145). -/
structure Arrival where
  call : CallId
  epoch : Epoch
  tram : TramRec
  direct : Bool
  link : Option Nat
  hold : Option Timer
  gone : Bool
deriving DecidableEq, Repr

/-- Offer of a road (R148). -/
structure Offer where
  call : CallId
  epoch : Epoch
  expiry : Time
deriving DecidableEq, Repr

/-- Road record (R144 to R148): the stack is ordered from the buffer-stop end to the entry end. -/
structure RoadRec where
  cond : RoadCond
  stack : List TramRec
  arrivals : List Arrival
  offer : Option Offer
deriving DecidableEq, Repr

/-- YU. -/
structure YU where
  roads : List RoadRec
  queue : List Nat
  notices : List SectNotice
  peerNotices : List PeerNotice
  isolated : Bool
  fromRe : List YuMsg
deriving DecidableEq, Repr

/-! ## MI and RP -/

/-- Where start-up stands (R171, R172): RESET held; reading the image; reading and writing the epoch; restoring the roads; start-up
ended (in JOINING or in CONFIG_FAULT). -/
inductive Startup where
  | held
  | image
  | epoch
  | restore
  | ended
deriving DecidableEq, Repr

/-- MI. -/
structure MI where
  /-- The configuration memory (R181), in the canonical form of `Memory.wf`. -/
  mem : List Host.Cell
  startup : Startup
  /-- The yard description read and checked, not yet handed to the blocks (R172). -/
  desc : Yard
  clamps : List Clamp
  /-- The road write in hand: road and content (R161, R177). -/
  writing : Option (Nat × List Byte)
deriving DecidableEq, Repr

/-- RP. -/
structure RP where
  serial : Serial
deriving DecidableEq, Repr

/-! ## The whole machine -/

/-- The state of the part. -/
structure State where
  /-- The commands that wait, first in first out (log entry 1). -/
  pending : List Instr
  time : Time
  windowMs : Nat
  /-- Windows still to end that started before the node entered JOINING, and are not evaluated (R5, R16). -/
  oldWindows : Nat
  field : Field
  freeIdx : Nat
  yard : Yard
  li : LI
  fs : FS
  cnt : Counters
  pt : PT
  du : DU
  pu : PU
  su : SU
  rq : RQ
  re : RE
  ct : CT
  yu : YU
  mi : MI
  rp : RP
deriving DecidableEq, Repr

/-! ## Reset values -/

/-- LI after either reset (R57). Alignment and running disparity of a receiver in HUNT: DESIGN CHOICE 0 and negative until a comma sets
them (log entry 10). -/
def LI.reset : LI := ⟨.hunt, 0, .negative, 0, 0, 0, false, none, .unaligned, none, 0⟩

/-- FS after either reset (R57). -/
def FS.reset : FS := ⟨32, [], [], none, [], [], 0, List.replicate 63 none, none, false, false, none⟩

/-- Group 0 after either reset (R170). -/
def Counters.reset : Counters :=
  ⟨0, 0, 0, 0, 0, 0, 0, 0, 0, 0, 0, 0, 0, 0, 0, 0, 0, 0, 0, 0, 0, 0, 0, 0, 0, 0, 0, 0, 0, 0, 0, 0⟩

/-- A peer record after either reset (R62). -/
def PeerRec.reset : PeerRec := ⟨.unknown, none, none, none, none, none, 0, false, false, 0, 0⟩

/-- PT after a reset of the given cause (R58, R62). Node ID and epoch: DESIGN CHOICE 0 until start-up sets them (log entry 10). -/
def PT.reset (cause : ResetCause) : PT :=
  ⟨.start, cause, 0, 0, none, 0, none, List.replicate 63 PeerRec.reset⟩

/-- A section after either reset (R16). -/
def SectRec.reset : SectRec := ⟨.occupied, 0, 0⟩

/-- A point after either reset (R18). -/
def PointRec.reset : PointRec := ⟨.noDet, none, none, false, .off, none, 0, 0, false, 0, none, 0⟩

/-- A signal after either reset (R31). -/
def SignalRec.reset : SignalRec := ⟨.stop, none, none, 0, 0, none, none, 0⟩

/-- DU after a power-on reset (R13). -/
def DU.reset : DU := ⟨[], List.replicate 16 0⟩

/-- PU after a power-on reset (R18). -/
def PU.reset : PU := ⟨[], List.replicate 8 0, List.replicate 8 0, none, [], []⟩

/-- SU after either reset (R31). -/
def SU.reset : SU := ⟨[], none, []⟩

/-- The field outputs after either reset: all off (R171). -/
def Field.reset : Field := ⟨[], []⟩

/-- A request point after either reset (R74, R91). -/
def ReqPoint.reset : ReqPoint := ⟨[], false, none, .none, none⟩

/-- RQ after either reset (R91). -/
def RQ.reset : RQ :=
  ⟨List.replicate 8 ReqPoint.reset, [], List.replicate 16 .free, List.replicate 8 [], 0, 7, [],
    List.replicate 8 false, List.replicate 8 false, [], false⟩

/-- RE after either reset (R121). -/
def RE.reset : RE := ⟨List.replicate 8 none, 0, [], [], false, [], [], [], []⟩

/-- CT after either reset (R93, R94). -/
def CT.reset : CT := ⟨List.replicate 32 none, List.range 32, [], [], [], false, [], []⟩

/-- YU after either reset, before restore (R164). -/
def YU.reset : YU := ⟨[], [], [], [], false, []⟩

/-- MI after either reset, with the memory given (R171). -/
def MI.reset (mem : List Host.Cell) : MI := ⟨mem, .held, Yard.none, [], none⟩

/-- RP after either reset (R167). -/
def RP.reset : RP := ⟨0⟩

/-- The machine right after a power-on reset, RESET still held and no command waiting (R171). The memory lists nothing (log entry
8); time base and window clock are at 0 (log entry 10). -/
def State.reset : State where
  pending := []
  time := 0
  windowMs := 0
  oldWindows := 0
  field := Field.reset
  freeIdx := 0
  yard := Yard.none
  li := LI.reset
  fs := FS.reset
  cnt := Counters.reset
  pt := PT.reset .powerOn
  du := DU.reset
  pu := PU.reset
  su := SU.reset
  rq := RQ.reset
  re := RE.reset
  ct := CT.reset
  yu := YU.reset
  mi := MI.reset []
  rp := RP.reset

end Sys2Proof.Machine
end

