-- ==== Sys2Proof/Machine/Ops.lean ====
section
/-! DEFINITION. The named operations that every block uses: the time base and the timers, the configuration memory, the byte
order, the counters, updates of one record of a block, and the lists of events that wait for a block. -/

namespace Sys2Proof.Machine

/-! ## Time -/

/-- ms from `t` to `now` on the 32-bit time base (log entry 19). -/
def since (now t : Time) : Nat :=
  (now - t).toNat

/-- The time base has reached `t` (log entry 19: the 32-bit base is read as a circle). -/
def reached (now t : Time) : Bool :=
  since now t < 2147483648

/-- `t` plus `ms` on the 32-bit time base. -/
def after (t : Time) (ms : Nat) : Time :=
  t + BitVec.ofNat 32 ms

/-- A timer started at 0 toward `limit`. -/
def startTimer (limit : Nat) : Option Timer :=
  some ⟨0, limit⟩

/-- A running timer has reached its limit. -/
def due (t : Option Timer) : Bool :=
  match t with
  | some t => t.limit ≤ t.elapsed
  | none => false

/-- A running timer counts 1 ms, and rests at its limit until its expiry is taken. -/
def tickTimer (t : Option Timer) : Option Timer :=
  match t with
  | some t => some ⟨min (t.elapsed + 1) t.limit, t.limit⟩
  | none => none

/-! ## Lists -/

/-- The first item that `p` accepts, with the list of the others in their order. -/
def takeFirst {α : Type} (p : α → Bool) : List α → Option (α × List α)
  | [] => none
  | x :: xs =>
    if p x then some (x, xs)
    else match takeFirst p xs with
      | some (y, ys) => some (y, x :: ys)
      | none => none

/-- The index of the first item that `p` accepts, counted from `k`. -/
def firstIndexFrom {α : Type} (p : α → Bool) (k : Nat) : List α → Option Nat
  | [] => none
  | x :: xs => if p x then some k else firstIndexFrom p (k + 1) xs

/-- The index of the first item that `p` accepts. -/
def firstIndex {α : Type} (p : α → Bool) (l : List α) : Option Nat :=
  firstIndexFrom p 0 l

/-- Appends to a list what it does not hold yet. -/
def addNew (l : List Nat) (k : Nat) : List Nat :=
  if l.contains k then l else l ++ [k]

/-- A list of numbers holds one twice. -/
def hasTwice : List Nat → Bool
  | [] => false
  | x :: xs => xs.contains x || hasTwice xs

/-- Runs an operation for each item of a list, in order. -/
def forEach {α : Type} (l : List α) (f : α → State → State) (s : State) : State :=
  match l with
  | [] => s
  | x :: xs => forEach xs f (f x s)

/-! ## Bytes (R178) -/

/-- One byte of a number. -/
def byte (n : Nat) : Byte :=
  BitVec.ofNat 8 n

/-- A 2-byte field, high byte first. -/
def bytes2 (n : Nat) : List Byte :=
  [byte (n / 256), byte n]

/-- A 3-byte field, high byte first. -/
def bytes3 (n : Nat) : List Byte :=
  byte (n / 65536) :: bytes2 n

/-- A 4-byte field, high byte first. -/
def bytes4 (n : Nat) : List Byte :=
  byte (n / 16777216) :: bytes3 n

/-- Byte `k` of a layout; 0 beyond its last byte. -/
def byteAt (l : List Byte) (k : Nat) : Nat :=
  match l[k]? with
  | some b => b.toNat
  | none => 0

/-- The 2-byte field at offset `k`. -/
def wordAt (l : List Byte) (k : Nat) : Nat :=
  256 * byteAt l k + byteAt l (k + 1)

/-- Sum of bytes, modulo 256. -/
def byteSum : List Byte → Byte
  | [] => 0
  | b :: bs => b + byteSum bs

/-- The check byte of the bytes it covers: FFh minus their sum modulo 256. -/
def checkByte (l : List Byte) : Byte :=
  255 - byteSum l

/-! ## The configuration memory (R181) -/

/-- Reads one byte; an address the memory does not list reads as an unwritten byte. -/
def readByte (m : List Host.Cell) (a : Nat) : Byte :=
  match m with
  | [] => Config.unwrittenByte
  | (k, b) :: rest => if k = a then b else readByte rest a

/-- Reads `n` bytes from address `a` on. -/
def readBytes (m : List Host.Cell) (a n : Nat) : List Byte :=
  match n with
  | 0 => []
  | n + 1 => readByte m a :: readBytes m (a + 1) n

/-- The cells after writing `b` at `a`, with the cells below already passed; writing the unwritten value removes the cell. -/
def writeByte (m : List Host.Cell) (a : Nat) (b : Byte) : List Host.Cell :=
  match m with
  | [] => if b = Config.unwrittenByte then [] else [(a, b)]
  | (k, c) :: rest =>
    if k < a then (k, c) :: writeByte rest a b
    else
      let tail := if k = a then rest else (k, c) :: rest
      if b = Config.unwrittenByte then tail else (a, b) :: tail

/-- Writes bytes from address `a` on. -/
def writeBytes (m : List Host.Cell) (a : Nat) (l : List Byte) : List Host.Cell :=
  match l with
  | [] => m
  | b :: bs => writeBytes (writeByte m a b) (a + 1) bs

/-- The canonical form: addresses strictly rising, inside the memory, and no cell that reads as an unwritten one. -/
def Memory.wf : List Host.Cell → Bool
  | [] => true
  | [(k, b)] => decide (k < Config.memoryBytes) && decide (b ≠ Config.unwrittenByte)
  | (k, b) :: (k', b') :: rest =>
    decide (k < k') && decide (b ≠ Config.unwrittenByte) && Memory.wf ((k', b') :: rest)

/-- Address of epoch copy A (R181). -/
def epochAddrA : Nat := 7936
/-- Address of epoch copy B (R181). -/
def epochAddrB : Nat := 7952
/-- Address of the road record of road `r` (R181). -/
def roadAddr (r : Nat) : Nat := 8000 + 40 * r

/-! ## Free values (log entry 9) -/

/-- `n` free bytes. -/
def freeBytes (k n : Nat) : List Byte :=
  match n with
  | 0 => []
  | n + 1 => Config.freeByte k :: freeBytes (k + 1) n

/-- `n` free bytes and a check byte that does not match them, whichever it is. -/
def badRecord (k n : Nat) : List Byte :=
  let body := freeBytes k n
  body ++ [checkByte body + 1 + BitVec.ofNat 8 (Config.freeChoice (k + n) % 255)]

/-! ## Node and elements -/

/-- The bus is on and the blocks evaluate: JOINING, RUNNING and ISOLATED (R57, R16). -/
def Mode.active : Mode → Bool
  | .joining | .running | .isolated => true
  | .start | .configFault => false

/-- State of a section as DU holds it; none for an unconfigured one. -/
def State.sectState (s : State) (k : Nat) : Option SectState :=
  (s.du.sects[k]?).map (·.state)

/-- The section is CLEAR. -/
def State.sectClear (s : State) (k : Nat) : Bool :=
  s.sectState k == some .clear

/-- The section is held occupied: OCCUPIED or DISTURBED (R12). -/
def State.heldOccupied (s : State) (k : Nat) : Bool :=
  s.sectState k == some .occupied || s.sectState k == some .disturbed

/-- Role of a section. -/
def State.sectRole (s : State) (k : Nat) : Option SectRole :=
  (s.yard.sects[k]?).map (·.role)

/-- Contained points of a section (R3). -/
def State.containedPoints (s : State) (k : Nat) : List Nat :=
  match s.yard.sects[k]? with
  | some c => c.points
  | none => []

/-- Point state as PU holds it. -/
def State.pointState (s : State) (p : Nat) : Option PointState :=
  (s.pu.points[p]?).map (·.state)

/-- The claim record with the given ID, where it is in use. -/
def State.claim? (s : State) (id : Nat) : Option Claim :=
  match s.ct.records[id]? with
  | some (some c) => some c
  | _ => none

/-- The claim ID that locks a section (R94). -/
def State.lock? (s : State) (k : Nat) : Option Nat :=
  match s.ct.locks[k]? with
  | some (some id) => some id
  | _ => none

/-- The route instance with the given index, where it is in use. -/
def State.inst? (s : State) (i : Nat) : Option Inst :=
  match s.re.insts[i]? with
  | some (some x) => some x
  | _ => none

/-- Peer record of a node other than this one; the record at the own ID is not used (R62). -/
def State.peer? (s : State) (k : Nat) : Option PeerRec :=
  if k = s.pt.node then none else s.pt.peers[k]?

/-! ## Updates of one record -/

/-- Changes one section record. -/
def State.modSect (s : State) (k : Nat) (f : SectRec → SectRec) : State :=
  { s with du := { s.du with sects := s.du.sects.modify k f } }

/-- Changes one point record. -/
def State.modPoint (s : State) (p : Nat) (f : PointRec → PointRec) : State :=
  { s with pu := { s.pu with points := s.pu.points.modify p f } }

/-- Changes one signal record. -/
def State.modSignal (s : State) (g : Nat) (f : SignalRec → SignalRec) : State :=
  { s with su := { s.su with signals := s.su.signals.modify g f } }

/-- Changes one peer record. -/
def State.modPeer (s : State) (k : Nat) (f : PeerRec → PeerRec) : State :=
  { s with pt := { s.pt with peers := s.pt.peers.modify k f } }

/-- Changes one request point record. -/
def State.modReqPoint (s : State) (p : Nat) (f : ReqPoint → ReqPoint) : State :=
  { s with rq := { s.rq with points := s.rq.points.modify p f } }

/-- Sets one request slot. -/
def State.setSlot (s : State) (i : Nat) (x : Slot) : State :=
  { s with rq := { s.rq with slots := s.rq.slots.set i x } }

/-- Changes one route instance, where it is in use. -/
def State.modInst (s : State) (i : Nat) (f : Inst → Inst) : State :=
  { s with re := { s.re with insts := s.re.insts.modify i (Option.map f) } }

/-- Sets one route instance. -/
def State.setInst (s : State) (i : Nat) (x : Option Inst) : State :=
  { s with re := { s.re with insts := s.re.insts.set i x } }

/-- Changes one claim record, where it is in use. -/
def State.modClaim (s : State) (id : Nat) (f : Claim → Claim) : State :=
  { s with ct := { s.ct with records := s.ct.records.modify id (Option.map f) } }

/-- Changes one road record. -/
def State.modRoad (s : State) (r : Nat) (f : RoadRec → RoadRec) : State :=
  { s with yu := { s.yu with roads := s.yu.roads.modify r f } }

/-- Changes the counters of group 0. -/
def State.count (s : State) (f : Counters → Counters) : State :=
  { s with cnt := f s.cnt }

/-! ## Events that wait for a block -/

/-- DU gives a section-change notice to each of CT, PU, RE and YU (R14). -/
def State.giveSectNotice (s : State) (n : SectNotice) : State :=
  { s with
    ct := { s.ct with notices := s.ct.notices ++ [n] }
    pu := { s.pu with notices := s.pu.notices ++ [n] }
    re := { s.re with notices := s.re.notices ++ [n] }
    yu := { s.yu with notices := s.yu.notices ++ [n] } }

/-- PT gives a notice about a peer to each of CT, RE and YU (R69). -/
def State.givePeerNotice (s : State) (n : PeerNotice) : State :=
  { s with
    ct := { s.ct with peerNotices := s.ct.peerNotices ++ [n] }
    re := { s.re with peerNotices := s.re.peerNotices ++ [n] }
    yu := { s.yu with peerNotices := s.yu.peerNotices ++ [n] } }

/-- PU reports to CT (R20, R27). -/
def State.reportToCt (s : State) (r : PuReport) : State :=
  { s with ct := { s.ct with reports := s.ct.reports ++ [r] } }

/-- SU reports to RE (R32). -/
def State.reportToRe (s : State) (r : SuReport) : State :=
  { s with re := { s.re with reports := s.re.reports ++ [r] } }

/-- RE, or PT on isolation, commands SU (R32, R72). -/
def State.commandSu (s : State) (c : SuCommand) : State :=
  { s with su := { s.su with commands := s.su.commands ++ [c] } }

/-- CT gives PU a permission-end notice (R19, R94). -/
def State.endPermission (s : State) (p : Nat) : State :=
  { s with pu := { s.pu with permEnds := s.pu.permEnds ++ [p] } }

/-- RE hands its own CT a message (R103). -/
def State.handCt (s : State) (m : CtMsg) : State :=
  { s with ct := { s.ct with fromRe := s.ct.fromRe ++ [m] } }

/-- CT hands its own RE a message (R103). -/
def State.handRe (s : State) (m : ReMsg) : State :=
  { s with re := { s.re with fromCt := s.re.fromCt ++ [m] } }

/-- RE hands its own YU a message (R123 to R128). -/
def State.handYu (s : State) (m : YuMsg) : State :=
  { s with yu := { s.yu with fromRe := s.yu.fromRe ++ [m] } }

/-- YU hands its own RE a message (R125, R148). -/
def State.handReFromYu (s : State) (m : FromYu) : State :=
  { s with re := { s.re with fromYu := s.re.fromYu ++ [m] } }

/-- The peer that a notice is about. -/
def PeerNotice.peer : PeerNotice → Nat
  | .unusable k _ | .usable k _ | .epochChange k _ _ => k

/-- The point that a report is about. -/
def PuReport.point : PuReport → Nat
  | .moveDone p | .moveFail p _ | .detectionLost p => p

/-- The signal that a command is about. -/
def SuCommand.signal : SuCommand → Nat
  | .proceed g _ | .stop g => g

/-- The signal that a report is about. -/
def SuReport.signal : SuReport → Nat
  | .proved g | .clearFail g | .lampFault g => g

end Sys2Proof.Machine
end

