-- ==== Sys2Proof/Machine/Clock.lean ====
section
/-! DEFINITION. One millisecond of the 1 ms time base (00_scope.md section 6): what it does to the clocks and the timers. Step runs it
on an empty queue (log entry 1). A timer counts and rests at its limit; what its expiry does is the expiry's own command (log entry
3). -/

namespace Sys2Proof.Machine

/-- 1 ms of a count that may be stopped. -/
def tickCount (t : Option Nat) : Option Nat :=
  t.map (· + 1)

/-- 1 ms of a point. -/
def PointRec.tick (r : PointRec) : PointRec :=
  { r with travel := tickTimer r.travel }

/-- 1 ms of a signal. -/
def SignalRec.tick (r : SignalRec) : SignalRec :=
  { r with
    clearing := tickTimer r.clearing
    trial := match r.trial with
      | some (phase, t) => some (phase, ⟨min (t.elapsed + 1) t.limit, t.limit⟩)
      | none => none }

/-- 1 ms of a request point. -/
def ReqPoint.tick (r : ReqPoint) : ReqPoint :=
  { r with gap := tickTimer r.gap }

/-- 1 ms of the timers of an instance. -/
def ReTimers.tick (t : ReTimers) : ReTimers :=
  ⟨tickTimer t.bid, tickTimer t.roadWait, tickTimer t.awardWait, tickTimer t.claim, tickTimer t.set, tickTimer t.approach,
    tickTimer t.runThrough, tickTimer t.delay, tickTimer t.retry⟩

/-- 1 ms of an instance. -/
def Inst.tick (x : Inst) : Inst :=
  { x with timers := x.timers.tick }

/-- 1 ms of a step of a claim record. -/
def ClaimStep.tick (st : ClaimStep) : ClaimStep :=
  { st with orphan := tickTimer st.orphan }

/-- 1 ms of a claim record. -/
def Claim.tick (c : Claim) : Claim :=
  { c with reservedT := tickTimer c.reservedT, setT := tickTimer c.setT, steps := c.steps.map ClaimStep.tick }

/-- 1 ms of a road. -/
def RoadRec.tick (r : RoadRec) : RoadRec :=
  { r with arrivals := r.arrivals.map (fun a => { a with hold := tickTimer a.hold }) }

/-- 1 ms of the part. While RESET is held nothing runs (R5, R171). -/
def State.tick (s : State) : State :=
  if s.mi.startup = .held then s
  else
    { s with
      time := s.time + 1
      windowMs := s.windowMs + 1
      fs := { s.fs with poolTimer := tickTimer s.fs.poolTimer }
      pt := { s.pt with listen := tickTimer s.pt.listen, stateMs := tickCount s.pt.stateMs }
      pu := { s.pu with points := s.pu.points.map PointRec.tick }
      su := { s.su with signals := s.su.signals.map SignalRec.tick }
      rq := { s.rq with points := s.rq.points.map ReqPoint.tick }
      re := { s.re with insts := s.re.insts.map (Option.map Inst.tick) }
      ct := { s.ct with records := s.ct.records.map (Option.map Claim.tick) }
      yu := { s.yu with roads := s.yu.roads.map RoadRec.tick } }

/-- A command put at the front of the queue. -/
def State.push (s : State) (c : Option Instr) : State :=
  match c with
  | some c => { s with pending := c :: s.pending }
  | none => s

end Sys2Proof.Machine
end

