-- ==== Sys2Proof/Machine/Crc.lean ====
section
/-! DEFINITION. The two CRCs of R178. -/

namespace Sys2Proof.Machine

/-- `n` shifts of the CRC-16 register, polynomial 1021h, most significant bit first. -/
def crc16Shift (n : Nat) (c : BitVec 16) : BitVec 16 :=
  match n with
  | 0 => c
  | n + 1 => crc16Shift n (if c.msb then (c <<< 1) ^^^ 0x1021#16 else c <<< 1)

/-- The CRC-16 register after the bytes of `l`. -/
def crc16From (c : BitVec 16) (l : List Byte) : BitVec 16 :=
  match l with
  | [] => c
  | b :: bs => crc16From (crc16Shift 8 (c ^^^ (b.zeroExtend 16 <<< 8))) bs

/-- CRC-16 of header and payload: starts from FFFFh, no final inversion (R178). -/
def crc16 (l : List Byte) : BitVec 16 :=
  crc16From 0xFFFF#16 l

/-- `n` shifts of the reflected CRC-32 register, polynomial 04C11DB7h. -/
def crc32Shift (n : Nat) (c : BitVec 32) : BitVec 32 :=
  match n with
  | 0 => c
  | n + 1 => crc32Shift n (if c.getLsbD 0 then (c >>> 1) ^^^ 0xEDB88320#32 else c >>> 1)

/-- The CRC-32 register after the bytes of `l`. -/
def crc32From (c : BitVec 32) (l : List Byte) : BitVec 32 :=
  match l with
  | [] => c
  | b :: bs => crc32From (crc32Shift 8 (c ^^^ b.zeroExtend 32)) bs

/-- CRC-32 of the image: starts from FFFFFFFFh, each byte least significant bit first, result reflected and inverted (R178). -/
def crc32 (l : List Byte) : BitVec 32 :=
  ~~~ crc32From 0xFFFFFFFF#32 l

end Sys2Proof.Machine
end

