-- ==== Sys2Proof/Machine/Operands.lean ====
section
/-! DEFINITION. The operand forms: frame kinds with their levels, codes and sizes (R49, R179), the codes of the enumerations, the
payloads as messages and the messages as payloads, the telegram (R180), and the field encodings of INSPECT items (R178). -/

namespace Sys2Proof.Machine

/-! ## Frame kinds -/

/-- Service level of a kind (R49). -/
def Kind.level : Kind → Nat
  | .announce | .state | .holdOff => 0
  | .claim | .grant | .deny | .set | .setDone | .setFail | .release | .passed | .claimLost => 1
  | .bidCall | .bid | .award | .awardWithdraw | .roadChange => 2
  | .inspect | .inspectReply | .event => 3

/-- Code of a kind (R179). -/
def Kind.code : Kind → Nat
  | .announce => 1
  | .state => 2
  | .holdOff => 3
  | .claim => 16
  | .grant => 17
  | .deny => 18
  | .set => 19
  | .setDone => 20
  | .setFail => 21
  | .release => 22
  | .passed => 23
  | .claimLost => 24
  | .bidCall => 32
  | .bid => 33
  | .award => 34
  | .awardWithdraw => 35
  | .roadChange => 36
  | .inspect => 48
  | .inspectReply => 49
  | .event => 50

/-- The twenty kinds. -/
def Kind.all : List Kind :=
  [.announce, .state, .holdOff, .claim, .grant, .deny, .set, .setDone, .setFail, .release, .passed, .claimLost,
    .bidCall, .bid, .award, .awardWithdraw, .roadChange, .inspect, .inspectReply, .event]

/-- The kind with a code; every other code is an unknown kind (R179). -/
def Kind.ofCode (c : Nat) : Option Kind :=
  Kind.all.find? (fun k => k.code == c)

/-- The minimum payload of a kind (R179). A CLAIM is 14 + 3 n for its step count n (R182). -/
def Kind.minPayload (k : Kind) (payload : List Byte) : Nat :=
  match k with
  | .announce | .holdOff => 1
  | .state => 36
  | .claim => 14 + 3 * byteAt payload 13
  | .grant | .passed | .award => 8
  | .deny => 10
  | .set | .setDone | .release | .event => 7
  | .setFail | .claimLost => 9
  | .bidCall => 6
  | .bid => 5
  | .awardWithdraw => 2
  | .roadChange | .inspect => 3
  | .inspectReply => 4

/-! ## Codes of enumerations -/

/-- Node mode in a STATE frame (R179). -/
def Mode.stateCode : Mode → Nat
  | .joining => 1
  | .running => 2
  | .isolated => 3
  | .start | .configFault => 0

/-- Node mode as an enumeration of R58. -/
def Mode.enum : Mode → Nat
  | .start => 0
  | .configFault => 1
  | .joining => 2
  | .running => 3
  | .isolated => 4

/-- Peer mode from a STATE frame's code; none where the code is not defined (R182). -/
def PeerMode.ofCode : Nat → Option PeerMode
  | 1 => some .joining
  | 2 => some .running
  | 3 => some .isolated
  | _ => none

/-- Peer mode as an enumeration of R62. -/
def PeerMode.enum : PeerMode → Nat
  | .joining => 0
  | .running => 1
  | .isolated => 2

/-- Reset cause: 0 POWER_ON, 1 PIN (R179). -/
def ResetCause.code : ResetCause → Nat
  | .powerOn => 0
  | .pin => 1

/-- Peer state as an enumeration of R62. -/
def PeerState.enum : PeerState → Nat
  | .unknown => 0
  | .joining => 1
  | .inStep => 2
  | .silent => 3
  | .lost => 4

/-- Section state (R179). -/
def SectState.code : SectState → Nat
  | .clear => 0
  | .occupied => 1
  | .disturbed => 2

/-- Point state (R179). -/
def PointState.code : PointState → Nat
  | .detN => 0
  | .detR => 1
  | .moving => 2
  | .backing => 3
  | .noDet => 4
  | .bothDet => 5
  | .failed => 6

/-- Signal state (R179). -/
def SignalState.code : SignalState → Nat
  | .stop => 0
  | .clearing => 1
  | .proceed => 2
  | .lampFault => 3

/-- Direction: 1 LEFT, 2 STRAIGHT, 3 RIGHT (R179). -/
def Direction.code : Direction → Nat
  | .left => 1
  | .straight => 2
  | .right => 3

/-- Direction with a code. -/
def Direction.ofCode : Nat → Option Direction
  | 1 => some .left
  | 2 => some .straight
  | 3 => some .right
  | _ => none

/-- Lamp as an enumeration of R31. -/
def Lamp.enum : Lamp → Nat
  | .stop => 0
  | .left => 1
  | .straight => 2
  | .right => 3

/-- Position: 0 NORMAL, 1 REVERSE (R179). -/
def Position.code : Position → Nat
  | .normal => 0
  | .reverse => 1

/-- Road condition: 0 KNOWN, 1 DOUBTFUL (R179). -/
def RoadCond.code : RoadCond → Nat
  | .known => 0
  | .doubtful => 1

/-- Cause of a doubt, in the order in which R146 names them (log entry 12). -/
def DoubtCause.enum : DoubtCause → Nat
  | .unexpectedArrival => 0
  | .unknownDeparture => 1
  | .outOfOrder => 2
  | .duplicateTram => 3
  | .unrecordedArrival => 4
  | .restoreBad => 5
  | .restoreOverfill => 6
  | .restoreDuplicate => 7

/-- Route class (R179). -/
def RouteClass.code : RouteClass → Nat
  | .runIn => 0
  | .runOut => 1
  | .shunt => 2

/-- Route class with a code; a code of 3 is none (R182). -/
def RouteClass.ofCode : Nat → Option RouteClass
  | 0 => some .runIn
  | 1 => some .runOut
  | 2 => some .shunt
  | _ => none

/-- DENY reason (R179). -/
def DenyReason.code : DenyReason → Nat
  | .notReady => 1
  | .isolated => 2
  | .unknownPeer => 3
  | .held => 4
  | .badStep => 5
  | .tableFull => 6
  | .occupied => 7
  | .disturbed => 8
  | .pointFault => 9
  | .noAward => 10
  | .noRoom => 11

/-- DENY reason with a code; a code not defined is read as none. -/
def DenyReason.ofCode (c : Nat) : Option DenyReason :=
  [DenyReason.notReady, .isolated, .unknownPeer, .held, .badStep, .tableFull, .occupied, .disturbed, .pointFault, .noAward,
    .noRoom].find? (fun r => r.code == c)

/-- SET-FAIL cause (R179). -/
def SetFailCause.code : SetFailCause → Nat
  | .timeout => 1
  | .occupied => 2
  | .fault => 3
  | .withdrawn => 4
  | .busy => 5
  | .detectionLost => 6
  | .noClaim => 7

/-- The SET-FAIL cause of a code. -/
def SetFailCause.ofCode (c : Nat) : Option SetFailCause :=
  [SetFailCause.timeout, .occupied, .fault, .withdrawn, .busy, .detectionLost, .noClaim].find? (fun r => r.code == c)

/-- A MOVE_FAIL cause as the cause of a SET-FAIL (R105). -/
def MoveCause.toSetFail : MoveCause → SetFailCause
  | .timeout => .timeout
  | .occupied => .occupied
  | .fault => .fault
  | .withdrawn => .withdrawn
  | .busy => .busy

/-- CLAIM-LOST cause (R179). -/
def LostCause.code : LostCause → Nat
  | .reservedExpired => 1
  | .expired => 2
  | .pointLost => 3

/-- The CLAIM-LOST cause of a code. -/
def LostCause.ofCode (c : Nat) : Option LostCause :=
  [LostCause.reservedExpired, .expired, .pointLost].find? (fun r => r.code == c)

/-- Outcome code as an enumeration of R88. -/
def OutcomeCode.enum : OutcomeCode → Nat
  | .done => 0
  | .degraded => 1
  | .cancelled _ => 2
  | .expired => 3
  | .clearFail => 4
  | .refused _ => 5

/-- Detail of an outcome, numbered from 0 within the details of its code (R88, log entry 12). -/
def OutcomeCode.detail : OutcomeCode → Option Nat
  | .cancelled .requested => some 0
  | .cancelled .approachTimeout => some 1
  | .cancelled .isolation => some 2
  | .refused .badCode => some 0
  | .refused .noRoute => some 1
  | .refused .tableFull => some 2
  | .refused .notReady => some 3
  | .refused .signalFault => some 4
  | .refused .blocked => some 5
  | .done | .degraded | .expired | .clearFail => none

/-! ## Field encodings of INSPECT items and EVENT fields (R178) -/

/-- A presence byte, and the value where there is one. -/
def encOpt {α : Type} (enc : α → List Byte) : Option α → List Byte
  | none => [0]
  | some x => 1 :: enc x

/-- A list preceded by its count. -/
def encList {α : Type} (enc : α → List Byte) (l : List α) : List Byte :=
  byte l.length :: l.flatMap enc

/-- Flags packed from bit 0 on. -/
def flagBits : List Bool → Nat
  | [] => 0
  | b :: bs => (if b then 1 else 0) + 2 * flagBits bs

/-- The flags and marks of one record, packed into 1 byte. -/
def encFlags (l : List Bool) : List Byte :=
  [byte (flagBits l)]

/-- A timer in 1 byte: the elapsed ms, or all ones when stopped. -/
def encTimer1 (t : Option Timer) : List Byte :=
  match t with
  | some t => [byte t.elapsed]
  | none => [255]

/-- A timer in 2 bytes. -/
def encTimer2 (t : Option Timer) : List Byte :=
  match t with
  | some t => bytes2 t.elapsed
  | none => bytes2 65535

/-- A timer in 3 bytes. -/
def encTimer3 (t : Option Timer) : List Byte :=
  match t with
  | some t => bytes3 t.elapsed
  | none => bytes3 16777215

/-! ## Shared fields of payloads (R179) -/

/-- An index that may be absent: FFh when absent (R178). -/
def encAbsent (x : Option Nat) : Byte :=
  match x with
  | some n => byte n
  | none => 255

/-- Reads an index that may be absent. -/
def decAbsent (n : Nat) : Option Nat :=
  if n = 255 then none else some n

/-- A route key in 7 bytes. -/
def encKey (k : RouteKey) : List Byte :=
  byte k.owner :: bytes2 k.epoch.toNat ++ [byte k.route] ++ bytes2 k.serial.toNat ++ [byte k.attempt]

/-- The route key at offset 0. -/
def decKey (l : List Byte) : RouteKey :=
  { owner := byteAt l 0, epoch := BitVec.ofNat 16 (wordAt l 1), route := byteAt l 3
    serial := BitVec.ofNat 16 (wordAt l 4), attempt := byteAt l 6 }

/-- A call ID in 2 bytes. -/
def encCall (c : CallId) : List Byte :=
  [byte c.caller, byte c.seq]

/-- The call ID at offset `k`. -/
def decCall (l : List Byte) (k : Nat) : CallId :=
  ⟨byteAt l k, byteAt l (k + 1)⟩

/-- A places field: 1 or 2, and 0 or 3 are taken as 2 (R76, R147). -/
def takenPlaces (n : Nat) : Nat :=
  if n % 4 = 1 then 1 else 2

/-- A tram record in 4 bytes. -/
def encTram (t : TramRec) : List Byte :=
  bytes2 t.tram ++ [byte t.places, byte t.slot]

/-- The tram record at offset `k`. -/
def decTram (l : List Byte) (k : Nat) : TramRec :=
  ⟨wordAt l k, takenPlaces (byteAt l (k + 2)), byteAt l (k + 3)⟩

/-- A demand in a nibble: the top bit is the position, the lower three bits the point. -/
def demandNibble (d : Demand) : Nat :=
  8 * d.pos.code + d.point % 8

/-- The demand of a nibble. -/
def ofNibble (n : Nat) : Demand :=
  ⟨n % 8, if n / 8 % 2 = 0 then .normal else .reverse⟩

/-- The demands of a byte, for a demand count (at most two are read). -/
def decDemands (count b : Nat) : List Demand :=
  [ofNibble (b / 16), ofNibble (b % 16)].take count

/-- The demands of a step in one byte. -/
def encDemands (l : List Demand) : Nat :=
  match l with
  | [] => 0
  | [d] => 16 * demandNibble d
  | d :: e :: _ => 16 * demandNibble d + demandNibble e

/-! ## Claim traffic (R179) -/

/-- One step of a CLAIM in 3 bytes. -/
def encStep (r : ReqStep) : List Byte :=
  [byte r.sect,
    byte (16 * r.number + (if r.nextLocal then 8 else 0) + (if r.mouth then 4 else 0) + r.demandCount % 4),
    byte (encDemands r.demands)]

/-- The step of a CLAIM at offset `k`. -/
def decStep (l : List Byte) (k : Nat) : ReqStep :=
  let b := byteAt l (k + 1)
  { number := b / 16, sect := byteAt l k, nextLocal := b / 8 % 2 = 1, mouth := b / 4 % 2 = 1, demandCount := b % 4
    demands := decDemands (b % 4) (byteAt l (k + 2)) }

/-- `n` steps of a CLAIM from offset `k` on. -/
def decSteps (l : List Byte) (k n : Nat) : List ReqStep :=
  match n with
  | 0 => []
  | n + 1 => decStep l k :: decSteps l (k + 3) n

/-- A CLAIM as payload. -/
def encClaim (c : ClaimReq) : List Byte :=
  encKey c.key
    ++ [byte ((match c.cls with | some k => k.code | none => 3)
        + (match c.award with | some a => 64 + (if a.direct then 128 else 0) | none => 0))]
    ++ bytes2 c.tram ++ [byte c.approach]
    ++ (match c.award with | some a => encCall a.call | none => [255, 255])
    ++ byte c.steps.length :: c.steps.flatMap encStep

/-- A payload as CLAIM. -/
def decClaim (l : List Byte) : ClaimReq :=
  let b := byteAt l 7
  { key := decKey l, cls := RouteClass.ofCode (b % 4), tram := wordAt l 8, approach := byteAt l 10
    award := if b / 64 % 2 = 1 then some ⟨decCall l 11, b / 128 % 2 = 1⟩ else none
    steps := decSteps l 14 (byteAt l 13) }

/-- The kind of a message to a route engine. -/
def ReMsg.kind : ReMsg → Kind
  | .grant _ _ => .grant
  | .deny _ _ _ _ => .deny
  | .setDone _ _ => .setDone
  | .setFail _ _ _ => .setFail
  | .passed _ _ => .passed
  | .claimLost _ _ _ => .claimLost

/-- The route key of a message to a route engine. -/
def ReMsg.key : ReMsg → RouteKey
  | .grant k _ | .deny k _ _ _ | .setDone k _ | .setFail k _ _ | .passed k _ | .claimLost k _ _ => k

/-- A message to a route engine as payload. -/
def encReMsg (m : ReMsg) : List Byte :=
  encKey m.key ++
    match m with
    | .grant _ c => [byte c]
    | .deny _ r st d => [byte r.code, byte st, encAbsent d]
    | .setDone _ _ => []
    | .setFail _ p c => [encAbsent p, byte c.code]
    | .passed _ st => [byte st]
    | .claimLost _ c p => [byte c.code, encAbsent p]

/-! ## Supervision and stabling (R179) -/

/-- The heard map bit of node `k` in a STATE payload. -/
def heardBit (l : List Byte) (k : Nat) : Bool :=
  byteAt l (1 + k / 8) / 2 ^ (7 - k % 8) % 2 = 1

/-- The lock bitmap of a STATE payload, section 0 as its most significant bit. -/
def decLockMap (l : List Byte) : BitVec 16 :=
  BitVec.ofNat 16 (wordAt l 13)

/-- The lock of section `k` in a lock map. -/
def lockedIn (m : BitVec 16) (k : Nat) : Bool :=
  m.getMsbD k

/-- A BID-CALL as payload. -/
def encBidCall (c : CallId) (t : TramRec) : List Byte :=
  encCall c ++ encTram t

/-- A BID as payload. -/
def encBid (c : CallId) (road score : Nat) : List Byte :=
  encCall c ++ [byte road] ++ bytes2 score

/-- An AWARD as payload. -/
def encAward (c : CallId) (road : Nat) (t : TramRec) (direct : Bool) : List Byte :=
  encCall c ++ [byte road] ++ encTram t ++ [if direct then 1 else 0]

/-- A ROAD-CHANGE as payload. -/
def encRoadChange (road : Nat) (cond : RoadCond) (free : Nat) : List Byte :=
  [byte road, byte cond.code, byte free]

/-! ## The telegram (R180) -/

/-- Request code byte of a telegram. -/
def telCode (l : List Byte) : Nat :=
  byteAt l 4

/-- The check byte of a telegram is good (R76, R178). -/
def telGood (l : List Byte) : Bool :=
  checkByte (l.take 7) == byte (byteAt l 7)

end Sys2Proof.Machine
end

