-- ==== Sys2Proof/Machine/Flags.lean ====
section
/-! DEFINITION. The flags and readings that a block computes: window readings of sections (R6, R7), contact readings of points
(R18), lamp readings of signals (R17), usability of a peer (R68), the line quality flag (R42) and the flag byte of a STATE frame. -/

namespace Sys2Proof.Machine

/-- Window reading of a section (R6). -/
inductive Reading where
  | occ
  | clr
  | dis
deriving DecidableEq, Repr

/-- Window reading of a section from its channels; true is clear (R4, R6, R7). -/
def windowReading (single chanA chanB : Bool) : Reading :=
  match single, chanA, chanB with
  | true, true, _ => .clr
  | true, false, _ => .occ
  | false, true, true => .clr
  | false, false, false => .occ
  | false, true, false => .dis
  | false, false, true => .dis

/-- One section evaluates one window reading (R8 to R11). -/
def SectRec.evaluate (r : SectRec) (x : Reading) : SectRec :=
  match r.state, x with
  | .clear, .clr => ⟨.clear, 0, 0⟩
  | .clear, .occ => ⟨.occupied, 0, 0⟩
  | .clear, .dis => if r.distRun + 1 ≥ 3 then ⟨.disturbed, 0, 0⟩ else ⟨.clear, 0, r.distRun + 1⟩
  | .occupied, .occ => ⟨.occupied, 0, 0⟩
  | .occupied, .clr => if r.clearRun + 1 ≥ 3 then ⟨.clear, 0, 0⟩ else ⟨.occupied, r.clearRun + 1, 0⟩
  | .occupied, .dis => if r.distRun + 1 ≥ 3 then ⟨.disturbed, 0, 0⟩ else ⟨.occupied, 0, r.distRun + 1⟩
  | .disturbed, .occ => ⟨.occupied, 0, 0⟩
  | .disturbed, .clr => if r.clearRun + 1 ≥ 5 then ⟨.clear, 0, 0⟩ else ⟨.disturbed, r.clearRun + 1, 0⟩
  | .disturbed, .dis => ⟨.disturbed, 0, 0⟩

/-- Contact reading of a point (R18). -/
inductive Contact where
  | nOnly
  | rOnly
  | neither
  | both
deriving DecidableEq, Repr

/-- Contact reading from the two contacts; true is made (R17, R18). -/
def contactReading (n r : Bool) : Contact :=
  match n, r with
  | true, false => .nOnly
  | false, true => .rOnly
  | false, false => .neither
  | true, true => .both

/-- The reading that shows one position alone. -/
def Position.contact : Position → Contact
  | .normal => .nOnly
  | .reverse => .rOnly

/-- The position that a reading shows alone. -/
def Contact.position : Contact → Option Position
  | .nOnly => some .normal
  | .rOnly => some .reverse
  | .neither | .both => none

/-- The other position. -/
def Position.other : Position → Position
  | .normal => .reverse
  | .reverse => .normal

/-- The state of a point detected in a position. -/
def Position.detected : Position → PointState
  | .normal => .detN
  | .reverse => .detR

/-- The drive toward a position. -/
def Position.drive : Position → Drive
  | .normal => .toNormal
  | .reverse => .toReverse

/-- A point whose position is not held: NO_DET, BOTH_DET or FAILED (R100, R104). -/
def PointState.faulty : PointState → Bool
  | .noDet | .bothDet | .failed => true
  | .detN | .detR | .moving | .backing => false

/-- The proceed lamp of a direction. -/
def Direction.lamp : Direction → Lamp
  | .left => .left
  | .straight => .straight
  | .right => .right

/-- The direction is available at a signal (R31). -/
def SignalCfg.has (c : SignalCfg) : Direction → Bool
  | .left => c.left
  | .straight => c.straight
  | .right => c.right

/-- Lamp-proving level of a lamp of signal `g`. -/
def LampReadings.current (r : LampReadings) (g : Nat) : Lamp → Bool
  | .stop => r.stop.getLsbD g
  | .left => r.left.getLsbD g
  | .straight => r.straight.getLsbD g
  | .right => r.right.getLsbD g

/-- The reading that counts for the lit lamp of signal `g`, whose record is `x`: none where no lamp is lit, and none before the second
exchange that sends the lamp since SU lit it, for the first of them lights it and its reading is not used (R17). -/
def LampReadings.usable (r : LampReadings) (g : Nat) (x : SignalRec) : Option Bool :=
  match x.lit with
  | none => none
  | some l => if 2 ≤ x.sent then some (r.current g l) else none

/-- A peer record is usable: IN_STEP or SILENT, with NOT_HEARING clear (R68). -/
def PeerRec.usable (p : PeerRec) : Bool :=
  (p.state == .inStep || p.state == .silent) && !p.notHearing

/-- The receive record shows the source usable: IN_STEP or SILENT without NOT_HEARING (R97, R124). -/
def RxRec.usable (r : RxRec) : Bool :=
  match r.peer with
  | .own => false
  | .other st nh => (st == .inStep || st == .silent) && !nh

/-- A node is usable in this node's peer table (R68). -/
def State.peerUsable (s : State) (k : Nat) : Bool :=
  match s.peer? k with
  | some p => p.usable
  | none => false

/-- LINE_POOR at the end of a window: 64 or more violations (R42). -/
def linePoorOf (violations : Nat) : Bool :=
  64 ≤ violations

/-- The flag byte of a STATE frame (R179). -/
def stateFlags (linePoor poolLow txDrop : Bool) : Byte :=
  byte (flagBits [linePoor, poolLow, txDrop])

/-- The payload of a new STATE frame that replaces a queued one keeps POOL_LOW and TX_DROP of the replaced frame (R166). -/
def mergeStateFlags (old new : List Byte) : List Byte :=
  new.modify 35 (fun b => b ||| (byte (byteAt old 35) &&& 6))

end Sys2Proof.Machine
end

