-- ==== Sys2Proof/Machine/Transmit.lean ====
section
/-! DEFINITION. FS toward the line: the transmit queue (R51, R52), the deferred mark (R56), and the EVENT frames of RP (R167). -/

namespace Sys2Proof.Machine

/-- The hold-off timer of node `k` is running (R55). -/
def State.heldOff (s : State) (k : Nat) : Bool :=
  match s.fs.holdOff[k]? with
  | some (some _) => true
  | _ => false

/-- A frame to `dest` at a level can be deferred: level 2 or 3, addressed to a single node (R56). -/
def deferrable (level dest : Nat) : Bool :=
  2 ≤ level && decide (dest < 63)

/-- A frame joins a queue that is ordered by level and, within a level, by age, as the youngest of its level (R51). -/
def insertFrame (f : TxFrame) : List TxFrame → List TxFrame
  | [] => [f]
  | g :: rest => if g.kind.level ≤ f.kind.level then g :: insertFrame f rest else f :: g :: rest

/-- The new STATE frame takes the place and the age of the queued one, with its flags merged in (R51, R166). -/
def replaceState (payload : List Byte) (q : List TxFrame) : List TxFrame :=
  q.map (fun f => if f.kind = .state then { f with payload := mergeStateFlags f.payload payload } else f)

/-- The youngest frame of the highest level number in the queue, where that level number is above `level` (R52). -/
def victim (level : Nat) (q : List TxFrame) : Option TxFrame :=
  match q.getLast? with
  | some f => if level < f.kind.level then some f else none
  | none => none

/-- FS takes a frame into the transmit queue (R51, R52, R56). No frame is queued in START or CONFIG_FAULT (R57). -/
def State.send (s : State) (kind : Kind) (dest : Nat) (payload : List Byte) : State :=
  if !s.pt.mode.active then s
  else
    let f : TxFrame := ⟨kind, dest, payload, s.fs.nextAge, deferrable kind.level dest && s.heldOff dest⟩
    if kind = .state ∧ s.fs.queue.any (fun g => g.kind == .state) then
      { s with fs := { s.fs with queue := replaceState payload s.fs.queue } }
    else if s.fs.queue.length < 16 then
      { s with fs := { s.fs with queue := insertFrame f s.fs.queue, nextAge := s.fs.nextAge + 1 } }
    else
      match victim kind.level s.fs.queue with
      | some _ =>
        { s with
          fs := { s.fs with
            queue := insertFrame f s.fs.queue.dropLast, nextAge := s.fs.nextAge + 1, txDrop := true }
          cnt := { s.cnt with txDisplaced := bump s.cnt.txDisplaced } }
      | none =>
        { s with
          fs := { s.fs with txDrop := true }
          cnt := { s.cnt with txDrop := bump s.cnt.txDrop } }

/-- The broadcast destination. -/
def broadcast : Nat := 63

/-- A report handed to RP becomes one EVENT frame (R167). -/
def State.report (s : State) (kind : Nat) (fields : List Byte) : State :=
  let serial := s.rp.serial + 1
  ({ s with rp := { s.rp with serial := serial } }).send .event broadcast
    (bytes2 serial.toNat ++ [byte kind] ++ bytes4 s.time.toNat ++ fields)

/-- OUTCOME report (R88, R167). -/
def State.reportOutcome (s : State) (r : OutcomeRec) : State :=
  s.report 1 (encOpt (fun x : Serial => bytes2 x.toNat) r.serial ++ bytes2 r.tram ++ [byte r.signal, byte r.code.enum]
    ++ encOpt (fun d => [byte d]) r.code.detail)

/-- POINT_FAILED report; phase 0 RETRY, 1 BACKING (R30, R167). -/
def State.reportPointFailed (s : State) (p : Nat) (target : Position) (phase : Nat) (fails : Counter) : State :=
  s.report 2 ([byte p, byte target.code, byte phase] ++ bytes2 fails.toNat)

/-- LAMP_FAULT report (R36, R167). -/
def State.reportLampFault (s : State) (g : Nat) (left : SignalState) (lamp : Lamp) : State :=
  s.report 3 [byte g, byte left.code, byte lamp.enum]

/-- SECTION_DISTURBED report (R15, R167). -/
def State.reportDisturbed (s : State) (k : Nat) (left : SectState) (counter : Counter) : State :=
  s.report 4 ([byte k, byte left.code] ++ bytes2 counter.toNat)

/-- PEER_LOST report (R64, R167). -/
def State.reportPeerLost (s : State) (k : Nat) (epoch : Epoch) (last : Time) (losses : Counter) : State :=
  s.report 5 ([byte k] ++ bytes2 epoch.toNat ++ bytes4 last.toNat ++ bytes2 losses.toNat)

/-- ISOLATED report (R72, R167). -/
def State.reportIsolated (s : State) (own cause : Epoch) (left : Mode) : State :=
  s.report 6 (bytes2 own.toNat ++ bytes2 cause.toNat ++ [byte left.enum])

/-- ROAD_EMPTIED report (R158, R167). -/
def State.reportRoadEmptied (s : State) (r entries : Nat) : State :=
  s.report 7 [byte r, byte entries]

/-- ROAD_DOUBTFUL report (R146, R167). -/
def State.reportRoadDoubtful (s : State) (r : Nat) (cause : DoubtCause) (tram : Option Nat) : State :=
  s.report 8 ([byte r, byte cause.enum] ++ encOpt bytes2 tram)

/-- CONFIG_CLAMP report (R59, R174). -/
def State.reportClamp (s : State) (c : Clamp) : State :=
  s.report 9 [byte c.kind, byte c.index, byte c.read, byte c.used]

/-- CT sends a message to a route owner: by handover where it is the node itself, otherwise as a frame (R102, R103). A number that is
not a node ID cannot be addressed, and nothing is sent (log entry 17). -/
def State.tellRe (s : State) (dest : Nat) (m : ReMsg) : State :=
  if dest = s.pt.node then s.handRe m
  else if dest < 63 then s.send m.kind dest (encReMsg m)
  else s

end Sys2Proof.Machine
end

