-- ==== Sys2Proof/Machine/FrameStore.lean ====
section
/-! DEFINITION. FS toward the receiver: the buffer pool (R47, R48), the receive record (R46), the inboxes and the active lists (R49),
and the frame handler (R50). -/

namespace Sys2Proof.Machine

/-! ## The pool (R47, R48) -/

/-- A HOLD-OFF of 40 ms is queued (R48). -/
def State.sendHoldOff (s : State) : State :=
  s.send .holdOff broadcast [byte Config.poolLowMs]

/-- What follows a fall of the free count to 5: POOL_LOW, and a HOLD-OFF where the pool-low timer is stopped (R48). -/
def State.poolFell (s : State) : State :=
  let s := { s with fs := { s.fs with poolLow := true } }
  if s.fs.poolTimer = none then
    ({ s with fs := { s.fs with poolTimer := startTimer Config.poolLowMs } }).sendHoldOff
  else s

/-- A buffer leaves the pool (R47); asked for only where one is free. -/
def State.takeBuffer (s : State) : State :=
  let s := { s with fs := { s.fs with free := s.fs.free - 1 } }
  if s.fs.free = 5 then s.poolFell else s

/-- A buffer returns to the pool (R47). -/
def State.giveBuffer (s : State) : State :=
  { s with fs := { s.fs with free := s.fs.free + 1 } }

/-- The pool-low timer has reached 40 ms (R48). -/
def State.poolExpiry (s : State) : State :=
  if due s.fs.poolTimer then
    if s.fs.free < 6 then
      ({ s with fs := { s.fs with poolTimer := startTimer Config.poolLowMs } }).sendHoldOff
    else { s with fs := { s.fs with poolTimer := none } }
  else s

/-! ## The receive record (R46) -/

/-- The receive record of a frame that arrives now. -/
def State.rxRecord (s : State) (source : Nat) (epoch : Epoch) : RxRec :=
  if source = s.pt.node then ⟨s.time, source, epoch, .own, epoch == s.pt.epoch⟩
  else
    match s.pt.peers[source]? with
    | some p => ⟨s.time, source, epoch, .other p.state p.notHearing, p.state != .unknown && p.epoch == some epoch⟩
    | none => ⟨s.time, source, epoch, .other .unknown false, false⟩

/-! ## Inboxes (R49) -/

/-- An accepted frame joins the tail of its inbox; an inbox that was empty joins the tail of its active list. -/
def State.fileFrame (s : State) (f : RxFrame) : State :=
  { s with fs := { s.fs with
    active := if s.fs.inbox.any (fun g => g.kind == f.kind) then s.fs.active else s.fs.active ++ [f.kind]
    inbox := s.fs.inbox ++ [f] } }

/-! ## The frame handler (R50) -/

/-- The inbox at the head of the active list of the lowest-numbered level whose active list is not empty. -/
def FS.chosenKind (fs : FS) : Option Kind :=
  [0, 1, 2, 3].findSome? (fun l => fs.active.find? (fun k => k.level == l))

/-- The free handler takes the head frame of the inbox it chooses, where that is the inbox of kind `k`; the inbox moves to the tail of
its active list, or leaves it. -/
def FS.takeFrame (fs : FS) (k : Kind) : Option (RxFrame × FS) :=
  if fs.handler = none ∧ fs.chosenKind = some k then
    match takeFirst (fun f => f.kind == k) fs.inbox with
    | some (f, rest) =>
      let others := fs.active.filter (fun j => j != k)
      some (f, { fs with
        inbox := rest, handler := some f
        active := if rest.any (fun g => g.kind == k) then others ++ [k] else others })
    | none => none
  else none

/-- The block has finished with the frame: the buffer returns to the pool and the handler is free. -/
def State.finishFrame (s : State) : State :=
  ({ s with fs := { s.fs with handler := none } }).giveBuffer

/-- The frame handler delivers a frame of kind `k` to its block, whose handling is `act` (R50). Where the handler's choice is not a
frame of this kind, nothing happens. -/
def State.withFrame (s : State) (k : Kind) (act : RxFrame → State → State) : State :=
  match s.fs.takeFrame k with
  | some (f, fs) => (act f { s with fs := fs }).finishFrame
  | none => s

/-! ## Hold-off (R55, R56) -/

/-- Marks or clears the deferred mark of the frames addressed to `k` at level 2 or 3. -/
def deferTo (k : Nat) (mark : Bool) (q : List TxFrame) : List TxFrame :=
  q.map (fun f => if f.dest = k ∧ 2 ≤ f.kind.level then { f with deferred := mark } else f)

/-- Sets or stops the hold-off timer of peer `k`, with the marks that follow (R55, R56). -/
def State.setHoldOff (s : State) (k : Nat) (endTime : Option Time) : State :=
  { s with fs := { s.fs with
    holdOff := s.fs.holdOff.set k endTime, queue := deferTo k endTime.isSome s.fs.queue } }

/-- FS handles a HOLD-OFF frame (R55). A source of 63 has no timer. -/
def takeHoldOff (f : RxFrame) (s : State) : State :=
  let n := byteAt f.payload 0
  let endTime := after f.rx.arrival n
  if n = 0 ∨ f.rx.source = s.pt.node ∨ 63 ≤ f.rx.source then s
  else if reached s.time endTime then s.setHoldOff f.rx.source none
  else s.setHoldOff f.rx.source (some endTime)

/-- The hold-off timer of peer `k` has reached its end (R56). -/
def State.holdOffEnd (s : State) (k : Nat) : State :=
  match s.fs.holdOff[k]? with
  | some (some t) => if reached s.time t then s.setHoldOff k none else s
  | _ => s

/-! ## Commands -/

/-- HOLD_OFF (R55). -/
def execHoldOff (s : State) : Host.Outcome State Fault Refusal :=
  .next (s.withFrame .holdOff takeHoldOff)

/-- HOLD_OFF_TIMER_EXPIRY (R56). -/
def execHoldOffTimerExpiry (k : Nat) (s : State) : Host.Outcome State Fault Refusal :=
  .next (s.holdOffEnd k)

/-- POOL_LOW_TIMER_EXPIRY (R48). -/
def execPoolLowTimerExpiry (s : State) : Host.Outcome State Fault Refusal :=
  .next s.poolExpiry

/-- INSPECT_REPLY (R49): RP finishes with the frame at once. -/
def execInspectReply (s : State) : Host.Outcome State Fault Refusal :=
  .next (s.withFrame .inspectReply (fun _ s => s))

/-- EVENT (R49): RP finishes with the frame at once. -/
def execEvent (s : State) : Host.Outcome State Fault Refusal :=
  .next (s.withFrame .event (fun _ s => s))

end Sys2Proof.Machine
end

