-- ==== Sys2Proof/Machine/Points.lean ====
section
/-! DEFINITION. The Point Unit: move orders (R19 to R21), window evaluation (R22, R23, R27, R28), the travel timer (R23, R24), and
the notices that stop a drive (R25, R26). -/

namespace Sys2Proof.Machine

/-- The state of the claim record that locks a section. -/
def State.lockState (s : State) (k : Nat) : Option ClaimState :=
  match s.lock? k with
  | some id => (s.claim? id).map (·.state)
  | none => none

/-- The drive permission of a point in section `k`: the section is CLEAR and locked by a claim in SETTING (R19). -/
def State.drivePermission (s : State) (k : Nat) : Bool :=
  s.sectClear k && s.lockState k == some .setting

/-- A point record with drive off, travel timer stopped, all runs at 0 and no move in hand, in a new state (R18). -/
def PointRec.rest (st : PointState) : PointRec :=
  ⟨st, none, none, false, .off, none, 0, 0, false, 0, none, 0⟩

/-- A point record driving toward `toward`, with target, start position and retry flag as given and the travel timer at 0. -/
def PointRec.driving (st : PointState) (target start toward : Position) (retry : Bool) (travelMs : Nat) : PointRec :=
  ⟨st, some target, some start, retry, toward.drive, startTimer travelMs, 0, 0, false, 0, none, 0⟩

/-- A point in MOVING or BACKING. -/
def PointRec.inMotion (r : PointRec) : Bool :=
  r.state == .moving || r.state == .backing

/-- PU stops a point in motion: drive OFF, timer stopped, NO_DET (R25, R26). -/
def State.stopPoint (s : State) (p : Nat) (cause : MoveCause) : State :=
  match s.pu.points[p]? with
  | some r =>
    if r.inMotion then (s.modPoint p (fun _ => PointRec.rest .noDet)).reportToCt (.moveFail p cause) else s
  | none => s

/-- A drive of a move in hand would turn on, toward the start position or again toward the target (R23): PU turns it on, with the new
record `r`, where the permission stands. Where it is missing the move ends as R25 or R26 end it (R19, log entry 35). -/
def State.turnDrive (s : State) (p k : Nat) (r : PointRec) : State :=
  if s.heldOccupied k then s.stopPoint p .occupied
  else if s.drivePermission k then s.modPoint p (fun _ => r)
  else s.stopPoint p .withdrawn

/-- PU takes one permission-end notice (R26). -/
def State.takePermissionEnd (s : State) (p : Nat) : State :=
  if s.pu.permEnds.contains p then
    ({ s with pu := { s.pu with permEnds := s.pu.permEnds.erase p } }).stopPoint p .withdrawn
  else s

/-- Notices for a point that CT gave before a move order are taken before it (log entry 4): a point in motion is stopped, and the
notices leave the list. -/
def State.settlePermission (s : State) (p : Nat) : State :=
  if s.pu.permEnds.contains p then
    ({ s with pu := { s.pu with permEnds := s.pu.permEnds.filter (fun q => q != p) } }).stopPoint p .withdrawn
  else s

/-- What PU does with a move order for target `t` once the drive permission is present (R21). -/
def State.orderPermitted (s : State) (p : Nat) (t : Position) (c : PointCfg) (r : PointRec) : State :=
  match r.state with
  | .detN | .detR =>
    if r.state = t.detected then s.reportToCt (.moveDone p)
    else
      let s := s.modPoint p (fun _ => PointRec.driving .moving t t.other t false (1000 * c.travel))
      { s with pu := { s.pu with moves := s.pu.moves.modify p bump } }
  | .moving | .backing =>
    if r.target = some t then s else s.reportToCt (.moveFail p .busy)
  | .noDet | .bothDet | .failed => s.reportToCt (.moveFail p .fault)

/-- PU takes a move order for point `p` and target `t` (R20, R21). -/
def State.moveOrder (s : State) (p : Nat) (t : Position) : State :=
  let s := s.settlePermission p
  match s.yard.points[p]?, s.pu.points[p]? with
  | some c, some r =>
    if s.heldOccupied c.sect then s.reportToCt (.moveFail p .occupied)
    else if !s.drivePermission c.sect then s.reportToCt (.moveFail p .withdrawn)
    else s.orderPermitted p t c r
  | _, _ => s

/-! ## Window evaluation -/

/-- What a window evaluation of a point gives beside its new record. -/
inductive PointEffect where
  | nothing
  | moveDone
  | detectionLost
  /-- The start position is regained: the drive would turn on again toward the target. -/
  | retry
deriving DecidableEq, Repr

/-- A point in MOVING: the seek run counts the target contact alone (R22). -/
def PointRec.evalMoving (r : PointRec) (c : Contact) : PointRec × PointEffect :=
  match r.target with
  | some t =>
    if c = t.contact then
      if r.seekRun + 1 ≥ 2 then (PointRec.rest t.detected, .moveDone)
      else ({ r with seekRun := r.seekRun + 1 }, .nothing)
    else ({ r with seekRun := 0 }, .nothing)
  | none => (r, .nothing)

/-- A point in BACKING: the seek run counts the start contact alone; at 2 the retry begins (R23). -/
def PointRec.evalBacking (r : PointRec) (c : Contact) (travelMs : Nat) : PointRec × PointEffect :=
  match r.target, r.start with
  | some t, some st =>
    if c = st.contact then
      if r.seekRun + 1 ≥ 2 then (PointRec.driving .moving t st t true travelMs, .retry)
      else ({ r with seekRun := r.seekRun + 1 }, .nothing)
    else ({ r with seekRun := 0 }, .nothing)
  | _, _ => (r, .nothing)

/-- A detected point: the loss run counts every reading that is not its own contact alone (R27). -/
def PointRec.evalDetected (r : PointRec) (own : Position) (c : Contact) : PointRec × PointEffect :=
  if c = own.contact then ({ r with lossRun := 0, lossBoth := false }, .nothing)
  else
    let both := c == .both && (r.lossRun == 0 || r.lossBoth)
    if r.lossRun + 1 ≥ 2 then (PointRec.rest (if both then .bothDet else .noDet), .detectionLost)
    else ({ r with lossRun := r.lossRun + 1, lossBoth := both }, .nothing)

/-- The reading that advances the fault run of a state (R28). -/
def PointState.faultReading : PointState → Option Contact
  | .noDet => some .both
  | .bothDet => some .neither
  | _ => none

/-- A point in NO_DET, BOTH_DET or FAILED: recovery run and fault run (R28). -/
def PointRec.evalFaulty (r : PointRec) (c : Contact) : PointRec :=
  match c.position with
  | some pos =>
    let run := if r.recContact = some pos then r.recRun + 1 else 1
    if run ≥ 3 then PointRec.rest pos.detected
    else { r with recRun := run, recContact := some pos, faultRun := 0 }
  | none =>
    if r.state.faultReading = some c then
      if r.faultRun + 1 ≥ 2 then PointRec.rest (if r.state = .noDet then .bothDet else .noDet)
      else { r with recRun := 0, recContact := none, faultRun := r.faultRun + 1 }
    else { r with recRun := 0, recContact := none, faultRun := 0 }

/-- One point evaluates one contact reading. -/
def PointRec.evaluate (r : PointRec) (c : Contact) (travelMs : Nat) : PointRec × PointEffect :=
  match r.state with
  | .moving => r.evalMoving c
  | .backing => r.evalBacking c travelMs
  | .detN => r.evalDetected .normal c
  | .detR => r.evalDetected .reverse c
  | .noDet | .bothDet | .failed => (r.evalFaulty c, .nothing)

/-- PU evaluates the window's reading of point `p`, with the reports of R22 and R27; a retry needs the drive
permission (R19). -/
def State.evaluatePoint (n r : BitVec 8) (p : Nat) (s : State) : State :=
  match s.yard.points[p]?, s.pu.points[p]? with
  | some cfg, some rec =>
    let (rec', eff) := rec.evaluate (contactReading (n.getLsbD p) (r.getLsbD p)) (1000 * cfg.travel)
    let s' := s.modPoint p (fun _ => rec')
    match eff with
    | .nothing => s'
    | .moveDone => s'.reportToCt (.moveDone p)
    | .detectionLost => if (s.lock? cfg.sect).isSome then s'.reportToCt (.detectionLost p) else s'
    | .retry => s.turnDrive p cfg.sect rec'
  | _, _ => s

/-- POINT_WINDOW_EVALUATION: PU evaluates the readings of the last window, point by point in rising index (log entry 33). -/
def evaluatePoints (s : State) : State :=
  match s.pu.readings with
  | some (n, r) =>
    forEach (List.range s.pu.points.length) (State.evaluatePoint n r) { s with pu := { s.pu with readings := none } }
  | none => s

/-! ## Travel timer -/

/-- The point enters FAILED: failure counter, MOVE_FAIL(TIMEOUT), point-failure report with its phase (R23, R24, R30). -/
def State.failPoint (s : State) (p : Nat) (target : Position) (phase : Nat) : State :=
  let s := s.modPoint p (fun _ => PointRec.rest .failed)
  let s := { s with pu := { s.pu with fails := s.pu.fails.modify p bump } }
  (s.reportToCt (.moveFail p .timeout)).reportPointFailed p target phase (s.pu.fails.getD p 0)

/-- The travel timer of point `p` has reached T_pt (R23, R24); a reversal needs the drive permission (R19). -/
def State.travelExpiry (s : State) (p : Nat) : State :=
  match s.yard.points[p]?, s.pu.points[p]? with
  | some cfg, some r =>
    match due r.travel, r.state, r.target, r.start with
    | true, .moving, some t, some st =>
      if r.retry then s.failPoint p t 0
      else s.turnDrive p cfg.sect (PointRec.driving .backing t st st false (1000 * cfg.travel))
    | true, .backing, some t, some _ => s.failPoint p t 1
    | _, _, _, _ => s
  | _, _ => s

/-! ## Section-change notices -/

/-- PU takes a section-change notice: a moving point of a section that leaves CLEAR is stopped (R25, R29), several in rising index: DESIGN
CHOICE (log entry 33). -/
def State.puNotice (s : State) (n : SectNotice) : State :=
  if n.before = .clear ∧ n.after ≠ .clear then
    forEach (List.range s.pu.points.length)
      (fun p s =>
        match s.yard.points[p]? with
        | some c => if c.sect = n.sect then s.stopPoint p .occupied else s
        | none => s) s
  else s

/-! ## The commands of PU -/

/-- POINT_WINDOW_EVALUATION (R22, R27, R28). -/
def execPointWindowEvaluation (s : State) : Host.Outcome State Fault Refusal :=
  .next (evaluatePoints s)

/-- TRAVEL_TIMER_EXPIRY (R23, R24). -/
def execTravelTimerExpiry (p : Nat) (s : State) : Host.Outcome State Fault Refusal :=
  .next (s.travelExpiry p)

/-- PERMISSION_END (R26). -/
def execPermissionEnd (p : Nat) (s : State) : Host.Outcome State Fault Refusal :=
  .next (s.takePermissionEnd p)

/-- PU_SECTION_CHANGE (R25). -/
def execPuSectionChange (k : Nat) (s : State) : Host.Outcome State Fault Refusal :=
  match takeFirst (fun n => n.sect == k) s.pu.notices with
  | some (n, rest) => .next ({ s with pu := { s.pu with notices := rest } }.puNotice n)
  | none => .next s

end Sys2Proof.Machine
end

