-- ==== Sys2Proof/Machine/Roads.lean ====
section
/-! DEFINITION. The Road Unit: places and scores (R145, R149), bid calls (R147, R148), awards and withdrawals (R151, R153), links
(R152), mouth releases (R155, R156), the run-out check (R157), body sections (R158), lost and restarted callers (R159, R160),
ROAD-CHANGE (R154) and persistence (R161, R162). -/

namespace Sys2Proof.Machine

/-! ## Places, eligibility and score -/

/-- Places of a list of trams. -/
def placesOf : List TramRec → Nat
  | [] => 0
  | t :: ts => t.places + placesOf ts

/-- Used places U: stacked entries and pending arrivals (R145). -/
def RoadRec.used (r : RoadRec) : Nat :=
  placesOf r.stack + placesOf (r.arrivals.map (·.tram))

/-- Free places F = C - U (R145). -/
def RoadRec.freePlaces (r : RoadRec) (capacity : Nat) : Nat :=
  capacity - r.used

/-- The run-out slots of the occupant list: stack, then pending arrivals in acceptance order (R145). -/
def RoadRec.occupantSlots (r : RoadRec) : List Nat :=
  (r.stack ++ r.arrivals.map (·.tram)).map (·.slot)

/-- A road is eligible for `p` places: KNOWN, no offer, and F of at least `p` (R148). -/
def RoadRec.eligible (r : RoadRec) (capacity p : Nat) : Bool :=
  r.cond == .known && r.offer == none && decide (r.used + p ≤ capacity)

/-- Distance of two run-out slots. -/
def slotDistance (a b : Nat) : Nat :=
  (a - b) + (b - a)

/-- The raw score 512 b + g + 2 w + 32 q (R149). -/
def RoadRec.rawScore (r : RoadRec) (c : RoadCfg) (t : TramRec) : Nat :=
  let occ := r.occupantSlots
  let b := (occ.filter (fun x => x < t.slot)).length
  let g := match occ.getLast? with
    | some e => slotDistance e t.slot
    | none => 256
  512 * b + g + 2 * (r.freePlaces c.capacity - t.places) + 32 * c.weight

/-- The score: the raw score, or 4095 where that is more (R149). -/
def RoadRec.score (r : RoadRec) (c : RoadCfg) (t : TramRec) : Nat :=
  min (r.rawScore c t) 4095

/-- The road of a call, among roads indexed from `k`: lowest score, lower index on equal scores (R148). -/
def bestRoadFrom (t : TramRec) (k : Nat) : List RoadCfg → List RoadRec → Option (Nat × Nat)
  | c :: cs, r :: rs =>
    let later := bestRoadFrom t (k + 1) cs rs
    if r.eligible c.capacity t.places then
      match later with
      | some (j, sc) => if r.score c t ≤ sc then some (k, r.score c t) else some (j, sc)
      | none => some (k, r.score c t)
    else later
  | _, _ => none

/-- The eligible road with the lowest score, and its score. -/
def State.bestRoad (s : State) (t : TramRec) : Option (Nat × Nat) :=
  bestRoadFrom t 0 s.yard.roads s.yu.roads

/-! ## Road records in memory (R161, R181) -/

/-- A tram in an entry of a road record: 4 bytes. -/
def encEntry (t : TramRec) : List Byte :=
  bytes2 t.tram ++ [byte t.places, byte t.slot]

/-- The 35 bytes of a road record (R181). -/
def encRoad (r : RoadRec) : List Byte :=
  let entries := (r.stack.take 8).flatMap encEntry
  let body := byte r.cond.code :: byte r.stack.length :: entries ++ List.replicate (32 - entries.length) 0
  body ++ [checkByte body]

/-- When MI has no road write in hand, YU hands it the road at the head of the queue, with its content at this moment (R161). -/
def State.serveRoadQueue (s : State) : State :=
  match s.mi.writing, s.yu.queue with
  | none, r :: rest =>
    match s.yu.roads[r]? with
    | some rec =>
      { s with yu := { s.yu with queue := rest }, mi := { s.mi with writing := some (r, encRoad rec) } }
    | none => { s with yu := { s.yu with queue := rest } }
  | _, _ => s

/-- Queues roads for writing, each where it is not yet queued, and serves the queue (R161). -/
def State.queueRoads (s : State) (rs : List Nat) : State :=
  ({ s with yu := { s.yu with queue := rs.foldl addNew s.yu.queue } }).serveRoadQueue

/-! ## ROAD-CHANGE (R154) -/

/-- The ROAD-CHANGE of a road, as a broadcast and as a handover to the own RE, while the node is RUNNING. That the handover goes with the
frame, in RUNNING alone and on the entry into RUNNING too, is DESIGN CHOICE: R154 speaks of the queueing of the frame (log entry 54). -/
def State.sendRoadChange (s : State) (r : Nat) : State :=
  if s.pt.mode = .running then
    match s.yard.roads[r]?, s.yu.roads[r]? with
    | some c, some rec =>
      (s.send .roadChange broadcast (encRoadChange r rec.cond (rec.freePlaces c.capacity))).handReFromYu (.roadChange r)
    | _, _ => s
  else s

/-- A road has become newly able to take trams: F has grown, or DOUBTFUL has become KNOWN. -/
def roadGained (old new : RoadRec) : Bool :=
  decide (new.used < old.used) || (old.cond == .doubtful && new.cond == .known)

/-- One ROAD-CHANGE for each road that gained between `old` and the present state (R154), in rising road index: DESIGN CHOICE (log entry
33). -/
def State.announceGains (s : State) (old : List RoadRec) : State :=
  forEach (List.range old.length)
    (fun r s =>
      match old[r]?, s.yu.roads[r]? with
      | some a, some b => if roadGained a b then s.sendRoadChange r else s
      | _, _ => s) s

/-! ## DOUBTFUL (R146) -/

/-- A KNOWN road becomes DOUBTFUL: its offer is cleared and RP gets a report. A DOUBTFUL road is left as it is. The road is queued
for writing by the operation that calls this, with the roads it changes. -/
def State.markDoubtful (s : State) (r : Nat) (cause : DoubtCause) (tram : Option Nat) : State :=
  match s.yu.roads[r]? with
  | some rec =>
    if rec.cond = .known then
      (s.modRoad r (fun x => { x with cond := .doubtful, offer := none })).reportRoadDoubtful r cause tram
    else s
  | none => s

/-- The road is KNOWN. -/
def State.roadKnown (s : State) (r : Nat) : Bool :=
  (s.yu.roads[r]?).map (·.cond) == some .known

/-! ## Bid calls (R147, R148) -/

/-- Offers and unlinked arrivals of an earlier use of a call ID are dropped (R147). -/
def RoadRec.dropCall (call : CallId) (epoch : Epoch) (offers : Bool) (r : RoadRec) : RoadRec :=
  { r with
    arrivals := r.arrivals.filter (fun a => !(a.call == call && a.epoch == epoch && a.link == none))
    offer := match r.offer with
      | some o => if offers && o.call == call && o.epoch == epoch then none else some o
      | none => none }

/-- A road holds a linked pending arrival with the call ID (R147, R151). -/
def State.linkedCall (s : State) (call : CallId) : Bool :=
  s.yu.roads.any (fun r => r.arrivals.any (fun a => a.call == call && a.link.isSome))

/-- YU bids its best road: the BID, and the offer on the road (R148). -/
def State.answerCall (s : State) (call : CallId) (epoch : Epoch) (t : TramRec) : State :=
  match s.bestRoad t with
  | some (r, sc) =>
    let s := s.modRoad r (fun x => { x with offer := some ⟨call, epoch, after s.time Config.offerMs⟩ })
    let s := s.count (fun c => { c with bidsSent := bump c.bidsSent })
    if call.caller = s.pt.node then s.handReFromYu (.bid call r sc)
    else s.send .bid call.caller (encBid call r sc)
  | none => s

/-- YU takes a BID-CALL whose caller meets the first two conditions of R147, under the caller's epoch. -/
def State.takeBidCall (s : State) (call : CallId) (epoch : Epoch) (t : TramRec) : State :=
  let old := s.yu.roads
  let s := { s with yu := { s.yu with roads := s.yu.roads.map (RoadRec.dropCall call epoch true) } }
  let s := s.announceGains old
  if s.linkedCall call then s else s.answerCall call epoch t

/-- A frame's source is the caller it names, usable, with the epoch agreeing (R147, R151). -/
def callerTrusted (rx : RxRec) (call : CallId) : Bool :=
  rx.usable && rx.epochMatch && rx.source == call.caller

/-! ## Awards (R151) -/

/-- The road takes the award: it holds the offer of this call under the caller's epoch, or is eligible now (R151, condition 6); in
either case it needs F of at least the tram's places (R145). -/
def RoadRec.takesAward (r : RoadRec) (capacity : Nat) (call : CallId) (epoch : Epoch) (p : Nat) : Bool :=
  ((match r.offer with
    | some o => o.call == call && o.epoch == epoch
    | none => false) && decide (r.used + p ≤ capacity)) || r.eligible capacity p

/-- The road with the accepted award: the offer cleared where it was for this call, the pending arrival appended (R151). -/
def RoadRec.accept (r : RoadRec) (call : CallId) (epoch : Epoch) (t : TramRec) (direct : Bool) : RoadRec :=
  { r with
    arrivals := r.arrivals ++ [⟨call, epoch, t, direct, none, none, false⟩]
    offer := match r.offer with
      | some o => if o.call == call && o.epoch == epoch then none else some o
      | none => none }

/-- An AWARD that is not accepted (R151). -/
def State.ignoreAward (s : State) : State :=
  s.count (fun c => { c with awardsIgnored := bump c.awardsIgnored })

/-- YU takes an AWARD that meets conditions 1 and 2 of R151, under the caller's epoch. -/
def State.takeAward (s : State) (call : CallId) (epoch : Epoch) (road : Nat) (t : TramRec) (direct : Bool) : State :=
  let old := s.yu.roads
  let s := { s with yu := { s.yu with roads := s.yu.roads.map (RoadRec.dropCall call epoch false) } }
  let s := match s.yard.roads[road]?, s.yu.roads[road]? with
    | some c, some r =>
      if !s.linkedCall call && decide (r.arrivals.length < 4) && r.takesAward c.capacity call epoch t.places then
        (s.modRoad road (fun r => r.accept call epoch t direct)).count (fun c => { c with awardsTaken := bump c.awardsTaken })
      else s.ignoreAward
    | _, _ => s.ignoreAward
  s.announceGains old

/-! ## Withdrawals and links (R152, R153) -/

/-- The road without the arrival and the offer of a withdrawn call (R153). -/
def RoadRec.withdraw (call : CallId) (epoch : Epoch) (r : RoadRec) : RoadRec :=
  { r with
    arrivals := r.arrivals.filter (fun a => !(a.call == call && a.epoch == epoch))
    offer := match r.offer with
      | some o => if o.call == call then none else some o
      | none => none }

/-- YU takes an AWARD-WITHDRAW from the caller under `epoch` (R153). -/
def State.takeWithdraw (s : State) (call : CallId) (epoch : Epoch) : State :=
  let old := s.yu.roads
  ({ s with yu := { s.yu with roads := s.yu.roads.map (RoadRec.withdraw call epoch) } }).announceGains old

/-- An arrival is the one a claim's award reference and key name (R101, R155). -/
def Arrival.isFor (a : Arrival) (call : CallId) (key : RouteKey) : Bool :=
  a.call == call && a.call.caller == key.owner && a.epoch == key.epoch

/-- The road whose mouth section is `k`. -/
def State.roadOfMouth (s : State) (k : Nat) : Option Nat :=
  firstIndex (fun c => c.mouth == k) s.yard.roads

/-- The award check of a mouth step (R101, R152): the road holds the arrival, without the caller-gone mark. -/
def State.awardHeld (s : State) (r : Nat) (call : CallId) (key : RouteKey) : Bool :=
  match s.yu.roads[r]? with
  | some rec => rec.arrivals.any (fun a => a.isFor call key && !a.gone)
  | none => false

/-- The link notice of CT (R102, R152). -/
def State.linkArrival (s : State) (r : Nat) (call : CallId) (key : RouteKey) (id : Nat) : State :=
  s.modRoad r (fun x => { x with arrivals := x.arrivals.map (fun a => if a.isFor call key then { a with link := some id } else a) })

/-- A road after an UNLINK: the arrival linked to the claim loses its link, and leaves the list where its caller is gone (R152). -/
def RoadRec.unlink (id : Nat) (r : RoadRec) : RoadRec :=
  { r with
    arrivals := (r.arrivals.filter (fun a => !(a.link == some id && a.gone))).map
      (fun a => if a.link = some id then { a with link := none } else a) }

/-- An UNLINK mouth release (R111, R152): the arrival is found by the claim ID alone, on whichever road it is. -/
def State.unlinkArrival (s : State) (id : Nat) : State :=
  let old := s.yu.roads
  ({ s with yu := { s.yu with roads := s.yu.roads.map (RoadRec.unlink id) } }).announceGains old

/-! ## Mouth releases (R155, R156) -/

/-- The road without its entries for a tram. -/
def RoadRec.dropTram (tram : Nat) (r : RoadRec) : RoadRec :=
  { r with stack := r.stack.filter (fun e => e.tram != tram) }

/-- The roads whose stacks hold a tram. -/
def State.roadsHolding (s : State) (tram : Nat) : List Nat :=
  (List.range s.yu.roads.length).filter (fun r =>
    match s.yu.roads[r]? with
    | some rec => rec.stack.any (fun e => e.tram == tram)
    | none => false)

/-- A PUSH that finds its pending arrival (R155, steps 1 to 3). Several roads that lose an entry are reported and queued in rising road
index: DESIGN CHOICE (log entry 33). The roads newly able to take trams are announced after each PUSH, so that of several mouth releases
that one event of CT gives each counts as an event of its own: DESIGN CHOICE, R154 speaks of one ROAD-CHANGE for each road and event (log
entry 55). -/
def State.pushArrival (s : State) (r : Nat) (a : Arrival) : State :=
  let old := s.yu.roads
  let dup := s.roadsHolding a.tram.tram
  let s := { s with yu := { s.yu with roads := s.yu.roads.map (RoadRec.dropTram a.tram.tram) } }
  let s := forEach dup (fun k s => s.markDoubtful k .duplicateTram (some a.tram.tram)) s
  let s := s.modRoad r (fun x => { x with arrivals := x.arrivals.erase a, stack := x.stack ++ [a.tram] })
  let s := s.count (fun c => { c with pushes := bump c.pushes })
  (s.queueRoads (dup ++ [r])).announceGains old

/-- A PUSH mouth release (R155). -/
def State.takePush (s : State) (r : Nat) (call : CallId) (key : RouteKey) (tram : Nat) : State :=
  match (s.yu.roads[r]?).bind (fun rec => rec.arrivals.find? (fun a => a.isFor call key)) with
  | some a => s.pushArrival r a
  | none =>
    let known := s.roadKnown r
    let s := s.markDoubtful r .unrecordedArrival (some tram)
    if known then s.queueRoads [r] else s

/-- A POP mouth release (R156); announced as one event of its own (log entry 55). -/
def State.takePop (s : State) (r tram : Nat) : State :=
  match s.yu.roads[r]? with
  | some rec =>
    let old := s.yu.roads
    if rec.stack.any (fun e => e.tram == tram) then
      let s1 := s.modRoad r (fun x => { x with stack := x.stack.filter (fun e => e.tram != tram) })
      let s2 := if (rec.stack.getLast?).map (·.tram) = some tram then s1 else s1.markDoubtful r .outOfOrder (some tram)
      let s3 := s2.count (fun c => { c with pops := bump c.pops })
      (s3.queueRoads [r]).announceGains old
    else if rec.cond = .known then (s.markDoubtful r .unknownDeparture (some tram)).queueRoads [r]
    else s
  | none => s

/-! ## The run-out check (R157) -/

/-- YU's answer to the run-out check: whether the tram may leave. -/
def State.runOutAccepts (s : State) (r tram : Nat) : Bool :=
  match s.yu.roads[r]? with
  | some rec =>
    rec.cond == .doubtful || (rec.stack.getLast?).map (·.tram) == some tram || !rec.stack.any (fun e => e.tram == tram)
  | none => true

/-- What the check does to the road: an absent tram makes a KNOWN road DOUBTFUL. -/
def State.runOutMark (s : State) (r tram : Nat) : State :=
  match s.yu.roads[r]? with
  | some rec =>
    if rec.cond = .known ∧ rec.stack.any (fun e => e.tram == tram) = false then
      (s.markDoubtful r .unknownDeparture (some tram)).queueRoads [r]
    else s
  | none => s

/-! ## Body sections (R158) -/

/-- The body section of road `r` has become CLEAR. -/
def State.bodyCleared (s : State) (r : Nat) : State :=
  match s.yu.roads[r]? with
  | some rec =>
    let old := s.yu.roads
    let s1 := s.modRoad r (fun x => { x with stack := [], cond := .known })
    let s2 := if rec.stack.isEmpty then s1 else s1.reportRoadEmptied r rec.stack.length
    if rec.stack.isEmpty && rec.cond == .known then s2 else (s2.queueRoads [r]).announceGains old
  | none => s

/-- The body section of road `r` has become held occupied from CLEAR. -/
def State.bodyOccupied (s : State) (r : Nat) : State :=
  match s.yu.roads[r]? with
  | some rec =>
    if rec.stack.isEmpty && !rec.arrivals.any (fun a => a.link.isSome) && rec.cond == .known then
      (s.markDoubtful r .unexpectedArrival none).queueRoads [r]
    else s
  | none => s

/-- YU takes a section-change notice (R158). -/
def State.yuNotice (s : State) (n : SectNotice) : State :=
  match firstIndex (fun c => c.body == n.sect) s.yard.roads with
  | some r =>
    if n.after = .clear then s.bodyCleared r
    else if n.before = .clear then s.bodyOccupied r
    else s
  | none => s

/-! ## Lost and restarted callers (R159, R160) -/

/-- Changes every pending arrival of a caller under an epoch. -/
def State.modArrivalsOf (s : State) (peer : Nat) (epoch : Epoch) (f : Arrival → Arrival) : State :=
  { s with yu := { s.yu with roads := s.yu.roads.map (fun r =>
      { r with arrivals := r.arrivals.map (fun a => if a.call.caller = peer ∧ a.epoch = epoch then f a else a) }) } }

/-- UNUSABLE: the hold timers start (R159). -/
def State.yuLost (s : State) (peer : Nat) (epoch : Epoch) : State :=
  s.modArrivalsOf peer epoch (fun a =>
    { a with hold := match a.hold with | some t => some t | none => startTimer Config.arrivalHoldMs })

/-- USABLE: the hold timers stop (R159). -/
def State.yuReturned (s : State) (peer : Nat) (epoch : Epoch) : State :=
  s.modArrivalsOf peer epoch (fun a => { a with hold := none })

/-- A road after its caller's epoch change: offers cleared, unlinked arrivals removed, linked ones marked caller-gone (R160). -/
def RoadRec.callerRestarted (peer : Nat) (epoch : Epoch) (r : RoadRec) : RoadRec :=
  { r with
    arrivals := (r.arrivals.filter (fun a => !(a.call.caller == peer && a.epoch == epoch && a.link == none))).map
      (fun a => if a.call.caller = peer ∧ a.epoch = epoch then { a with gone := true, hold := none } else a)
    offer := match r.offer with
      | some o => if o.call.caller == peer && o.epoch == epoch then none else some o
      | none => none }

/-- EPOCH_CHANGE (R160). -/
def State.yuRestarted (s : State) (peer : Nat) (old : Epoch) : State :=
  let before := s.yu.roads
  ({ s with yu := { s.yu with roads := s.yu.roads.map (RoadRec.callerRestarted peer old) } }).announceGains before

/-- A pending arrival's 120 s hold has ended (R159). -/
def State.holdExpiry (s : State) (r j : Nat) : State :=
  match (s.yu.roads[r]?).bind (fun rec => rec.arrivals[j]?) with
  | some a =>
    if due a.hold then
      match a.link with
      | none =>
        let old := s.yu.roads
        (s.modRoad r (fun x => { x with arrivals := x.arrivals.eraseIdx j })).announceGains old
      | some _ =>
        s.modRoad r (fun x => { x with arrivals := x.arrivals.modify j (fun a => { a with gone := true, hold := none }) })
    else s
  | none => s

/-- An offer lapses when the time base reaches its expiry (R150). -/
def State.offerLapse (s : State) (r : Nat) : State :=
  s.modRoad r (fun x =>
    match x.offer with
    | some o => if reached s.time o.expiry then { x with offer := none } else x
    | none => x)

/-! ## Handovers from the own RE -/

/-- YU takes what its own RE hands it, under the node's own epoch (R123 to R128). In a mode other than RUNNING a call is discarded and
an award is ignored (R147, R151). -/
def State.yuTakes (s : State) (m : YuMsg) : State :=
  match m with
  | .bidCall call t => if s.pt.mode = .running then s.takeBidCall call s.pt.epoch t else s
  | .award call road t direct =>
    if s.pt.mode = .running then s.takeAward call s.pt.epoch road t direct else s.ignoreAward
  | .withdraw call => s.takeWithdraw call s.pt.epoch

/-- YU takes everything its own RE has handed it, in order, within the event that needs it taken (log entry 5). -/
def State.yuTakesAll (s : State) : State :=
  forEach s.yu.fromRe (fun m s => s.yuTakes m) { s with yu := { s.yu with fromRe := [] } }

/-! ## Commands that concern YU alone -/

/-- YU_SECTION_CHANGE (R158). -/
def execYuSectionChange (k : Nat) (s : State) : Host.Outcome State Fault Refusal :=
  match takeFirst (fun n => n.sect == k) s.yu.notices with
  | some (n, rest) => .next ({ s with yu := { s.yu with notices := rest } }.yuNotice n)
  | none => .next s

/-- YU_UNUSABLE (R159). -/
def execYuUnusable (k : Nat) (s : State) : Host.Outcome State Fault Refusal :=
  match takeFirst (fun n => n.peer == k) s.yu.peerNotices with
  | some (.unusable _ e, rest) => .next ({ s with yu := { s.yu with peerNotices := rest } }.yuLost k e)
  | _ => .next s

/-- YU_USABLE (R159). -/
def execYuUsable (k : Nat) (s : State) : Host.Outcome State Fault Refusal :=
  match takeFirst (fun n => n.peer == k) s.yu.peerNotices with
  | some (.usable _ e, rest) => .next ({ s with yu := { s.yu with peerNotices := rest } }.yuReturned k e)
  | _ => .next s

/-- YU_EPOCH_CHANGE (R160). -/
def execYuEpochChange (k : Nat) (s : State) : Host.Outcome State Fault Refusal :=
  match takeFirst (fun n => n.peer == k) s.yu.peerNotices with
  | some (.epochChange _ old _, rest) => .next ({ s with yu := { s.yu with peerNotices := rest } }.yuRestarted k old)
  | _ => .next s

/-- YU_ISOLATION (R160): every offer and every pending arrival is dropped. -/
def execYuIsolation (s : State) : Host.Outcome State Fault Refusal :=
  if s.yu.isolated then
    .next { s with yu := { s.yu with
      isolated := false, roads := s.yu.roads.map (fun r => { r with arrivals := [], offer := none }) } }
  else .next s

/-- OFFER_EXPIRY (R150). -/
def execOfferExpiry (r : Nat) (s : State) : Host.Outcome State Fault Refusal :=
  .next (s.offerLapse r)

/-- HOLD_TIMER_EXPIRY (R159). -/
def execHoldTimerExpiry (r j : Nat) (s : State) : Host.Outcome State Fault Refusal :=
  .next (s.holdExpiry r j)

/-- ROAD_WRITE_DONE (R162, R177): the memory holds the record, and the next queued road is handed over. -/
def execRoadWriteDone (s : State) : Host.Outcome State Fault Refusal :=
  match s.mi.writing with
  | some (r, content) =>
    let s := { s with mi := { s.mi with mem := writeBytes s.mi.mem (roadAddr r) content, writing := none } }
    .next (s.count (fun c => { c with roadWrites := bump c.roadWrites })).serveRoadQueue
  | none => .next s

/-- ROAD_WRITE_FAIL (R162, R177): what the memory then holds of the record is not stated: free bytes (log entry 9). -/
def execRoadWriteFail (s : State) : Host.Outcome State Fault Refusal :=
  match s.mi.writing with
  | some (r, content) =>
    let n := content.length
    let s := { s with
      mi := { s.mi with mem := writeBytes s.mi.mem (roadAddr r) (freeBytes s.freeIdx n), writing := none }
      freeIdx := s.freeIdx + n }
    .next ((s.count (fun c => { c with roadWriteFails := bump c.roadWriteFails })).queueRoads [r])
  | none => .next s

end Sys2Proof.Machine
end

