-- ==== Sys2Proof/Machine/Claims.lean ====
section
/-! DEFINITION. The Claim Table: evaluating and granting a CLAIM (R96 to R102), SET and the answers of the points (R104, R105,
R107), release and winding down (R95, R113), occupancy and sectional release (R108 to R111), the expiries (R106, R112, R115), and
requester loss, restart and isolation (R114 to R118). The commands are in Deliveries.lean. -/

namespace Sys2Proof.Machine

/-! ## Answers to the route engine -/

/-- A DENY to a destination (R102); none goes to a number that is not a node ID (R97, log entry 17). -/
def State.denyTo (s : State) (dest : Nat) (key : RouteKey) (reason : DenyReason) (step : Nat) (detail : Option Nat) : State :=
  if dest < 63 then
    (s.tellRe dest (.deny key reason step detail)).count (fun c => { c with denied := bump c.denied })
  else s

/-- The CLAIM-LOST for record `id`, whose fields are `c`: the lost-sent mark is set, the frame queued and counted (R106, R107). -/
def State.tellLost (s : State) (id : Nat) (c : Claim) (cause : LostCause) (point : Option Nat) : State :=
  ((s.modClaim id (fun c => { c with lostSent := true })).tellRe c.key.owner (.claimLost c.key cause point)).count
    (fun n => { n with lostSent := bump n.lostSent })

/-- A CLAIM-LOST for a record, unless its lost-sent mark is set (R106, R107, R112). -/
def State.sendLost (s : State) (id : Nat) (cause : LostCause) (point : Option Nat) : State :=
  match s.claim? id with
  | some c => if c.lostSent then s else s.tellLost id c cause point
  | none => s

/-! ## Release of a step (R95, R110, R111) -/

/-- The kinds of mouth release (R111). -/
inductive MouthRelease where
  | push (call : CallId)
  | pop
  | unlink
deriving DecidableEq, Repr

/-- The run-out signal of road `r` is the entry signal of route `i` of this node (R111). -/
def State.leavesRoad (s : State) (r i : Nat) : Bool :=
  match s.yard.roads[r]?, s.yard.routes[i]? with
  | some rc, some rt => rc.runOut == rt.signal
  | _, _ => false

/-- Which mouth release the release of a step gives for road `r`, if any (R111). -/
def State.mouthKind (s : State) (c : Claim) (st : ClaimStep) (r : Nat) : Option MouthRelease :=
  if st.seen then
    match st.mouth, c.award with
    | true, some a => some (.push a.call)
    | _, _ =>
      if c.cls = .runOut ∧ c.key.owner = s.pt.node ∧ s.leavesRoad r c.key.route then some .pop else none
  else if c.award.isSome then some .unlink
  else none

/-- CT gives YU the mouth release of a step whose section has role ROAD_MOUTH (R95, R111). -/
def State.mouthRelease (s : State) (id : Nat) (c : Claim) (st : ClaimStep) : State :=
  if s.sectRole st.sect = some .roadMouth then
    match s.roadOfMouth st.sect with
    | some r =>
      match s.mouthKind c st r with
      | some (.push call) => s.takePush r call c.key c.tram
      | some .pop => s.takePop r c.tram
      | some .unlink => s.unlinkArrival id
      | none => s
    | none => s
  else s

/-- A step of the record is still locked. -/
def Claim.holdsStep (c : Claim) : Bool :=
  c.steps.any (·.locked)

/-- A record whose last step has been released returns to the free list, at the tail (R93, R95). -/
def State.freeIfEmpty (s : State) (id : Nat) : State :=
  match s.claim? id with
  | some c =>
    if c.holdsStep then s
    else { s with ct := { s.ct with records := s.ct.records.set id none, free := s.ct.free ++ [id] } }
  | none => s

/-- The release of step `i` of a record (R95): section unlocked, step marked, permission-end notices, mouth release, and the record
freed with its last step. `tell`: with the PASSED of R110. -/
def State.releaseStep (s : State) (id i : Nat) (tell : Bool) : State :=
  match s.claim? id with
  | some c =>
    match c.steps[i]? with
    | some st =>
      if st.locked then
        let s := { s with ct := { s.ct with locks := s.ct.locks.set st.sect none } }
        let s := s.modClaim id (fun c =>
          { c with steps := c.steps.modify i (fun x => { x with locked := false, orphan := none }) })
        let s := forEach (s.containedPoints st.sect) (fun p s => s.endPermission p) s
        let s := if tell then s.tellRe c.key.owner (.passed c.key st.number) else s
        (s.mouthRelease id c st).freeIfEmpty id
      else s
    | none => s
  | none => s

/-- Indices of the steps of a record. -/
def State.stepIndices (s : State) (id : Nat) : List Nat :=
  match s.claim? id with
  | some c => List.range c.steps.length
  | none => []

/-- The section of step `i` of a record is CLEAR. -/
def State.stepClear (s : State) (id i : Nat) : Bool :=
  match (s.claim? id).bind (fun c => c.steps[i]?) with
  | some st => s.sectClear st.sect
  | none => false

/-- Each locked step whose section is CLEAR is released, in step order, without PASSED (R95). -/
def State.releaseClear (s : State) (id : Nat) : State :=
  forEach (s.stepIndices id) (fun i s => if s.stepClear id i then s.releaseStep id i false else s) s

/-- Every locked step is released, in step order, without PASSED (R112). -/
def State.releaseAll (s : State) (id : Nat) : State :=
  forEach (s.stepIndices id) (fun i s => s.releaseStep id i false) s

/-- Stops every orphan clear timer of a list of steps. -/
def stopOrphanTimers (l : List ClaimStep) : List ClaimStep :=
  l.map (fun st => { st with orphan := none })

/-- Winds a record down (R95). -/
def State.windDown (s : State) (id : Nat) : State :=
  match s.claim? id with
  | some c =>
    if c.releaseMark then s
    else
      let s := s.modClaim id (fun c =>
        { c with releaseMark := true, reservedT := none, setT := none, steps := stopOrphanTimers c.steps })
      if c.state = .setting ∧ c.orders ≠ [] then s else s.releaseClear id
  | none => s

/-! ## Occupancy and sectional release (R108, R109) -/

/-- The condition of sectional release for step `i` of a record in SET without release mark (R109), apart from its section being
CLEAR. -/
def Claim.passedOver (c : Claim) (i : Nat) : Bool :=
  c.state == .set && !c.releaseMark &&
    match c.steps[i]? with
    | some st =>
      st.locked && st.seen &&
        (match c.steps[i + 1]? with
          | none => true
          | some next => !st.nextLocal || next.seen)
    | none => false

/-- Examines step `i` of a record for sectional release (R109, R110). -/
def State.examineStep (s : State) (id i : Nat) : State :=
  match s.claim? id with
  | some c => if c.passedOver i && s.stepClear id i then s.releaseStep id i true else s
  | none => s

/-- Examines every locked step in step order (R109, R116). -/
def State.examineAll (s : State) (id : Nat) : State :=
  forEach (s.stepIndices id) (fun i s => s.examineStep id i) s

/-- The index of the locked step of a record that names section `k`. -/
def Claim.stepOn (c : Claim) (k : Nat) : Option Nat :=
  firstIndex (fun st => st.sect == k && st.locked) c.steps

/-- A locked section has become held occupied: step `i` is seen occupied; in SET the set timer stops, in ORPHANED the step's clear
timer stops; the step before it is examined where it waits for this one (R108, R109). -/
def State.seenOccupied (s : State) (id i : Nat) : State :=
  match s.claim? id with
  | some c =>
    let before := match c.steps[i]? with | some st => st.seen | none => true
    let s := s.modClaim id (fun c =>
      { c with
        steps := c.steps.modify i (fun st => { st with seen := true, orphan := none })
        setT := if c.state = .set then none else c.setT })
    match i with
    | 0 => s
    | j + 1 =>
      match c.steps[j]? with
      | some prev => if !before && prev.nextLocal then s.examineStep id j else s
      | none => s
  | none => s

/-- A locked section has become CLEAR (R95, R109, R115). Where DU holds the section occupied again by the time the notice is taken, a
record with the release mark keeps it until the next CLEAR notice: DESIGN CHOICE, R95 speaks of the notice alone (log entry 42). -/
def State.sectionCleared (s : State) (id i : Nat) : State :=
  match s.claim? id with
  | some c =>
    if c.releaseMark then
      if (c.state = .setting ∧ c.orders ≠ []) ∨ s.stepClear id i = false then s else s.releaseStep id i false
    else if c.state = .orphaned then
      s.modClaim id (fun c => { c with
        steps := c.steps.modify i (fun st => { st with orphan := startTimer Config.orphanMs }) })
    else s.examineStep id i
  | none => s

/-- CT takes a section-change notice (R108, R109, R115). -/
def State.ctNotice (s : State) (n : SectNotice) : State :=
  match s.lock? n.sect with
  | some id =>
    match (s.claim? id).bind (fun c => c.stepOn n.sect) with
    | some i => if n.after = .clear then s.sectionCleared id i else s.seenOccupied id i
    | none => s
  | none => s

/-! ## Evaluating a CLAIM (R96 to R102) -/

/-- Check 2: the requester is usable, its epoch agrees, and the key names it (R97). A local CLAIM passes (R103). -/
def requesterTrusted (rx : Option RxRec) (key : RouteKey) : Bool :=
  match rx with
  | none => true
  | some r => r.usable && r.epochMatch && r.source == key.owner && r.epoch == key.epoch

/-- The claim ID of the record in use with a route key. -/
def State.claimWithKey (s : State) (key : RouteKey) : Option Nat :=
  firstIndex (fun r : Option Claim => match r with | some c => c.key == key | none => false) s.ct.records

/-- A record of an earlier attempt, or an earlier request, of the same route (R98). -/
def Claim.earlierOf (c : Claim) (key : RouteKey) : Bool :=
  c.key.owner == key.owner && c.key.epoch == key.epoch && c.key.route == key.route && c.key != key

/-- The claim IDs of the records in use that `p` accepts, in rising order. R118 gives that order; where several records are taken on one
notice of R114, R116 or R117, or are wound down by one CLAIM (R98), it is the model's: DESIGN CHOICE (log entries 33 and 41). -/
def State.claimsWhere (s : State) (p : Claim → Bool) : List Nat :=
  (List.range s.ct.records.length).filter (fun id => match s.claim? id with | some c => p c | none => false)

/-- A step of the record has been seen occupied. -/
def Claim.anySeen (c : Claim) : Bool :=
  c.steps.any (·.seen)

/-- Step `st` of a CLAIM is not well formed (R99, R182); `earlier` are the steps before it, `last`: it is the last step. Of two steps
that name one section, or whose numbers do not rise, the later one offends: DESIGN CHOICE, R99 names neither (log entry 46). -/
def State.badStep (s : State) (req : ClaimReq) (earlier : List ReqStep) (st : ReqStep) (last : Bool) : Bool :=
  st.number == 0 || decide (12 < st.number) || st.demandCount == 3
    || decide (16 ≤ st.sect)
    || (match s.yard.sects[st.sect]? with
        | none => true
        | some c => c.role == .approach || c.role == .roadBody
            || st.demands.any (fun d => !c.points.contains d.point)
            || (st.mouth && c.role != .roadMouth))
    || earlier.any (fun e => e.sect == st.sect)
    || hasTwice (st.demands.map (·.point))
    || (st.mouth && (!last || req.award == none || req.cls != some .runIn))
    || (match earlier.getLast? with
        | some e => decide (st.number ≤ e.number)
        | none => false)

/-- The number of the first step that is not well formed, among `todo` after `earlier`. -/
def State.firstBadStep (s : State) (req : ClaimReq) (earlier : List ReqStep) : List ReqStep → Option Nat
  | [] => none
  | st :: todo =>
    if s.badStep req earlier st todo.isEmpty then some st.number else s.firstBadStep req (earlier ++ [st]) todo

/-- Check 5 (R99, R182): the step number of the BAD_STEP denial, if it is one. A CLAIM with no step or with more than 12 gives step number
0, the code for none: DESIGN CHOICE (log entry 46). -/
def State.badClaim (s : State) (req : ClaimReq) : Option Nat :=
  if req.cls = none ∨ req.steps = [] ∨ 12 < req.steps.length then some 0 else s.firstBadStep req [] req.steps

/-- Check 7 for one step (R100, R101): the reason and the detail of the denial, if there is one. Of two faulty points POINT_FAULT names
the first of the contained-points list: DESIGN CHOICE (log entry 16). -/
def State.stepDenial (s : State) (req : ClaimReq) (st : ReqStep) : Option (DenyReason × Option Nat) :=
  match s.lock? st.sect with
  | some id => some (.held, (s.claim? id).map (fun c => c.cls.code))
  | none =>
    match s.sectState st.sect with
    | some .occupied => some (.occupied, none)
    | some .disturbed => some (.disturbed, none)
    | _ =>
      match (s.containedPoints st.sect).find? (fun p => (s.pointState p).any PointState.faulty) with
      | some p => some (.pointFault, some p)
      | none =>
        match st.mouth, req.award with
        | true, some a =>
          let held := match s.roadOfMouth st.sect with
            | some r => s.awardHeld r a.call req.key
            | none => false
          if held then none else some (if a.direct then .noRoom else .noAward, none)
        | _, _ => none

/-- Check 7 (R100): the first failing step with its reason. -/
def State.firstDenial (s : State) (req : ClaimReq) : List ReqStep → Option (Nat × DenyReason × Option Nat)
  | [] => none
  | st :: rest =>
    match s.stepDenial req st with
    | some (r, d) => some (st.number, r, d)
    | none => s.firstDenial req rest

/-- An approach limit, taken as the nearer end of 10-250 s (R99). -/
def clampApproach (n : Nat) : Nat :=
  max 10 (min n 250)

/-- A step of a granted CLAIM as the record holds it (R92, R102). -/
def State.grantedStep (s : State) (st : ReqStep) : ClaimStep :=
  { number := st.number, sect := st.sect, demands := st.demands, nextLocal := st.nextLocal, mouth := st.mouth
    locked := true, seen := false, orphan := none
    kept := (s.containedPoints st.sect).filter (fun p => !st.demands.any (fun d => d.point == p)) }

/-- The record of a granted CLAIM (R102). The award reference is kept where a step carries the mouth flag (R92). -/
def State.grantedRecord (s : State) (req : ClaimReq) (cls : RouteClass) : Claim :=
  { state := .reserved, key := req.key, cls := cls, tram := req.tram, approach := clampApproach req.approach
    steps := req.steps.map s.grantedStep
    award := if req.steps.any (·.mouth) then req.award else none
    prev := none, orders := [], setFail := false, lost := false, lostPoint := none, lostSent := false
    releaseMark := false, orphanPending := false, reservedT := startTimer Config.reservedMs, setT := none }

/-- The road and call ID of the link notice that a grant gives (R102). -/
def State.linkOf (s : State) (req : ClaimReq) : Option (Nat × CallId) :=
  match req.steps.find? (·.mouth), req.award with
  | some st, some a => (s.roadOfMouth st.sect).map (fun r => (r, a.call))
  | _, _ => none

/-- The grant (R102): record, locks, GRANT and link notice, with the head of the free list. -/
def State.grantClaim (s : State) (req : ClaimReq) (cls : RouteClass) (id : Nat) (free : List Nat) : State :=
  let s := { s with ct := { s.ct with
    records := s.ct.records.set id (some (s.grantedRecord req cls))
    free := free
    locks := req.steps.foldl (fun l (st : ReqStep) => l.set st.sect (some id)) s.ct.locks } }
  let s := s.count (fun c => { c with granted := bump c.granted })
  let s := s.tellRe req.key.owner (.grant req.key id)
  match s.linkOf req with
  | some (r, call) => s.linkArrival r call req.key id
  | none => s

/-- Checks 6 and 7, and the grant (R99, R100, R102). -/
def State.finishClaim (s : State) (req : ClaimReq) (cls : RouteClass) : State :=
  match s.ct.free with
  | [] => s.denyTo req.key.owner req.key .tableFull 0 none
  | id :: free =>
    match s.firstDenial req req.steps with
    | some (n, r, d) => s.denyTo req.key.owner req.key r n d
    | none => s.grantClaim req cls id free

/-- Check 5 and those after it (R99). -/
def State.checkSteps (s : State) (req : ClaimReq) : State :=
  match s.badClaim req, req.cls with
  | none, some cls => s.finishClaim req cls
  | some n, _ => s.denyTo req.key.owner req.key .badStep n none
  | none, none => s.denyTo req.key.owner req.key .badStep 0 none

/-- Checks 3 and 4 (R98): a repeat, or an earlier attempt of the same route. Of several earlier records the one of lowest ID that has been
seen denies the CLAIM, and then none is wound down; with none seen, all are. A repeat of a record in ORPHANED is answered with its GRANT,
as R98 says, although R114 has such a record send no frame. Both are DESIGN CHOICE (log entry 41). -/
def State.checkEarlier (s : State) (req : ClaimReq) : State :=
  match s.claimWithKey req.key with
  | some id =>
    match s.claim? id with
    | some c =>
      if c.releaseMark then s.denyTo req.key.owner req.key .held 0 (some c.cls.code)
      else s.tellRe req.key.owner (.grant req.key id)
    | none => s
  | none =>
    let old := s.claimsWhere (fun c => c.earlierOf req.key)
    match old.find? (fun id => match s.claim? id with | some c => c.anySeen | none => false) with
    | some id => s.denyTo req.key.owner req.key .held 0 ((s.claim? id).map (fun c => c.cls.code))
    | none => (forEach old (fun id s => s.windDown id) s).checkSteps req

/-- The destination of an UNKNOWN_PEER denial (R97): the source of the receive record. -/
def claimSource (rx : Option RxRec) (key : RouteKey) : Nat :=
  match rx with
  | some r => r.source
  | none => key.owner

/-- A CLAIM from source 63 gets no answer (R97). -/
def fromNobody (rx : Option RxRec) : Bool :=
  match rx with
  | some r => r.source == 63
  | none => false

/-- CT evaluates a CLAIM through the eight checks (R96, R97). `rx` is the receive record of a frame; a local handover has none. -/
def State.evaluateClaim (s : State) (req : ClaimReq) (rx : Option RxRec) : State :=
  if fromNobody rx then s
  else
    match s.pt.mode with
    | .joining => s.denyTo req.key.owner req.key .notReady 0 none
    | .isolated => s.denyTo req.key.owner req.key .isolated 0 none
    | .start | .configFault => s
    | .running =>
      if requesterTrusted rx req.key then s.checkEarlier req
      else s.denyTo (claimSource rx req.key) req.key .unknownPeer 0 none

/-! ## Setting the points (R104, R105, R107) -/

/-- A SET-FAIL to the route owner (R104). -/
def State.sendSetFail (s : State) (key : RouteKey) (point : Option Nat) (cause : SetFailCause) : State :=
  s.tellRe key.owner (.setFail key point cause)

/-- A record enters ORPHANED from the state it is in (R114, R115). -/
def State.enterOrphaned (s : State) (id : Nat) : State :=
  match s.claim? id with
  | some c =>
    let steps := c.steps.map (fun st =>
      { st with orphan := if st.locked && s.sectClear st.sect then startTimer Config.orphanMs else none })
    let s := s.modClaim id (fun c =>
      { c with state := .orphaned, prev := some c.state, orphanPending := false, reservedT := none, setT := none, steps := steps })
    s.count (fun n => { n with orphaned := bump n.orphaned })
  | none => s

/-- The permission-end notices of a record that leaves SETTING: each point of each locked section (R94). -/
def State.endPermissions (s : State) (c : Claim) : State :=
  forEach (c.steps.filter (·.locked)) (fun st s => forEach (s.containedPoints st.sect) (fun p s => s.endPermission p) s) s

/-- The set timer of a record (R112). -/
def setTimerOf (approach : Nat) : Option Timer :=
  startTimer (1000 * approach + Config.setExtraMs)

/-- The record leaves SETTING because its last outstanding order has been answered (R105, R114). With the release mark its state reads
RESERVED from then on: DESIGN CHOICE, R105 gives it no state (log entry 36); its set-fail mark stays as it is: DESIGN CHOICE, R105
clears it in the second case alone (log entry 48). -/
def State.leaveSetting (s : State) (id : Nat) : State :=
  match s.claim? id with
  | some c =>
    let s := s.endPermissions c
    if c.releaseMark then (s.modClaim id (fun c => { c with state := .reserved })).releaseClear id
    else
      let s :=
        if c.setFail then
          s.modClaim id (fun c => { c with state := .reserved, setFail := false, reservedT := startTimer Config.reservedMs })
        else if c.anySeen then
          (s.modClaim id (fun c => { c with state := .reserved, reservedT := startTimer Config.reservedMs })).sendSetFail c.key none
            .occupied
        else
          (s.modClaim id (fun c => { c with state := .set, setT := setTimerOf c.approach })).tellRe c.key.owner
            (.setDone c.key s.time)
      if c.orphanPending then s.enterOrphaned id else s
  | none => s

/-- Every demand of the record's steps, in step order. -/
def Claim.demands (c : Claim) : List Demand :=
  c.steps.flatMap (·.demands)

/-- The first demanded or kept point of the record that is in NO_DET, BOTH_DET or FAILED (R104); of several, in step order and demanded
before kept: DESIGN CHOICE (log entry 16). -/
def State.faultyPoint (s : State) (c : Claim) : Option Nat :=
  (c.steps.flatMap (fun st => st.demands.map (·.point) ++ st.kept)).find? (fun p => (s.pointState p).any PointState.faulty)

/-- A RESERVED record enters SETTING, with one move order for each demanded point (R104). -/
def State.enterSetting (s : State) (id : Nat) (c : Claim) : State :=
  let s := s.modClaim id (fun c =>
    { c with state := .setting, reservedT := none, setFail := false, orders := c.demands.map (·.point) })
  let s := forEach c.demands (fun d s => s.moveOrder d.point d.pos) s
  if c.demands.isEmpty then s.leaveSetting id else s

/-- SET on a RESERVED record (R104). In ISOLATED no claim enters SETTING (R72). -/
def State.setReserved (s : State) (id : Nat) (c : Claim) : State :=
  if c.lost then s.sendSetFail c.key c.lostPoint .detectionLost
  else if c.steps.any (fun st => (st.locked && s.heldOccupied st.sect) || st.seen) then s.sendSetFail c.key none .occupied
  else
    match s.faultyPoint c with
    | some p => s.sendSetFail c.key (some p) .fault
    | none => if s.pt.mode = .isolated then s else s.enterSetting id c

/-- CT takes a SET from the route owner that its key names (R104). In ISOLATED before CT has taken its isolation notice no claim enters
SETTING (R72): a SET that would have let a record enter it changes nothing, and every other SET is answered as R104 says. Both are
DESIGN CHOICE: R72 and R104 give such a SET no answer (log entry 47). -/
def State.takeSet (s : State) (key : RouteKey) : State :=
  match s.claimWithKey key with
  | none => s.sendSetFail key none .noClaim
  | some id =>
    match s.claim? id with
    | some c =>
      if c.releaseMark then s
      else
        match c.state with
        | .orphaned | .setting => s
        | .set => s.tellRe key.owner (.setDone key s.time)
        | .reserved => s.setReserved id c
    | none => s

/-- The record in SETTING that has an order for a point outstanding (R105). Of two such records, one of them back from ORPHANED with the
point's step released, the one of lower claim ID: DESIGN CHOICE (log entry 33). -/
def State.recordOrdering (s : State) (p : Nat) : Option Nat :=
  firstIndex (fun r : Option Claim => match r with
    | some c => c.state == .setting && c.orders.contains p
    | none => false) s.ct.records

/-- An order is answered: the point leaves the outstanding orders, and the record leaves SETTING with the last (R105). -/
def State.answerOrder (s : State) (id p : Nat) : State :=
  let s := s.modClaim id (fun c => { c with orders := c.orders.erase p })
  match s.claim? id with
  | some c => if c.orders.isEmpty then s.leaveSetting id else s
  | none => s

/-- CT takes MOVE_DONE (R105). -/
def State.ctMoveDone (s : State) (p : Nat) : State :=
  match s.recordOrdering p with
  | some id => s.answerOrder id p
  | none => s

/-- CT takes MOVE_FAIL (R105). -/
def State.ctMoveFail (s : State) (p : Nat) (cause : MoveCause) : State :=
  match s.recordOrdering p with
  | some id =>
    match s.claim? id with
    | some c =>
      let s :=
        if !c.setFail && !c.releaseMark then
          (s.sendSetFail c.key (some p) cause.toSetFail).modClaim id (fun c => { c with setFail := true })
        else s
      s.answerOrder id p
    | none => s
  | none => s

/-- A record takes the loss of one of its points (R107). In RESERVED or SET the lost-sent mark alone decides, as R107's table says, also
for a second loss after a first one in SETTING (log entry 37). -/
def State.losePoint (s : State) (id p : Nat) (c : Claim) : State :=
  if c.releaseMark then s
  else
    let s := s.modClaim id (fun c => { c with lost := true, lostPoint := if c.lost then c.lostPoint else some p })
    match c.state with
    | .reserved | .set => s.sendLost id .pointLost (some p)
    | .setting =>
      if c.setFail then s
      else (s.sendSetFail c.key (some p) .detectionLost).modClaim id (fun c => { c with setFail := true })
    | .orphaned => s

/-- CT takes DETECTION_LOST (R107): it concerns the record that locks the point's section. -/
def State.ctDetectionLost (s : State) (p : Nat) : State :=
  match (s.yard.points[p]?).bind (fun c => s.lock? c.sect) with
  | some id =>
    match s.claim? id with
    | some c => s.losePoint id p c
    | none => s
  | none => s

/-! ## RELEASE and the expiries (R106, R112, R113, R115) -/

/-- CT takes a RELEASE from the route owner that its key names (R113). -/
def State.takeRelease (s : State) (key : RouteKey) : State :=
  match s.claimWithKey key with
  | some id => s.windDown id
  | none => s

/-- The reserved timer has reached 10 s (R106). -/
def State.reservedExpiry (s : State) (id : Nat) : State :=
  match s.claim? id with
  | some c => if due c.reservedT then (s.sendLost id .reservedExpired none).windDown id else s
  | none => s

/-- The set timer has reached the approach limit plus 15 s (R112). -/
def State.setExpiry (s : State) (id : Nat) : State :=
  match s.claim? id with
  | some c => if due c.setT then (s.sendLost id .expired none).releaseAll id else s
  | none => s

/-- The orphan clear timer of step `i` has reached 30 s (R115). -/
def State.orphanExpiry (s : State) (id i : Nat) : State :=
  match (s.claim? id).bind (fun c => if c.state = .orphaned then c.steps[i]? else none) with
  | some st =>
    if st.locked && due st.orphan then
      (s.releaseStep id i false).count (fun n => { n with orphanReleased := bump n.orphanReleased })
    else s
  | none => s

/-! ## Requester loss, return, restart and isolation (R114, R116 to R118) -/

/-- The record belongs to a peer under an epoch. -/
def Claim.madeBy (c : Claim) (peer : Nat) (epoch : Epoch) : Bool :=
  c.key.owner == peer && c.key.epoch == epoch

/-- UNUSABLE on one record (R114). -/
def State.orphanRecord (s : State) (id : Nat) : State :=
  match s.claim? id with
  | some c =>
    if c.releaseMark then s
    else
      match c.state with
      | .reserved | .set => s.enterOrphaned id
      | .setting => s.modClaim id (fun c => { c with orphanPending := true })
      | .orphaned => s
  | none => s

/-- UNUSABLE (R114), on the peer's records in rising claim ID: DESIGN CHOICE (log entry 33). -/
def State.ctLost (s : State) (peer : Nat) (epoch : Epoch) : State :=
  forEach (s.claimsWhere (fun c => c.madeBy peer epoch)) (fun id s => s.orphanRecord id) s

/-- An ORPHANED record without release mark returns to its previous state; the releases of its steps come before its CLAIM-LOST (R116,
log entry 31). -/
def State.returnRecord (s : State) (id : Nat) (c : Claim) : State :=
  let back := c.prev.getD .reserved
  let s := s.modClaim id (fun c =>
    { c with
      state := back, prev := none, steps := stopOrphanTimers c.steps
      reservedT := if back = .reserved then startTimer Config.reservedMs else none
      setT := if back = .set ∧ c.anySeen = false then setTimerOf c.approach else none })
  let s := if back = .set then s.examineAll id else s
  if c.lost && !c.lostSent then s.tellLost id c .pointLost c.lostPoint else s

/-- USABLE on one record (R116). -/
def State.unorphanRecord (s : State) (id : Nat) : State :=
  match s.claim? id with
  | some c =>
    match c.state with
    | .orphaned =>
      if c.releaseMark then s.modClaim id (fun c => { c with state := c.prev.getD .reserved, prev := none })
      else s.returnRecord id c
    | .setting => s.modClaim id (fun c => { c with orphanPending := false })
    | .reserved | .set => s
  | none => s

/-- USABLE (R116), on the peer's records in rising claim ID: DESIGN CHOICE (log entry 33). -/
def State.ctReturned (s : State) (peer : Nat) (epoch : Epoch) : State :=
  forEach (s.claimsWhere (fun c => c.madeBy peer epoch)) (fun id s => s.unorphanRecord id) s

/-- The lost mark and the orphan pending mark of a record are dropped (R117). -/
def State.dropMarks (s : State) (id : Nat) : State :=
  s.modClaim id (fun c => { c with lost := false, lostPoint := none, orphanPending := false })

/-- A record is wound down because its requester has restarted, and its marks are dropped (R117), also where it already carries the
release mark (log entry 38). -/
def State.dropRecord (s : State) (id : Nat) : State :=
  (s.dropMarks id).windDown id

/-- EPOCH_CHANGE (R117), on the peer's records in rising claim ID: DESIGN CHOICE (log entry 33). -/
def State.ctRestarted (s : State) (peer : Nat) (old : Epoch) : State :=
  forEach (s.claimsWhere (fun c => c.madeBy peer old)) (fun id s => s.dropRecord id) s

/-- Isolation on one record (R118): a record in SETTING loses its orders, with a permission-end notice for each, and leaves SETTING;
then its marks are dropped and it is wound down as for an epoch change, and where it already carried the release mark its winding down
goes on (log entry 38). On leaving SETTING the points of its locked sections get the notices of R94; its state then reads RESERVED (log
entry 36), and its set-fail mark is cleared: DESIGN CHOICE, R118 says nothing of the mark (log entry 48). -/
def State.isolateRecord (s : State) (id : Nat) : State :=
  match s.claim? id with
  | some c =>
    if c.state = .setting then
      let s := (forEach c.orders (fun p s => s.endPermission p) s).endPermissions c
      let s := s.modClaim id (fun c => { c with state := .reserved, orders := [], setFail := false })
      if c.releaseMark then (s.dropMarks id).releaseClear id else s.dropRecord id
    else s.dropRecord id
  | none => s

/-- The isolation notice (R118). -/
def State.ctIsolate (s : State) : State :=
  forEach (s.claimsWhere (fun _ => true)) (fun id s => s.isolateRecord id) s

/-! ## Handovers from the own RE -/

/-- CT takes what its own RE hands it (R103). -/
def State.ctTakes (s : State) (m : CtMsg) : State :=
  match m with
  | .claim req => s.evaluateClaim req none
  | .set key => s.takeSet key
  | .release key => s.takeRelease key

/-- CT takes everything its own RE has handed it, in order, within the event that needs it taken (log entry 5). -/
def State.ctTakesAll (s : State) : State :=
  forEach s.ct.fromRe (fun m s => s.ctTakes m) { s with ct := { s.ct with fromRe := [] } }

end Sys2Proof.Machine
end

