-- ==== Sys2Proof/Machine/Routes.lean ====
section
/-! DEFINITION. The Route Engine: bid calls and awards (R123 to R126), attempts (R127 to R130), clearing and the approach (R131,
R132), entry and completion (R133 to R135), HALTED (R136), back-off (R137), cancellation (R138, R139), stale replies (R140) and
isolation (R141). -/

namespace Sys2Proof.Machine

/-! ## The route table (R120) -/

/-- The owner list of a route: its owner nodes in the order in which each first appears. -/
def RouteCfg.owners (r : RouteCfg) : List Nat :=
  (r.steps.map (·.owner)).foldl addNew []

/-- The steps of an owner as its CLAIM carries them; `k` is the number of the first of the steps given. -/
def ownerSteps (owner k : Nat) : List RouteStep → List ReqStep
  | [] => []
  | st :: rest =>
    let later := ownerSteps owner (k + 1) rest
    if st.owner = owner then
      { number := k, sect := st.sect
        nextLocal := match rest with | [] => false | next :: _ => next.owner == owner
        mouth := st.mouth, demandCount := st.demands.length, demands := st.demands } :: later
    else later

/-- The configuration of an instance's route. -/
def State.routeOf (s : State) (x : Inst) : Option RouteCfg :=
  x.route.bind (fun r => s.yard.routes[r]?)

/-- Steps of an instance's route. -/
def State.routeSteps (s : State) (x : Inst) : List RouteStep :=
  match s.routeOf x with
  | some rc => rc.steps
  | none => []

/-- Section of the first step of an instance's route (local, R173). -/
def State.firstSect (s : State) (x : Inst) : Option Nat :=
  ((s.routeSteps x).head?).map (·.sect)

/-! ## Parts of an instance -/

/-- No timer runs. -/
def ReTimers.stopped : ReTimers :=
  ⟨none, none, none, none, none, none, none, none, none⟩

/-- An owner entry at the start of an attempt (R127). -/
def OwnerEntry.fresh (asked : Bool) (node : Nat) : OwnerEntry :=
  ⟨node, asked, .none, none, false, none, false, false⟩

/-- The owner has granted. -/
def OwnerEntry.hasGranted (o : OwnerEntry) : Bool :=
  match o.reply with
  | .granted _ => true
  | .none | .denied => false

/-- The tram record of an instance (R123). -/
def Inst.tramRec (x : Inst) : TramRec :=
  ⟨x.tram, x.places, x.runOut⟩

/-- The route key of an instance's present attempt (R127). -/
def State.keyOf (s : State) (x : Inst) : RouteKey :=
  ⟨s.pt.node, s.pt.epoch, x.route.getD 0, x.serial, x.attempt.getD 0⟩

/-- Changes the owner entry of a node. -/
def Inst.modOwner (x : Inst) (node : Nat) (f : OwnerEntry → OwnerEntry) : Inst :=
  { x with owners := x.owners.map (fun o => if o.node = node then f o else o) }

/-- The owner entry of a node. -/
def Inst.owner? (x : Inst) (node : Nat) : Option OwnerEntry :=
  x.owners.find? (fun o => o.node == node)

/-- A node is an owner asked. -/
def Inst.asked (x : Inst) (node : Nat) : Bool :=
  x.owners.any (fun o => o.node == node && o.asked)

/-- Changes what a QUEUED or ACTIVE slot holds. -/
def Slot.mapData (f : SlotData → SlotData) : Slot → Slot
  | .free => .free
  | .queued d => .queued (f d)
  | .active d i m => .active (f d) i m

/-- What a QUEUED or ACTIVE slot holds. -/
def Slot.data? : Slot → Option SlotData
  | .free => none
  | .queued d => some d
  | .active d _ _ => some d

/-- The slot's attempt count advances by one, saturating at 255 (R127, R128). -/
def State.bumpAttempts (s : State) (slot : Nat) : State :=
  { s with rq := { s.rq with slots := s.rq.slots.modify slot (Slot.mapData (fun d => { d with attempts := min (d.attempts + 1) 255 })) } }

/-- The slot's attempt count. -/
def State.slotAttempts (s : State) (slot : Nat) : Nat :=
  match (s.rq.slots[slot]?).bind Slot.data? with
  | some d => d.attempts
  | none => 0

/-! ## What RE sends -/

/-- A RELEASE for a route key: to the own CT, or as a frame (R128). Source 63 cannot be addressed (log entry 17). -/
def State.releaseTo (s : State) (key : RouteKey) (node : Nat) : State :=
  if node = s.pt.node then s.handCt (.release key)
  else if node < 63 then s.send .release node (encKey key)
  else s

/-- A SET for a route key (R130). -/
def State.setTo (s : State) (key : RouteKey) (node : Nat) : State :=
  if node = s.pt.node then s.handCt (.set key) else s.send .set node (encKey key)

/-- A RELEASE to every owner asked (R128), in owner-list order (log entry 33). -/
def State.releaseAsked (s : State) (x : Inst) : State :=
  forEach (x.owners.filter (·.asked)) (fun o s => s.releaseTo (s.keyOf x) o.node) s

/-- An AWARD-WITHDRAW where the instance holds an award (R127, R128, R138). -/
def State.withdrawAward (s : State) (x : Inst) : State :=
  match x.award with
  | some a =>
    if a.node = s.pt.node then s.handYu (.withdraw a.call) else s.send .awardWithdraw a.node (encCall a.call)
  | none => s

/-- The CLAIM of an attempt for one owner (R120, R127). -/
def State.claimFor (s : State) (x : Inst) (rc : RouteCfg) (node : Nat) : ClaimReq :=
  { key := s.keyOf x, cls := some rc.cls, tram := x.tram, approach := rc.approach
    award := if rc.cls = .runIn then x.award.map (fun a => ⟨a.call, a.direct⟩) else none
    steps := ownerSteps node 1 rc.steps }

/-- Sends the CLAIM for one owner: to the own CT, or as a frame (R120). -/
def State.sendClaim (s : State) (x : Inst) (rc : RouteCfg) (node : Nat) : State :=
  let req := s.claimFor x rc node
  if node = s.pt.node then s.handCt (.claim req) else s.send .claim node (encClaim req)

/-- The instance ends: it is freed, and RQ gets the outcome (R88). -/
def State.endInst (s : State) (i : Nat) (x : Inst) (code : OutcomeCode) : State :=
  let s := s.setInst i none
  { s with rq := { s.rq with outcomes := s.rq.outcomes ++ [⟨i, x.slot, x.serial, code⟩] } }

/-! ## Bid calls (R123) -/

/-- RE originates routes: in ISOLATED it begins no call, no award and no attempt (R72). What the event does there instead, before the
isolation notice ends the instance, is nothing: DESIGN CHOICE (log entry 51). -/
def State.originates (s : State) : Bool :=
  s.pt.mode != .isolated

/-- An instance in use holds the call sequence value, as its call ID or as its award's (R121). -/
def State.seqInUse (s : State) (q : Nat) : Bool :=
  s.re.insts.any (fun o => match o with
    | some x => x.call.map (·.seq) == some q || x.award.map (fun a => a.call.seq) == some q
    | none => false)

/-- The first of at most `n + 1` call sequence values from `q` on that no instance holds. -/
def State.freeSeqFrom (s : State) (n q : Nat) : Nat :=
  match n with
  | 0 => q
  | n + 1 => if s.seqInUse q then s.freeSeqFrom n ((q + 1) % 256) else q

/-- The next call sequence value (R121): eight instances hold at most sixteen values. -/
def State.nextSeq (s : State) : Nat :=
  s.freeSeqFrom 16 ((s.re.callSeq + 1) % 256)

/-- A new bid call (R123). An IN instance has no route before its award (R121). -/
def State.startCall (s : State) (i : Nat) : State :=
  match s.inst? i with
  | some x =>
    let call : CallId := ⟨s.pt.node, s.nextSeq⟩
    let s := { s with re := { s.re with callSeq := call.seq } }
    let s := s.setInst i (some { x with
      state := .calling, phase := some .bidding, call := some call, best := none, bidders := [], award := none, owners := []
      route := if x.code = .inbound then none else x.route
      timers := { ReTimers.stopped with bid := startTimer Config.bidMs } })
    let s := s.send .bidCall broadcast (encBidCall call x.tramRec)
    let s := s.count (fun c => { c with bidCalls := bump c.bidCalls })
    s.handYu (.bidCall call x.tramRec)
  | none => s

/-! ## Attempts (R127, R128, R137) -/

/-- Base of the retry delay by route class (R137). -/
def RouteClass.retryBase : RouteClass → Nat
  | .runIn => 100
  | .runOut => 200
  | .shunt => 400

/-- The retry delay (R137). -/
def retryDelay (cls : RouteClass) (n node : Nat) : Nat :=
  cls.retryBase * min n 8 + 5 * node

/-- Entry into BACKOFF (R137). -/
def State.enterBackoff (s : State) (i : Nat) : State :=
  match s.inst? i with
  | some x =>
    let cls := match s.routeOf x with | some rc => rc.cls | none => .runIn
    s.setInst i (some { x with
      state := .backoff, phase := none, best := none, bidders := []
      timers := { ReTimers.stopped with retry := startTimer (retryDelay cls (s.slotAttempts x.slot) s.pt.node) } })
  | none => s

/-- A failed attempt is counted at the slot and in ATTEMPTS_FAILED (R127, R128). -/
def State.countFailure (s : State) (slot : Nat) : State :=
  (s.bumpAttempts slot).count (fun c => { c with attemptsFailed := bump c.attemptsFailed })

/-- The number of the next attempt (R127). -/
def Inst.nextAttempt (x : Inst) : Nat :=
  match x.attempt with
  | none => 0
  | some n => n + 1

/-- The CLAIMs of an attempt go out, and the own CT evaluates its own in the same event (R127). -/
def State.makeAttempt (s : State) (i : Nat) (x : Inst) (rc : RouteCfg) : State :=
  let s := s.setInst i (some { x with
    state := .claiming, owners := rc.owners.map (OwnerEntry.fresh true)
    timers := { ReTimers.stopped with claim := startTimer Config.claimMs } })
  (forEach rc.owners (fun k s => s.sendClaim x rc k) s).ctTakesAll

/-- An attempt begins (R127). -/
def State.beginAttempt (s : State) (i : Nat) : State :=
  match s.inst? i with
  | some x =>
    match s.routeOf x with
    | some rc =>
      if 255 < x.nextAttempt then (s.withdrawAward x).endInst i x .expired
      else
        let x := { x with
          attempt := some x.nextAttempt, phase := none, best := none, bidders := [], timers := ReTimers.stopped
          owners := rc.owners.map (OwnerEntry.fresh false) }
        if rc.owners.any (fun k => k != s.pt.node && !s.peerUsable k) then
          ((s.setInst i (some x)).countFailure x.slot).enterBackoff i
        else s.makeAttempt i x rc
    | none => s
  | none => s

/-- Causes of a failed attempt (R128). -/
inductive AttemptCause where
  | noAward
  | noRoom
  | other
deriving DecidableEq, Repr

/-- The cause that a DENY reason gives (R129). -/
def DenyReason.cause : DenyReason → AttemptCause
  | .noAward => .noAward
  | .noRoom => .noRoom
  | _ => .other

/-- The instance without its award and the award's call ID. -/
def Inst.dropAward (x : Inst) : Inst :=
  { x with award := none, call := none, timers := ReTimers.stopped }

/-- An attempt fails (R128). Without an award the causes NO_AWARD and NO_ROOM are like any other (log entry 25). -/
def State.failAttempt (s : State) (i : Nat) (cause : AttemptCause) : State :=
  match s.inst? i with
  | some x =>
    let s := (s.releaseAsked x).countFailure x.slot
    match cause, x.award with
    | .noAward, some _ => ((s.withdrawAward x).setInst i (some x.dropAward)).startCall i
    | .noRoom, some _ => ((s.withdrawAward x).setInst i (some x.dropAward)).enterBackoff i
    | _, _ => s.enterBackoff i
  | none => s

/-! ## Awards (R124, R126) -/

/-- An award is made. The own YU takes it, and the attempt begins, in the same event; another node gets 60 ms to settle. -/
def State.makeAward (s : State) (i : Nat) (x : Inst) (a : AwardRec) (route : Option Nat) : State :=
  let x := { x with
    state := .calling, phase := some .awarding, call := some a.call, best := none, bidders := [], award := some a
    route := route, timers := ReTimers.stopped }
  if a.node = s.pt.node then
    (((s.setInst i (some x)).handYu (.award a.call a.road x.tramRec a.direct)).yuTakesAll).beginAttempt i
  else
    (s.setInst i (some { x with timers := { ReTimers.stopped with awardWait := startTimer Config.awardWaitMs } })).send
      .award a.node (encAward a.call a.road x.tramRec a.direct)

/-- Road node and road index that a ROAD request's slot names. -/
def State.slotRoad (s : State) (slot : Nat) : Option (Nat × Nat) :=
  ((s.rq.slots[slot]?).bind Slot.data?).bind (·.road)

/-- A direct award (R126). -/
def State.directAward (s : State) (i : Nat) : State :=
  match s.inst? i with
  | some x =>
    match s.slotRoad x.slot with
    | some (node, road) =>
      let call : CallId := ⟨s.pt.node, s.nextSeq⟩
      ({ s with re := { s.re with callSeq := call.seq } }).makeAward i { x with owners := [] } ⟨call, node, road, true⟩ x.route
    | none => s
  | none => s

/-- The RUN_IN route at a signal to a road (R124). -/
def State.runInRoute (s : State) (signal node road : Nat) : Option Nat :=
  firstIndex (fun rc => rc.signal == signal && rc.cls == .runIn && rc.dest == .road node road) s.yard.routes

/-- The instance in BIDDING with a call ID. -/
def State.bidding (s : State) (call : CallId) : Option Nat :=
  firstIndex (fun o : Option Inst => match o with
    | some x => x.state == .calling && x.phase == some .bidding && x.call == some call
    | none => false) s.re.insts

/-- A bid is better than the best bid: lower score, or equal score and lower node ID (R124). -/
def BestBid.beats (b : BestBid) (best : Option BestBid) : Bool :=
  match best with
  | none => true
  | some c => decide (b.score < c.score) || (b.score == c.score && decide (b.node < c.node))

/-- RE takes a BID (R124); `rx` is none for the bid of the own YU. -/
def State.takeBid (s : State) (call : CallId) (road score : Nat) (rx : Option RxRec) : State :=
  let node := match rx with | some r => r.source | none => s.pt.node
  let good := match rx with | some r => r.usable && r.epochMatch | none => true
  match s.bidding call with
  | some i =>
    match s.inst? i with
    | some x =>
      if s.pt.mode != .isolated && good && decide (score ≤ 4095) && (s.runInRoute x.signal node road).isSome
          && !x.bidders.contains node then
        s.modInst i (fun x =>
          { x with
            bidders := x.bidders ++ [node]
            best := if BestBid.beats ⟨node, road, score⟩ x.best then some ⟨node, road, score⟩ else x.best })
      else s
    | none => s
  | none => s

/-- The bid timer has reached 150 ms (R124); in ISOLATED no award is made (R72, log entry 51). -/
def State.bidExpiry (s : State) (i : Nat) : State :=
  match s.inst? i with
  | some x =>
    if due x.timers.bid then
      match x.best, x.call with
      | some b, some call =>
        if s.originates then s.makeAward i x ⟨call, b.node, b.road, false⟩ (s.runInRoute x.signal b.node b.road) else s
      | _, _ =>
        s.setInst i (some { x with
          phase := some .waiting, best := none, bidders := []
          timers := { ReTimers.stopped with roadWait := startTimer Config.roadWaitMs } })
    else s
  | none => s

/-- Every instance in WAITING makes a new call (R125), in rising instance index: DESIGN CHOICE (log entry 33); in ISOLATED none does
(R72, log entry 51). -/
def State.takeRoadChange (s : State) : State :=
  if s.originates then
    forEach (List.range s.re.insts.length)
      (fun i s => match s.inst? i with
        | some x => if x.state = .calling ∧ x.phase = some .waiting then s.startCall i else s
        | none => s) s
  else s

/-! ## Setting, clearing, entering (R130 to R133) -/

/-- Every owner has granted: entry into SETTING (R129, R130). -/
def State.enterSettingRoute (s : State) (i : Nat) : State :=
  match s.inst? i with
  | some x =>
    let s := s.setInst i (some { x with
      state := .setting, timers := { ReTimers.stopped with set := startTimer Config.setMs } })
    forEach x.owners (fun o s => s.setTo (s.keyOf x) o.node) s
  | none => s

/-- Entry into CLEARING (R131). -/
def State.enterClearing (s : State) (i : Nat) : State :=
  match s.inst? i with
  | some x =>
    match s.routeOf x with
    | some rc =>
      (s.setInst i (some { x with
        state := .clearing, passed := List.replicate rc.steps.length false, timers := ReTimers.stopped })).commandSu
        (.proceed x.signal rc.dir)
    | none => s
  | none => s

/-- Every SET-DONE is there (R130): the first step's section is read, and the attempt fails or the signal is cleared. -/
def State.allSet (s : State) (i : Nat) (x : Inst) : State :=
  match s.firstSect x with
  | some k => if s.heldOccupied k then s.failAttempt i .other else s.enterClearing i
  | none => s

/-- The steps of a node that are not passed. -/
def hasUnpassed (node : Nat) : List RouteStep → List Bool → Bool
  | st :: steps, p :: ps => (st.owner == node && !p) || hasUnpassed node steps ps
  | _, _ => false

/-- Every step is passed. -/
def Inst.allPassed (x : Inst) : Bool :=
  x.passed.all (fun p => p)

/-- The end condition of HALTED (R136): every step is passed or belongs to an owner with its lost flag set. -/
def State.haltedEnds (s : State) (x : Inst) : Bool :=
  x.owners.all (fun o => o.lost || !hasUnpassed o.node (s.routeSteps x) x.passed)

/-- The instance ends DEGRADED, with a RELEASE to each owner with an unpassed step whose epoch has not changed (R135, R136), in owner-list
order: DESIGN CHOICE (log entry 33). -/
def State.endDegraded (s : State) (i : Nat) (x : Inst) (spareChanged : Bool) : State :=
  let steps := s.routeSteps x
  let s := forEach (x.owners.filter (fun o => hasUnpassed o.node steps x.passed && !(spareChanged && o.changed)))
    (fun o s => s.releaseTo (s.keyOf x) o.node) s
  s.endInst i x .degraded

/-- Looks whether an instance in ENTERED or HALTED has come to its end (R133, R136). -/
def State.checkEnd (s : State) (i : Nat) : State :=
  match s.inst? i with
  | some x =>
    match x.state with
    | .entered => if x.allPassed then s.endInst i x .done else s
    | .halted => if s.haltedEnds x then s.endDegraded i x true else s
    | _ => s
  | none => s

/-- Entry into ENTERED (R131 to R133, R139). -/
def State.enterEntered (s : State) (i : Nat) : State :=
  (s.modInst i (fun x => { x with
    state := .entered, cause := none, claimLost := false
    timers := { ReTimers.stopped with runThrough := startTimer Config.runThroughMs } })).checkEnd i

/-- Sets the passed flags that `p` accepts (by index from `k`). -/
def markPassed (p : Nat → RouteStep → Bool) (k : Nat) : List RouteStep → List Bool → List Bool
  | st :: steps, b :: bs => (b || p k st) :: markPassed p (k + 1) steps bs
  | _, bs => bs

/-- Counts steps passed in ENTERED or HALTED: a step newly passed restarts the run-through timer (R133, R136). -/
def State.countPassed (s : State) (i : Nat) (x : Inst) (p : Nat → RouteStep → Bool) : State :=
  let now := markPassed p 1 (s.routeSteps x) x.passed
  if now = x.passed then s
  else
    (s.setInst i (some { x with
      passed := now, timers := { x.timers with runThrough := startTimer Config.runThroughMs } })).checkEnd i

/-! ## Cancelling (R138, R139) -/

/-- The outcome of a cancelled route (R139). -/
def CancelCause.outcome : CancelCause → OutcomeCode
  | .requested => .cancelled .requested
  | .lifetime => .expired
  | .approach => .cancelled .approachTimeout
  | .halt => .degraded
  | .lamp => .clearFail

/-- RELEASE to every owner, AWARD-WITHDRAW where an award is held, and the end of the instance (R131, R138, R139). -/
def State.letGo (s : State) (i : Nat) (x : Inst) (code : OutcomeCode) : State :=
  ((s.releaseAsked x).withdrawAward x).endInst i x code

/-- The approach section of a signal is configured and CLEAR (R139). -/
def State.approachClear (s : State) (g : Nat) : Bool :=
  match (s.yard.signals[g]?).bind (·.approach) with
  | some k => s.sectClear k
  | none => false

/-- The release delay of an instance's route in ms. -/
def State.releaseDelay (s : State) (x : Inst) : Nat :=
  match s.routeOf x with
  | some rc => 1000 * rc.delay
  | none => 0

/-- STOP is commanded and the instance enters CANCELLING (R131, R132, R139). -/
def State.enterCancelling (s : State) (i : Nat) (cause : CancelCause) : State :=
  match s.inst? i with
  | some x =>
    let s := s.commandSu (.stop x.signal)
    if s.approachClear x.signal then s.letGo i x cause.outcome
    else
      s.setInst i (some { x with
        state := .cancelling, cause := some cause
        timers := { ReTimers.stopped with delay := startTimer (s.releaseDelay x) } })
  | none => s

/-- The cause of a cancel from RQ. -/
def CancelMark.cause : CancelMark → CancelCause
  | .requested => .requested
  | .lifetime => .lifetime

/-- RE takes a cancel from RQ (R138). A cancel for a request that the instance no longer serves finds nothing (log entry 24). -/
def State.takeCancel (s : State) (m : CancelMsg) : State :=
  match s.inst? m.inst with
  | some x =>
    if x.slot = m.slot ∧ x.serial = m.serial then
      match x.state with
      | .calling | .backoff => (s.withdrawAward x).endInst m.inst x m.cause.cause.outcome
      | .claiming | .setting => s.letGo m.inst x m.cause.cause.outcome
      | .clearing | .clear => s.enterCancelling m.inst m.cause.cause
      | .entered | .halted | .cancelling => s
    else s
  | none => s

/-! ## Replies (R129, R130, R133, R136, R140) -/

/-- The source of a reply: the node itself for a handover. -/
def State.replySource (s : State) (rx : Option RxRec) : Nat :=
  match rx with
  | some r => r.source
  | none => s.pt.node

/-- The epoch of a reply's source: the node's own for a handover. -/
def State.replyEpoch (s : State) (rx : Option RxRec) : Epoch :=
  match rx with
  | some r => r.epoch
  | none => s.pt.epoch

/-- A reply is a handover or shows EPOCH_MATCH (R129). -/
def replyMatches (rx : Option RxRec) : Bool :=
  match rx with
  | some r => r.epochMatch
  | none => true

/-- States whose instance has a present route key toward its owners (R140). -/
def ReState.keyed : ReState → Bool
  | .claiming | .setting | .clearing | .clear | .entered | .halted | .cancelling => true
  | .calling | .backoff => false

/-- The instance whose present key is `key`. -/
def State.instWithKey (s : State) (key : RouteKey) : Option Nat :=
  firstIndex (fun o : Option Inst => match o with
    | some x => x.state.keyed && s.keyOf x == key
    | none => false) s.re.insts

/-- A stale reply is counted (R140). -/
def State.stale (s : State) : State :=
  s.count (fun c => { c with staleReplies := bump c.staleReplies })

/-- A stale GRANT is answered with a RELEASE to its source (R140). -/
def State.answerStaleGrant (s : State) (key : RouteKey) (rx : Option RxRec) : State :=
  (s.releaseTo key (s.replySource rx)).stale

/-- A reply counts in CLAIMING or SETTING: from an owner asked, as a handover or with EPOCH_MATCH (R129). -/
def State.replyCounts (s : State) (x : Inst) (rx : Option RxRec) : Bool :=
  x.asked (s.replySource rx) && replyMatches rx

/-- A GRANT that counts (R129). One from an owner that has granted already is not counted again, and STALE_REPLIES stays as it is: DESIGN
CHOICE, no row of R140 holds it (log entry 44). -/
def State.recordGrant (s : State) (i : Nat) (x : Inst) (claimId : Nat) (rx : Option RxRec) : State :=
  let src := s.replySource rx
  if (x.owner? src).any OwnerEntry.hasGranted then s
  else
    let x := x.modOwner src (fun o => { o with reply := .granted claimId, epoch := some (s.replyEpoch rx) })
    let s := s.setInst i (some x)
    if x.owners.all OwnerEntry.hasGranted then s.enterSettingRoute i else s

/-- RE takes a GRANT (R129, R140). In ISOLATED it answers the stale ones, and takes none that would count (R141). One whose
key names another node is ignored and not counted: DESIGN CHOICE, no row of R140 holds it (log entry 53). -/
def State.takeGrant (s : State) (key : RouteKey) (claimId : Nat) (rx : Option RxRec) : State :=
  if key.owner ≠ s.pt.node then s
  else
    match s.instWithKey key with
    | none => s.answerStaleGrant key rx
    | some i =>
      match s.inst? i with
      | some x =>
        if x.state = .claiming then
          if s.replyCounts x rx then
            if s.pt.mode = .isolated then s else s.recordGrant i x claimId rx
          else s.answerStaleGrant key rx
        else s.stale
      | none => s

/-- RE takes a DENY (R129). -/
def State.takeDeny (s : State) (i : Nat) (x : Inst) (reason : DenyReason) (rx : Option RxRec) : State :=
  if x.state = .claiming ∧ s.replyCounts x rx then
    (s.setInst i (some (x.modOwner (s.replySource rx) (fun o => { o with reply := .denied })))).failAttempt i
      reason.cause
  else s.stale

/-- RE takes a SET-DONE (R130). -/
def State.takeSetDone (s : State) (i : Nat) (x : Inst) (at_ : Time) (rx : Option RxRec) : State :=
  if x.state = .setting ∧ s.replyCounts x rx then
    let x := x.modOwner (s.replySource rx) (fun o => { o with setDone := true, setDoneTime := some at_ })
    let s := s.setInst i (some x)
    if x.owners.all (·.setDone) then s.allSet i x else s
  else s.stale

/-- RE takes a SET-FAIL (R130). -/
def State.takeSetFail (s : State) (i : Nat) (x : Inst) (rx : Option RxRec) : State :=
  if x.state = .setting ∧ s.replyCounts x rx then s.failAttempt i .other else s.stale

/-- RE takes a CLAIM-LOST (R129 to R132, R136): in CLAIMING and SETTING as any reply, later from any owner asked, whose EPOCH_MATCH is not
asked for; from another source it is stale. DESIGN CHOICE, R131 and R132 name no source (log entry 43). -/
def State.takeClaimLost (s : State) (i : Nat) (x : Inst) (rx : Option RxRec) : State :=
  match x.state with
  | .claiming | .setting => if s.replyCounts x rx then s.failAttempt i .other else s.stale
  | .clearing | .clear => if x.asked (s.replySource rx) then s.enterCancelling i .halt else s.stale
  | .entered | .halted =>
    if x.asked (s.replySource rx) then
      (s.setInst i (some { x with state := .halted, claimLost := true })).checkEnd i
    else s.stale
  | .calling | .backoff | .cancelling => s.stale

/-- Step `number` of an instance's route is a step of `node`. -/
def State.stepOf (s : State) (x : Inst) (number node : Nat) : Bool :=
  number != 0 && ((s.routeSteps x)[number - 1]?).any (fun st => st.owner == node)

/-- RE takes a PASSED (R132, R133, R136). -/
def State.takePassed (s : State) (i : Nat) (x : Inst) (number : Nat) (rx : Option RxRec) : State :=
  if s.stepOf x number (s.replySource rx) then
    match x.state with
    | .clear => s.setInst i (some { x with passed := x.passed.set (number - 1) true })
    | .entered | .halted => s.countPassed i x (fun k _ => k == number)
    | _ => s.stale
  else s.stale

/-- RE takes an answer of an owner; `rx` is the receive record of a frame, none for a handover of the own CT. In ISOLATED no reply but
a stale GRANT is taken (R141). -/
def State.takeReply (s : State) (m : ReMsg) (rx : Option RxRec) : State :=
  match m with
  | .grant key claimId => s.takeGrant key claimId rx
  | _ =>
    if s.pt.mode = .isolated then s
    else
      match s.instWithKey m.key with
      | none => s.stale
      | some i =>
        match s.inst? i with
        | none => s
        | some x =>
          match m with
          | .grant _ _ => s
          | .deny _ reason _ _ => s.takeDeny i x reason rx
          | .setDone _ at_ => s.takeSetDone i x at_ rx
          | .setFail _ _ _ => s.takeSetFail i x rx
          | .passed _ number => s.takePassed i x number rx
          | .claimLost _ _ _ => s.takeClaimLost i x rx

/-! ## Reports of SU -/

/-- The instance whose entry signal is `g`. -/
def State.instAt (s : State) (g : Nat) : Option Nat :=
  firstIndex (fun o : Option Inst => match o with | some x => x.signal == g | none => false) s.re.insts

/-- RE takes PROVED (R131, R140). -/
def State.takeProved (s : State) (g : Nat) : State :=
  match s.instAt g with
  | some i =>
    match s.inst? i with
    | some x =>
      if x.state = .clearing then
        let limit := match s.routeOf x with | some rc => 1000 * rc.approach | none => 0
        (s.setInst i (some { x with
          state := .clear, timers := { ReTimers.stopped with approach := startTimer limit } })).count
          (fun c => { c with routesSet := bump c.routesSet })
      else s.commandSu (.stop g)
    | none => s
  | none => s.commandSu (.stop g)

/-- RE takes CLEAR_FAIL (R131, R140). STOP is given here too: RE gives it whenever an instance leaves CLEARING (R121). -/
def State.takeClearFail (s : State) (g : Nat) : State :=
  match (s.instAt g).bind (fun i => (s.inst? i).map (fun x => (i, x))) with
  | some (i, x) => if x.state = .clearing then (s.commandSu (.stop g)).letGo i x .clearFail else s
  | none => s

/-- RE takes LAMP_FAULT (R132, R140). -/
def State.takeLampFault (s : State) (g : Nat) : State :=
  match (s.instAt g).bind (fun i => (s.inst? i).map (fun x => (i, x))) with
  | some (i, x) => if x.state = .clear then s.enterCancelling i .lamp else s
  | none => s

/-! ## Section changes, peers, lock reports -/

/-- The first step's section of an instance becomes held occupied (R131, R132, R139). -/
def State.trampedFirst (s : State) (i : Nat) (x : Inst) : State :=
  match x.state with
  | .clearing | .clear => (s.commandSu (.stop x.signal)).enterEntered i
  | .cancelling => s.enterEntered i
  | _ => s

/-- RE takes a section-change notice, instances in rising index (log entry 33). -/
def State.reNotice (s : State) (n : SectNotice) : State :=
  if n.before = .clear ∧ n.after ≠ .clear then
    forEach (List.range s.re.insts.length)
      (fun i s => match s.inst? i with
        | some x => if s.firstSect x = some n.sect then s.trampedFirst i x else s
        | none => s) s
  else s

/-- One instance takes UNUSABLE or EPOCH_CHANGE of an owner (R129, R130, R131, R132, R136). `epoch` is the epoch that the owner was
recorded under before the notice; `changed`: it is an EPOCH_CHANGE. An owner entry that holds another epoch was made under a newer one,
which the notice does not touch (R69); one that holds none yet fails the attempt, as R129 says (log entry 39). -/
def State.ownerGone (s : State) (peer : Nat) (epoch : Epoch) (changed : Bool) (i : Nat) (x : Inst) : State :=
  match x.owner? peer with
  | some o =>
    match x.state with
    | .claiming | .setting => if o.asked && o.epoch.all (fun e => e == epoch) then s.failAttempt i .other else s
    | .clearing | .clear => if o.epoch = some epoch then s.enterCancelling i .halt else s
    | .entered | .halted =>
      if o.epoch = some epoch ∧ hasUnpassed peer (s.routeSteps x) x.passed = true then
        (s.setInst i (some ({ x with state := .halted }.modOwner peer (fun o =>
          { o with lost := true, changed := o.changed || changed })))).checkEnd i
      else s
    | .calling | .backoff | .cancelling => s
  | none => s

/-- RE takes UNUSABLE or EPOCH_CHANGE, instances in rising index: DESIGN CHOICE (log entry 33). -/
def State.reLost (s : State) (peer : Nat) (epoch : Epoch) (changed : Bool) : State :=
  forEach (List.range s.re.insts.length)
    (fun i s => match s.inst? i with
      | some x => s.ownerGone peer epoch changed i x
      | none => s) s

/-- An instance after the return of an owner (R136). Back in ENTERED its run-through timer runs on from where it stands: DESIGN CHOICE,
R133 starts it on the entry from the line, and R136 does not say that the return starts it again (log entry 56). -/
def Inst.ownerBack (peer : Nat) (epoch : Epoch) (x : Inst) : Inst :=
  let x' := x.modOwner peer (fun o => if o.epoch = some epoch ∧ o.changed = false then { o with lost := false } else o)
  if x'.claimLost || x'.owners.any (·.lost) then x' else { x' with state := .entered }

/-- RE takes USABLE (R136). -/
def State.reReturned (s : State) (peer : Nat) (epoch : Epoch) : State :=
  { s with re := { s.re with insts := s.re.insts.map (Option.map (fun x =>
      if x.state = .halted ∧ (x.owner? peer).any (fun o => o.lost && o.epoch == some epoch && !o.changed) = true then
        x.ownerBack peer epoch
      else x)) } }

/-- `t` is later than `t0` on the 32-bit time base (log entry 19). -/
def later (t t0 : Time) : Bool :=
  t != t0 && reached t t0

/-- A lock report counts for an owner of an instance (R134). -/
def OwnerEntry.reportCounts (o : OwnerEntry) (epoch : Epoch) (at_ : Time) : Bool :=
  o.epoch == some epoch && !o.changed && o.setDoneTime.any (fun t0 => later at_ t0)

/-- RE takes a lock report of PT (R134), instances in rising index: DESIGN CHOICE (log entry 33). -/
def State.takeLockReport (s : State) (peer : Nat) (epoch : Epoch) (at_ : Time) (map : BitVec 16) : State :=
  forEach (List.range s.re.insts.length)
    (fun i s => match s.inst? i with
      | some x =>
        if (x.state = .entered ∨ x.state = .halted) ∧ (x.owner? peer).any (fun o => o.reportCounts epoch at_) = true then
          s.countPassed i x (fun _ st => st.owner == peer && !lockedIn map st.sect)
        else s
      | none => s) s

/-! ## Isolation (R141) -/

/-- One instance ends on the isolation notice (R141), its RELEASEs in owner-list order: DESIGN CHOICE (log entry 33). -/
def State.isolateInst (s : State) (i : Nat) (x : Inst) : State :=
  let s := forEach (x.owners.filter (fun o => o.asked && o.node != s.pt.node)) (fun o s => s.releaseTo (s.keyOf x) o.node) s
  let s := match x.state with
    | .entered | .halted => s
    | _ => s.withdrawAward x
  s.setInst i none

/-- RE takes the isolation notice, in rising instance order (R141). -/
def State.reIsolate (s : State) : State :=
  forEach (List.range s.re.insts.length)
    (fun i s => match s.inst? i with
      | some x => s.isolateInst i x
      | none => s) s

/-! ## Commands of RE's own timers and notices -/

/-- RE_SECTION_CHANGE (R131, R132, R139). -/
def execReSectionChange (k : Nat) (s : State) : Host.Outcome State Fault Refusal :=
  match takeFirst (fun n => n.sect == k) s.re.notices with
  | some (n, rest) => .next ({ s with re := { s.re with notices := rest } }.reNotice n)
  | none => .next s

/-- PROVED (R131, R140). -/
def execProved (g : Nat) (s : State) : Host.Outcome State Fault Refusal :=
  match takeFirst (fun r => r.signal == g) s.re.reports with
  | some (.proved _, rest) => .next ({ s with re := { s.re with reports := rest } }.takeProved g)
  | _ => .next s

/-- CLEAR_FAIL (R131, R140). -/
def execClearFail (g : Nat) (s : State) : Host.Outcome State Fault Refusal :=
  match takeFirst (fun r => r.signal == g) s.re.reports with
  | some (.clearFail _, rest) => .next ({ s with re := { s.re with reports := rest } }.takeClearFail g)
  | _ => .next s

/-- LAMP_FAULT (R132, R140). -/
def execLampFault (g : Nat) (s : State) : Host.Outcome State Fault Refusal :=
  match takeFirst (fun r => r.signal == g) s.re.reports with
  | some (.lampFault _, rest) => .next ({ s with re := { s.re with reports := rest } }.takeLampFault g)
  | _ => .next s

/-- RE_UNUSABLE (R129, R130, R131, R132, R136). -/
def execReUnusable (k : Nat) (s : State) : Host.Outcome State Fault Refusal :=
  match takeFirst (fun n => n.peer == k) s.re.peerNotices with
  | some (.unusable _ e, rest) => .next ({ s with re := { s.re with peerNotices := rest } }.reLost k e false)
  | _ => .next s

/-- RE_USABLE (R136). -/
def execReUsable (k : Nat) (s : State) : Host.Outcome State Fault Refusal :=
  match takeFirst (fun n => n.peer == k) s.re.peerNotices with
  | some (.usable _ e, rest) => .next ({ s with re := { s.re with peerNotices := rest } }.reReturned k e)
  | _ => .next s

/-- RE_EPOCH_CHANGE (R129, R130, R131, R132, R136). -/
def execReEpochChange (k : Nat) (s : State) : Host.Outcome State Fault Refusal :=
  match takeFirst (fun n => n.peer == k) s.re.peerNotices with
  | some (.epochChange _ old _, rest) => .next ({ s with re := { s.re with peerNotices := rest } }.reLost k old true)
  | _ => .next s

/-- RE_ISOLATION (R141). -/
def execReIsolation (s : State) : Host.Outcome State Fault Refusal :=
  if s.re.isolated then .next ({ s with re := { s.re with isolated := false } }.reIsolate) else .next s

/-- CANCEL_INSTANCE (R138): RE takes the oldest cancel for an instance. -/
def execCancelInstance (i : Nat) (s : State) : Host.Outcome State Fault Refusal :=
  match takeFirst (fun m => m.inst == i) s.re.cancels with
  | some (m, rest) => .next ({ s with re := { s.re with cancels := rest } }.takeCancel m)
  | none => .next s

/-- BID_TIMER_EXPIRY (R124). -/
def execBidTimerExpiry (i : Nat) (s : State) : Host.Outcome State Fault Refusal :=
  .next (s.bidExpiry i)

/-- ROAD_WAIT_EXPIRY (R125): a new bid call; none in ISOLATED (R72, log entry 51). -/
def execRoadWaitExpiry (i : Nat) (s : State) : Host.Outcome State Fault Refusal :=
  match s.inst? i with
  | some x => if due x.timers.roadWait && s.originates then .next (s.startCall i) else .next s
  | none => .next s

/-- AWARD_WAIT_EXPIRY (R124, R126): the first attempt begins; none in ISOLATED (R72, log entry 51). -/
def execAwardWaitExpiry (i : Nat) (s : State) : Host.Outcome State Fault Refusal :=
  match s.inst? i with
  | some x => if due x.timers.awardWait && s.originates then .next (s.beginAttempt i) else .next s
  | none => .next s

/-- CLAIM_WINDOW_EXPIRY (R129): the attempt fails. -/
def execClaimWindowExpiry (i : Nat) (s : State) : Host.Outcome State Fault Refusal :=
  match s.inst? i with
  | some x => if due x.timers.claim then .next (s.failAttempt i .other) else .next s
  | none => .next s

/-- SET_WINDOW_EXPIRY (R130): the attempt fails. -/
def execSetWindowExpiry (i : Nat) (s : State) : Host.Outcome State Fault Refusal :=
  match s.inst? i with
  | some x => if due x.timers.set then .next (s.failAttempt i .other) else .next s
  | none => .next s

/-- APPROACH_TIMER_EXPIRY (R132): STOP, and CANCELLING with cause APPROACH. -/
def execApproachTimerExpiry (i : Nat) (s : State) : Host.Outcome State Fault Refusal :=
  match s.inst? i with
  | some x => if due x.timers.approach then .next (s.enterCancelling i .approach) else .next s
  | none => .next s

/-- RELEASE_DELAY_EXPIRY (R139): RELEASE, AWARD-WITHDRAW, and the end of the instance. -/
def execReleaseDelayExpiry (i : Nat) (s : State) : Host.Outcome State Fault Refusal :=
  match s.inst? i with
  | some x =>
    match due x.timers.delay, x.cause with
    | true, some cause => .next (s.letGo i x cause.outcome)
    | _, _ => .next s
  | none => .next s

/-- RUN_THROUGH_EXPIRY (R135): RELEASE to every owner with an unpassed step, outcome DEGRADED. -/
def execRunThroughExpiry (i : Nat) (s : State) : Host.Outcome State Fault Refusal :=
  match s.inst? i with
  | some x => if due x.timers.runThrough then .next (s.endDegraded i x false) else .next s
  | none => .next s

/-- The end of a back-off (R137). An IN request without award makes a new bid call: DEDUCED, R137's table has no row for it (log entry
25). -/
def State.retry (s : State) (i : Nat) (x : Inst) : State :=
  match x.award with
  | some a =>
    if a.direct || a.node == s.pt.node || s.peerUsable a.node then s.beginAttempt i
    else ((s.withdrawAward x).setInst i (some x.dropAward)).startCall i
  | none =>
    match x.code with
    | .road => s.directAward i
    | .inbound => s.startCall i
    | .outbound | .dest => s.beginAttempt i

/-- RETRY_TIMER_EXPIRY (R137): nothing begins in ISOLATED (R72, log entry 51). -/
def execRetryTimerExpiry (i : Nat) (s : State) : Host.Outcome State Fault Refusal :=
  match s.inst? i with
  | some x => if due x.timers.retry && s.originates then .next (s.retry i x) else .next s
  | none => .next s

end Sys2Proof.Machine
end

