-- ==== Sys2Proof/Machine/Signals.lean ====
section
/-! DEFINITION. The Signal Unit: PROCEED and STOP commands (R32, R33, R35), the clearing timer (R34), lamp trials (R37), and the
evaluation of one signal for a window (R34, R36, R37). What RQ does on a lamp-fault or lamp-recovered notice is in Requests.lean. -/

namespace Sys2Proof.Machine

/-- A signal in STOP with its STOP lamp just lit and every run and timer at rest. -/
def SignalRec.atStop : SignalRec :=
  ⟨.stop, none, some .stop, 0, 0, none, none, 0⟩

/-- A signal in LAMP_FAULT at the start of phase DARK (R36). -/
def SignalRec.faulted : SignalRec :=
  ⟨.lampFault, none, none, 0, 0, none, some (.dark, ⟨0, Config.trialDarkMs⟩), 0⟩

/-- A signal in CLEARING for a direction (R33). -/
def SignalRec.clearingFor (d : Direction) : SignalRec :=
  ⟨.clearing, some d, some d.lamp, 0, 0, startTimer Config.clearingMs, none, 0⟩

/-- An exchange sends the lit lamp once more (R17). That the first exchange after SU lights a lamp is the one that lights it, also where
the field still shows that lamp from before, is DESIGN CHOICE (log entry 50). -/
def SignalRec.exchanged (r : SignalRec) : SignalRec :=
  { r with sent := min 2 (r.sent + 1) }

/-- SU takes a PROCEED command (R33). -/
def State.takeProceed (s : State) (g : Nat) (d : Direction) : State :=
  match s.yard.signals[g]?, s.su.signals[g]? with
  | some cfg, some r =>
    match r.state with
    | .stop =>
      if cfg.has d then s.modSignal g (fun _ => SignalRec.clearingFor d) else s.reportToRe (.clearFail g)
    | .clearing | .proceed =>
      if r.dir = some d then s else (s.modSignal g (fun _ => SignalRec.atStop)).reportToRe (.clearFail g)
    | .lampFault => s.reportToRe (.clearFail g)
  | _, _ => s

/-- SU takes a STOP command (R35). -/
def State.takeStop (s : State) (g : Nat) : State :=
  match s.su.signals[g]? with
  | some r =>
    match r.state with
    | .clearing | .proceed => s.modSignal g (fun _ => SignalRec.atStop)
    | .stop | .lampFault => s
  | none => s

/-- The clearing timer has reached 100 ms (R34). -/
def State.clearingExpiry (s : State) (g : Nat) : State :=
  match s.su.signals[g]? with
  | some r =>
    if r.state = .clearing ∧ due r.clearing then
      (s.modSignal g (fun _ => SignalRec.atStop)).reportToRe (.clearFail g)
    else s
  | none => s

/-- The trial timer has reached its limit (R37): after 1000 ms DARK the trial begins, after 100 ms LIT it ends. -/
def State.trialExpiry (s : State) (g : Nat) : State :=
  match s.su.signals[g]? with
  | some r =>
    match r.state, r.trial with
    | .lampFault, some (.dark, t) =>
      if t.limit ≤ t.elapsed then
        s.modSignal g (fun r => { r with lit := some .stop, proof := 0, trial := some (.lit, ⟨0, Config.trialLitMs⟩), sent := 0 })
      else s
    | .lampFault, some (.lit, t) =>
      if t.limit ≤ t.elapsed then
        s.modSignal g (fun r => { r with lit := none, trial := some (.dark, ⟨0, Config.trialDarkMs⟩) })
      else s
    | _, _ => s
  | none => s

/-! ## Window evaluation of one signal -/

/-- What the evaluation of a signal gives beside its new record. -/
inductive SignalEffect where
  | nothing
  | proved
  /-- The lamp has failed: the state left and the lamp. -/
  | failed (left : SignalState) (lamp : Lamp)
  | recovered
deriving DecidableEq, Repr

/-- One signal evaluates the lamp-proving reading that counts for its lit lamp (R34, R36, R37); `current` is none where no reading
counts (R17). A signal that recovers into STOP keeps its lamp lit. -/
def SignalRec.evaluate (r : SignalRec) (current : Option Bool) : SignalRec × SignalEffect :=
  match current, r.lit with
  | some cur, some lamp =>
    match r.state with
    | .clearing =>
      if cur then
        if r.proof + 1 ≥ 2 then ({ r with state := .proceed, proof := 0, dark := 0, clearing := none }, .proved)
        else ({ r with proof := r.proof + 1 }, .nothing)
      else ({ r with proof := 0 }, .nothing)
    | .stop | .proceed =>
      if cur then ({ r with dark := 0 }, .nothing)
      else if r.dark + 1 ≥ 2 then (SignalRec.faulted, .failed r.state lamp)
      else ({ r with dark := r.dark + 1 }, .nothing)
    | .lampFault =>
      if cur then
        if r.proof + 1 ≥ 3 then ({ SignalRec.atStop with sent := r.sent }, .recovered) else ({ r with proof := r.proof + 1 }, .nothing)
      else ({ r with proof := 0 }, .nothing)
  | _, _ => (r, .nothing)

/-! ## The commands of SU -/

/-- PROCEED_COMMAND (R33): SU takes the oldest command for the signal, where it is a PROCEED. -/
def execProceedCommand (g : Nat) (s : State) : Host.Outcome State Fault Refusal :=
  match takeFirst (fun c => c.signal == g) s.su.commands with
  | some (.proceed _ d, rest) => .next ({ s with su := { s.su with commands := rest } }.takeProceed g d)
  | _ => .next s

/-- STOP_COMMAND (R35): SU takes the oldest command for the signal, where it is a STOP. -/
def execStopCommand (g : Nat) (s : State) : Host.Outcome State Fault Refusal :=
  match takeFirst (fun c => c.signal == g) s.su.commands with
  | some (.stop _, rest) => .next ({ s with su := { s.su with commands := rest } }.takeStop g)
  | _ => .next s

/-- CLEARING_TIMER_EXPIRY (R34). -/
def execClearingTimerExpiry (g : Nat) (s : State) : Host.Outcome State Fault Refusal :=
  .next (s.clearingExpiry g)

/-- TRIAL_TIMER_EXPIRY (R37). -/
def execTrialTimerExpiry (g : Nat) (s : State) : Host.Outcome State Fault Refusal :=
  .next (s.trialExpiry g)

end Sys2Proof.Machine
end

