-- ==== Sys2Proof/Machine/Requests.lean ====
section
/-! DEFINITION. The Request Unit: reader inputs and telegrams (R74 to R76), requests and refusals (R77 to R80), the activation scan
(R83, R84), cancels and lifetimes (R86, R87), outcomes (R88 to R90), isolation (R89), and the lamp notices of SU (R82) with the
window evaluation that gives them (R34, R36, R37). -/

namespace Sys2Proof.Machine

/-! ## Reader inputs (R75, R76) -/

/-- What makes RQ ignore a completed telegram (R76, checks 1 and 2). -/
inductive TelegramFault where
  | badCheck
  | badTram
deriving DecidableEq, Repr

/-- Checks 1 and 2 of R76. -/
def telegramFault (l : List Byte) : Option TelegramFault :=
  if !telGood l then some .badCheck
  else if 1 ≤ wordAt l 0 ∧ wordAt l 0 ≤ 9999 then none
  else some .badTram

/-- An ignored telegram is counted (R76). -/
def State.countTelegramFault (s : State) (f : TelegramFault) : State :=
  match f with
  | .badCheck => s.count (fun c => { c with badTelegram := bump c.badTelegram })
  | .badTram => s.count (fun c => { c with badTram := bump c.badTram })

/-- BAD_TELEGRAM advances (R75). -/
def State.badTelegram (s : State) : State :=
  s.countTelegramFault .badCheck

/-- Where 3 ms have passed since the last stop bit, the bytes held are discarded and counted, and an overrun ends (R75). -/
def State.gapPassed (s : State) (p : Nat) : State :=
  match s.rq.points[p]? with
  | some r =>
    if due r.gap then
      let s' := s.modReqPoint p (fun r => { r with bytes := [], damaged := false, gap := none, overrun := .none })
      if r.bytes.isEmpty then s' else s'.badTelegram
    else s
  | none => s

/-- A telegram has its eighth byte (R75): damaged, or ignored by R76, or waiting for its request to be examined (log entry 29). -/
def State.completeTelegram (s : State) (p : Nat) (l : List Byte) (damaged : Bool) : State :=
  let s := s.modReqPoint p (fun r =>
    { r with bytes := [], damaged := false, gap := startTimer Config.gapMs, overrun := .armed })
  if damaged then s.badTelegram
  else
    match telegramFault l with
    | some f => s.countTelegramFault f
    | none => { s with rq := { s.rq with telegrams := s.rq.telegrams ++ [⟨p, l, s.time⟩] } }

/-- The input of point `p` is read (R74, R75). -/
def State.readsPoint (s : State) (p : Nat) : Bool :=
  s.pt.mode.active && decide (p < s.yard.reqPoints.length)

/-- A byte on a reader input that is read (R75). -/
def State.assembleByte (s : State) (p : Nat) (value : Byte) (framed : Bool) : State :=
  match s.rq.points[p]? with
  | some r =>
    match r.overrun with
    | .armed =>
      (s.modReqPoint p (fun r => { r with gap := startTimer Config.gapMs, overrun := .counted })).badTelegram
    | .counted => s.modReqPoint p (fun r => { r with gap := startTimer Config.gapMs })
    | .none =>
      let l := r.bytes ++ [value]
      let damaged := r.damaged || !framed
      if l.length < 8 then
        s.modReqPoint p (fun r => { r with bytes := l, damaged := damaged, gap := startTimer Config.gapMs })
      else s.completeTelegram p l damaged
  | none => s

/-- A byte ends on a reader input (R75). The 3 ms run from the stop bit of the byte before to the end of this byte, not to its start bit:
DESIGN CHOICE, R75 does not say which moment of a byte counts (log entry 52). -/
def State.readerByte (s : State) (p : Nat) (value : Byte) (framed : Bool) : State :=
  if s.readsPoint p then (s.gapPassed p).assembleByte p value framed else s

/-! ## Telegrams -/

/-- Sort of a telegram by its request code (R76, R180). -/
inductive TelClass where
  | request (c : ReqCode)
  | cancel
  | unknown
deriving DecidableEq, Repr

/-- Sort of a request code byte (R180). -/
def telClass (code : Nat) : TelClass :=
  match code with
  | 1 => .request .inbound
  | 2 => .request .outbound
  | 3 => .request .road
  | 4 => .request .dest
  | 5 => .cancel
  | _ => .unknown

/-- RQ takes the oldest completed telegram of a point, where it is of the given sort: it is validated (R76) and examined by `f`. -/
def State.withTelegram (s : State) (p : Nat) (cls : TelClass) (f : Telegram → State → State) : State :=
  match takeFirst (fun t : Telegram => t.point == p) s.rq.telegrams with
  | some (t, rest) =>
    if telClass (telCode t.bytes) = cls then
      let s := { s with rq := { s.rq with telegrams := rest } }
      match telegramFault t.bytes with
      | some e => s.countTelegramFault e
      | none => f t s
    else s
  | none => s

/-! ## Lamps and outcomes (R85, R88, R90) -/

/-- A slot of request point `p` is QUEUED or ACTIVE (R85). -/
def State.lampFor (s : State) (p : Nat) : Bool :=
  s.rq.slots.any (fun x => x.data?.any (fun d => d.point == p))

/-- Every request lamp follows the slots (R85). -/
def State.setLamps (s : State) : State :=
  { s with rq := { s.rq with lamps := (List.range 8).map s.lampFor } }

/-- An outcome record is written to the ring and handed to RP (R88, R90). -/
def State.writeOutcome (s : State) (r : OutcomeRec) : State :=
  ({ s with rq := { s.rq with ring := (r :: s.rq.ring).take 16 } }).reportOutcome r

/-- The outcome of a slot at this moment. -/
def State.slotOutcome (s : State) (d : SlotData) (code : OutcomeCode) : State :=
  s.writeOutcome ⟨some d.serial, d.tram, d.signal, code, s.time⟩

/-- A QUEUED slot leaves its queue and is freed, with an outcome (R86, R87). -/
def State.endQueued (s : State) (i : Nat) (d : SlotData) (code : OutcomeCode) : State :=
  let s := { s with rq := { s.rq with
    slots := s.rq.slots.set i .free
    queues := s.rq.queues.modify d.signal (fun q => q.filter (fun k => k != i)) } }
  (s.slotOutcome d code).setLamps

/-! ## Activation (R83, R84, R122) -/

/-- A new instance for a slot; the state it begins in follows at once (R121, R122). -/
def Inst.new (slot : Nat) (d : SlotData) : Inst :=
  { state := .calling, slot := slot, serial := d.serial, tram := d.tram, places := d.places, runOut := d.runOut
    code := d.code, signal := d.signal, route := d.route, attempt := none, phase := none, call := none, best := none
    bidders := [], award := none, owners := [], passed := [], cause := none, claimLost := false, timers := ReTimers.stopped }

/-- The lowest-numbered free instance. -/
def State.freeInst (s : State) : Option Nat :=
  firstIndex (fun o : Option Inst => o.isNone) s.re.insts

/-- The instance begins according to its request code (R122). -/
def State.startInst (s : State) (i : Nat) (code : ReqCode) : State :=
  match code with
  | .inbound => s.startCall i
  | .road => s.directAward i
  | .outbound | .dest => s.beginAttempt i

/-- The slot that a visit of signal `g` activates, with its instance (R83). -/
def State.activable (s : State) (g : Nat) : Option (Nat × SlotData × Nat) :=
  if s.pt.mode = .running ∧ g < s.yard.signals.length ∧ s.rq.fault.getD g false = false ∧ s.instAt g = none then
    match (s.rq.queues[g]?).bind List.head?, s.freeInst with
    | some k, some i =>
      match s.rq.slots[k]? with
      | some (.queued d) => some (k, d, i)
      | _ => none
    | _, _ => none
  else none

/-- Activation of slot `k` at signal `g` into instance `i` (R84, R122). -/
def State.activate (s : State) (g k : Nat) (d : SlotData) (i : Nat) : State :=
  let s := { s with rq := { s.rq with
    slots := s.rq.slots.set k (.active d i none), queues := s.rq.queues.modify g List.tail, lastServed := g } }
  (s.setInst i (some (Inst.new k d))).startInst i d.code

/-- `left` more visits from signal `g` on, eight again after each activation; `n` bounds the visits of the whole scan. -/
def State.visit (s : State) (n left g : Nat) : State :=
  match n, left with
  | 0, _ => s
  | _, 0 => s
  | n + 1, left + 1 =>
    match s.activable g with
    | some (k, d, i) => (s.activate g k d i).visit n 8 ((g + 1) % 8)
    | none => s.visit n left ((g + 1) % 8)

/-- The activation scan (R83). At most eight instances can be filled, so 72 visits end every scan. -/
def State.scan (s : State) : State :=
  s.visit 72 8 ((s.rq.lastServed + 1) % 8)

/-! ## Requests (R77 to R80) -/

/-- Entry signal of a request point (R74). -/
def State.entrySignal (s : State) (p : Nat) : Nat :=
  s.yard.reqPoints.getD p 0

/-- Mouth road of a request point: the road whose run-out signal is its entry signal (R74). -/
def State.mouthRoad (s : State) (p : Nat) : Option Nat :=
  firstIndex (fun c => c.runOut == s.entrySignal p) s.yard.roads

/-- The hold of the point stands for this tram and code (R79). -/
def State.holdStands (s : State) (t : Telegram) : Bool :=
  match s.rq.points[t.point]? with
  | some r => r.hold.any (fun h => h.tram == wordAt t.bytes 0 && h.code == telCode t.bytes)
  | none => false

/-- A slot holds this request already (R77). -/
def State.duplicate (s : State) (t : Telegram) (c : ReqCode) : Bool :=
  s.rq.slots.any (fun x => x.data?.any (fun d => d.point == t.point && d.tram == wordAt t.bytes 0 && d.code == c))

/-- The destination that a request names; an IN request names none (R78). -/
def wantedDest (c : ReqCode) (l : List Byte) : Option Dest :=
  match c with
  | .inbound => none
  | .outbound => some .line
  | .road => some (.road (byteAt l 5) (byteAt l 6))
  | .dest => some (.code (byteAt l 5))

/-- The route class of a request (R78). -/
def ReqCode.cls : ReqCode → RouteClass
  | .inbound | .road => .runIn
  | .outbound => .runOut
  | .dest => .shunt

/-- The matching route of a request at an entry signal (R78). -/
def State.matchRoute (s : State) (g : Nat) (c : ReqCode) (l : List Byte) : Option Nat :=
  firstIndex (fun rc => rc.signal == g && rc.cls == c.cls && (match wantedDest c l with | some d => rc.dest == d | none => true))
    s.yard.routes

/-- The FREE slot with the lowest index. -/
def State.freeSlot (s : State) : Option Nat :=
  firstIndex (fun x => x == Slot.free) s.rq.slots

/-- Conditions 1 to 5 of R78; `c` is none for an unknown code. -/
def State.refusalOf (s : State) (t : Telegram) (c : Option ReqCode) : Option RefusalDetail :=
  match c with
  | none => some .badCode
  | some c =>
    if s.pt.mode ≠ .running then some .notReady
    else if s.rq.fault.getD (s.entrySignal t.point) false then some .signalFault
    else if s.matchRoute (s.entrySignal t.point) c t.bytes = none then some .noRoute
    else if s.freeSlot = none then some .tableFull
    else none

/-- A refusal: outcome record and refusal hold (R78, R79). -/
def State.refuse (s : State) (t : Telegram) (d : RefusalDetail) : State :=
  let s := s.writeOutcome ⟨none, wordAt t.bytes 0, s.entrySignal t.point, .refused d, s.time⟩
  s.modReqPoint t.point (fun r =>
    { r with hold := some ⟨wordAt t.bytes 0, telCode t.bytes, after t.arrival Config.refusalHoldMs⟩ })

/-- What a request slot holds of a telegram (R80, R81). -/
def State.slotDataOf (s : State) (t : Telegram) (c : ReqCode) (serial : Serial) : SlotData :=
  { serial := serial, tram := wordAt t.bytes 0, places := takenPlaces (byteAt t.bytes 2), runOut := byteAt t.bytes 3, code := c
    road := if c = .road then some (byteAt t.bytes 5, byteAt t.bytes 6) else none
    destCode := if c = .dest then some (byteAt t.bytes 5) else none
    point := t.point, signal := s.entrySignal t.point
    route := if c = .inbound then none else s.matchRoute (s.entrySignal t.point) c t.bytes
    arrival := t.arrival, attempts := 0 }

/-- The request takes the lowest FREE slot and joins its signal's queue; lamp and scan follow (R80). -/
def State.takeSlot (s : State) (t : Telegram) (c : ReqCode) (k : Nat) : State :=
  let serial := s.rq.serial + 1
  let d := s.slotDataOf t c serial
  let s := { s with rq := { s.rq with
    serial := serial, slots := s.rq.slots.set k (.queued d), queues := s.rq.queues.modify d.signal (fun q => q ++ [k]) } }
  s.setLamps.scan

/-- A request that passed conditions 1 to 5: the run-out check (condition 6), then the slot. -/
def State.fileRequest (s : State) (t : Telegram) (c : ReqCode) : State :=
  let road := if c = .outbound then s.mouthRoad t.point else none
  match road with
  | some r =>
    let accepted := s.runOutAccepts r (wordAt t.bytes 0)
    let s := s.runOutMark r (wordAt t.bytes 0)
    if accepted then
      match s.freeSlot with
      | some k => s.takeSlot t c k
      | none => s
    else s.refuse t .blocked
  | none =>
    match s.freeSlot with
    | some k => s.takeSlot t c k
    | none => s

/-- A validated telegram with a code other than CANCEL (R77 to R79). -/
def State.newRequest (c : Option ReqCode) (t : Telegram) (s : State) : State :=
  if s.holdStands t then s
  else if c.any (fun c => s.duplicate t c) then s
  else
    match s.refusalOf t c, c with
    | some d, _ => s.refuse t d
    | none, some c => s.fileRequest t c
    | none, none => s

/-! ## Cancel, lifetime, outcome, isolation (R86 to R89) -/

/-- A cancel is passed to RE and the slot gets its mark (R86, R87). -/
def State.passCancel (s : State) (i : Nat) (d : SlotData) (inst : Nat) (cause : CancelMark) : State :=
  let s := s.setSlot i (.active d inst (some cause))
  { s with re := { s.re with cancels := s.re.cancels ++ [⟨inst, i, d.serial, cause⟩] } }

/-- One slot takes a cancel or the end of its lifetime (R86, R87). -/
def State.withdrawSlot (s : State) (i : Nat) (cause : CancelMark) (code : OutcomeCode) : State :=
  match s.rq.slots[i]? with
  | some (.queued d) => s.endQueued i d code
  | some (.active d inst none) => s.passCancel i d inst cause
  | _ => s

/-- A validated CANCEL telegram (R86); outside RUNNING it is ignored. The slots are taken in rising index: DESIGN CHOICE, R86 gives no
order (log entry 33). -/
def State.takeCancelTelegram (t : Telegram) (s : State) : State :=
  if s.pt.mode = .running then
    forEach (List.range s.rq.slots.length)
      (fun i s =>
        match (s.rq.slots[i]?).bind Slot.data? with
        | some d =>
          if d.point = t.point ∧ d.tram = wordAt t.bytes 0 then s.withdrawSlot i .requested (.cancelled .requested) else s
        | none => s) s
  else s

/-- The lifetime of a slot has ended (R87). -/
def State.lifetimeExpiry (s : State) (i : Nat) : State :=
  match (s.rq.slots[i]?).bind Slot.data? with
  | some d =>
    if reached s.time (after d.arrival Config.lifetimeMs) then s.withdrawSlot i .lifetime .expired else s
  | none => s

/-- RQ takes an outcome of RE (R88). -/
def State.takeOutcome (s : State) (m : OutcomeMsg) : State :=
  let s := match s.rq.slots[m.slot]? with
    | some (.active d inst _) =>
      if d.serial = m.serial ∧ inst = m.inst then
        ((s.setSlot m.slot .free).slotOutcome d m.code).setLamps
      else s
    | _ => s
  s.scan

/-- RQ takes the isolation notice (R89). -/
def State.rqIsolate (s : State) : State :=
  let s := forEach (List.range s.rq.slots.length)
    (fun i s =>
      match (s.rq.slots[i]?).bind Slot.data? with
      | some d => (s.setSlot i .free).slotOutcome d (.cancelled .isolation)
      | none => s) s
  ({ s with rq := { s.rq with queues := s.rq.queues.map (fun _ => []) } }).setLamps

/-- The refusal hold of a point has ended (R79). -/
def State.holdEnd (s : State) (p : Nat) : State :=
  s.modReqPoint p (fun r =>
    match r.hold with
    | some h => if reached s.time h.endTime then { r with hold := none } else r
    | none => r)

/-! ## Lamp notices and the window evaluation of the signals (R34, R36, R37, R82) -/

/-- The lamp-fault notice: the fault mark is set (R82). -/
def State.lampFaultNotice (s : State) (g : Nat) : State :=
  { s with rq := { s.rq with fault := s.rq.fault.set g true } }

/-- The lamp-recovered notice: mark and hold are cleared, and the scan runs (R79, R82). -/
def State.lampRecoveredNotice (s : State) (g : Nat) : State :=
  let s := { s with rq := { s.rq with fault := s.rq.fault.set g false } }
  let s := match (s.yard.signals[g]?).bind (·.reqPoint) with
    | some p => s.modReqPoint p (fun r => { r with hold := none })
    | none => s
  s.scan

/-- SU evaluates one signal, with what it reports (R34, R36, R37). -/
def State.evaluateSignal (r : LampReadings) (g : Nat) (s : State) : State :=
  match s.su.signals[g]? with
  | some rec =>
    let (rec', eff) := rec.evaluate (r.usable g rec)
    let s := s.modSignal g (fun _ => rec')
    match eff with
    | .nothing => s
    | .proved => s.reportToRe (.proved g)
    | .failed left lamp =>
      let s := if left = .proceed then s.reportToRe (.lampFault g) else s
      (s.lampFaultNotice g).reportLampFault g left lamp
    | .recovered => s.lampRecoveredNotice g
  | none => s

/-- SU evaluates the readings of the last window, signal by signal in rising index: DESIGN CHOICE, R36 gives no order for the reports of
signals that change in one window (log entry 33). -/
def State.evaluateSignals (s : State) : State :=
  match s.su.readings with
  | some r =>
    forEach (List.range s.su.signals.length) (State.evaluateSignal r) { s with su := { s.su with readings := none } }
  | none => s

/-! ## The commands -/

/-- SIGNAL_WINDOW_EVALUATION (R34, R36, R37, R82). -/
def execSignalWindowEvaluation (s : State) : Host.Outcome State Fault Refusal :=
  .next s.evaluateSignals

/-- READER_INPUT_BYTE (R75). -/
def execReaderInputByte (p : Nat) (value : Byte) (framed : Bool) (s : State) : Host.Outcome State Fault Refusal :=
  .next (s.readerByte p value framed)

/-- TELEGRAM_GAP_TIMEOUT (R75). -/
def execTelegramGapTimeout (p : Nat) (s : State) : Host.Outcome State Fault Refusal :=
  .next (s.gapPassed p)

/-- IN_REQUEST (R76 to R80). -/
def execInRequest (p : Nat) (s : State) : Host.Outcome State Fault Refusal :=
  .next (s.withTelegram p (.request .inbound) (State.newRequest (some .inbound)))

/-- OUT_REQUEST (R76 to R80, R157). -/
def execOutRequest (p : Nat) (s : State) : Host.Outcome State Fault Refusal :=
  .next (s.withTelegram p (.request .outbound) (State.newRequest (some .outbound)))

/-- ROAD_REQUEST (R76 to R80). -/
def execRoadRequest (p : Nat) (s : State) : Host.Outcome State Fault Refusal :=
  .next (s.withTelegram p (.request .road) (State.newRequest (some .road)))

/-- DEST_REQUEST (R76 to R80). -/
def execDestRequest (p : Nat) (s : State) : Host.Outcome State Fault Refusal :=
  .next (s.withTelegram p (.request .dest) (State.newRequest (some .dest)))

/-- CANCEL (R86). -/
def execCancel (p : Nat) (s : State) : Host.Outcome State Fault Refusal :=
  .next (s.withTelegram p .cancel State.takeCancelTelegram)

/-- UNKNOWN_CODE_TELEGRAM (R76, R78, R79). -/
def execUnknownCodeTelegram (p : Nat) (s : State) : Host.Outcome State Fault Refusal :=
  .next (s.withTelegram p .unknown (State.newRequest none))

/-- REFUSAL_HOLD_EXPIRY (R79). -/
def execRefusalHoldExpiry (p : Nat) (s : State) : Host.Outcome State Fault Refusal :=
  .next (s.holdEnd p)

/-- SLOT_LIFETIME_EXPIRY (R87). -/
def execSlotLifetimeExpiry (i : Nat) (s : State) : Host.Outcome State Fault Refusal :=
  .next (s.lifetimeExpiry i)

/-- OUTCOME (R88). -/
def execOutcome (s : State) : Host.Outcome State Fault Refusal :=
  match s.rq.outcomes with
  | m :: rest => .next ({ s with rq := { s.rq with outcomes := rest } }.takeOutcome m)
  | [] => .next s

/-- RQ_ISOLATION (R89). -/
def execRqIsolation (s : State) : Host.Outcome State Fault Refusal :=
  if s.rq.isolated then .next ({ s with rq := { s.rq with isolated := false } }.rqIsolate) else .next s

end Sys2Proof.Machine
end

