-- ==== Sys2Proof/Machine/Deliveries.lean ====
section
/-! DEFINITION. Commands in which CT, RE and YU take what reaches them: messages, each as a frame from the frame handler (R50) or as a
handover inside the node (R103, R123 to R126), CT's notices and reports (R105, R107, R108, R114, R116 to R118) and CT's timers (R106,
R112, R115). -/

namespace Sys2Proof.Machine

/-! ## Handovers: the oldest is taken, where it is of the command's kind (log entry 4) -/

/-- CT takes the oldest handover of its own RE where `p` accepts it. -/
def State.withCtHandover (s : State) (p : CtMsg → Bool) : State :=
  match s.ct.fromRe with
  | m :: rest => if p m then ({ s with ct := { s.ct with fromRe := rest } }).ctTakes m else s
  | [] => s

/-- RE takes the oldest handover of its own CT where it is of kind `k`. -/
def State.withReHandover (s : State) (k : Kind) : State :=
  match s.re.fromCt with
  | m :: rest =>
    if m.kind = k then ({ s with re := { s.re with fromCt := rest } }).takeReply m none else s
  | [] => s

/-- YU takes the oldest handover of its own RE where `p` accepts it. -/
def State.withYuHandover (s : State) (p : YuMsg → Bool) : State :=
  match s.yu.fromRe with
  | m :: rest => if p m then ({ s with yu := { s.yu with fromRe := rest } }).yuTakes m else s
  | [] => s

/-- RE takes the oldest handover of its own YU where it is a bid. -/
def State.withBidHandover (s : State) : State :=
  match s.re.fromYu with
  | .bid call road score :: rest => ({ s with re := { s.re with fromYu := rest } }).takeBid call road score none
  | _ => s

/-- RE takes the oldest handover of its own YU where it is a road change. -/
def State.withChangeHandover (s : State) : State :=
  match s.re.fromYu with
  | .roadChange _ :: rest => ({ s with re := { s.re with fromYu := rest } }).takeRoadChange
  | _ => s

/-! ## Frames to CT -/

/-- A CLAIM frame (R96). -/
def claimFrame (f : RxFrame) (s : State) : State :=
  s.evaluateClaim (decClaim f.payload) (some f.rx)

/-- A SET frame: from the owner that its key names (R104). -/
def setFrame (f : RxFrame) (s : State) : State :=
  let key := decKey f.payload
  if f.rx.source = key.owner then s.takeSet key else s

/-- A RELEASE frame: from the owner that its key names (R113). -/
def releaseFrame (f : RxFrame) (s : State) : State :=
  let key := decKey f.payload
  if f.rx.source = key.owner then s.takeRelease key else s

/-! ## Frames to RE -/

/-- The reply that a frame's payload carries. A DENY reason that is not defined is like any other but NO_AWARD and NO_ROOM (R129); the
causes of SET-FAIL and CLAIM-LOST are not read, because RE acts on none of them (R130, R136). -/
def decReply (f : RxFrame) : Option ReMsg :=
  let l := f.payload
  let key := decKey l
  match f.kind with
  | .grant => some (.grant key (byteAt l 7))
  | .deny => some (.deny key ((DenyReason.ofCode (byteAt l 7)).getD .held) (byteAt l 8) (decAbsent (byteAt l 9)))
  | .setDone => some (.setDone key f.rx.arrival)
  | .setFail => some (.setFail key (decAbsent (byteAt l 7)) ((SetFailCause.ofCode (byteAt l 8)).getD .fault))
  | .passed => some (.passed key (byteAt l 7))
  | .claimLost => some (.claimLost key ((LostCause.ofCode (byteAt l 7)).getD .pointLost) (decAbsent (byteAt l 8)))
  | _ => none

/-- An answer of an owner, as a frame (R129, R130, R133, R136, R140). -/
def replyFrame (f : RxFrame) (s : State) : State :=
  match decReply f with
  | some m => s.takeReply m (some f.rx)
  | none => s

/-- A BID frame (R124). -/
def bidFrame (f : RxFrame) (s : State) : State :=
  s.takeBid (decCall f.payload 0) (byteAt f.payload 2) (wordAt f.payload 3) (some f.rx)

/-- A ROAD-CHANGE frame, from any source (R125). -/
def roadChangeFrame (_ : RxFrame) (s : State) : State :=
  s.takeRoadChange

/-! ## Frames to YU -/

/-- A BID-CALL frame (R147). -/
def bidCallFrame (f : RxFrame) (s : State) : State :=
  let call := decCall f.payload 0
  if s.pt.mode = .running ∧ callerTrusted f.rx call = true then s.takeBidCall call f.rx.epoch (decTram f.payload 2) else s

/-- An AWARD frame (R151). -/
def awardFrame (f : RxFrame) (s : State) : State :=
  let call := decCall f.payload 0
  if s.pt.mode = .running ∧ callerTrusted f.rx call = true then
    s.takeAward call f.rx.epoch (byteAt f.payload 2) (decTram f.payload 3) (byteAt f.payload 7 % 2 = 1)
  else s.ignoreAward

/-- An AWARD-WITHDRAW frame: from the caller with EPOCH_MATCH, whatever its PEER_STATE (R153). -/
def withdrawFrame (f : RxFrame) (s : State) : State :=
  let call := decCall f.payload 0
  if f.rx.source = call.caller ∧ f.rx.epochMatch = true then s.takeWithdraw call f.rx.epoch else s

/-! ## Commands: claim traffic -/

/-- CLAIM (R96). -/
def execClaim (v : Via) (s : State) : Host.Outcome State Fault Refusal :=
  match v with
  | .frame => .next (s.withFrame .claim claimFrame)
  | .handover => .next (s.withCtHandover (fun m => match m with | .claim _ => true | .set _ | .release _ => false))

/-- SET (R104). -/
def execSet (v : Via) (s : State) : Host.Outcome State Fault Refusal :=
  match v with
  | .frame => .next (s.withFrame .set setFrame)
  | .handover => .next (s.withCtHandover (fun m => match m with | .set _ => true | .claim _ | .release _ => false))

/-- RELEASE (R113). -/
def execRelease (v : Via) (s : State) : Host.Outcome State Fault Refusal :=
  match v with
  | .frame => .next (s.withFrame .release releaseFrame)
  | .handover => .next (s.withCtHandover (fun m => match m with | .release _ => true | .claim _ | .set _ => false))

/-- An answer of an owner reaches RE as a frame or as a handover of the own CT. -/
def State.deliverReply (s : State) (v : Via) (k : Kind) : State :=
  match v with
  | .frame => s.withFrame k replyFrame
  | .handover => s.withReHandover k

/-- GRANT (R129, R140). -/
def execGrant (v : Via) (s : State) : Host.Outcome State Fault Refusal :=
  .next (s.deliverReply v .grant)

/-- DENY (R129, R140). -/
def execDeny (v : Via) (s : State) : Host.Outcome State Fault Refusal :=
  .next (s.deliverReply v .deny)

/-- SET_DONE (R130, R140). -/
def execSetDone (v : Via) (s : State) : Host.Outcome State Fault Refusal :=
  .next (s.deliverReply v .setDone)

/-- SET_FAIL (R130, R140). -/
def execSetFail (v : Via) (s : State) : Host.Outcome State Fault Refusal :=
  .next (s.deliverReply v .setFail)

/-- CLAIM_LOST (R129 to R132, R136, R140). -/
def execClaimLost (v : Via) (s : State) : Host.Outcome State Fault Refusal :=
  .next (s.deliverReply v .claimLost)

/-- PASSED (R132, R133, R136, R140). -/
def execPassed (v : Via) (s : State) : Host.Outcome State Fault Refusal :=
  .next (s.deliverReply v .passed)

/-! ## Commands: stabling traffic -/

/-- BID_CALL (R147 to R149). -/
def execBidCall (v : Via) (s : State) : Host.Outcome State Fault Refusal :=
  match v with
  | .frame => .next (s.withFrame .bidCall bidCallFrame)
  | .handover => .next (s.withYuHandover (fun m => match m with | .bidCall _ _ => true | .award _ _ _ _ | .withdraw _ => false))

/-- BID (R124). -/
def execBid (v : Via) (s : State) : Host.Outcome State Fault Refusal :=
  match v with
  | .frame => .next (s.withFrame .bid bidFrame)
  | .handover => .next s.withBidHandover

/-- AWARD (R151). -/
def execAward (v : Via) (s : State) : Host.Outcome State Fault Refusal :=
  match v with
  | .frame => .next (s.withFrame .award awardFrame)
  | .handover => .next (s.withYuHandover (fun m => match m with | .award _ _ _ _ => true | .bidCall _ _ | .withdraw _ => false))

/-- AWARD_WITHDRAW (R153). -/
def execAwardWithdraw (v : Via) (s : State) : Host.Outcome State Fault Refusal :=
  match v with
  | .frame => .next (s.withFrame .awardWithdraw withdrawFrame)
  | .handover => .next (s.withYuHandover (fun m => match m with | .withdraw _ => true | .bidCall _ _ | .award _ _ _ _ => false))

/-- ROAD_CHANGE (R125). -/
def execRoadChange (v : Via) (s : State) : Host.Outcome State Fault Refusal :=
  match v with
  | .frame => .next (s.withFrame .roadChange roadChangeFrame)
  | .handover => .next s.withChangeHandover

/-! ## Commands: notices and reports to CT -/

/-- CT_SECTION_CHANGE (R108 to R110, R115). -/
def execCtSectionChange (k : Nat) (s : State) : Host.Outcome State Fault Refusal :=
  match takeFirst (fun n => n.sect == k) s.ct.notices with
  | some (n, rest) => .next ({ s with ct := { s.ct with notices := rest } }.ctNotice n)
  | none => .next s

/-- CT_UNUSABLE (R114). -/
def execCtUnusable (k : Nat) (s : State) : Host.Outcome State Fault Refusal :=
  match takeFirst (fun n => n.peer == k) s.ct.peerNotices with
  | some (.unusable _ e, rest) => .next ({ s with ct := { s.ct with peerNotices := rest } }.ctLost k e)
  | _ => .next s

/-- CT_USABLE (R116). -/
def execCtUsable (k : Nat) (s : State) : Host.Outcome State Fault Refusal :=
  match takeFirst (fun n => n.peer == k) s.ct.peerNotices with
  | some (.usable _ e, rest) => .next ({ s with ct := { s.ct with peerNotices := rest } }.ctReturned k e)
  | _ => .next s

/-- CT_EPOCH_CHANGE (R117). -/
def execCtEpochChange (k : Nat) (s : State) : Host.Outcome State Fault Refusal :=
  match takeFirst (fun n => n.peer == k) s.ct.peerNotices with
  | some (.epochChange _ old _, rest) => .next ({ s with ct := { s.ct with peerNotices := rest } }.ctRestarted k old)
  | _ => .next s

/-- CT_ISOLATION (R118). -/
def execCtIsolation (s : State) : Host.Outcome State Fault Refusal :=
  if s.ct.isolated then .next ({ s with ct := { s.ct with isolated := false } }.ctIsolate) else .next s

/-- MOVE_DONE (R105): CT takes PU's oldest report about the point, where it is a MOVE_DONE. -/
def execMoveDone (p : Nat) (s : State) : Host.Outcome State Fault Refusal :=
  match takeFirst (fun r => r.point == p) s.ct.reports with
  | some (.moveDone _, rest) => .next ({ s with ct := { s.ct with reports := rest } }.ctMoveDone p)
  | _ => .next s

/-- MOVE_FAIL (R105). -/
def execMoveFail (p : Nat) (s : State) : Host.Outcome State Fault Refusal :=
  match takeFirst (fun r => r.point == p) s.ct.reports with
  | some (.moveFail _ cause, rest) => .next ({ s with ct := { s.ct with reports := rest } }.ctMoveFail p cause)
  | _ => .next s

/-- DETECTION_LOST (R107). -/
def execDetectionLost (p : Nat) (s : State) : Host.Outcome State Fault Refusal :=
  match takeFirst (fun r => r.point == p) s.ct.reports with
  | some (.detectionLost _, rest) => .next ({ s with ct := { s.ct with reports := rest } }.ctDetectionLost p)
  | _ => .next s

/-! ## Commands: the timers of claim records -/

/-- RESERVED_TIMER_EXPIRY (R106). -/
def execReservedTimerExpiry (id : Nat) (s : State) : Host.Outcome State Fault Refusal :=
  .next (s.reservedExpiry id)

/-- SET_TIMER_EXPIRY (R112). -/
def execSetTimerExpiry (id : Nat) (s : State) : Host.Outcome State Fault Refusal :=
  .next (s.setExpiry id)

/-- ORPHAN_CLEAR_EXPIRY (R115). -/
def execOrphanClearExpiry (id i : Nat) (s : State) : Host.Outcome State Fault Refusal :=
  .next (s.orphanExpiry id i)

end Sys2Proof.Machine
end

