-- ==== Sys2Proof/Machine/Peers.lean ====
section
/-! DEFINITION. The Peer Table: peer records (R62, R63), supervision (R64), epoch changes (R65), the heard map (R66, R67), usability and
its notices (R68, R69), lock reports (R70), duplicate node IDs and ISOLATED (R71, R72), and the listen timer (R59). -/

namespace Sys2Proof.Machine

/-! ## Usability (R68) -/

/-- A record after a change of usability: notice owed is set by UNUSABLE and cleared by the return (R68). -/
def PeerRec.settle (before new : PeerRec) : PeerRec :=
  if before.usable = new.usable then new else { new with owed := before.usable }

/-- The notice that a change of usability gives (R68). -/
def PeerRec.notice (k : Nat) (before new : PeerRec) : Option PeerNotice :=
  match before.usable, new.usable, new.epoch with
  | true, false, some e => some (.unusable k e)
  | false, true, some e => if new.owed then some (.usable k e) else none
  | _, _, _ => none

/-- Puts a new record in place of `before`, with the notice of R68. -/
def State.changePeer (s : State) (k : Nat) (before new : PeerRec) : State :=
  let s := s.modPeer k (fun _ => before.settle new)
  match PeerRec.notice k before new with
  | some n => s.givePeerNotice n
  | none => s

/-! ## Epoch changes (R65) -/

/-- The record of a peer under a new epoch. -/
def PeerRec.restarted (p : PeerRec) (epoch : Epoch) : PeerRec :=
  { p with
    state := .joining, epoch := some epoch, lastState := none, mode := none, lockMap := none, missRun := 0
    notHearing := false, owed := false, epochChanges := bump p.epochChanges }

/-- A frame of peer `k` under `epoch` has been accepted (R65). -/
def State.noteEpoch (s : State) (k : Nat) (epoch : Epoch) : State :=
  match s.peer? k with
  | some p =>
    match p.state, p.epoch with
    | .unknown, _ => s
    | _, some old =>
      if old = epoch then s
      else (s.modPeer k (fun p => p.restarted epoch)).givePeerNotice (.epochChange k old epoch)
    | _, none => s
  | none => s

/-! ## ANNOUNCE and STATE (R63, R67) -/

/-- The record as R63 first compares it with a frame: an UNKNOWN one takes the frame's epoch and enters JOINING. -/
def PeerRec.meet (p : PeerRec) (epoch : Epoch) : PeerRec :=
  if p.state = .unknown then { p with state := .joining, epoch := some epoch } else p

/-- The state that a STATE frame taken further leaves (R63). -/
def PeerRec.nextState (p : PeerRec) (arrival : Time) : PeerState :=
  match p.state with
  | .joining =>
    match p.lastState with
    | some t => if since arrival t ≤ Config.inStepMs then .inStep else .joining
    | none => .joining
  | .unknown => .joining
  | .inStep | .silent | .lost => .inStep

/-- The reset cause of a bit (R179). -/
def ResetCause.ofBit (b : Nat) : ResetCause :=
  if b % 2 = 0 then .powerOn else .pin

/-- What a STATE frame taken further sets (R63, R182). -/
def PeerRec.takeState (p : PeerRec) (l : List Byte) (arrival : Time) : PeerRec :=
  { p with
    state := p.nextState arrival, lastState := some arrival
    mode := match PeerMode.ofCode (byteAt l 0 % 8) with | some m => some m | none => p.mode
    cause := some (ResetCause.ofBit (byteAt l 0 / 16)), lockMap := some (decLockMap l) }

/-- The examination of the own place in the heard map (R67). -/
def PeerRec.hear (p : PeerRec) (shown : Bool) : PeerRec :=
  if p.state = .inStep then
    if shown then { p with missRun := 0, notHearing := false }
    else { p with missRun := min (p.missRun + 1) 2, notHearing := p.notHearing || decide (2 ≤ p.missRun + 1) }
  else p

/-- PT handles a STATE frame (R63, R67, R68, R70). -/
def takeStateFrame (f : RxFrame) (s : State) : State :=
  match s.peer? f.rx.source with
  | some p =>
    let met := p.meet f.rx.epoch
    if met.epoch = some f.rx.epoch then
      let new := (met.takeState f.payload f.rx.arrival).hear (heardBit f.payload s.pt.node)
      (s.changePeer f.rx.source p new).takeLockReport f.rx.source f.rx.epoch f.rx.arrival (decLockMap f.payload)
    else s
  | none => s

/-- PT handles an ANNOUNCE frame (R63). -/
def takeAnnounce (f : RxFrame) (s : State) : State :=
  match s.peer? f.rx.source with
  | some p =>
    let met := p.meet f.rx.epoch
    if met.epoch = some f.rx.epoch then
      s.modPeer f.rx.source (fun _ => { met with cause := some (ResetCause.ofBit (byteAt f.payload 0)) })
    else s
  | none => s

/-! ## Supervision (R64) -/

/-- ms since the last STATE time of a record. -/
def PeerRec.silence (p : PeerRec) (now : Time) : Nat :=
  match p.lastState with
  | some t => since now t
  | none => 0

/-- 500 ms since the last STATE time (R64). -/
def State.peerSilence (s : State) (k : Nat) : State :=
  match s.peer? k with
  | some p =>
    if p.state = .inStep ∧ Config.silentMs ≤ p.silence s.time then s.changePeer k p { p with state := .silent } else s
  | none => s

/-- 1000 ms since the last STATE time (R64). -/
def State.peerLoss (s : State) (k : Nat) : State :=
  match s.peer? k with
  | some p =>
    match p.epoch, p.lastState with
    | some e, some t =>
      if p.state = .silent ∧ Config.lostMs ≤ p.silence s.time then
        let losses := bump p.losses
        (s.changePeer k p { p with state := .lost, losses := losses }).reportPeerLost k e t losses
      else s
    | _, _ => s
  | none => s

/-! ## Duplicate node IDs and ISOLATED (R71, R72) -/

/-- STOP is commanded to every configured signal (R72). -/
def State.stopAll (s : State) : State :=
  forEach (List.range s.yard.signals.length) (fun g s => s.commandSu (.stop g)) s

/-- The isolation notices to CT, RE, RQ and YU (R72). -/
def State.giveIsolation (s : State) : State :=
  { s with
    ct := { s.ct with isolated := true }, re := { s.re with isolated := true }
    rq := { s.rq with isolated := true }, yu := { s.yu with isolated := true } }

/-- Entry into ISOLATED because of a frame under `epoch` (R72). -/
def State.enterIsolated (s : State) (epoch : Epoch) : State :=
  let left := s.pt.mode
  let s := { s with pt := { s.pt with mode := .isolated, listen := none } }
  s.stopAll.giveIsolation.reportIsolated s.pt.epoch epoch left

/-- PT examines the receive record of a frame with the node's own source (R71). -/
def State.examineOwn (s : State) (r : RxRec) : State :=
  if r.epochMatch then s.count (fun c => { c with ownIdSameEpoch := bump c.ownIdSameEpoch })
  else
    let s := s.count (fun c => { c with duplicateId := bump c.duplicateId })
    match s.pt.mode with
    | .joining | .running => s.enterIsolated r.epoch
    | .start | .configFault | .isolated => s

/-! ## The listen timer (R59) -/

/-- An ANNOUNCE is offered to the transmit queue (R59). -/
def State.offerAnnounce (s : State) : State :=
  ({ s with pt := { s.pt with announces := s.pt.announces + 1 } }).send .announce broadcast [byte s.pt.cause.code]

/-- Road `r` is KNOWN with at least one free place (R154). -/
def State.hasRoom (s : State) (r : Nat) : Bool :=
  match s.yard.roads[r]?, s.yu.roads[r]? with
  | some c, some rec => rec.cond == .known && decide (1 ≤ rec.freePlaces c.capacity)
  | _, _ => false

/-- Entry into RUNNING: refusal holds cleared, the clamp list to RP, ROAD-CHANGE for the roads with room (R59, R79, R154, R174), in rising
road index: DESIGN CHOICE (log entry 33). -/
def State.enterRunning (s : State) : State :=
  let s := { s with
    pt := { s.pt with mode := .running, listen := none }
    rq := { s.rq with points := s.rq.points.map (fun r => { r with hold := none }) } }
  let s := forEach s.mi.clamps (fun c s => s.reportClamp c) s
  forEach (List.range s.yu.roads.length) (fun r s => if s.hasRoom r then s.sendRoadChange r else s) s

/-- The listen timer reaches 250, 500 or 1000 ms (R59). -/
def State.listenMark (s : State) : State :=
  match s.pt.mode, s.pt.listen with
  | .joining, some t =>
    if s.pt.announces < 3 then
      if s.pt.announces * Config.stateMs ≤ t.elapsed then s.offerAnnounce else s
    else if Config.listenMs ≤ t.elapsed then s.enterRunning
    else s
  | _, _ => s

/-! ## Commands -/

/-- ANNOUNCE (R63). -/
def execAnnounce (s : State) : Host.Outcome State Fault Refusal :=
  .next (s.withFrame .announce takeAnnounce)

/-- STATE (R63, R67, R68, R70, R134). -/
def execState (s : State) : Host.Outcome State Fault Refusal :=
  .next (s.withFrame .state takeStateFrame)

/-- OWN_SOURCE_FRAME (R71, R72). -/
def execOwnSourceFrame (s : State) : Host.Outcome State Fault Refusal :=
  match s.fs.ownFrames with
  | r :: rest => .next (({ s with fs := { s.fs with ownFrames := rest } }.examineOwn r).giveBuffer)
  | [] => .next s

/-- LISTEN_TIMER (R59). -/
def execListenTimer (s : State) : Host.Outcome State Fault Refusal :=
  .next s.listenMark

/-- PEER_SILENT (R64). -/
def execPeerSilent (k : Nat) (s : State) : Host.Outcome State Fault Refusal :=
  .next (s.peerSilence k)

/-- PEER_LOST (R64). -/
def execPeerLost (k : Nat) (s : State) : Host.Outcome State Fault Refusal :=
  .next (s.peerLoss k)

end Sys2Proof.Machine
end

