-- ==== Sys2Proof/Machine/Line.lean ====
section
/-! DEFINITION. LI: receive synchronisation (R41), line quality (R42), frame assembly and discards (R43), the checks at the end
delimiter (R44, R45), transmission (R53) and access to the line (R54). -/

namespace Sys2Proof.Machine

/-! ## Code words and running disparity (R40) -/

/-- The other disparity. -/
def otherDisparity : Disparity → Disparity
  | .negative => .positive
  | .positive => .negative

/-- The running disparity after a group heard at running disparity `rd`: more ones leave it positive, more zeros negative, as many of
each leave it as it was (log entry 34). -/
def disparityAfter (rd : Disparity) (g : LineGroup) : Disparity :=
  match g.balance with
  | .ones => .positive
  | .zeros => .negative
  | .even => rd

/-- The symbol that a receiver reads from a group at running disparity `rd`; none is a code violation: no code word of any symbol, or the
code word of the opposite disparity (R40). -/
def groupSymbol (rd : Disparity) (g : LineGroup) : Option LineSymbol :=
  match g.code with
  | .word x r => if r = rd then some x else none
  | .invalid => none

/-- What a receiver reads from groups heard one after the other, from running disparity `rd` on (R40). -/
def readGroups (rd : Disparity) : List LineGroup → List (Option LineSymbol)
  | [] => []
  | g :: gs => groupSymbol rd g :: readGroups (disparityAfter rd g) gs

/-- The code words of symbols sent one after the other, from running disparity `rd` on (R40). -/
def codeWords (rd : Disparity) : List LineSymbol → List CodeWord
  | [] => []
  | x :: xs => ⟨x, rd⟩ :: codeWords (if Config.wordTurns x rd then otherDisparity rd else rd) xs

/-- The symbols of a burst: two commas, the start delimiter, one data symbol for each byte, the end delimiter (R40). -/
def burstSymbols (frame : List Byte) : List LineSymbol :=
  .comma :: .comma :: .startDelim :: frame.map .data ++ [.endDelim]

/-- The burst of a frame: a transmitter begins with negative running disparity (R40). -/
def burst (frame : List Byte) : List CodeWord :=
  codeWords .negative (burstSymbols frame)

/-! ## Line quality (R42) -/

/-- A symbol decoded in CHECK or IN_STEP is counted; the 1024th closes the window. -/
def LI.countSymbol (li : LI) (violation : Bool) : LI :=
  let v := li.violCount + (if violation then 1 else 0)
  if li.symCount + 1 ≥ 1024 then { li with symCount := 0, violCount := 0, linePoor := linePoorOf v }
  else { li with symCount := li.symCount + 1, violCount := v }

/-! ## Assembly and discards (R43, R47) -/

/-- Causes of a discard (R43 to R45). -/
inductive Discard where
  | code
  | undersize
  | oversize
  | crc
  | length
  | unknownKind
deriving DecidableEq, Repr

/-- The discard counter of a cause advances. -/
def Discard.count (d : Discard) (c : Counters) : Counters :=
  match d with
  | .code => { c with code := bump c.code }
  | .undersize => { c with undersize := bump c.undersize }
  | .oversize => { c with oversize := bump c.oversize }
  | .crc => { c with crc := bump c.crc }
  | .length => { c with length := bump c.length }
  | .unknownKind => { c with unknownKind := bump c.unknownKind }

/-- A frame in assembly is discarded: counter and buffer (R43, R47). -/
def State.discard (s : State) (d : Discard) : State :=
  (({ s with li := { s.li with asm := none } }).count d.count).giveBuffer

/-- A frame in assembly, if there is one, is discarded with cause CODE. -/
def State.abandon (s : State) : State :=
  if s.li.asm.isSome then s.discard .code else s

/-- A start delimiter asks for a buffer (R43, R47). -/
def State.beginFrame (s : State) : State :=
  if s.fs.free = 0 then
    let first := s.fs.lastStart != some false
    ({ s with fs := { s.fs with lastStart := some false } }).count (fun c =>
      { c with noBuffer := bump c.noBuffer, noBufferBursts := if first then bump c.noBufferBursts else c.noBufferBursts })
  else
    ({ s with
      fs := { s.fs with lastStart := some true }
      li := { s.li with asm := some ⟨[], false⟩ } }).takeBuffer

/-- A data symbol adds its byte; the 58th discards the frame (R43). -/
def State.addByte (s : State) (b : Byte) : State :=
  match s.li.asm with
  | some a =>
    if a.bytes.length + 1 ≥ 58 then s.discard (if a.damaged then .code else .oversize)
    else { s with li := { s.li with asm := some { a with bytes := a.bytes ++ [b] } } }
  | none => s

/-! ## The checks at the end delimiter (R44, R45) -/

/-- The first check of R44 that fails. -/
def Assembly.fault (a : Assembly) : Option Discard :=
  let n := a.bytes.length
  if a.damaged then some .code
  else if n < 9 then some .undersize
  else if (crc16 (a.bytes.take (n - 2))).toNat ≠ wordAt a.bytes (n - 2) then some .crc
  else if 48 < byteAt a.bytes 6 ∨ byteAt a.bytes 6 ≠ n - 9 then some .length
  else none

/-- Source field of a frame. -/
def frameSource (l : List Byte) : Nat := byteAt l 2 % 64
/-- Destination field of a frame. -/
def frameDest (l : List Byte) : Nat := byteAt l 1 % 64
/-- Level field of a frame. -/
def frameLevel (l : List Byte) : Nat := byteAt l 1 / 64
/-- Source epoch field of a frame. -/
def frameEpoch (l : List Byte) : Epoch := BitVec.ofNat 16 (wordAt l 3)
/-- Payload of a sound frame. -/
def framePayload (l : List Byte) : List Byte := (l.drop 7).take (byteAt l 6)

/-- A frame is accepted: level check, receive record, inbox, and the epoch of its source (R45, R46, R49, R65). -/
def State.accept (s : State) (l : List Byte) (k : Kind) : State :=
  let s := { s with li := { s.li with asm := none } }
  let s := if frameLevel l = k.level then s else s.count (fun c => { c with levelMismatch := bump c.levelMismatch })
  (s.fileFrame ⟨k, s.rxRecord (frameSource l) (frameEpoch l), framePayload l⟩).noteEpoch (frameSource l) (frameEpoch l)

/-- A sound frame is examined for its addressing, kind and size (R45). -/
def State.examine (s : State) (l : List Byte) : State :=
  if frameSource l = s.pt.node then
    { s with
      li := { s.li with asm := none }
      fs := { s.fs with ownFrames := s.fs.ownFrames ++ [s.rxRecord (frameSource l) (frameEpoch l)] } }
  else if frameDest l ≠ s.pt.node ∧ frameDest l ≠ broadcast then ({ s with li := { s.li with asm := none } }).giveBuffer
  else
    match Kind.ofCode (byteAt l 0) with
    | none => s.discard .unknownKind
    | some k => if (framePayload l).length < k.minPayload (framePayload l) then s.discard .length else s.accept l k

/-- The end delimiter of a frame in assembly (R44, R45). -/
def State.endFrame (s : State) : State :=
  match s.li.asm with
  | some a =>
    match a.fault with
    | some d => s.discard d
    | none => s.examine a.bytes
  | none => s

/-! ## Synchronisation (R41) -/

/-- What frame assembly does with a valid symbol in IN_STEP (R43). -/
def State.useSymbol (s : State) (x : LineSymbol) : State :=
  match x with
  | .comma => s.abandon
  | .startDelim => s.abandon.beginFrame
  | .endDelim => s.endFrame
  | .data b => s.addByte b

/-- A code violation in IN_STEP: the third loses synchronisation; an earlier one marks a frame in assembly damaged (R41, R43). -/
def State.violate (s : State) : State :=
  if s.li.violRun + 1 ≥ 3 then ({ s with li := { s.li with sync := .hunt, violRun := 0 } }).abandon
  else
    { s with li := { s.li with
      violRun := s.li.violRun + 1, asm := s.li.asm.map (fun a => { a with damaged := true }) } }

/-- A receiver in HUNT takes alignment and running disparity from a comma, whichever of its code words it is (R41). -/
def LI.hunt (li : LI) (g : LineGroup) : LI :=
  match g.code with
  | .word .comma rd => { li with sync := .check, align := g.align, disparity := disparityAfter rd g }
  | _ => li

/-- A group decoded in CHECK or IN_STEP is counted, and the running disparity follows it (R40, R42). -/
def LI.takeGroup (li : LI) (g : LineGroup) : LI :=
  { li.countSymbol (groupSymbol li.disparity g).isNone with disparity := disparityAfter li.disparity g }

/-- What is read in CHECK (R41): none is a code violation. -/
def State.inCheck (s : State) (x : Option LineSymbol) : State :=
  match x with
  | some .startDelim => ({ s with li := { s.li with sync := .inStep, violRun := 0 } }).beginFrame
  | none => { s with li := { s.li with sync := .hunt } }
  | some .comma | some (.data _) | some .endDelim => s

/-- What is read in IN_STEP (R41). -/
def State.inStep (s : State) (x : Option LineSymbol) : State :=
  match x with
  | none => s.violate
  | some x => ({ s with li := { s.li with violRun := 0 } }).useSymbol x

/-- The receiver meets one group of the line, by its synchronisation state (R41). Once it has an alignment, a group that stands at another
is none of the groups it decodes (log entry 34). -/
def State.decode (s : State) (g : LineGroup) : State :=
  match s.li.sync with
  | .hunt => { s with li := s.li.hunt g }
  | .check =>
    if g.align = s.li.align then ({ s with li := s.li.takeGroup g }).inCheck (groupSymbol s.li.disparity g) else s
  | .inStep =>
    if g.align = s.li.align then ({ s with li := s.li.takeGroup g }).inStep (groupSymbol s.li.disparity g) else s

/-- LI receives: the bus is on and LI does not transmit (R40, R57). -/
def State.receives (s : State) : Bool :=
  s.pt.mode.active && s.li.sending.isNone

/-- A group arrives on the line: a station that contends has lost its round (R54), and the receiver takes the group. -/
def State.hearGroup (s : State) (g : LineGroup) : State :=
  if s.receives then ({ s with li := { s.li with access := .waiting } }).decode g else s

/-- Groups arrive on the line, one after the other. -/
def State.hear (s : State) (l : List LineGroup) : State :=
  forEach l (fun g s => s.hearGroup g) s

/-! ## Access to the line (R53, R54) -/

/-- The access rank of a frame of this node (R54). -/
def accessRank (node : Nat) (f : TxFrame) : Nat :=
  64 * f.kind.level + node

/-- The frame that a station contends with: the first in queue order that is not deferred, with its rank (R54). -/
def State.candidate (s : State) : Option Candidate :=
  (s.fs.queue.find? (fun f => !f.deferred)).map (fun f => ⟨f.age, accessRank s.pt.node f⟩)

/-- An idle point: a round begins (R54). -/
def State.idlePoint (s : State) : State :=
  { s with li := { s.li with access := .round s.candidate } }

/-- The line has become quiet (R41, R54): HUNT, a frame in assembly discarded, and the idle point of the burst heard. -/
def State.lineQuiet (s : State) : State :=
  if s.receives then
    let s := ({ s with li := { s.li with sync := .hunt, violRun := 0 } }).abandon
    if s.li.access = .waiting then s.idlePoint else s
  else s

/-- The bytes of a frame as sent: header, payload and CRC-16 (R53, R179). -/
def frameBytes (node : Nat) (epoch : Epoch) (seq : Byte) (f : TxFrame) : List Byte :=
  let body := byte f.kind.code :: byte (64 * f.kind.level + f.dest) :: byte node :: bytes2 epoch.toNat
    ++ [seq, byte f.payload.length] ++ f.payload
  body ++ bytes2 (crc16 body).toNat

/-- A frame goes into transmission: it leaves the queue, takes the next sequence number, and its burst begins (R53). -/
def State.sendFrame (s : State) (f : TxFrame) (rest : List TxFrame) : State :=
  { s with
    fs := { s.fs with queue := rest }
    li := { s.li with
      access := .waiting, sending := some (burst (frameBytes s.pt.node s.pt.epoch s.li.seq f)), seq := s.li.seq + 1 } }

/-- Access step `step` comes with the line quiet: where it is the rank of the frame the station contends with, the station starts
(R54). -/
def State.startSending (s : State) (step : Nat) : State :=
  match s.li.access, s.receives with
  | .round (some c), true =>
    if step = c.rank then
      match takeFirst (fun f : TxFrame => f.age == c.age) s.fs.queue with
      | some (f, rest) => s.sendFrame f rest
      | none => s
    else s
  | _, _ => s

/-! ## Commands -/

/-- START_DELIMITER (R41, R43, R47, R48). -/
def execStartDelimiter (s : State) (align : Fin 10) (rd : Disparity) (balance : Balance) :
    Host.Outcome State Fault Refusal :=
  .next (s.hearGroup ⟨align, .word .startDelim rd, balance⟩)

/-- COMMA_RECEIVED (R41, R43). -/
def execCommaReceived (s : State) (align : Fin 10) (rd : Disparity) (balance : Balance) :
    Host.Outcome State Fault Refusal :=
  .next (s.hearGroup ⟨align, .word .comma rd, balance⟩)

/-- OVERSIZE_DISCARD (R43): the groups that carry a frame in assembly to its 58th byte. -/
def execOversizeDiscard (l : List LineGroup) (s : State) : Host.Outcome State Fault Refusal :=
  .next (s.hear l)

/-- LOSS_OF_SYNC (R41, R43, R54): the groups up to a third violation, or up to the quiet line. -/
def execLossOfSync (l : List LineGroup) (quiet : Bool) (s : State) : Host.Outcome State Fault Refusal :=
  .next (if quiet then (s.hear l).lineQuiet else s.hear l)

/-- LINE_QUALITY_WINDOW (R42): the groups up to the 1024th of the window. -/
def execLineQualityWindow (l : List LineGroup) (s : State) : Host.Outcome State Fault Refusal :=
  .next (s.hear l)

/-- FRAME_RECEIVED (R43 to R46, R65): the groups of the frame, its end delimiter the last. -/
def execFrameReceived (l : List LineGroup) (s : State) : Host.Outcome State Fault Refusal :=
  .next (s.hear l)

/-- LINE_ACCESS (R53, R54). -/
def execLineAccess (s : State) (step : Nat) : Host.Outcome State Fault Refusal :=
  .next (s.startSending step)

/-- TRANSMISSION_END (R53, R54): the line is released, and the idle point of the burst follows. -/
def execTransmissionEnd (s : State) : Host.Outcome State Fault Refusal :=
  match s.li.sending with
  | some _ => .next ({ s with li := { s.li with sending := none } }.idlePoint)
  | none => .next s

/-- ACCESS_ROUND_TIMEOUT (R54): the end of a round in which no station starts is the next idle point. -/
def execAccessRoundTimeout (s : State) : Host.Outcome State Fault Refusal :=
  match s.li.access, s.receives with
  | .round _, true => .next s.idlePoint
  | _, _ => .next s

/-- FIRST_IDLE_POINT (R54): a station that has heard no burst has heard the line quiet for 512 us. -/
def execFirstIdlePoint (s : State) : Host.Outcome State Fault Refusal :=
  match s.li.access, s.receives with
  | .unaligned, true => .next s.idlePoint
  | _, _ => .next s

end Sys2Proof.Machine
end

