-- ==== Sys2Proof/Machine/Report.lean ====
section
/-! DEFINITION. RP: the STATE frame (R165, R166, R179), and INSPECT with its items (R168 to R170, R178). -/

namespace Sys2Proof.Machine

/-! ## The STATE frame -/

/-- Byte `j` of a bit map whose first element is the most significant bit of byte 0. -/
def mapByte (f : Nat → Bool) (j : Nat) : Byte :=
  byte ((List.range 8).foldl (fun acc i => 2 * acc + (if f (8 * j + i) then 1 else 0)) 0)

/-- Node `k` is in the heard map (R66). -/
def State.heard (s : State) (k : Nat) : Bool :=
  match s.peer? k with
  | some p => p.state == .inStep || p.state == .silent
  | none => false

/-- Section state code of the STATE frame; 3 is ABSENT. -/
def State.sectCode (s : State) (k : Nat) : Nat :=
  match s.sectState k with
  | some st => st.code
  | none => 3

/-- Four section states in one byte. -/
def State.sectByte (s : State) (j : Nat) : Byte :=
  byte (64 * s.sectCode (4 * j) + 16 * s.sectCode (4 * j + 1) + 4 * s.sectCode (4 * j + 2) + s.sectCode (4 * j + 3))

/-- Point state code of the STATE frame; 15 is ABSENT. -/
def State.pointCode (s : State) (p : Nat) : Nat :=
  match s.pointState p with
  | some st => st.code
  | none => 15

/-- Signal byte of the STATE frame; state 7 is ABSENT. -/
def State.signalByte (s : State) (g : Nat) : Byte :=
  match s.su.signals[g]? with
  | some r => byte (r.state.code + 16 * (match r.dir with | some d => d.code | none => 0))
  | none => 7

/-- Road summary of the STATE frame; condition 3 is ABSENT. -/
def State.roadBytes (s : State) (r : Nat) : List Byte :=
  match s.yu.roads[r]? with
  | some x => [byte (x.cond.code + (if x.offer.isSome then 128 else 0)), byte (16 * x.stack.length + x.used)]
  | none => [3, 0]

/-- The STATE payload as the blocks stand (R165, R179). -/
def State.statePayload (s : State) : List Byte :=
  [byte (s.pt.mode.stateCode + 16 * s.pt.cause.code)]
    ++ (List.range 8).map (mapByte s.heard)
    ++ (List.range 4).map s.sectByte
    ++ (List.range 2).map (mapByte (fun k => (s.lock? k).isSome))
    ++ (List.range 4).map (fun j => byte (16 * s.pointCode (2 * j) + s.pointCode (2 * j + 1)))
    ++ (List.range 8).map s.signalByte
    ++ (List.range 4).flatMap s.roadBytes
    ++ [stateFlags s.li.linePoor s.fs.poolLow s.fs.txDrop]

/-- RP builds a STATE frame and queues it; POOL_LOW and TX_DROP are copied, then cleared, and POOL_LOW is set again where the pool is
still short (R48, R52, R165). -/
def State.buildState (s : State) : State :=
  let payload := s.statePayload
  ({ s with fs := { s.fs with poolLow := decide (s.fs.free < 6), txDrop := false } }).send .state broadcast payload

/-- The STATE timer has reached a further 250 ms (R60). -/
def State.stateMark (s : State) : State :=
  match s.pt.stateMs with
  | some t =>
    if Config.stateMs ≤ t then ({ s with pt := { s.pt with stateMs := some (t - Config.stateMs) } }).buildState else s
  | none => s

/-! ## INSPECT items (R62, R81, R90, R92, R121, R169, R178; log entries 11 and 49) -/

/-- A field that is present under a condition. -/
def presentIf (b : Bool) (l : List Byte) : List Byte :=
  if b then 1 :: l else [0]

/-- One byte of an index. -/
def encNat (n : Nat) : List Byte := [byte n]

/-- A PEER item (R62). The lock map is 2 bytes, section 0 the most significant bit, as R179 has it in the STATE frame (log entry 11). -/
def encPeer (p : PeerRec) : List Byte :=
  [byte p.state.enum] ++ encOpt (fun e : Epoch => bytes2 e.toNat) p.epoch
    ++ encOpt (fun t : Time => bytes4 t.toNat) p.lastState ++ encOpt (fun m : PeerMode => encNat m.enum) p.mode
    ++ encOpt (fun c : ResetCause => encNat c.code) p.cause ++ encOpt (fun m : BitVec 16 => bytes2 m.toNat) p.lockMap
    ++ [byte p.missRun] ++ encFlags [p.notHearing, p.owed] ++ bytes2 p.epochChanges.toNat ++ bytes2 p.losses.toNat

/-- An entry of a road's stack. -/
def encStackEntry (t : TramRec) : List Byte :=
  bytes2 t.tram ++ [byte t.places, byte t.slot]

/-- A pending arrival (R145). The byte of its two flags stands where the first of them, the direct flag, stands (log entry 11). -/
def encArrival (a : Arrival) : List Byte :=
  encCall a.call ++ bytes2 a.epoch.toNat ++ encStackEntry a.tram ++ encFlags [a.direct, a.gone] ++ encOpt encNat a.link
    ++ encTimer3 a.hold

/-- A ROAD item (R169). -/
def encRoadItem (r : RoadRec) : List Byte :=
  [byte r.cond.code] ++ encList encStackEntry r.stack ++ encList encArrival r.arrivals
    ++ encOpt (fun o : Offer => encCall o.call ++ bytes2 o.epoch.toNat ++ bytes4 o.expiry.toNat) r.offer

/-- A demand. -/
def encDemandItem (d : Demand) : List Byte :=
  [byte d.point, byte d.pos.code]

/-- Claim state as an enumeration of R92. -/
def ClaimState.enum : ClaimState → Nat
  | .reserved => 0
  | .setting => 1
  | .set => 2
  | .orphaned => 3

/-- A step of a claim record (R92). Its locked or released mark is bit 2 of the step's flags, set for locked: DESIGN CHOICE, R92, R169 and
R178 give neither its form nor its polarity (log entry 49). The orphan clear timer has a presence byte (log entry 49). -/
def encClaimStep (orphaned : Bool) (st : ClaimStep) : List Byte :=
  [byte st.number, byte st.sect] ++ encList encDemandItem st.demands
    ++ encFlags [st.nextLocal, st.mouth, st.locked, st.seen] ++ presentIf orphaned (encTimer2 st.orphan)

/-- A CLAIM item of a record in use (R92). The previous state carries its number as a state (log entry 11). The kept points are a list with
an entry for each step, which like every list begins with its count, here the number of steps; each entry is the list of that step's kept
points, with its own count: DESIGN CHOICE, R92 and R178 do not say that the steps are counted again (log entry 49). The direct flag of the award
reference has a byte of its own inside that optional field, apart from the record's marks: DESIGN CHOICE, R178 does not say whether it is
packed with them (log entry 49). -/
def encClaimItem (c : Claim) : List Byte :=
  [byte c.state.enum] ++ encKey c.key ++ [byte c.cls.code] ++ bytes2 c.tram ++ [byte c.approach]
    ++ encList (encClaimStep (c.state == .orphaned)) c.steps ++ encList (fun st : ClaimStep => encList encNat st.kept) c.steps
    ++ encOpt (fun a : AwardRef => encCall a.call ++ encFlags [a.direct]) c.award
    ++ encOpt (fun p : ClaimState => encNat p.enum) c.prev
    ++ presentIf (c.state == .setting) (encList encNat c.orders)
    ++ encFlags [c.setFail, c.lost, c.lostSent, c.releaseMark, c.orphanPending]
    ++ encTimer2 c.reservedT ++ encTimer3 c.setT

/-- Instance state as an enumeration of R121. -/
def ReState.enum : ReState → Nat
  | .calling => 0
  | .claiming => 1
  | .setting => 2
  | .clearing => 3
  | .clear => 4
  | .entered => 5
  | .backoff => 6
  | .cancelling => 7
  | .halted => 8

/-- Call phase as an enumeration of R121. -/
def CallPhase.enum : CallPhase → Nat
  | .bidding => 0
  | .waiting => 1
  | .awarding => 2

/-- Request code as an enumeration of R81. -/
def ReqCode.enum : ReqCode → Nat
  | .inbound => 0
  | .outbound => 1
  | .road => 2
  | .dest => 3

/-- Cancel cause as an enumeration of R121. -/
def CancelCause.enum : CancelCause → Nat
  | .requested => 0
  | .lifetime => 1
  | .approach => 2
  | .halt => 3
  | .lamp => 4

/-- Cancel mark as an enumeration of R81: absent, REQUESTED, LIFETIME. -/
def markEnum : Option CancelMark → Nat
  | none => 0
  | some .requested => 1
  | some .lifetime => 2

/-- A reply of an owner: its number, and straight after GRANTED the claim ID (log entry 11). -/
def encReplyItem : Reply → List Byte
  | .none => [0]
  | .granted id => [1, byte id]
  | .denied => [2]

/-- An owner entry (R121): the fields of R121's list, the flags first. Entry k is of owner k of the route's owner list (R120). -/
def encOwner (o : OwnerEntry) : List Byte :=
  encFlags [o.asked, o.setDone, o.lost] ++ encReplyItem o.reply
    ++ encOpt (fun e : Epoch => bytes2 e.toNat) o.epoch ++ encOpt (fun t : Time => bytes4 t.toNat) o.setDoneTime

/-- The nine timers of an instance (R121). -/
def encReTimers (t : ReTimers) : List Byte :=
  encTimer1 t.bid ++ encTimer2 t.roadWait ++ encTimer1 t.awardWait ++ encTimer2 t.claim ++ encTimer2 t.set
    ++ encTimer3 t.approach ++ encTimer3 t.runThrough ++ encTimer2 t.delay ++ encTimer2 t.retry

/-- The states of an instance that show passed flags: CLEAR onward (R121). -/
def ReState.counts : ReState → Bool
  | .clear | .entered | .halted | .cancelling => true
  | .calling | .claiming | .setting | .clearing | .backoff => false

/-- A ROUTE item of an instance in use (R121). The direct flag of the award and the claim-lost flag have a byte each at their places:
DESIGN CHOICE, R178 does not say whether flags of different rows are packed together (log entry 49). -/
def encInst (x : Inst) : List Byte :=
  [byte x.state.enum, byte x.slot] ++ bytes2 x.serial.toNat ++ bytes2 x.tram
    ++ [byte x.places, byte x.runOut, byte x.code.enum, byte x.signal]
    ++ encOpt encNat x.route ++ encOpt encNat x.attempt ++ encOpt (fun p : CallPhase => encNat p.enum) x.phase
    ++ encOpt encCall x.call ++ encOpt (fun b : BestBid => [byte b.node, byte b.road] ++ bytes2 b.score) x.best
    ++ presentIf (x.phase == some .bidding) (encList encNat x.bidders)
    ++ encOpt (fun a : AwardRec => encCall a.call ++ [byte a.node, byte a.road] ++ encFlags [a.direct]) x.award
    ++ presentIf (x.state != .calling) (encList encOwner x.owners)
    ++ presentIf x.state.counts (encList (fun b : Bool => encFlags [b]) x.passed)
    ++ encOpt (fun c : CancelCause => encNat c.enum) x.cause
    ++ presentIf (x.state == .entered || x.state == .halted) (encFlags [x.claimLost])
    ++ encReTimers x.timers

/-- The fields of a slot in use, each one present (R81); two values of one row share a presence byte (log entry 49). -/
def encSlotData (d : SlotData) (inst : Option Nat) (mark : Option (Option CancelMark)) : List Byte :=
  (1 :: bytes2 d.serial.toNat) ++ (1 :: bytes2 d.tram) ++ [1, byte d.places] ++ [1, byte d.runOut] ++ [1, byte d.code.enum]
    ++ encOpt (fun r : Nat × Nat => [byte r.1, byte r.2]) d.road ++ encOpt encNat d.destCode
    ++ [1, byte d.point, byte d.signal] ++ encOpt encNat d.route ++ (1 :: bytes4 d.arrival.toNat) ++ [1, byte d.attempts]
    ++ encOpt encNat inst ++ encOpt (fun m : Option CancelMark => encNat (markEnum m)) mark

/-- A SLOT item with index 0-15 (R81): thirteen fields after the state, all absent in a FREE slot. -/
def encSlot : Slot → List Byte
  | .free => 0 :: List.replicate 13 0
  | .queued d => 1 :: encSlotData d none none
  | .active d i m => 2 :: encSlotData d (some i) (some m)

/-- A record of the outcome ring (R88). -/
def encOutcome (r : OutcomeRec) : List Byte :=
  encOpt (fun x : Serial => bytes2 x.toNat) r.serial ++ bytes2 r.tram ++ [byte r.signal, byte r.code.enum]
    ++ encOpt encNat r.code.detail ++ bytes4 r.time.toNat

/-- The counters of group 0, in order of position (R170). -/
def Counters.values (c : Counters) : List Counter :=
  [c.code, c.undersize, c.oversize, c.crc, c.length, c.unknownKind, c.noBuffer, c.noBufferBursts,
    c.levelMismatch, c.txDisplaced, c.txDrop, c.duplicateId, c.ownIdSameEpoch, c.badTelegram, c.badTram, c.granted]
  ++ [c.denied, c.lostSent, c.orphaned, c.orphanReleased, c.bidCalls, c.attemptsFailed, c.routesSet, c.staleReplies,
    c.bidsSent, c.awardsTaken, c.awardsIgnored, c.pushes, c.pops, c.roadWrites, c.roadWriteFails, c.inspectsAnswered]

/-- A counter of group 1: 0 for an unconfigured index (R170). -/
def group1Value (configured : Nat) (l : List Counter) (k : Nat) : Counter :=
  if k < configured then l.getD k 0 else 0

/-- The counters of group 1, in order of position (R170). -/
def State.group1 (s : State) : List Counter :=
  (List.range 16).map (group1Value s.yard.sects.length s.du.disturb)
    ++ (List.range 8).map (group1Value s.yard.points.length s.pu.moves)
    ++ (List.range 8).map (group1Value s.yard.points.length s.pu.fails)

/-- The answer of an INSPECT: a part with its last-part flag, or a status without content (R168). -/
inductive Answer where
  | ok (content : List Byte) (last : Bool)
  | free
  | none
deriving DecidableEq, Repr

/-- Part `k` of an item: bytes 44 k to 44 k + 43; none beyond the item's last part (R168, R178; a part byte above 3: log entry 40). -/
def partOf (item : List Byte) (k : Nat) : Answer :=
  if 44 * k < item.length then
    .ok ((item.drop (44 * k)).take 44) (decide (item.length ≤ 44 * (k + 1)))
  else .none

/-- Parts of a COUNTERS item: positions 0-19, and 20-31 (R169). -/
def counterPart (l : List Counter) (k : Nat) : Answer :=
  match k with
  | 0 => .ok ((l.take 20).flatMap (fun c => bytes2 c.toNat)) false
  | 1 => .ok ((l.drop 20).flatMap (fun c => bytes2 c.toNat)) true
  | _ => .none

/-- Position of a claim ID on the free list. -/
def State.freePosition (s : State) (id : Nat) : Nat :=
  (firstIndex (fun k => k == id) s.ct.free).getD 0

/-- A CLAIM item (R119, R169): a free record is its state FREE and its position on the free list. -/
def State.claimItem (s : State) (id : Nat) : List Byte :=
  match s.claim? id with
  | some c => encClaimItem c
  | none => [4, byte (s.freePosition id)]

/-- A PEER item (R73, R169). -/
def State.peerItem (s : State) (k : Nat) : List Byte :=
  if k = s.pt.node then bytes2 s.pt.epoch.toNat ++ [byte s.pt.mode.enum, byte s.pt.cause.code]
  else match s.pt.peers[k]? with
    | some p => encPeer p
    | none => []

/-- A SLOT item (R90, R169); none for a ring position not yet written. -/
def State.slotItem (s : State) (k : Nat) : Option (List Byte) :=
  if k < 16 then (s.rq.slots[k]?).map encSlot
  else if k < 32 then (s.rq.ring[k - 16]?).map encOutcome
  else none

/-- The answer to an INSPECT of a kind, an index and a part (R168, R169). -/
def State.answer (s : State) (kind index part : Nat) : Answer :=
  match kind with
  | 1 => match s.yu.roads[index]? with
    | some r => partOf (encRoadItem r) part
    | none => .none
  | 2 => if index < 32 then partOf (s.claimItem index) part else .none
  | 3 => if index < 63 then partOf (s.peerItem index) part else .none
  | 4 =>
    if index < 8 then
      match s.inst? index with
      | some x => partOf (encInst x) part
      | none => .free
    else .none
  | 5 => match s.slotItem index with
    | some l => partOf l part
    | none => .none
  | 6 => match index with
    | 0 => counterPart s.cnt.values part
    | 1 => counterPart s.group1 part
    | _ => .none
  | _ => .none

/-- The payload of an INSPECT-REPLY (R179). -/
def replyPayload (kind index part : Nat) : Answer → List Byte
  | .ok content last => [byte kind, byte index, byte part, if last then 128 else 0] ++ content
  | .free => [byte kind, byte index, byte part, 1]
  | .none => [byte kind, byte index, byte part, 2]

/-- RP takes an INSPECT (R168). The answer is read before anything changes. -/
def inspectFrame (f : RxFrame) (s : State) : State :=
  let kind := byteAt f.payload 0
  let index := byteAt f.payload 1
  let part := byteAt f.payload 2
  if f.rx.source = 63 then s
  else
    (s.send .inspectReply f.rx.source (replyPayload kind index part (s.answer kind index part))).count
      (fun c => { c with inspectsAnswered := bump c.inspectsAnswered })

/-! ## Commands -/

/-- INSPECT (R168). -/
def execInspect (s : State) : Host.Outcome State Fault Refusal :=
  .next (s.withFrame .inspect inspectFrame)

/-- STATE_TIMER (R60, R165). -/
def execStateTimer (s : State) : Host.Outcome State Fault Refusal :=
  .next s.stateMark

end Sys2Proof.Machine
end

