-- ==== Sys2Proof/Machine/Image.lean ====
section
/-! DEFINITION. The image: reading it (R181, R182), the structural checks (R173) and the clamping (R174). -/

namespace Sys2Proof.Machine

/-! ## Reading (R181) -/

/-- A route as the image gives it: a class, a destination or a direction that its code does not define is none. -/
structure RawRoute where
  signal : Nat
  cls : Option RouteClass
  dest : Option Dest
  dir : Option Direction
  approach : Nat
  delay : Nat
  steps : List RouteStep
deriving DecidableEq, Repr

/-- The image as read, before the checks. -/
structure RawImage where
  sects : List SectCfg
  points : List PointCfg
  signals : List SignalCfg
  reqPoints : List Nat
  roads : List RoadCfg
  routes : List RawRoute
deriving DecidableEq, Repr

/-- Role of a section (R181). -/
def SectRole.ofBits (n : Nat) : SectRole :=
  match n % 4 with
  | 0 => .route
  | 1 => .approach
  | 2 => .roadMouth
  | _ => .roadBody

/-- A section of 3 bytes at offset `o`; of a point count above 2, two points are read (log entry 13). -/
def readSect (l : List Byte) (o : Nat) : SectCfg :=
  ⟨byteAt l o / 128 = 1, SectRole.ofBits (byteAt l o), [byteAt l (o + 2) / 16, byteAt l (o + 2) % 16].take (byteAt l (o + 1))⟩

/-- A point of 2 bytes. -/
def readPoint (l : List Byte) (o : Nat) : PointCfg :=
  ⟨byteAt l o, byteAt l (o + 1)⟩

/-- A signal of 3 bytes. -/
def readSignal (l : List Byte) (o : Nat) : SignalCfg :=
  ⟨byteAt l o % 2 = 1, byteAt l o / 2 % 2 = 1, byteAt l o / 4 % 2 = 1, decAbsent (byteAt l (o + 1)), decAbsent (byteAt l (o + 2))⟩

/-- A road of 5 bytes: mouth section, body section, C, q, run-out signal. -/
def readRoad (l : List Byte) (o : Nat) : RoadCfg :=
  ⟨byteAt l o, byteAt l (o + 1), byteAt l (o + 2), byteAt l (o + 3), byteAt l (o + 4)⟩

/-- `n` records of `size` bytes from offset `o` on. -/
def readList {α : Type} (rd : List Byte → Nat → α) (size : Nat) (l : List Byte) (o n : Nat) : List α :=
  match n with
  | 0 => []
  | n + 1 => rd l o :: readList rd size l (o + size) n

/-- A step of a route in 4 bytes; of a demand count of 3, two demands are read (log entry 13). -/
def readStep (l : List Byte) (o : Nat) : RouteStep :=
  ⟨byteAt l o, byteAt l (o + 1), byteAt l (o + 2) / 128 = 1, decDemands (byteAt l (o + 2) % 4) (byteAt l (o + 3))⟩

/-- The destination of a route; none for a first byte that gives no destination kind. -/
def readDest (a b : Nat) : Option Dest :=
  if a < 63 then some (.road a b)
  else if a = 255 ∧ b = 255 then some .line
  else if a = 254 then some (.code b)
  else none

/-- A route at offset `o`. -/
def readRoute (l : List Byte) (o : Nat) : RawRoute :=
  { signal := byteAt l o, cls := RouteClass.ofCode (byteAt l (o + 1) % 4)
    dest := readDest (byteAt l (o + 2)) (byteAt l (o + 3)), dir := Direction.ofCode (byteAt l (o + 4))
    approach := byteAt l (o + 5), delay := byteAt l (o + 6), steps := readList readStep 4 l (o + 8) (byteAt l (o + 7)) }

/-- Bytes of the route at offset `o`. -/
def routeSize (l : List Byte) (o : Nat) : Nat :=
  8 + 4 * byteAt l (o + 7)

/-- `n` routes from offset `o` on, and the offset after them. -/
def readRoutes (l : List Byte) (o n : Nat) : List RawRoute × Nat :=
  match n with
  | 0 => ([], o)
  | n + 1 =>
    let (rs, e) := readRoutes l (o + routeSize l o) n
    (readRoute l o :: rs, e)

/-- The body for the counts of the header, and the length that they require (R182). -/
def readBody (h l : List Byte) : RawImage × Nat :=
  let oP := 3 * byteAt h 3
  let oG := oP + 2 * byteAt h 4
  let oR := oG + 3 * byteAt h 5
  let oY := oR + byteAt h 6
  let oT := oY + 5 * byteAt h 7
  let (routes, e) := readRoutes l oT (byteAt h 8)
  (⟨readList readSect 3 l 0 (byteAt h 3), readList readPoint 2 l oP (byteAt h 4), readList readSignal 3 l oG (byteAt h 5),
    readList byteAt 1 l oR (byteAt h 6), readList readRoad 5 l oY (byteAt h 7), routes⟩, e)

/-! ## The structural checks (R173) -/

/-- Every item of a list passes a check that also reads its index. -/
def allIdx {α : Type} (l : List α) (p : Nat → α → Bool) : Bool :=
  (List.range l.length).all (fun k => match l[k]? with | some x => p k x | none => true)

/-- Counts (R173): `h` is the header. -/
def countsOk (h : List Byte) : Bool :=
  decide (1 ≤ byteAt h 3) && decide (byteAt h 3 ≤ 16) && decide (byteAt h 4 ≤ 8) && decide (byteAt h 5 ≤ 8)
    && decide (byteAt h 6 ≤ 8) && decide (byteAt h 7 ≤ 4) && decide (byteAt h 8 ≤ 24)

/-- Sections: no contained-points list names an unconfigured point, and no point is named twice. -/
def sectsOk (m : RawImage) : Bool :=
  let all := m.sects.flatMap (·.points)
  all.all (fun p => decide (p < m.points.length)) && !hasTwice all

/-- Points: the section is configured and lists the point. -/
def pointsOk (m : RawImage) : Bool :=
  allIdx m.points (fun k p => (m.sects[p.sect]?).any (fun c => c.points.contains k))

/-- Signals: a direction, and an approach section and a request point that fit. -/
def signalsOk (m : RawImage) : Bool :=
  allIdx m.signals (fun k g =>
    (g.left || g.straight || g.right)
      && (match g.approach with | some a => decide (a < m.sects.length) | none => true)
      && (match g.reqPoint with | some p => m.reqPoints[p]? == some k | none => true))

/-- Request points: the entry signal is configured and names the point. -/
def reqPointsOk (m : RawImage) : Bool :=
  allIdx m.reqPoints (fun k g => (m.signals[g]?).any (fun c => c.reqPoint == some k))

/-- Roads: mouth, body and run-out signal configured, of their roles, and named by one road alone. -/
def roadsOk (m : RawImage) : Bool :=
  m.roads.all (fun r =>
      (m.sects[r.mouth]?).any (fun c => c.role == .roadMouth) && (m.sects[r.body]?).any (fun c => c.role == .roadBody)
        && decide (r.runOut < m.signals.length))
    && !hasTwice (m.roads.map (·.mouth)) && !hasTwice (m.roads.map (·.body)) && !hasTwice (m.roads.map (·.runOut))

/-- The entry of a route: its signal is configured and has the aspect direction. -/
def routeEntryOk (m : RawImage) (r : RawRoute) : Bool :=
  match m.signals[r.signal]?, r.dir with
  | some g, some d => g.has d
  | _, _ => false

/-- No two steps name the same owner node and section index. -/
def stepsDistinct : List RouteStep → Bool
  | [] => true
  | st :: rest => !rest.any (fun t => t.owner == st.owner && t.sect == st.sect) && stepsDistinct rest

/-- The steps of a route, as far as every owner's are checked. -/
def routeStepsOk (node : Nat) (r : RawRoute) : Bool :=
  decide (1 ≤ r.steps.length) && decide (r.steps.length ≤ 12) && (r.steps.head?).any (fun st => st.owner == node)
    && stepsDistinct r.steps && r.steps.all (fun st => decide (st.sect < 16))

/-- The local steps of a route. -/
def localStepsOk (m : RawImage) (node : Nat) (r : RawRoute) : Bool :=
  r.steps.all (fun st => st.owner != node ||
    (match m.sects[st.sect]? with
      | some c => (c.role == .route || c.role == .roadMouth)
          && st.demands.all (fun d => c.points.contains d.point) && !hasTwice (st.demands.map (·.point))
      | none => false))

/-- The mouth flag: on the last step alone, and only for RUN_IN. -/
def mouthFlagOk (r : RawRoute) : Bool :=
  !r.steps.dropLast.any (·.mouth) && (!r.steps.any (·.mouth) || r.cls == some .runIn)

/-- The destination kind matches the class. -/
def routeDestOk (r : RawRoute) : Bool :=
  match r.cls, r.dest with
  | some .runIn, some (.road _ _) => true
  | some .runOut, some .line => true
  | some .shunt, some (.code n) => decide (1 ≤ n) && decide (n ≤ 15)
  | _, _ => false

/-- No two routes of one entry signal have the same destination. -/
def destsDistinct : List RawRoute → Bool
  | [] => true
  | r :: rest => !rest.any (fun t => t.signal == r.signal && t.dest == r.dest) && destsDistinct rest

/-- The structural checks as a whole (R173). -/
def structureOk (h : List Byte) (node : Nat) (m : RawImage) : Bool :=
  countsOk h && sectsOk m && pointsOk m && signalsOk m && reqPointsOk m && roadsOk m
    && m.routes.all (fun r => routeEntryOk m r && routeStepsOk node r && localStepsOk m node r && mouthFlagOk r && routeDestOk r)
    && destsDistinct m.routes

/-! ## Clamping (R174) -/

/-- The nearer end of a range. -/
def clampTo (lo hi v : Nat) : Nat :=
  max lo (min v hi)

/-- The clamp notes of one kind of value over a list of items, indexed from `k`. -/
def clampNotes {α : Type} (kind lo hi : Nat) (get : α → Nat) (k : Nat) : List α → List Clamp
  | [] => []
  | x :: xs =>
    let rest := clampNotes kind lo hi get (k + 1) xs
    if clampTo lo hi (get x) = get x then rest else ⟨kind, k, get x, clampTo lo hi (get x)⟩ :: rest

/-- The clamp list of an image (R174, log entry 22). -/
def clampsOf (m : RawImage) : List Clamp :=
  clampNotes 1 1 6 (fun p : PointCfg => p.travel) 0 m.points
    ++ clampNotes 2 10 250 (fun r : RawRoute => r.approach) 0 m.routes
    ++ clampNotes 3 5 60 (fun r : RawRoute => r.delay) 0 m.routes
    ++ clampNotes 4 1 8 (fun r : RoadCfg => r.capacity) 0 m.roads
    ++ clampNotes 5 0 15 (fun r : RoadCfg => r.weight) 0 m.roads

/-- A checked route with its values clamped; the defaults stand where the checks leave no choice. -/
def useRoute (r : RawRoute) : RouteCfg :=
  { signal := r.signal, cls := r.cls.getD .shunt, dest := r.dest.getD .line, dir := r.dir.getD .straight
    approach := clampTo 10 250 r.approach, delay := clampTo 5 60 r.delay, steps := r.steps }

/-- The yard description of a checked image, its values clamped. -/
def useImage (m : RawImage) : Yard :=
  { sects := m.sects
    points := m.points.map (fun p => { p with travel := clampTo 1 6 p.travel })
    signals := m.signals, reqPoints := m.reqPoints
    roads := m.roads.map (fun r => { r with capacity := clampTo 1 8 r.capacity, weight := clampTo 0 15 r.weight })
    routes := m.routes.map useRoute }

/-- Steps 2 to 4 of start-up on the memory's bytes: the yard description and the clamp list, or none where a check fails (R172 to R174,
R182). -/
def checkImage (mem : List Host.Cell) (node : Nat) : Option (Yard × List Clamp) :=
  let h := readBytes mem 0 13
  let length := wordAt h 0
  if 2048 < 13 + length then none
  else
    let l := readBytes mem 13 length
    if bytes4 (crc32 (h.take 9 ++ l)).toNat ≠ h.drop 9 ∨ byteAt h 2 ≠ node then none
    else
      let (m, need) := readBody h l
      if structureOk h node m && need == length then some (useImage m, clampsOf m) else none

end Sys2Proof.Machine
end

