-- ==== Sys2Proof/Machine/Startup.lean ====
section
/-! DEFINITION. Resets (R171), the start-up sequence (R172, R175, R176, R163), the entry into JOINING (R59, R172), and the end of a
window with DU's evaluation (R5, R8 to R17). -/

namespace Sys2Proof.Machine

/-! ## Resets (R171) -/

/-- The epoch that a copy holds, where its check is good (R175, R181). -/
def epochCopy (mem : List Host.Cell) (addr : Nat) : Option Epoch :=
  let l := readBytes mem addr 3
  if checkByte (l.take 2) = byte (byteAt l 2) then some (BitVec.ofNat 16 (wordAt l 0)) else none

/-- The stored epoch (R175). -/
def storedEpoch (mem : List Host.Cell) : Option Epoch :=
  match epochCopy mem epochAddrA, epochCopy mem epochAddrB with
  | some a, _ => some a
  | none, some b => some b
  | none, none => none

/-- An epoch copy with its check byte. -/
def encEpoch (e : Epoch) : List Byte :=
  bytes2 e.toNat ++ [checkByte (bytes2 e.toNat)]

/-- What a reset inside the epoch write leaves: which of the cases of R175 is free (log entry 9). -/
def tornEpoch (mem : List Host.Cell) (k : Nat) : List Host.Cell :=
  match storedEpoch mem with
  | some e =>
    let new := encEpoch (e + 1)
    match Config.freeChoice k % 4 with
    | 0 => mem
    | 1 => writeBytes mem epochAddrA (badRecord (k + 1) 2)
    | 2 => writeBytes mem epochAddrA new
    | _ => writeBytes (writeBytes mem epochAddrA new) epochAddrB (badRecord (k + 1) 2)
  | none => mem

/-- What a reset inside a road write leaves: the record as it stood, or one with a bad check (R162, R177, log entry 9). -/
def tornRoad (mem : List Host.Cell) (k r : Nat) : List Host.Cell :=
  match Config.freeChoice k % 2 with
  | 0 => mem
  | _ => writeBytes mem (roadAddr r) (badRecord (k + 1) 34)

/-- The memory after a reset taken now, and the free values used. -/
def State.memAfterReset (s : State) : List Host.Cell × Nat :=
  match s.mi.startup, s.mi.writing with
  | .epoch, _ => (tornEpoch s.mi.mem s.freeIdx, s.freeIdx + 4)
  | _, some (r, _) => (tornRoad s.mi.mem s.freeIdx r, s.freeIdx + 36)
  | _, none => (s.mi.mem, s.freeIdx)

/-- The state after a reset: every block at its reset values, with the memory, the free values used and the waiting commands kept. -/
def State.afterReset (s : State) (cause : ResetCause) : State :=
  { State.reset with
    pending := s.pending, freeIdx := s.memAfterReset.2, pt := PT.reset cause, mi := MI.reset s.memAfterReset.1 }

/-- A pin reset keeps the counters of group 1 (R13, R18, R170, R171), those of unconfigured indices too: what the disturbance counter of
a section (R1) or the move and failure counters of a point (R18) hold when one image leaves the index unconfigured and a later one
configures it again is DESIGN CHOICE, the spec keeps no state for such an index (log entry 45). -/
def State.keepGroup1 (s old : State) : State :=
  { s with
    du := { s.du with disturb := old.du.disturb }
    pu := { s.pu with moves := old.pu.moves, fails := old.pu.fails } }

/-- The cause of a pin reset: POWER_ON where a power-on reset is still held (R171). -/
def State.pinCause (s : State) : ResetCause :=
  if s.mi.startup = .held ∧ s.pt.cause = .powerOn then .powerOn else .pin

/-! ## The start-up sequence (R172, R175, R176) -/

/-- Start-up ends in CONFIG_FAULT (R176). -/
def State.configFault (s : State) : State :=
  { s with pt := { s.pt with mode := .configFault }, mi := { s.mi with startup := .ended } }

/-- Step 1: the straps (R172). The window clock starts (R5). -/
def State.release (s : State) (straps : Nat) : State :=
  let s := { s with windowMs := 0, pt := { s.pt with node := straps % 64 }, mi := { s.mi with startup := .image } }
  if straps % 64 = 63 then s.configFault else s

/-- Steps 2 to 4: the image is read (R172 to R174). -/
def State.takeImage (s : State) (acked : Bool) : State :=
  if acked then
    match checkImage s.mi.mem s.pt.node with
    | some (yard, clamps) => { s with mi := { s.mi with desc := yard, clamps := clamps, startup := .epoch } }
    | none => s.configFault
  else s.configFault

/-- A failed write of an epoch copy leaves free bytes in it (log entry 9). -/
def State.failedCopy (s : State) (mem : List Host.Cell) (addr : Nat) : State :=
  ({ s with
    mi := { s.mi with mem := writeBytes mem addr (freeBytes s.freeIdx 3) }, freeIdx := s.freeIdx + 3 }).configFault

/-- Step 5: the epoch (R175). -/
def State.takeEpoch (s : State) (result : EpochWrite) : State :=
  match storedEpoch s.mi.mem with
  | none => s.configFault
  | some old =>
    let memA := writeBytes s.mi.mem epochAddrA (encEpoch (old + 1))
    match result with
    | .readFailed => s.configFault
    | .copyAFailed => s.failedCopy s.mi.mem epochAddrA
    | .copyBFailed => s.failedCopy memA epochAddrB
    | .confirmed =>
      { s with
        mi := { s.mi with mem := writeBytes memA epochAddrB (encEpoch (old + 1)), startup := .restore }
        pt := { s.pt with epoch := old + 1 } }

/-! ## Restore (R163, R182) -/

/-- Entry `i` of a road record. -/
def recordEntry (l : List Byte) (i : Nat) : TramRec :=
  ⟨wordAt l (2 + 4 * i), byteAt l (4 + 4 * i), byteAt l (5 + 4 * i)⟩

/-- The entries of a road record. -/
def recordEntries (l : List Byte) : List TramRec :=
  (List.range (byteAt l 1)).map (recordEntry l)

/-- An entry that a record may hold. -/
def TramRec.storable (t : TramRec) : Bool :=
  decide (1 ≤ t.tram) && decide (t.tram ≤ 9999) && decide (1 ≤ t.places) && decide (t.places ≤ 2)

/-- A road as restore leaves it, with the cause where restore made it DOUBTFUL and the tram concerned. -/
structure Restored where
  road : RoadRec
  cause : Option (DoubtCause × Option Nat)
deriving DecidableEq, Repr

/-- A refused record: DOUBTFUL with an empty stack (R163). -/
def Restored.refused (cause : DoubtCause) : Restored :=
  ⟨⟨.doubtful, [], [], none⟩, some (cause, none)⟩

/-- Passes 1 and 2 for the record `l` of a road of capacity `c` (R163, R182). -/
def restoreRecord (acked : Bool) (c : Nat) (l : List Byte) : Restored :=
  if !acked || checkByte (l.take 34) != byte (byteAt l 34) || decide (1 < byteAt l 0) || decide (8 < byteAt l 1)
      || !(recordEntries l).all TramRec.storable then .refused .restoreBad
  else if c < placesOf (recordEntries l) then .refused .restoreOverfill
  else ⟨⟨if byteAt l 0 = 0 then .known else .doubtful, recordEntries l, [], none⟩, none⟩

/-- A tram that appears more than once among the restored stacks. -/
def repeated (all : List Nat) (tram : Nat) : Bool :=
  decide (2 ≤ all.count tram)

/-- Pass 3 for one road (R163, log entry 21). -/
def Restored.dropRepeated (all : List Nat) (x : Restored) : Restored :=
  match x.road.stack.find? (fun t => repeated all t.tram) with
  | some t =>
    ⟨{ x.road with cond := .doubtful, stack := x.road.stack.filter (fun t => !repeated all t.tram) },
      some (.restoreDuplicate, some t.tram)⟩
  | none => x

/-- The three passes over the roads of the description (R163). -/
def restoreRoads (mem : List Host.Cell) (roads : List RoadCfg) (acked : List Bool) : List Restored :=
  let first := (List.range roads.length).map (fun r =>
    restoreRecord (acked.getD r false) ((roads[r]?).elim 0 (·.capacity)) (readBytes mem (roadAddr r) 35))
  first.map (Restored.dropRepeated (first.flatMap (fun x => x.road.stack.map (·.tram))))

/-- The records of the blocks for a yard description, on entry into JOINING (R16, R18, R31, R38, R94, R172). -/
def State.takeDescription (s : State) (roads : List RoadRec) : State :=
  let y := s.mi.desc
  { s with
    yard := y
    du := { s.du with sects := y.sects.map (fun _ => SectRec.reset) }
    pu := { s.pu with points := y.points.map (fun _ => PointRec.reset) }
    su := { s.su with signals := y.signals.map (fun _ => SignalRec.atStop) }
    ct := { s.ct with locks := y.sects.map (fun _ => none) }
    yu := { s.yu with roads := roads } }

/-- Entry into JOINING (R59, R60, R163, R172): `restored` are the roads as restore leaves them. The STATE timer is at its first mark at
once. The windows whose end has not been taken, and the window that runs, started before it (R16, log entry 23). The road-doubtful
reports come in rising road index: DESIGN CHOICE, R163 gives road order for the write queue alone (log entry 33). -/
def State.enterJoining (s : State) (restored : List Restored) : State :=
  let s := s.takeDescription (restored.map (·.road))
  let s := { s with
    oldWindows := s.windowMs / Config.windowMs + 1
    pt := { s.pt with mode := .joining, listen := startTimer Config.listenMs, announces := 0, stateMs := some Config.stateMs }
    mi := { s.mi with startup := .ended } }
  let s := s.offerAnnounce
  let changed := (List.range restored.length).filter (fun r => (restored[r]?).any (fun x => x.cause.isSome))
  let s := forEach changed (fun r s =>
    match (restored[r]?).bind (·.cause) with
    | some (cause, tram) => s.reportRoadDoubtful r cause tram
    | none => s) s
  s.queueRoads changed

/-! ## The end of a window (R5, R8 to R17) -/

/-- The end of the window being evaluated, on the time base: `windowMs` is then what the window clock has run since (R5, R14). -/
def State.windowEndTime (s : State) : Time :=
  s.time - BitVec.ofNat 32 s.windowMs

/-- DU evaluates section `k` (R6 to R15). -/
def State.evaluateSect (l : Levels) (k : Nat) (s : State) : State :=
  match s.yard.sects[k]?, s.du.sects[k]? with
  | some c, some r =>
    let r' := r.evaluate (windowReading c.single (l.chanA.getLsbD k) (l.chanB.getLsbD k))
    let s := s.modSect k (fun _ => r')
    if r'.state = r.state then s
    else
      let s := s.giveSectNotice ⟨k, r.state, r'.state, s.windowEndTime⟩
      if r'.state = .disturbed then
        let s := { s with du := { s.du with disturb := s.du.disturb.modify k bump } }
        s.reportDisturbed k r.state (s.du.disturb.getD k 0)
      else s
  | _, _ => s

/-- PU and SU get the window's readings (R5, R17). -/
def State.giveReadings (s : State) (l : Levels) : State :=
  { s with
    pu := { s.pu with readings := some (l.contactN, l.contactR) }
    su := { s.su with readings := some ⟨l.lampStop, l.lampLeft, l.lampStraight, l.lampRight⟩ } }

/-- The outputs that an exchange sends (R17). -/
def State.outputs (s : State) : Field :=
  ⟨s.pu.points.map (·.drive), s.su.signals.map (·.lit)⟩

/-- The exchange at the end of a window: the outputs go to the field (R17). -/
def State.exchange (s : State) : State :=
  { s with
    field := s.outputs, windowMs := s.windowMs - Config.windowMs
    su := { s.su with signals := s.su.signals.map SignalRec.exchanged } }

/-- The exchange at the end of a window, and DU's evaluation of it where the window started after the entry into JOINING (R5, R16). The
sections are evaluated, and disturbances reported, in rising index: DESIGN CHOICE, R15 gives no order (log entry 33). -/
def State.windowEnds (s : State) (l : Levels) : State :=
  let s := s.exchange
  if s.pt.mode.active then
    if s.oldWindows = 0 then
      forEach (List.range s.du.sects.length) (State.evaluateSect l) (s.giveReadings l)
    else { s with oldWindows := s.oldWindows - 1 }
  else s

/-! ## Commands -/

/-- POWER_ON_RESET (R171). -/
def execPowerOnReset (s : State) : Host.Outcome State Fault Refusal :=
  .next (s.afterReset .powerOn)

/-- PIN_RESET (R171). -/
def execPinReset (s : State) : Host.Outcome State Fault Refusal :=
  .next ((s.afterReset s.pinCause).keepGroup1 s)

/-- RESET_RELEASE (R172). -/
def execResetRelease (straps : Nat) (s : State) : Host.Outcome State Fault Refusal :=
  if s.mi.startup = .held then .next (s.release straps) else .next s

/-- IMAGE_READ_DONE (R172 to R174). -/
def execImageReadDone (acked : Bool) (s : State) : Host.Outcome State Fault Refusal :=
  if s.mi.startup = .image then .next (s.takeImage acked) else .next s

/-- EPOCH_WRITE_DONE (R175). -/
def execEpochWriteDone (result : EpochWrite) (s : State) : Host.Outcome State Fault Refusal :=
  if s.mi.startup = .epoch then .next (s.takeEpoch result) else .next s

/-- ROAD_RESTORE (R163, R172). -/
def execRoadRestore (acked : List Bool) (s : State) : Host.Outcome State Fault Refusal :=
  if s.mi.startup = .restore then .next (s.enterJoining (restoreRoads s.mi.mem s.mi.desc.roads acked)) else .next s

/-- WINDOW_END (R5, R17): the window clock has run 20 ms. -/
def execWindowEnd (l : Levels) (s : State) : Host.Outcome State Fault Refusal :=
  if s.mi.startup ≠ .held ∧ Config.windowMs ≤ s.windowMs then .next (s.windowEnds l) else .next s

end Sys2Proof.Machine
end

