-- ==== Sys2Proof/Machine/Dispatch.lean ====
section
/-! DEFINITION. The meaning of each command: one arm per constructor of Instr, in the order of the table's families. -/

namespace Sys2Proof.Machine

def exec (i : Instr) (s : State) : Host.Outcome State Fault Refusal :=
  match i with
  | .powerOnReset => Sys2Proof.Machine.execPowerOnReset s
  | .pinReset => Sys2Proof.Machine.execPinReset s
  | .resetRelease straps => Sys2Proof.Machine.execResetRelease straps s
  | .imageReadDone acked => Sys2Proof.Machine.execImageReadDone acked s
  | .epochWriteDone result => Sys2Proof.Machine.execEpochWriteDone result s
  | .roadRestore acked => Sys2Proof.Machine.execRoadRestore acked s
  | .windowEnd levels => Sys2Proof.Machine.execWindowEnd levels s
  | .pointWindowEvaluation => Sys2Proof.Machine.execPointWindowEvaluation s
  | .signalWindowEvaluation => Sys2Proof.Machine.execSignalWindowEvaluation s
  | .puSectionChange sect => Sys2Proof.Machine.execPuSectionChange sect s
  | .ctSectionChange sect => Sys2Proof.Machine.execCtSectionChange sect s
  | .reSectionChange sect => Sys2Proof.Machine.execReSectionChange sect s
  | .yuSectionChange sect => Sys2Proof.Machine.execYuSectionChange sect s
  | .travelTimerExpiry point => Sys2Proof.Machine.execTravelTimerExpiry point s
  | .permissionEnd point => Sys2Proof.Machine.execPermissionEnd point s
  | .proceedCommand signal => Sys2Proof.Machine.execProceedCommand signal s
  | .stopCommand signal => Sys2Proof.Machine.execStopCommand signal s
  | .clearingTimerExpiry signal => Sys2Proof.Machine.execClearingTimerExpiry signal s
  | .trialTimerExpiry signal => Sys2Proof.Machine.execTrialTimerExpiry signal s
  | .proved signal => Sys2Proof.Machine.execProved signal s
  | .clearFail signal => Sys2Proof.Machine.execClearFail signal s
  | .lampFault signal => Sys2Proof.Machine.execLampFault signal s
  | .startDelimiter align rd balance => Sys2Proof.Machine.execStartDelimiter s align rd balance
  | .oversizeDiscard groups => Sys2Proof.Machine.execOversizeDiscard groups s
  | .lossOfSync groups quiet => Sys2Proof.Machine.execLossOfSync groups quiet s
  | .lineQualityWindow groups => Sys2Proof.Machine.execLineQualityWindow groups s
  | .frameReceived groups => Sys2Proof.Machine.execFrameReceived groups s
  | .ownSourceFrame => Sys2Proof.Machine.execOwnSourceFrame s
  | .lineAccess step => Sys2Proof.Machine.execLineAccess s step
  | .transmissionEnd => Sys2Proof.Machine.execTransmissionEnd s
  | .accessRoundTimeout => Sys2Proof.Machine.execAccessRoundTimeout s
  | .poolLowTimerExpiry => Sys2Proof.Machine.execPoolLowTimerExpiry s
  | .holdOff => Sys2Proof.Machine.execHoldOff s
  | .holdOffTimerExpiry peer => Sys2Proof.Machine.execHoldOffTimerExpiry peer s
  | .announce => Sys2Proof.Machine.execAnnounce s
  | .state => Sys2Proof.Machine.execState s
  | .listenTimer => Sys2Proof.Machine.execListenTimer s
  | .stateTimer => Sys2Proof.Machine.execStateTimer s
  | .peerSilent peer => Sys2Proof.Machine.execPeerSilent peer s
  | .peerLost peer => Sys2Proof.Machine.execPeerLost peer s
  | .ctUnusable peer => Sys2Proof.Machine.execCtUnusable peer s
  | .ctUsable peer => Sys2Proof.Machine.execCtUsable peer s
  | .ctEpochChange peer => Sys2Proof.Machine.execCtEpochChange peer s
  | .reUnusable peer => Sys2Proof.Machine.execReUnusable peer s
  | .reUsable peer => Sys2Proof.Machine.execReUsable peer s
  | .reEpochChange peer => Sys2Proof.Machine.execReEpochChange peer s
  | .yuUnusable peer => Sys2Proof.Machine.execYuUnusable peer s
  | .yuUsable peer => Sys2Proof.Machine.execYuUsable peer s
  | .yuEpochChange peer => Sys2Proof.Machine.execYuEpochChange peer s
  | .ctIsolation => Sys2Proof.Machine.execCtIsolation s
  | .reIsolation => Sys2Proof.Machine.execReIsolation s
  | .rqIsolation => Sys2Proof.Machine.execRqIsolation s
  | .yuIsolation => Sys2Proof.Machine.execYuIsolation s
  | .telegramGapTimeout point => Sys2Proof.Machine.execTelegramGapTimeout point s
  | .inRequest point => Sys2Proof.Machine.execInRequest point s
  | .outRequest point => Sys2Proof.Machine.execOutRequest point s
  | .roadRequest point => Sys2Proof.Machine.execRoadRequest point s
  | .destRequest point => Sys2Proof.Machine.execDestRequest point s
  | .cancel point => Sys2Proof.Machine.execCancel point s
  | .unknownCodeTelegram point => Sys2Proof.Machine.execUnknownCodeTelegram point s
  | .refusalHoldExpiry point => Sys2Proof.Machine.execRefusalHoldExpiry point s
  | .slotLifetimeExpiry slot => Sys2Proof.Machine.execSlotLifetimeExpiry slot s
  | .outcome => Sys2Proof.Machine.execOutcome s
  | .cancelInstance inst => Sys2Proof.Machine.execCancelInstance inst s
  | .claim via => Sys2Proof.Machine.execClaim via s
  | .set via => Sys2Proof.Machine.execSet via s
  | .moveDone point => Sys2Proof.Machine.execMoveDone point s
  | .moveFail point => Sys2Proof.Machine.execMoveFail point s
  | .detectionLost point => Sys2Proof.Machine.execDetectionLost point s
  | .release via => Sys2Proof.Machine.execRelease via s
  | .reservedTimerExpiry claimId => Sys2Proof.Machine.execReservedTimerExpiry claimId s
  | .setTimerExpiry claimId => Sys2Proof.Machine.execSetTimerExpiry claimId s
  | .orphanClearExpiry claimId step => Sys2Proof.Machine.execOrphanClearExpiry claimId step s
  | .grant via => Sys2Proof.Machine.execGrant via s
  | .deny via => Sys2Proof.Machine.execDeny via s
  | .setDone via => Sys2Proof.Machine.execSetDone via s
  | .setFail via => Sys2Proof.Machine.execSetFail via s
  | .claimLost via => Sys2Proof.Machine.execClaimLost via s
  | .passed via => Sys2Proof.Machine.execPassed via s
  | .bidCall via => Sys2Proof.Machine.execBidCall via s
  | .bid via => Sys2Proof.Machine.execBid via s
  | .award via => Sys2Proof.Machine.execAward via s
  | .awardWithdraw via => Sys2Proof.Machine.execAwardWithdraw via s
  | .roadChange via => Sys2Proof.Machine.execRoadChange via s
  | .offerExpiry road => Sys2Proof.Machine.execOfferExpiry road s
  | .holdTimerExpiry road arrival => Sys2Proof.Machine.execHoldTimerExpiry road arrival s
  | .roadWriteDone => Sys2Proof.Machine.execRoadWriteDone s
  | .roadWriteFail => Sys2Proof.Machine.execRoadWriteFail s
  | .bidTimerExpiry inst => Sys2Proof.Machine.execBidTimerExpiry inst s
  | .roadWaitExpiry inst => Sys2Proof.Machine.execRoadWaitExpiry inst s
  | .awardWaitExpiry inst => Sys2Proof.Machine.execAwardWaitExpiry inst s
  | .claimWindowExpiry inst => Sys2Proof.Machine.execClaimWindowExpiry inst s
  | .setWindowExpiry inst => Sys2Proof.Machine.execSetWindowExpiry inst s
  | .approachTimerExpiry inst => Sys2Proof.Machine.execApproachTimerExpiry inst s
  | .releaseDelayExpiry inst => Sys2Proof.Machine.execReleaseDelayExpiry inst s
  | .runThroughExpiry inst => Sys2Proof.Machine.execRunThroughExpiry inst s
  | .retryTimerExpiry inst => Sys2Proof.Machine.execRetryTimerExpiry inst s
  | .inspect => Sys2Proof.Machine.execInspect s
  | .inspectReply => Sys2Proof.Machine.execInspectReply s
  | .event => Sys2Proof.Machine.execEvent s
  | .readerInputByte point value framed => Sys2Proof.Machine.execReaderInputByte point value framed s
  | .commaReceived align rd balance => Sys2Proof.Machine.execCommaReceived s align rd balance
  | .firstIdlePoint => Sys2Proof.Machine.execFirstIdlePoint s

end Sys2Proof.Machine
end

