-- ==== Sys2Proof/Machine/Step.lean ====
section
/-! DEFINITION. One step: the command at the front of the queue, or 1 ms where none waits (log entry 1). -/

namespace Sys2Proof.Machine

/-- One step of the block. -/
def step (s : State) : Host.Outcome State Fault Refusal :=
  match s.pending with
  | c :: rest => exec c { s with pending := rest }
  | [] => .next s.tick

/-- The state with the command that a table word spells put at the front of its queue (none of the table's rows has bits). -/
def State.withFetchWord (s : State) (nbits w : Nat) : State :=
  s.push (decodeTableWord nbits w)

end Sys2Proof.Machine
end

