-- ==== Sys2Proof/Safety.lean ====
section
/-! DEFINITION. The properties that statements about whole runs use: invariants of the state, and the views that statements read. -/

namespace Sys2Proof.Machine

/-! ## The configuration memory -/

/-- The memory keeps its canonical form, no more than four roads are described, the roads that wait for a write exist, and a road write
in hand covers exactly one of the four road records (R161, R177, R181). -/
def MemoryInv (s : State) : Prop :=
  Memory.wf s.mi.mem = true ∧ s.mi.desc.roads.length ≤ 4 ∧ s.yu.roads.length ≤ 4
    ∧ (∀ r ∈ s.yu.queue, r < 4) ∧ (∀ r l, s.mi.writing = some (r, l) → r < 4 ∧ l.length = 35)

/-! ## The frame store -/

/-- Buffers in assembly. -/
def LI.buffers (li : LI) : Nat :=
  if li.asm.isSome then 1 else 0

/-- Each of the 32 buffers is in the pool, in assembly, in an inbox or in handling by PT (R47); between commands the frame handler is
free, and a frame is in assembly only in IN_STEP (R41, R43). -/
def PoolInv (s : State) : Prop :=
  s.fs.free + s.li.buffers + s.fs.inbox.length + s.fs.ownFrames.length = 32
    ∧ s.fs.handler = none ∧ (s.li.asm.isSome = true → s.li.sync = .inStep)

/-- The active lists name each inbox that holds a frame exactly once, and no other (R49). -/
def ActiveInv (s : State) : Prop :=
  s.fs.active.Nodup ∧ ∀ k, k ∈ s.fs.active ↔ ∃ f ∈ s.fs.inbox, f.kind = k

/-- `f` stands before `g` in the transmit queue: lower level first, and within a level the older one (R51). -/
def TxFrame.before (f g : TxFrame) : Prop :=
  f.kind.level < g.kind.level ∨ (f.kind.level = g.kind.level ∧ f.age < g.age)

/-- The transmit queue holds up to 16 frames in the order of R51, with at most one STATE frame; and exactly the frames that R56 names
bear the deferred mark. -/
def QueueInv (s : State) : Prop :=
  s.fs.queue.length ≤ 16
    ∧ s.fs.queue.Pairwise TxFrame.before
    ∧ (∀ f ∈ s.fs.queue, f.age < s.fs.nextAge)
    ∧ (s.fs.queue.filter (fun f => f.kind == .state)).length ≤ 1
    ∧ s.fs.holdOff.length = 63
    ∧ (∀ f ∈ s.fs.queue, f.deferred = (deferrable f.kind.level f.dest && s.heldOff f.dest))

/-! ## The image -/

/-- A route of an image without any failure of R173: its entry, its steps, its local steps, its mouth flag and its destination. -/
def RawRoute.sound (m : RawImage) (node : Nat) (r : RawRoute) : Prop :=
  (∃ g d, m.signals[r.signal]? = some g ∧ r.dir = some d ∧ g.has d = true)
    ∧ r.steps.length ≤ 12 ∧ (∃ st rest, r.steps = st :: rest ∧ st.owner = node)
    ∧ (r.steps.map (fun st => (st.owner, st.sect))).Nodup ∧ (∀ st ∈ r.steps, st.sect < 16)
    ∧ (∀ st ∈ r.steps, st.owner = node → ∃ c, m.sects[st.sect]? = some c ∧ (c.role = .route ∨ c.role = .roadMouth)
        ∧ (∀ d ∈ st.demands, d.point ∈ c.points) ∧ (st.demands.map (·.point)).Nodup)
    ∧ (∀ st ∈ r.steps.dropLast, st.mouth = false) ∧ (r.cls ≠ some .runIn → ∀ st ∈ r.steps, st.mouth = false)
    ∧ ((r.cls = some .runIn ∧ ∃ n k, r.dest = some (.road n k)) ∨ (r.cls = some .runOut ∧ r.dest = some .line)
        ∨ (r.cls = some .shunt ∧ ∃ k, r.dest = some (.code k) ∧ 1 ≤ k ∧ k ≤ 15))

/-- An image without any failure of R173, row by row: counts, sections, points, signals, request points, roads, routes, and the
destinations of one entry signal. -/
def RawImage.sound (m : RawImage) (node : Nat) : Prop :=
  (1 ≤ m.sects.length ∧ m.sects.length ≤ 16 ∧ m.points.length ≤ 8 ∧ m.signals.length ≤ 8 ∧ m.reqPoints.length ≤ 8
      ∧ m.roads.length ≤ 4 ∧ m.routes.length ≤ 24)
    ∧ (∀ c ∈ m.sects, ∀ p ∈ c.points, p < m.points.length) ∧ (m.sects.flatMap (·.points)).Nodup
    ∧ (∀ (k : Nat) (p : PointCfg), m.points[k]? = some p → ∃ c, m.sects[p.sect]? = some c ∧ k ∈ c.points)
    ∧ (∀ (k : Nat) (g : SignalCfg), m.signals[k]? = some g → (g.left = true ∨ g.straight = true ∨ g.right = true)
        ∧ (∀ a, g.approach = some a → a < m.sects.length) ∧ (∀ p, g.reqPoint = some p → m.reqPoints[p]? = some k))
    ∧ (∀ k g : Nat, m.reqPoints[k]? = some g → ∃ c, m.signals[g]? = some c ∧ c.reqPoint = some k)
    ∧ (∀ r ∈ m.roads, (∃ c, m.sects[r.mouth]? = some c ∧ c.role = .roadMouth) ∧ (∃ c, m.sects[r.body]? = some c ∧ c.role = .roadBody)
        ∧ r.runOut < m.signals.length)
    ∧ (m.roads.map (·.mouth)).Nodup ∧ (m.roads.map (·.body)).Nodup ∧ (m.roads.map (·.runOut)).Nodup
    ∧ (∀ r ∈ m.routes, r.sound m node) ∧ m.routes.Pairwise (fun a b => a.signal = b.signal → a.dest ≠ b.dest)

/-! ## The Claim Table -/

/-- The Claim Table and the locks agree: there are 32 records and one lock for each configured section; the free list names each free
record exactly once, and no other (R93); a section is locked exactly by the one record in use that has a locked step on it (R94); no
record has two locked steps on one section; and there is no record before start-up has ended. -/
def ClaimInv (s : State) : Prop :=
  s.ct.records.length = 32 ∧ s.ct.locks.length = s.yard.sects.length
    ∧ s.ct.free.Nodup ∧ (∀ id, id ∈ s.ct.free ↔ s.ct.records[id]? = some none)
    ∧ (∀ k id, s.lock? k = some id ↔ ∃ c, s.claim? id = some c ∧ ∃ st ∈ c.steps, st.sect = k ∧ st.locked = true)
    ∧ (∀ id c, s.claim? id = some c → ((c.steps.filter (·.locked)).map (·.sect)).Nodup)
    ∧ (s.mi.startup ≠ .ended → s.pt.mode = .start ∧ ∀ id, s.claim? id = none)

/-! ## Views -/

/-- A receiver with an alignment reads groups that stand there, one after the other, as the symbols of `l`; none in `l` is a code
violation (R40, R41). -/
def readsAs (li : LI) (groups : List LineGroup) (l : List (Option LineSymbol)) : Prop :=
  (∀ g ∈ groups, g.align = li.align) ∧ readGroups li.disparity groups = l

/-- The notices that a window gives, for the levels `l` (R14): one for each configured section whose state changes, with the end time of
the window, which lies before the present by what the window clock has run beyond its 20 ms. -/
def sectChanges (l : Levels) (s : State) : List SectNotice :=
  (List.range s.du.sects.length).filterMap (fun k =>
    match s.yard.sects[k]?, s.du.sects[k]? with
    | some c, some r =>
      let after := (r.evaluate (windowReading c.single (l.chanA.getLsbD k) (l.chanB.getLsbD k))).state
      if after = r.state then none else some ⟨k, r.state, after, s.time - BitVec.ofNat 32 (s.windowMs - 20)⟩
    | _, _ => none)

/-- The reports to CT that a window evaluation of the points gives, for the contact levels (R22, R27; R19 for a retry). -/
def pointReports (n r : BitVec 8) (s : State) : List PuReport :=
  (List.range s.pu.points.length).filterMap (fun p =>
    match s.yard.points[p]?, s.pu.points[p]? with
    | some c, some x =>
      match (x.evaluate (contactReading (n.getLsbD p) (r.getLsbD p)) (1000 * c.travel)).2 with
      | .nothing => none
      | .moveDone => some (.moveDone p)
      | .detectionLost => if (s.lock? c.sect).isSome then some (.detectionLost p) else none
      | .retry =>
        if s.heldOccupied c.sect then some (.moveFail p .occupied)
        else if s.drivePermission c.sect then none
        else some (.moveFail p .withdrawn)
    | _, _ => none)

/-- The reports to CT where section `k` leaves CLEAR: MOVE_FAIL(OCCUPIED) for each of its points in motion (R25), in rising index (log
entry 33). -/
def stopReports (k : Nat) (s : State) : List PuReport :=
  (List.range s.pu.points.length).filterMap (fun p =>
    match s.yard.points[p]?, s.pu.points[p]? with
    | some c, some r => if c.sect = k ∧ (r.state = .moving ∨ r.state = .backing) then some (.moveFail p .occupied) else none
    | _, _ => none)

/-- What the evaluation of signal `g` gives, for the window's readings (R34, R36, R37). -/
def signalEffect (l : LampReadings) (s : State) (g : Nat) : SignalEffect :=
  match s.su.signals[g]? with
  | some x => (x.evaluate (l.usable g x)).2
  | none => .nothing

/-- The reports to RE that a window evaluation of the signals gives (R34, R36). -/
def signalReports (l : LampReadings) (s : State) : List SuReport :=
  (List.range s.su.signals.length).filterMap (fun g =>
    match signalEffect l s g with
    | .proved => some (.proved g)
    | .failed .proceed _ => some (.lampFault g)
    | _ => none)

/-- The outcome record that the slot of `d` gets with a code at this moment (R88). -/
def State.outcomeOf (s : State) (d : SlotData) (code : OutcomeCode) : OutcomeRec :=
  ⟨some d.serial, d.tram, d.signal, code, s.time⟩

/-- The outcome ring after records are written to it one after the other (R90). -/
def ringAfter (ring : List OutcomeRec) (records : List OutcomeRec) : List OutcomeRec :=
  records.foldl (fun ring r => (r :: ring).take 16) ring

/-- A CANCEL telegram concerns the slot of `d`: its point and its tram (R86). -/
def Telegram.concerns (m : Telegram) (d : SlotData) : Bool :=
  d.point == m.point && d.tram == wordAt m.bytes 0

/-- The outcome records of a CANCEL telegram in RUNNING, one for each QUEUED slot that it concerns, in rising index (R86, log entry 33). -/
def State.cancelRecords (s : State) (m : Telegram) : List OutcomeRec :=
  s.rq.slots.filterMap (fun x => match x with
    | .queued d => if m.concerns d then some (s.outcomeOf d (.cancelled .requested)) else none
    | .free | .active _ _ _ => none)

/-- The cancels of a CANCEL telegram in RUNNING, one for each ACTIVE slot without a mark that it concerns, in rising index (R86, log entry
33). -/
def State.cancelMessages (s : State) (m : Telegram) : List CancelMsg :=
  (List.range s.rq.slots.length).filterMap (fun i : Nat => match s.rq.slots[i]? with
    | some (.active d inst none) => if m.concerns d then some ⟨inst, i, d.serial, .requested⟩ else none
    | _ => none)

/-- The outcome records of the isolation of RQ, one for each slot in use, in rising index (R89). -/
def State.isolationRecords (s : State) : List OutcomeRec :=
  s.rq.slots.filterMap (fun x => x.data?.map (fun d => s.outcomeOf d (.cancelled .isolation)))

/-- A report becomes one EVENT frame (R167, R179): the next serial, the kind, the time and the fields, broadcast. -/
def State.eventSent (s : State) (kind : Nat) (fields : List Byte) : State :=
  ({ s with rp := { s.rp with serial := s.rp.serial + 1 } }).send .event 63
    (bytes2 (s.rp.serial + 1).toNat ++ [byte kind] ++ bytes4 s.time.toNat ++ fields)

/-- The fields of a ROAD_DOUBTFUL report: road, cause, tram or none (R167; the numbers of the causes are log entry 12). -/
def doubtFields (r : Nat) (cause : DoubtCause) (tram : Option Nat) : List Byte :=
  [byte r, byte cause.enum] ++ encOpt bytes2 tram

/-- The state in which records have been handed to RP, one after the other: the EVENT serial, the transmit queue and its counters have
followed them (R88, R167). -/
def State.reported (s : State) (records : List OutcomeRec) : State :=
  forEach records (fun r s => s.reportOutcome r) s

/-- The command by which RQ takes a request of a code (R78). -/
def requestCommand (c : ReqCode) (p : Nat) : Instr :=
  match c with
  | .inbound => .inRequest p
  | .outbound => .outRequest p
  | .road => .roadRequest p
  | .dest => .destRequest p

/-- The steps of a record that are locked and whose sections are CLEAR, by their index (R95). -/
def State.clearSteps (s : State) (c : Claim) : List Nat :=
  (List.range c.steps.length).filter (fun i => (c.steps[i]?).any (fun st => st.locked && s.sectClear st.sect))

/-- Every locked step of the record has a CLEAR section, and there is one: winding the record down frees it at once (R95). -/
def State.allClear (s : State) (c : Claim) : Bool :=
  c.steps.any (·.locked) && c.steps.all (fun st => !st.locked || s.sectClear st.sect)

/-- The oldest completed telegram of point `p` is `t`, good, of the sort `cls`, and `rest` is what waits behind it (R75, R76). -/
def State.hasTelegram (s : State) (p : Nat) (cls : TelClass) (t : Telegram) (rest : List Telegram) : Prop :=
  takeFirst (fun x : Telegram => x.point == p) s.rq.telegrams = some (t, rest) ∧ telClass (telCode t.bytes) = cls
    ∧ telegramFault t.bytes = none

end Sys2Proof.Machine

namespace Sys2Proof

/-! ## Which commands reach a piece of state -/

/-- A reset (R171): it reaches every piece of state. -/
def Instr.isReset : Instr → Bool
  | .powerOnReset | .pinReset => true
  | _ => false

/-- Beside the resets, the commands that may change the window clock or the outputs on the field (R5, R17). -/
def Instr.clocks : Instr → Bool
  | .resetRelease _ | .windowEnd _ => true
  | _ => false

/-- Beside the resets, the commands that may change the configuration memory (R175, R177). -/
def Instr.setsMemory : Instr → Bool
  | .epochWriteDone _ | .roadWriteDone | .roadWriteFail => true
  | _ => false

/-- Beside the resets, the commands that may change the mode, the node ID or the epoch (R58). -/
def Instr.setsMode : Instr → Bool
  | .resetRelease _ | .imageReadDone _ | .epochWriteDone _ | .roadRestore _ | .ownSourceFrame | .listenTimer => true
  | _ => false

/-- Beside the resets, the commands that may change a section record or a disturbance counter (R8, R13). -/
def Instr.setsSections : Instr → Bool
  | .roadRestore _ | .windowEnd _ => true
  | _ => false

/-- Beside the resets, the commands that may change a point record or its counters (R18). -/
def Instr.setsPoints : Instr → Bool
  | .roadRestore _ | .pointWindowEvaluation | .signalWindowEvaluation | .puSectionChange _ | .travelTimerExpiry _
  | .permissionEnd _ | .inRequest _ | .outRequest _ | .roadRequest _ | .destRequest _ | .outcome | .set _
  | .bidTimerExpiry _ | .awardWaitExpiry _ | .retryTimerExpiry _ => true
  | _ => false

/-- Beside the resets, the commands that may change a signal record (R31); WINDOW_END counts its exchange in each (R17). -/
def Instr.setsSignals : Instr → Bool
  | .roadRestore _ | .windowEnd _ | .signalWindowEvaluation | .proceedCommand _ | .stopCommand _ | .clearingTimerExpiry _
  | .trialTimerExpiry _ => true
  | _ => false

/-- Beside the resets, the commands that may change the line interface (R41, R43, R53, R54). -/
def Instr.setsLine : Instr → Bool
  | .startDelimiter _ _ _ | .oversizeDiscard _ | .lossOfSync _ _ | .lineQualityWindow _ | .frameReceived _ | .lineAccess _
  | .transmissionEnd | .accessRoundTimeout | .commaReceived _ _ _ | .firstIdlePoint => true
  | _ => false

/-- Beside the resets, the commands that may change a peer record (R62). -/
def Instr.setsPeers : Instr → Bool
  | .startDelimiter _ _ _ | .oversizeDiscard _ | .lossOfSync _ _ | .lineQualityWindow _ | .frameReceived _ | .announce
  | .state | .peerSilent _ | .peerLost _ | .commaReceived _ _ _ => true
  | _ => false

/-- Beside the resets, the commands that may change a request slot, a queue of them or the outcome ring (R81, R90). -/
def Instr.setsSlots : Instr → Bool
  | .signalWindowEvaluation | .reUnusable _ | .reEpochChange _ | .rqIsolation | .inRequest _ | .outRequest _
  | .roadRequest _ | .destRequest _ | .cancel _ | .unknownCodeTelegram _ | .slotLifetimeExpiry _ | .outcome
  | .grant _ | .deny _ | .setDone _ | .setFail _ | .claimLost _ | .passed _ | .bidTimerExpiry _ | .awardWaitExpiry _
  | .claimWindowExpiry _ | .setWindowExpiry _ | .retryTimerExpiry _ => true
  | _ => false

/-- Beside the resets, the commands that may change a claim record, a lock or the free list (R92, R93, R94). -/
def Instr.setsClaims : Instr → Bool
  | .roadRestore _ | .signalWindowEvaluation | .ctSectionChange _ | .ctUnusable _ | .ctUsable _ | .ctEpochChange _
  | .ctIsolation | .inRequest _ | .outRequest _ | .roadRequest _ | .destRequest _ | .outcome | .claim _ | .set _
  | .moveDone _ | .moveFail _ | .detectionLost _ | .release _ | .reservedTimerExpiry _ | .setTimerExpiry _
  | .orphanClearExpiry _ _ | .bidTimerExpiry _ | .awardWaitExpiry _ | .retryTimerExpiry _ => true
  | _ => false

/-- Beside the resets, the commands that may change a route instance or the call sequence (R121). -/
def Instr.setsInsts : Instr → Bool
  | .signalWindowEvaluation | .reSectionChange _ | .proved _ | .clearFail _ | .lampFault _ | .state | .reUnusable _
  | .reUsable _ | .reEpochChange _ | .reIsolation | .inRequest _ | .outRequest _ | .roadRequest _ | .destRequest _
  | .outcome | .cancelInstance _ | .grant _ | .deny _ | .setDone _ | .setFail _ | .claimLost _ | .passed _ | .bid _
  | .roadChange _ | .bidTimerExpiry _ | .roadWaitExpiry _ | .awardWaitExpiry _ | .claimWindowExpiry _
  | .setWindowExpiry _ | .approachTimerExpiry _ | .releaseDelayExpiry _ | .runThroughExpiry _ | .retryTimerExpiry _ => true
  | _ => false

/-- Beside the resets, the commands that may change a road record (R144, R145). -/
def Instr.setsRoads : Instr → Bool
  | .roadRestore _ | .signalWindowEvaluation | .ctSectionChange _ | .yuSectionChange _ | .ctUsable _
  | .ctEpochChange _ | .yuUnusable _ | .yuUsable _ | .yuEpochChange _ | .ctIsolation | .yuIsolation | .inRequest _
  | .outRequest _ | .roadRequest _ | .destRequest _ | .outcome | .claim _ | .set _ | .moveDone _ | .moveFail _
  | .release _ | .reservedTimerExpiry _ | .setTimerExpiry _ | .orphanClearExpiry _ _ | .bidCall _ | .award _
  | .awardWithdraw _ | .offerExpiry _ | .holdTimerExpiry _ _ | .bidTimerExpiry _ | .awardWaitExpiry _
  | .retryTimerExpiry _ => true
  | _ => false

end Sys2Proof
end

