-- ==== Sys2Proof/Certificates/Slice0/Obligations.lean ====
section
/-! DEFINITION. The statements for the provers, block by block. -/

open Sys2Proof Sys2Proof.Machine

/-! ## The machine as a whole -/

/-- A step takes the command at the front of the queue: it is `exec` of it on the state with the queue's rest (log entry 1). -/
def Obligations.StepRunsFrontCommand : Prop :=
  ∀ (c : Instr) (rest : List Instr) (s : State),
    step { s with pending := c :: rest } = exec c { s with pending := rest }

/-- On an empty queue a step is 1 ms of the time base (the model's choice, log entry 1): nothing while RESET is held; otherwise the time
base and the window clock advance, each running timer counts 1 ms up to its limit, and nothing else changes. -/
def Obligations.IdleStepIsOneMillisecond : Prop :=
  ∀ s : State, s.pending = [] →
    (s.mi.startup = .held → step s = .next s)
    ∧ (s.mi.startup ≠ .held → ∃ t : State, step s = .next t
        ∧ t.time = s.time + 1 ∧ t.windowMs = s.windowMs + 1
        ∧ t.pt = { s.pt with listen := tickTimer s.pt.listen, stateMs := s.pt.stateMs.map (· + 1) }
        ∧ t.fs = { s.fs with poolTimer := tickTimer s.fs.poolTimer }
        ∧ t.pu = { s.pu with points := s.pu.points.map (fun r => { r with travel := tickTimer r.travel }) }
        ∧ t.su = { s.su with signals := s.su.signals.map (fun r => { r with
            clearing := tickTimer r.clearing
            trial := r.trial.map (fun x => (x.1, ⟨min (x.2.elapsed + 1) x.2.limit, x.2.limit⟩)) }) }
        ∧ t.rq = { s.rq with points := s.rq.points.map (fun r => { r with gap := tickTimer r.gap }) }
        ∧ t.re = { s.re with insts := s.re.insts.map (Option.map (fun x => { x with
            timers := ⟨tickTimer x.timers.bid, tickTimer x.timers.roadWait, tickTimer x.timers.awardWait, tickTimer x.timers.claim,
              tickTimer x.timers.set, tickTimer x.timers.approach, tickTimer x.timers.runThrough, tickTimer x.timers.delay,
              tickTimer x.timers.retry⟩ })) }
        ∧ t.ct = { s.ct with records := s.ct.records.map (Option.map (fun c => { c with
            reservedT := tickTimer c.reservedT, setT := tickTimer c.setT
            steps := c.steps.map (fun st => { st with orphan := tickTimer st.orphan }) })) }
        ∧ t.yu = { s.yu with roads := s.yu.roads.map (fun r => { r with
            arrivals := r.arrivals.map (fun a => { a with hold := tickTimer a.hold }) }) }
        ∧ t = { s with time := t.time, windowMs := t.windowMs, pt := t.pt, fs := t.fs, pu := t.pu, su := t.su, rq := t.rq, re := t.re,
                       ct := t.ct, yu := t.yu })

/-- Every command answers a next state, from every state: the part has no fault that stops it; and no command touches the commands that
wait behind it. -/
def Obligations.EveryCommandCompletes : Prop :=
  ∀ (c : Instr) (s : State), ∃ t : State, exec c s = .next t ∧ t.pending = s.pending

/-- The invariants hold right after reset: the memory law, the law of the frame buffers, the law of the active lists, the law of the
transmit queue and the law of the Claim Table. -/
def Obligations.InvariantsHoldAtReset : Prop :=
  MemoryInv State.reset ∧ PoolInv State.reset ∧ ActiveInv State.reset ∧ QueueInv State.reset ∧ ClaimInv State.reset

/-- Every step keeps the memory law: whatever the part writes, the configuration memory stays in its canonical form inside its 8192
bytes, and each road write in hand covers one of the four road records. -/
def Obligations.StepKeepsMemoryForm : Prop :=
  ∀ s t : State, MemoryInv s → step s = .next t → MemoryInv t

/-- Every step keeps each of the 32 frame buffers in exactly one place, with the frame handler free between commands (R43, R47); and
every step keeps the active lists: they name each inbox that holds a frame exactly once, and no other (R49, R50). -/
def Obligations.StepKeepsFrameStoreLaws : Prop :=
  (∀ s t : State, PoolInv s → step s = .next t → PoolInv t) ∧ (∀ s t : State, ActiveInv s → step s = .next t → ActiveInv t)

/-- Every step keeps the transmit queue's law: at most 16 frames, ordered by level and age, at most one STATE frame, and the deferred
mark on exactly the frames at level 2 or 3 to a single node whose hold-off timer runs. -/
def Obligations.StepKeepsTransmitQueueLaw : Prop :=
  ∀ s t : State, QueueInv s → step s = .next t → QueueInv t

/-- Every step keeps the Claim Table and its locks in agreement: no two claims lock one section, and each section is locked exactly by
the record whose locked step names it; the free list names the free records; before start-up has ended no record is in use. -/
def Obligations.StepKeepsClaimTable : Prop :=
  ∀ s t : State, ClaimInv s → step s = .next t → ClaimInv t

/-! ## Sections (R4 to R16) -/

/-- Window readings of a two-channel section. -/
def Obligations.TwoChannelReading : Prop :=
  windowReading false false false = .occ ∧ windowReading false true true = .clr
    ∧ windowReading false false true = .dis ∧ windowReading false true false = .dis

/-- What one window reading does to a section: the table that gathers R9 to R11; and a single-channel section never enters DISTURBED. -/
def Obligations.SectionStateTable : Prop :=
  ∀ c d : Nat,
    (SectRec.mk .clear c d).evaluate .occ = ⟨.occupied, 0, 0⟩
    ∧ (SectRec.mk .clear c d).evaluate .clr = ⟨.clear, 0, 0⟩
    ∧ (SectRec.mk .clear c d).evaluate .dis = (if d + 1 < 3 then ⟨.clear, 0, d + 1⟩ else ⟨.disturbed, 0, 0⟩)
    ∧ (SectRec.mk .occupied c d).evaluate .occ = ⟨.occupied, 0, 0⟩
    ∧ (SectRec.mk .occupied c d).evaluate .clr = (if c + 1 < 3 then ⟨.occupied, c + 1, 0⟩ else ⟨.clear, 0, 0⟩)
    ∧ (SectRec.mk .occupied c d).evaluate .dis = (if d + 1 < 3 then ⟨.occupied, 0, d + 1⟩ else ⟨.disturbed, 0, 0⟩)
    ∧ (SectRec.mk .disturbed c d).evaluate .occ = ⟨.occupied, 0, 0⟩
    ∧ (SectRec.mk .disturbed c d).evaluate .clr = (if c + 1 < 5 then ⟨.disturbed, c + 1, 0⟩ else ⟨.clear, 0, 0⟩)
    ∧ (SectRec.mk .disturbed c d).evaluate .dis = ⟨.disturbed, 0, 0⟩
    ∧ (∀ (st : SectState) (a b : Bool), st ≠ .disturbed →
        ((SectRec.mk st c d).evaluate (windowReading true a b)).state ≠ .disturbed)

/-- WINDOW_END in a window that evaluates: the exchange sends the outputs; every configured section evaluates its own reading; the
disturbance counter advances on each entry into DISTURBED alone; one notice for each change goes to each of CT, PU, RE and YU; the
readings go to PU and SU, which counts the exchange for each lit lamp (R17); each entry into DISTURBED is reported, with the
state left and the counter, in rising index (R15, R167, log entry 33); the rest of those blocks and everything else is unchanged. -/
def Sys2Proof.Clause.WindowEndEvaluatesEverySection : Prop :=
  ∀ (l : Levels) (s : State), s.mi.startup ≠ .held → 20 ≤ s.windowMs → s.pt.mode.active = true → s.oldWindows = 0 →
    ∃ t : State, exec (.windowEnd l) s = .next t
      ∧ t.windowMs = s.windowMs - 20
      ∧ t.field = ⟨s.pu.points.map (·.drive), s.su.signals.map (·.lit)⟩
      ∧ (∀ (k : Nat) (c : SectCfg) (r : SectRec), s.yard.sects[k]? = some c → s.du.sects[k]? = some r →
          let after := r.evaluate (windowReading c.single (l.chanA.getLsbD k) (l.chanB.getLsbD k))
          t.du.sects[k]? = some after
            ∧ t.du.disturb[k]? = (if after.state = .disturbed ∧ r.state ≠ .disturbed then (s.du.disturb[k]?).map bump
                else s.du.disturb[k]?))
      ∧ (∀ k : Nat, s.yard.sects[k]? = none ∨ s.du.sects[k]? = none →
          t.du.sects[k]? = s.du.sects[k]? ∧ t.du.disturb[k]? = s.du.disturb[k]?)
      ∧ t.ct = { s.ct with notices := s.ct.notices ++ sectChanges l s }
      ∧ t.re = { s.re with notices := s.re.notices ++ sectChanges l s }
      ∧ t.yu = { s.yu with notices := s.yu.notices ++ sectChanges l s }
      ∧ t.pu = { s.pu with notices := s.pu.notices ++ sectChanges l s, readings := some (l.contactN, l.contactR) }
      ∧ t.su = { s.su with
          readings := some ⟨l.lampStop, l.lampLeft, l.lampStraight, l.lampRight⟩
          signals := s.su.signals.map (fun x => { x with sent := min 2 (x.sent + 1) }) }
      ∧ t = forEach (List.range s.du.sects.length) (fun k u => match s.yard.sects[k]?, s.du.sects[k]? with
          | some c, some r =>
            let after := r.evaluate (windowReading c.single (l.chanA.getLsbD k) (l.chanB.getLsbD k))
            if after.state = .disturbed ∧ r.state ≠ .disturbed
            then u.eventSent 4 ([byte k, byte r.state.code] ++ bytes2 ((s.du.disturb.modify k bump).getD k 0).toNat) else u
          | _, _ => u)
            { s with windowMs := t.windowMs, field := t.field, du := t.du, ct := t.ct, re := t.re, yu := t.yu, pu := t.pu, su := t.su }

/-! ## Points (R18 to R28) -/

/-- A move order: each row of R21. A permission-end notice that waits for the point is taken before the order (the model's choice, log
entry 4); where none waits, nothing comes before it. -/
def Obligations.MoveOrderTable : Prop :=
  ∀ (p : Nat) (target : Position) (s : State) (c : PointCfg) (r : PointRec),
    s.yard.points[p]? = some c → (s.settlePermission p).pu.points[p]? = some r →
    let u := s.settlePermission p
    (s.pu.permEnds.contains p = false → u = s)
    ∧ (s.heldOccupied c.sect = true → s.moveOrder p target = u.reportToCt (.moveFail p .occupied))
    ∧ (s.heldOccupied c.sect = false → s.drivePermission c.sect = false →
        s.moveOrder p target = u.reportToCt (.moveFail p .withdrawn))
    ∧ (s.drivePermission c.sect = true →
        (r.state = target.detected → s.moveOrder p target = u.reportToCt (.moveDone p))
        ∧ (r.state = target.other.detected → ∃ t, s.moveOrder p target = t
            ∧ t.pu.points[p]? = some ⟨.moving, some target, some target.other, false, target.drive, some ⟨0, 1000 * c.travel⟩,
                0, 0, false, 0, none, 0⟩
            ∧ (∀ q : Nat, q ≠ p → t.pu.points[q]? = u.pu.points[q]?)
            ∧ t.pu.moves = u.pu.moves.modify p bump
            ∧ t = { u with pu := { u.pu with points := t.pu.points, moves := t.pu.moves } })
        ∧ (r.state = .moving ∨ r.state = .backing → r.target = some target → s.moveOrder p target = u)
        ∧ (r.state = .moving ∨ r.state = .backing → r.target ≠ some target →
            s.moveOrder p target = u.reportToCt (.moveFail p .busy))
        ∧ (r.state = .noDet ∨ r.state = .bothDet ∨ r.state = .failed →
            s.moveOrder p target = u.reportToCt (.moveFail p .fault)))

/-- What one contact reading does to a point in MOVING (R22) and in BACKING (R23). -/
def Sys2Proof.Clause.MovingAndBackingReadings : Prop :=
  ∀ (r : PointRec) (c : Contact) (target start : Position) (travelMs : Nat), r.target = some target → r.start = some start →
    (r.state = .moving → c = target.contact → 1 ≤ r.seekRun →
      r.evaluate c travelMs = (PointRec.rest target.detected, .moveDone))
    ∧ (r.state = .moving → c = target.contact → r.seekRun = 0 → r.evaluate c travelMs = ({ r with seekRun := 1 }, .nothing))
    ∧ (r.state = .moving → c ≠ target.contact → r.evaluate c travelMs = ({ r with seekRun := 0 }, .nothing))
    ∧ (r.state = .backing → c = start.contact → 1 ≤ r.seekRun →
        r.evaluate c travelMs = (PointRec.driving .moving target start target true travelMs, .retry))
    ∧ (r.state = .backing → c = start.contact → r.seekRun = 0 → r.evaluate c travelMs = ({ r with seekRun := 1 }, .nothing))
    ∧ (r.state = .backing → c ≠ start.contact → r.evaluate c travelMs = ({ r with seekRun := 0 }, .nothing))

/-- A detected point loses its position with the second reading that is not its own contact alone: BOTH_DET where both readings were
BOTH, otherwise NO_DET (R27). -/
def Sys2Proof.Clause.DetectedPointLosesPosition : Prop :=
  ∀ (r : PointRec) (own : Position) (c : Contact) (travelMs : Nat), r.state = own.detected →
    (c = own.contact → r.evaluate c travelMs = ({ r with lossRun := 0, lossBoth := false }, .nothing))
    ∧ (c ≠ own.contact → r.lossRun = 0 →
        r.evaluate c travelMs = ({ r with lossRun := 1, lossBoth := c == .both }, .nothing))
    ∧ (c ≠ own.contact → 1 ≤ r.lossRun → c = .both → r.lossBoth = true →
        r.evaluate c travelMs = (PointRec.rest .bothDet, .detectionLost))
    ∧ (c ≠ own.contact → 1 ≤ r.lossRun → c ≠ .both ∨ r.lossBoth = false →
        r.evaluate c travelMs = (PointRec.rest .noDet, .detectionLost))

/-- A point in NO_DET, BOTH_DET or FAILED recovers with its third reading of one contact alone; two readings of BOTH lead from NO_DET to
BOTH_DET, two of NONE from BOTH_DET to NO_DET, the first of them advancing the fault run; NONE in NO_DET and BOTH in BOTH_DET set the
runs to 0; FAILED has no other way out (R28). -/
def Sys2Proof.Clause.RecoveryAndFaultRuns : Prop :=
  ∀ (r : PointRec) (travelMs : Nat), r.state = .noDet ∨ r.state = .bothDet ∨ r.state = .failed →
    (∀ pos : Position, r.recContact = some pos → 2 ≤ r.recRun →
        r.evaluate pos.contact travelMs = (PointRec.rest pos.detected, .nothing))
    ∧ (∀ pos : Position, r.recContact = some pos → r.recRun ≤ 1 →
        r.evaluate pos.contact travelMs = ({ r with recRun := r.recRun + 1, faultRun := 0 }, .nothing))
    ∧ (∀ pos : Position, r.recContact ≠ some pos →
        r.evaluate pos.contact travelMs = ({ r with recRun := 1, recContact := some pos, faultRun := 0 }, .nothing))
    ∧ (r.state = .noDet → r.faultRun = 0 →
        r.evaluate .both travelMs = ({ r with recRun := 0, recContact := none, faultRun := 1 }, .nothing))
    ∧ (r.state = .bothDet → r.faultRun = 0 →
        r.evaluate .neither travelMs = ({ r with recRun := 0, recContact := none, faultRun := 1 }, .nothing))
    ∧ (r.state = .noDet → r.evaluate .neither travelMs = ({ r with recRun := 0, recContact := none, faultRun := 0 }, .nothing))
    ∧ (r.state = .bothDet → r.evaluate .both travelMs = ({ r with recRun := 0, recContact := none, faultRun := 0 }, .nothing))
    ∧ (r.state = .noDet → 1 ≤ r.faultRun → r.evaluate .both travelMs = (PointRec.rest .bothDet, .nothing))
    ∧ (r.state = .bothDet → 1 ≤ r.faultRun → r.evaluate .neither travelMs = (PointRec.rest .noDet, .nothing))
    ∧ (r.state = .failed → ∀ c : Contact, c = .both ∨ c = .neither →
        r.evaluate c travelMs = ({ r with recRun := 0, recContact := none, faultRun := 0 }, .nothing))

/-- What each contact reading does to a point, state by state (R22, R23, R27, R28). -/
def Obligations.PointReadingTables : Prop :=
  Clause.MovingAndBackingReadings ∧ Clause.DetectedPointLosesPosition ∧ Clause.RecoveryAndFaultRuns

/-- POINT_WINDOW_EVALUATION: every configured point evaluates its own contact reading, and the reports go to CT in index order (the
model's choice, log entry 33); a retry whose drive permission is missing ends the move in NO_DET instead (R19; how it ends is log entry
35); nothing else changes. -/
def Obligations.PointWindowEvaluatesEveryPoint : Prop :=
  ∀ (s : State) (n r : BitVec 8), s.pu.readings = some (n, r) →
    ∃ t : State, exec .pointWindowEvaluation s = .next t
      ∧ t.pu.readings = none
      ∧ (∀ (p : Nat) (c : PointCfg) (x : PointRec), s.yard.points[p]? = some c → s.pu.points[p]? = some x →
          let e := x.evaluate (contactReading (n.getLsbD p) (r.getLsbD p)) (1000 * c.travel)
          t.pu.points[p]? = some (if e.2 = .retry ∧ s.drivePermission c.sect = false then PointRec.rest .noDet else e.1))
      ∧ t = { s with
          pu := { s.pu with points := t.pu.points, readings := none }
          ct := { s.ct with reports := s.ct.reports ++ pointReports n r s } }

/-- TRAVEL_TIMER_EXPIRY: the first try turns back where the drive permission stands, and ends in NO_DET with MOVE_FAIL where it is missing
(R19; how it ends is log entry 35); a back-drive or a retry that runs out fails the point, with its counter, its
MOVE_FAIL(TIMEOUT) and its point-failure report, an EVENT frame with the point, the target, the phase (0 RETRY, 1 BACKING: log entry 12)
and the failure counter (R23, R24, R30, R167). -/
def Obligations.TravelTimerExpiryBacksOrFails : Prop :=
  ∀ (p : Nat) (s : State) (c : PointCfg) (r : PointRec) (target start : Position),
    s.yard.points[p]? = some c → s.pu.points[p]? = some r → due r.travel = true → r.target = some target → r.start = some start →
    (r.state = .moving → r.retry = false → s.drivePermission c.sect = false → ∃ t : State, exec (.travelTimerExpiry p) s = .next t
      ∧ t.pu.points[p]? = some (PointRec.rest .noDet)
      ∧ (∀ q : Nat, q ≠ p → t.pu.points[q]? = s.pu.points[q]?)
      ∧ t = { s with
          pu := { s.pu with points := t.pu.points }
          ct := { s.ct with reports := s.ct.reports
                    ++ [.moveFail p (if s.heldOccupied c.sect = true then .occupied else .withdrawn)] } })
    ∧ (r.state = .moving → r.retry = false → s.drivePermission c.sect = true → ∃ t : State, exec (.travelTimerExpiry p) s = .next t
      ∧ t.pu.points[p]? = some (PointRec.driving .backing target start start false (1000 * c.travel))
      ∧ (∀ q : Nat, q ≠ p → t.pu.points[q]? = s.pu.points[q]?)
      ∧ t = { s with pu := { s.pu with points := t.pu.points } })
    ∧ (r.state = .backing ∨ (r.state = .moving ∧ r.retry = true) → ∃ t : State, exec (.travelTimerExpiry p) s = .next t
      ∧ t.pu.points[p]? = some (PointRec.rest .failed)
      ∧ (∀ q : Nat, q ≠ p → t.pu.points[q]? = s.pu.points[q]?)
      ∧ t.pu = { s.pu with points := t.pu.points, fails := s.pu.fails.modify p bump }
      ∧ t.ct = { s.ct with reports := s.ct.reports ++ [.moveFail p .timeout] }
      ∧ t.rp.serial = s.rp.serial + 1
      ∧ t = ({ s with pu := t.pu, ct := t.ct }).eventSent 2 ([byte p, byte target.code, byte (if r.state = PointState.backing then 1 else 0)]
          ++ bytes2 ((s.pu.fails.modify p bump).getD p 0).toNat))

/-- PERMISSION_END stops a point in motion, and does nothing to any other (R26). -/
def Sys2Proof.Clause.PermissionEndStopsAMovingPoint : Prop :=
  ∀ (p : Nat) (s : State) (r : PointRec), s.pu.permEnds.contains p = true → s.pu.points[p]? = some r →
    ∃ t : State, exec (.permissionEnd p) s = .next t
      ∧ t.pu.permEnds = s.pu.permEnds.erase p
      ∧ (r.state = .moving ∨ r.state = .backing →
          t.pu.points[p]? = some (PointRec.rest .noDet)
          ∧ (∀ q : Nat, q ≠ p → t.pu.points[q]? = s.pu.points[q]?)
          ∧ t = { s with
              pu := { s.pu with permEnds := t.pu.permEnds, points := t.pu.points }
              ct := { s.ct with reports := s.ct.reports ++ [.moveFail p .withdrawn] } })
      ∧ (r.state ≠ .moving → r.state ≠ .backing → t = { s with pu := { s.pu with permEnds := t.pu.permEnds } })

/-- PU_SECTION_CHANGE: PU takes its oldest notice about the section; where the section leaves CLEAR, every point of it that is in
motion stops in NO_DET, with MOVE_FAIL(OCCUPIED), and its counters stay (R25, R29); several in rising index (log entry 33). -/
def Sys2Proof.Clause.SectionLeavingClearStopsItsPoints : Prop :=
  ∀ (k : Nat) (s : State) (n : SectNotice) (rest : List SectNotice),
    takeFirst (fun x => x.sect == k) s.pu.notices = some (n, rest) →
    ∃ t : State, exec (.puSectionChange k) s = .next t
      ∧ (∀ (p : Nat) (c : PointCfg) (r : PointRec), s.yard.points[p]? = some c → s.pu.points[p]? = some r →
          t.pu.points[p]? = some (if n.before = .clear ∧ n.after ≠ .clear ∧ c.sect = n.sect
              ∧ (r.state = .moving ∨ r.state = .backing) then PointRec.rest .noDet else r))
      ∧ t.ct.reports = s.ct.reports ++ (if n.before = .clear ∧ n.after ≠ .clear then stopReports n.sect s else [])
      ∧ t = { s with
          pu := { s.pu with notices := rest, points := t.pu.points }
          ct := { s.ct with reports := t.ct.reports } }

/-- The notices that stop a point in motion (R25, R26). -/
def Obligations.NoticesStopMovingPoints : Prop :=
  Clause.PermissionEndStopsAMovingPoint ∧ Clause.SectionLeavingClearStopsItsPoints

/-! ## Signals (R31 to R38) -/

/-- PROCEED_COMMAND: each row of R33, for the oldest command of the signal. A lamp that SU lights has been sent by no exchange yet (R17, log
entry 50). -/
def Obligations.ProceedCommandTable : Prop :=
  ∀ (g : Nat) (d : Direction) (s : State) (c : SignalCfg) (r : SignalRec) (rest : List SuCommand) (g' : Nat),
    s.yard.signals[g]? = some c → s.su.signals[g]? = some r →
    takeFirst (fun x => x.signal == g) s.su.commands = some (.proceed g' d, rest) →
    ∃ t : State, exec (.proceedCommand g) s = .next t
      ∧ (∀ h : Nat, h ≠ g → t.su.signals[h]? = s.su.signals[h]?)
      ∧ (r.state = .stop → c.has d = true →
          t.su.signals[g]? = some ⟨.clearing, some d, some d.lamp, 0, 0, some ⟨0, 100⟩, none, 0⟩ ∧ t.re = s.re)
      ∧ (r.state = .stop → c.has d = false →
          t.su.signals[g]? = some r ∧ t.re = { s.re with reports := s.re.reports ++ [.clearFail g] })
      ∧ (r.state = .clearing ∨ r.state = .proceed → r.dir = some d → t.su.signals[g]? = some r ∧ t.re = s.re)
      ∧ (r.state = .clearing ∨ r.state = .proceed → r.dir ≠ some d →
          t.su.signals[g]? = some ⟨.stop, none, some .stop, 0, 0, none, none, 0⟩
          ∧ t.re = { s.re with reports := s.re.reports ++ [.clearFail g] })
      ∧ (r.state = .lampFault →
          t.su.signals[g]? = some r ∧ t.re = { s.re with reports := s.re.reports ++ [.clearFail g] })
      ∧ t = { s with su := { s.su with commands := rest, signals := t.su.signals }, re := t.re }

/-- STOP_COMMAND: CLEARING and PROCEED go to STOP, without a report, the STOP lamp sent by no exchange yet (R17, log entry 50);
STOP and LAMP_FAULT stay (R35). -/
def Sys2Proof.Clause.StopCommandShowsStop : Prop :=
  ∀ (g g' : Nat) (s : State) (r : SignalRec) (rest : List SuCommand), s.su.signals[g]? = some r →
    takeFirst (fun x => x.signal == g) s.su.commands = some (.stop g', rest) →
    ∃ t : State, exec (.stopCommand g) s = .next t
      ∧ t.su.signals[g]? = some (if r.state = .clearing ∨ r.state = .proceed then ⟨.stop, none, some .stop, 0, 0, none, none, 0⟩ else r)
      ∧ (∀ h : Nat, h ≠ g → t.su.signals[h]? = s.su.signals[h]?)
      ∧ t = { s with su := { s.su with commands := rest, signals := t.su.signals } }

/-- CLEARING_TIMER_EXPIRY after 100 ms in CLEARING: STOP, and CLEAR_FAIL to RE (R34); TRIAL_TIMER_EXPIRY in LAMP_FAULT: the STOP lamp is
lit for 100 ms after 1000 ms dark, and put off again (R37). A lamp lit here has been sent by no exchange yet (R17, log entry 50). -/
def Sys2Proof.Clause.SignalTimersExpire : Prop :=
  ∀ (g : Nat) (s : State) (r : SignalRec), s.su.signals[g]? = some r →
    (r.state = .clearing → due r.clearing = true → ∃ t : State, exec (.clearingTimerExpiry g) s = .next t
      ∧ t.su.signals = s.su.signals.set g ⟨.stop, none, some .stop, 0, 0, none, none, 0⟩
      ∧ t = { s with su := { s.su with signals := t.su.signals }, re := { s.re with reports := s.re.reports ++ [.clearFail g] } })
    ∧ (∀ e, r.state = .lampFault → r.trial = some (.dark, e) → e.limit ≤ e.elapsed → ∃ t : State, exec (.trialTimerExpiry g) s = .next t
      ∧ t.su.signals = s.su.signals.set g { r with lit := some .stop, proof := 0, trial := some (.lit, ⟨0, 100⟩), sent := 0 }
      ∧ t = { s with su := { s.su with signals := t.su.signals } })
    ∧ (∀ e, r.state = .lampFault → r.trial = some (.lit, e) → e.limit ≤ e.elapsed → ∃ t : State, exec (.trialTimerExpiry g) s = .next t
      ∧ t.su.signals = s.su.signals.set g { r with lit := none, trial := some (.dark, ⟨0, 1000⟩) }
      ∧ t = { s with su := { s.su with signals := t.su.signals } })

/-- STOP commands, and the timers of a signal (R34, R35, R37). -/
def Obligations.StopCommandsAndSignalTimers : Prop :=
  Clause.StopCommandShowsStop ∧ Clause.SignalTimersExpire

/-- What one lamp-proving reading that counts does to a signal (R34, R36, R37); where none counts, nothing (R17). -/
def Sys2Proof.Clause.LampReadingTable : Prop :=
  ∀ (r : SignalRec) (lamp : Lamp), r.lit = some lamp →
    r.evaluate none = (r, .nothing)
    ∧ (r.state = .clearing → r.proof = 0 → r.evaluate (some true) = ({ r with proof := 1 }, .nothing))
    ∧ (r.state = .clearing → 1 ≤ r.proof →
        r.evaluate (some true) = ({ r with state := .proceed, proof := 0, dark := 0, clearing := none }, .proved))
    ∧ (r.state = .clearing ∨ r.state = .lampFault → r.evaluate (some false) = ({ r with proof := 0 }, .nothing))
    ∧ (r.state = .stop ∨ r.state = .proceed → r.evaluate (some true) = ({ r with dark := 0 }, .nothing))
    ∧ (r.state = .stop ∨ r.state = .proceed → r.dark = 0 → r.evaluate (some false) = ({ r with dark := 1 }, .nothing))
    ∧ (r.state = .stop ∨ r.state = .proceed → 1 ≤ r.dark →
        r.evaluate (some false) = (⟨.lampFault, none, none, 0, 0, none, some (.dark, ⟨0, 1000⟩), 0⟩, .failed r.state lamp))
    ∧ (r.state = .lampFault → r.proof ≤ 1 → r.evaluate (some true) = ({ r with proof := r.proof + 1 }, .nothing))
    ∧ (r.state = .lampFault → 2 ≤ r.proof →
        r.evaluate (some true) = (⟨.stop, none, some .stop, 0, 0, none, none, r.sent⟩, .recovered))

/-! ## The line and the frame store (R40 to R57) -/

/-- START_DELIMITER, a code word of the disparity expected, at the alignment taken, in CHECK or IN_STEP with no frame in assembly: a free
buffer is taken for the new frame; an empty pool gives a NO_BUFFER discard, which counts a new burst unless the previous start delimiter
found no buffer either. In HUNT it is not recognised; at another alignment it is none of the groups decoded (log entry 34); a code word
of the opposite disparity in CHECK is a code violation and leads to HUNT (R40, R41, R43, R47). -/
def Sys2Proof.Clause.StartDelimiterAsksForABuffer : Prop :=
  ∀ (s : State) (align : Fin 10) (rd : Disparity) (b : Balance), s.receives = true → s.li.asm = none →
    let g : LineGroup := ⟨align, .word .startDelim rd, b⟩
    let read := s.li.sync ≠ .hunt ∧ align = s.li.align ∧ rd = s.li.disparity
    ∃ t : State, exec (.startDelimiter align rd b) s = .next t
      ∧ t.li.access = .waiting
      ∧ (s.li.sync = .hunt ∨ align ≠ s.li.align → t = { s with li := { s.li with access := .waiting } })
      ∧ (s.li.sync = .check → align = s.li.align → rd ≠ s.li.disparity →
          t = { s with li := { s.li.countSymbol true with
            access := .waiting, sync := .hunt, disparity := disparityAfter s.li.disparity g } })
      ∧ (read → 0 < s.fs.free →
          t.li.sync = .inStep ∧ t.li.violRun = 0 ∧ t.li.asm = some ⟨[], false⟩ ∧ t.li.disparity = disparityAfter rd g
          ∧ t.fs.free = s.fs.free - 1 ∧ t.fs.lastStart = some true
          ∧ (s.fs.free ≠ 6 → t.cnt = s.cnt ∧ t.fs.queue = s.fs.queue ∧ t.fs.poolLow = s.fs.poolLow))
      ∧ (read → s.fs.free = 0 →
          t.li.sync = .inStep ∧ t.li.violRun = 0 ∧ t.li.asm = none ∧ t.li.disparity = disparityAfter rd g
          ∧ t.fs = { s.fs with lastStart := some false }
          ∧ t.cnt.noBuffer = bump s.cnt.noBuffer
          ∧ t.cnt.noBufferBursts = (if s.fs.lastStart = some false then s.cnt.noBufferBursts else bump s.cnt.noBufferBursts))
      ∧ t = { s with li := t.li, fs := t.fs, cnt := t.cnt }

/-- COMMA_RECEIVED: in HUNT, at any bit alignment and of either disparity, it leads to CHECK, and alignment and running disparity are
taken from it; of the disparity expected, at the alignment taken, CHECK stays, and in IN_STEP a frame in assembly is discarded with
cause CODE and its buffer returns to the pool; the code word of the opposite disparity in CHECK leads to HUNT (R40, R41, R43). -/
def Sys2Proof.Clause.CommaResynchronisesOrDiscards : Prop :=
  ∀ (s : State) (align : Fin 10) (rd : Disparity) (b : Balance), s.receives = true →
    let g : LineGroup := ⟨align, .word .comma rd, b⟩
    ∃ t : State, exec (.commaReceived align rd b) s = .next t
      ∧ (s.li.sync = .hunt → t = { s with li := { s.li with
          access := .waiting, sync := .check, align := align, disparity := disparityAfter rd g } })
      ∧ (s.li.sync ≠ .hunt → align ≠ s.li.align → t = { s with li := { s.li with access := .waiting } })
      ∧ (s.li.sync = .check → align = s.li.align →
          t = { s with li := { s.li.countSymbol (decide (rd ≠ s.li.disparity)) with
            access := .waiting, disparity := disparityAfter s.li.disparity g
            sync := if rd = s.li.disparity then .check else .hunt } })
      ∧ (s.li.sync = .inStep → align = s.li.align → rd = s.li.disparity →
          t.li.sync = .inStep ∧ t.li.violRun = 0 ∧ t.li.asm = none
          ∧ t.fs = { s.fs with free := s.fs.free + s.li.buffers }
          ∧ t.cnt.code = (if s.li.asm.isSome then bump s.cnt.code else s.cnt.code))
      ∧ t = { s with li := t.li, fs := t.fs, cnt := t.cnt }

/-- Start delimiters and commas (R41, R43, R47). -/
def Obligations.DelimitersAndCommas : Prop :=
  Clause.StartDelimiterAsksForABuffer ∧ Clause.CommaResynchronisesOrDiscards

/-- The checks at the end delimiter, in their order: the first that fails gives the cause of the discard (R44). -/
def Obligations.FrameCheckOrder : Prop :=
  ∀ l : List Byte, ∀ damaged : Bool,
    let cause := (Assembly.mk l damaged).fault
    let n := l.length
    (damaged = true → cause = some .code)
    ∧ (damaged = false → n < 9 → cause = some .undersize)
    ∧ (damaged = false → 9 ≤ n → (crc16 (l.take (n - 2))).toNat ≠ wordAt l (n - 2) → cause = some .crc)
    ∧ (damaged = false → 9 ≤ n → (crc16 (l.take (n - 2))).toNat = wordAt l (n - 2) →
        ¬ (byteAt l 6 ≤ 48 ∧ byteAt l 6 = n - 9) → cause = some .length)
    ∧ (damaged = false → 9 ≤ n → (crc16 (l.take (n - 2))).toNat = wordAt l (n - 2) →
        byteAt l 6 ≤ 48 → byteAt l 6 = n - 9 → cause = none)

/-- FRAME_RECEIVED: the groups of a whole frame and its end delimiter arrive, each a code word of the disparity expected, in a buffer just
taken. The frame is discarded with its one cause, handed to PT, dropped for another destination, or filed at the tail of the inbox of its
kind (R43 to R47): an inbox that was empty joins its active list (R49), the receive record shows the sender as its peer record stands at
this moment (R46), and a change of the sender's epoch is taken in the same event (R65). -/
def Sys2Proof.Clause.WholeFramesAreFiled : Prop :=
  ∀ (s : State) (l : List Byte) (groups : List LineGroup), s.receives = true → s.li.sync = .inStep → s.li.asm = some ⟨[], false⟩ →
    l.length ≤ 57 → readsAs s.li groups (l.map (fun b => some (.data b)) ++ [some .endDelim]) →
    ∃ t : State, exec (.frameReceived groups) s = .next t
      ∧ t.li.asm = none ∧ t.li.sync = .inStep ∧ t.li.violRun = 0
      ∧ (∀ d, (Assembly.mk l false).fault = some d → t.cnt = d.count s.cnt ∧ t.fs = { s.fs with free := s.fs.free + 1 })
      ∧ ((Assembly.mk l false).fault = none → frameSource l = s.pt.node →
          t.cnt = s.cnt
          ∧ t.fs = { s.fs with ownFrames := s.fs.ownFrames ++ [⟨s.time, s.pt.node, frameEpoch l, .own, frameEpoch l == s.pt.epoch⟩] })
      ∧ ((Assembly.mk l false).fault = none → frameSource l ≠ s.pt.node → frameDest l ≠ s.pt.node → frameDest l ≠ 63 →
          t.cnt = s.cnt ∧ t.fs = { s.fs with free := s.fs.free + 1 })
      ∧ ((Assembly.mk l false).fault = none → frameSource l ≠ s.pt.node → frameDest l = s.pt.node ∨ frameDest l = 63 →
          (Kind.ofCode (byteAt l 0) = none →
            t.cnt.unknownKind = bump s.cnt.unknownKind ∧ t.fs = { s.fs with free := s.fs.free + 1 })
          ∧ (∀ k, Kind.ofCode (byteAt l 0) = some k → (framePayload l).length < k.minPayload (framePayload l) →
              t.cnt.length = bump s.cnt.length ∧ t.fs = { s.fs with free := s.fs.free + 1 })
          ∧ (∀ k, Kind.ofCode (byteAt l 0) = some k → k.minPayload (framePayload l) ≤ (framePayload l).length →
              (∀ p, s.peer? (frameSource l) = some p → t.fs.inbox = s.fs.inbox ++ [⟨k, ⟨s.time, frameSource l, frameEpoch l,
                .other p.state p.notHearing, decide (p.state ≠ .unknown ∧ p.epoch = some (frameEpoch l))⟩, framePayload l⟩])
              ∧ (s.peer? (frameSource l) = none → t.fs.inbox = s.fs.inbox ++ [⟨k, ⟨s.time, frameSource l, frameEpoch l,
                .other .unknown false, false⟩, framePayload l⟩])
              ∧ t.fs.active = (if s.fs.inbox.any (fun g => g.kind == k) then s.fs.active else s.fs.active ++ [k])
              ∧ t.fs = { s.fs with inbox := t.fs.inbox, active := t.fs.active }
              ∧ t.cnt = (if frameLevel l = k.level then s.cnt else { s.cnt with levelMismatch := bump s.cnt.levelMismatch })
              ∧ (let noted := s.noteEpoch (frameSource l) (frameEpoch l)
                 t = { s with li := t.li, fs := t.fs, cnt := t.cnt, pt := noted.pt, ct := noted.ct, re := noted.re, yu := noted.yu })
              ∧ (s.peer? (frameSource l) = none → s.noteEpoch (frameSource l) (frameEpoch l) = s)
              ∧ (∀ p, s.peer? (frameSource l) = some p → p.state = .unknown ∨ p.epoch = some (frameEpoch l) →
                  s.noteEpoch (frameSource l) (frameEpoch l) = s)
              ∧ (∀ p old, s.peer? (frameSource l) = some p → p.state ≠ .unknown → p.epoch = some old → old ≠ frameEpoch l →
                  t.pt.peers = s.pt.peers.set (frameSource l)
                    { p with state := .joining, epoch := some (frameEpoch l), lastState := none, mode := none, lockMap := none
                             missRun := 0, notHearing := false, owed := false, epochChanges := bump p.epochChanges }
                  ∧ t.pt = { s.pt with peers := t.pt.peers }
                  ∧ t.ct = { s.ct with peerNotices := s.ct.peerNotices ++ [.epochChange (frameSource l) old (frameEpoch l)] }
                  ∧ t.re = { s.re with peerNotices := s.re.peerNotices ++ [.epochChange (frameSource l) old (frameEpoch l)] }
                  ∧ t.yu = { s.yu with peerNotices := s.yu.peerNotices ++ [.epochChange (frameSource l) old (frameEpoch l)] })))

/-- A frame in which a code violation was seen is discarded at its end delimiter with cause CODE, whatever its bytes, and its buffer returns
to the pool (R41, R43, R44): one that is marked damaged already, and one in which a single violation now comes, with at most one
violation in a row before it. -/
def Sys2Proof.Clause.DamagedFramesAreDiscarded : Prop :=
  ∀ (s : State) (held before rest : List Byte) (damaged : Bool) (violations : Nat) (groups : List LineGroup),
    s.receives = true → s.li.sync = .inStep → s.li.asm = some ⟨held, damaged⟩ → held.length + before.length + rest.length ≤ 57 →
    (damaged = true ∧ violations = 0) ∨ (violations = 1 ∧ s.li.violRun ≤ 1) →
    readsAs s.li groups (before.map (fun b => some (.data b)) ++ List.replicate violations none
      ++ rest.map (fun b => some (.data b)) ++ [some .endDelim]) →
    ∃ t : State, exec (.frameReceived groups) s = .next t
      ∧ t.li.asm = none ∧ t.li.sync = .inStep ∧ t.li.violRun = 0
      ∧ t.cnt = { s.cnt with code := bump s.cnt.code } ∧ t.fs = { s.fs with free := s.fs.free + 1 }
      ∧ t = { s with li := t.li, fs := t.fs, cnt := t.cnt }

/-- Received frames, whole and damaged (R41, R43 to R47, R49, R65). -/
def Obligations.FrameReceivedIsCheckedAndFiled : Prop :=
  Clause.WholeFramesAreFiled ∧ Clause.DamagedFramesAreDiscarded

/-- OVERSIZE_DISCARD: the 58th byte of an undamaged frame (R43). LOSS_OF_SYNC by a quiet line: HUNT, and CODE for a frame in assembly;
LOSS_OF_SYNC by violations in a row: HUNT at the third (R41). -/
def Sys2Proof.Clause.OversizeAndLossOfSync : Prop :=
  (∀ (s : State) (a : Assembly) (l : List Byte) (groups : List LineGroup), s.receives = true → s.li.sync = .inStep →
      s.li.asm = some a → a.damaged = false → a.bytes.length < 58 → a.bytes.length + l.length = 58 →
      readsAs s.li groups (l.map (fun b => some (.data b))) →
      ∃ t : State, exec (.oversizeDiscard groups) s = .next t
        ∧ t.li.asm = none ∧ t.cnt.oversize = bump s.cnt.oversize ∧ t.fs = { s.fs with free := s.fs.free + 1 }
        ∧ t = { s with li := t.li, fs := t.fs, cnt := t.cnt })
  ∧ (∀ s : State, s.receives = true →
      ∃ t : State, exec (.lossOfSync [] true) s = .next t
        ∧ t.li.sync = .hunt ∧ t.li.violRun = 0 ∧ t.li.asm = none ∧ t.fs = { s.fs with free := s.fs.free + s.li.buffers }
        ∧ t.cnt.code = (if s.li.asm.isSome then bump s.cnt.code else s.cnt.code)
        ∧ (s.li.access = .waiting → t.li.access = .round s.candidate))
  ∧ (∀ (s : State) (groups : List LineGroup), s.receives = true → s.li.sync = .inStep → s.li.violRun ≤ 2 →
      readsAs s.li groups (List.replicate (3 - s.li.violRun) none) →
      ∃ t : State, exec (.lossOfSync groups false) s = .next t
        ∧ t.li.sync = .hunt ∧ t.li.violRun = 0 ∧ t.li.asm = none ∧ t.fs = { s.fs with free := s.fs.free + s.li.buffers }
        ∧ t.cnt.code = (if s.li.asm.isSome then bump s.cnt.code else s.cnt.code))

/-- LINE_QUALITY_WINDOW: the symbol that completes 1024 sets LINE_POOR where 64 or more of the window were violations, clears it
otherwise, and both counts return to 0 (R42); here with data symbols between frames, and for the last symbol in general. -/
def Sys2Proof.Clause.QualityWindowSetsLinePoor : Prop :=
  (∀ (s : State) (l : List Byte) (groups : List LineGroup), s.receives = true → s.li.sync = .inStep → s.li.asm = none →
      s.li.symCount < 1024 → s.li.symCount + l.length = 1024 → readsAs s.li groups (l.map (fun b => some (.data b))) →
      ∃ t : State, exec (.lineQualityWindow groups) s = .next t
        ∧ t.li.symCount = 0 ∧ t.li.violCount = 0 ∧ t.li.linePoor = decide (64 ≤ s.li.violCount)
        ∧ t = { s with li := t.li })
  ∧ (∀ (li : LI) (violation : Bool),
      (li.symCount = 1023 → li.countSymbol violation
        = { li with symCount := 0, violCount := 0, linePoor := decide (64 ≤ li.violCount + (if violation then 1 else 0)) })
      ∧ (li.symCount < 1023 → li.countSymbol violation
        = { li with symCount := li.symCount + 1, violCount := li.violCount + (if violation then 1 else 0) }))

/-- Oversize discards, the line-quality window and loss of synchronisation (R41 to R43). -/
def Obligations.OversizeQualityAndLossOfSync : Prop :=
  Clause.OversizeAndLossOfSync ∧ Clause.QualityWindowSetsLinePoor

/-- LINE_ACCESS at the step that is the rank of the frame the station contends with: the frame leaves the queue, gets the next sequence
number, and its burst is in transmission (R40, R53, R54); nothing else changes. At any other step nothing happens. -/
def Sys2Proof.Clause.LineAccessSendsTheCandidate : Prop :=
  ∀ (s : State) (c : Candidate) (f : TxFrame) (rest : List TxFrame), s.receives = true → s.li.access = .round (some c) →
    takeFirst (fun f : TxFrame => f.age == c.age) s.fs.queue = some (f, rest) →
    (exec (.lineAccess c.rank) s = .next { s with
        fs := { s.fs with queue := rest }
        li := { s.li with
          access := .waiting, sending := some (burst (frameBytes s.pt.node s.pt.epoch s.li.seq f)), seq := s.li.seq + 1 } })
    ∧ (∀ step, step ≠ c.rank → exec (.lineAccess step) s = .next s)

/-- The idle point: TRANSMISSION_END, ACCESS_ROUND_TIMEOUT and FIRST_IDLE_POINT each begin a round in which the station contends with
the first frame of the queue that is not deferred, or with none; its rank is 64 times the level of the frame plus the node ID (R54). -/
def Sys2Proof.Clause.IdlePointsStartARound : Prop :=
  ∀ s : State,
    let round := Access.round s.candidate
    (∀ f, s.fs.queue.find? (fun f => !f.deferred) = some f → s.candidate = some ⟨f.age, 64 * f.kind.level + s.pt.node⟩)
    ∧ (s.fs.queue.find? (fun f => !f.deferred) = none → s.candidate = none)
    ∧ (s.li.sending.isSome = true →
      exec .transmissionEnd s = .next { s with li := { s.li with sending := none, access := round } })
    ∧ (∀ c, s.receives = true → s.li.access = .round c →
        exec .accessRoundTimeout s = .next { s with li := { s.li with access := round } })
    ∧ (s.receives = true → s.li.access = .unaligned →
        exec .firstIdlePoint s = .next { s with li := { s.li with access := round } })

/-- Access to the line (R53, R54). -/
def Obligations.LineAccessRounds : Prop :=
  Clause.LineAccessSendsTheCandidate ∧ Clause.IdlePointsStartARound

/-- The free count falls from 6 to 5: POOL_LOW is set, and where the pool-low timer is stopped it starts and a HOLD-OFF of 40 ms is
offered; POOL_LOW_TIMER_EXPIRY offers another one while the pool is short, and stops otherwise (R48). -/
def Sys2Proof.Clause.PoolLowSendsHoldOff : Prop :=
  (∀ s : State, s.fs.free = 6 →
      s.takeBuffer.fs.free = 5 ∧ s.takeBuffer.fs.poolLow = true
      ∧ (s.fs.poolTimer = none → s.takeBuffer = ({ s with fs := { s.fs with
            free := 5, poolLow := true, poolTimer := some ⟨0, 40⟩ } }).send .holdOff 63 [40])
      ∧ (s.fs.poolTimer ≠ none → s.takeBuffer = { s with fs := { s.fs with free := 5, poolLow := true } }))
  ∧ (∀ s : State, due s.fs.poolTimer = true →
      (s.fs.free < 6 → exec .poolLowTimerExpiry s
        = .next (({ s with fs := { s.fs with poolTimer := some ⟨0, 40⟩ } }).send .holdOff 63 [40]))
      ∧ (6 ≤ s.fs.free → exec .poolLowTimerExpiry s = .next { s with fs := { s.fs with poolTimer := none } }))

/-- The frame handler: free, it takes the oldest frame of the inbox at the head of the active list of the lowest level that has one;
that inbox goes to the tail of its list, or leaves it when empty (R50). -/
def Sys2Proof.Clause.FrameHandlerChoosesInTurn : Prop :=
  ∀ (fs : FS) (k : Kind) (others : List Kind) (f : RxFrame) (rest : List RxFrame), fs.handler = none →
    fs.active.filter (fun j => j.level == k.level) = k :: others → (∀ j ∈ fs.active, k.level ≤ j.level) →
    takeFirst (fun g => g.kind == k) fs.inbox = some (f, rest) →
    ∃ fs' : FS, fs.takeFrame k = some (f, fs')
      ∧ fs'.inbox = rest ∧ fs'.handler = some f
      ∧ fs'.active = fs.active.filter (fun j => j ≠ k) ++ (if rest.any (fun g => g.kind == k) then [k] else [])
      ∧ (∀ j, j ≠ k → fs.takeFrame j = none)
      ∧ fs' = { fs with inbox := fs'.inbox, handler := fs'.handler, active := fs'.active }

/-- INSPECT_REPLY and EVENT: RP finishes with the frame at once, and its buffer returns to the pool (R49, R50). -/
def Sys2Proof.Clause.ReportsOfOthersAreDroppedAtOnce : Prop :=
  ∀ (s : State) (f : RxFrame) (fs' : FS),
    (s.fs.takeFrame .inspectReply = some (f, fs') →
      exec .inspectReply s = .next { s with fs := { fs' with handler := none, free := fs'.free + 1 } })
    ∧ (s.fs.takeFrame .event = some (f, fs') →
      exec .event s = .next { s with fs := { fs' with handler := none, free := fs'.free + 1 } })

/-- The frame handler (R49, R50). -/
def Obligations.FrameHandlerServesInTurn : Prop :=
  Clause.FrameHandlerChoosesInTurn ∧ Clause.ReportsOfOthersAreDroppedAtOnce

/-- HOLD_OFF from a peer: its timer ends at the arrival plus n ms, and the queued frames to it at level 2 or 3 are deferred; with n = 0
nothing; with the end already passed the timer is left stopped and the marks are cleared. HOLD_OFF_TIMER_EXPIRY stops the timer and
clears the marks (R55, R56). -/
def Sys2Proof.Clause.HoldOffDefersStablingTraffic : Prop :=
  (∀ (s : State) (f : RxFrame) (fs' : FS), s.fs.takeFrame .holdOff = some (f, fs') → f.rx.source < 63 → f.rx.source ≠ s.pt.node →
      let n := byteAt f.payload 0
      let endTime := f.rx.arrival + BitVec.ofNat 32 n
      ∃ t : State, exec .holdOff s = .next t
        ∧ (n = 0 → t.fs.holdOff = s.fs.holdOff ∧ t.fs.queue = s.fs.queue)
        ∧ (n ≠ 0 → reached s.time endTime = false →
            t.fs.holdOff = s.fs.holdOff.set f.rx.source (some endTime) ∧ t.fs.queue = deferTo f.rx.source true s.fs.queue)
        ∧ (n ≠ 0 → reached s.time endTime = true →
            t.fs.holdOff = s.fs.holdOff.set f.rx.source none ∧ t.fs.queue = deferTo f.rx.source false s.fs.queue)
        ∧ t = { s with fs := { fs' with handler := none, free := fs'.free + 1, holdOff := t.fs.holdOff, queue := t.fs.queue } })
  ∧ (∀ (s : State) (k : Nat) (e : Time), s.fs.holdOff[k]? = some (some e) → reached s.time e = true →
      exec (.holdOffTimerExpiry k) s = .next { s with fs := { s.fs with
        holdOff := s.fs.holdOff.set k none, queue := deferTo k false s.fs.queue } })

/-- The pool of buffers and hold-offs (R48, R55, R56). -/
def Obligations.PoolLowAndHoldOff : Prop :=
  Clause.PoolLowSendsHoldOff ∧ Clause.HoldOffDefersStablingTraffic

/-- Offering a frame to the transmit queue, in a mode that transmits: with room it enters; a STATE frame takes the place and the age of a
queued one; a full queue gives up the youngest frame of its highest level number where that is above the new frame's, and drops the new
frame otherwise (R51, R52). -/
def Sys2Proof.Clause.OfferedFramesEnterTheQueue : Prop :=
  ∀ (s : State) (k : Kind) (dest : Nat) (payload : List Byte), s.pt.mode.active = true →
    let f : TxFrame := ⟨k, dest, payload, s.fs.nextAge, deferrable k.level dest && s.heldOff dest⟩
    let queued := k = .state ∧ ∃ g ∈ s.fs.queue, g.kind = .state
    (queued → s.send k dest payload = { s with fs := { s.fs with queue := s.fs.queue.map (fun g =>
        if g.kind = .state then { g with payload := mergeStateFlags g.payload payload } else g) } })
    ∧ (¬ queued → s.fs.queue.length < 16 →
        s.send k dest payload = { s with fs := { s.fs with queue := insertFrame f s.fs.queue, nextAge := s.fs.nextAge + 1 } })
    ∧ (∀ (front : List TxFrame) (last : TxFrame), ¬ queued → 16 ≤ s.fs.queue.length → s.fs.queue = front ++ [last] →
        (k.level < last.kind.level → s.send k dest payload = { s with
          fs := { s.fs with queue := insertFrame f front, nextAge := s.fs.nextAge + 1, txDrop := true }
          cnt := { s.cnt with txDisplaced := bump s.cnt.txDisplaced } })
        ∧ (last.kind.level ≤ k.level → s.send k dest payload = { s with
          fs := { s.fs with txDrop := true }, cnt := { s.cnt with txDrop := bump s.cnt.txDrop } }))

/-- A frame enters the queue behind every frame of its level or a lower level number, and before the others (R51). -/
def Sys2Proof.Clause.FramesQueueByLevelAndAge : Prop :=
  ∀ (f : TxFrame) (front back : List TxFrame), (∀ g ∈ front, g.kind.level ≤ f.kind.level) →
    (∀ g, back.head? = some g → f.kind.level < g.kind.level) → insertFrame f (front ++ back) = front ++ f :: back

/-- A STATE frame that replaces a queued one carries POOL_LOW and TX_DROP, bits 1 and 2 of byte 35, wherever the replaced frame had them
set; everything else of it stands as it was built (R166, R179). -/
def Sys2Proof.Clause.ReplacedStateFrameKeepsItsFlags : Prop :=
  ∀ old new : List Byte,
    (mergeStateFlags old new).length = new.length
    ∧ (∀ k, k ≠ 35 → (mergeStateFlags old new)[k]? = new[k]?)
    ∧ (∀ b, new[35]? = some b → ∃ c, (mergeStateFlags old new)[35]? = some c
        ∧ (∀ j, c.getLsbD j = (b.getLsbD j || ((j == 1 || j == 2) && (byteAt old 35).testBit j))))

/-- The transmit queue (R51, R52, R166). -/
def Obligations.TransmitQueueTakesFrames : Prop :=
  Clause.OfferedFramesEnterTheQueue ∧ Clause.FramesQueueByLevelAndAge ∧ Clause.ReplacedStateFrameKeepsItsFlags

/-! ## Peers and epochs (R58 to R72) -/

/-- What a STATE frame under the recorded epoch does to a peer record (R63, R67): the state it leaves, and the miss run and NOT_HEARING
where it leaves IN_STEP. Its mode code sets the peer mode: 1 JOINING, 2 RUNNING, 3 ISOLATED; any other leaves it as it was (R182). -/
def Sys2Proof.Clause.StateFrameTable : Prop :=
  ∀ (p : PeerRec) (l : List Byte) (arrival : Time) (shown : Bool),
    let q := (p.takeState l arrival).hear shown
    q.lastState = some arrival ∧ q.lockMap = some (decLockMap l) ∧ q.cause = some (ResetCause.ofBit (byteAt l 0 / 16))
    ∧ q.epoch = p.epoch ∧ q.losses = p.losses ∧ q.epochChanges = p.epochChanges ∧ q.owed = p.owed
    ∧ q.mode = (match byteAt l 0 % 8 with
        | 1 => some .joining | 2 => some .running | 3 => some .isolated | _ => p.mode)
    ∧ (p.state = .joining → p.lastState = none → q.state = .joining)
    ∧ (∀ t, p.state = .joining → p.lastState = some t → 600 < (arrival - t).toNat → q.state = .joining)
    ∧ (∀ t, p.state = .joining → p.lastState = some t → (arrival - t).toNat ≤ 600 → q.state = .inStep)
    ∧ (p.state = .inStep ∨ p.state = .silent ∨ p.state = .lost → q.state = .inStep)
    ∧ (q.state = .joining → q.missRun = p.missRun ∧ q.notHearing = p.notHearing)
    ∧ (q.state = .inStep → shown = true → q.missRun = 0 ∧ q.notHearing = false)
    ∧ (q.state = .inStep → shown = false → q.missRun = min (p.missRun + 1) 2
        ∧ q.notHearing = (p.notHearing || decide (1 ≤ p.missRun)))

/-- STATE: a frame of a peer under its recorded epoch moves the record by the table above and gives the one notice that a change of
usability calls for, to each of CT, RE and YU (R63, R67 to R69); RE gets its lock report (R70); every other peer record, and everything
that a lock report does not reach, is unchanged. An UNKNOWN record takes the frame's epoch and enters JOINING first (R63). A stale frame
changes no record. -/
def Sys2Proof.Clause.StateFrameMovesItsPeer : Prop :=
  ∀ (s : State) (f : RxFrame) (fs' : FS) (p : PeerRec), s.fs.takeFrame .state = some (f, fs') → s.peer? f.rx.source = some p →
    let met : PeerRec := if p.state = .unknown then { p with state := .joining, epoch := some f.rx.epoch } else p
    let new := (met.takeState f.payload f.rx.arrival).hear (heardBit f.payload s.pt.node)
    ∃ t : State, exec .state s = .next t
      ∧ t.fs.free = s.fs.free + 1 ∧ t.fs.handler = none ∧ t.fs.inbox = fs'.inbox
      ∧ (met.epoch ≠ some f.rx.epoch → t = { s with fs := { fs' with handler := none, free := fs'.free + 1 } })
      ∧ (p.state = .unknown → p.lastState = none → new.state = .joining ∧ new.epoch = some f.rx.epoch)
      ∧ (met.epoch = some f.rx.epoch → t = ((({ s with fs := fs' }).changePeer f.rx.source p new).takeLockReport f.rx.source
          f.rx.epoch f.rx.arrival (decLockMap f.payload)).finishFrame)
      ∧ (met.epoch = some f.rx.epoch →
          t.pt = { s.pt with peers := s.pt.peers.set f.rx.source (p.settle new) }
          ∧ t.yu = { s.yu with peerNotices := s.yu.peerNotices ++ (PeerRec.notice f.rx.source p new).toList }
          ∧ t.ct.peerNotices = s.ct.peerNotices ++ (PeerRec.notice f.rx.source p new).toList
          ∧ t.re.peerNotices = s.re.peerNotices ++ (PeerRec.notice f.rx.source p new).toList
          ∧ t = { s with pt := t.pt, yu := t.yu, ct := { s.ct with peerNotices := t.ct.peerNotices, fromRe := t.ct.fromRe },
                         re := { s.re with peerNotices := t.re.peerNotices, insts := t.re.insts },
                         rq := { s.rq with outcomes := t.rq.outcomes }, fs := t.fs, cnt := t.cnt })

/-- STATE frames (R63, R67 to R69). -/
def Obligations.StateFramesMovePeers : Prop :=
  Clause.StateFrameTable ∧ Clause.StateFrameMovesItsPeer

/-- The notice of a change of usability (R68): UNUSABLE when a usable peer stops being usable, and then USABLE is owed; USABLE on the
return where it is owed; none where usability does not change. -/
def Sys2Proof.Clause.UsabilityNoticeTable : Prop :=
  ∀ (k : Nat) (p q : PeerRec) (e : Epoch), q.epoch = some e →
    (p.usable = true → q.usable = false → PeerRec.notice k p q = some (.unusable k e) ∧ (p.settle q).owed = true)
    ∧ (p.usable = false → q.usable = true → q.owed = true → PeerRec.notice k p q = some (.usable k e) ∧ (p.settle q).owed = false)
    ∧ (p.usable = false → q.usable = true → q.owed = false → PeerRec.notice k p q = none ∧ (p.settle q).owed = false)
    ∧ (p.usable = q.usable → PeerRec.notice k p q = none ∧ p.settle q = q)

/-- ANNOUNCE: an UNKNOWN record takes the epoch and enters JOINING; under the recorded epoch the reset cause is set, and nothing more
(R63). -/
def Sys2Proof.Clause.AnnounceMeetsThePeer : Prop :=
  ∀ (s : State) (f : RxFrame) (fs' : FS) (p : PeerRec), s.fs.takeFrame .announce = some (f, fs') → s.peer? f.rx.source = some p →
    ∃ t : State, exec .announce s = .next t
      ∧ (p.state = .unknown → t.pt.peers = s.pt.peers.set f.rx.source
          { p with state := .joining, epoch := some f.rx.epoch, cause := some (ResetCause.ofBit (byteAt f.payload 0)) })
      ∧ (p.state ≠ .unknown → p.epoch = some f.rx.epoch → t.pt.peers = s.pt.peers.set f.rx.source
          { p with cause := some (ResetCause.ofBit (byteAt f.payload 0)) })
      ∧ (p.state ≠ .unknown → p.epoch ≠ some f.rx.epoch → t.pt.peers = s.pt.peers)
      ∧ t = { s with fs := { fs' with handler := none, free := fs'.free + 1 }, pt := { s.pt with peers := t.pt.peers } }

/-- An accepted frame under another epoch than the recorded one: the record starts again in JOINING, its epoch change count advances,
and EPOCH_CHANGE goes to each of CT, RE and YU (R65). -/
def Sys2Proof.Clause.EpochChangeRestartsThePeer : Prop :=
  ∀ (s : State) (k : Nat) (p : PeerRec) (old new : Epoch), s.peer? k = some p → p.state ≠ .unknown → p.epoch = some old →
    (old = new → s.noteEpoch k new = s)
    ∧ (old ≠ new →
        (s.noteEpoch k new).pt.peers = s.pt.peers.set k
          { p with state := .joining, epoch := some new, lastState := none, mode := none, lockMap := none, missRun := 0,
                   notHearing := false, owed := false, epochChanges := bump p.epochChanges }
        ∧ (s.noteEpoch k new).ct = { s.ct with peerNotices := s.ct.peerNotices ++ [.epochChange k old new] }
        ∧ (s.noteEpoch k new).re = { s.re with peerNotices := s.re.peerNotices ++ [.epochChange k old new] }
        ∧ (s.noteEpoch k new).yu = { s.yu with peerNotices := s.yu.peerNotices ++ [.epochChange k old new] })

/-- PEER_SILENT 500 ms and PEER_LOST 1000 ms after the last STATE time: SILENT keeps usability and gives no notice; LOST counts the loss,
reports it in an EVENT frame with node, epoch, last STATE time and loss count, and gives UNUSABLE where the peer was usable (R64, R68,
R167). -/
def Sys2Proof.Clause.SupervisionExpiries : Prop :=
  ∀ (k : Nat) (s : State) (p : PeerRec) (e : Epoch) (last : Time), s.peer? k = some p → p.epoch = some e → p.lastState = some last →
    (p.state = .inStep → 500 ≤ (s.time - last).toNat → ∃ t : State, exec (.peerSilent k) s = .next t
      ∧ t = { s with pt := { s.pt with peers := s.pt.peers.set k { p with state := .silent } } })
    ∧ (p.state = .silent → 1000 ≤ (s.time - last).toNat → ∃ t : State, exec (.peerLost k) s = .next t
      ∧ t.pt.peers = s.pt.peers.set k
          { p with state := .lost, losses := bump p.losses, owed := (if p.notHearing then p.owed else true) }
      ∧ t.ct = { s.ct with peerNotices := s.ct.peerNotices ++ (if p.notHearing then [] else [.unusable k e]) }
      ∧ t.re = { s.re with peerNotices := s.re.peerNotices ++ (if p.notHearing then [] else [.unusable k e]) }
      ∧ t.yu = { s.yu with peerNotices := s.yu.peerNotices ++ (if p.notHearing then [] else [.unusable k e]) }
      ∧ t.rp.serial = s.rp.serial + 1
      ∧ t = ({ s with pt := { s.pt with peers := t.pt.peers }, ct := t.ct, re := t.re, yu := t.yu }).eventSent 5
          ([byte k] ++ bytes2 e.toNat ++ bytes4 last.toNat ++ bytes2 (bump p.losses).toNat))

/-- ANNOUNCE, epoch changes, supervision and usability (R63 to R65, R68). -/
def Obligations.PeersComeAndGo : Prop :=
  Clause.UsabilityNoticeTable ∧ Clause.AnnounceMeetsThePeer ∧ Clause.EpochChangeRestartsThePeer
    ∧ Clause.SupervisionExpiries

/-- OWN_SOURCE_FRAME: a frame with the node's own ID and its own epoch only counts; under another epoch it counts as a duplicate, and in
JOINING or RUNNING the node enters ISOLATED: STOP to every signal, the isolation notices, no listen timer, and one report, an EVENT frame
with the own epoch, that of the causing frame and the mode left, numbered by log entry 12 (R71, R72, R167). -/
def Obligations.DuplicateIdIsolates : Prop :=
  ∀ (s : State) (r : RxRec) (rest : List RxRec), s.fs.ownFrames = r :: rest →
    ∃ t : State, exec .ownSourceFrame s = .next t
      ∧ t.fs.ownFrames = rest ∧ t.fs.free = s.fs.free + 1
      ∧ (r.epochMatch = true → t.cnt = { s.cnt with ownIdSameEpoch := bump s.cnt.ownIdSameEpoch } ∧ t.pt = s.pt)
      ∧ (r.epochMatch = false → t.cnt.duplicateId = bump s.cnt.duplicateId)
      ∧ (r.epochMatch = false → s.pt.mode = .joining ∨ s.pt.mode = .running →
          t.pt = { s.pt with mode := .isolated, listen := none }
          ∧ t.su = { s.su with commands := s.su.commands ++ (List.range s.yard.signals.length).map SuCommand.stop }
          ∧ t.ct = { s.ct with isolated := true } ∧ t.re = { s.re with isolated := true }
          ∧ t.rq = { s.rq with isolated := true } ∧ t.yu = { s.yu with isolated := true }
          ∧ t.rp.serial = s.rp.serial + 1
          ∧ (let told := ({ s with
               pt := t.pt, su := t.su, ct := t.ct, re := t.re, rq := t.rq, yu := t.yu
               fs := { s.fs with ownFrames := rest }
               cnt := { s.cnt with duplicateId := bump s.cnt.duplicateId } }).eventSent 6
                 (bytes2 s.pt.epoch.toNat ++ bytes2 r.epoch.toNat ++ [byte s.pt.mode.enum])
             t = { told with fs := { told.fs with free := told.fs.free + 1 } }))
      ∧ (r.epochMatch = true ∨ (s.pt.mode ≠ .joining ∧ s.pt.mode ≠ .running) →
          t = { s with fs := { s.fs with ownFrames := rest, free := s.fs.free + 1 }, cnt := t.cnt })
      ∧ (r.epochMatch = false → s.pt.mode = .isolated → t.pt = s.pt ∧ t.su = s.su ∧ t.ct = s.ct ∧ t.rp = s.rp)
      ∧ t.du = s.du ∧ t.pu = s.pu ∧ t.mi = s.mi ∧ t.yard = s.yard ∧ t.li = s.li

/-- LISTEN_TIMER in JOINING: the second and third ANNOUNCE at 250 and 500 ms, RUNNING at 1000 ms, with every refusal hold cleared,
the clamp list sent as CONFIG_CLAMP EVENT frames, and ROAD-CHANGE for each road KNOWN with a free place (R59, R79, R154, R174); that the
roads come in rising index, after the clamps, is the model's choice (log entry 33), and so is the handover of each of these changes to the
own RE, which R154 does not give for the entry into RUNNING (log entry 54). -/
def Obligations.ListenTimerLeadsToRunning : Prop :=
  ∀ (s : State) (e : Timer), s.pt.mode = .joining → s.pt.listen = some e →
    (s.pt.announces < 3 → s.pt.announces * 250 ≤ e.elapsed →
      exec .listenTimer s = .next (({ s with pt := { s.pt with announces := s.pt.announces + 1 } }).send .announce 63
        [byte (match s.pt.cause with | .powerOn => 0 | .pin => 1)]))
    ∧ (3 ≤ s.pt.announces → 1000 ≤ e.elapsed → ∃ t : State, exec .listenTimer s = .next t
      ∧ t.pt = { s.pt with mode := .running, listen := none }
      ∧ t.rq = { s.rq with points := s.rq.points.map (fun r : ReqPoint => { r with hold := none }) }
      ∧ t.ct = s.ct ∧ t.yu = s.yu ∧ t.du = s.du ∧ t.pu = s.pu ∧ t.su = s.su ∧ t.mi = s.mi
      ∧ (let entered := { s with
           pt := { s.pt with mode := .running, listen := none }
           rq := { s.rq with points := s.rq.points.map (fun r : ReqPoint => { r with hold := none }) } }
         let clamped := forEach s.mi.clamps (fun c u => ({ u with rp := { u.rp with serial := u.rp.serial + 1 } }).send .event 63
           (bytes2 (u.rp.serial + 1).toNat ++ [9] ++ bytes4 u.time.toNat ++ [byte c.kind, byte c.index, byte c.read, byte c.used]))
             entered
         t = forEach (List.range s.yu.roads.length) (fun r u => match s.yard.roads[r]?, s.yu.roads[r]? with
           | some c, some x =>
             if x.cond = .known ∧ 1 ≤ c.capacity - x.used then
               let sent := u.send .roadChange 63 (encRoadChange r x.cond (c.capacity - x.used))
               { sent with re := { sent.re with fromYu := sent.re.fromYu ++ [.roadChange r] } }
             else u
           | _, _ => u) clamped))

/-! ## Reporting and inspection (R165 to R170) -/

/-- The STATE payload: 36 bytes. The mode and the reset cause stand in the first; then the heard map, a bit for each node, the most
significant first; two bits for each section, four for each point, a byte for each signal and two for each road, with ABSENT for one not
configured; a bit for each locked section; and LINE_POOR, POOL_LOW and TX_DROP in the last (R66, R165, R179). -/
def Sys2Proof.Clause.StatePayloadCarriesTheNode : Prop :=
  ∀ s : State, s.statePayload.length = 36
    ∧ s.statePayload[0]? = some (byte (s.pt.mode.stateCode + 16 * s.pt.cause.code))
    ∧ s.statePayload[35]? = some (stateFlags s.li.linePoor s.fs.poolLow s.fs.txDrop)
    ∧ (∀ a b c : Bool, stateFlags a b c = byte ((if a then 1 else 0) + (if b then 2 else 0) + (if c then 4 else 0)))
    ∧ (∀ k, k < 64 → (byteAt s.statePayload (1 + k / 8)).testBit (7 - k % 8) = s.heard k)
    ∧ (∀ k, s.heard k = true ↔ ∃ p, s.peer? k = some p ∧ (p.state = .inStep ∨ p.state = .silent))
    ∧ (∀ k, k < 16 → byteAt s.statePayload (9 + k / 4) / 4 ^ (3 - k % 4) % 4 = (match s.sectState k with
        | some .clear => 0 | some .occupied => 1 | some .disturbed => 2 | none => 3))
    ∧ (∀ k, k < 16 → (byteAt s.statePayload (13 + k / 8)).testBit (7 - k % 8) = (s.lock? k).isSome)
    ∧ (∀ p, p < 8 → byteAt s.statePayload (15 + p / 2) / 16 ^ (1 - p % 2) % 16 = (match s.pointState p with
        | some st => st.code | none => 15))
    ∧ (∀ g, g < 8 → s.statePayload[19 + g]? = some (match s.su.signals[g]? with
        | some x => byte (x.state.code + 16 * (match x.dir with | some d => d.code | none => 0))
        | none => 7))
    ∧ (∀ r, r < 4 →
        (∀ x, s.yu.roads[r]? = some x →
          s.statePayload[27 + 2 * r]? = some (byte (x.cond.code + (if x.offer.isSome then 128 else 0)))
          ∧ s.statePayload[28 + 2 * r]? = some (byte (16 * x.stack.length + x.used)))
        ∧ (s.yu.roads[r]? = none → s.statePayload[27 + 2 * r]? = some 3 ∧ s.statePayload[28 + 2 * r]? = some 0))

/-- STATE_TIMER at a further 250 ms: RP builds a STATE frame of this moment and offers it as a broadcast; POOL_LOW and TX_DROP are
copied, then cleared, and POOL_LOW is set again where the pool is still short (R48, R52, R60, R165). -/
def Sys2Proof.Clause.StateTimerBuildsAStateFrame : Prop :=
  ∀ (s : State) (m : Nat), s.pt.stateMs = some m → 250 ≤ m →
    exec .stateTimer s = .next (({ s with
      pt := { s.pt with stateMs := some (m - 250) }
      fs := { s.fs with poolLow := decide (s.fs.free < 6), txDrop := false } }).send .state 63 s.statePayload)

/-- STATE frames of this node (R48, R52, R60, R165). -/
def Obligations.StateFramesAreBuilt : Prop :=
  Clause.StatePayloadCarriesTheNode ∧ Clause.StateTimerBuildsAStateFrame

/-- INSPECT from a node: the reply repeats kind, index and part and carries the answer of this moment, INSPECTS_ANSWERED advances, and
nothing else changes; from source 63 no reply (R168). -/
def Sys2Proof.Clause.InspectIsAnswered : Prop :=
  ∀ (s : State) (f : RxFrame) (fs' : FS), s.fs.takeFrame .inspect = some (f, fs') →
    let kind := byteAt f.payload 0
    let index := byteAt f.payload 1
    let part := byteAt f.payload 2
    let taken := { s with fs := fs' }
    ∃ t : State, exec .inspect s = .next t
      ∧ (f.rx.source = 63 → t = { s with fs := { fs' with handler := none, free := fs'.free + 1 } })
      ∧ (f.rx.source ≠ 63 →
          t = ((taken.send .inspectReply f.rx.source (replyPayload kind index part (taken.answer kind index part))).count
            (fun c => { c with inspectsAnswered := bump c.inspectsAnswered })).finishFrame)
      ∧ t = { s with fs := t.fs, cnt := t.cnt }

/-- What an INSPECT is answered (R168, R169): NONE for an unknown kind, for an index out of range and for a part past the last, FREE for
a free instance, otherwise the part of the item that stands there (a part byte above 3 is answered by the same rule: log entry 40; NONE
too for a ring position not yet written). -/
def Sys2Proof.Clause.InspectAnswersTable : Prop :=
  ∀ (s : State) (index part : Nat),
    (∀ kind, 7 ≤ kind → s.answer kind index part = .none)
    ∧ s.answer 0 index part = .none
    ∧ (s.yu.roads[index]? = none → s.answer 1 index part = .none)
    ∧ (∀ r, s.yu.roads[index]? = some r → s.answer 1 index part = partOf (encRoadItem r) part)
    ∧ (32 ≤ index → s.answer 2 index part = .none)
    ∧ (∀ c, index < 32 → s.claim? index = some c → s.answer 2 index part = partOf (encClaimItem c) part)
    ∧ (index < 32 → s.claim? index = none → s.answer 2 index part = partOf [4, byte (s.freePosition index)] part)
    ∧ (63 ≤ index → s.answer 3 index part = .none)
    ∧ (index < 63 → s.answer 3 index part = partOf (s.peerItem index) part)
    ∧ (8 ≤ index → s.answer 4 index part = .none)
    ∧ (index < 8 → s.inst? index = none → s.answer 4 index part = .free)
    ∧ (∀ x, index < 8 → s.inst? index = some x → s.answer 4 index part = partOf (encInst x) part)
    ∧ (∀ x, index < 16 → s.rq.slots[index]? = some x → s.answer 5 index part = partOf (encSlot x) part)
    ∧ (∀ x, 16 ≤ index → index < 32 → s.rq.ring[index - 16]? = some x → s.answer 5 index part = partOf (encOutcome x) part)
    ∧ (16 ≤ index → s.rq.ring[index - 16]? = none → s.answer 5 index part = .none)
    ∧ (32 ≤ index → s.answer 5 index part = .none)
    ∧ s.answer 6 0 part = counterPart s.cnt.values part ∧ s.answer 6 1 part = counterPart s.group1 part
    ∧ (2 ≤ index → s.answer 6 index part = .none)
    ∧ (2 ≤ part → s.answer 6 index part = .none)
    ∧ (∀ item : List Byte, item.length ≤ 44 * part → partOf item part = .none)
    ∧ (∀ item : List Byte, 44 * part < item.length →
        partOf item part = .ok ((item.drop (44 * part)).take 44) (decide (item.length ≤ 44 * part + 44)))

/-- INSPECT (R168, R169). -/
def Obligations.InspectsAreAnswered : Prop :=
  Clause.InspectIsAnswered ∧ Clause.InspectAnswersTable

/-! ## Lamps and requests (R34 to R37, R74 to R90) -/

/-- SIGNAL_WINDOW_EVALUATION: every configured signal evaluates the reading that counts for its lit lamp; PROVED and LAMP_FAULT reports
go to RE in index order (the model's choice: log entry 33); the fault marks follow the lamps (R34, R36, R37, R82). -/
def Sys2Proof.Clause.SignalWindowEvaluatesEverySignal : Prop :=
  ∀ (s : State) (l : LampReadings), s.su.readings = some l →
    ∃ t : State, exec .signalWindowEvaluation s = .next t
      ∧ t.su.readings = none ∧ t.su.commands = s.su.commands
      ∧ (∀ (g : Nat) (x : SignalRec), s.su.signals[g]? = some x →
          t.su.signals[g]? = some (x.evaluate (l.usable g x)).1
          ∧ t.rq.fault[g]? = (match signalEffect l s g with
              | .failed _ _ => (s.rq.fault[g]?).map (fun _ => true)
              | .recovered => (s.rq.fault[g]?).map (fun _ => false)
              | _ => s.rq.fault[g]?))
      ∧ t.re.reports = s.re.reports ++ signalReports l s
      ∧ t.du = s.du ∧ t.pt = s.pt ∧ t.li = s.li ∧ t.yard = s.yard ∧ t.mi.mem = s.mi.mem ∧ t.time = s.time

/-- What the evaluation of one signal gives besides its record (R34, R36, R37, R79, R82, R167), signal by signal in rising index (log entry
33): PROVED to RE; a lamp that fails sets the fault mark, reports LAMP_FAULT to RE from PROCEED, and gives an EVENT frame with the signal,
the state left and the lamp (lamps numbered by log entry 12); a lamp that recovers clears the mark and the refusal hold of the signal's
request point, and the activation scan runs. -/
def Sys2Proof.Clause.SignalEvaluationsAreReported : Prop :=
  (∀ (s : State) (l : LampReadings), s.su.readings = some l → exec .signalWindowEvaluation s
      = .next (forEach (List.range s.su.signals.length) (fun g u => u.evaluateSignal l g) { s with su := { s.su with readings := none } }))
  ∧ (∀ (s : State) (l : LampReadings) (g : Nat) (x : SignalRec), s.su.signals[g]? = some x →
      let e := x.evaluate (l.usable g x)
      let u := { s with su := { s.su with signals := s.su.signals.set g e.1 } }
      (e.2 = .nothing → s.evaluateSignal l g = u)
      ∧ (e.2 = .proved → s.evaluateSignal l g = { u with re := { u.re with reports := u.re.reports ++ [.proved g] } })
      ∧ (∀ left lamp, e.2 = .failed left lamp → s.evaluateSignal l g = ({ u with
          rq := { u.rq with fault := u.rq.fault.set g true }
          re := { u.re with reports := u.re.reports ++ (if left = SignalState.proceed then [SuReport.lampFault g] else []) } }).eventSent 3
            [byte g, byte left.code, byte lamp.enum])
      ∧ (e.2 = .recovered →
          let cleared := { u with rq := { u.rq with fault := u.rq.fault.set g false } }
          (∀ p, (s.yard.signals[g]?).bind (·.reqPoint) = some p → s.evaluateSignal l g = ({ cleared with rq := { cleared.rq with
            points := s.rq.points.modify p (fun r => { r with hold := none }) } }).scan)
          ∧ ((s.yard.signals[g]?).bind (·.reqPoint) = none → s.evaluateSignal l g = cleared.scan)))

/-- Which lamp reading counts (R17): that of the lit lamp, from the second exchange on that sends it since SU lit it; the reading of the
first, which lights it, is not used. That each lighting by SU counts from 0, also where the field still shows the lamp, is log entry 50. -/
def Sys2Proof.Clause.LampReadingsLagTheLighting : Prop :=
  ∀ (l : LampReadings) (g : Nat) (x : SignalRec),
    (x.lit = none → l.usable g x = none)
    ∧ (x.sent ≤ 1 → l.usable g x = none)
    ∧ (2 ≤ x.sent →
      (x.lit = some .stop → l.usable g x = some (l.stop.getLsbD g))
      ∧ (x.lit = some .left → l.usable g x = some (l.left.getLsbD g))
      ∧ (x.lit = some .straight → l.usable g x = some (l.straight.getLsbD g))
      ∧ (x.lit = some .right → l.usable g x = some (l.right.getLsbD g)))

/-- What each lamp reading does, and what a window evaluation gives (R17, R34, R36, R37, R82). -/
def Obligations.LampReadings : Prop :=
  Clause.LampReadingTable ∧ Clause.LampReadingsLagTheLighting ∧ Clause.SignalWindowEvaluatesEverySignal
    ∧ Clause.SignalEvaluationsAreReported

/-- READER_INPUT_BYTE at a configured point with no 3 ms gap passed: up to seven bytes are held; the eighth completes a telegram, which
waits for its request where it is undamaged and good, and is counted otherwise; the first byte after it counts as an overrun (R75,
R76; that validation happens at the eighth byte is log entry 29, that the 3 ms run to the end of a byte is log entry 52). -/
def Sys2Proof.Clause.ReaderBytesFormTelegrams : Prop :=
  ∀ (p : Nat) (value : Byte) (framed : Bool) (s : State) (r : ReqPoint), s.readsPoint p = true → s.rq.points[p]? = some r →
    due r.gap = false →
    ∃ t : State, exec (.readerInputByte p value framed) s = .next t
      ∧ (r.overrun = .none → r.bytes.length < 7 →
          t.rq.points[p]? = some { r with bytes := r.bytes ++ [value], damaged := (r.damaged || !framed), gap := some ⟨0, 3⟩ }
          ∧ t.rq.telegrams = s.rq.telegrams ∧ t.cnt = s.cnt)
      ∧ (r.overrun = .none → 7 ≤ r.bytes.length →
          t.rq.points[p]? = some { r with bytes := [], damaged := false, gap := some ⟨0, 3⟩, overrun := .armed }
          ∧ (r.damaged = true ∨ framed = false →
              t.rq.telegrams = s.rq.telegrams ∧ t.cnt = { s.cnt with badTelegram := bump s.cnt.badTelegram })
          ∧ (r.damaged = false → framed = true → telegramFault (r.bytes ++ [value]) = some .badCheck →
              t.rq.telegrams = s.rq.telegrams ∧ t.cnt = { s.cnt with badTelegram := bump s.cnt.badTelegram })
          ∧ (r.damaged = false → framed = true → telegramFault (r.bytes ++ [value]) = some .badTram →
              t.rq.telegrams = s.rq.telegrams ∧ t.cnt = { s.cnt with badTram := bump s.cnt.badTram })
          ∧ (r.damaged = false → framed = true → telegramFault (r.bytes ++ [value]) = none →
              t.rq.telegrams = s.rq.telegrams ++ [⟨p, r.bytes ++ [value], s.time⟩] ∧ t.cnt = s.cnt))
      ∧ (r.overrun = .armed → t.rq.points[p]? = some { r with gap := some ⟨0, 3⟩, overrun := .counted }
          ∧ t.rq.telegrams = s.rq.telegrams ∧ t.cnt = { s.cnt with badTelegram := bump s.cnt.badTelegram })
      ∧ (r.overrun = .counted → t.rq.points[p]? = some { r with gap := some ⟨0, 3⟩ }
          ∧ t.rq.telegrams = s.rq.telegrams ∧ t.cnt = s.cnt)
      ∧ t = { s with rq := { s.rq with points := t.rq.points, telegrams := t.rq.telegrams }, cnt := t.cnt }

/-- The checks of a completed telegram (R76, R180): its last byte is FFh less the sum modulo 256 of the first seven, and its tram number lies
in 1-9999. -/
def Sys2Proof.Clause.TelegramsAreValidated : Prop :=
  ∀ b0 b1 b2 b3 b4 b5 b6 b7 : Byte,
    let l : List Byte := [b0, b1, b2, b3, b4, b5, b6, b7]
    let sum := b0.toNat + b1.toNat + b2.toNat + b3.toNat + b4.toNat + b5.toNat + b6.toNat
    let tram := 256 * b0.toNat + b1.toNat
    (b7.toNat ≠ 255 - sum % 256 → telegramFault l = some .badCheck)
    ∧ (b7.toNat = 255 - sum % 256 → tram = 0 ∨ 9999 < tram → telegramFault l = some .badTram)
    ∧ (b7.toNat = 255 - sum % 256 → 1 ≤ tram → tram ≤ 9999 → telegramFault l = none)

/-- TELEGRAM_GAP_TIMEOUT after 3 ms: the bytes held are discarded, and counted where there are any (R75). REFUSAL_HOLD_EXPIRY: the hold
ends at its end time (R79). -/
def Sys2Proof.Clause.RequestPointTimersExpire : Prop :=
  ∀ (p : Nat) (s : State) (r : ReqPoint), s.rq.points[p]? = some r →
    (due r.gap = true → ∃ t : State, exec (.telegramGapTimeout p) s = .next t
      ∧ t.rq.points = s.rq.points.set p { r with bytes := [], damaged := false, gap := none, overrun := .none }
      ∧ t.cnt = (if r.bytes = [] then s.cnt else { s.cnt with badTelegram := bump s.cnt.badTelegram })
      ∧ t = { s with rq := { s.rq with points := t.rq.points }, cnt := t.cnt })
    ∧ (∀ h, r.hold = some h → reached s.time h.endTime = true → ∃ t : State, exec (.refusalHoldExpiry p) s = .next t
      ∧ t.rq.points = s.rq.points.set p { r with hold := none }
      ∧ t = { s with rq := { s.rq with points := t.rq.points } })

/-- Reader inputs and the timers of request points (R75, R76, R79). -/
def Obligations.ReaderInputs : Prop :=
  Clause.ReaderBytesFormTelegrams ∧ Clause.TelegramsAreValidated ∧ Clause.RequestPointTimersExpire

/-- A request meets the refusal conditions 1 to 5 in their order; the first that holds gives the detail (R78). -/
def Sys2Proof.Clause.RefusalConditionsInOrder : Prop :=
  ∀ (s : State) (t : Telegram) (c : ReqCode),
    let g := s.entrySignal t.point
    s.refusalOf t none = some .badCode
    ∧ (s.pt.mode ≠ .running → s.refusalOf t (some c) = some .notReady)
    ∧ (s.pt.mode = .running → s.rq.fault.getD g false = true → s.refusalOf t (some c) = some .signalFault)
    ∧ (s.pt.mode = .running → s.rq.fault.getD g false = false → s.matchRoute g c t.bytes = none →
        s.refusalOf t (some c) = some .noRoute)
    ∧ (s.pt.mode = .running → s.rq.fault.getD g false = false → s.matchRoute g c t.bytes ≠ none → s.freeSlot = none →
        s.refusalOf t (some c) = some .tableFull)
    ∧ (s.pt.mode = .running → s.rq.fault.getD g false = false → s.matchRoute g c t.bytes ≠ none → s.freeSlot ≠ none →
        s.refusalOf t (some c) = none)

/-- IN_REQUEST, OUT_REQUEST, ROAD_REQUEST and DEST_REQUEST: a held or repeated request is ignored; a refused one writes its outcome and
sets the refusal hold of 30 s; an accepted one takes the lowest FREE slot under the next serial, joins its signal's queue, and the
lamps and the activation scan follow (R77 to R80). -/
def Sys2Proof.Clause.RequestsAreTakenOrRefused : Prop :=
  ∀ (c : ReqCode) (p : Nat) (s : State) (m : Telegram) (rest : List Telegram), s.hasTelegram p (.request c) m rest →
    let taken := { s with rq := { s.rq with telegrams := rest } }
    ∃ t : State, exec (requestCommand c p) s = .next t
      ∧ (s.holdStands m = true ∨ s.duplicate m c = true → t = taken)
      ∧ (∀ d, s.holdStands m = false → s.duplicate m c = false → s.refusalOf m (some c) = some d →
          t.rq.ring = (⟨none, wordAt m.bytes 0, s.entrySignal m.point, .refused d, s.time⟩ :: s.rq.ring).take 16
          ∧ (∀ r, s.rq.points[m.point]? = some r → t.rq.points[m.point]?
              = some { r with hold := some ⟨wordAt m.bytes 0, telCode m.bytes, m.arrival + BitVec.ofNat 32 30000⟩ })
          ∧ t.rp.serial = s.rp.serial + 1
          ∧ t = { taken with rq := { taken.rq with ring := t.rq.ring, points := t.rq.points }, rp := t.rp, fs := t.fs, cnt := t.cnt })
      ∧ (∀ k, s.holdStands m = false → s.duplicate m c = false → s.refusalOf m (some c) = none → s.freeSlot = some k →
          (c = .outbound → s.mouthRoad m.point = none) →
          t = ({ taken with rq := { taken.rq with
            serial := s.rq.serial + 1, slots := s.rq.slots.set k (.queued (s.slotDataOf m c (s.rq.serial + 1)))
            queues := s.rq.queues.modify (s.entrySignal m.point) (fun q => q ++ [k]) } }).setLamps.scan)

/-- What a request is compared with (R77 to R81): a hold of its point for the same tram and code; a slot in use of the same point, tram and
code; the first route at the entry signal of its class and destination; the lowest FREE slot; and what its slot then holds. -/
def Sys2Proof.Clause.RequestsAreCompared : Prop :=
  ∀ (s : State) (m : Telegram) (c : ReqCode),
    let tram := wordAt m.bytes 0
    let fits := fun (g : Nat) (rc : RouteCfg) => rc.signal = g ∧ (match c with
      | .inbound => rc.cls = .runIn
      | .outbound => rc.cls = .runOut ∧ rc.dest = .line
      | .road => rc.cls = .runIn ∧ rc.dest = .road (byteAt m.bytes 5) (byteAt m.bytes 6)
      | .dest => rc.cls = .shunt ∧ rc.dest = .code (byteAt m.bytes 5))
    (s.holdStands m = true ↔ ∃ r h, s.rq.points[m.point]? = some r ∧ r.hold = some h ∧ h.tram = tram ∧ h.code = byteAt m.bytes 4)
    ∧ (s.duplicate m c = true ↔ ∃ d, (Slot.queued d ∈ s.rq.slots ∨ ∃ i mark, Slot.active d i mark ∈ s.rq.slots)
        ∧ d.point = m.point ∧ d.tram = tram ∧ d.code = c)
    ∧ (∀ g, s.matchRoute g c m.bytes = none ↔ ∀ rc ∈ s.yard.routes, ¬ fits g rc)
    ∧ (∀ g k, s.matchRoute g c m.bytes = some k ↔ (∃ rc, s.yard.routes[k]? = some rc ∧ fits g rc)
        ∧ ∀ j rc, j < k → s.yard.routes[j]? = some rc → ¬ fits g rc)
    ∧ (s.freeSlot = none ↔ Slot.free ∉ s.rq.slots)
    ∧ (∀ k, s.freeSlot = some k ↔ s.rq.slots[k]? = some .free ∧ ∀ j, j < k → s.rq.slots[j]? ≠ some .free)
    ∧ (∀ serial, s.slotDataOf m c serial =
        { serial := serial, tram := tram, places := if byteAt m.bytes 2 % 4 = 1 then 1 else 2, runOut := byteAt m.bytes 3, code := c
          road := if c = .road then some (byteAt m.bytes 5, byteAt m.bytes 6) else none
          destCode := if c = .dest then some (byteAt m.bytes 5) else none
          point := m.point, signal := s.entrySignal m.point
          route := if c = .inbound then none else s.matchRoute (s.entrySignal m.point) c m.bytes
          arrival := m.arrival, attempts := 0 })

/-- OUT_REQUEST at the mouth of a road: the run-out check marks the road first; where it does not accept the tram, the request is
refused BLOCKED, otherwise it takes its slot (R78, R157). -/
def Sys2Proof.Clause.RunOutCheckBlocksRequests : Prop :=
  ∀ (p road : Nat) (s : State) (m : Telegram) (rest : List Telegram), s.hasTelegram p (.request .outbound) m rest →
    s.holdStands m = false → s.duplicate m .outbound = false → s.refusalOf m (some .outbound) = none →
    s.mouthRoad m.point = some road →
    let taken := { s with rq := { s.rq with telegrams := rest } }
    let tram := wordAt m.bytes 0
    (s.runOutAccepts road tram = false → exec (.outRequest p) s = .next ((taken.runOutMark road tram).refuse m .blocked))
    ∧ (∀ k, s.freeSlot = some k → s.runOutAccepts road tram = true →
        exec (.outRequest p) s = .next ((taken.runOutMark road tram).takeSlot m .outbound k))

/-- Requests (R77 to R80, R157). -/
def Obligations.RequestsTable : Prop :=
  Clause.RefusalConditionsInOrder ∧ Clause.RequestsAreCompared ∧ Clause.RequestsAreTakenOrRefused ∧ Clause.RunOutCheckBlocksRequests

/-- UNKNOWN_CODE_TELEGRAM completes: it is refused BAD_CODE, with its outcome record, its report and its refusal hold of 30 s, unless
its hold stands (R78, R79). -/
def Sys2Proof.Clause.UnknownCodesAreRefused : Prop :=
  ∀ (p : Nat) (s : State) (m : Telegram) (rest : List Telegram), s.hasTelegram p .unknown m rest →
    let taken := { s with rq := { s.rq with telegrams := rest } }
    let record : OutcomeRec := ⟨none, wordAt m.bytes 0, s.entrySignal m.point, .refused .badCode, s.time⟩
    exec (.unknownCodeTelegram p) s = .next (if s.holdStands m = true then taken else taken.refuse m .badCode)
    ∧ taken.refuse m .badCode = { taken with
        rq := { taken.rq with
          ring := (record :: s.rq.ring).take 16
          points := s.rq.points.modify m.point (fun r => { r with
            hold := some ⟨wordAt m.bytes 0, telCode m.bytes, m.arrival + BitVec.ofNat 32 30000⟩ }) }
        rp := (s.reportOutcome record).rp, fs := (s.reportOutcome record).fs, cnt := (s.reportOutcome record).cnt }

/-- CANCEL completes (R86, R88). Of the slots of its point and tram, each QUEUED one leaves its signal's queue and is freed, with an
outcome record CANCELLED(REQUESTED) in the ring and its report, and the lamps follow; each ACTIVE one without a mark gets the mark, and
a cancel REQUESTED is passed to RE; one with a mark stays as it is. That the slots come in rising index is the model's choice (log entry
33). Outside RUNNING the CANCEL is ignored. -/
def Sys2Proof.Clause.CancelEndsTheSlotsOfItsTram : Prop :=
  ∀ (p : Nat) (s : State) (m : Telegram) (rest : List Telegram), s.hasTelegram p .cancel m rest →
    (s.pt.mode ≠ .running → exec (.cancel p) s = .next { s with rq := { s.rq with telegrams := rest } })
    ∧ (s.pt.mode = .running → ∃ t : State, exec (.cancel p) s = .next t
      ∧ (∀ (i : Nat) (x : Slot), s.rq.slots[i]? = some x → t.rq.slots[i]? = some (match x with
          | .queued d => if d.point = m.point ∧ d.tram = wordAt m.bytes 0 then .free else .queued d
          | .active d inst none =>
              if d.point = m.point ∧ d.tram = wordAt m.bytes 0 then .active d inst (some .requested) else .active d inst none
          | x => x))
      ∧ t.rq.slots.length = s.rq.slots.length
      ∧ (∀ (g : Nat) (q : List Nat), s.rq.queues[g]? = some q → t.rq.queues[g]? = some (q.filter (fun k : Nat => match s.rq.slots[k]? with
          | some (.queued d) => !(m.concerns d && d.signal == g)
          | _ => true)))
      ∧ t.rq.queues.length = s.rq.queues.length
      ∧ t.rq.ring = ringAfter s.rq.ring (s.cancelRecords m)
      ∧ t.rq.lamps = (if s.cancelRecords m = [] then s.rq.lamps else (List.range 8).map t.lampFor)
      ∧ t.re = { s.re with cancels := s.re.cancels ++ s.cancelMessages m }
      ∧ t.rp = (s.reported (s.cancelRecords m)).rp ∧ t.fs = (s.reported (s.cancelRecords m)).fs
      ∧ t.cnt = (s.reported (s.cancelRecords m)).cnt
      ∧ t = { s with
          rq := { s.rq with telegrams := rest, slots := t.rq.slots, queues := t.rq.queues, ring := t.rq.ring, lamps := t.rq.lamps }
          re := t.re, rp := t.rp, fs := t.fs, cnt := t.cnt })

/-- SLOT_LIFETIME_EXPIRY completes, 600 s after the arrival (R87, R88): a QUEUED slot leaves its signal's queue and is freed, with an
outcome record EXPIRED in the ring and its report, and the lamps follow; an ACTIVE one without a mark gets the mark, and a cancel
LIFETIME is passed to RE; one with a mark stays as it is. -/
def Sys2Proof.Clause.LifetimeEndsTheSlot : Prop :=
  ∀ (i : Nat) (s : State) (d : SlotData), reached s.time (d.arrival + BitVec.ofNat 32 600000) = true →
    (s.rq.slots[i]? = some (.queued d) → ∃ t : State, exec (.slotLifetimeExpiry i) s = .next t
      ∧ t.rq.slots = s.rq.slots.set i .free
      ∧ t.rq.ring = (⟨some d.serial, d.tram, d.signal, .expired, s.time⟩ :: s.rq.ring).take 16
      ∧ t.rq.queues = s.rq.queues.modify d.signal (fun q => q.filter (fun k => k != i))
      ∧ t.rq.lamps = (List.range 8).map t.lampFor
      ∧ t.re = s.re
      ∧ t.rp = (s.reportOutcome (s.outcomeOf d .expired)).rp ∧ t.fs = (s.reportOutcome (s.outcomeOf d .expired)).fs
      ∧ t.cnt = (s.reportOutcome (s.outcomeOf d .expired)).cnt
      ∧ t = { s with
          rq := { s.rq with slots := t.rq.slots, queues := t.rq.queues, ring := t.rq.ring, lamps := t.rq.lamps }
          rp := t.rp, fs := t.fs, cnt := t.cnt })
    ∧ (∀ inst, s.rq.slots[i]? = some (.active d inst none) → ∃ t : State, exec (.slotLifetimeExpiry i) s = .next t
      ∧ t = { s with
          rq := { s.rq with slots := s.rq.slots.set i (.active d inst (some .lifetime)) }
          re := { s.re with cancels := s.re.cancels ++ [⟨inst, i, d.serial, .lifetime⟩] } })
    ∧ (∀ inst mark, s.rq.slots[i]? = some (.active d inst (some mark)) → exec (.slotLifetimeExpiry i) s = .next s)

/-- The report of an outcome record (R88, R167): an EVENT frame with the request serial or none, the tram, the entry signal, the code and
its detail or none (codes and details numbered by log entry 12). -/
def Sys2Proof.Clause.OutcomesAreReported : Prop :=
  ∀ (s : State) (r : OutcomeRec), s.reportOutcome r = s.eventSent 1
    ((match r.serial with | some n => 1 :: bytes2 n.toNat | none => [0]) ++ bytes2 r.tram ++ [byte r.signal, byte r.code.enum]
      ++ (match r.code.detail with | some d => [1, byte d] | none => [0]))

/-- Unknown codes, cancels and lifetimes (R78, R79, R86 to R88). -/
def Obligations.CancelAndLifetimeEndSlots : Prop :=
  Clause.UnknownCodesAreRefused ∧ Clause.CancelEndsTheSlotsOfItsTram ∧ Clause.LifetimeEndsTheSlot ∧ Clause.OutcomesAreReported

/-- OUTCOME: the slot of the instance is freed with its outcome record, the lamps follow, and the activation scan runs (R85, R88, R90);
an outcome that no longer matches its slot changes none. RQ_ISOLATION: every slot in use ends with an
outcome record CANCELLED(ISOLATION) in the ring and its report, in rising index, every slot is FREE,
and every queue is empty (R89). -/
def Sys2Proof.Clause.OutcomesAndIsolationFreeSlots : Prop :=
  (∀ (s : State) (m : OutcomeMsg) (rest : List OutcomeMsg), s.rq.outcomes = m :: rest →
      let taken := { s with rq := { s.rq with outcomes := rest } }
      (∀ d mark, s.rq.slots[m.slot]? = some (.active d m.inst mark) → d.serial = m.serial →
        exec .outcome s = .next (((taken.setSlot m.slot .free).slotOutcome d m.code).setLamps.scan))
      ∧ ((∀ d inst mark, s.rq.slots[m.slot]? = some (.active d inst mark) → d.serial ≠ m.serial ∨ inst ≠ m.inst) →
        exec .outcome s = .next taken.scan))
  ∧ (∀ s : State, s.rq.isolated = true → ∃ t : State, exec .rqIsolation s = .next t
      ∧ t.rq.isolated = false
      ∧ (∀ x ∈ t.rq.slots, x = .free) ∧ t.rq.slots.length = s.rq.slots.length
      ∧ (∀ q ∈ t.rq.queues, q = []) ∧ (∀ b ∈ t.rq.lamps, b = false)
      ∧ t.rq.ring = ringAfter s.rq.ring s.isolationRecords
      ∧ t.rp = (s.reported s.isolationRecords).rp ∧ t.fs = (s.reported s.isolationRecords).fs
      ∧ t.cnt = (s.reported s.isolationRecords).cnt
      ∧ t.rq.points = s.rq.points ∧ t.re = s.re ∧ t.ct = s.ct ∧ t.yu = s.yu
      ∧ t = { s with
          rq := { s.rq with
            isolated := false, slots := t.rq.slots, queues := t.rq.queues, ring := t.rq.ring, lamps := t.rq.lamps }
          rp := t.rp, fs := t.fs, cnt := t.cnt })

/-- The activation scan (R83, R84, R122): it visits the signals from the one after the last served one on; with none that can activate a
slot it changes nothing; the first that can activates, and the scan goes on from the signal after it, for eight visits more. An activation
takes the head of its signal's queue into the lowest free instance, records the signal served, and begins by the request code. -/
def Sys2Proof.Clause.ScanActivatesQueueHeads : Prop :=
  (∀ s : State, (∀ g, g < 8 → s.activable g = none) → s.scan = s)
  ∧ (∀ (s : State) (j k : Nat) (d : SlotData) (i : Nat), j < 8 →
      let at_ := fun n : Nat => (s.rq.lastServed + 1 + n) % 8
      (∀ n, n < j → s.activable (at_ n) = none) → s.activable (at_ j) = some (k, d, i) →
      s.scan = (s.activate (at_ j) k d i).visit (71 - j) 8 ((at_ j + 1) % 8))
  ∧ (∀ (s : State) (n left g : Nat),
      s.visit n 0 g = s
      ∧ (s.activable g = none → s.visit (n + 1) (left + 1) g = s.visit n left ((g + 1) % 8))
      ∧ (∀ k d i, s.activable g = some (k, d, i) →
          s.visit (n + 1) (left + 1) g = (s.activate g k d i).visit n 8 ((g + 1) % 8)))
  ∧ (∀ (s : State) (g k : Nat) (d : SlotData) (i : Nat), s.activable g = some (k, d, i) →
      s.pt.mode = .running ∧ s.rq.fault.getD g false = false ∧ s.instAt g = none
      ∧ s.inst? i = none ∧ (∀ j, j < i → s.inst? j ≠ none)
      ∧ ((s.rq.queues[g]?).bind List.head?) = some k ∧ s.rq.slots[k]? = some (.queued d)
      ∧ s.activate g k d i = (({ s with rq := { s.rq with
          slots := s.rq.slots.set k (.active d i none), queues := s.rq.queues.modify g List.tail, lastServed := g } }).setInst i
            (some (Inst.new k d))).startInst i d.code)

/-- Outcomes, isolation and the activation scan (R83 to R90, R122). -/
def Obligations.SlotsEndAndActivate : Prop :=
  Clause.OutcomesAndIsolationFreeSlots ∧ Clause.ScanActivatesQueueHeads

/-! ## The Claim Table (R92 to R118) -/

/-- CLAIM, SET and RELEASE reach CT as a frame, in one turn of the frame handler, or as the oldest handover of the own RE; a SET or a
RELEASE frame counts only from the owner that its key names (R96, R103, R104, R113). -/
def Sys2Proof.Clause.ClaimTrafficReachesCt : Prop :=
  ∀ s : State,
    (∀ (f : RxFrame) (fs' : FS), s.fs.takeFrame .claim = some (f, fs') →
      exec (.claim .frame) s = .next (({ s with fs := fs' }).evaluateClaim (decClaim f.payload) (some f.rx)).finishFrame)
    ∧ (∀ (f : RxFrame) (fs' : FS), s.fs.takeFrame .set = some (f, fs') →
      exec (.set .frame) s = .next (if f.rx.source = (decKey f.payload).owner
        then (({ s with fs := fs' }).takeSet (decKey f.payload)).finishFrame else ({ s with fs := fs' }).finishFrame))
    ∧ (∀ (f : RxFrame) (fs' : FS), s.fs.takeFrame .release = some (f, fs') →
      exec (.release .frame) s = .next (if f.rx.source = (decKey f.payload).owner
        then (({ s with fs := fs' }).takeRelease (decKey f.payload)).finishFrame else ({ s with fs := fs' }).finishFrame))
    ∧ (∀ req rest, s.ct.fromRe = .claim req :: rest →
      exec (.claim .handover) s = .next (({ s with ct := { s.ct with fromRe := rest } }).evaluateClaim req none))
    ∧ (∀ key rest, s.ct.fromRe = .set key :: rest →
      exec (.set .handover) s = .next (({ s with ct := { s.ct with fromRe := rest } }).takeSet key))
    ∧ (∀ key rest, s.ct.fromRe = .release key :: rest →
      exec (.release .handover) s = .next (({ s with ct := { s.ct with fromRe := rest } }).takeRelease key))

/-- The checks of a CLAIM before its steps (R97, R98): no answer to source 63; NOT_READY in JOINING and ISOLATED in ISOLATED;
UNKNOWN_PEER for a requester that is not trusted; a repeat is answered with the same GRANT, or HELD 0 while its record winds down;
the first earlier attempt of the route that has been seen occupied denies HELD 0; where none has, the earlier ones are wound down, and
the step checks follow (that of several earlier ones the first in rising claim ID denies, and that a repeat of a record in ORPHANED gets
its GRANT, is the model's choice: log entry 41). -/
def Sys2Proof.Clause.ClaimChecksBeforeItsSteps : Prop :=
  ∀ (s : State) (req : ClaimReq) (rx : Option RxRec), fromNobody rx = false →
    (∀ r : RxRec, r.source = 63 → s.evaluateClaim req (some r) = s)
    ∧ (s.pt.mode = .joining → s.evaluateClaim req rx = s.denyTo req.key.owner req.key .notReady 0 none)
    ∧ (s.pt.mode = .isolated → s.evaluateClaim req rx = s.denyTo req.key.owner req.key .isolated 0 none)
    ∧ (s.pt.mode = .running → requesterTrusted rx req.key = false →
        s.evaluateClaim req rx = s.denyTo (claimSource rx req.key) req.key .unknownPeer 0 none)
    ∧ (s.pt.mode = .running → requesterTrusted rx req.key = true →
        (∀ id c, s.claimWithKey req.key = some id → s.claim? id = some c → s.evaluateClaim req rx
          = (if c.releaseMark then s.denyTo req.key.owner req.key .held 0 (some c.cls.code)
             else s.tellRe req.key.owner (.grant req.key id)))
        ∧ (s.claimWithKey req.key = none → s.claimsWhere (fun c => c.earlierOf req.key) = [] →
            s.evaluateClaim req rx = s.checkSteps req)
        ∧ (∀ id c others, s.claimWithKey req.key = none → s.claimsWhere (fun c => c.earlierOf req.key) = id :: others →
            s.claim? id = some c → c.anySeen = true →
            s.evaluateClaim req rx = s.denyTo req.key.owner req.key .held 0 (some c.cls.code))
        ∧ (∀ front id c others, s.claimWithKey req.key = none →
            s.claimsWhere (fun c => c.earlierOf req.key) = front ++ id :: others →
            (∀ j ∈ front, ∀ c', s.claim? j = some c' → ∀ st ∈ c'.steps, st.seen = false) →
            s.claim? id = some c → (∃ st ∈ c.steps, st.seen = true) →
            s.evaluateClaim req rx = s.denyTo req.key.owner req.key .held 0 (some c.cls.code))
        ∧ (s.claimWithKey req.key = none →
            (∀ id ∈ s.claimsWhere (fun c => c.earlierOf req.key), ∀ c, s.claim? id = some c → ∀ st ∈ c.steps, st.seen = false) →
            s.evaluateClaim req rx
              = (forEach (s.claimsWhere (fun c => c.earlierOf req.key)) (fun id u => u.windDown id) s).checkSteps req))
    ∧ (∀ id, id ∈ s.claimsWhere (fun c => c.earlierOf req.key) ↔ ∃ c, s.claim? id = some c ∧ c.key.owner = req.key.owner
        ∧ c.key.epoch = req.key.epoch ∧ c.key.route = req.key.route ∧ c.key ≠ req.key)

/-- What reaches CT, and the checks of a CLAIM before its steps (R96 to R98, R103, R104, R113). -/
def Obligations.ClaimsAreChecked : Prop :=
  Clause.ClaimTrafficReachesCt ∧ Clause.ClaimChecksBeforeItsSteps

/-- The step checks of a CLAIM, in their order (R99, R100): TABLE_FULL, then for each step HELD, OCCUPIED, DISTURBED, POINT_FAULT, and
NO_AWARD or NO_ROOM. -/
def Sys2Proof.Clause.StepDenialsInOrder : Prop :=
  ∀ (s : State) (req : ClaimReq) (st : ReqStep),
    (∀ id c, s.lock? st.sect = some id → s.claim? id = some c → s.stepDenial req st = some (.held, some c.cls.code))
    ∧ (s.lock? st.sect = none → s.sectState st.sect = some .occupied → s.stepDenial req st = some (.occupied, none))
    ∧ (s.lock? st.sect = none → s.sectState st.sect = some .disturbed → s.stepDenial req st = some (.disturbed, none))
    ∧ (s.lock? st.sect = none → s.sectState st.sect = some .clear →
        (∀ p, (s.containedPoints st.sect).find? (fun p => (s.pointState p).any PointState.faulty) = some p →
          s.stepDenial req st = some (.pointFault, some p))
        ∧ ((s.containedPoints st.sect).find? (fun p => (s.pointState p).any PointState.faulty) = none →
          (st.mouth = false ∨ req.award = none → s.stepDenial req st = none)
          ∧ (∀ a r, st.mouth = true → req.award = some a → s.roadOfMouth st.sect = some r →
              s.stepDenial req st = (if s.awardHeld r a.call req.key then none
                else some (if a.direct then .noRoom else .noAward, none)))))

/-- When a CLAIM is denied BAD_STEP, and with which step number (R99, R182): step number 0 for a class code of 3, and, by the model's
choice (log entry 46), for no step and for more than 12; otherwise the number of the first step that offends: its number is 0, above 12 or
not above that of the step before it; its demand count is 3; its section is 16 or more, not configured, an APPROACH or ROAD_BODY section,
or that of an earlier step (the later of the two offends: log entry 46); it demands a point that its section does not contain, or one
twice; or it carries the mouth flag off a ROAD_MOUTH section, not as the last step, without award reference or in a class other than
RUN_IN. -/
def Sys2Proof.Clause.BadStepConditions : Prop :=
  (∀ l : List Byte, (decClaim l).cls = none ↔ byteAt l 7 % 4 = 3)
  ∧ (∀ (s : State) (req : ClaimReq),
    let offends := fun (front : List ReqStep) (st : ReqStep) (back : List ReqStep) =>
      st.number = 0 ∨ 12 < st.number ∨ (∃ e, front.getLast? = some e ∧ st.number ≤ e.number)
      ∨ st.demandCount = 3
      ∨ 16 ≤ st.sect ∨ s.yard.sects[st.sect]? = none ∨ (∃ e ∈ front, e.sect = st.sect)
      ∨ (∃ c, s.yard.sects[st.sect]? = some c ∧ (c.role = .approach ∨ c.role = .roadBody ∨ (∃ d ∈ st.demands, d.point ∉ c.points)
          ∨ (st.mouth = true ∧ c.role ≠ .roadMouth)))
      ∨ ¬ (st.demands.map (·.point)).Nodup
      ∨ (st.mouth = true ∧ (back ≠ [] ∨ req.award = none ∨ req.cls ≠ some .runIn))
    (req.cls = none ∨ req.steps = [] ∨ 12 < req.steps.length → s.badClaim req = some 0)
    ∧ (∀ front st back, req.cls ≠ none → req.steps.length ≤ 12 → req.steps = front ++ st :: back → offends front st back →
        (∀ a x b, front = a ++ x :: b → ¬ offends a x (b ++ st :: back)) → s.badClaim req = some st.number)
    ∧ (req.cls ≠ none → req.steps ≠ [] → req.steps.length ≤ 12 →
        (∀ front st back, req.steps = front ++ st :: back → ¬ offends front st back) → s.badClaim req = none))

/-- A CLAIM that passes every check is granted (R102): the head of the free list gets the record in RESERVED with the reserved timer at 0
toward 10 s, each section of its steps is locked by it, the GRANT goes to the owner, to the own RE or as a frame, YU gets the link notice
of a mouth step with an award (R152), and the counter advances; the first step that a check denies gives the DENY, and a CLAIM that fails
a check changes no record and no lock. A DENY to the own RE is a handover and advances the counter as a frame does (log entry 14); none
goes to a number that is not a node ID (log entry 17). -/
def Sys2Proof.Clause.GrantLocksEveryStep : Prop :=
  (∀ (s : State) (req : ClaimReq) (cls : RouteClass) (id : Nat) (rest : List Nat), req.cls = some cls → s.badClaim req = none →
    s.ct.free = id :: rest → id < s.ct.records.length → s.ct.locks.length = s.yard.sects.length → s.firstDenial req req.steps = none →
    (s.checkSteps req).claim? id = some (s.grantedRecord req cls)
    ∧ (s.checkSteps req).ct.free = rest
    ∧ (∀ st ∈ req.steps, (s.checkSteps req).lock? st.sect = some id)
    ∧ (∀ k, (∀ st ∈ req.steps, st.sect ≠ k) → (s.checkSteps req).lock? k = s.lock? k)
    ∧ (s.checkSteps req).cnt.granted = bump s.cnt.granted
    ∧ (req.key.owner = s.pt.node → (s.checkSteps req).re.fromCt = s.re.fromCt ++ [.grant req.key id] ∧ (s.checkSteps req).fs = s.fs)
    ∧ (req.key.owner ≠ s.pt.node → req.key.owner < 63 →
        (s.checkSteps req).fs = (s.send .grant req.key.owner (encKey req.key ++ [byte id])).fs ∧ (s.checkSteps req).re = s.re)
    ∧ (∀ st a r, req.steps.find? (·.mouth) = some st → req.award = some a → s.roadOfMouth st.sect = some r →
        (s.checkSteps req).yu = { s.yu with roads := s.yu.roads.modify r (fun x => { x with arrivals := x.arrivals.map (fun y =>
          if y.call = a.call ∧ y.call.caller = req.key.owner ∧ y.epoch = req.key.epoch then { y with link := some id } else y) }) })
    ∧ (req.steps.find? (·.mouth) = none ∨ req.award = none → (s.checkSteps req).yu = s.yu)
    ∧ (s.grantedRecord req cls).state = .reserved ∧ (s.grantedRecord req cls).reservedT = some ⟨0, 10000⟩
    ∧ (s.grantedRecord req cls).steps.length = req.steps.length)
  ∧ (∀ (s : State) (req : ClaimReq) (n : Nat), s.badClaim req = some n →
    s.checkSteps req = s.denyTo req.key.owner req.key .badStep n none)
  ∧ (∀ (s : State) (req : ClaimReq) (cls : RouteClass), req.cls = some cls → s.badClaim req = none → s.ct.free = [] →
    s.checkSteps req = s.denyTo req.key.owner req.key .tableFull 0 none)
  ∧ (∀ (s : State) (req : ClaimReq) (cls : RouteClass) (id : Nat) (free : List Nat) (front back : List ReqStep) (st : ReqStep)
      (r : DenyReason) (d : Option Nat), req.cls = some cls → s.badClaim req = none → s.ct.free = id :: free →
    req.steps = front ++ st :: back → (∀ x ∈ front, s.stepDenial req x = none) → s.stepDenial req st = some (r, d) →
    s.firstDenial req req.steps = some (st.number, r, d)
    ∧ s.checkSteps req = s.denyTo req.key.owner req.key r st.number d)
  ∧ (∀ (s : State) (req : ClaimReq), (∀ x ∈ req.steps, s.stepDenial req x = none) → s.firstDenial req req.steps = none)
  ∧ (∀ (s : State) (dest : Nat) (key : RouteKey) (r : DenyReason) (st : Nat) (d : Option Nat),
    (s.denyTo dest key r st d).ct = s.ct ∧ (s.denyTo dest key r st d).cnt.denied = (if dest < 63 then bump s.cnt.denied else s.cnt.denied)
    ∧ (dest < 63 → dest = s.pt.node → (s.denyTo dest key r st d).re = { s.re with fromCt := s.re.fromCt ++ [.deny key r st d] }
        ∧ (s.denyTo dest key r st d).fs = s.fs)
    ∧ (dest < 63 → dest ≠ s.pt.node → (s.denyTo dest key r st d).re = s.re
        ∧ (s.denyTo dest key r st d).fs = (s.send .deny dest (encReMsg (.deny key r st d))).fs))

/-- What the record of a granted CLAIM holds (R92, R99, R102): the claim's key, class, tram and steps, each step locked and not seen, with
the points of its section that it does not demand as kept points; the approach limit taken as the nearer end of 10-250 s; the award
reference where a step carries the mouth flag; every mark clear, the reserved timer at 0 toward 10 s, and no other timer. -/
def Sys2Proof.Clause.GrantedRecordHoldsTheClaim : Prop :=
  ∀ (s : State) (req : ClaimReq) (cls : RouteClass), s.grantedRecord req cls =
    { state := .reserved, key := req.key, cls := cls, tram := req.tram, approach := max 10 (min req.approach 250)
      steps := req.steps.map (fun st =>
        { number := st.number, sect := st.sect, demands := st.demands, nextLocal := st.nextLocal, mouth := st.mouth
          locked := true, seen := false, orphan := none
          kept := (s.containedPoints st.sect).filter (fun p => decide (∀ d ∈ st.demands, d.point ≠ p)) })
      award := if ∃ st ∈ req.steps, st.mouth = true then req.award else none
      prev := none, orders := [], setFail := false, lost := false, lostPoint := none, lostSent := false
      releaseMark := false, orphanPending := false, reservedT := some ⟨0, 10000⟩, setT := none }

/-- The step checks of a CLAIM, and the grant (R99 to R102). -/
def Obligations.ClaimsAreGrantedOrDenied : Prop :=
  Clause.BadStepConditions ∧ Clause.StepDenialsInOrder ∧ Clause.GrantLocksEveryStep ∧ Clause.GrantedRecordHoldsTheClaim

/-- SET on each state of the record its key names (R104): none gives NO_CLAIM; SET answers SET-DONE again; SETTING, ORPHANED and a
record with the release mark give nothing; RESERVED fails on a lost point, an occupied or seen section, or a faulty point, in this
order, and otherwise enters SETTING. In ISOLATED no claim enters SETTING (R72): a SET that would have it enter changes nothing, and the
others are answered as in any mode (the model's choice: log entry 47). -/
def Sys2Proof.Clause.SetTable : Prop :=
  ∀ (s : State) (key : RouteKey),
    (s.claimWithKey key = none → s.takeSet key = s.tellRe key.owner (.setFail key none .noClaim))
    ∧ (∀ id c, s.claimWithKey key = some id → s.claim? id = some c →
        (c.releaseMark = true ∨ c.state = .orphaned ∨ c.state = .setting → s.takeSet key = s)
        ∧ (c.releaseMark = false → c.state = .set → s.takeSet key = s.tellRe key.owner (.setDone key s.time))
        ∧ (c.releaseMark = false → c.state = .reserved →
            (c.lost = true → s.takeSet key = s.tellRe c.key.owner (.setFail c.key c.lostPoint .detectionLost))
            ∧ (c.lost = false → (∃ st ∈ c.steps, (st.locked = true ∧ s.heldOccupied st.sect = true) ∨ st.seen = true) →
                s.takeSet key = s.tellRe c.key.owner (.setFail c.key none .occupied))
            ∧ (c.lost = false → (∀ st ∈ c.steps, ¬ (st.locked = true ∧ s.heldOccupied st.sect = true) ∧ st.seen = false) →
                (∀ p, s.faultyPoint c = some p → s.takeSet key = s.tellRe c.key.owner (.setFail c.key (some p) .fault))
                ∧ (s.faultyPoint c = none → s.pt.mode ≠ .isolated → s.takeSet key = s.enterSetting id c)
                ∧ (s.faultyPoint c = none → s.pt.mode = .isolated → s.takeSet key = s))))

/-- A record enters SETTING (R104): the reserved timer stops, every demanded point is an outstanding order, and PU gets a move order for
each, in step order; a record that demands none leaves SETTING at once. -/
def Sys2Proof.Clause.RecordEntersSetting : Prop :=
  ∀ (s : State) (id : Nat) (c : Claim), s.claim? id = some c →
    let demands := c.steps.flatMap (·.demands)
    let inSetting : Claim := { c with
      state := .setting, reservedT := none, setFail := false, orders := demands.map (·.point) }
    let begun := s.modClaim id (fun _ => inSetting)
    (demands ≠ [] →
      s.enterSetting id c = forEach demands (fun d u => u.moveOrder d.point d.pos) begun
      ∧ (s.enterSetting id c).claim? id = some inSetting)
    ∧ (demands = [] → s.enterSetting id c = begun.leaveSetting id)

/-- A record leaves SETTING with its last outstanding order (R94, R105, R114): PU gets a permission-end notice for each point of its
locked sections. With the release mark its winding down goes on (its state then reads RESERVED: log entry 36; its set-fail mark
stays as it is: log entry 48). Otherwise a failed order
takes it back to RESERVED; a step seen occupied takes it back to RESERVED with SET-FAIL(OCCUPIED); with neither it enters SET, with
SET-DONE and the set timer; and an orphan pending mark then makes it ORPHANED. -/
def Sys2Proof.Clause.RecordLeavesSetting : Prop :=
  ∀ (s : State) (id : Nat) (c : Claim), s.claim? id = some c →
    let ended := { s with pu := { s.pu with
      permEnds := s.pu.permEnds ++ (c.steps.filter (fun st : ClaimStep => st.locked)).flatMap (fun st : ClaimStep => s.containedPoints st.sect) } }
    let back : Claim := { c with state := .reserved, reservedT := some ⟨0, 10000⟩ }
    let left := if c.setFail = true then ended.modClaim id (fun _ => { back with setFail := false })
      else if ∃ st ∈ c.steps, st.seen = true then (ended.modClaim id (fun _ => back)).tellRe c.key.owner (.setFail c.key none .occupied)
      else (ended.modClaim id (fun _ => { c with state := .set, setT := some ⟨0, 1000 * c.approach + 15000⟩ })).tellRe c.key.owner
        (.setDone c.key s.time)
    (c.releaseMark = true → s.leaveSetting id = (ended.modClaim id (fun _ => { c with state := .reserved })).releaseClear id)
    ∧ (c.releaseMark = false → c.orphanPending = false → s.leaveSetting id = left)
    ∧ (c.releaseMark = false → c.orphanPending = true → s.leaveSetting id = left.enterOrphaned id)

/-- MOVE_DONE, MOVE_FAIL and DETECTION_LOST: CT takes PU's oldest report about the point (R105, R107). A report for no outstanding order
changes nothing; the last outstanding order of a record without release mark takes it to SET with SET-DONE and the set timer where no
order failed and no step has been seen, and back to RESERVED otherwise. -/
def Sys2Proof.Clause.PointReportsAnswerOrders : Prop :=
  ∀ (s : State) (p p' : Nat) (rest : List PuReport),
    let taken := { s with ct := { s.ct with reports := rest } }
    (takeFirst (fun r => r.point == p) s.ct.reports = some (.moveDone p', rest) →
      (s.recordOrdering p = none → exec (.moveDone p) s = .next taken)
      ∧ (∀ id c, s.recordOrdering p = some id → s.claim? id = some c → ∃ t : State, exec (.moveDone p) s = .next t
          ∧ (c.orders.erase p ≠ [] → t = taken.modClaim id (fun c => { c with orders := c.orders.erase p }))
          ∧ (c.orders.erase p = [] → t = (taken.modClaim id (fun c => { c with orders := c.orders.erase p })).leaveSetting id)
          ∧ t = taken.answerOrder id p
          ∧ (c.orders.erase p = [] → c.releaseMark = false → c.orphanPending = false →
              (c.setFail = false → c.anySeen = false → t.claim? id = some { c with
                  orders := [], state := .set, setT := some ⟨0, 1000 * c.approach + 15000⟩ })
              ∧ (c.setFail = true → t.claim? id = some { c with
                  orders := [], state := .reserved, setFail := false, reservedT := some ⟨0, 10000⟩ })
              ∧ (c.setFail = false → c.anySeen = true → t.claim? id = some { c with
                  orders := [], state := .reserved, reservedT := some ⟨0, 10000⟩ }))))
    ∧ (∀ cause, takeFirst (fun r => r.point == p) s.ct.reports = some (.moveFail p' cause, rest) →
      (s.recordOrdering p = none → exec (.moveFail p) s = .next taken)
      ∧ (∀ id c, s.recordOrdering p = some id → s.claim? id = some c → c.setFail = false → c.releaseMark = false →
          exec (.moveFail p) s = .next (((taken.tellRe c.key.owner (.setFail c.key (some p) cause.toSetFail)).modClaim id
            (fun c => { c with setFail := true })).answerOrder id p))
      ∧ (∀ id c, s.recordOrdering p = some id → s.claim? id = some c → c.setFail = true ∨ c.releaseMark = true →
          exec (.moveFail p) s = .next (taken.answerOrder id p)))
    ∧ (takeFirst (fun r => r.point == p) s.ct.reports = some (.detectionLost p', rest) →
      (∀ cfg, s.yard.points[p]? = some cfg → s.lock? cfg.sect = none → exec (.detectionLost p) s = .next taken)
      ∧ (∀ cfg id c, s.yard.points[p]? = some cfg → s.lock? cfg.sect = some id → s.claim? id = some c →
          (c.releaseMark = true → exec (.detectionLost p) s = .next taken)
          ∧ (c.releaseMark = false → ∃ t : State, exec (.detectionLost p) s = .next t ∧ ∃ c', t.claim? id = some c'
              ∧ c'.lost = true ∧ c'.state = c.state ∧ c'.steps = c.steps
              ∧ (c.state = .reserved ∨ c.state = .set → c'.lostSent = true
                  ∧ (c.lostSent = false → t.cnt.lostSent = bump s.cnt.lostSent))
              ∧ (c.state = .setting → c'.setFail = true))))

/-- SET, and the reports of PU that answer its move orders (R104, R105, R107). -/
def Obligations.SettingARoute : Prop :=
  Clause.SetTable ∧ Clause.RecordEntersSetting ∧ Clause.RecordLeavesSetting ∧ Clause.PointReportsAnswerOrders

/-- The release of a locked step (R95): its section is unlocked, PU gets a permission-end notice for each of its points, and the record
goes to the tail of the free list with its last locked step. -/
def Sys2Proof.Clause.ReleaseOfAStep : Prop :=
  ∀ (s : State) (id i : Nat) (tell : Bool) (c : Claim) (st : ClaimStep), s.claim? id = some c → c.steps[i]? = some st →
    st.locked = true →
    let t := s.releaseStep id i tell
    t.ct.locks = s.ct.locks.set st.sect none
    ∧ t.pu.permEnds = s.pu.permEnds ++ s.containedPoints st.sect
    ∧ ((∃ j x, j ≠ i ∧ c.steps[j]? = some x ∧ x.locked = true) →
        t.claim? id = some { c with steps := c.steps.set i { st with locked := false, orphan := none } } ∧ t.ct.free = s.ct.free)
    ∧ ((∀ j x, j ≠ i → c.steps[j]? = some x → x.locked = false) →
        t.claim? id = none ∧ t.ct.free = s.ct.free ++ [id])
    ∧ (tell = true → c.key.owner = s.pt.node → .passed c.key st.number ∈ t.re.fromCt)

/-- RELEASE for a record in use winds it down (R95, R113): the release mark is set, its timers stop, and at once, unless move orders are
outstanding in SETTING, each locked step whose section is CLEAR is released, in step order, and the record is freed where no locked step
is left; a repeated one changes nothing. -/
def Sys2Proof.Clause.WindingDown : Prop :=
  ∀ (s : State) (key : RouteKey),
    (s.claimWithKey key = none → s.takeRelease key = s)
    ∧ (∀ id c, s.claim? id = some c →
        s.releaseClear id = forEach (s.clearSteps c) (fun i u => u.releaseStep id i false) s
        ∧ (s.releaseClear id).claim? id = (if s.allClear c = true then none else some { c with steps := c.steps.map (fun st =>
            if st.locked = true ∧ s.sectClear st.sect = true then { st with locked := false, orphan := none } else st) })
        ∧ (∀ st ∈ c.steps, st.locked = true → s.sectClear st.sect = true → (s.releaseClear id).lock? st.sect = none))
    ∧ (∀ id c, s.claimWithKey key = some id → s.claim? id = some c →
        (c.releaseMark = true → s.takeRelease key = s)
        ∧ (c.releaseMark = false →
            let marked := s.modClaim id (fun c => { c with releaseMark := true, reservedT := none, setT := none
                                                           steps := c.steps.map (fun st => { st with orphan := none }) })
            (c.state = .setting → c.orders ≠ [] → s.takeRelease key = marked)
            ∧ (c.state ≠ .setting ∨ c.orders = [] → s.takeRelease key = marked.releaseClear id)
            ∧ (c.state ≠ .setting → (∀ st ∈ c.steps, s.sectClear st.sect = false) → s.takeRelease key = marked)))

/-- The mouth release that the release of a locked step gives YU (R95, R111), where the step's section is the mouth of a road: PUSH for
a mouth step seen occupied in a record with an award; POP for any other step seen occupied in a RUN_OUT record of this node whose route
leaves that road; UNLINK for a step not seen in a record with an award; none otherwise. -/
def Sys2Proof.Clause.MouthReleasesReachYu : Prop :=
  ∀ (s : State) (id i : Nat) (tell : Bool) (c : Claim) (st : ClaimStep), s.claim? id = some c → c.steps[i]? = some st →
    st.locked = true →
    let unlocked := { s with
      ct := { s.ct with locks := s.ct.locks.set st.sect none }
      pu := { s.pu with permEnds := s.pu.permEnds ++ s.containedPoints st.sect } }
    let marked := unlocked.modClaim id (fun c =>
      { c with steps := c.steps.modify i (fun x => { x with locked := false, orphan := none }) })
    let told := if tell = true then marked.tellRe c.key.owner (.passed c.key st.number) else marked
    (s.sectRole st.sect ≠ some .roadMouth ∨ s.roadOfMouth st.sect = none → s.releaseStep id i tell = told.freeIfEmpty id)
    ∧ (∀ r, s.sectRole st.sect = some .roadMouth → s.roadOfMouth st.sect = some r →
        let pops := c.cls = .runOut ∧ c.key.owner = s.pt.node
          ∧ ∃ rc rt, s.yard.roads[r]? = some rc ∧ s.yard.routes[c.key.route]? = some rt ∧ rc.runOut = rt.signal
        (∀ a, st.seen = true → st.mouth = true → c.award = some a →
          s.releaseStep id i tell = (told.takePush r a.call c.key c.tram).freeIfEmpty id)
        ∧ (st.seen = true → st.mouth = false ∨ c.award = none → pops → s.releaseStep id i tell = (told.takePop r c.tram).freeIfEmpty id)
        ∧ (st.seen = true → st.mouth = false ∨ c.award = none → ¬ pops → s.releaseStep id i tell = told.freeIfEmpty id)
        ∧ (st.seen = false → c.award ≠ none → s.releaseStep id i tell = (told.unlinkArrival id).freeIfEmpty id)
        ∧ (st.seen = false → c.award = none → s.releaseStep id i tell = told.freeIfEmpty id))

/-- The release of a step, its mouth release, and winding down (R95, R111, R113). -/
def Obligations.ReleasesAndWindingDown : Prop :=
  Clause.ReleaseOfAStep ∧ Clause.MouthReleasesReachYu ∧ Clause.WindingDown

/-- CT_SECTION_CHANGE: CT takes its oldest notice about the section (R108 to R110, R115). An unlocked section changes nothing. A locked
section that becomes held occupied is marked seen, and stops the set timer of a record in SET; seen for the first time, it releases the
step before it, with PASSED, where that one was seen, is CLEAR again and waited for it alone. One that becomes CLEAR is released, with
PASSED, where its step has been seen and the next section of the route is not on this node or has been seen; on a record with the
release mark it is released without PASSED; in ORPHANED its clear timer of 30 s starts. -/
def Sys2Proof.Clause.SectionalRelease : Prop :=
  ∀ (k : Nat) (s : State) (n : SectNotice) (rest : List SectNotice), takeFirst (fun x => x.sect == k) s.ct.notices = some (n, rest) →
    let taken := { s with ct := { s.ct with notices := rest } }
    (s.lock? n.sect = none → exec (.ctSectionChange k) s = .next taken)
    ∧ (∀ id c i st, s.lock? n.sect = some id → s.claim? id = some c → c.stepOn n.sect = some i → c.steps[i]? = some st →
        (n.after ≠ .clear → i = 0 → ∃ t : State, exec (.ctSectionChange k) s = .next t ∧ t.claim? id = some { c with
            steps := c.steps.set i { st with seen := true, orphan := none }, setT := if c.state = .set then none else c.setT })
        ∧ (n.after ≠ .clear →
            let marked := taken.modClaim id (fun c => { c with
              steps := c.steps.modify i (fun x => { x with seen := true, orphan := none })
              setT := if c.state = .set then none else c.setT })
            (i = 0 → exec (.ctSectionChange k) s = .next marked)
            ∧ (∀ j prev, i = j + 1 → c.steps[j]? = some prev →
                let waited := st.seen = false ∧ prev.nextLocal = true ∧ c.state = .set ∧ c.releaseMark = false
                  ∧ prev.locked = true ∧ prev.seen = true ∧ s.sectClear prev.sect = true
                (waited → exec (.ctSectionChange k) s = .next (marked.releaseStep id j true))
                ∧ (¬ waited → exec (.ctSectionChange k) s = .next marked)))
        ∧ (n.after = .clear → c.releaseMark = false → c.state = .set → st.seen = true → s.sectClear st.sect = true →
            (∀ next, c.steps[i + 1]? = some next → st.nextLocal = false ∨ next.seen = true) →
            exec (.ctSectionChange k) s = .next (taken.releaseStep id i true))
        ∧ (n.after = .clear → c.releaseMark = false → c.state = .set →
            st.seen = false ∨ (∃ next, c.steps[i + 1]? = some next ∧ st.nextLocal = true ∧ next.seen = false) →
            exec (.ctSectionChange k) s = .next taken)
        ∧ (n.after = .clear → c.releaseMark = true → c.state ≠ .setting → s.sectClear st.sect = true →
            exec (.ctSectionChange k) s = .next (taken.releaseStep id i false))
        ∧ (n.after = .clear → c.releaseMark = true → c.state = .setting → c.orders ≠ [] →
            exec (.ctSectionChange k) s = .next taken)
        ∧ (n.after = .clear → c.releaseMark = false → c.state = .orphaned → exec (.ctSectionChange k) s = .next (taken.modClaim id
            (fun c => { c with steps := c.steps.modify i (fun x => { x with orphan := some ⟨0, 30000⟩ }) }))))

/-- The expiries of a claim record (R106, R112, R115): reserved, CLAIM-LOST and winding down; set, CLAIM-LOST and every step released;
orphan clear, its step released. A CLAIM-LOST is sent once, with the lost-sent mark and its counter, which advances for one that is handed
to the own RE as for a frame (log entry 14). -/
def Sys2Proof.Clause.ClaimTimersExpire : Prop :=
  ∀ (s : State) (id : Nat) (c : Claim), s.claim? id = some c →
    (due c.reservedT = true → exec (.reservedTimerExpiry id) s = .next ((s.sendLost id .reservedExpired none).windDown id))
    ∧ (due c.setT = true → exec (.setTimerExpiry id) s = .next ((s.sendLost id .expired none).releaseAll id))
    ∧ (∀ i st, c.state = .orphaned → c.steps[i]? = some st → st.locked = true → due st.orphan = true →
        exec (.orphanClearExpiry id i) s = .next ((s.releaseStep id i false).count
          (fun n => { n with orphanReleased := bump n.orphanReleased })))
    ∧ s.releaseAll id = forEach (List.range c.steps.length) (fun i u => u.releaseStep id i false) s
    ∧ ((∃ st ∈ c.steps, st.locked = true) → (s.releaseAll id).claim? id = none
        ∧ (∀ st ∈ c.steps, st.locked = true → (s.releaseAll id).lock? st.sect = none))
    ∧ (c.lostSent = false → ∀ cause p, (s.sendLost id cause p).claim? id = some { c with lostSent := true }
        ∧ (s.sendLost id cause p).cnt.lostSent = bump s.cnt.lostSent
        ∧ s.sendLost id cause p = ((s.modClaim id (fun c => { c with lostSent := true })).tellRe c.key.owner
            (.claimLost c.key cause p)).count (fun n => { n with lostSent := bump n.lostSent }))
    ∧ (c.lostSent = true → ∀ cause p, s.sendLost id cause p = s)

/-- UNUSABLE and isolation at CT (R114, R118): UNUSABLE orphans the records that the peer made under the epoch (one in SETTING waits);
isolation winds down every record, and drops its marks. -/
def Sys2Proof.Clause.RequesterNoticesReachRecords : Prop :=
  ∀ (k k' : Nat) (s : State) (e : Epoch) (rest : List PeerNotice),
    (takeFirst (fun n => n.peer == k) s.ct.peerNotices = some (.unusable k' e, rest) → ∃ t : State,
      exec (.ctUnusable k) s = .next t
      ∧ (∀ id c, s.claim? id = some c → t.claim? id = some (if c.madeBy k e = true ∧ c.releaseMark = false then
          (if c.state = .reserved ∨ c.state = .set then
            { c with state := .orphaned, prev := some c.state, orphanPending := false, reservedT := none, setT := none
                     steps := c.steps.map (fun st =>
                       { st with orphan := if st.locked && s.sectClear st.sect then some ⟨0, 30000⟩ else none }) }
           else if c.state = .setting then { c with orphanPending := true } else c) else c))
      ∧ t.ct.locks = s.ct.locks ∧ t.ct.free = s.ct.free)
    ∧ (s.ct.isolated = true → ∃ t : State, exec .ctIsolation s = .next t ∧ t.ct.isolated = false
        ∧ (∀ id c, t.claim? id = some c → c.state ≠ .setting ∧ c.releaseMark = true ∧ c.lost = false ∧ c.orphanPending = false)
        ∧ (∀ id c c', s.claim? id = some c → c.state = .setting ∨ c.releaseMark = false → t.claim? id = some c' →
            ∀ st ∈ c'.steps, st.locked = true → s.sectClear st.sect = false))

/-- USABLE at CT (R116), on the records that the peer made under the epoch, in rising claim ID (log entry 33); every other record stays as
it is. One in ORPHANED returns to its previous state, with its timers and, where it is lost and CLAIM-LOST was not sent, CLAIM-LOST; back
in SET, each locked step is first examined for release (log entry 31). One in SETTING loses the orphan pending mark. -/
def Sys2Proof.Clause.ReturningRequester : Prop :=
  (∀ (k k' : Nat) (s : State) (e : Epoch) (rest : List PeerNotice),
    takeFirst (fun n => n.peer == k) s.ct.peerNotices = some (.usable k' e, rest) →
    ∃ t : State, exec (.ctUsable k) s = .next t
      ∧ t = forEach (s.claimsWhere (fun c => c.madeBy k e)) (fun id u => u.unorphanRecord id)
          { s with ct := { s.ct with peerNotices := rest } }
      ∧ (∀ id c, s.claim? id = some c → c.madeBy k e = false → t.claim? id = some c)
      ∧ (∀ id c, s.claim? id = some c → c.madeBy k e = true →
          let steps := c.steps.map (fun st => { st with orphan := none })
          (c.state = .reserved ∨ c.state = .set → t.claim? id = some c)
          ∧ (c.state = .setting → t.claim? id = some { c with orphanPending := false })
          ∧ (c.state = .orphaned → c.releaseMark = true → t.claim? id = some { c with state := c.prev.getD .reserved, prev := none })
          ∧ (c.state = .orphaned → c.releaseMark = false → c.prev = some .reserved → t.claim? id = some { c with
              state := .reserved, prev := none, steps := steps, reservedT := some ⟨0, 10000⟩, setT := none
              lostSent := c.lostSent || c.lost })
          ∧ (c.state = .orphaned → c.releaseMark = false → c.prev = some .set →
              (∀ st ∈ c.steps, st.locked = true → st.seen = true → s.sectClear st.sect = false) → t.claim? id = some { c with
              state := .set, prev := none, steps := steps, reservedT := none
              setT := if c.anySeen = true then none else some ⟨0, 1000 * c.approach + 15000⟩
              lostSent := c.lostSent || c.lost })))
  ∧ (∀ (s : State) (id : Nat) (c : Claim), s.claim? id = some c → c.state = .orphaned → c.releaseMark = false → c.prev = some .set →
      let back := s.modClaim id (fun c => { c with
        state := .set, prev := none, steps := c.steps.map (fun st => { st with orphan := none }), reservedT := none
        setT := if c.anySeen = true then none else some ⟨0, 1000 * c.approach + 15000⟩ })
      let examined := forEach (List.range c.steps.length) (fun i u => u.examineStep id i) back
      s.unorphanRecord id = if c.lost = true ∧ c.lostSent = false
        then ((examined.modClaim id (fun c => { c with lostSent := true })).tellRe c.key.owner
          (.claimLost c.key .pointLost c.lostPoint)).count (fun n => { n with lostSent := bump n.lostSent })
        else examined)
  ∧ (∀ (s : State) (id i : Nat) (c : Claim), s.claim? id = some c →
      let ready := c.state = .set ∧ c.releaseMark = false ∧ ∃ st, c.steps[i]? = some st ∧ st.locked = true ∧ st.seen = true
        ∧ s.sectClear st.sect = true ∧ ∀ next, c.steps[i + 1]? = some next → st.nextLocal = false ∨ next.seen = true
      (ready → s.examineStep id i = s.releaseStep id i true) ∧ (¬ ready → s.examineStep id i = s))

/-- EPOCH_CHANGE at CT (R95, R117), on the records that the peer made under the old epoch, in rising claim ID (log entry 33); every other
record stays as it is. Each loses its lost mark and its orphan pending mark (log entry 38) and is wound down, with no message to RE: one in
SETTING keeps its locks until its orders are answered; of any other each locked step whose section is CLEAR is released. -/
def Sys2Proof.Clause.RestartedRequester : Prop :=
  (∀ (k k' : Nat) (s : State) (e e' : Epoch) (rest : List PeerNotice),
    takeFirst (fun n => n.peer == k) s.ct.peerNotices = some (.epochChange k' e e', rest) →
    ∃ t : State, exec (.ctEpochChange k) s = .next t
      ∧ t = forEach (s.claimsWhere (fun c => c.madeBy k e)) (fun id u => u.dropRecord id)
          { s with ct := { s.ct with peerNotices := rest } }
      ∧ t.re.fromCt = s.re.fromCt
      ∧ (∀ id c, s.claim? id = some c → c.madeBy k e = false → t.claim? id = some c)
      ∧ (∀ id c, s.claim? id = some c → c.madeBy k e = true →
          let dropped : Claim := { c with lost := false, lostPoint := none, orphanPending := false }
          let marked : Claim := { dropped with releaseMark := true, reservedT := none, setT := none
                                               steps := c.steps.map (fun st => { st with orphan := none }) }
          (c.releaseMark = true → t.claim? id = some dropped)
          ∧ (c.releaseMark = false → c.state = .setting → c.orders ≠ [] → t.claim? id = some marked)
          ∧ (c.releaseMark = false → c.state ≠ .setting ∨ c.orders = [] →
              t.claim? id = (if s.allClear c = true then none else some { marked with steps := c.steps.map (fun st =>
                { st with orphan := none, locked := st.locked && !s.sectClear st.sect }) })
              ∧ (∀ st ∈ c.steps, st.locked = true → s.sectClear st.sect = true → t.lock? st.sect = none))))
  ∧ (∀ (s : State) (id : Nat), s.dropRecord id
      = (s.modClaim id (fun c => { c with lost := false, lostPoint := none, orphanPending := false })).windDown id)

/-- Section notices, timers, and the notices of PT and isolation at CT (R106, R108 to R118). -/
def Obligations.SectionsTimersAndRequesters : Prop :=
  Clause.SectionalRelease ∧ Clause.ClaimTimersExpire ∧ Clause.RequesterNoticesReachRecords ∧ Clause.ReturningRequester
    ∧ Clause.RestartedRequester

/-! ## The Route Engine (R120 to R142) -/

/-- A new bid call (R123): the next unused call sequence value, phase BIDDING with the bid timer toward 150 ms, no best bid, the call
broadcast and handed to the own YU, and BID_CALLS advances. -/
def Sys2Proof.Clause.NewBidCall : Prop :=
  ∀ (s : State) (i : Nat) (x : Inst), s.inst? i = some x →
    let call : CallId := ⟨s.pt.node, s.nextSeq⟩
    let t := s.startCall i
    t.inst? i = some { x with
        state := .calling, phase := some .bidding, call := some call, best := none, bidders := [], award := none, owners := []
        route := if x.code = .inbound then none else x.route, timers := { ReTimers.stopped with bid := some ⟨0, 150⟩ } }
    ∧ (∀ j, j ≠ i → t.inst? j = s.inst? j)
    ∧ t.re.callSeq = s.nextSeq ∧ t.cnt.bidCalls = bump s.cnt.bidCalls
    ∧ t.fs = (s.send .bidCall 63 (encBidCall call x.tramRec)).fs
    ∧ t.cnt = { (s.send .bidCall 63 (encBidCall call x.tramRec)).cnt with bidCalls := bump s.cnt.bidCalls }
    ∧ (∀ j, j ≠ i → t.re.insts[j]? = s.re.insts[j]?) ∧ t.re = { s.re with insts := t.re.insts, callSeq := s.nextSeq }
    ∧ t.yu = { s.yu with fromRe := s.yu.fromRe ++ [.bidCall call x.tramRec] }
    ∧ t = { s with re := t.re, fs := t.fs, cnt := t.cnt, yu := t.yu }

/-- BID (R124), from a peer as a frame or from the own YU: it counts for the instance in BIDDING under its call ID where the sender is
usable with EPOCH_MATCH, the score is at most 4095, a RUN_IN route leads to the road, and the node has not bid yet; the lower score
wins, and of equal scores the lower node ID. The bid of the own YU comes from the node itself and needs no trust; a bid for a call ID that
no instance is BIDDING under changes nothing, and in ISOLATED none does. ROAD_CHANGE: every instance in WAITING calls again (R125); in
ISOLATED none does (R72; that the event then changes nothing is log entry 51). -/
def Sys2Proof.Clause.BidsAndRoadChanges : Prop :=
  (∀ (s : State) (f : RxFrame) (fs' : FS), s.fs.takeFrame .bid = some (f, fs') →
      exec (.bid .frame) s = .next ((({ s with fs := fs' }).takeBid (decCall f.payload 0) (byteAt f.payload 2) (wordAt f.payload 3)
        (some f.rx)).finishFrame))
  ∧ (∀ (s : State) (call : CallId) (road score : Nat) (rest : List FromYu), s.re.fromYu = .bid call road score :: rest →
      exec (.bid .handover) s = .next (({ s with re := { s.re with fromYu := rest } }).takeBid call road score none))
  ∧ (∀ (s : State) (f : RxFrame) (fs' : FS), s.fs.takeFrame .roadChange = some (f, fs') →
      exec (.roadChange .frame) s = .next (({ s with fs := fs' }).takeRoadChange).finishFrame)
  ∧ (∀ (s : State) (road : Nat) (rest : List FromYu), s.re.fromYu = .roadChange road :: rest →
      exec (.roadChange .handover) s = .next ({ s with re := { s.re with fromYu := rest } }).takeRoadChange)
  ∧ (∀ (s : State) (call : CallId) (road score i : Nat) (x : Inst) (rx : Option RxRec), s.bidding call = some i → s.inst? i = some x →
      s.pt.mode ≠ .isolated →
      let node := match rx with | some r => r.source | none => s.pt.node
      ((∀ r, rx = some r → r.usable = true ∧ r.epochMatch = true) → score ≤ 4095 → s.runInRoute x.signal node road ≠ none →
        node ∉ x.bidders →
        s.takeBid call road score rx = s.setInst i (some { x with
          bidders := x.bidders ++ [node]
          best := match x.best with
            | none => some ⟨node, road, score⟩
            | some b => if score < b.score ∨ (score = b.score ∧ node < b.node) then some ⟨node, road, score⟩ else some b }))
      ∧ ((∃ r, rx = some r ∧ (r.usable = false ∨ r.epochMatch = false)) ∨ 4095 < score ∨ s.runInRoute x.signal node road = none
          ∨ node ∈ x.bidders → s.takeBid call road score rx = s))
  ∧ (∀ (s : State) (call : CallId) (road score : Nat) (rx : Option RxRec),
      s.pt.mode = .isolated ∨ (∀ i x, s.inst? i = some x → ¬ (x.state = .calling ∧ x.phase = some .bidding ∧ x.call = some call)) →
      s.takeBid call road score rx = s)
  ∧ (∀ (s : State), s.pt.mode = .isolated ∨ (∀ i x, s.inst? i = some x → ¬ (x.state = .calling ∧ x.phase = some .waiting)) →
      s.takeRoadChange = s)
  ∧ (∀ (s : State) (i : Nat) (x : Inst), s.pt.mode ≠ .isolated → s.inst? i = some x → x.state = .calling → x.phase = some .waiting →
      ∃ y, s.takeRoadChange.inst? i = some y ∧ y.state = .calling ∧ y.phase = some .bidding ∧ y.timers.bid = some ⟨0, 150⟩)

/-- BID_TIMER_EXPIRY (R124): with a best bid from another node its award is sent, and settles for 60 ms; with no bid the instance waits
for a road, 5 s at most. ROAD_WAIT_EXPIRY makes a new call (R125); AWARD_WAIT_EXPIRY begins the attempt (R124, R126). In ISOLATED no award,
call or attempt begins (R72); that nothing changes instead is the model's choice (log entry 51). -/
def Sys2Proof.Clause.CallTimersExpire : Prop :=
  ∀ (s : State) (i : Nat) (x : Inst), s.inst? i = some x →
    (∀ b call, due x.timers.bid = true → s.pt.mode ≠ .isolated → x.best = some b → x.call = some call → b.node ≠ s.pt.node →
      ∃ t : State, exec (.bidTimerExpiry i) s = .next t
        ∧ t.inst? i = some { x with
            state := .calling, phase := some .awarding, best := none, bidders := [], award := some ⟨call, b.node, b.road, false⟩
            route := s.runInRoute x.signal b.node b.road, timers := { ReTimers.stopped with awardWait := some ⟨0, 60⟩ } }
        ∧ t.fs = (s.send .award b.node (encAward call b.road x.tramRec false)).fs
        ∧ t.cnt = (s.send .award b.node (encAward call b.road x.tramRec false)).cnt
        ∧ t = { s with re := t.re, fs := t.fs, cnt := t.cnt })
    ∧ (∀ b call, due x.timers.bid = true → s.pt.mode ≠ .isolated → x.best = some b → x.call = some call →
        exec (.bidTimerExpiry i) s = .next (s.makeAward i x ⟨call, b.node, b.road, false⟩ (s.runInRoute x.signal b.node b.road)))
    ∧ (due x.timers.bid = true → x.best = none →
        exec (.bidTimerExpiry i) s = .next (s.setInst i (some { x with
          phase := some .waiting, best := none, bidders := [], timers := { ReTimers.stopped with roadWait := some ⟨0, 5000⟩ } })))
    ∧ (due x.timers.roadWait = true → s.pt.mode ≠ .isolated → exec (.roadWaitExpiry i) s = .next (s.startCall i))
    ∧ (due x.timers.awardWait = true → s.pt.mode ≠ .isolated → exec (.awardWaitExpiry i) s = .next (s.beginAttempt i))
    ∧ (s.pt.mode = .isolated →
        (∀ b call, x.best = some b → x.call = some call → exec (.bidTimerExpiry i) s = .next s)
        ∧ exec (.roadWaitExpiry i) s = .next s ∧ exec (.awardWaitExpiry i) s = .next s)

/-- An award (R124, R126): to another node an AWARD frame, with 60 ms to settle; the own YU takes its own in the same event, and the
attempt begins. A direct award names the road of the request, under the next call sequence value. The own YU takes what waits for it in
order (log entry 5), a call in RUNNING alone, an award outside RUNNING as one that is ignored. -/
def Sys2Proof.Clause.AwardsAreMade : Prop :=
  (∀ (s : State) (i : Nat) (x : Inst) (a : AwardRec) (route : Option Nat),
    let y : Inst := { x with
      state := .calling, phase := some .awarding, call := some a.call, best := none, bidders := [], award := some a
      route := route, timers := ReTimers.stopped }
    (a.node ≠ s.pt.node → s.makeAward i x a route
      = (s.setInst i (some { y with timers := { ReTimers.stopped with awardWait := some ⟨0, 60⟩ } })).send .award a.node
          (encAward a.call a.road x.tramRec a.direct))
    ∧ (a.node = s.pt.node → s.makeAward i x a route
      = (((s.setInst i (some y)).handYu (.award a.call a.road x.tramRec a.direct)).yuTakesAll).beginAttempt i))
  ∧ (∀ (s : State) (i : Nat) (x : Inst) (d : SlotData) (node road : Nat), s.inst? i = some x →
      (s.rq.slots[x.slot]?).bind Slot.data? = some d → d.road = some (node, road) →
      s.directAward i = ({ s with re := { s.re with callSeq := s.nextSeq } }).makeAward i { x with owners := [] }
        ⟨⟨s.pt.node, s.nextSeq⟩, node, road, true⟩ x.route)
  ∧ (∀ s : State, s.yuTakesAll = forEach s.yu.fromRe (fun m u => u.yuTakes m) { s with yu := { s.yu with fromRe := [] } }
      ∧ s.yuTakesAll.yu.fromRe = []
      ∧ (∀ call t, s.yuTakes (.bidCall call t) = if s.pt.mode = .running then s.takeBidCall call s.pt.epoch t else s)
      ∧ (∀ call road t direct, s.yuTakes (.award call road t direct) = if s.pt.mode = .running
          then s.takeAward call s.pt.epoch road t direct else s.count (fun c => { c with awardsIgnored := bump c.awardsIgnored }))
      ∧ (∀ call, s.yuTakes (.withdraw call) = s.takeWithdraw call s.pt.epoch))

/-- The next call sequence value (R121): the first of the values after the counter that no instance holds as its call ID or as that of its
award; eight instances hold sixteen at most. -/
def Sys2Proof.Clause.CallSequenceSkipsValuesInUse : Prop :=
  ∀ (s : State) (n : Nat),
    let value := fun m : Nat => (s.re.callSeq + 1 + m) % 256
    let held := fun q : Nat => ∃ i x, s.inst? i = some x
      ∧ ((∃ c, x.call = some c ∧ c.seq = q) ∨ ∃ a, x.award = some a ∧ a.call.seq = q)
    n ≤ 16 → (∀ m, m < n → held (value m)) → ¬ held (value n) → s.nextSeq = value n

/-- Bid calls, bids, awards and the timers of a call (R121, R123 to R126). -/
def Obligations.CallingForARoad : Prop :=
  Clause.NewBidCall ∧ Clause.CallSequenceSkipsValuesInUse ∧ Clause.BidsAndRoadChanges ∧ Clause.CallTimersExpire ∧ Clause.AwardsAreMade

/-- An attempt (R127): past number 255 the request expires; with an owner that is not usable it fails at once and backs off; otherwise
every owner of the route is asked, by a CLAIM frame or, the own CT, by a handover that it takes in the same event, and the claim window
of 400 ms runs. RETRY_TIMER_EXPIRY goes on by what the instance holds (R137); that an IN request without an award makes a new bid call is
the model's choice, R137's table has no row for it (log entry 25). In ISOLATED nothing begins (R72); that nothing changes instead is the
model's choice (log entry 51). -/
def Sys2Proof.Clause.AttemptsBegin : Prop :=
  ∀ (s : State) (i : Nat) (x : Inst), s.inst? i = some x →
    (∀ rc, s.routeOf x = some rc →
      (255 < x.nextAttempt → s.beginAttempt i = (s.withdrawAward x).endInst i x .expired)
      ∧ (x.nextAttempt ≤ 255 → (∃ k ∈ rc.owners, k ≠ s.pt.node ∧ s.peerUsable k = false) →
          ∃ y, (s.beginAttempt i).inst? i = some y ∧ y.state = .backoff ∧ y.attempt = some x.nextAttempt
            ∧ (s.beginAttempt i).cnt.attemptsFailed = bump s.cnt.attemptsFailed
            ∧ (s.beginAttempt i).fs = s.fs ∧ (s.beginAttempt i).ct = s.ct)
      ∧ (x.nextAttempt ≤ 255 → (∀ k ∈ rc.owners, k = s.pt.node ∨ s.peerUsable k = true) →
          (s.beginAttempt i).inst? i = some { x with
            attempt := some x.nextAttempt, phase := none, best := none, bidders := [], state := .claiming
            owners := rc.owners.map (OwnerEntry.fresh true), timers := { ReTimers.stopped with claim := some ⟨0, 400⟩ } })
      ∧ (x.nextAttempt ≤ 255 → (∀ k ∈ rc.owners, k = s.pt.node ∨ s.peerUsable k = true) →
          let asking : Inst := { x with
            attempt := some x.nextAttempt, phase := none, best := none, bidders := [], state := .claiming
            owners := rc.owners.map (OwnerEntry.fresh true), timers := { ReTimers.stopped with claim := some ⟨0, 400⟩ } }
          let claim := fun k : Nat =>
            ({ key := ⟨s.pt.node, s.pt.epoch, x.route.getD 0, x.serial, x.nextAttempt⟩
               cls := some rc.cls, tram := x.tram, approach := rc.approach
               award := if rc.cls = .runIn then x.award.map (fun a => ⟨a.call, a.direct⟩) else none
               steps := ownerSteps k 1 rc.steps } : ClaimReq)
          s.beginAttempt i = (forEach rc.owners (fun k u =>
            if k = s.pt.node then u.handCt (.claim (claim k)) else u.send .claim k (encClaim (claim k)))
              (s.setInst i (some asking))).ctTakesAll))
    ∧ (s.pt.mode = .isolated → exec (.retryTimerExpiry i) s = .next s)
    ∧ (due x.timers.retry = true → s.pt.mode ≠ .isolated →
        (∀ a, x.award = some a → a.direct = true ∨ a.node = s.pt.node ∨ s.peerUsable a.node = true →
          exec (.retryTimerExpiry i) s = .next (s.beginAttempt i))
        ∧ (∀ a, x.award = some a → a.direct = false → a.node ≠ s.pt.node → s.peerUsable a.node = false →
          exec (.retryTimerExpiry i) s = .next (((s.withdrawAward x).setInst i (some x.dropAward)).startCall i))
        ∧ (x.award = none → exec (.retryTimerExpiry i) s = .next (match x.code with
            | .road => s.directAward i
            | .inbound => s.startCall i
            | .outbound => s.beginAttempt i
            | .dest => s.beginAttempt i)))

/-- An attempt fails (R128, R137): it is counted, each owner asked gets a RELEASE, as a frame or as a handover, and the instance backs off
for its class's base times the attempts, eight at most, plus 5 ms times the node ID; CLAIM_WINDOW_EXPIRY and SET_WINDOW_EXPIRY are such
failures (R129, R130). The RELEASEs go in owner-list order (the model's choice: log entry 33). -/
def Sys2Proof.Clause.AttemptsFail : Prop :=
  ∀ (s : State) (i : Nat) (x : Inst) (rc : RouteCfg) (d : SlotData), s.inst? i = some x → s.routeOf x = some rc →
    (s.rq.slots[x.slot]?).bind Slot.data? = some d →
    let n := min (d.attempts + 1) 255
    let base := match rc.cls with | .runIn => 100 | .runOut => 200 | .shunt => 400
    (s.failAttempt i .other).inst? i = some { x with
        state := .backoff, phase := none, best := none, bidders := []
        timers := { ReTimers.stopped with retry := some ⟨0, base * min n 8 + 5 * s.pt.node⟩ } }
    ∧ (s.failAttempt i .other).cnt.attemptsFailed = bump s.cnt.attemptsFailed
    ∧ (((s.failAttempt i .other).rq.slots[x.slot]?).bind Slot.data?).map (·.attempts) = some n
    ∧ (x.asked s.pt.node = true → .release (s.keyOf x) ∈ (s.failAttempt i .other).ct.fromRe)
    ∧ (let released := forEach (x.owners.filter (·.asked)) (fun o u => u.releaseTo (s.keyOf x) o.node) s
       (s.failAttempt i .other).fs = released.fs ∧ (s.failAttempt i .other).ct = released.ct)
    ∧ (due x.timers.claim = true → exec (.claimWindowExpiry i) s = .next (s.failAttempt i .other))
    ∧ (due x.timers.set = true → exec (.setWindowExpiry i) s = .next (s.failAttempt i .other))

/-- What RE sends when it lets go (R127, R128, R138): a RELEASE for a key, and an AWARD-WITHDRAW for an award, each as a frame to another
node and as a handover inside its own (no frame to source 63: log entry 17); and the causes NO_AWARD and NO_ROOM, which give the award
up: the first calls again at once, the second after the back-off (R128, R129), each after the RELEASEs in owner-list order (log entry
33). -/
def Sys2Proof.Clause.ReLetsGo : Prop :=
  ∀ (s : State) (key : RouteKey) (node i : Nat) (x : Inst),
    (node = s.pt.node → s.releaseTo key node = { s with ct := { s.ct with fromRe := s.ct.fromRe ++ [.release key] } })
    ∧ (node ≠ s.pt.node → node < 63 → s.releaseTo key node = s.send .release node (encKey key))
    ∧ (∀ a, x.award = some a →
        (a.node = s.pt.node → s.withdrawAward x = { s with yu := { s.yu with fromRe := s.yu.fromRe ++ [.withdraw a.call] } })
        ∧ (a.node ≠ s.pt.node → s.withdrawAward x = s.send .awardWithdraw a.node [byte a.call.caller, byte a.call.seq]))
    ∧ (x.award = none → s.withdrawAward x = s)
    ∧ (∀ a, s.inst? i = some x → x.award = some a →
        let released := (forEach (x.owners.filter (·.asked)) (fun o u => u.releaseTo (s.keyOf x) o.node) s).countFailure x.slot
        let given := (released.withdrawAward x).setInst i (some { x with award := none, call := none, timers := ReTimers.stopped })
        s.failAttempt i .noAward = given.startCall i ∧ s.failAttempt i .noRoom = given.enterBackoff i)

/-- The own CT takes what waits for it in order, in the event of the attempt (R127, log entry 5): a CLAIM without receive record, a SET, a
RELEASE. -/
def Sys2Proof.Clause.CtTakesItsHandovers : Prop :=
  ∀ s : State, s.ctTakesAll = forEach s.ct.fromRe (fun m u => u.ctTakes m) { s with ct := { s.ct with fromRe := [] } }
    ∧ s.ctTakesAll.ct.fromRe = []
    ∧ (∀ req, s.ctTakes (.claim req) = s.evaluateClaim req none)
    ∧ (∀ key, s.ctTakes (.set key) = s.takeSet key) ∧ (∀ key, s.ctTakes (.release key) = s.takeRelease key)

/-- Attempts: how they begin, and how they fail (R127 to R130, R137). -/
def Obligations.Attempts : Prop :=
  Clause.AttemptsBegin ∧ Clause.AttemptsFail ∧ Clause.ReLetsGo ∧ Clause.CtTakesItsHandovers

/-- GRANT, DENY, SET_DONE, SET_FAIL, PASSED and CLAIM_LOST reach RE as a frame, in one turn of the frame handler, or as the oldest
handover of the own CT (R103, R129 to R136). -/
def Sys2Proof.Clause.RepliesReachRe : Prop :=
  ∀ s : State, ∀ kc ∈ [(Kind.grant, Instr.grant), (Kind.deny, Instr.deny), (Kind.setDone, Instr.setDone), (Kind.setFail, Instr.setFail),
      (Kind.passed, Instr.passed), (Kind.claimLost, Instr.claimLost)],
    (∀ (f : RxFrame) (fs' : FS) (m : ReMsg), s.fs.takeFrame kc.1 = some (f, fs') → decReply f = some m →
      exec (kc.2 .frame) s = .next (({ s with fs := fs' }).takeReply m (some f.rx)).finishFrame)
    ∧ (∀ (m : ReMsg) (rest : List ReMsg), s.re.fromCt = m :: rest → m.kind = kc.1 →
      exec (kc.2 .handover) s = .next (({ s with re := { s.re with fromCt := rest } }).takeReply m none))

/-- What RE does with a reply of an owner asked in CLAIMING and SETTING, in a mode other than ISOLATED (R129, R130, R140): a GRANT is
recorded, and with the last one SET goes to every owner, in owner-list order (log entry 33), and the set window of 8 s runs; a DENY and a
SET-FAIL fail the attempt; a SET-DONE is recorded, and with the last one the route is cleared or, over an occupied first section, fails; a
reply for no instance is stale, and a stale GRANT is answered with a RELEASE. -/
def Sys2Proof.Clause.RepliesInClaimingAndSetting : Prop :=
  ∀ (s : State) (key : RouteKey) (rx : Option RxRec), s.pt.mode ≠ .isolated → key.owner = s.pt.node →
    (s.instWithKey key = none →
      (∀ id, s.takeReply (.grant key id) rx = (s.releaseTo key (s.replySource rx)).count
        (fun c => { c with staleReplies := bump c.staleReplies }))
      ∧ (∀ r st d, s.takeReply (.deny key r st d) rx = s.count (fun c => { c with staleReplies := bump c.staleReplies }))
      ∧ (∀ a, s.takeReply (.setDone key a) rx = s.count (fun c => { c with staleReplies := bump c.staleReplies })))
    ∧ (∀ i x, s.instWithKey key = some i → s.inst? i = some x → s.replyCounts x rx = true →
        (x.state = .claiming → (∀ o, x.owner? (s.replySource rx) = some o → o.hasGranted = false) → ∀ id,
          let y := x.modOwner (s.replySource rx) (fun o => { o with reply := .granted id, epoch := some (s.replyEpoch rx) })
          (y.owners.all OwnerEntry.hasGranted = false → s.takeReply (.grant key id) rx = s.setInst i (some y))
          ∧ (y.owners.all OwnerEntry.hasGranted = true →
              (s.takeReply (.grant key id) rx).inst? i = some { y with
                state := .setting, timers := { ReTimers.stopped with set := some ⟨0, 8000⟩ } }
              ∧ ((∃ o ∈ y.owners, o.node = s.pt.node) → .set (s.keyOf x) ∈ (s.takeReply (.grant key id) rx).ct.fromRe)
              ∧ s.takeReply (.grant key id) rx = forEach y.owners (fun o u =>
                  if o.node = s.pt.node then u.handCt (.set (s.keyOf x)) else u.send .set o.node (encKey (s.keyOf x)))
                    (s.setInst i (some { y with state := .setting, timers := { ReTimers.stopped with set := some ⟨0, 8000⟩ } }))))
        ∧ (x.state = .claiming → ∀ r st d, s.takeReply (.deny key r st d) rx
            = (s.setInst i (some (x.modOwner (s.replySource rx) (fun o => { o with reply := .denied })))).failAttempt i r.cause)
        ∧ (x.state = .setting → ∀ p c, s.takeReply (.setFail key p c) rx = s.failAttempt i .other)
        ∧ (x.state = .setting → ∀ a,
            let y := x.modOwner (s.replySource rx) (fun o => { o with setDone := true, setDoneTime := some a })
            (y.owners.all (·.setDone) = false → s.takeReply (.setDone key a) rx = s.setInst i (some y))
            ∧ (∀ k rc, y.owners.all (·.setDone) = true → s.routeOf x = some rc → s.firstSect x = some k → s.heldOccupied k = false →
                s.takeReply (.setDone key a) rx = (s.setInst i (some { y with
                  state := .clearing, passed := List.replicate rc.steps.length false, timers := ReTimers.stopped })).commandSu
                    (.proceed x.signal rc.dir))
            ∧ (∀ k, y.owners.all (·.setDone) = true → s.firstSect x = some k → s.heldOccupied k = true →
                s.takeReply (.setDone key a) rx = (s.setInst i (some y)).failAttempt i .other)))

/-- CLAIM-LOST in CLAIMING and SETTING fails the attempt where it counts (R129, R130). Which replies count there: those of an owner asked
that are a handover or show EPOCH_MATCH (R129). Every other reply is stale and only counted (R140): one that does not count, one for
another state, and one for no instance; of CLAIM-LOST later, one that comes from no owner asked (the model's choice: log entry 43). -/
def Sys2Proof.Clause.LostClaimsAndStaleReplies : Prop :=
  ∀ (s : State) (rx : Option RxRec), s.pt.mode ≠ .isolated →
    let stale := s.count (fun c => { c with staleReplies := bump c.staleReplies })
    (∀ m : ReMsg, m.kind ≠ .grant → s.instWithKey m.key = none → s.takeReply m rx = stale)
    ∧ (∀ key, s.instWithKey key = none ↔ ∀ i x, s.inst? i = some x → x.state ≠ .calling → x.state ≠ .backoff → s.keyOf x ≠ key)
    ∧ (∀ x : Inst, s.replyCounts x rx = true ↔ (∃ o ∈ x.owners, o.asked = true ∧ o.node = s.replySource rx)
        ∧ ∀ r, rx = some r → r.epochMatch = true)
    ∧ (∀ (key : RouteKey) (i : Nat) (x : Inst), s.instWithKey key = some i → s.inst? i = some x →
        (x.state = .claiming ∨ x.state = .setting → s.replyCounts x rx = true → ∀ cause p,
          s.takeReply (.claimLost key cause p) rx = s.failAttempt i .other)
        ∧ (x.state = .claiming ∨ x.state = .setting → s.replyCounts x rx = false → ∀ cause p,
          s.takeReply (.claimLost key cause p) rx = stale)
        ∧ (x.state ≠ .claiming → x.state ≠ .setting → x.asked (s.replySource rx) = false ∨ x.state = .cancelling → ∀ cause p,
          s.takeReply (.claimLost key cause p) rx = stale)
        ∧ (x.state ≠ .claiming ∨ s.replyCounts x rx = false → ∀ r st d, s.takeReply (.deny key r st d) rx = stale)
        ∧ (x.state ≠ .setting ∨ s.replyCounts x rx = false → ∀ a, s.takeReply (.setDone key a) rx = stale)
        ∧ (x.state ≠ .setting ∨ s.replyCounts x rx = false → ∀ p c, s.takeReply (.setFail key p c) rx = stale))

/-- Stale GRANTs, in every mode (R140), and the replies in ISOLATED (R141): a GRANT for no instance, or for one in CLAIMING that it does
not count for, is answered with a RELEASE and counted; one for an instance past CLAIMING is counted; in ISOLATED no reply that would
count is taken (log entry 26). A GRANT whose key names another node changes nothing (the model's choice: log entry 53). -/
def Sys2Proof.Clause.StaleGrants : Prop :=
  (∀ (s : State) (key : RouteKey) (rx : Option RxRec) (id : Nat), key.owner ≠ s.pt.node → s.takeReply (.grant key id) rx = s)
  ∧ ∀ (s : State) (key : RouteKey) (rx : Option RxRec) (id : Nat), key.owner = s.pt.node →
    (s.instWithKey key = none → s.takeReply (.grant key id) rx = (s.releaseTo key (s.replySource rx)).count
      (fun c => { c with staleReplies := bump c.staleReplies }))
    ∧ (∀ i x, s.instWithKey key = some i → s.inst? i = some x →
        (x.state = .claiming → s.replyCounts x rx = false →
          s.takeReply (.grant key id) rx = (s.releaseTo key (s.replySource rx)).count
            (fun c => { c with staleReplies := bump c.staleReplies }))
        ∧ (x.state ≠ .claiming →
          s.takeReply (.grant key id) rx = s.count (fun c => { c with staleReplies := bump c.staleReplies }))
        ∧ (s.pt.mode = .isolated → x.state = .claiming → s.replyCounts x rx = true → s.takeReply (.grant key id) rx = s))
    ∧ (∀ m : ReMsg, s.pt.mode = .isolated → m.kind ≠ .grant → s.takeReply m rx = s)

/-- Replies of owners in CLAIMING and SETTING, and stale GRANTs (R129, R130, R140, R141). -/
def Obligations.RepliesOfOwners : Prop :=
  Clause.RepliesReachRe ∧ Clause.RepliesInClaimingAndSetting ∧ Clause.LostClaimsAndStaleReplies ∧ Clause.StaleGrants

/-- PROVED, CLEAR_FAIL and LAMP_FAULT: RE takes SU's oldest report about the signal (R131, R132, R140). PROVED in CLEARING sets the
route, with its approach timer; a PROVED that no instance in CLEARING waits for is answered with STOP. CLEAR_FAIL in CLEARING
gives STOP (R121) and lets the route go; LAMP_FAULT in CLEAR cancels it; otherwise both change nothing. -/
def Obligations.SignalReportsReachRe : Prop :=
  ∀ (s : State) (g g' : Nat) (rest : List SuReport),
    let taken := { s with re := { s.re with reports := rest } }
    (takeFirst (fun r => r.signal == g) s.re.reports = some (.proved g', rest) →
      (s.instAt g = none → exec (.proved g) s = .next (taken.commandSu (.stop g)))
      ∧ (∀ i x rc, s.instAt g = some i → s.inst? i = some x → x.state = .clearing → s.routeOf x = some rc →
          exec (.proved g) s = .next ((taken.setInst i (some { x with
            state := .clear, timers := { ReTimers.stopped with approach := some ⟨0, 1000 * rc.approach⟩ } })).count
              (fun c => { c with routesSet := bump c.routesSet })))
      ∧ (∀ i x, s.instAt g = some i → s.inst? i = some x → x.state ≠ .clearing →
          exec (.proved g) s = .next (taken.commandSu (.stop g))))
    ∧ (takeFirst (fun r => r.signal == g) s.re.reports = some (.clearFail g', rest) →
      (s.instAt g = none → exec (.clearFail g) s = .next taken)
      ∧ (∀ i x, s.instAt g = some i → s.inst? i = some x →
          exec (.clearFail g) s = .next (if x.state = .clearing then (taken.commandSu (.stop g)).letGo i x .clearFail else taken)))
    ∧ (takeFirst (fun r => r.signal == g) s.re.reports = some (.lampFault g', rest) →
      (s.instAt g = none → exec (.lampFault g) s = .next taken)
      ∧ (∀ i x, s.instAt g = some i → s.inst? i = some x →
          exec (.lampFault g) s = .next (if x.state = .clear then taken.enterCancelling i .lamp else taken)))

/-- RE_SECTION_CHANGE: a route in CLEARING, CLEAR or CANCELLING whose first section leaves CLEAR is entered, with the run-through timer of
300 s, and from CLEARING and CLEAR with STOP (R131, R132, R139); with every step passed already it ends DONE at once (log entry 27);
PASSED marks its step in CLEAR and, in ENTERED and HALTED, restarts that timer; the last step ends an entered route DONE, and the end
condition a halted one DEGRADED (R133, R136); a repeated PASSED changes nothing, and one in another state, or from a node that does not own
the step, is stale (R133, R140). RUN_THROUGH_EXPIRY ends the route DEGRADED, with a RELEASE to each owner that has an unpassed step (R135),
in owner-list order (log entry 33). -/
def Sys2Proof.Clause.RouteIsEnteredAndPassed : Prop :=
  (∀ (s : State) (k : Nat) (n : SectNotice) (rest : List SectNotice), takeFirst (fun x => x.sect == k) s.re.notices = some (n, rest) →
      ∃ t : State, exec (.reSectionChange k) s = .next t
        ∧ (n.before ≠ .clear ∨ n.after = .clear → t = { s with re := { s.re with notices := rest } })
        ∧ (∀ i x, n.before = .clear → n.after ≠ .clear → s.inst? i = some x →
            (s.firstSect x ≠ some n.sect → t.inst? i = some x)
            ∧ (s.firstSect x = some n.sect → x.state = .clearing ∨ x.state = .clear → .stop x.signal ∈ t.su.commands)
            ∧ (s.firstSect x = some n.sect → x.state = .clearing ∨ x.state = .clear ∨ x.state = .cancelling →
                (x.allPassed = false → t.inst? i = some { x with
                    state := .entered, cause := none, claimLost := false
                    timers := { ReTimers.stopped with runThrough := some ⟨0, 300000⟩ } })
                ∧ (x.allPassed = true → t.inst? i = none ∧ ⟨i, x.slot, x.serial, .done⟩ ∈ t.rq.outcomes))
            ∧ (x.state ≠ .clearing → x.state ≠ .clear → x.state ≠ .cancelling → t.inst? i = some x)))
  ∧ (∀ (s : State) (key : RouteKey) (rx : Option RxRec) (i number : Nat) (x : Inst), s.pt.mode ≠ .isolated →
      s.instWithKey key = some i → s.inst? i = some x → s.stepOf x number (s.replySource rx) = true →
      (x.state = .clear → s.takeReply (.passed key number) rx = s.setInst i (some { x with passed := x.passed.set (number - 1) true }))
      ∧ (x.state = .entered → x.passed[number - 1]? = some false → x.passed.length = (s.routeSteps x).length →
          let flags := x.passed.set (number - 1) true
          (flags.all (fun p => p) = false → s.takeReply (.passed key number) rx = s.setInst i (some { x with
              passed := flags, timers := { x.timers with runThrough := some ⟨0, 300000⟩ } }))
          ∧ (flags.all (fun p => p) = true → (s.takeReply (.passed key number) rx).inst? i = none
              ∧ (s.takeReply (.passed key number) rx).rq.outcomes = s.rq.outcomes ++ [⟨i, x.slot, x.serial, .done⟩]))
      ∧ (x.state = .halted → x.passed[number - 1]? = some false → x.passed.length = (s.routeSteps x).length →
          let now : Inst := { x with
            passed := x.passed.set (number - 1) true, timers := { x.timers with runThrough := some ⟨0, 300000⟩ } }
          (s.haltedEnds now = false → s.takeReply (.passed key number) rx = s.setInst i (some now))
          ∧ (s.haltedEnds now = true → s.takeReply (.passed key number) rx
              = (forEach (x.owners.filter (fun o => hasUnpassed o.node (s.routeSteps x) now.passed && !o.changed))
                  (fun o u => u.releaseTo (s.keyOf x) o.node) (s.setInst i (some now))).endInst i now .degraded))
      ∧ (x.state = .entered ∨ x.state = .halted → x.passed[number - 1]? = some true → s.takeReply (.passed key number) rx = s)
      ∧ (x.state ≠ .clear → x.state ≠ .entered → x.state ≠ .halted → s.takeReply (.passed key number) rx
          = s.count (fun c => { c with staleReplies := bump c.staleReplies })))
  ∧ (∀ (s : State) (key : RouteKey) (rx : Option RxRec) (i number : Nat) (x : Inst), s.pt.mode ≠ .isolated →
      s.instWithKey key = some i → s.inst? i = some x → s.stepOf x number (s.replySource rx) = false →
      s.takeReply (.passed key number) rx = s.count (fun c => { c with staleReplies := bump c.staleReplies }))
  ∧ (∀ (s : State) (i : Nat) (x : Inst), s.inst? i = some x → due x.timers.runThrough = true →
      ∃ t : State, exec (.runThroughExpiry i) s = .next t
        ∧ t.inst? i = none ∧ t.rq = { s.rq with outcomes := s.rq.outcomes ++ [⟨i, x.slot, x.serial, .degraded⟩] }
        ∧ t = (forEach (x.owners.filter (fun o => hasUnpassed o.node (s.routeSteps x) x.passed))
            (fun o u => u.releaseTo (s.keyOf x) o.node) s).endInst i x .degraded)

/-- Cancelling (R132, R138, R139): CANCEL_INSTANCE ends a route that is not cleared yet, and one whose approach section is clear, at once;
otherwise, and on APPROACH_TIMER_EXPIRY, the signal is commanded to STOP and the release delay runs; RELEASE_DELAY_EXPIRY then lets
the route go with the outcome of its cause: RELEASE to every owner, in owner-list order (log entry 33), AWARD-WITHDRAW, and the outcome. A
cancel whose slot or serial is no
longer that of its instance changes nothing (log entry 24). -/
def Sys2Proof.Clause.CancellingARoute : Prop :=
  ∀ (s : State) (i : Nat) (x : Inst), s.inst? i = some x →
    (∀ m rest, takeFirst (fun m : CancelMsg => m.inst == i) s.re.cancels = some (m, rest) → m.inst = i →
      let taken := { s with re := { s.re with cancels := rest } }
      (x.slot ≠ m.slot ∨ x.serial ≠ m.serial → exec (.cancelInstance i) s = .next taken)
      ∧ (x.slot = m.slot → x.serial = m.serial →
          (x.state = .calling ∨ x.state = .backoff →
            exec (.cancelInstance i) s = .next ((taken.withdrawAward x).endInst i x m.cause.cause.outcome))
          ∧ (x.state = .claiming ∨ x.state = .setting → exec (.cancelInstance i) s = .next (taken.letGo i x m.cause.cause.outcome))
          ∧ (x.state = .clearing ∨ x.state = .clear → exec (.cancelInstance i) s = .next (taken.enterCancelling i m.cause.cause))
          ∧ (x.state = .entered ∨ x.state = .halted ∨ x.state = .cancelling → exec (.cancelInstance i) s = .next taken)))
    ∧ (due x.timers.approach = true → exec (.approachTimerExpiry i) s = .next (s.enterCancelling i .approach))
    ∧ (∀ c, due x.timers.delay = true → x.cause = some c → exec (.releaseDelayExpiry i) s = .next (s.letGo i x c.outcome))
    ∧ (∀ c, s.approachClear x.signal = true →
        s.enterCancelling i c = (s.commandSu (.stop x.signal)).letGo i x c.outcome)
    ∧ (∀ c rc, s.approachClear x.signal = false → s.routeOf x = some rc →
        s.enterCancelling i c = (s.commandSu (.stop x.signal)).setInst i (some { x with
          state := .cancelling, cause := some c, timers := { ReTimers.stopped with delay := some ⟨0, 1000 * rc.delay⟩ } }))
    ∧ (∀ code, s.letGo i x code = ((forEach (x.owners.filter (·.asked)) (fun o u => u.releaseTo (s.keyOf x) o.node) s).withdrawAward
        x).endInst i x code)
    ∧ (∀ code, (s.letGo i x code).inst? i = none
        ∧ (s.letGo i x code).rq.outcomes = s.rq.outcomes ++ [⟨i, x.slot, x.serial, code⟩])

/-- A lock report of PT at RE (R70, R134): for an instance in ENTERED or HALTED whose owner is recorded under the report's epoch, has not
changed it, and gave its SET-DONE before the report, each step of that owner whose section the map does not lock counts as passed; a step
newly passed restarts the run-through timer, and the instance ends where its end condition then holds; any other instance stays as it
is. -/
def Sys2Proof.Clause.LockReportsCount : Prop :=
  ∀ (s : State) (peer : Nat) (epoch : Epoch) (at_ : Time) (map : BitVec 16) (i : Nat) (x : Inst), s.inst? i = some x →
    let t := s.takeLockReport peer epoch at_ map
    let flags := markPassed (fun _ st => st.owner == peer && !lockedIn map st.sect) 1 (s.routeSteps x) x.passed
    let now : Inst := { x with passed := flags, timers := { x.timers with runThrough := some ⟨0, 300000⟩ } }
    let counts := (x.state = .entered ∨ x.state = .halted) ∧ ∃ o t0, x.owner? peer = some o ∧ o.epoch = some epoch
      ∧ o.changed = false ∧ o.setDoneTime = some t0 ∧ at_ ≠ t0 ∧ reached at_ t0 = true
    (∀ (k : Nat) (st : RouteStep) (b : Bool), (s.routeSteps x)[k]? = some st → x.passed[k]? = some b →
      flags[k]? = some (b || (st.owner == peer && !lockedIn map st.sect)))
    ∧ (¬ counts ∨ flags = x.passed → t.inst? i = some x)
    ∧ (counts → flags ≠ x.passed → x.state = .entered →
        (flags.all (fun p => p) = false → t.inst? i = some now)
        ∧ (flags.all (fun p => p) = true → t.inst? i = none ∧ ⟨i, x.slot, x.serial, .done⟩ ∈ t.rq.outcomes))
    ∧ (counts → flags ≠ x.passed → x.state = .halted →
        (s.haltedEnds now = false → t.inst? i = some now)
        ∧ (s.haltedEnds now = true → t.inst? i = none ∧ ⟨i, x.slot, x.serial, .degraded⟩ ∈ t.rq.outcomes))

/-- Entering, passing and cancelling a route, and lock reports (R70, R131 to R135, R138, R139). -/
def Obligations.PassingAndCancelling : Prop :=
  Clause.RouteIsEnteredAndPassed ∧ Clause.CancellingARoute ∧ Clause.LockReportsCount

/-- CLAIM-LOST at RE, from an owner asked, whatever its EPOCH_MATCH (log entry 43): it cancels a cleared route with cause HALT (R131, R132),
and halts an entered one, or ends it where its end condition then holds (R136). -/
def Sys2Proof.Clause.ClaimLostHaltsRoutes : Prop :=
  ∀ (s : State) (key : RouteKey) (rx : Option RxRec) (i : Nat) (x : Inst), s.pt.mode ≠ .isolated → s.instWithKey key = some i →
    s.inst? i = some x → x.asked (s.replySource rx) = true → ∀ cause p,
    (x.state = .clearing ∨ x.state = .clear → s.takeReply (.claimLost key cause p) rx = s.enterCancelling i .halt)
    ∧ (x.state = .entered ∨ x.state = .halted →
        let halted : Inst := { x with state := .halted, claimLost := true }
        s.takeReply (.claimLost key cause p) rx = if s.haltedEnds halted = true then (s.setInst i (some halted)).endDegraded i halted true
          else s.setInst i (some halted))

/-- The end of a halted route (R136): its end condition is that each owner is lost or has no unpassed step; a RELEASE goes to each owner
with an unpassed step whose epoch has not changed, in owner-list order (log entry 33), and the outcome is DEGRADED. -/
def Sys2Proof.Clause.HaltedRoutesEnd : Prop :=
  ∀ (s : State) (i : Nat) (x : Inst),
    (∀ node, hasUnpassed node (s.routeSteps x) x.passed = true ↔ ∃ (j : Nat) (st : RouteStep),
        (s.routeSteps x)[j]? = some st ∧ st.owner = node ∧ x.passed[j]? = some false)
    ∧ (s.haltedEnds x = true ↔ ∀ o ∈ x.owners, o.lost = true ∨ hasUnpassed o.node (s.routeSteps x) x.passed = false)
    ∧ s.endDegraded i x true = (forEach (x.owners.filter (fun o => hasUnpassed o.node (s.routeSteps x) x.passed && !o.changed))
        (fun o u => u.releaseTo (s.keyOf x) o.node) s).endInst i x .degraded

/-- UNUSABLE and EPOCH_CHANGE of an owner, on one route instance. In CLAIMING and SETTING the attempt fails where the owner has been asked,
unless its entry holds another epoch, which is then a newer one (R69, R129, R130, log entry 39). Later they count under the recorded epoch
alone: they cancel a cleared route with cause HALT (R131, R132); while the owner has an unpassed step of an entered or halted route, its
entry is lost, for good on EPOCH_CHANGE, and the route is halted, or ends (R136). In every other case nothing changes. -/
def Sys2Proof.Clause.LostOwnerHaltsARoute : Prop :=
  ∀ (s : State) (peer : Nat) (e : Epoch) (changed : Bool) (i : Nat) (x : Inst), s.inst? i = some x →
    (x.owner? peer = none → s.ownerGone peer e changed i x = s)
    ∧ (∀ o, x.owner? peer = some o →
        (x.state = .claiming ∨ x.state = .setting →
          (o.asked = true → o.epoch = none ∨ o.epoch = some e → s.ownerGone peer e changed i x = s.failAttempt i .other)
          ∧ (o.asked = false ∨ (∃ e', o.epoch = some e' ∧ e' ≠ e) → s.ownerGone peer e changed i x = s))
        ∧ (x.state = .clearing ∨ x.state = .clear → o.epoch = some e → s.ownerGone peer e changed i x = s.enterCancelling i .halt)
        ∧ (x.state = .entered ∨ x.state = .halted → o.epoch = some e →
            let halted : Inst := { x with state := .halted, owners := x.owners.map (fun o =>
              if o.node = peer then { o with lost := true, changed := o.changed || changed } else o) }
            (hasUnpassed peer (s.routeSteps x) x.passed = false → s.ownerGone peer e changed i x = s)
            ∧ (hasUnpassed peer (s.routeSteps x) x.passed = true → s.ownerGone peer e changed i x
                = if s.haltedEnds halted = true then (s.setInst i (some halted)).endDegraded i halted true
                  else s.setInst i (some halted)))
        ∧ (x.state = .calling ∨ x.state = .backoff ∨ x.state = .cancelling → s.ownerGone peer e changed i x = s)
        ∧ (o.epoch ≠ some e → x.state ≠ .claiming → x.state ≠ .setting → s.ownerGone peer e changed i x = s))

/-- Notices of PT and isolation at RE: UNUSABLE and EPOCH_CHANGE reach every instance, in rising index (log entry 33). USABLE clears the lost
flag of an owner recorded under the same epoch that has not changed it, and a halted route without a lost owner and without CLAIM-LOST is
ENTERED again, its timers running on (R136; log entry 56). Isolation ends every instance in rising order (R141): a RELEASE for its key goes
to each remote owner asked, in owner-list order (log entry 33), then an AWARD-WITHDRAW for an award where it is not ENTERED or HALTED; RQ
gets no outcome. -/
def Sys2Proof.Clause.OwnerNoticesReachInstances : Prop :=
  (∀ (k k' : Nat) (s : State) (e : Epoch) (rest : List PeerNotice),
      let taken := { s with re := { s.re with peerNotices := rest } }
      let each := fun changed : Bool => forEach (List.range s.re.insts.length) (fun i u =>
        match u.inst? i with
        | some x => u.ownerGone k e changed i x
        | none => u) taken
      (takeFirst (fun n => n.peer == k) s.re.peerNotices = some (.unusable k' e, rest) →
        exec (.reUnusable k) s = .next (each false))
      ∧ (∀ new, takeFirst (fun n => n.peer == k) s.re.peerNotices = some (.epochChange k' e new, rest) →
        exec (.reEpochChange k) s = .next (each true))
      ∧ (∀ changed i x, s.inst? i = some x →
          (x.state ≠ .claiming → x.state ≠ .setting → (each changed).inst? i = (taken.ownerGone k e changed i x).inst? i)
          ∧ (∀ o, x.owner? k = some o → x.state = .claiming ∨ x.state = .setting → o.asked = true →
              o.epoch = none ∨ o.epoch = some e → ∃ y, (each changed).inst? i = some y ∧ y.state = .backoff))
      ∧ (takeFirst (fun n => n.peer == k) s.re.peerNotices = some (.usable k' e, rest) → ∃ t : State,
          exec (.reUsable k) s = .next t
          ∧ (∀ i x, s.inst? i = some x →
              let back := x.owners.map (fun o =>
                if o.node = k ∧ o.epoch = some e ∧ o.changed = false then { o with lost := false } else o)
              let returns := x.state = .halted ∧ ∃ o, x.owner? k = some o ∧ o.lost = true ∧ o.epoch = some e ∧ o.changed = false
              (¬ returns → t.inst? i = some x)
              ∧ (returns → x.claimLost = false → (∀ o ∈ back, o.lost = false) →
                  t.inst? i = some { x with state := .entered, owners := back })
              ∧ (returns → x.claimLost = true ∨ (∃ o ∈ back, o.lost = true) → t.inst? i = some { x with owners := back }))
          ∧ t = { s with re := { s.re with peerNotices := rest, insts := t.re.insts } }))
  ∧ (∀ s : State, s.re.isolated = true → ∃ t : State, exec .reIsolation s = .next t
      ∧ t.re.isolated = false ∧ (∀ i, t.inst? i = none) ∧ t.rq = s.rq ∧ t.su = s.su
      ∧ t = forEach (List.range s.re.insts.length) (fun i u => match s.inst? i with
          | some x =>
            let released := forEach (x.owners.filter (fun o => o.asked && o.node != s.pt.node)) (fun o v =>
              if o.node < 63 then v.send .release o.node (encKey (s.keyOf x)) else v) u
            let withdrawn := if x.state = .entered ∨ x.state = .halted then released else released.withdrawAward x
            { withdrawn with re := { withdrawn.re with insts := withdrawn.re.insts.set i none } }
          | none => u) { s with re := { s.re with isolated := false } })

/-- Lost claims, lost owners and isolation at RE (R69, R129 to R132, R136, R141). -/
def Obligations.LossesHaltRoutes : Prop :=
  Clause.ClaimLostHaltsRoutes ∧ Clause.HaltedRoutesEnd ∧ Clause.LostOwnerHaltsARoute ∧ Clause.OwnerNoticesReachInstances

/-! ## The Road Unit (R143 to R162) -/

/-- BID_CALL, AWARD and AWARD_WITHDRAW reach YU as a frame, in one turn of the frame handler, or as the oldest handover of the own RE. A
BID-CALL and an AWARD count only while the node is RUNNING, from a usable caller that the call ID names, with EPOCH_MATCH; an AWARD
that does not count is ignored and counted; a withdrawal needs the caller's identity alone (R147, R151, R153). -/
def Sys2Proof.Clause.YuTrafficReachesYu : Prop :=
  ∀ s : State,
    (∀ (f : RxFrame) (fs' : FS), s.fs.takeFrame .bidCall = some (f, fs') →
      let call := decCall f.payload 0
      exec (.bidCall .frame) s = .next (if s.pt.mode = .running ∧ f.rx.usable = true ∧ f.rx.epochMatch = true ∧ f.rx.source = call.caller
        then (({ s with fs := fs' }).takeBidCall call f.rx.epoch (decTram f.payload 2)).finishFrame
        else ({ s with fs := fs' }).finishFrame))
    ∧ (∀ (f : RxFrame) (fs' : FS), s.fs.takeFrame .award = some (f, fs') →
      let call := decCall f.payload 0
      exec (.award .frame) s = .next (if s.pt.mode = .running ∧ f.rx.usable = true ∧ f.rx.epochMatch = true ∧ f.rx.source = call.caller
        then (({ s with fs := fs' }).takeAward call f.rx.epoch (byteAt f.payload 2) (decTram f.payload 3)
          (byteAt f.payload 7 % 2 = 1)).finishFrame
        else (({ s with fs := fs' }).count (fun c => { c with awardsIgnored := bump c.awardsIgnored })).finishFrame))
    ∧ (∀ (f : RxFrame) (fs' : FS), s.fs.takeFrame .awardWithdraw = some (f, fs') →
      let call := decCall f.payload 0
      exec (.awardWithdraw .frame) s = .next (if f.rx.source = call.caller ∧ f.rx.epochMatch = true
        then (({ s with fs := fs' }).takeWithdraw call f.rx.epoch).finishFrame else ({ s with fs := fs' }).finishFrame))
    ∧ (∀ call t rest, s.yu.fromRe = .bidCall call t :: rest →
      let taken := { s with yu := { s.yu with fromRe := rest } }
      exec (.bidCall .handover) s = .next (if s.pt.mode = .running then taken.takeBidCall call s.pt.epoch t else taken))
    ∧ (∀ call road t direct rest, s.yu.fromRe = .award call road t direct :: rest →
      let taken := { s with yu := { s.yu with fromRe := rest } }
      exec (.award .handover) s = .next (if s.pt.mode = .running then taken.takeAward call s.pt.epoch road t direct
        else taken.count (fun c => { c with awardsIgnored := bump c.awardsIgnored })))
    ∧ (∀ call rest, s.yu.fromRe = .withdraw call :: rest →
      exec (.awardWithdraw .handover) s = .next (({ s with yu := { s.yu with fromRe := rest } }).takeWithdraw call s.pt.epoch))

/-- The score of a road for a tram (R149): 512 for each occupant with an earlier slot, the distance to the slot of the entry-end
occupant or 256 on an empty road, 2 for each place left, 32 for each unit of weight; 4095 at most. -/
def Sys2Proof.Clause.RoadScore : Prop :=
  ∀ (x : RoadRec) (c : RoadCfg) (t : TramRec),
    let slots := (x.stack ++ x.arrivals.map (·.tram)).map (·.slot)
    let left := c.capacity - x.used - t.places
    (slots = [] → x.score c t = min (256 + 2 * left + 32 * c.weight) 4095)
    ∧ (∀ front e, slots = front ++ [e] → x.score c t
        = min (512 * (slots.filter (fun z => z < t.slot)).length + ((e - t.slot) + (t.slot - e)) + 2 * left + 32 * c.weight) 4095)

/-- A bid call that YU answers (R148): the eligible road with the lowest score, the lower index on equal scores, is bid, to the caller
or to the own RE, and gets the offer, which expires after 1000 ms; with no eligible road nothing happens. -/
def Sys2Proof.Clause.BestRoadIsBid : Prop :=
  (∀ (s : State) (t : TramRec) (r sc : Nat), s.bestRoad t = some (r, sc) →
    ∃ c x, s.yard.roads[r]? = some c ∧ s.yu.roads[r]? = some x
      ∧ x.cond = .known ∧ x.offer = none ∧ x.used + t.places ≤ c.capacity ∧ sc = x.score c t
      ∧ (∀ (j : Nat) (d : RoadCfg) (y : RoadRec), s.yard.roads[j]? = some d → s.yu.roads[j]? = some y →
          y.cond = .known → y.offer = none → y.used + t.places ≤ d.capacity →
          sc < y.score d t ∨ (sc = y.score d t ∧ r ≤ j)))
  ∧ (∀ (s : State) (t : TramRec), s.bestRoad t = none →
      ∀ (j : Nat) (d : RoadCfg) (y : RoadRec), s.yard.roads[j]? = some d → s.yu.roads[j]? = some y →
        ¬ (y.cond = .known ∧ y.offer = none ∧ y.used + t.places ≤ d.capacity))
  ∧ (∀ (s : State) (call : CallId) (epoch : Epoch) (t : TramRec),
      (s.bestRoad t = none → s.answerCall call epoch t = s)
      ∧ (∀ r sc, s.bestRoad t = some (r, sc) →
          let u := s.answerCall call epoch t
          u.yu = { s.yu with roads := s.yu.roads.modify r (fun x => { x with offer := some ⟨call, epoch, s.time + 1000⟩ }) }
          ∧ u.cnt.bidsSent = bump s.cnt.bidsSent
          ∧ (call.caller = s.pt.node → u.re = { s.re with fromYu := s.re.fromYu ++ [.bid call r sc] } ∧ u.fs = s.fs)
          ∧ (call.caller ≠ s.pt.node → u.re = s.re ∧ u.fs = (s.send .bid call.caller ([byte call.caller, byte call.seq, byte r]
              ++ bytes2 sc)).fs)
          ∧ u = { s with yu := u.yu, cnt := u.cnt, re := u.re, fs := u.fs }))

/-- A bid call first clears what an earlier use of its call ID left under the caller's epoch, offers and unlinked arrivals, with ROAD-CHANGE
for the places that return (R154); then it is answered, unless a linked arrival under the call ID keeps it from that (R147). -/
def Sys2Proof.Clause.BidCallClearsItsEarlierUse : Prop :=
  ∀ (s : State) (call : CallId) (epoch : Epoch) (t : TramRec),
    let mine := fun a : Arrival => a.call == call && a.epoch == epoch && a.link == none
    let cleared := ({ s with yu := { s.yu with roads := s.yu.roads.map (fun x : RoadRec => { x with
      arrivals := x.arrivals.filter (fun a => !mine a)
      offer := match x.offer with
        | some o => if o.call = call ∧ o.epoch = epoch then none else some o
        | none => none }) } }).announceGains s.yu.roads
    s.takeBidCall call epoch t = (if s.linkedCall call then cleared else cleared.answerCall call epoch t)
    ∧ ((∀ x ∈ s.yu.roads, (∀ a ∈ x.arrivals, mine a = false) ∧ (∀ o, x.offer = some o → o.call ≠ call ∨ o.epoch ≠ epoch)) →
      s.takeBidCall call epoch t = if s.linkedCall call then s else s.answerCall call epoch t)
    ∧ (s.linkedCall call = true → ∀ (r : Nat) (x : RoadRec), s.yu.roads[r]? = some x →
        ∃ y, (s.takeBidCall call epoch t).yu.roads[r]? = some y ∧ y.stack = x.stack ∧ y.cond = x.cond
          ∧ y.arrivals = x.arrivals.filter (fun a => !mine a)
          ∧ (∀ o, x.offer = some o → o.call = call → o.epoch = epoch → y.offer = none)
          ∧ (∀ o, x.offer = some o → o.call ≠ call ∨ o.epoch ≠ epoch → y.offer = some o))
    ∧ (s.linkedCall call = true ↔ ∃ x ∈ s.yu.roads, ∃ a ∈ x.arrivals, a.call = call ∧ a.link ≠ none)

/-- Bid calls at YU (R147 to R149). -/
def Obligations.BidCallsAreAnswered : Prop :=
  Clause.YuTrafficReachesYu ∧ Clause.RoadScore ∧ Clause.BestRoadIsBid ∧ Clause.BidCallClearsItsEarlierUse

/-- An award that meets its first two conditions (R151): unlinked arrivals under the call ID and epoch go first; then it is accepted
where the road is configured, no linked arrival has the call ID, the road has fewer than 4 arrivals and takes it; otherwise it is
ignored. The road takes it with enough free places and either its own offer or KNOWN with no offer (log entry 30: the places are asked
in both cases). The gains of the arrivals that went are announced (R154). -/
def Sys2Proof.Clause.AwardsAreTakenOrIgnored : Prop :=
  (∀ (x : RoadRec) (capacity p : Nat) (call : CallId) (epoch : Epoch),
    x.takesAward capacity call epoch p = true ↔
      x.used + p ≤ capacity ∧ ((∃ e, x.offer = some ⟨call, epoch, e⟩) ∨ (x.cond = .known ∧ x.offer = none)))
  ∧ (∀ (s : State) (call : CallId) (epoch : Epoch) (road : Nat) (t : TramRec) (direct : Bool),
      let clean := s.yu.roads.map (RoadRec.dropCall call epoch false)
      let u := s.takeAward call epoch road t direct
      (∀ c x, s.yard.roads[road]? = some c → clean[road]? = some x → s.linkedCall call = false → x.arrivals.length < 4 →
        x.takesAward c.capacity call epoch t.places = true →
        u.yu.roads[road]? = some { x with
          arrivals := x.arrivals ++ [⟨call, epoch, t, direct, none, none, false⟩]
          offer := match x.offer with
            | some o => if o.call = call ∧ o.epoch = epoch then none else some o
            | none => none }
        ∧ (∀ j, j ≠ road → u.yu.roads[j]? = clean[j]?)
        ∧ u.cnt.awardsTaken = bump s.cnt.awardsTaken ∧ u.cnt.awardsIgnored = s.cnt.awardsIgnored
        ∧ u = ({ s with yu := { s.yu with roads := u.yu.roads }, cnt := { s.cnt with awardsTaken := bump s.cnt.awardsTaken } }).announceGains
            s.yu.roads)
      ∧ (s.yard.roads[road]? = none ∨ clean[road]? = none ∨ s.linkedCall call = true
          ∨ (∃ c x, s.yard.roads[road]? = some c ∧ clean[road]? = some x
              ∧ (4 ≤ x.arrivals.length ∨ x.takesAward c.capacity call epoch t.places = false)) →
        u.yu.roads = clean
        ∧ u.cnt.awardsIgnored = bump s.cnt.awardsIgnored ∧ u.cnt.awardsTaken = s.cnt.awardsTaken
        ∧ u = ({ s with yu := { s.yu with roads := clean }, cnt := { s.cnt with awardsIgnored := bump s.cnt.awardsIgnored } }).announceGains
            s.yu.roads)
      ∧ u = { s with yu := { s.yu with roads := u.yu.roads }, cnt := u.cnt, re := { s.re with fromYu := u.re.fromYu }, fs := u.fs }
      ∧ (∀ (j : Nat) (x : RoadRec), s.yu.roads[j]? = some x → clean[j]? = some { x with
          arrivals := x.arrivals.filter (fun a => !(a.call == call && a.epoch == epoch && a.link == none)) }))

/-- A withdrawal removes the arrival of the call under the caller's epoch, linked or not, and clears an offer of the call; the gains are
announced (R153, R154). -/
def Sys2Proof.Clause.WithdrawalLetsGo : Prop :=
  ∀ (s : State) (call : CallId) (epoch : Epoch),
    let u := s.takeWithdraw call epoch
    (∀ (r : Nat) (x : RoadRec), s.yu.roads[r]? = some x → u.yu.roads[r]? = some { x with
        arrivals := x.arrivals.filter (fun a => !(a.call == call && a.epoch == epoch))
        offer := match x.offer with
          | some o => if o.call = call then none else some o
          | none => none })
    ∧ u = ({ s with yu := { s.yu with roads := u.yu.roads } }).announceGains s.yu.roads
    ∧ u = { s with yu := { s.yu with roads := u.yu.roads }, re := { s.re with fromYu := u.re.fromYu }, fs := u.fs, cnt := u.cnt }

/-- ROAD-CHANGE (R154): in RUNNING, for each road whose used places fell, or that became KNOWN, a broadcast with the road, its condition and
its free places, and one change handed to RE; several roads in rising index (the model's choice: log entry 33); in another mode
none, no change handed over either (the model's choice: log entry 54). -/
def Sys2Proof.Clause.GainsAreAnnounced : Prop :=
  ∀ (s : State) (old : List RoadRec), old.length = s.yard.roads.length →
    let gained := (List.range old.length).filter (fun r =>
      match old[r]?, s.yu.roads[r]? with
      | some a, some b => decide (b.used < a.used) || (a.cond == .doubtful && b.cond == .known)
      | _, _ => false)
    (s.pt.mode = .running → (s.announceGains old).re = { s.re with fromYu := s.re.fromYu ++ gained.map FromYu.roadChange }
      ∧ s.announceGains old = forEach gained (fun r u => match s.yard.roads[r]?, s.yu.roads[r]? with
          | some c, some x =>
            let sent := u.send .roadChange 63 [byte r, byte x.cond.code, byte (c.capacity - x.used)]
            { sent with re := { sent.re with fromYu := sent.re.fromYu ++ [.roadChange r] } }
          | _, _ => u) s)
    ∧ (s.pt.mode ≠ .running ∨ gained = [] → s.announceGains old = s)
    ∧ s.announceGains old = { s with re := (s.announceGains old).re, fs := (s.announceGains old).fs, cnt := (s.announceGains old).cnt }

/-- Awards, withdrawals and ROAD-CHANGE (R151, R153, R154). -/
def Obligations.AwardsAndWithdrawals : Prop :=
  Clause.AwardsAreTakenOrIgnored ∧ Clause.WithdrawalLetsGo ∧ Clause.GainsAreAnnounced

/-- OFFER_EXPIRY clears the offer once the time base has reached its end, and nothing else (R150). HOLD_TIMER_EXPIRY after 120 s: an
unlinked arrival goes, and the road is announced where it gained by that (R154); a linked one is marked caller-gone (R159). -/
def Sys2Proof.Clause.OffersAndHoldsExpire : Prop :=
  ∀ (s : State) (r : Nat) (x : RoadRec), s.yu.roads[r]? = some x →
    (∀ o, x.offer = some o → reached s.time o.expiry = true → exec (.offerExpiry r) s = .next { s with yu := { s.yu with
        roads := s.yu.roads.set r { x with offer := none } } })
    ∧ (∀ o, x.offer = some o → reached s.time o.expiry = false → exec (.offerExpiry r) s = .next s)
    ∧ (∀ j a, x.arrivals[j]? = some a → due a.hold = true →
        (a.link = none → ∃ t : State, exec (.holdTimerExpiry r j) s = .next t
          ∧ t.yu = { s.yu with roads := s.yu.roads.set r { x with arrivals := x.arrivals.eraseIdx j } }
          ∧ t = ({ s with yu := t.yu }).announceGains s.yu.roads
          ∧ t = { s with yu := t.yu, re := t.re, fs := t.fs, cnt := t.cnt })
        ∧ (a.link ≠ none → exec (.holdTimerExpiry r j) s = .next { s with yu := { s.yu with
            roads := s.yu.roads.set r { x with arrivals := x.arrivals.set j { a with gone := true, hold := none } } } }))

/-- YU_SECTION_CHANGE: YU takes its oldest notice about the section (R158). A body section that becomes CLEAR empties the stack of its
road and makes it KNOWN, with a report where there were entries (an EVENT frame with the road and their number); one that is occupied from
CLEAR makes an empty KNOWN road that expects no tram DOUBTFUL, with a report (R146, R167); the road is queued for writing, and its gain
announced; anything else, and any other section, changes no road. -/
def Sys2Proof.Clause.BodySectionsCorrectRoads : Prop :=
  ∀ (k : Nat) (s : State) (n : SectNotice) (rest : List SectNotice), takeFirst (fun n => n.sect == k) s.yu.notices = some (n, rest) →
    let taken := { s with yu := { s.yu with notices := rest } }
    (firstIndex (fun c : RoadCfg => c.body == n.sect) s.yard.roads = none → exec (.yuSectionChange k) s = .next taken)
    ∧ (∀ r x, firstIndex (fun c : RoadCfg => c.body == n.sect) s.yard.roads = some r → s.yu.roads[r]? = some x →
        ∃ t : State, exec (.yuSectionChange k) s = .next t
          ∧ (∀ j, j ≠ r → t.yu.roads[j]? = s.yu.roads[j]?)
          ∧ (n.after = .clear → t.yu.roads[r]? = some { x with stack := [], cond := .known }
              ∧ t.rp.serial = (if x.stack = [] then s.rp.serial else s.rp.serial + 1)
              ∧ (x.stack = [] → x.cond = .known → t = taken)
              ∧ (x.stack ≠ [] ∨ x.cond = .doubtful →
                  let emptied := { taken with yu := { taken.yu with roads := s.yu.roads.set r { x with stack := [], cond := .known } } }
                  let told := if x.stack = [] then emptied else emptied.eventSent 7 [byte r, byte x.stack.length]
                  t = (told.queueRoads [r]).announceGains s.yu.roads))
          ∧ (n.before = .clear → n.after ≠ .clear →
              (x.cond = .known → x.stack = [] → (∀ a ∈ x.arrivals, a.link = none) →
                t.yu.roads[r]? = some { x with cond := .doubtful, offer := none } ∧ t.rp.serial = s.rp.serial + 1
                ∧ t = (({ taken with yu := { taken.yu with
                    roads := s.yu.roads.set r { x with cond := .doubtful, offer := none } } }).eventSent 8
                      (doubtFields r .unexpectedArrival none)).queueRoads [r])
              ∧ (x.cond = .doubtful ∨ x.stack ≠ [] ∨ (∃ a ∈ x.arrivals, a.link ≠ none) → t = taken))
          ∧ (n.before ≠ .clear → n.after ≠ .clear → t = taken)
          ∧ t.ct = s.ct ∧ t.du = s.du ∧ t.pu = s.pu ∧ t.su = s.su ∧ t.rq = s.rq ∧ t.pt = s.pt ∧ t.li = s.li ∧ t.mi.mem = s.mi.mem)

/-- A PUSH mouth release (R155): the arrival it names is stacked at the entry end, and an earlier entry for the tram goes from every
road, which becomes DOUBTFUL, with its report, a KNOWN one losing its offer (R146, R167); several in rising index (the model's choice: log
entry 33); with no such arrival a KNOWN road becomes DOUBTFUL, with its report. The roads are queued for writing, and gains announced, for
each push on its own (the model's choice: log entry 55). -/
def Sys2Proof.Clause.PushStacksTheArrival : Prop :=
  ∀ (s : State) (r : Nat) (call : CallId) (key : RouteKey) (tram : Nat) (x : RoadRec), s.yu.roads[r]? = some x →
    let u := s.takePush r call key tram
    let named := fun a : Arrival => a.call == call && a.call.caller == key.owner && a.epoch == key.epoch
    (∀ a, x.arrivals.find? named = some a →
      (∀ (j : Nat) (y : RoadRec), s.yu.roads[j]? = some y → ∃ z, u.yu.roads[j]? = some z
        ∧ z.stack = y.stack.filter (fun e => e.tram != a.tram.tram) ++ (if j = r then [a.tram] else [])
        ∧ z.arrivals = (if j = r then y.arrivals.erase a else y.arrivals)
        ∧ ((∃ e ∈ y.stack, e.tram = a.tram.tram) → z.cond = .doubtful ∧ z.offer = (if y.cond = .known then none else y.offer))
        ∧ ((∀ e ∈ y.stack, e.tram ≠ a.tram.tram) → z.cond = y.cond ∧ z.offer = y.offer))
      ∧ u.cnt.pushes = bump s.cnt.pushes
      ∧ (let holding := (List.range s.yu.roads.length).filter (fun k =>
           (s.yu.roads[k]?).any (fun y => y.stack.any (fun e => e.tram == a.tram.tram)))
         let told := forEach holding (fun k v => if (s.yu.roads[k]?).any (fun y => y.cond == .known)
             then v.eventSent 8 (doubtFields k .duplicateTram (some a.tram.tram)) else v)
               { s with yu := { s.yu with roads := u.yu.roads }, cnt := { s.cnt with pushes := bump s.cnt.pushes } }
         u = (told.queueRoads (holding ++ [r])).announceGains s.yu.roads))
    ∧ (x.arrivals.find? named = none →
        (x.cond = .known → u.yu.roads = s.yu.roads.set r { x with cond := .doubtful, offer := none } ∧ u.rp.serial = s.rp.serial + 1
          ∧ u = (({ s with yu := { s.yu with roads := u.yu.roads } }).eventSent 8
              (doubtFields r .unrecordedArrival (some tram))).queueRoads [r])
        ∧ (x.cond = .doubtful → u = s))

/-- A POP mouth release (R156): the tram's entry goes; from the entry end the condition stays, from deeper in the stack the road becomes
DOUBTFUL, and so does a KNOWN road without such an entry, each with its report, a KNOWN road losing its offer (R146, R167). The road is
queued for writing, and its gain announced. -/
def Sys2Proof.Clause.PopTakesTheTram : Prop :=
  ∀ (s : State) (r tram : Nat) (x : RoadRec), s.yu.roads[r]? = some x →
    let u := s.takePop r tram
    let others := x.stack.filter (fun e => e.tram != tram)
    (∀ front e, x.stack = front ++ [e] → e.tram = tram →
      u.yu.roads = s.yu.roads.set r { x with stack := others } ∧ u.cnt.pops = bump s.cnt.pops ∧ u.rp = s.rp
      ∧ u = (({ s with yu := { s.yu with roads := u.yu.roads }, cnt := { s.cnt with pops := bump s.cnt.pops } }).queueRoads
          [r]).announceGains s.yu.roads)
    ∧ (∀ front e, x.stack = front ++ [e] → e.tram ≠ tram → (∃ d ∈ x.stack, d.tram = tram) →
        ∃ z, u.yu.roads[r]? = some z ∧ z.stack = others ∧ z.cond = .doubtful ∧ z.arrivals = x.arrivals
          ∧ z.offer = (if x.cond = .known then none else x.offer) ∧ (∀ j, j ≠ r → u.yu.roads[j]? = s.yu.roads[j]?)
          ∧ u.cnt.pops = bump s.cnt.pops ∧ u.rp.serial = (if x.cond = .known then s.rp.serial + 1 else s.rp.serial)
          ∧ (let popped := { s with yu := { s.yu with roads := u.yu.roads }, cnt := { s.cnt with pops := bump s.cnt.pops } }
             let told := if x.cond = .known then popped.eventSent 8 (doubtFields r .outOfOrder (some tram)) else popped
             u = (told.queueRoads [r]).announceGains s.yu.roads))
    ∧ ((∀ d ∈ x.stack, d.tram ≠ tram) →
        (x.cond = .known → u.yu.roads = s.yu.roads.set r { x with cond := .doubtful, offer := none }
          ∧ u.cnt.pops = s.cnt.pops ∧ u.rp.serial = s.rp.serial + 1
          ∧ u = (({ s with yu := { s.yu with roads := u.yu.roads } }).eventSent 8
              (doubtFields r .unknownDeparture (some tram))).queueRoads [r])
        ∧ (x.cond = .doubtful → u = s))

/-- An UNLINK mouth release (R111, R152): on every road, the arrival linked to the claim loses its link, or leaves where its caller is
gone; ROAD-CHANGE follows where places became free (R154). -/
def Sys2Proof.Clause.UnlinkFreesTheArrival : Prop :=
  ∀ (s : State) (id : Nat),
    let u := s.unlinkArrival id
    (∀ (r : Nat) (x : RoadRec), s.yu.roads[r]? = some x → u.yu.roads[r]? = some { x with
        arrivals := (x.arrivals.filter (fun a => !(a.link == some id && a.gone))).map
          (fun a => if a.link = some id then { a with link := none } else a) })
    ∧ u = ({ s with yu := { s.yu with roads := u.yu.roads } }).announceGains s.yu.roads
    ∧ u = { s with yu := { s.yu with roads := u.yu.roads }, re := { s.re with fromYu := u.re.fromYu }, fs := u.fs, cnt := u.cnt }

/-- The fields of a road-doubtful report (R146, R167): the road, the cause (numbered from 0 in the order of R146's list: log entry 12), and the
tram, or none. -/
def Sys2Proof.Clause.DoubtReportsNameTheirCause : Prop :=
  ∀ (r : Nat) (cause : DoubtCause) (tram : Option Nat), doubtFields r cause tram
    = [byte r, match cause with
        | .unexpectedArrival => 0 | .unknownDeparture => 1 | .outOfOrder => 2 | .duplicateTram => 3 | .unrecordedArrival => 4
        | .restoreBad => 5 | .restoreOverfill => 6 | .restoreDuplicate => 7]
      ++ (match tram with | none => [0] | some n => [1, byte (n / 256), byte n])

/-- Pushes, pops, unlinks and body sections (R152, R155, R156, R158). -/
def Obligations.RoadsFollowTheTrack : Prop :=
  Clause.DoubtReportsNameTheirCause ∧ Clause.BodySectionsCorrectRoads ∧ Clause.PushStacksTheArrival ∧ Clause.PopTakesTheTram ∧ Clause.UnlinkFreesTheArrival

/-- The run-out check (R157), row by row. -/
def Sys2Proof.Clause.RunOutCheckRows : Prop :=
  ∀ (s : State) (r tram : Nat) (x : RoadRec), s.yu.roads[r]? = some x →
    (x.cond = .doubtful → s.runOutAccepts r tram = true ∧ s.runOutMark r tram = s)
    ∧ (x.cond = .known →
        (∀ front e, x.stack = front ++ [e] → e.tram = tram → s.runOutAccepts r tram = true ∧ s.runOutMark r tram = s)
        ∧ (∀ front e, x.stack = front ++ [e] → e.tram ≠ tram → (∃ d ∈ x.stack, d.tram = tram) →
            s.runOutAccepts r tram = false ∧ s.runOutMark r tram = s)
        ∧ ((∀ d ∈ x.stack, d.tram ≠ tram) → s.runOutAccepts r tram = true
            ∧ s.runOutMark r tram = (({ s with yu := { s.yu with
                roads := s.yu.roads.set r { x with cond := .doubtful, offer := none } } }).eventSent 8
                  (doubtFields r .unknownDeparture (some tram))).queueRoads [r]))

/-- The run-out check, and the report that it may give (R157, R167). -/
def Obligations.RunOutCheckTable : Prop :=
  Clause.RunOutCheckRows ∧ Clause.DoubtReportsNameTheirCause

/-- Notices of PT and isolation at YU (R159, R160): UNUSABLE starts the hold of 120 s of the arrivals of the caller under the epoch
where it does not run; USABLE stops it; EPOCH_CHANGE clears the offers of the old epoch, removes its unlinked arrivals and marks its
linked ones, and the roads that gained by that are announced (R154); isolation drops every offer and every arrival. -/
def Sys2Proof.Clause.CallersLostAndRestarted : Prop :=
  ∀ (k k' : Nat) (s : State) (e e' : Epoch) (rest : List PeerNotice),
    (takeFirst (fun n => n.peer == k) s.yu.peerNotices = some (.unusable k' e, rest) →
      exec (.yuUnusable k) s = .next { s with yu := { s.yu with peerNotices := rest, roads := s.yu.roads.map (fun r => { r with
        arrivals := r.arrivals.map (fun a => if a.call.caller = k ∧ a.epoch = e
          then { a with hold := match a.hold with | some t => some t | none => some ⟨0, 120000⟩ } else a) }) } })
    ∧ (takeFirst (fun n => n.peer == k) s.yu.peerNotices = some (.usable k' e, rest) →
      exec (.yuUsable k) s = .next { s with yu := { s.yu with peerNotices := rest, roads := s.yu.roads.map (fun r => { r with
        arrivals := r.arrivals.map (fun a => if a.call.caller = k ∧ a.epoch = e then { a with hold := none } else a) }) } })
    ∧ (takeFirst (fun n => n.peer == k) s.yu.peerNotices = some (.epochChange k' e e', rest) → ∃ t : State,
      exec (.yuEpochChange k) s = .next t
      ∧ (∀ (r : Nat) (x : RoadRec), s.yu.roads[r]? = some x → ∃ y, t.yu.roads[r]? = some y ∧ y.stack = x.stack ∧ y.cond = x.cond
          ∧ y.arrivals = (x.arrivals.filter (fun a => !(a.call.caller == k && a.epoch == e && a.link == none))).map
              (fun a => if a.call.caller = k ∧ a.epoch = e then { a with gone := true, hold := none } else a)
          ∧ (∀ o, x.offer = some o → o.call.caller = k → o.epoch = e → y.offer = none)
          ∧ (∀ o, x.offer = some o → o.call.caller ≠ k ∨ o.epoch ≠ e → y.offer = some o))
      ∧ t = ({ s with yu := { s.yu with peerNotices := rest, roads := t.yu.roads } }).announceGains s.yu.roads
      ∧ t = { s with yu := { s.yu with peerNotices := rest, roads := t.yu.roads }, re := t.re, fs := t.fs, cnt := t.cnt })
    ∧ (s.yu.isolated = true → exec .yuIsolation s = .next { s with yu := { s.yu with
        isolated := false, roads := s.yu.roads.map (fun r => { r with arrivals := [], offer := none }) } })

/-- Offers, holds, and callers that are lost or restarted (R150, R159, R160). -/
def Obligations.OffersHoldsAndCallers : Prop :=
  Clause.OffersAndHoldsExpire ∧ Clause.CallersLostAndRestarted

/-- Roads that are queued for writing (R161): each goes to the tail where it is not yet queued; with no write in hand, the road at the head
is handed to MI, with its content of this moment. -/
def Sys2Proof.Clause.ChangedRoadsAreQueued : Prop :=
  ∀ (s : State) (rs : List Nat),
    let queue := rs.foldl (fun q r => if r ∈ q then q else q ++ [r]) s.yu.queue
    (∀ w, s.mi.writing = some w → s.queueRoads rs = { s with yu := { s.yu with queue := queue } })
    ∧ (∀ q rest x, s.mi.writing = none → queue = q :: rest → s.yu.roads[q]? = some x →
        s.queueRoads rs = { s with yu := { s.yu with queue := rest }, mi := { s.mi with writing := some (q, encRoad x) } })
    ∧ (s.mi.writing = none → queue = [] → s.queueRoads rs = s)

/-- ROAD_WRITE_DONE and ROAD_WRITE_FAIL (R161, R162, R177): the write in hand ends, and the next queued road is handed over with its
content of this moment. A completed write leaves exactly its content in its record; a failed one is counted, its road is queued
again, and no byte outside its record changes. -/
def Sys2Proof.Clause.WritesInHandEnd : Prop :=
  ∀ (s : State) (r : Nat) (content : List Byte), MemoryInv s → s.mi.writing = some (r, content) →
    (∃ t : State, exec .roadWriteDone s = .next t
      ∧ readBytes t.mi.mem (8000 + 40 * r) 35 = content
      ∧ (∀ a, a < 8000 + 40 * r ∨ 8000 + 40 * r + 35 ≤ a → readByte t.mi.mem a = readByte s.mi.mem a)
      ∧ t.cnt = { s.cnt with roadWrites := bump s.cnt.roadWrites }
      ∧ (s.yu.queue = [] → t.mi.writing = none ∧ t.yu = s.yu)
      ∧ (∀ q rest x, s.yu.queue = q :: rest → s.yu.roads[q]? = some x →
          t.mi.writing = some (q, encRoad x) ∧ t.yu = { s.yu with queue := rest })
      ∧ t = { s with mi := { s.mi with mem := t.mi.mem, writing := t.mi.writing }, yu := t.yu, cnt := t.cnt })
    ∧ (∃ t : State, exec .roadWriteFail s = .next t
      ∧ (∀ a, a < 8000 + 40 * r ∨ 8000 + 40 * r + 35 ≤ a → readByte t.mi.mem a = readByte s.mi.mem a)
      ∧ t.cnt = { s.cnt with roadWriteFails := bump s.cnt.roadWriteFails }
      ∧ (∀ x, s.yu.queue = [] → s.yu.roads[r]? = some x → t.mi.writing = some (r, encRoad x) ∧ t.yu = s.yu)
      ∧ (∀ q rest x, s.yu.queue = q :: rest → s.yu.roads[q]? = some x →
          t.mi.writing = some (q, encRoad x) ∧ t.yu = { s.yu with queue := (if r ∈ q :: rest then rest else rest ++ [r]) })
      ∧ t = { s with mi := { s.mi with mem := t.mi.mem, writing := t.mi.writing }, yu := t.yu, cnt := t.cnt, freeIdx := t.freeIdx })
    ∧ (∀ x : RoadRec, (encRoad x).length = 35)

/-- Road writes: how they begin and how they end (R161, R162, R177). -/
def Obligations.RoadWritesEnd : Prop :=
  Clause.ChangedRoadsAreQueued ∧ Clause.WritesInHandEnd

/-! ## Resets and start-up (R171 to R176) -/

/-- POWER_ON_RESET and PIN_RESET (R171): every piece of state takes its reset value, but for the configuration memory (time base, window
clock, node ID, own epoch, bit alignment and disparity take values of the model's choice: log entry 10); a pin reset
keeps the disturbance counters and the move and failure counters of the points (those of unconfigured indices too: log entry 45), and its
cause is PIN unless a power-on reset is still held. No write in hand leaves the memory as it is; a reset inside a road write leaves
every other byte, and of its record what stood
there or a record with a bad check; one inside the epoch write leaves the old epoch or the new one as the stored epoch, or a bad copy A
with copy B as it stood, and no byte outside the copies changes (R175, R177). -/
def Sys2Proof.Clause.ResetsKeepTheMemory : Prop :=
  ∀ s : State, ∃ t u : State, exec .powerOnReset s = .next t ∧ exec .pinReset s = .next u
    ∧ t = { State.reset with pending := s.pending, freeIdx := t.freeIdx, mi := { State.reset.mi with mem := t.mi.mem } }
    ∧ u = { t with
        pt := { t.pt with cause := if s.mi.startup = .held ∧ s.pt.cause = .powerOn then .powerOn else .pin }
        du := { t.du with disturb := s.du.disturb }
        pu := { t.pu with moves := s.pu.moves, fails := s.pu.fails } }
    ∧ (s.mi.startup ≠ .epoch → s.mi.writing = none → t.mi.mem = s.mi.mem)
    ∧ (∀ r content, MemoryInv s → s.mi.startup ≠ .epoch → s.mi.writing = some (r, content) →
        (∀ a, a < 8000 + 40 * r ∨ 8000 + 40 * r + 35 ≤ a → readByte t.mi.mem a = readByte s.mi.mem a)
        ∧ (let l := readBytes t.mi.mem (8000 + 40 * r) 35
           l = readBytes s.mi.mem (8000 + 40 * r) 35 ∨ l[34]? ≠ some (checkByte (l.take 34))))
    ∧ (∀ e, MemoryInv s → s.mi.startup = .epoch → epochCopy s.mi.mem 7936 = some e → epochCopy s.mi.mem 7952 = some e →
        storedEpoch t.mi.mem = some e ∨ storedEpoch t.mi.mem = some (e + 1))
    ∧ (∀ e, MemoryInv s → s.mi.startup = .epoch → storedEpoch s.mi.mem = some e →
        (storedEpoch t.mi.mem = some e ∨ storedEpoch t.mi.mem = some (e + 1)
          ∨ (epochCopy t.mi.mem 7936 = none ∧ epochCopy t.mi.mem 7952 = epochCopy s.mi.mem 7952
              ∧ storedEpoch t.mi.mem = epochCopy s.mi.mem 7952))
        ∧ (∀ a, a < 7936 ∨ (7939 ≤ a ∧ a < 7952) ∨ 7955 ≤ a → readByte t.mi.mem a = readByte s.mi.mem a))
    ∧ (s.mi.startup = .epoch → storedEpoch s.mi.mem = none → t.mi.mem = s.mi.mem)

/-- The values that a reset leaves (R171): mode START; the bus off, LI in HUNT, 32 free buffers, empty inboxes and transmit queue, every
hold-off stopped (R57); every peer UNKNOWN, with counts 0 (R62); slots FREE, queues, ring and lamps empty, serial 0, signal 7 served last
(R91); every claim record free, in rising order (R93); instances free, call sequence 0 (R121); no section, point, signal or road until
start-up gives them (R164); every counter 0; nothing waiting anywhere. -/
def Sys2Proof.Clause.ResetValues : Prop :=
  State.reset =
    { pending := [], time := 0, windowMs := 0, oldWindows := 0, freeIdx := 0
      field := { drives := [], lamps := [] }
      yard := { sects := [], points := [], signals := [], reqPoints := [], roads := [], routes := [] }
      li :=
        { sync := .hunt, align := 0, disparity := .negative, violRun := 0, symCount := 0, violCount := 0, linePoor := false
          asm := none, access := .unaligned, sending := none, seq := 0 }
      fs :=
        { free := 32, inbox := [], active := [], handler := none, ownFrames := [], queue := [], nextAge := 0
          holdOff := List.replicate 63 none, poolTimer := none, poolLow := false, txDrop := false, lastStart := none }
      cnt :=
        { code := 0, undersize := 0, oversize := 0, crc := 0, length := 0, unknownKind := 0, noBuffer := 0, noBufferBursts := 0
          levelMismatch := 0, txDisplaced := 0, txDrop := 0, duplicateId := 0, ownIdSameEpoch := 0, badTelegram := 0, badTram := 0
          granted := 0, denied := 0, lostSent := 0, orphaned := 0, orphanReleased := 0, bidCalls := 0, attemptsFailed := 0
          routesSet := 0, staleReplies := 0, bidsSent := 0, awardsTaken := 0, awardsIgnored := 0, pushes := 0, pops := 0
          roadWrites := 0, roadWriteFails := 0, inspectsAnswered := 0 }
      pt :=
        { mode := .start, cause := .powerOn, node := 0, epoch := 0, listen := none, announces := 0, stateMs := none
          peers := List.replicate 63
            { state := .unknown, epoch := none, lastState := none, mode := none, cause := none, lockMap := none, missRun := 0
              notHearing := false, owed := false, epochChanges := 0, losses := 0 } }
      du := { sects := [], disturb := List.replicate 16 0 }
      pu :=
        { points := [], moves := List.replicate 8 0, fails := List.replicate 8 0, readings := none, notices := [], permEnds := [] }
      su := { signals := [], readings := none, commands := [] }
      rq :=
        { points := List.replicate 8 { bytes := [], damaged := false, gap := none, overrun := .none, hold := none }
          telegrams := [], slots := List.replicate 16 .free, queues := List.replicate 8 [], serial := 0, lastServed := 7, ring := []
          fault := List.replicate 8 false, lamps := List.replicate 8 false, outcomes := [], isolated := false }
      re :=
        { insts := List.replicate 8 none, callSeq := 0, notices := [], peerNotices := [], isolated := false, cancels := []
          reports := [], fromCt := [], fromYu := [] }
      ct :=
        { records := List.replicate 32 none, free := List.range 32, locks := [], notices := [], peerNotices := []
          isolated := false, reports := [], fromRe := [] }
      yu := { roads := [], queue := [], notices := [], peerNotices := [], isolated := false, fromRe := [] }
      mi := { mem := [], startup := .held, desc := { sects := [], points := [], signals := [], reqPoints := [], roads := [], routes := [] }
              clamps := [], writing := none }
      rp := { serial := 0 } }

/-- Both resets, and the values they leave (R13, R57, R62, R91, R93, R121, R164, R171, R175, R177). -/
def Obligations.ResetsClearTheState : Prop :=
  Clause.ResetsKeepTheMemory ∧ Clause.ResetValues

/-- RESET_RELEASE: the straps become the node ID, and start-up begins; 63 ends it in CONFIG_FAULT (R172). -/
def Sys2Proof.Clause.ReleaseSamplesTheStraps : Prop :=
  ∀ (straps : Nat) (s : State), straps < 64 →
    (s.mi.startup = .held → straps ≠ 63 → exec (.resetRelease straps) s = .next { s with
      windowMs := 0, pt := { s.pt with node := straps }, mi := { s.mi with startup := .image } })
    ∧ (s.mi.startup = .held → straps = 63 → exec (.resetRelease straps) s = .next { s with
      windowMs := 0, pt := { s.pt with node := straps, mode := .configFault }, mi := { s.mi with startup := .ended } })
    ∧ (s.mi.startup ≠ .held → exec (.resetRelease straps) s = .next s)

/-- IMAGE_READ_DONE: an image that is read and passes its checks gives the yard description, its values clamped, and the clamp list;
one that is not acknowledged, or fails a check, ends start-up in CONFIG_FAULT (R172 to R174). -/
def Sys2Proof.Clause.ImageIsCheckedAndClamped : Prop :=
  (∀ s : State, s.mi.startup = .image →
    (∀ y clamps, checkImage s.mi.mem s.pt.node = some (y, clamps) →
      exec (.imageReadDone true) s = .next { s with mi := { s.mi with desc := y, clamps := clamps, startup := .epoch } })
    ∧ (checkImage s.mi.mem s.pt.node = none →
      exec (.imageReadDone true) s = .next { s with pt := { s.pt with mode := .configFault }, mi := { s.mi with startup := .ended } })
    ∧ exec (.imageReadDone false) s = .next { s with pt := { s.pt with mode := .configFault }, mi := { s.mi with startup := .ended } })
  ∧ (∀ (mem : List Host.Cell) (node : Nat) (y : Yard) (clamps : List Clamp), checkImage mem node = some (y, clamps) →
      byteAt (readBytes mem 0 13) 2 = node
      ∧ bytes4 (crc32 (readBytes mem 0 9 ++ readBytes mem 13 (wordAt (readBytes mem 0 13) 0))).toNat = readBytes mem 9 4
      ∧ 1 ≤ y.sects.length ∧ y.sects.length ≤ 16 ∧ y.points.length ≤ 8 ∧ y.signals.length ≤ 8 ∧ y.reqPoints.length ≤ 8
      ∧ y.roads.length ≤ 4 ∧ y.routes.length ≤ 24
      ∧ (∀ p ∈ y.points, 1 ≤ p.travel ∧ p.travel ≤ 6)
      ∧ (∀ r ∈ y.routes, 10 ≤ r.approach ∧ r.approach ≤ 250 ∧ 5 ≤ r.delay ∧ r.delay ≤ 60 ∧ 1 ≤ r.steps.length ∧ r.steps.length ≤ 12)
      ∧ (∀ r ∈ y.roads, 1 ≤ r.capacity ∧ r.capacity ≤ 8 ∧ r.weight ≤ 15 ∧ r.runOut < y.signals.length
          ∧ (∃ c, y.sects[r.mouth]? = some c ∧ c.role = .roadMouth) ∧ (∃ c, y.sects[r.body]? = some c ∧ c.role = .roadBody))
      ∧ (∀ (p : Nat) (c : PointCfg), y.points[p]? = some c → ∃ x, y.sects[c.sect]? = some x ∧ p ∈ x.points)
      ∧ clamps.length ≤ 64 ∧ (∀ c ∈ clamps, c.read ≠ c.used))

/-- The image is accepted exactly where no failure of R173 holds: the length and the CRC-32 of its header agree with its body, it is made
for this node, it has exactly the bytes that its counts ask for (R182), and it is sound, row by row. The description then holds it as read,
with each clamped value at the nearer end of its range, and the clamp list names exactly the values that were outside (R174; their order
is log entry 22). -/
def Sys2Proof.Clause.SoundImagesAreAccepted : Prop :=
  ∀ (mem : List Host.Cell) (node : Nat),
    let header := readBytes mem 0 13
    let length := wordAt header 0
    let body := readBytes mem 13 length
    let image := (readBody header body).1
    let accepted := 13 + length ≤ 2048 ∧ bytes4 (crc32 (readBytes mem 0 9 ++ body)).toNat = readBytes mem 9 4 ∧ byteAt header 2 = node
      ∧ (readBody header body).2 = length ∧ image.sound node
    (¬ accepted → checkImage mem node = none)
    ∧ (accepted → ∃ y clamps, checkImage mem node = some (y, clamps)
        ∧ y.sects = image.sects ∧ y.signals = image.signals ∧ y.reqPoints = image.reqPoints
        ∧ y.points = image.points.map (fun p => { p with travel := max 1 (min p.travel 6) })
        ∧ y.roads = image.roads.map (fun r => { r with capacity := max 1 (min r.capacity 8), weight := min r.weight 15 })
        ∧ y.routes.length = image.routes.length
        ∧ (∀ (i : Nat) (r : RawRoute), image.routes[i]? = some r → ∃ u, y.routes[i]? = some u
            ∧ u.signal = r.signal ∧ some u.cls = r.cls ∧ some u.dest = r.dest ∧ some u.dir = r.dir ∧ u.steps = r.steps
            ∧ u.approach = max 10 (min r.approach 250) ∧ u.delay = max 5 (min r.delay 60))
        ∧ (∀ c : Clamp, c ∈ clamps ↔ c.read ≠ c.used ∧
            ((∃ p, image.points[c.index]? = some p ∧ c.kind = 1 ∧ c.read = p.travel ∧ c.used = max 1 (min p.travel 6))
            ∨ (∃ r, image.routes[c.index]? = some r ∧ c.kind = 2 ∧ c.read = r.approach ∧ c.used = max 10 (min r.approach 250))
            ∨ (∃ r, image.routes[c.index]? = some r ∧ c.kind = 3 ∧ c.read = r.delay ∧ c.used = max 5 (min r.delay 60))
            ∨ (∃ r, image.roads[c.index]? = some r ∧ c.kind = 4 ∧ c.read = r.capacity ∧ c.used = max 1 (min r.capacity 8))
            ∨ (∃ r, image.roads[c.index]? = some r ∧ c.kind = 5 ∧ c.read = r.weight ∧ c.used = min r.weight 15))))

/-- EPOCH_WRITE_DONE: with both copies confirmed the node takes the stored epoch plus one, which both copies then hold; a read or a
write that fails, or no stored epoch, ends start-up in CONFIG_FAULT (R175, R176). Copy A is written first: where its write fails copy B
stays as it was, and where that of copy B fails copy A holds the new epoch. The stored epoch is that of copy A, or of copy B where the
check of A is bad. -/
def Sys2Proof.Clause.EpochAdvances : Prop :=
  (∀ (s : State) (old : Epoch), MemoryInv s → s.mi.startup = .epoch → storedEpoch s.mi.mem = some old →
    (∃ t : State, exec (.epochWriteDone .confirmed) s = .next t
      ∧ t.pt = { s.pt with epoch := old + 1 } ∧ t.mi.startup = .restore
      ∧ epochCopy t.mi.mem 7936 = some (old + 1) ∧ epochCopy t.mi.mem 7952 = some (old + 1)
      ∧ (∀ a, a < 7936 ∨ (7939 ≤ a ∧ a < 7952) ∨ 7955 ≤ a → readByte t.mi.mem a = readByte s.mi.mem a)
      ∧ t = { s with pt := t.pt, mi := { s.mi with mem := t.mi.mem, startup := .restore } })
    ∧ (∀ w, w ≠ .confirmed → ∃ t : State, exec (.epochWriteDone w) s = .next t
      ∧ t.pt = { s.pt with mode := .configFault } ∧ t.mi.startup = .ended
      ∧ (∀ a, a < 7936 ∨ (7939 ≤ a ∧ a < 7952) ∨ 7955 ≤ a → readByte t.mi.mem a = readByte s.mi.mem a)
      ∧ (w = .readFailed → t.mi.mem = s.mi.mem)
      ∧ (w = .copyAFailed → ∀ a, 7952 ≤ a → a < 7955 → readByte t.mi.mem a = readByte s.mi.mem a)
      ∧ (w = .copyBFailed → epochCopy t.mi.mem 7936 = some (old + 1))
      ∧ t = { s with pt := t.pt, freeIdx := t.freeIdx, mi := { s.mi with mem := t.mi.mem, startup := .ended } }))
  ∧ (∀ (s : State) (w : EpochWrite), s.mi.startup = .epoch → storedEpoch s.mi.mem = none →
      exec (.epochWriteDone w) s = .next { s with pt := { s.pt with mode := .configFault }, mi := { s.mi with startup := .ended } })
  ∧ (∀ mem : List Host.Cell,
      (∀ e, epochCopy mem 7936 = some e → storedEpoch mem = some e)
      ∧ (epochCopy mem 7936 = none → storedEpoch mem = epochCopy mem 7952))

/-- Start-up up to the epoch (R172 to R176). -/
def Obligations.StartUp : Prop :=
  Clause.ReleaseSamplesTheStraps ∧ Clause.ImageIsCheckedAndClamped ∧ Clause.SoundImagesAreAccepted ∧ Clause.EpochAdvances

/-- ROAD_RESTORE: the blocks take the yard description, each with its records at their reset values and the roads as restore leaves
them, and the node enters JOINING: the listen timer runs toward 1000 ms, the first ANNOUNCE is offered, the STATE timer is at its
first mark, and the windows that started before are those not yet taken and the one that runs (R16, R59, R60, R163, R172). Each road that
restore made DOUBTFUL is then reported, in rising index (the model's choice: log entry 33), and queued for writing (R161, R163, R167). -/
def Sys2Proof.Clause.RestoreEntersJoining : Prop :=
  ∀ (s : State) (acked : List Bool), s.mi.startup = .restore →
    ∃ t : State, exec (.roadRestore acked) s = .next t
      ∧ t.pt = { s.pt with mode := .joining, listen := some ⟨0, 1000⟩, announces := 1, stateMs := some 250 }
      ∧ t.yard = s.mi.desc ∧ t.oldWindows = s.windowMs / 20 + 1
      ∧ t.du = { s.du with sects := s.mi.desc.sects.map (fun _ => ⟨.occupied, 0, 0⟩) }
      ∧ t.pu = { s.pu with points := s.mi.desc.points.map (fun _ => ⟨.noDet, none, none, false, .off, none, 0, 0, false, 0, none, 0⟩) }
      ∧ t.su = { s.su with signals := s.mi.desc.signals.map (fun _ => ⟨.stop, none, some .stop, 0, 0, none, none, 0⟩) }
      ∧ t.ct = { s.ct with locks := s.mi.desc.sects.map (fun _ => none) }
      ∧ t.yu.roads = (restoreRoads s.mi.mem s.mi.desc.roads acked).map (·.road)
      ∧ t.mi.startup = .ended ∧ t.mi.mem = s.mi.mem ∧ t.re = s.re ∧ t.rq = s.rq ∧ t.li = s.li
      ∧ t.rp.serial = s.rp.serial
          + BitVec.ofNat 16 ((restoreRoads s.mi.mem s.mi.desc.roads acked).filter (fun x => x.cause.isSome)).length
      ∧ (let restored := restoreRoads s.mi.mem s.mi.desc.roads acked
         let entered := { s with
           yard := t.yard, oldWindows := t.oldWindows, pt := t.pt, du := t.du, pu := t.pu, su := t.su, ct := t.ct
           yu := { s.yu with roads := t.yu.roads }, mi := { s.mi with startup := .ended } }
         let announced := entered.send .announce 63 [byte (match s.pt.cause with | .powerOn => 0 | .pin => 1)]
         let corrected := (List.range restored.length).filter (fun k => (restored[k]?).any (fun x => x.cause.isSome))
         t = (forEach corrected (fun k u => match (restored[k]?).bind (·.cause) with
           | some (cause, tram) => u.eventSent 8 (doubtFields k cause tram)
           | none => u) announced).queueRoads corrected)

/-- Restore, road by road (R163, R182): a record with a bad check, with a condition byte above 1, or with a value out of range, gives
RESTORE_BAD; one with more places than
the capacity gives RESTORE_OVERFILL; both leave a DOUBTFUL road with an empty stack; any other record gives its condition and its stack;
each configured road is so restored from its 35 bytes, and a tram in more than one place then goes from every stack, whose road becomes
DOUBTFUL with RESTORE_DUPLICATE (which tram the report names is log entry 21). -/
def Sys2Proof.Clause.RestoreReadsTheRecords : Prop :=
  (∀ (acked : Bool) (c : Nat) (l : List Byte),
    (acked = false ∨ l[34]? ≠ some (checkByte (l.take 34)) ∨ 1 < byteAt l 0 ∨ 8 < byteAt l 1 ∨ (recordEntries l).all TramRec.storable = false →
      l.length = 35 →
      restoreRecord acked c l = ⟨⟨.doubtful, [], [], none⟩, some (.restoreBad, none)⟩)
    ∧ (∀ x : RoadRec, x.stack.length ≤ 8 → x.stack.all TramRec.storable = true → (∀ e ∈ x.stack, e.slot < 256) →
        restoreRecord true c (encRoad x) = (if c < placesOf x.stack
          then ⟨⟨.doubtful, [], [], none⟩, some (.restoreOverfill, none)⟩ else ⟨⟨x.cond, x.stack, [], none⟩, none⟩)))
  ∧ (∀ (mem : List Host.Cell) (roads : List RoadCfg) (acked : List Bool),
      let read := fun k : Nat => restoreRecord (acked.getD k false) ((roads[k]?).elim 0 (·.capacity)) (readBytes mem (8000 + 40 * k) 35)
      let trams := ((List.range roads.length).flatMap (fun k => (read k).road.stack)).map (·.tram)
      (∀ k, k < roads.length → (∀ e ∈ (read k).road.stack, trams.count e.tram ≤ 1) → (restoreRoads mem roads acked)[k]? = some (read k))
      ∧ (∀ k e, k < roads.length → (read k).road.stack.find? (fun e => decide (2 ≤ trams.count e.tram)) = some e →
          (restoreRoads mem roads acked)[k]? = some ⟨⟨.doubtful, (read k).road.stack.filter (fun e => decide (trams.count e.tram ≤ 1)),
            [], none⟩, some (.restoreDuplicate, some e.tram)⟩))
  ∧ (∀ (mem : List Host.Cell) (roads : List RoadCfg) (acked : List Bool),
      (restoreRoads mem roads acked).length = roads.length
      ∧ (((restoreRoads mem roads acked).flatMap (fun x => x.road.stack)).map (·.tram)).Nodup
      ∧ (∀ x ∈ restoreRoads mem roads acked, x.road.arrivals = [] ∧ x.road.offer = none
          ∧ (∀ c t, x.cause = some (c, t) → x.road.cond = .doubtful)))

/-- Restore, and the entry into JOINING (R59, R163, R172). -/
def Obligations.Restore : Prop :=
  Clause.RestoreEntersJoining ∧ Clause.RestoreReadsTheRecords ∧ Clause.DoubtReportsNameTheirCause ∧ Clause.ChangedRoadsAreQueued

/-- WINDOW_END outside the evaluation (R5, R16, R17): nothing while RESET is held or before 20 ms; in START and CONFIG_FAULT, and in
every window that started before the entry into JOINING, the exchange sends the outputs, counted for each lit lamp, and no section is
evaluated. -/
def Sys2Proof.Clause.WindowsWithoutEvaluation : Prop :=
  ∀ (l : Levels) (s : State),
    (s.mi.startup = .held ∨ s.windowMs < 20 → exec (.windowEnd l) s = .next s)
    ∧ (s.mi.startup ≠ .held → 20 ≤ s.windowMs →
        let sent := { s with
          windowMs := s.windowMs - 20, field := ⟨s.pu.points.map (·.drive), s.su.signals.map (·.lit)⟩
          su := { s.su with signals := s.su.signals.map (fun x => { x with sent := min 2 (x.sent + 1) }) } }
        (s.pt.mode.active = false → exec (.windowEnd l) s = .next sent)
        ∧ (s.pt.mode.active = true → 0 < s.oldWindows → exec (.windowEnd l) s = .next { sent with oldWindows := s.oldWindows - 1 }))

/-- WINDOW_END, with and without evaluation. -/
def Obligations.WindowEndTable : Prop :=
  Clause.WindowEndEvaluatesEverySection ∧ Clause.WindowsWithoutEvaluation

/-! ## What each command leaves alone -/

/-- The frame of the commands: beside the resets, each piece of state is changed by the commands named for it alone. The time base is
changed by none; the yard description by ROAD_RESTORE. -/
def Obligations.CommandsKeepTheRest : Prop :=
  ∀ (c : Instr) (s t : State), exec c s = .next t → c.isReset = false →
    t.time = s.time
    ∧ ((∀ acked, c ≠ .roadRestore acked) → t.yard = s.yard)
    ∧ (c.clocks = false → t.windowMs = s.windowMs ∧ t.field = s.field)
    ∧ (c.clocks = false → (∀ acked, c ≠ .roadRestore acked) → t.oldWindows = s.oldWindows)
    ∧ (c.setsMemory = false → t.mi.mem = s.mi.mem)
    ∧ (c.setsMode = false → t.pt.mode = s.pt.mode ∧ t.pt.node = s.pt.node ∧ t.pt.epoch = s.pt.epoch)
    ∧ (c.setsSections = false → t.du = s.du)
    ∧ (c.setsPoints = false → t.pu.points = s.pu.points ∧ t.pu.moves = s.pu.moves ∧ t.pu.fails = s.pu.fails)
    ∧ (c.setsSignals = false → t.su.signals = s.su.signals)
    ∧ (c.setsLine = false → t.li = s.li)
    ∧ (c.setsPeers = false → t.pt.peers = s.pt.peers)
    ∧ (c.setsSlots = false → t.rq.slots = s.rq.slots ∧ t.rq.queues = s.rq.queues ∧ t.rq.ring = s.rq.ring)
    ∧ (c.setsClaims = false → t.ct.records = s.ct.records ∧ t.ct.locks = s.ct.locks ∧ t.ct.free = s.ct.free)
    ∧ (c.setsInsts = false → t.re.insts = s.re.insts ∧ t.re.callSeq = s.re.callSeq)
    ∧ (c.setsRoads = false → t.yu.roads = s.yu.roads)

/-! ## What is sent is what is received (R43 to R46, R178, R179) -/

/-- A frame as it is sent passes every check of a receiver, which reads from it the source, the destination, the level, the epoch, the
kind and the payload that were sent (R178, R179). -/
def Sys2Proof.Clause.FramesAreSound : Prop :=
  ∀ (node : Nat) (epoch : Epoch) (seq : Byte) (f : TxFrame), node < 63 → f.dest < 64 → f.payload.length ≤ 48 →
    let l := frameBytes node epoch seq f
    l.length = f.payload.length + 9
    ∧ (Assembly.mk l false).fault = none
    ∧ frameSource l = node ∧ frameDest l = f.dest ∧ frameLevel l = f.kind.level ∧ frameEpoch l = epoch
    ∧ Kind.ofCode (byteAt l 0) = some f.kind ∧ framePayload l = f.payload

/-- A burst (R40): two commas, the start delimiter, the bytes of the frame, the end delimiter; its first code word is sent at negative
running disparity, and each next one at the disparity that the one before it leaves (which words turn it is a free value: log entry 34).
A receiver whose running disparity is negative, and for which the groups turn it as they do for the sender, reads those symbols. -/
def Sys2Proof.Clause.BurstsCarryFrames : Prop :=
  ∀ frame : List Byte,
    let symbols : List LineSymbol := [.comma, .comma, .startDelim] ++ frame.map LineSymbol.data ++ [.endDelim]
    let words := burst frame
    words.map (·.symbol) = symbols
    ∧ (words.head?).map (·.rd) = some .negative
    ∧ (∀ (k : Nat) (a b : CodeWord), words[k]? = some a → words[k + 1]? = some b →
        b.rd = (if Config.wordTurns a.symbol a.rd then otherDisparity a.rd else a.rd))
    ∧ (∀ groups : List LineGroup, groups.map (·.code) = words.map (fun a => GroupCode.word a.symbol a.rd) →
        (∀ g ∈ groups, ∀ x rd, g.code = .word x rd → disparityAfter rd g = if Config.wordTurns x rd then otherDisparity rd else rd) →
        readGroups .negative groups = symbols.map some)

/-- What is sent reads back: each frame as a receiver examines it, and the burst that carries it (R40, R178, R179). -/
def Obligations.SentFramesAreSound : Prop :=
  Clause.FramesAreSound ∧ Clause.BurstsCarryFrames

/-- Payloads read back as they were written: claims, replies of owners, bid calls and awards. -/
def Obligations.PayloadsReadBack : Prop :=
  (∀ c : ClaimReq, c.key.owner < 256 → c.key.route < 256 → c.key.attempt < 256 → c.tram < 65536 → c.approach < 256 →
      (∀ a, c.award = some a → a.call.caller < 256 ∧ a.call.seq < 256) → c.steps.length < 256 →
      (∀ st ∈ c.steps, st.number < 16 ∧ st.sect < 256 ∧ st.demandCount = st.demands.length ∧ st.demands.length ≤ 2
        ∧ ∀ d ∈ st.demands, d.point < 8) →
      decClaim (encClaim c) = c)
  ∧ (∀ (m : ReMsg) (rx : RxRec), m.key.owner < 256 → m.key.route < 256 → m.key.attempt < 256 →
      (∀ key id, m = .grant key id → id < 256 → decReply ⟨m.kind, rx, encReMsg m⟩ = some m)
      ∧ (∀ key r n d, m = .deny key r n d → n < 256 → (∀ x, d = some x → x < 255) → decReply ⟨m.kind, rx, encReMsg m⟩ = some m)
      ∧ (∀ key a, m = .setDone key a → decReply ⟨m.kind, rx, encReMsg m⟩ = some (.setDone key rx.arrival))
      ∧ (∀ key n, m = .passed key n → n < 256 → decReply ⟨m.kind, rx, encReMsg m⟩ = some m)
      ∧ (∀ key p cause, m = .setFail key p cause → (∀ x, p = some x → x < 255) → decReply ⟨m.kind, rx, encReMsg m⟩ = some m)
      ∧ (∀ key cause p, m = .claimLost key cause p → (∀ x, p = some x → x < 255) → decReply ⟨m.kind, rx, encReMsg m⟩ = some m))
  ∧ (∀ (call : CallId) (t : TramRec) (road : Nat) (direct : Bool), call.caller < 256 → call.seq < 256 → t.tram < 65536 →
      t.places = 1 ∨ t.places = 2 → t.slot < 256 → road < 256 →
      decCall (encBidCall call t) 0 = call ∧ decTram (encBidCall call t) 2 = t
      ∧ (let l := encAward call road t direct
         decCall l 0 = call ∧ byteAt l 2 = road ∧ decTram l 3 = t ∧ decide (byteAt l 7 % 2 = 1) = direct))
end

