-- ==== Sys2Proof/Laws/State.lean ====
section
/-! SUPPORT. One lemma per field and base update of the state: which fields an update leaves as they are, and what it makes of the ones
it changes. Each holds by rfl. -/

namespace Sys2Proof.Laws

open Sys2Proof.Machine

/-! ### modSect -/

@[simp] theorem modSect_pending (s : State) (k : Nat) (f : SectRec → SectRec) : (s.modSect k f).pending = s.pending := (rfl)
@[simp] theorem modSect_time (s : State) (k : Nat) (f : SectRec → SectRec) : (s.modSect k f).time = s.time := (rfl)
@[simp] theorem modSect_windowMs (s : State) (k : Nat) (f : SectRec → SectRec) : (s.modSect k f).windowMs = s.windowMs := (rfl)
@[simp] theorem modSect_oldWindows (s : State) (k : Nat) (f : SectRec → SectRec) :
    (s.modSect k f).oldWindows = s.oldWindows := (rfl)
@[simp] theorem modSect_field (s : State) (k : Nat) (f : SectRec → SectRec) : (s.modSect k f).field = s.field := (rfl)
@[simp] theorem modSect_freeIdx (s : State) (k : Nat) (f : SectRec → SectRec) : (s.modSect k f).freeIdx = s.freeIdx := (rfl)
@[simp] theorem modSect_yard (s : State) (k : Nat) (f : SectRec → SectRec) : (s.modSect k f).yard = s.yard := (rfl)
@[simp] theorem modSect_li (s : State) (k : Nat) (f : SectRec → SectRec) : (s.modSect k f).li = s.li := (rfl)
@[simp] theorem modSect_fs (s : State) (k : Nat) (f : SectRec → SectRec) : (s.modSect k f).fs = s.fs := (rfl)
@[simp] theorem modSect_cnt (s : State) (k : Nat) (f : SectRec → SectRec) : (s.modSect k f).cnt = s.cnt := (rfl)
@[simp] theorem modSect_pt (s : State) (k : Nat) (f : SectRec → SectRec) : (s.modSect k f).pt = s.pt := (rfl)
@[simp] theorem modSect_du (s : State) (k : Nat) (f : SectRec → SectRec) :
    (s.modSect k f).du = { s.du with sects := s.du.sects.modify k f } := (rfl)
@[simp] theorem modSect_pu (s : State) (k : Nat) (f : SectRec → SectRec) : (s.modSect k f).pu = s.pu := (rfl)
@[simp] theorem modSect_su (s : State) (k : Nat) (f : SectRec → SectRec) : (s.modSect k f).su = s.su := (rfl)
@[simp] theorem modSect_rq (s : State) (k : Nat) (f : SectRec → SectRec) : (s.modSect k f).rq = s.rq := (rfl)
@[simp] theorem modSect_re (s : State) (k : Nat) (f : SectRec → SectRec) : (s.modSect k f).re = s.re := (rfl)
@[simp] theorem modSect_ct (s : State) (k : Nat) (f : SectRec → SectRec) : (s.modSect k f).ct = s.ct := (rfl)
@[simp] theorem modSect_yu (s : State) (k : Nat) (f : SectRec → SectRec) : (s.modSect k f).yu = s.yu := (rfl)
@[simp] theorem modSect_mi (s : State) (k : Nat) (f : SectRec → SectRec) : (s.modSect k f).mi = s.mi := (rfl)
@[simp] theorem modSect_rp (s : State) (k : Nat) (f : SectRec → SectRec) : (s.modSect k f).rp = s.rp := (rfl)

/-! ### modPoint -/

@[simp] theorem modPoint_pending (s : State) (p : Nat) (f : PointRec → PointRec) :
    (s.modPoint p f).pending = s.pending := (rfl)
@[simp] theorem modPoint_time (s : State) (p : Nat) (f : PointRec → PointRec) : (s.modPoint p f).time = s.time := (rfl)
@[simp] theorem modPoint_windowMs (s : State) (p : Nat) (f : PointRec → PointRec) :
    (s.modPoint p f).windowMs = s.windowMs := (rfl)
@[simp] theorem modPoint_oldWindows (s : State) (p : Nat) (f : PointRec → PointRec) :
    (s.modPoint p f).oldWindows = s.oldWindows := (rfl)
@[simp] theorem modPoint_field (s : State) (p : Nat) (f : PointRec → PointRec) : (s.modPoint p f).field = s.field := (rfl)
@[simp] theorem modPoint_freeIdx (s : State) (p : Nat) (f : PointRec → PointRec) :
    (s.modPoint p f).freeIdx = s.freeIdx := (rfl)
@[simp] theorem modPoint_yard (s : State) (p : Nat) (f : PointRec → PointRec) : (s.modPoint p f).yard = s.yard := (rfl)
@[simp] theorem modPoint_li (s : State) (p : Nat) (f : PointRec → PointRec) : (s.modPoint p f).li = s.li := (rfl)
@[simp] theorem modPoint_fs (s : State) (p : Nat) (f : PointRec → PointRec) : (s.modPoint p f).fs = s.fs := (rfl)
@[simp] theorem modPoint_cnt (s : State) (p : Nat) (f : PointRec → PointRec) : (s.modPoint p f).cnt = s.cnt := (rfl)
@[simp] theorem modPoint_pt (s : State) (p : Nat) (f : PointRec → PointRec) : (s.modPoint p f).pt = s.pt := (rfl)
@[simp] theorem modPoint_du (s : State) (p : Nat) (f : PointRec → PointRec) : (s.modPoint p f).du = s.du := (rfl)
@[simp] theorem modPoint_pu (s : State) (p : Nat) (f : PointRec → PointRec) :
    (s.modPoint p f).pu = { s.pu with points := s.pu.points.modify p f } := (rfl)
@[simp] theorem modPoint_su (s : State) (p : Nat) (f : PointRec → PointRec) : (s.modPoint p f).su = s.su := (rfl)
@[simp] theorem modPoint_rq (s : State) (p : Nat) (f : PointRec → PointRec) : (s.modPoint p f).rq = s.rq := (rfl)
@[simp] theorem modPoint_re (s : State) (p : Nat) (f : PointRec → PointRec) : (s.modPoint p f).re = s.re := (rfl)
@[simp] theorem modPoint_ct (s : State) (p : Nat) (f : PointRec → PointRec) : (s.modPoint p f).ct = s.ct := (rfl)
@[simp] theorem modPoint_yu (s : State) (p : Nat) (f : PointRec → PointRec) : (s.modPoint p f).yu = s.yu := (rfl)
@[simp] theorem modPoint_mi (s : State) (p : Nat) (f : PointRec → PointRec) : (s.modPoint p f).mi = s.mi := (rfl)
@[simp] theorem modPoint_rp (s : State) (p : Nat) (f : PointRec → PointRec) : (s.modPoint p f).rp = s.rp := (rfl)

/-! ### modSignal -/

@[simp] theorem modSignal_pending (s : State) (g : Nat) (f : SignalRec → SignalRec) :
    (s.modSignal g f).pending = s.pending := (rfl)
@[simp] theorem modSignal_time (s : State) (g : Nat) (f : SignalRec → SignalRec) : (s.modSignal g f).time = s.time := (rfl)
@[simp] theorem modSignal_windowMs (s : State) (g : Nat) (f : SignalRec → SignalRec) :
    (s.modSignal g f).windowMs = s.windowMs := (rfl)
@[simp] theorem modSignal_oldWindows (s : State) (g : Nat) (f : SignalRec → SignalRec) :
    (s.modSignal g f).oldWindows = s.oldWindows := (rfl)
@[simp] theorem modSignal_field (s : State) (g : Nat) (f : SignalRec → SignalRec) : (s.modSignal g f).field = s.field := (rfl)
@[simp] theorem modSignal_freeIdx (s : State) (g : Nat) (f : SignalRec → SignalRec) :
    (s.modSignal g f).freeIdx = s.freeIdx := (rfl)
@[simp] theorem modSignal_yard (s : State) (g : Nat) (f : SignalRec → SignalRec) : (s.modSignal g f).yard = s.yard := (rfl)
@[simp] theorem modSignal_li (s : State) (g : Nat) (f : SignalRec → SignalRec) : (s.modSignal g f).li = s.li := (rfl)
@[simp] theorem modSignal_fs (s : State) (g : Nat) (f : SignalRec → SignalRec) : (s.modSignal g f).fs = s.fs := (rfl)
@[simp] theorem modSignal_cnt (s : State) (g : Nat) (f : SignalRec → SignalRec) : (s.modSignal g f).cnt = s.cnt := (rfl)
@[simp] theorem modSignal_pt (s : State) (g : Nat) (f : SignalRec → SignalRec) : (s.modSignal g f).pt = s.pt := (rfl)
@[simp] theorem modSignal_du (s : State) (g : Nat) (f : SignalRec → SignalRec) : (s.modSignal g f).du = s.du := (rfl)
@[simp] theorem modSignal_pu (s : State) (g : Nat) (f : SignalRec → SignalRec) : (s.modSignal g f).pu = s.pu := (rfl)
@[simp] theorem modSignal_su (s : State) (g : Nat) (f : SignalRec → SignalRec) :
    (s.modSignal g f).su = { s.su with signals := s.su.signals.modify g f } := (rfl)
@[simp] theorem modSignal_rq (s : State) (g : Nat) (f : SignalRec → SignalRec) : (s.modSignal g f).rq = s.rq := (rfl)
@[simp] theorem modSignal_re (s : State) (g : Nat) (f : SignalRec → SignalRec) : (s.modSignal g f).re = s.re := (rfl)
@[simp] theorem modSignal_ct (s : State) (g : Nat) (f : SignalRec → SignalRec) : (s.modSignal g f).ct = s.ct := (rfl)
@[simp] theorem modSignal_yu (s : State) (g : Nat) (f : SignalRec → SignalRec) : (s.modSignal g f).yu = s.yu := (rfl)
@[simp] theorem modSignal_mi (s : State) (g : Nat) (f : SignalRec → SignalRec) : (s.modSignal g f).mi = s.mi := (rfl)
@[simp] theorem modSignal_rp (s : State) (g : Nat) (f : SignalRec → SignalRec) : (s.modSignal g f).rp = s.rp := (rfl)

/-! ### modPeer -/

@[simp] theorem modPeer_pending (s : State) (k : Nat) (f : PeerRec → PeerRec) : (s.modPeer k f).pending = s.pending := (rfl)
@[simp] theorem modPeer_time (s : State) (k : Nat) (f : PeerRec → PeerRec) : (s.modPeer k f).time = s.time := (rfl)
@[simp] theorem modPeer_windowMs (s : State) (k : Nat) (f : PeerRec → PeerRec) : (s.modPeer k f).windowMs = s.windowMs := (rfl)
@[simp] theorem modPeer_oldWindows (s : State) (k : Nat) (f : PeerRec → PeerRec) :
    (s.modPeer k f).oldWindows = s.oldWindows := (rfl)
@[simp] theorem modPeer_field (s : State) (k : Nat) (f : PeerRec → PeerRec) : (s.modPeer k f).field = s.field := (rfl)
@[simp] theorem modPeer_freeIdx (s : State) (k : Nat) (f : PeerRec → PeerRec) : (s.modPeer k f).freeIdx = s.freeIdx := (rfl)
@[simp] theorem modPeer_yard (s : State) (k : Nat) (f : PeerRec → PeerRec) : (s.modPeer k f).yard = s.yard := (rfl)
@[simp] theorem modPeer_li (s : State) (k : Nat) (f : PeerRec → PeerRec) : (s.modPeer k f).li = s.li := (rfl)
@[simp] theorem modPeer_fs (s : State) (k : Nat) (f : PeerRec → PeerRec) : (s.modPeer k f).fs = s.fs := (rfl)
@[simp] theorem modPeer_cnt (s : State) (k : Nat) (f : PeerRec → PeerRec) : (s.modPeer k f).cnt = s.cnt := (rfl)
@[simp] theorem modPeer_pt (s : State) (k : Nat) (f : PeerRec → PeerRec) :
    (s.modPeer k f).pt = { s.pt with peers := s.pt.peers.modify k f } := (rfl)
@[simp] theorem modPeer_du (s : State) (k : Nat) (f : PeerRec → PeerRec) : (s.modPeer k f).du = s.du := (rfl)
@[simp] theorem modPeer_pu (s : State) (k : Nat) (f : PeerRec → PeerRec) : (s.modPeer k f).pu = s.pu := (rfl)
@[simp] theorem modPeer_su (s : State) (k : Nat) (f : PeerRec → PeerRec) : (s.modPeer k f).su = s.su := (rfl)
@[simp] theorem modPeer_rq (s : State) (k : Nat) (f : PeerRec → PeerRec) : (s.modPeer k f).rq = s.rq := (rfl)
@[simp] theorem modPeer_re (s : State) (k : Nat) (f : PeerRec → PeerRec) : (s.modPeer k f).re = s.re := (rfl)
@[simp] theorem modPeer_ct (s : State) (k : Nat) (f : PeerRec → PeerRec) : (s.modPeer k f).ct = s.ct := (rfl)
@[simp] theorem modPeer_yu (s : State) (k : Nat) (f : PeerRec → PeerRec) : (s.modPeer k f).yu = s.yu := (rfl)
@[simp] theorem modPeer_mi (s : State) (k : Nat) (f : PeerRec → PeerRec) : (s.modPeer k f).mi = s.mi := (rfl)
@[simp] theorem modPeer_rp (s : State) (k : Nat) (f : PeerRec → PeerRec) : (s.modPeer k f).rp = s.rp := (rfl)

/-! ### modReqPoint -/

@[simp] theorem modReqPoint_pending (s : State) (p : Nat) (f : ReqPoint → ReqPoint) :
    (s.modReqPoint p f).pending = s.pending := (rfl)
@[simp] theorem modReqPoint_time (s : State) (p : Nat) (f : ReqPoint → ReqPoint) : (s.modReqPoint p f).time = s.time := (rfl)
@[simp] theorem modReqPoint_windowMs (s : State) (p : Nat) (f : ReqPoint → ReqPoint) :
    (s.modReqPoint p f).windowMs = s.windowMs := (rfl)
@[simp] theorem modReqPoint_oldWindows (s : State) (p : Nat) (f : ReqPoint → ReqPoint) :
    (s.modReqPoint p f).oldWindows = s.oldWindows := (rfl)
@[simp] theorem modReqPoint_field (s : State) (p : Nat) (f : ReqPoint → ReqPoint) :
    (s.modReqPoint p f).field = s.field := (rfl)
@[simp] theorem modReqPoint_freeIdx (s : State) (p : Nat) (f : ReqPoint → ReqPoint) :
    (s.modReqPoint p f).freeIdx = s.freeIdx := (rfl)
@[simp] theorem modReqPoint_yard (s : State) (p : Nat) (f : ReqPoint → ReqPoint) : (s.modReqPoint p f).yard = s.yard := (rfl)
@[simp] theorem modReqPoint_li (s : State) (p : Nat) (f : ReqPoint → ReqPoint) : (s.modReqPoint p f).li = s.li := (rfl)
@[simp] theorem modReqPoint_fs (s : State) (p : Nat) (f : ReqPoint → ReqPoint) : (s.modReqPoint p f).fs = s.fs := (rfl)
@[simp] theorem modReqPoint_cnt (s : State) (p : Nat) (f : ReqPoint → ReqPoint) : (s.modReqPoint p f).cnt = s.cnt := (rfl)
@[simp] theorem modReqPoint_pt (s : State) (p : Nat) (f : ReqPoint → ReqPoint) : (s.modReqPoint p f).pt = s.pt := (rfl)
@[simp] theorem modReqPoint_du (s : State) (p : Nat) (f : ReqPoint → ReqPoint) : (s.modReqPoint p f).du = s.du := (rfl)
@[simp] theorem modReqPoint_pu (s : State) (p : Nat) (f : ReqPoint → ReqPoint) : (s.modReqPoint p f).pu = s.pu := (rfl)
@[simp] theorem modReqPoint_su (s : State) (p : Nat) (f : ReqPoint → ReqPoint) : (s.modReqPoint p f).su = s.su := (rfl)
@[simp] theorem modReqPoint_rq (s : State) (p : Nat) (f : ReqPoint → ReqPoint) :
    (s.modReqPoint p f).rq = { s.rq with points := s.rq.points.modify p f } := (rfl)
@[simp] theorem modReqPoint_re (s : State) (p : Nat) (f : ReqPoint → ReqPoint) : (s.modReqPoint p f).re = s.re := (rfl)
@[simp] theorem modReqPoint_ct (s : State) (p : Nat) (f : ReqPoint → ReqPoint) : (s.modReqPoint p f).ct = s.ct := (rfl)
@[simp] theorem modReqPoint_yu (s : State) (p : Nat) (f : ReqPoint → ReqPoint) : (s.modReqPoint p f).yu = s.yu := (rfl)
@[simp] theorem modReqPoint_mi (s : State) (p : Nat) (f : ReqPoint → ReqPoint) : (s.modReqPoint p f).mi = s.mi := (rfl)
@[simp] theorem modReqPoint_rp (s : State) (p : Nat) (f : ReqPoint → ReqPoint) : (s.modReqPoint p f).rp = s.rp := (rfl)

/-! ### setSlot -/

@[simp] theorem setSlot_pending (s : State) (i : Nat) (x : Slot) : (s.setSlot i x).pending = s.pending := (rfl)
@[simp] theorem setSlot_time (s : State) (i : Nat) (x : Slot) : (s.setSlot i x).time = s.time := (rfl)
@[simp] theorem setSlot_windowMs (s : State) (i : Nat) (x : Slot) : (s.setSlot i x).windowMs = s.windowMs := (rfl)
@[simp] theorem setSlot_oldWindows (s : State) (i : Nat) (x : Slot) : (s.setSlot i x).oldWindows = s.oldWindows := (rfl)
@[simp] theorem setSlot_field (s : State) (i : Nat) (x : Slot) : (s.setSlot i x).field = s.field := (rfl)
@[simp] theorem setSlot_freeIdx (s : State) (i : Nat) (x : Slot) : (s.setSlot i x).freeIdx = s.freeIdx := (rfl)
@[simp] theorem setSlot_yard (s : State) (i : Nat) (x : Slot) : (s.setSlot i x).yard = s.yard := (rfl)
@[simp] theorem setSlot_li (s : State) (i : Nat) (x : Slot) : (s.setSlot i x).li = s.li := (rfl)
@[simp] theorem setSlot_fs (s : State) (i : Nat) (x : Slot) : (s.setSlot i x).fs = s.fs := (rfl)
@[simp] theorem setSlot_cnt (s : State) (i : Nat) (x : Slot) : (s.setSlot i x).cnt = s.cnt := (rfl)
@[simp] theorem setSlot_pt (s : State) (i : Nat) (x : Slot) : (s.setSlot i x).pt = s.pt := (rfl)
@[simp] theorem setSlot_du (s : State) (i : Nat) (x : Slot) : (s.setSlot i x).du = s.du := (rfl)
@[simp] theorem setSlot_pu (s : State) (i : Nat) (x : Slot) : (s.setSlot i x).pu = s.pu := (rfl)
@[simp] theorem setSlot_su (s : State) (i : Nat) (x : Slot) : (s.setSlot i x).su = s.su := (rfl)
@[simp] theorem setSlot_rq (s : State) (i : Nat) (x : Slot) :
    (s.setSlot i x).rq = { s.rq with slots := s.rq.slots.set i x } := (rfl)
@[simp] theorem setSlot_re (s : State) (i : Nat) (x : Slot) : (s.setSlot i x).re = s.re := (rfl)
@[simp] theorem setSlot_ct (s : State) (i : Nat) (x : Slot) : (s.setSlot i x).ct = s.ct := (rfl)
@[simp] theorem setSlot_yu (s : State) (i : Nat) (x : Slot) : (s.setSlot i x).yu = s.yu := (rfl)
@[simp] theorem setSlot_mi (s : State) (i : Nat) (x : Slot) : (s.setSlot i x).mi = s.mi := (rfl)
@[simp] theorem setSlot_rp (s : State) (i : Nat) (x : Slot) : (s.setSlot i x).rp = s.rp := (rfl)

/-! ### modInst -/

@[simp] theorem modInst_pending (s : State) (i : Nat) (f : Inst → Inst) : (s.modInst i f).pending = s.pending := (rfl)
@[simp] theorem modInst_time (s : State) (i : Nat) (f : Inst → Inst) : (s.modInst i f).time = s.time := (rfl)
@[simp] theorem modInst_windowMs (s : State) (i : Nat) (f : Inst → Inst) : (s.modInst i f).windowMs = s.windowMs := (rfl)
@[simp] theorem modInst_oldWindows (s : State) (i : Nat) (f : Inst → Inst) : (s.modInst i f).oldWindows = s.oldWindows := (rfl)
@[simp] theorem modInst_field (s : State) (i : Nat) (f : Inst → Inst) : (s.modInst i f).field = s.field := (rfl)
@[simp] theorem modInst_freeIdx (s : State) (i : Nat) (f : Inst → Inst) : (s.modInst i f).freeIdx = s.freeIdx := (rfl)
@[simp] theorem modInst_yard (s : State) (i : Nat) (f : Inst → Inst) : (s.modInst i f).yard = s.yard := (rfl)
@[simp] theorem modInst_li (s : State) (i : Nat) (f : Inst → Inst) : (s.modInst i f).li = s.li := (rfl)
@[simp] theorem modInst_fs (s : State) (i : Nat) (f : Inst → Inst) : (s.modInst i f).fs = s.fs := (rfl)
@[simp] theorem modInst_cnt (s : State) (i : Nat) (f : Inst → Inst) : (s.modInst i f).cnt = s.cnt := (rfl)
@[simp] theorem modInst_pt (s : State) (i : Nat) (f : Inst → Inst) : (s.modInst i f).pt = s.pt := (rfl)
@[simp] theorem modInst_du (s : State) (i : Nat) (f : Inst → Inst) : (s.modInst i f).du = s.du := (rfl)
@[simp] theorem modInst_pu (s : State) (i : Nat) (f : Inst → Inst) : (s.modInst i f).pu = s.pu := (rfl)
@[simp] theorem modInst_su (s : State) (i : Nat) (f : Inst → Inst) : (s.modInst i f).su = s.su := (rfl)
@[simp] theorem modInst_rq (s : State) (i : Nat) (f : Inst → Inst) : (s.modInst i f).rq = s.rq := (rfl)
@[simp] theorem modInst_re (s : State) (i : Nat) (f : Inst → Inst) :
    (s.modInst i f).re = { s.re with insts := s.re.insts.modify i (Option.map f) } := (rfl)
@[simp] theorem modInst_ct (s : State) (i : Nat) (f : Inst → Inst) : (s.modInst i f).ct = s.ct := (rfl)
@[simp] theorem modInst_yu (s : State) (i : Nat) (f : Inst → Inst) : (s.modInst i f).yu = s.yu := (rfl)
@[simp] theorem modInst_mi (s : State) (i : Nat) (f : Inst → Inst) : (s.modInst i f).mi = s.mi := (rfl)
@[simp] theorem modInst_rp (s : State) (i : Nat) (f : Inst → Inst) : (s.modInst i f).rp = s.rp := (rfl)

/-! ### setInst -/

@[simp] theorem setInst_pending (s : State) (i : Nat) (x : Option Inst) : (s.setInst i x).pending = s.pending := (rfl)
@[simp] theorem setInst_time (s : State) (i : Nat) (x : Option Inst) : (s.setInst i x).time = s.time := (rfl)
@[simp] theorem setInst_windowMs (s : State) (i : Nat) (x : Option Inst) : (s.setInst i x).windowMs = s.windowMs := (rfl)
@[simp] theorem setInst_oldWindows (s : State) (i : Nat) (x : Option Inst) : (s.setInst i x).oldWindows = s.oldWindows := (rfl)
@[simp] theorem setInst_field (s : State) (i : Nat) (x : Option Inst) : (s.setInst i x).field = s.field := (rfl)
@[simp] theorem setInst_freeIdx (s : State) (i : Nat) (x : Option Inst) : (s.setInst i x).freeIdx = s.freeIdx := (rfl)
@[simp] theorem setInst_yard (s : State) (i : Nat) (x : Option Inst) : (s.setInst i x).yard = s.yard := (rfl)
@[simp] theorem setInst_li (s : State) (i : Nat) (x : Option Inst) : (s.setInst i x).li = s.li := (rfl)
@[simp] theorem setInst_fs (s : State) (i : Nat) (x : Option Inst) : (s.setInst i x).fs = s.fs := (rfl)
@[simp] theorem setInst_cnt (s : State) (i : Nat) (x : Option Inst) : (s.setInst i x).cnt = s.cnt := (rfl)
@[simp] theorem setInst_pt (s : State) (i : Nat) (x : Option Inst) : (s.setInst i x).pt = s.pt := (rfl)
@[simp] theorem setInst_du (s : State) (i : Nat) (x : Option Inst) : (s.setInst i x).du = s.du := (rfl)
@[simp] theorem setInst_pu (s : State) (i : Nat) (x : Option Inst) : (s.setInst i x).pu = s.pu := (rfl)
@[simp] theorem setInst_su (s : State) (i : Nat) (x : Option Inst) : (s.setInst i x).su = s.su := (rfl)
@[simp] theorem setInst_rq (s : State) (i : Nat) (x : Option Inst) : (s.setInst i x).rq = s.rq := (rfl)
@[simp] theorem setInst_re (s : State) (i : Nat) (x : Option Inst) :
    (s.setInst i x).re = { s.re with insts := s.re.insts.set i x } := (rfl)
@[simp] theorem setInst_ct (s : State) (i : Nat) (x : Option Inst) : (s.setInst i x).ct = s.ct := (rfl)
@[simp] theorem setInst_yu (s : State) (i : Nat) (x : Option Inst) : (s.setInst i x).yu = s.yu := (rfl)
@[simp] theorem setInst_mi (s : State) (i : Nat) (x : Option Inst) : (s.setInst i x).mi = s.mi := (rfl)
@[simp] theorem setInst_rp (s : State) (i : Nat) (x : Option Inst) : (s.setInst i x).rp = s.rp := (rfl)

/-! ### modClaim -/

@[simp] theorem modClaim_pending (s : State) (id : Nat) (f : Claim → Claim) : (s.modClaim id f).pending = s.pending := (rfl)
@[simp] theorem modClaim_time (s : State) (id : Nat) (f : Claim → Claim) : (s.modClaim id f).time = s.time := (rfl)
@[simp] theorem modClaim_windowMs (s : State) (id : Nat) (f : Claim → Claim) : (s.modClaim id f).windowMs = s.windowMs := (rfl)
@[simp] theorem modClaim_oldWindows (s : State) (id : Nat) (f : Claim → Claim) :
    (s.modClaim id f).oldWindows = s.oldWindows := (rfl)
@[simp] theorem modClaim_field (s : State) (id : Nat) (f : Claim → Claim) : (s.modClaim id f).field = s.field := (rfl)
@[simp] theorem modClaim_freeIdx (s : State) (id : Nat) (f : Claim → Claim) : (s.modClaim id f).freeIdx = s.freeIdx := (rfl)
@[simp] theorem modClaim_yard (s : State) (id : Nat) (f : Claim → Claim) : (s.modClaim id f).yard = s.yard := (rfl)
@[simp] theorem modClaim_li (s : State) (id : Nat) (f : Claim → Claim) : (s.modClaim id f).li = s.li := (rfl)
@[simp] theorem modClaim_fs (s : State) (id : Nat) (f : Claim → Claim) : (s.modClaim id f).fs = s.fs := (rfl)
@[simp] theorem modClaim_cnt (s : State) (id : Nat) (f : Claim → Claim) : (s.modClaim id f).cnt = s.cnt := (rfl)
@[simp] theorem modClaim_pt (s : State) (id : Nat) (f : Claim → Claim) : (s.modClaim id f).pt = s.pt := (rfl)
@[simp] theorem modClaim_du (s : State) (id : Nat) (f : Claim → Claim) : (s.modClaim id f).du = s.du := (rfl)
@[simp] theorem modClaim_pu (s : State) (id : Nat) (f : Claim → Claim) : (s.modClaim id f).pu = s.pu := (rfl)
@[simp] theorem modClaim_su (s : State) (id : Nat) (f : Claim → Claim) : (s.modClaim id f).su = s.su := (rfl)
@[simp] theorem modClaim_rq (s : State) (id : Nat) (f : Claim → Claim) : (s.modClaim id f).rq = s.rq := (rfl)
@[simp] theorem modClaim_re (s : State) (id : Nat) (f : Claim → Claim) : (s.modClaim id f).re = s.re := (rfl)
@[simp] theorem modClaim_ct (s : State) (id : Nat) (f : Claim → Claim) :
    (s.modClaim id f).ct = { s.ct with records := s.ct.records.modify id (Option.map f) } := (rfl)
@[simp] theorem modClaim_yu (s : State) (id : Nat) (f : Claim → Claim) : (s.modClaim id f).yu = s.yu := (rfl)
@[simp] theorem modClaim_mi (s : State) (id : Nat) (f : Claim → Claim) : (s.modClaim id f).mi = s.mi := (rfl)
@[simp] theorem modClaim_rp (s : State) (id : Nat) (f : Claim → Claim) : (s.modClaim id f).rp = s.rp := (rfl)

/-! ### modRoad -/

@[simp] theorem modRoad_pending (s : State) (r : Nat) (f : RoadRec → RoadRec) : (s.modRoad r f).pending = s.pending := (rfl)
@[simp] theorem modRoad_time (s : State) (r : Nat) (f : RoadRec → RoadRec) : (s.modRoad r f).time = s.time := (rfl)
@[simp] theorem modRoad_windowMs (s : State) (r : Nat) (f : RoadRec → RoadRec) : (s.modRoad r f).windowMs = s.windowMs := (rfl)
@[simp] theorem modRoad_oldWindows (s : State) (r : Nat) (f : RoadRec → RoadRec) :
    (s.modRoad r f).oldWindows = s.oldWindows := (rfl)
@[simp] theorem modRoad_field (s : State) (r : Nat) (f : RoadRec → RoadRec) : (s.modRoad r f).field = s.field := (rfl)
@[simp] theorem modRoad_freeIdx (s : State) (r : Nat) (f : RoadRec → RoadRec) : (s.modRoad r f).freeIdx = s.freeIdx := (rfl)
@[simp] theorem modRoad_yard (s : State) (r : Nat) (f : RoadRec → RoadRec) : (s.modRoad r f).yard = s.yard := (rfl)
@[simp] theorem modRoad_li (s : State) (r : Nat) (f : RoadRec → RoadRec) : (s.modRoad r f).li = s.li := (rfl)
@[simp] theorem modRoad_fs (s : State) (r : Nat) (f : RoadRec → RoadRec) : (s.modRoad r f).fs = s.fs := (rfl)
@[simp] theorem modRoad_cnt (s : State) (r : Nat) (f : RoadRec → RoadRec) : (s.modRoad r f).cnt = s.cnt := (rfl)
@[simp] theorem modRoad_pt (s : State) (r : Nat) (f : RoadRec → RoadRec) : (s.modRoad r f).pt = s.pt := (rfl)
@[simp] theorem modRoad_du (s : State) (r : Nat) (f : RoadRec → RoadRec) : (s.modRoad r f).du = s.du := (rfl)
@[simp] theorem modRoad_pu (s : State) (r : Nat) (f : RoadRec → RoadRec) : (s.modRoad r f).pu = s.pu := (rfl)
@[simp] theorem modRoad_su (s : State) (r : Nat) (f : RoadRec → RoadRec) : (s.modRoad r f).su = s.su := (rfl)
@[simp] theorem modRoad_rq (s : State) (r : Nat) (f : RoadRec → RoadRec) : (s.modRoad r f).rq = s.rq := (rfl)
@[simp] theorem modRoad_re (s : State) (r : Nat) (f : RoadRec → RoadRec) : (s.modRoad r f).re = s.re := (rfl)
@[simp] theorem modRoad_ct (s : State) (r : Nat) (f : RoadRec → RoadRec) : (s.modRoad r f).ct = s.ct := (rfl)
@[simp] theorem modRoad_yu (s : State) (r : Nat) (f : RoadRec → RoadRec) :
    (s.modRoad r f).yu = { s.yu with roads := s.yu.roads.modify r f } := (rfl)
@[simp] theorem modRoad_mi (s : State) (r : Nat) (f : RoadRec → RoadRec) : (s.modRoad r f).mi = s.mi := (rfl)
@[simp] theorem modRoad_rp (s : State) (r : Nat) (f : RoadRec → RoadRec) : (s.modRoad r f).rp = s.rp := (rfl)

/-! ### count -/

@[simp] theorem count_pending (s : State) (f : Counters → Counters) : (s.count f).pending = s.pending := (rfl)
@[simp] theorem count_time (s : State) (f : Counters → Counters) : (s.count f).time = s.time := (rfl)
@[simp] theorem count_windowMs (s : State) (f : Counters → Counters) : (s.count f).windowMs = s.windowMs := (rfl)
@[simp] theorem count_oldWindows (s : State) (f : Counters → Counters) : (s.count f).oldWindows = s.oldWindows := (rfl)
@[simp] theorem count_field (s : State) (f : Counters → Counters) : (s.count f).field = s.field := (rfl)
@[simp] theorem count_freeIdx (s : State) (f : Counters → Counters) : (s.count f).freeIdx = s.freeIdx := (rfl)
@[simp] theorem count_yard (s : State) (f : Counters → Counters) : (s.count f).yard = s.yard := (rfl)
@[simp] theorem count_li (s : State) (f : Counters → Counters) : (s.count f).li = s.li := (rfl)
@[simp] theorem count_fs (s : State) (f : Counters → Counters) : (s.count f).fs = s.fs := (rfl)
@[simp] theorem count_cnt (s : State) (f : Counters → Counters) : (s.count f).cnt = f s.cnt := (rfl)
@[simp] theorem count_pt (s : State) (f : Counters → Counters) : (s.count f).pt = s.pt := (rfl)
@[simp] theorem count_du (s : State) (f : Counters → Counters) : (s.count f).du = s.du := (rfl)
@[simp] theorem count_pu (s : State) (f : Counters → Counters) : (s.count f).pu = s.pu := (rfl)
@[simp] theorem count_su (s : State) (f : Counters → Counters) : (s.count f).su = s.su := (rfl)
@[simp] theorem count_rq (s : State) (f : Counters → Counters) : (s.count f).rq = s.rq := (rfl)
@[simp] theorem count_re (s : State) (f : Counters → Counters) : (s.count f).re = s.re := (rfl)
@[simp] theorem count_ct (s : State) (f : Counters → Counters) : (s.count f).ct = s.ct := (rfl)
@[simp] theorem count_yu (s : State) (f : Counters → Counters) : (s.count f).yu = s.yu := (rfl)
@[simp] theorem count_mi (s : State) (f : Counters → Counters) : (s.count f).mi = s.mi := (rfl)
@[simp] theorem count_rp (s : State) (f : Counters → Counters) : (s.count f).rp = s.rp := (rfl)

/-! ### giveSectNotice -/

@[simp] theorem giveSectNotice_pending (s : State) (n : SectNotice) : (s.giveSectNotice n).pending = s.pending := (rfl)
@[simp] theorem giveSectNotice_time (s : State) (n : SectNotice) : (s.giveSectNotice n).time = s.time := (rfl)
@[simp] theorem giveSectNotice_windowMs (s : State) (n : SectNotice) : (s.giveSectNotice n).windowMs = s.windowMs := (rfl)
@[simp] theorem giveSectNotice_oldWindows (s : State) (n : SectNotice) :
    (s.giveSectNotice n).oldWindows = s.oldWindows := (rfl)
@[simp] theorem giveSectNotice_field (s : State) (n : SectNotice) : (s.giveSectNotice n).field = s.field := (rfl)
@[simp] theorem giveSectNotice_freeIdx (s : State) (n : SectNotice) : (s.giveSectNotice n).freeIdx = s.freeIdx := (rfl)
@[simp] theorem giveSectNotice_yard (s : State) (n : SectNotice) : (s.giveSectNotice n).yard = s.yard := (rfl)
@[simp] theorem giveSectNotice_li (s : State) (n : SectNotice) : (s.giveSectNotice n).li = s.li := (rfl)
@[simp] theorem giveSectNotice_fs (s : State) (n : SectNotice) : (s.giveSectNotice n).fs = s.fs := (rfl)
@[simp] theorem giveSectNotice_cnt (s : State) (n : SectNotice) : (s.giveSectNotice n).cnt = s.cnt := (rfl)
@[simp] theorem giveSectNotice_pt (s : State) (n : SectNotice) : (s.giveSectNotice n).pt = s.pt := (rfl)
@[simp] theorem giveSectNotice_du (s : State) (n : SectNotice) : (s.giveSectNotice n).du = s.du := (rfl)
@[simp] theorem giveSectNotice_pu (s : State) (n : SectNotice) :
    (s.giveSectNotice n).pu = { s.pu with notices := s.pu.notices ++ [n] } := (rfl)
@[simp] theorem giveSectNotice_su (s : State) (n : SectNotice) : (s.giveSectNotice n).su = s.su := (rfl)
@[simp] theorem giveSectNotice_rq (s : State) (n : SectNotice) : (s.giveSectNotice n).rq = s.rq := (rfl)
@[simp] theorem giveSectNotice_re (s : State) (n : SectNotice) :
    (s.giveSectNotice n).re = { s.re with notices := s.re.notices ++ [n] } := (rfl)
@[simp] theorem giveSectNotice_ct (s : State) (n : SectNotice) :
    (s.giveSectNotice n).ct = { s.ct with notices := s.ct.notices ++ [n] } := (rfl)
@[simp] theorem giveSectNotice_yu (s : State) (n : SectNotice) :
    (s.giveSectNotice n).yu = { s.yu with notices := s.yu.notices ++ [n] } := (rfl)
@[simp] theorem giveSectNotice_mi (s : State) (n : SectNotice) : (s.giveSectNotice n).mi = s.mi := (rfl)
@[simp] theorem giveSectNotice_rp (s : State) (n : SectNotice) : (s.giveSectNotice n).rp = s.rp := (rfl)

/-! ### givePeerNotice -/

@[simp] theorem givePeerNotice_pending (s : State) (n : PeerNotice) : (s.givePeerNotice n).pending = s.pending := (rfl)
@[simp] theorem givePeerNotice_time (s : State) (n : PeerNotice) : (s.givePeerNotice n).time = s.time := (rfl)
@[simp] theorem givePeerNotice_windowMs (s : State) (n : PeerNotice) : (s.givePeerNotice n).windowMs = s.windowMs := (rfl)
@[simp] theorem givePeerNotice_oldWindows (s : State) (n : PeerNotice) :
    (s.givePeerNotice n).oldWindows = s.oldWindows := (rfl)
@[simp] theorem givePeerNotice_field (s : State) (n : PeerNotice) : (s.givePeerNotice n).field = s.field := (rfl)
@[simp] theorem givePeerNotice_freeIdx (s : State) (n : PeerNotice) : (s.givePeerNotice n).freeIdx = s.freeIdx := (rfl)
@[simp] theorem givePeerNotice_yard (s : State) (n : PeerNotice) : (s.givePeerNotice n).yard = s.yard := (rfl)
@[simp] theorem givePeerNotice_li (s : State) (n : PeerNotice) : (s.givePeerNotice n).li = s.li := (rfl)
@[simp] theorem givePeerNotice_fs (s : State) (n : PeerNotice) : (s.givePeerNotice n).fs = s.fs := (rfl)
@[simp] theorem givePeerNotice_cnt (s : State) (n : PeerNotice) : (s.givePeerNotice n).cnt = s.cnt := (rfl)
@[simp] theorem givePeerNotice_pt (s : State) (n : PeerNotice) : (s.givePeerNotice n).pt = s.pt := (rfl)
@[simp] theorem givePeerNotice_du (s : State) (n : PeerNotice) : (s.givePeerNotice n).du = s.du := (rfl)
@[simp] theorem givePeerNotice_pu (s : State) (n : PeerNotice) : (s.givePeerNotice n).pu = s.pu := (rfl)
@[simp] theorem givePeerNotice_su (s : State) (n : PeerNotice) : (s.givePeerNotice n).su = s.su := (rfl)
@[simp] theorem givePeerNotice_rq (s : State) (n : PeerNotice) : (s.givePeerNotice n).rq = s.rq := (rfl)
@[simp] theorem givePeerNotice_re (s : State) (n : PeerNotice) :
    (s.givePeerNotice n).re = { s.re with peerNotices := s.re.peerNotices ++ [n] } := (rfl)
@[simp] theorem givePeerNotice_ct (s : State) (n : PeerNotice) :
    (s.givePeerNotice n).ct = { s.ct with peerNotices := s.ct.peerNotices ++ [n] } := (rfl)
@[simp] theorem givePeerNotice_yu (s : State) (n : PeerNotice) :
    (s.givePeerNotice n).yu = { s.yu with peerNotices := s.yu.peerNotices ++ [n] } := (rfl)
@[simp] theorem givePeerNotice_mi (s : State) (n : PeerNotice) : (s.givePeerNotice n).mi = s.mi := (rfl)
@[simp] theorem givePeerNotice_rp (s : State) (n : PeerNotice) : (s.givePeerNotice n).rp = s.rp := (rfl)

/-! ### reportToCt -/

@[simp] theorem reportToCt_pending (s : State) (r : PuReport) : (s.reportToCt r).pending = s.pending := (rfl)
@[simp] theorem reportToCt_time (s : State) (r : PuReport) : (s.reportToCt r).time = s.time := (rfl)
@[simp] theorem reportToCt_windowMs (s : State) (r : PuReport) : (s.reportToCt r).windowMs = s.windowMs := (rfl)
@[simp] theorem reportToCt_oldWindows (s : State) (r : PuReport) : (s.reportToCt r).oldWindows = s.oldWindows := (rfl)
@[simp] theorem reportToCt_field (s : State) (r : PuReport) : (s.reportToCt r).field = s.field := (rfl)
@[simp] theorem reportToCt_freeIdx (s : State) (r : PuReport) : (s.reportToCt r).freeIdx = s.freeIdx := (rfl)
@[simp] theorem reportToCt_yard (s : State) (r : PuReport) : (s.reportToCt r).yard = s.yard := (rfl)
@[simp] theorem reportToCt_li (s : State) (r : PuReport) : (s.reportToCt r).li = s.li := (rfl)
@[simp] theorem reportToCt_fs (s : State) (r : PuReport) : (s.reportToCt r).fs = s.fs := (rfl)
@[simp] theorem reportToCt_cnt (s : State) (r : PuReport) : (s.reportToCt r).cnt = s.cnt := (rfl)
@[simp] theorem reportToCt_pt (s : State) (r : PuReport) : (s.reportToCt r).pt = s.pt := (rfl)
@[simp] theorem reportToCt_du (s : State) (r : PuReport) : (s.reportToCt r).du = s.du := (rfl)
@[simp] theorem reportToCt_pu (s : State) (r : PuReport) : (s.reportToCt r).pu = s.pu := (rfl)
@[simp] theorem reportToCt_su (s : State) (r : PuReport) : (s.reportToCt r).su = s.su := (rfl)
@[simp] theorem reportToCt_rq (s : State) (r : PuReport) : (s.reportToCt r).rq = s.rq := (rfl)
@[simp] theorem reportToCt_re (s : State) (r : PuReport) : (s.reportToCt r).re = s.re := (rfl)
@[simp] theorem reportToCt_ct (s : State) (r : PuReport) :
    (s.reportToCt r).ct = { s.ct with reports := s.ct.reports ++ [r] } := (rfl)
@[simp] theorem reportToCt_yu (s : State) (r : PuReport) : (s.reportToCt r).yu = s.yu := (rfl)
@[simp] theorem reportToCt_mi (s : State) (r : PuReport) : (s.reportToCt r).mi = s.mi := (rfl)
@[simp] theorem reportToCt_rp (s : State) (r : PuReport) : (s.reportToCt r).rp = s.rp := (rfl)

/-! ### reportToRe -/

@[simp] theorem reportToRe_pending (s : State) (r : SuReport) : (s.reportToRe r).pending = s.pending := (rfl)
@[simp] theorem reportToRe_time (s : State) (r : SuReport) : (s.reportToRe r).time = s.time := (rfl)
@[simp] theorem reportToRe_windowMs (s : State) (r : SuReport) : (s.reportToRe r).windowMs = s.windowMs := (rfl)
@[simp] theorem reportToRe_oldWindows (s : State) (r : SuReport) : (s.reportToRe r).oldWindows = s.oldWindows := (rfl)
@[simp] theorem reportToRe_field (s : State) (r : SuReport) : (s.reportToRe r).field = s.field := (rfl)
@[simp] theorem reportToRe_freeIdx (s : State) (r : SuReport) : (s.reportToRe r).freeIdx = s.freeIdx := (rfl)
@[simp] theorem reportToRe_yard (s : State) (r : SuReport) : (s.reportToRe r).yard = s.yard := (rfl)
@[simp] theorem reportToRe_li (s : State) (r : SuReport) : (s.reportToRe r).li = s.li := (rfl)
@[simp] theorem reportToRe_fs (s : State) (r : SuReport) : (s.reportToRe r).fs = s.fs := (rfl)
@[simp] theorem reportToRe_cnt (s : State) (r : SuReport) : (s.reportToRe r).cnt = s.cnt := (rfl)
@[simp] theorem reportToRe_pt (s : State) (r : SuReport) : (s.reportToRe r).pt = s.pt := (rfl)
@[simp] theorem reportToRe_du (s : State) (r : SuReport) : (s.reportToRe r).du = s.du := (rfl)
@[simp] theorem reportToRe_pu (s : State) (r : SuReport) : (s.reportToRe r).pu = s.pu := (rfl)
@[simp] theorem reportToRe_su (s : State) (r : SuReport) : (s.reportToRe r).su = s.su := (rfl)
@[simp] theorem reportToRe_rq (s : State) (r : SuReport) : (s.reportToRe r).rq = s.rq := (rfl)
@[simp] theorem reportToRe_re (s : State) (r : SuReport) :
    (s.reportToRe r).re = { s.re with reports := s.re.reports ++ [r] } := (rfl)
@[simp] theorem reportToRe_ct (s : State) (r : SuReport) : (s.reportToRe r).ct = s.ct := (rfl)
@[simp] theorem reportToRe_yu (s : State) (r : SuReport) : (s.reportToRe r).yu = s.yu := (rfl)
@[simp] theorem reportToRe_mi (s : State) (r : SuReport) : (s.reportToRe r).mi = s.mi := (rfl)
@[simp] theorem reportToRe_rp (s : State) (r : SuReport) : (s.reportToRe r).rp = s.rp := (rfl)

/-! ### commandSu -/

@[simp] theorem commandSu_pending (s : State) (c : SuCommand) : (s.commandSu c).pending = s.pending := (rfl)
@[simp] theorem commandSu_time (s : State) (c : SuCommand) : (s.commandSu c).time = s.time := (rfl)
@[simp] theorem commandSu_windowMs (s : State) (c : SuCommand) : (s.commandSu c).windowMs = s.windowMs := (rfl)
@[simp] theorem commandSu_oldWindows (s : State) (c : SuCommand) : (s.commandSu c).oldWindows = s.oldWindows := (rfl)
@[simp] theorem commandSu_field (s : State) (c : SuCommand) : (s.commandSu c).field = s.field := (rfl)
@[simp] theorem commandSu_freeIdx (s : State) (c : SuCommand) : (s.commandSu c).freeIdx = s.freeIdx := (rfl)
@[simp] theorem commandSu_yard (s : State) (c : SuCommand) : (s.commandSu c).yard = s.yard := (rfl)
@[simp] theorem commandSu_li (s : State) (c : SuCommand) : (s.commandSu c).li = s.li := (rfl)
@[simp] theorem commandSu_fs (s : State) (c : SuCommand) : (s.commandSu c).fs = s.fs := (rfl)
@[simp] theorem commandSu_cnt (s : State) (c : SuCommand) : (s.commandSu c).cnt = s.cnt := (rfl)
@[simp] theorem commandSu_pt (s : State) (c : SuCommand) : (s.commandSu c).pt = s.pt := (rfl)
@[simp] theorem commandSu_du (s : State) (c : SuCommand) : (s.commandSu c).du = s.du := (rfl)
@[simp] theorem commandSu_pu (s : State) (c : SuCommand) : (s.commandSu c).pu = s.pu := (rfl)
@[simp] theorem commandSu_su (s : State) (c : SuCommand) :
    (s.commandSu c).su = { s.su with commands := s.su.commands ++ [c] } := (rfl)
@[simp] theorem commandSu_rq (s : State) (c : SuCommand) : (s.commandSu c).rq = s.rq := (rfl)
@[simp] theorem commandSu_re (s : State) (c : SuCommand) : (s.commandSu c).re = s.re := (rfl)
@[simp] theorem commandSu_ct (s : State) (c : SuCommand) : (s.commandSu c).ct = s.ct := (rfl)
@[simp] theorem commandSu_yu (s : State) (c : SuCommand) : (s.commandSu c).yu = s.yu := (rfl)
@[simp] theorem commandSu_mi (s : State) (c : SuCommand) : (s.commandSu c).mi = s.mi := (rfl)
@[simp] theorem commandSu_rp (s : State) (c : SuCommand) : (s.commandSu c).rp = s.rp := (rfl)

/-! ### endPermission -/

@[simp] theorem endPermission_pending (s : State) (p : Nat) : (s.endPermission p).pending = s.pending := (rfl)
@[simp] theorem endPermission_time (s : State) (p : Nat) : (s.endPermission p).time = s.time := (rfl)
@[simp] theorem endPermission_windowMs (s : State) (p : Nat) : (s.endPermission p).windowMs = s.windowMs := (rfl)
@[simp] theorem endPermission_oldWindows (s : State) (p : Nat) : (s.endPermission p).oldWindows = s.oldWindows := (rfl)
@[simp] theorem endPermission_field (s : State) (p : Nat) : (s.endPermission p).field = s.field := (rfl)
@[simp] theorem endPermission_freeIdx (s : State) (p : Nat) : (s.endPermission p).freeIdx = s.freeIdx := (rfl)
@[simp] theorem endPermission_yard (s : State) (p : Nat) : (s.endPermission p).yard = s.yard := (rfl)
@[simp] theorem endPermission_li (s : State) (p : Nat) : (s.endPermission p).li = s.li := (rfl)
@[simp] theorem endPermission_fs (s : State) (p : Nat) : (s.endPermission p).fs = s.fs := (rfl)
@[simp] theorem endPermission_cnt (s : State) (p : Nat) : (s.endPermission p).cnt = s.cnt := (rfl)
@[simp] theorem endPermission_pt (s : State) (p : Nat) : (s.endPermission p).pt = s.pt := (rfl)
@[simp] theorem endPermission_du (s : State) (p : Nat) : (s.endPermission p).du = s.du := (rfl)
@[simp] theorem endPermission_pu (s : State) (p : Nat) :
    (s.endPermission p).pu = { s.pu with permEnds := s.pu.permEnds ++ [p] } := (rfl)
@[simp] theorem endPermission_su (s : State) (p : Nat) : (s.endPermission p).su = s.su := (rfl)
@[simp] theorem endPermission_rq (s : State) (p : Nat) : (s.endPermission p).rq = s.rq := (rfl)
@[simp] theorem endPermission_re (s : State) (p : Nat) : (s.endPermission p).re = s.re := (rfl)
@[simp] theorem endPermission_ct (s : State) (p : Nat) : (s.endPermission p).ct = s.ct := (rfl)
@[simp] theorem endPermission_yu (s : State) (p : Nat) : (s.endPermission p).yu = s.yu := (rfl)
@[simp] theorem endPermission_mi (s : State) (p : Nat) : (s.endPermission p).mi = s.mi := (rfl)
@[simp] theorem endPermission_rp (s : State) (p : Nat) : (s.endPermission p).rp = s.rp := (rfl)

/-! ### handCt -/

@[simp] theorem handCt_pending (s : State) (m : CtMsg) : (s.handCt m).pending = s.pending := (rfl)
@[simp] theorem handCt_time (s : State) (m : CtMsg) : (s.handCt m).time = s.time := (rfl)
@[simp] theorem handCt_windowMs (s : State) (m : CtMsg) : (s.handCt m).windowMs = s.windowMs := (rfl)
@[simp] theorem handCt_oldWindows (s : State) (m : CtMsg) : (s.handCt m).oldWindows = s.oldWindows := (rfl)
@[simp] theorem handCt_field (s : State) (m : CtMsg) : (s.handCt m).field = s.field := (rfl)
@[simp] theorem handCt_freeIdx (s : State) (m : CtMsg) : (s.handCt m).freeIdx = s.freeIdx := (rfl)
@[simp] theorem handCt_yard (s : State) (m : CtMsg) : (s.handCt m).yard = s.yard := (rfl)
@[simp] theorem handCt_li (s : State) (m : CtMsg) : (s.handCt m).li = s.li := (rfl)
@[simp] theorem handCt_fs (s : State) (m : CtMsg) : (s.handCt m).fs = s.fs := (rfl)
@[simp] theorem handCt_cnt (s : State) (m : CtMsg) : (s.handCt m).cnt = s.cnt := (rfl)
@[simp] theorem handCt_pt (s : State) (m : CtMsg) : (s.handCt m).pt = s.pt := (rfl)
@[simp] theorem handCt_du (s : State) (m : CtMsg) : (s.handCt m).du = s.du := (rfl)
@[simp] theorem handCt_pu (s : State) (m : CtMsg) : (s.handCt m).pu = s.pu := (rfl)
@[simp] theorem handCt_su (s : State) (m : CtMsg) : (s.handCt m).su = s.su := (rfl)
@[simp] theorem handCt_rq (s : State) (m : CtMsg) : (s.handCt m).rq = s.rq := (rfl)
@[simp] theorem handCt_re (s : State) (m : CtMsg) : (s.handCt m).re = s.re := (rfl)
@[simp] theorem handCt_ct (s : State) (m : CtMsg) : (s.handCt m).ct = { s.ct with fromRe := s.ct.fromRe ++ [m] } := (rfl)
@[simp] theorem handCt_yu (s : State) (m : CtMsg) : (s.handCt m).yu = s.yu := (rfl)
@[simp] theorem handCt_mi (s : State) (m : CtMsg) : (s.handCt m).mi = s.mi := (rfl)
@[simp] theorem handCt_rp (s : State) (m : CtMsg) : (s.handCt m).rp = s.rp := (rfl)

/-! ### handRe -/

@[simp] theorem handRe_pending (s : State) (m : ReMsg) : (s.handRe m).pending = s.pending := (rfl)
@[simp] theorem handRe_time (s : State) (m : ReMsg) : (s.handRe m).time = s.time := (rfl)
@[simp] theorem handRe_windowMs (s : State) (m : ReMsg) : (s.handRe m).windowMs = s.windowMs := (rfl)
@[simp] theorem handRe_oldWindows (s : State) (m : ReMsg) : (s.handRe m).oldWindows = s.oldWindows := (rfl)
@[simp] theorem handRe_field (s : State) (m : ReMsg) : (s.handRe m).field = s.field := (rfl)
@[simp] theorem handRe_freeIdx (s : State) (m : ReMsg) : (s.handRe m).freeIdx = s.freeIdx := (rfl)
@[simp] theorem handRe_yard (s : State) (m : ReMsg) : (s.handRe m).yard = s.yard := (rfl)
@[simp] theorem handRe_li (s : State) (m : ReMsg) : (s.handRe m).li = s.li := (rfl)
@[simp] theorem handRe_fs (s : State) (m : ReMsg) : (s.handRe m).fs = s.fs := (rfl)
@[simp] theorem handRe_cnt (s : State) (m : ReMsg) : (s.handRe m).cnt = s.cnt := (rfl)
@[simp] theorem handRe_pt (s : State) (m : ReMsg) : (s.handRe m).pt = s.pt := (rfl)
@[simp] theorem handRe_du (s : State) (m : ReMsg) : (s.handRe m).du = s.du := (rfl)
@[simp] theorem handRe_pu (s : State) (m : ReMsg) : (s.handRe m).pu = s.pu := (rfl)
@[simp] theorem handRe_su (s : State) (m : ReMsg) : (s.handRe m).su = s.su := (rfl)
@[simp] theorem handRe_rq (s : State) (m : ReMsg) : (s.handRe m).rq = s.rq := (rfl)
@[simp] theorem handRe_re (s : State) (m : ReMsg) : (s.handRe m).re = { s.re with fromCt := s.re.fromCt ++ [m] } := (rfl)
@[simp] theorem handRe_ct (s : State) (m : ReMsg) : (s.handRe m).ct = s.ct := (rfl)
@[simp] theorem handRe_yu (s : State) (m : ReMsg) : (s.handRe m).yu = s.yu := (rfl)
@[simp] theorem handRe_mi (s : State) (m : ReMsg) : (s.handRe m).mi = s.mi := (rfl)
@[simp] theorem handRe_rp (s : State) (m : ReMsg) : (s.handRe m).rp = s.rp := (rfl)

/-! ### handYu -/

@[simp] theorem handYu_pending (s : State) (m : YuMsg) : (s.handYu m).pending = s.pending := (rfl)
@[simp] theorem handYu_time (s : State) (m : YuMsg) : (s.handYu m).time = s.time := (rfl)
@[simp] theorem handYu_windowMs (s : State) (m : YuMsg) : (s.handYu m).windowMs = s.windowMs := (rfl)
@[simp] theorem handYu_oldWindows (s : State) (m : YuMsg) : (s.handYu m).oldWindows = s.oldWindows := (rfl)
@[simp] theorem handYu_field (s : State) (m : YuMsg) : (s.handYu m).field = s.field := (rfl)
@[simp] theorem handYu_freeIdx (s : State) (m : YuMsg) : (s.handYu m).freeIdx = s.freeIdx := (rfl)
@[simp] theorem handYu_yard (s : State) (m : YuMsg) : (s.handYu m).yard = s.yard := (rfl)
@[simp] theorem handYu_li (s : State) (m : YuMsg) : (s.handYu m).li = s.li := (rfl)
@[simp] theorem handYu_fs (s : State) (m : YuMsg) : (s.handYu m).fs = s.fs := (rfl)
@[simp] theorem handYu_cnt (s : State) (m : YuMsg) : (s.handYu m).cnt = s.cnt := (rfl)
@[simp] theorem handYu_pt (s : State) (m : YuMsg) : (s.handYu m).pt = s.pt := (rfl)
@[simp] theorem handYu_du (s : State) (m : YuMsg) : (s.handYu m).du = s.du := (rfl)
@[simp] theorem handYu_pu (s : State) (m : YuMsg) : (s.handYu m).pu = s.pu := (rfl)
@[simp] theorem handYu_su (s : State) (m : YuMsg) : (s.handYu m).su = s.su := (rfl)
@[simp] theorem handYu_rq (s : State) (m : YuMsg) : (s.handYu m).rq = s.rq := (rfl)
@[simp] theorem handYu_re (s : State) (m : YuMsg) : (s.handYu m).re = s.re := (rfl)
@[simp] theorem handYu_ct (s : State) (m : YuMsg) : (s.handYu m).ct = s.ct := (rfl)
@[simp] theorem handYu_yu (s : State) (m : YuMsg) : (s.handYu m).yu = { s.yu with fromRe := s.yu.fromRe ++ [m] } := (rfl)
@[simp] theorem handYu_mi (s : State) (m : YuMsg) : (s.handYu m).mi = s.mi := (rfl)
@[simp] theorem handYu_rp (s : State) (m : YuMsg) : (s.handYu m).rp = s.rp := (rfl)

/-! ### handReFromYu -/

@[simp] theorem handReFromYu_pending (s : State) (m : FromYu) : (s.handReFromYu m).pending = s.pending := (rfl)
@[simp] theorem handReFromYu_time (s : State) (m : FromYu) : (s.handReFromYu m).time = s.time := (rfl)
@[simp] theorem handReFromYu_windowMs (s : State) (m : FromYu) : (s.handReFromYu m).windowMs = s.windowMs := (rfl)
@[simp] theorem handReFromYu_oldWindows (s : State) (m : FromYu) : (s.handReFromYu m).oldWindows = s.oldWindows := (rfl)
@[simp] theorem handReFromYu_field (s : State) (m : FromYu) : (s.handReFromYu m).field = s.field := (rfl)
@[simp] theorem handReFromYu_freeIdx (s : State) (m : FromYu) : (s.handReFromYu m).freeIdx = s.freeIdx := (rfl)
@[simp] theorem handReFromYu_yard (s : State) (m : FromYu) : (s.handReFromYu m).yard = s.yard := (rfl)
@[simp] theorem handReFromYu_li (s : State) (m : FromYu) : (s.handReFromYu m).li = s.li := (rfl)
@[simp] theorem handReFromYu_fs (s : State) (m : FromYu) : (s.handReFromYu m).fs = s.fs := (rfl)
@[simp] theorem handReFromYu_cnt (s : State) (m : FromYu) : (s.handReFromYu m).cnt = s.cnt := (rfl)
@[simp] theorem handReFromYu_pt (s : State) (m : FromYu) : (s.handReFromYu m).pt = s.pt := (rfl)
@[simp] theorem handReFromYu_du (s : State) (m : FromYu) : (s.handReFromYu m).du = s.du := (rfl)
@[simp] theorem handReFromYu_pu (s : State) (m : FromYu) : (s.handReFromYu m).pu = s.pu := (rfl)
@[simp] theorem handReFromYu_su (s : State) (m : FromYu) : (s.handReFromYu m).su = s.su := (rfl)
@[simp] theorem handReFromYu_rq (s : State) (m : FromYu) : (s.handReFromYu m).rq = s.rq := (rfl)
@[simp] theorem handReFromYu_re (s : State) (m : FromYu) :
    (s.handReFromYu m).re = { s.re with fromYu := s.re.fromYu ++ [m] } := (rfl)
@[simp] theorem handReFromYu_ct (s : State) (m : FromYu) : (s.handReFromYu m).ct = s.ct := (rfl)
@[simp] theorem handReFromYu_yu (s : State) (m : FromYu) : (s.handReFromYu m).yu = s.yu := (rfl)
@[simp] theorem handReFromYu_mi (s : State) (m : FromYu) : (s.handReFromYu m).mi = s.mi := (rfl)
@[simp] theorem handReFromYu_rp (s : State) (m : FromYu) : (s.handReFromYu m).rp = s.rp := (rfl)

end Sys2Proof.Laws
end

