-- ==== Sys2Proof/Laws/Frames.lean ====
section
/-! SUPPORT. For each operation, what it leaves as it is: the whole blocks it does not touch, and of FS, MI and PT the parts that the
invariants of Safety.lean read. The lemmas are simp lemmas, so that no later proof unfolds an operation to see what it keeps. -/

namespace Sys2Proof.Laws

open Sys2Proof.Machine

/-- What every item's operation leaves, `forEach` leaves. -/
theorem forEach_keeps {α β : Type} (g : State → β) (l : List α) (f : α → State → State) (h : ∀ x s, g (f x s) = g s) (s : State) :
    g (forEach l f s) = g s := by
  induction l generalizing s with
  | nil => rfl
  | cons x xs ih => rw [forEach, ih, h]

@[simp] theorem forEach_pending {α : Type} (l : List α) (f : α → State → State) (s : State)
    (h : ∀ x s, (f x s).pending = s.pending) : (forEach l f s).pending = s.pending := forEach_keeps (·.pending) l f h s

@[simp] theorem forEach_time {α : Type} (l : List α) (f : α → State → State) (s : State)
    (h : ∀ x s, (f x s).time = s.time) : (forEach l f s).time = s.time := forEach_keeps (·.time) l f h s

@[simp] theorem forEach_windowMs {α : Type} (l : List α) (f : α → State → State) (s : State)
    (h : ∀ x s, (f x s).windowMs = s.windowMs) : (forEach l f s).windowMs = s.windowMs := forEach_keeps (·.windowMs) l f h s

@[simp] theorem forEach_oldWindows {α : Type} (l : List α) (f : α → State → State) (s : State)
    (h : ∀ x s, (f x s).oldWindows = s.oldWindows) : (forEach l f s).oldWindows = s.oldWindows := forEach_keeps (·.oldWindows) l f h s

@[simp] theorem forEach_field {α : Type} (l : List α) (f : α → State → State) (s : State)
    (h : ∀ x s, (f x s).field = s.field) : (forEach l f s).field = s.field := forEach_keeps (·.field) l f h s

@[simp] theorem forEach_freeIdx {α : Type} (l : List α) (f : α → State → State) (s : State)
    (h : ∀ x s, (f x s).freeIdx = s.freeIdx) : (forEach l f s).freeIdx = s.freeIdx := forEach_keeps (·.freeIdx) l f h s

@[simp] theorem forEach_yard {α : Type} (l : List α) (f : α → State → State) (s : State)
    (h : ∀ x s, (f x s).yard = s.yard) : (forEach l f s).yard = s.yard := forEach_keeps (·.yard) l f h s

@[simp] theorem forEach_li {α : Type} (l : List α) (f : α → State → State) (s : State)
    (h : ∀ x s, (f x s).li = s.li) : (forEach l f s).li = s.li := forEach_keeps (·.li) l f h s

@[simp] theorem forEach_fs {α : Type} (l : List α) (f : α → State → State) (s : State)
    (h : ∀ x s, (f x s).fs = s.fs) : (forEach l f s).fs = s.fs := forEach_keeps (·.fs) l f h s

@[simp] theorem forEach_cnt {α : Type} (l : List α) (f : α → State → State) (s : State)
    (h : ∀ x s, (f x s).cnt = s.cnt) : (forEach l f s).cnt = s.cnt := forEach_keeps (·.cnt) l f h s

@[simp] theorem forEach_pt {α : Type} (l : List α) (f : α → State → State) (s : State)
    (h : ∀ x s, (f x s).pt = s.pt) : (forEach l f s).pt = s.pt := forEach_keeps (·.pt) l f h s

@[simp] theorem forEach_du {α : Type} (l : List α) (f : α → State → State) (s : State)
    (h : ∀ x s, (f x s).du = s.du) : (forEach l f s).du = s.du := forEach_keeps (·.du) l f h s

@[simp] theorem forEach_pu {α : Type} (l : List α) (f : α → State → State) (s : State)
    (h : ∀ x s, (f x s).pu = s.pu) : (forEach l f s).pu = s.pu := forEach_keeps (·.pu) l f h s

@[simp] theorem forEach_su {α : Type} (l : List α) (f : α → State → State) (s : State)
    (h : ∀ x s, (f x s).su = s.su) : (forEach l f s).su = s.su := forEach_keeps (·.su) l f h s

@[simp] theorem forEach_rq {α : Type} (l : List α) (f : α → State → State) (s : State)
    (h : ∀ x s, (f x s).rq = s.rq) : (forEach l f s).rq = s.rq := forEach_keeps (·.rq) l f h s

@[simp] theorem forEach_re {α : Type} (l : List α) (f : α → State → State) (s : State)
    (h : ∀ x s, (f x s).re = s.re) : (forEach l f s).re = s.re := forEach_keeps (·.re) l f h s

@[simp] theorem forEach_ct {α : Type} (l : List α) (f : α → State → State) (s : State)
    (h : ∀ x s, (f x s).ct = s.ct) : (forEach l f s).ct = s.ct := forEach_keeps (·.ct) l f h s

@[simp] theorem forEach_yu {α : Type} (l : List α) (f : α → State → State) (s : State)
    (h : ∀ x s, (f x s).yu = s.yu) : (forEach l f s).yu = s.yu := forEach_keeps (·.yu) l f h s

@[simp] theorem forEach_mi {α : Type} (l : List α) (f : α → State → State) (s : State)
    (h : ∀ x s, (f x s).mi = s.mi) : (forEach l f s).mi = s.mi := forEach_keeps (·.mi) l f h s

@[simp] theorem forEach_rp {α : Type} (l : List α) (f : α → State → State) (s : State)
    (h : ∀ x s, (f x s).rp = s.rp) : (forEach l f s).rp = s.rp := forEach_keeps (·.rp) l f h s

@[simp] theorem forEach_fs_free {α : Type} (l : List α) (f : α → State → State) (s : State)
    (h : ∀ x s, (f x s).fs.free = s.fs.free) : (forEach l f s).fs.free = s.fs.free := forEach_keeps (·.fs.free) l f h s

@[simp] theorem forEach_fs_inbox {α : Type} (l : List α) (f : α → State → State) (s : State)
    (h : ∀ x s, (f x s).fs.inbox = s.fs.inbox) : (forEach l f s).fs.inbox = s.fs.inbox := forEach_keeps (·.fs.inbox) l f h s

@[simp] theorem forEach_fs_active {α : Type} (l : List α) (f : α → State → State) (s : State)
    (h : ∀ x s, (f x s).fs.active = s.fs.active) : (forEach l f s).fs.active = s.fs.active := forEach_keeps (·.fs.active) l f h s

@[simp] theorem forEach_fs_handler {α : Type} (l : List α) (f : α → State → State) (s : State)
    (h : ∀ x s, (f x s).fs.handler = s.fs.handler) : (forEach l f s).fs.handler = s.fs.handler := forEach_keeps (·.fs.handler) l f h s

@[simp] theorem forEach_fs_ownFrames {α : Type} (l : List α) (f : α → State → State) (s : State)
    (h : ∀ x s, (f x s).fs.ownFrames = s.fs.ownFrames) : (forEach l f s).fs.ownFrames = s.fs.ownFrames := forEach_keeps (·.fs.ownFrames) l f h s

@[simp] theorem forEach_fs_holdOff {α : Type} (l : List α) (f : α → State → State) (s : State)
    (h : ∀ x s, (f x s).fs.holdOff = s.fs.holdOff) : (forEach l f s).fs.holdOff = s.fs.holdOff := forEach_keeps (·.fs.holdOff) l f h s

@[simp] theorem forEach_mi_mem {α : Type} (l : List α) (f : α → State → State) (s : State)
    (h : ∀ x s, (f x s).mi.mem = s.mi.mem) : (forEach l f s).mi.mem = s.mi.mem := forEach_keeps (·.mi.mem) l f h s

@[simp] theorem forEach_mi_startup {α : Type} (l : List α) (f : α → State → State) (s : State)
    (h : ∀ x s, (f x s).mi.startup = s.mi.startup) : (forEach l f s).mi.startup = s.mi.startup := forEach_keeps (·.mi.startup) l f h s

@[simp] theorem forEach_mi_desc {α : Type} (l : List α) (f : α → State → State) (s : State)
    (h : ∀ x s, (f x s).mi.desc = s.mi.desc) : (forEach l f s).mi.desc = s.mi.desc := forEach_keeps (·.mi.desc) l f h s

@[simp] theorem forEach_pt_mode {α : Type} (l : List α) (f : α → State → State) (s : State)
    (h : ∀ x s, (f x s).pt.mode = s.pt.mode) : (forEach l f s).pt.mode = s.pt.mode := forEach_keeps (·.pt.mode) l f h s

@[simp] theorem forEach_pt_node {α : Type} (l : List α) (f : α → State → State) (s : State)
    (h : ∀ x s, (f x s).pt.node = s.pt.node) : (forEach l f s).pt.node = s.pt.node := forEach_keeps (·.pt.node) l f h s

@[simp] theorem forEach_pt_epoch {α : Type} (l : List α) (f : α → State → State) (s : State)
    (h : ∀ x s, (f x s).pt.epoch = s.pt.epoch) : (forEach l f s).pt.epoch = s.pt.epoch := forEach_keeps (·.pt.epoch) l f h s

@[simp] theorem send_keeps (s : State) (kind : Kind) (dest : Nat) (payload : List Byte) :
    (s.send kind dest payload).pending = s.pending ∧ (s.send kind dest payload).time = s.time
     ∧ (s.send kind dest payload).windowMs = s.windowMs ∧ (s.send kind dest payload).oldWindows = s.oldWindows
     ∧ (s.send kind dest payload).field = s.field ∧ (s.send kind dest payload).freeIdx = s.freeIdx
     ∧ (s.send kind dest payload).yard = s.yard ∧ (s.send kind dest payload).li = s.li
     ∧ (s.send kind dest payload).fs.free = s.fs.free ∧ (s.send kind dest payload).fs.inbox = s.fs.inbox
     ∧ (s.send kind dest payload).fs.active = s.fs.active ∧ (s.send kind dest payload).fs.handler = s.fs.handler
     ∧ (s.send kind dest payload).fs.ownFrames = s.fs.ownFrames ∧ (s.send kind dest payload).fs.holdOff = s.fs.holdOff
     ∧ (s.send kind dest payload).pt = s.pt ∧ (s.send kind dest payload).du = s.du ∧ (s.send kind dest payload).pu = s.pu
     ∧ (s.send kind dest payload).su = s.su ∧ (s.send kind dest payload).rq = s.rq ∧ (s.send kind dest payload).re = s.re
     ∧ (s.send kind dest payload).ct = s.ct ∧ (s.send kind dest payload).yu = s.yu ∧ (s.send kind dest payload).mi = s.mi
     ∧ (s.send kind dest payload).rp = s.rp := by
  unfold State.send
  (repeat' split) <;> simp

@[simp] theorem report_keeps (s : State) (kind : Nat) (fields : List Byte) :
    (s.report kind fields).pending = s.pending ∧ (s.report kind fields).time = s.time
     ∧ (s.report kind fields).windowMs = s.windowMs ∧ (s.report kind fields).oldWindows = s.oldWindows
     ∧ (s.report kind fields).field = s.field ∧ (s.report kind fields).freeIdx = s.freeIdx ∧ (s.report kind fields).yard = s.yard
     ∧ (s.report kind fields).li = s.li ∧ (s.report kind fields).fs.free = s.fs.free
     ∧ (s.report kind fields).fs.inbox = s.fs.inbox ∧ (s.report kind fields).fs.active = s.fs.active
     ∧ (s.report kind fields).fs.handler = s.fs.handler ∧ (s.report kind fields).fs.ownFrames = s.fs.ownFrames
     ∧ (s.report kind fields).fs.holdOff = s.fs.holdOff ∧ (s.report kind fields).pt = s.pt ∧ (s.report kind fields).du = s.du
     ∧ (s.report kind fields).pu = s.pu ∧ (s.report kind fields).su = s.su ∧ (s.report kind fields).rq = s.rq
     ∧ (s.report kind fields).re = s.re ∧ (s.report kind fields).ct = s.ct ∧ (s.report kind fields).yu = s.yu
     ∧ (s.report kind fields).mi = s.mi := by
  unfold State.report
  simp

@[simp] theorem reportOutcome_keeps (s : State) (r : OutcomeRec) :
    (s.reportOutcome r).pending = s.pending ∧ (s.reportOutcome r).time = s.time ∧ (s.reportOutcome r).windowMs = s.windowMs
     ∧ (s.reportOutcome r).oldWindows = s.oldWindows ∧ (s.reportOutcome r).field = s.field
     ∧ (s.reportOutcome r).freeIdx = s.freeIdx ∧ (s.reportOutcome r).yard = s.yard ∧ (s.reportOutcome r).li = s.li
     ∧ (s.reportOutcome r).fs.free = s.fs.free ∧ (s.reportOutcome r).fs.inbox = s.fs.inbox
     ∧ (s.reportOutcome r).fs.active = s.fs.active ∧ (s.reportOutcome r).fs.handler = s.fs.handler
     ∧ (s.reportOutcome r).fs.ownFrames = s.fs.ownFrames ∧ (s.reportOutcome r).fs.holdOff = s.fs.holdOff
     ∧ (s.reportOutcome r).pt = s.pt ∧ (s.reportOutcome r).du = s.du ∧ (s.reportOutcome r).pu = s.pu
     ∧ (s.reportOutcome r).su = s.su ∧ (s.reportOutcome r).rq = s.rq ∧ (s.reportOutcome r).re = s.re
     ∧ (s.reportOutcome r).ct = s.ct ∧ (s.reportOutcome r).yu = s.yu ∧ (s.reportOutcome r).mi = s.mi := by
  unfold State.reportOutcome
  simp

@[simp] theorem reportPointFailed_keeps (s : State) (p : Nat) (target : Position) (phase : Nat) (fails : Counter) :
    (s.reportPointFailed p target phase fails).pending = s.pending ∧ (s.reportPointFailed p target phase fails).time = s.time
     ∧ (s.reportPointFailed p target phase fails).windowMs = s.windowMs
     ∧ (s.reportPointFailed p target phase fails).oldWindows = s.oldWindows
     ∧ (s.reportPointFailed p target phase fails).field = s.field ∧ (s.reportPointFailed p target phase fails).freeIdx = s.freeIdx
     ∧ (s.reportPointFailed p target phase fails).yard = s.yard ∧ (s.reportPointFailed p target phase fails).li = s.li
     ∧ (s.reportPointFailed p target phase fails).fs.free = s.fs.free
     ∧ (s.reportPointFailed p target phase fails).fs.inbox = s.fs.inbox
     ∧ (s.reportPointFailed p target phase fails).fs.active = s.fs.active
     ∧ (s.reportPointFailed p target phase fails).fs.handler = s.fs.handler
     ∧ (s.reportPointFailed p target phase fails).fs.ownFrames = s.fs.ownFrames
     ∧ (s.reportPointFailed p target phase fails).fs.holdOff = s.fs.holdOff ∧ (s.reportPointFailed p target phase fails).pt = s.pt
     ∧ (s.reportPointFailed p target phase fails).du = s.du ∧ (s.reportPointFailed p target phase fails).pu = s.pu
     ∧ (s.reportPointFailed p target phase fails).su = s.su ∧ (s.reportPointFailed p target phase fails).rq = s.rq
     ∧ (s.reportPointFailed p target phase fails).re = s.re ∧ (s.reportPointFailed p target phase fails).ct = s.ct
     ∧ (s.reportPointFailed p target phase fails).yu = s.yu ∧ (s.reportPointFailed p target phase fails).mi = s.mi := by
  unfold State.reportPointFailed
  simp

@[simp] theorem reportLampFault_keeps (s : State) (g : Nat) (left : SignalState) (lamp : Lamp) :
    (s.reportLampFault g left lamp).pending = s.pending ∧ (s.reportLampFault g left lamp).time = s.time
     ∧ (s.reportLampFault g left lamp).windowMs = s.windowMs ∧ (s.reportLampFault g left lamp).oldWindows = s.oldWindows
     ∧ (s.reportLampFault g left lamp).field = s.field ∧ (s.reportLampFault g left lamp).freeIdx = s.freeIdx
     ∧ (s.reportLampFault g left lamp).yard = s.yard ∧ (s.reportLampFault g left lamp).li = s.li
     ∧ (s.reportLampFault g left lamp).fs.free = s.fs.free ∧ (s.reportLampFault g left lamp).fs.inbox = s.fs.inbox
     ∧ (s.reportLampFault g left lamp).fs.active = s.fs.active ∧ (s.reportLampFault g left lamp).fs.handler = s.fs.handler
     ∧ (s.reportLampFault g left lamp).fs.ownFrames = s.fs.ownFrames ∧ (s.reportLampFault g left lamp).fs.holdOff = s.fs.holdOff
     ∧ (s.reportLampFault g left lamp).pt = s.pt ∧ (s.reportLampFault g left lamp).du = s.du
     ∧ (s.reportLampFault g left lamp).pu = s.pu ∧ (s.reportLampFault g left lamp).su = s.su
     ∧ (s.reportLampFault g left lamp).rq = s.rq ∧ (s.reportLampFault g left lamp).re = s.re
     ∧ (s.reportLampFault g left lamp).ct = s.ct ∧ (s.reportLampFault g left lamp).yu = s.yu
     ∧ (s.reportLampFault g left lamp).mi = s.mi := by
  unfold State.reportLampFault
  simp

@[simp] theorem reportDisturbed_keeps (s : State) (k : Nat) (left : SectState) (counter : Counter) :
    (s.reportDisturbed k left counter).pending = s.pending ∧ (s.reportDisturbed k left counter).time = s.time
     ∧ (s.reportDisturbed k left counter).windowMs = s.windowMs ∧ (s.reportDisturbed k left counter).oldWindows = s.oldWindows
     ∧ (s.reportDisturbed k left counter).field = s.field ∧ (s.reportDisturbed k left counter).freeIdx = s.freeIdx
     ∧ (s.reportDisturbed k left counter).yard = s.yard ∧ (s.reportDisturbed k left counter).li = s.li
     ∧ (s.reportDisturbed k left counter).fs.free = s.fs.free ∧ (s.reportDisturbed k left counter).fs.inbox = s.fs.inbox
     ∧ (s.reportDisturbed k left counter).fs.active = s.fs.active ∧ (s.reportDisturbed k left counter).fs.handler = s.fs.handler
     ∧ (s.reportDisturbed k left counter).fs.ownFrames = s.fs.ownFrames
     ∧ (s.reportDisturbed k left counter).fs.holdOff = s.fs.holdOff ∧ (s.reportDisturbed k left counter).pt = s.pt
     ∧ (s.reportDisturbed k left counter).du = s.du ∧ (s.reportDisturbed k left counter).pu = s.pu
     ∧ (s.reportDisturbed k left counter).su = s.su ∧ (s.reportDisturbed k left counter).rq = s.rq
     ∧ (s.reportDisturbed k left counter).re = s.re ∧ (s.reportDisturbed k left counter).ct = s.ct
     ∧ (s.reportDisturbed k left counter).yu = s.yu ∧ (s.reportDisturbed k left counter).mi = s.mi := by
  unfold State.reportDisturbed
  simp

@[simp] theorem reportPeerLost_keeps (s : State) (k : Nat) (epoch : Epoch) (last : Time) (losses : Counter) :
    (s.reportPeerLost k epoch last losses).pending = s.pending ∧ (s.reportPeerLost k epoch last losses).time = s.time
     ∧ (s.reportPeerLost k epoch last losses).windowMs = s.windowMs
     ∧ (s.reportPeerLost k epoch last losses).oldWindows = s.oldWindows ∧ (s.reportPeerLost k epoch last losses).field = s.field
     ∧ (s.reportPeerLost k epoch last losses).freeIdx = s.freeIdx ∧ (s.reportPeerLost k epoch last losses).yard = s.yard
     ∧ (s.reportPeerLost k epoch last losses).li = s.li ∧ (s.reportPeerLost k epoch last losses).fs.free = s.fs.free
     ∧ (s.reportPeerLost k epoch last losses).fs.inbox = s.fs.inbox
     ∧ (s.reportPeerLost k epoch last losses).fs.active = s.fs.active
     ∧ (s.reportPeerLost k epoch last losses).fs.handler = s.fs.handler
     ∧ (s.reportPeerLost k epoch last losses).fs.ownFrames = s.fs.ownFrames
     ∧ (s.reportPeerLost k epoch last losses).fs.holdOff = s.fs.holdOff ∧ (s.reportPeerLost k epoch last losses).pt = s.pt
     ∧ (s.reportPeerLost k epoch last losses).du = s.du ∧ (s.reportPeerLost k epoch last losses).pu = s.pu
     ∧ (s.reportPeerLost k epoch last losses).su = s.su ∧ (s.reportPeerLost k epoch last losses).rq = s.rq
     ∧ (s.reportPeerLost k epoch last losses).re = s.re ∧ (s.reportPeerLost k epoch last losses).ct = s.ct
     ∧ (s.reportPeerLost k epoch last losses).yu = s.yu ∧ (s.reportPeerLost k epoch last losses).mi = s.mi := by
  unfold State.reportPeerLost
  simp

@[simp] theorem reportIsolated_keeps (s : State) (own cause : Epoch) (left : Mode) :
    (s.reportIsolated own cause left).pending = s.pending ∧ (s.reportIsolated own cause left).time = s.time
     ∧ (s.reportIsolated own cause left).windowMs = s.windowMs ∧ (s.reportIsolated own cause left).oldWindows = s.oldWindows
     ∧ (s.reportIsolated own cause left).field = s.field ∧ (s.reportIsolated own cause left).freeIdx = s.freeIdx
     ∧ (s.reportIsolated own cause left).yard = s.yard ∧ (s.reportIsolated own cause left).li = s.li
     ∧ (s.reportIsolated own cause left).fs.free = s.fs.free ∧ (s.reportIsolated own cause left).fs.inbox = s.fs.inbox
     ∧ (s.reportIsolated own cause left).fs.active = s.fs.active ∧ (s.reportIsolated own cause left).fs.handler = s.fs.handler
     ∧ (s.reportIsolated own cause left).fs.ownFrames = s.fs.ownFrames
     ∧ (s.reportIsolated own cause left).fs.holdOff = s.fs.holdOff ∧ (s.reportIsolated own cause left).pt = s.pt
     ∧ (s.reportIsolated own cause left).du = s.du ∧ (s.reportIsolated own cause left).pu = s.pu
     ∧ (s.reportIsolated own cause left).su = s.su ∧ (s.reportIsolated own cause left).rq = s.rq
     ∧ (s.reportIsolated own cause left).re = s.re ∧ (s.reportIsolated own cause left).ct = s.ct
     ∧ (s.reportIsolated own cause left).yu = s.yu ∧ (s.reportIsolated own cause left).mi = s.mi := by
  unfold State.reportIsolated
  simp

@[simp] theorem reportRoadEmptied_keeps (s : State) (r entries : Nat) :
    (s.reportRoadEmptied r entries).pending = s.pending ∧ (s.reportRoadEmptied r entries).time = s.time
     ∧ (s.reportRoadEmptied r entries).windowMs = s.windowMs ∧ (s.reportRoadEmptied r entries).oldWindows = s.oldWindows
     ∧ (s.reportRoadEmptied r entries).field = s.field ∧ (s.reportRoadEmptied r entries).freeIdx = s.freeIdx
     ∧ (s.reportRoadEmptied r entries).yard = s.yard ∧ (s.reportRoadEmptied r entries).li = s.li
     ∧ (s.reportRoadEmptied r entries).fs.free = s.fs.free ∧ (s.reportRoadEmptied r entries).fs.inbox = s.fs.inbox
     ∧ (s.reportRoadEmptied r entries).fs.active = s.fs.active ∧ (s.reportRoadEmptied r entries).fs.handler = s.fs.handler
     ∧ (s.reportRoadEmptied r entries).fs.ownFrames = s.fs.ownFrames ∧ (s.reportRoadEmptied r entries).fs.holdOff = s.fs.holdOff
     ∧ (s.reportRoadEmptied r entries).pt = s.pt ∧ (s.reportRoadEmptied r entries).du = s.du
     ∧ (s.reportRoadEmptied r entries).pu = s.pu ∧ (s.reportRoadEmptied r entries).su = s.su
     ∧ (s.reportRoadEmptied r entries).rq = s.rq ∧ (s.reportRoadEmptied r entries).re = s.re
     ∧ (s.reportRoadEmptied r entries).ct = s.ct ∧ (s.reportRoadEmptied r entries).yu = s.yu
     ∧ (s.reportRoadEmptied r entries).mi = s.mi := by
  unfold State.reportRoadEmptied
  simp

@[simp] theorem reportRoadDoubtful_keeps (s : State) (r : Nat) (cause : DoubtCause) (tram : Option Nat) :
    (s.reportRoadDoubtful r cause tram).pending = s.pending ∧ (s.reportRoadDoubtful r cause tram).time = s.time
     ∧ (s.reportRoadDoubtful r cause tram).windowMs = s.windowMs ∧ (s.reportRoadDoubtful r cause tram).oldWindows = s.oldWindows
     ∧ (s.reportRoadDoubtful r cause tram).field = s.field ∧ (s.reportRoadDoubtful r cause tram).freeIdx = s.freeIdx
     ∧ (s.reportRoadDoubtful r cause tram).yard = s.yard ∧ (s.reportRoadDoubtful r cause tram).li = s.li
     ∧ (s.reportRoadDoubtful r cause tram).fs.free = s.fs.free ∧ (s.reportRoadDoubtful r cause tram).fs.inbox = s.fs.inbox
     ∧ (s.reportRoadDoubtful r cause tram).fs.active = s.fs.active ∧ (s.reportRoadDoubtful r cause tram).fs.handler = s.fs.handler
     ∧ (s.reportRoadDoubtful r cause tram).fs.ownFrames = s.fs.ownFrames
     ∧ (s.reportRoadDoubtful r cause tram).fs.holdOff = s.fs.holdOff ∧ (s.reportRoadDoubtful r cause tram).pt = s.pt
     ∧ (s.reportRoadDoubtful r cause tram).du = s.du ∧ (s.reportRoadDoubtful r cause tram).pu = s.pu
     ∧ (s.reportRoadDoubtful r cause tram).su = s.su ∧ (s.reportRoadDoubtful r cause tram).rq = s.rq
     ∧ (s.reportRoadDoubtful r cause tram).re = s.re ∧ (s.reportRoadDoubtful r cause tram).ct = s.ct
     ∧ (s.reportRoadDoubtful r cause tram).yu = s.yu ∧ (s.reportRoadDoubtful r cause tram).mi = s.mi := by
  unfold State.reportRoadDoubtful
  simp

@[simp] theorem reportClamp_keeps (s : State) (c : Clamp) :
    (s.reportClamp c).pending = s.pending ∧ (s.reportClamp c).time = s.time ∧ (s.reportClamp c).windowMs = s.windowMs
     ∧ (s.reportClamp c).oldWindows = s.oldWindows ∧ (s.reportClamp c).field = s.field ∧ (s.reportClamp c).freeIdx = s.freeIdx
     ∧ (s.reportClamp c).yard = s.yard ∧ (s.reportClamp c).li = s.li ∧ (s.reportClamp c).fs.free = s.fs.free
     ∧ (s.reportClamp c).fs.inbox = s.fs.inbox ∧ (s.reportClamp c).fs.active = s.fs.active
     ∧ (s.reportClamp c).fs.handler = s.fs.handler ∧ (s.reportClamp c).fs.ownFrames = s.fs.ownFrames
     ∧ (s.reportClamp c).fs.holdOff = s.fs.holdOff ∧ (s.reportClamp c).pt = s.pt ∧ (s.reportClamp c).du = s.du
     ∧ (s.reportClamp c).pu = s.pu ∧ (s.reportClamp c).su = s.su ∧ (s.reportClamp c).rq = s.rq ∧ (s.reportClamp c).re = s.re
     ∧ (s.reportClamp c).ct = s.ct ∧ (s.reportClamp c).yu = s.yu ∧ (s.reportClamp c).mi = s.mi := by
  unfold State.reportClamp
  simp

@[simp] theorem tellRe_keeps (s : State) (dest : Nat) (m : ReMsg) :
    (s.tellRe dest m).pending = s.pending ∧ (s.tellRe dest m).time = s.time ∧ (s.tellRe dest m).windowMs = s.windowMs
     ∧ (s.tellRe dest m).oldWindows = s.oldWindows ∧ (s.tellRe dest m).field = s.field ∧ (s.tellRe dest m).freeIdx = s.freeIdx
     ∧ (s.tellRe dest m).yard = s.yard ∧ (s.tellRe dest m).li = s.li ∧ (s.tellRe dest m).fs.free = s.fs.free
     ∧ (s.tellRe dest m).fs.inbox = s.fs.inbox ∧ (s.tellRe dest m).fs.active = s.fs.active
     ∧ (s.tellRe dest m).fs.handler = s.fs.handler ∧ (s.tellRe dest m).fs.ownFrames = s.fs.ownFrames
     ∧ (s.tellRe dest m).fs.holdOff = s.fs.holdOff ∧ (s.tellRe dest m).pt = s.pt ∧ (s.tellRe dest m).du = s.du
     ∧ (s.tellRe dest m).pu = s.pu ∧ (s.tellRe dest m).su = s.su ∧ (s.tellRe dest m).rq = s.rq ∧ (s.tellRe dest m).ct = s.ct
     ∧ (s.tellRe dest m).yu = s.yu ∧ (s.tellRe dest m).mi = s.mi ∧ (s.tellRe dest m).rp = s.rp := by
  unfold State.tellRe
  (repeat' split) <;> simp

@[simp] theorem stopPoint_keeps (s : State) (p : Nat) (cause : MoveCause) :
    (s.stopPoint p cause).pending = s.pending ∧ (s.stopPoint p cause).time = s.time ∧ (s.stopPoint p cause).windowMs = s.windowMs
     ∧ (s.stopPoint p cause).oldWindows = s.oldWindows ∧ (s.stopPoint p cause).field = s.field
     ∧ (s.stopPoint p cause).freeIdx = s.freeIdx ∧ (s.stopPoint p cause).yard = s.yard ∧ (s.stopPoint p cause).li = s.li
     ∧ (s.stopPoint p cause).fs = s.fs ∧ (s.stopPoint p cause).cnt = s.cnt ∧ (s.stopPoint p cause).pt = s.pt
     ∧ (s.stopPoint p cause).du = s.du ∧ (s.stopPoint p cause).su = s.su ∧ (s.stopPoint p cause).rq = s.rq
     ∧ (s.stopPoint p cause).re = s.re ∧ (s.stopPoint p cause).yu = s.yu ∧ (s.stopPoint p cause).mi = s.mi
     ∧ (s.stopPoint p cause).rp = s.rp := by
  unfold State.stopPoint
  (repeat' split) <;> simp

@[simp] theorem turnDrive_keeps (s : State) (p k : Nat) (r : PointRec) :
    (s.turnDrive p k r).pending = s.pending ∧ (s.turnDrive p k r).time = s.time ∧ (s.turnDrive p k r).windowMs = s.windowMs
     ∧ (s.turnDrive p k r).oldWindows = s.oldWindows ∧ (s.turnDrive p k r).field = s.field
     ∧ (s.turnDrive p k r).freeIdx = s.freeIdx ∧ (s.turnDrive p k r).yard = s.yard ∧ (s.turnDrive p k r).li = s.li
     ∧ (s.turnDrive p k r).fs = s.fs ∧ (s.turnDrive p k r).cnt = s.cnt ∧ (s.turnDrive p k r).pt = s.pt
     ∧ (s.turnDrive p k r).du = s.du ∧ (s.turnDrive p k r).su = s.su ∧ (s.turnDrive p k r).rq = s.rq
     ∧ (s.turnDrive p k r).re = s.re ∧ (s.turnDrive p k r).yu = s.yu ∧ (s.turnDrive p k r).mi = s.mi
     ∧ (s.turnDrive p k r).rp = s.rp := by
  unfold State.turnDrive
  (repeat' split) <;> simp

@[simp] theorem takePermissionEnd_keeps (s : State) (p : Nat) :
    (s.takePermissionEnd p).pending = s.pending ∧ (s.takePermissionEnd p).time = s.time
     ∧ (s.takePermissionEnd p).windowMs = s.windowMs ∧ (s.takePermissionEnd p).oldWindows = s.oldWindows
     ∧ (s.takePermissionEnd p).field = s.field ∧ (s.takePermissionEnd p).freeIdx = s.freeIdx
     ∧ (s.takePermissionEnd p).yard = s.yard ∧ (s.takePermissionEnd p).li = s.li ∧ (s.takePermissionEnd p).fs = s.fs
     ∧ (s.takePermissionEnd p).cnt = s.cnt ∧ (s.takePermissionEnd p).pt = s.pt ∧ (s.takePermissionEnd p).du = s.du
     ∧ (s.takePermissionEnd p).su = s.su ∧ (s.takePermissionEnd p).rq = s.rq ∧ (s.takePermissionEnd p).re = s.re
     ∧ (s.takePermissionEnd p).yu = s.yu ∧ (s.takePermissionEnd p).mi = s.mi ∧ (s.takePermissionEnd p).rp = s.rp := by
  unfold State.takePermissionEnd
  (repeat' split) <;> simp

@[simp] theorem settlePermission_keeps (s : State) (p : Nat) :
    (s.settlePermission p).pending = s.pending ∧ (s.settlePermission p).time = s.time
     ∧ (s.settlePermission p).windowMs = s.windowMs ∧ (s.settlePermission p).oldWindows = s.oldWindows
     ∧ (s.settlePermission p).field = s.field ∧ (s.settlePermission p).freeIdx = s.freeIdx ∧ (s.settlePermission p).yard = s.yard
     ∧ (s.settlePermission p).li = s.li ∧ (s.settlePermission p).fs = s.fs ∧ (s.settlePermission p).cnt = s.cnt
     ∧ (s.settlePermission p).pt = s.pt ∧ (s.settlePermission p).du = s.du ∧ (s.settlePermission p).su = s.su
     ∧ (s.settlePermission p).rq = s.rq ∧ (s.settlePermission p).re = s.re ∧ (s.settlePermission p).yu = s.yu
     ∧ (s.settlePermission p).mi = s.mi ∧ (s.settlePermission p).rp = s.rp := by
  unfold State.settlePermission
  (repeat' split) <;> simp

@[simp] theorem orderPermitted_keeps (s : State) (p : Nat) (t : Position) (c : PointCfg) (r : PointRec) :
    (s.orderPermitted p t c r).pending = s.pending ∧ (s.orderPermitted p t c r).time = s.time
     ∧ (s.orderPermitted p t c r).windowMs = s.windowMs ∧ (s.orderPermitted p t c r).oldWindows = s.oldWindows
     ∧ (s.orderPermitted p t c r).field = s.field ∧ (s.orderPermitted p t c r).freeIdx = s.freeIdx
     ∧ (s.orderPermitted p t c r).yard = s.yard ∧ (s.orderPermitted p t c r).li = s.li ∧ (s.orderPermitted p t c r).fs = s.fs
     ∧ (s.orderPermitted p t c r).cnt = s.cnt ∧ (s.orderPermitted p t c r).pt = s.pt ∧ (s.orderPermitted p t c r).du = s.du
     ∧ (s.orderPermitted p t c r).su = s.su ∧ (s.orderPermitted p t c r).rq = s.rq ∧ (s.orderPermitted p t c r).re = s.re
     ∧ (s.orderPermitted p t c r).yu = s.yu ∧ (s.orderPermitted p t c r).mi = s.mi ∧ (s.orderPermitted p t c r).rp = s.rp := by
  unfold State.orderPermitted
  (repeat' split) <;> simp

@[simp] theorem moveOrder_keeps (s : State) (p : Nat) (t : Position) :
    (s.moveOrder p t).pending = s.pending ∧ (s.moveOrder p t).time = s.time ∧ (s.moveOrder p t).windowMs = s.windowMs
     ∧ (s.moveOrder p t).oldWindows = s.oldWindows ∧ (s.moveOrder p t).field = s.field ∧ (s.moveOrder p t).freeIdx = s.freeIdx
     ∧ (s.moveOrder p t).yard = s.yard ∧ (s.moveOrder p t).li = s.li ∧ (s.moveOrder p t).fs = s.fs ∧ (s.moveOrder p t).cnt = s.cnt
     ∧ (s.moveOrder p t).pt = s.pt ∧ (s.moveOrder p t).du = s.du ∧ (s.moveOrder p t).su = s.su ∧ (s.moveOrder p t).rq = s.rq
     ∧ (s.moveOrder p t).re = s.re ∧ (s.moveOrder p t).yu = s.yu ∧ (s.moveOrder p t).mi = s.mi ∧ (s.moveOrder p t).rp = s.rp := by
  (repeat' apply And.intro) <;> (unfold State.moveOrder; try dsimp only) <;> (repeat' split) <;>
    first | rfl | (simp; done) | simp

@[simp] theorem evaluatePoint_keeps (n r : BitVec 8) (p : Nat) (s : State) :
    (State.evaluatePoint n r p s).pending = s.pending ∧ (State.evaluatePoint n r p s).time = s.time
     ∧ (State.evaluatePoint n r p s).windowMs = s.windowMs ∧ (State.evaluatePoint n r p s).oldWindows = s.oldWindows
     ∧ (State.evaluatePoint n r p s).field = s.field ∧ (State.evaluatePoint n r p s).freeIdx = s.freeIdx
     ∧ (State.evaluatePoint n r p s).yard = s.yard ∧ (State.evaluatePoint n r p s).li = s.li
     ∧ (State.evaluatePoint n r p s).fs = s.fs ∧ (State.evaluatePoint n r p s).cnt = s.cnt
     ∧ (State.evaluatePoint n r p s).pt = s.pt ∧ (State.evaluatePoint n r p s).du = s.du ∧ (State.evaluatePoint n r p s).su = s.su
     ∧ (State.evaluatePoint n r p s).rq = s.rq ∧ (State.evaluatePoint n r p s).re = s.re ∧ (State.evaluatePoint n r p s).yu = s.yu
     ∧ (State.evaluatePoint n r p s).mi = s.mi ∧ (State.evaluatePoint n r p s).rp = s.rp := by
  unfold State.evaluatePoint
  (repeat' split) <;> simp

@[simp] theorem evaluatePoints_keeps (s : State) :
    (evaluatePoints s).pending = s.pending ∧ (evaluatePoints s).time = s.time ∧ (evaluatePoints s).windowMs = s.windowMs
     ∧ (evaluatePoints s).oldWindows = s.oldWindows ∧ (evaluatePoints s).field = s.field ∧ (evaluatePoints s).freeIdx = s.freeIdx
     ∧ (evaluatePoints s).yard = s.yard ∧ (evaluatePoints s).li = s.li ∧ (evaluatePoints s).fs = s.fs
     ∧ (evaluatePoints s).cnt = s.cnt ∧ (evaluatePoints s).pt = s.pt ∧ (evaluatePoints s).du = s.du ∧ (evaluatePoints s).su = s.su
     ∧ (evaluatePoints s).rq = s.rq ∧ (evaluatePoints s).re = s.re ∧ (evaluatePoints s).yu = s.yu ∧ (evaluatePoints s).mi = s.mi
     ∧ (evaluatePoints s).rp = s.rp := by
  (repeat' apply And.intro) <;> (unfold evaluatePoints; try dsimp only) <;> (repeat' split) <;>
    first | rfl | (simp; done) | simp (disch := (intros; (try dsimp only); (repeat' split) <;> try simp))

@[simp] theorem failPoint_keeps (s : State) (p : Nat) (target : Position) (phase : Nat) :
    (s.failPoint p target phase).pending = s.pending ∧ (s.failPoint p target phase).time = s.time
     ∧ (s.failPoint p target phase).windowMs = s.windowMs ∧ (s.failPoint p target phase).oldWindows = s.oldWindows
     ∧ (s.failPoint p target phase).field = s.field ∧ (s.failPoint p target phase).freeIdx = s.freeIdx
     ∧ (s.failPoint p target phase).yard = s.yard ∧ (s.failPoint p target phase).li = s.li
     ∧ (s.failPoint p target phase).fs.free = s.fs.free ∧ (s.failPoint p target phase).fs.inbox = s.fs.inbox
     ∧ (s.failPoint p target phase).fs.active = s.fs.active ∧ (s.failPoint p target phase).fs.handler = s.fs.handler
     ∧ (s.failPoint p target phase).fs.ownFrames = s.fs.ownFrames ∧ (s.failPoint p target phase).fs.holdOff = s.fs.holdOff
     ∧ (s.failPoint p target phase).pt = s.pt ∧ (s.failPoint p target phase).du = s.du ∧ (s.failPoint p target phase).su = s.su
     ∧ (s.failPoint p target phase).rq = s.rq ∧ (s.failPoint p target phase).re = s.re ∧ (s.failPoint p target phase).yu = s.yu
     ∧ (s.failPoint p target phase).mi = s.mi := by
  unfold State.failPoint
  simp

@[simp] theorem travelExpiry_keeps (s : State) (p : Nat) :
    (s.travelExpiry p).pending = s.pending ∧ (s.travelExpiry p).time = s.time ∧ (s.travelExpiry p).windowMs = s.windowMs
     ∧ (s.travelExpiry p).oldWindows = s.oldWindows ∧ (s.travelExpiry p).field = s.field ∧ (s.travelExpiry p).freeIdx = s.freeIdx
     ∧ (s.travelExpiry p).yard = s.yard ∧ (s.travelExpiry p).li = s.li ∧ (s.travelExpiry p).fs.free = s.fs.free
     ∧ (s.travelExpiry p).fs.inbox = s.fs.inbox ∧ (s.travelExpiry p).fs.active = s.fs.active
     ∧ (s.travelExpiry p).fs.handler = s.fs.handler ∧ (s.travelExpiry p).fs.ownFrames = s.fs.ownFrames
     ∧ (s.travelExpiry p).fs.holdOff = s.fs.holdOff ∧ (s.travelExpiry p).pt = s.pt ∧ (s.travelExpiry p).du = s.du
     ∧ (s.travelExpiry p).su = s.su ∧ (s.travelExpiry p).rq = s.rq ∧ (s.travelExpiry p).re = s.re ∧ (s.travelExpiry p).yu = s.yu
     ∧ (s.travelExpiry p).mi = s.mi := by
  unfold State.travelExpiry
  (repeat' split) <;> simp

@[simp] theorem puNotice_keeps (s : State) (n : SectNotice) :
    (s.puNotice n).pending = s.pending ∧ (s.puNotice n).time = s.time ∧ (s.puNotice n).windowMs = s.windowMs
     ∧ (s.puNotice n).oldWindows = s.oldWindows ∧ (s.puNotice n).field = s.field ∧ (s.puNotice n).freeIdx = s.freeIdx
     ∧ (s.puNotice n).yard = s.yard ∧ (s.puNotice n).li = s.li ∧ (s.puNotice n).fs = s.fs ∧ (s.puNotice n).cnt = s.cnt
     ∧ (s.puNotice n).pt = s.pt ∧ (s.puNotice n).du = s.du ∧ (s.puNotice n).su = s.su ∧ (s.puNotice n).rq = s.rq
     ∧ (s.puNotice n).re = s.re ∧ (s.puNotice n).yu = s.yu ∧ (s.puNotice n).mi = s.mi ∧ (s.puNotice n).rp = s.rp := by
  (repeat' apply And.intro) <;> (unfold State.puNotice; try dsimp only) <;> (repeat' split) <;>
    first | rfl | (simp; done) | simp (disch := (intros; (try dsimp only); (repeat' split) <;> try simp))

@[simp] theorem takeProceed_keeps (s : State) (g : Nat) (d : Direction) :
    (s.takeProceed g d).pending = s.pending ∧ (s.takeProceed g d).time = s.time ∧ (s.takeProceed g d).windowMs = s.windowMs
     ∧ (s.takeProceed g d).oldWindows = s.oldWindows ∧ (s.takeProceed g d).field = s.field
     ∧ (s.takeProceed g d).freeIdx = s.freeIdx ∧ (s.takeProceed g d).yard = s.yard ∧ (s.takeProceed g d).li = s.li
     ∧ (s.takeProceed g d).fs = s.fs ∧ (s.takeProceed g d).cnt = s.cnt ∧ (s.takeProceed g d).pt = s.pt
     ∧ (s.takeProceed g d).du = s.du ∧ (s.takeProceed g d).pu = s.pu ∧ (s.takeProceed g d).rq = s.rq
     ∧ (s.takeProceed g d).ct = s.ct ∧ (s.takeProceed g d).yu = s.yu ∧ (s.takeProceed g d).mi = s.mi
     ∧ (s.takeProceed g d).rp = s.rp := by
  unfold State.takeProceed
  (repeat' split) <;> simp

@[simp] theorem takeStop_keeps (s : State) (g : Nat) :
    (s.takeStop g).pending = s.pending ∧ (s.takeStop g).time = s.time ∧ (s.takeStop g).windowMs = s.windowMs
     ∧ (s.takeStop g).oldWindows = s.oldWindows ∧ (s.takeStop g).field = s.field ∧ (s.takeStop g).freeIdx = s.freeIdx
     ∧ (s.takeStop g).yard = s.yard ∧ (s.takeStop g).li = s.li ∧ (s.takeStop g).fs = s.fs ∧ (s.takeStop g).cnt = s.cnt
     ∧ (s.takeStop g).pt = s.pt ∧ (s.takeStop g).du = s.du ∧ (s.takeStop g).pu = s.pu ∧ (s.takeStop g).rq = s.rq
     ∧ (s.takeStop g).re = s.re ∧ (s.takeStop g).ct = s.ct ∧ (s.takeStop g).yu = s.yu ∧ (s.takeStop g).mi = s.mi
     ∧ (s.takeStop g).rp = s.rp := by
  unfold State.takeStop
  (repeat' split) <;> simp

@[simp] theorem clearingExpiry_keeps (s : State) (g : Nat) :
    (s.clearingExpiry g).pending = s.pending ∧ (s.clearingExpiry g).time = s.time ∧ (s.clearingExpiry g).windowMs = s.windowMs
     ∧ (s.clearingExpiry g).oldWindows = s.oldWindows ∧ (s.clearingExpiry g).field = s.field
     ∧ (s.clearingExpiry g).freeIdx = s.freeIdx ∧ (s.clearingExpiry g).yard = s.yard ∧ (s.clearingExpiry g).li = s.li
     ∧ (s.clearingExpiry g).fs = s.fs ∧ (s.clearingExpiry g).cnt = s.cnt ∧ (s.clearingExpiry g).pt = s.pt
     ∧ (s.clearingExpiry g).du = s.du ∧ (s.clearingExpiry g).pu = s.pu ∧ (s.clearingExpiry g).rq = s.rq
     ∧ (s.clearingExpiry g).ct = s.ct ∧ (s.clearingExpiry g).yu = s.yu ∧ (s.clearingExpiry g).mi = s.mi
     ∧ (s.clearingExpiry g).rp = s.rp := by
  unfold State.clearingExpiry
  (repeat' split) <;> simp

@[simp] theorem trialExpiry_keeps (s : State) (g : Nat) :
    (s.trialExpiry g).pending = s.pending ∧ (s.trialExpiry g).time = s.time ∧ (s.trialExpiry g).windowMs = s.windowMs
     ∧ (s.trialExpiry g).oldWindows = s.oldWindows ∧ (s.trialExpiry g).field = s.field ∧ (s.trialExpiry g).freeIdx = s.freeIdx
     ∧ (s.trialExpiry g).yard = s.yard ∧ (s.trialExpiry g).li = s.li ∧ (s.trialExpiry g).fs = s.fs ∧ (s.trialExpiry g).cnt = s.cnt
     ∧ (s.trialExpiry g).pt = s.pt ∧ (s.trialExpiry g).du = s.du ∧ (s.trialExpiry g).pu = s.pu ∧ (s.trialExpiry g).rq = s.rq
     ∧ (s.trialExpiry g).re = s.re ∧ (s.trialExpiry g).ct = s.ct ∧ (s.trialExpiry g).yu = s.yu ∧ (s.trialExpiry g).mi = s.mi
     ∧ (s.trialExpiry g).rp = s.rp := by
  unfold State.trialExpiry
  (repeat' split) <;> simp

@[simp] theorem serveRoadQueue_keeps (s : State) :
    s.serveRoadQueue.pending = s.pending ∧ s.serveRoadQueue.time = s.time ∧ s.serveRoadQueue.windowMs = s.windowMs
     ∧ s.serveRoadQueue.oldWindows = s.oldWindows ∧ s.serveRoadQueue.field = s.field ∧ s.serveRoadQueue.freeIdx = s.freeIdx
     ∧ s.serveRoadQueue.yard = s.yard ∧ s.serveRoadQueue.li = s.li ∧ s.serveRoadQueue.fs = s.fs ∧ s.serveRoadQueue.cnt = s.cnt
     ∧ s.serveRoadQueue.pt = s.pt ∧ s.serveRoadQueue.du = s.du ∧ s.serveRoadQueue.pu = s.pu ∧ s.serveRoadQueue.su = s.su
     ∧ s.serveRoadQueue.rq = s.rq ∧ s.serveRoadQueue.re = s.re ∧ s.serveRoadQueue.ct = s.ct ∧ s.serveRoadQueue.mi.mem = s.mi.mem
     ∧ s.serveRoadQueue.mi.startup = s.mi.startup ∧ s.serveRoadQueue.mi.desc = s.mi.desc ∧ s.serveRoadQueue.rp = s.rp := by
  unfold State.serveRoadQueue
  (repeat' split) <;> simp

@[simp] theorem queueRoads_keeps (s : State) (rs : List Nat) :
    (s.queueRoads rs).pending = s.pending ∧ (s.queueRoads rs).time = s.time ∧ (s.queueRoads rs).windowMs = s.windowMs
     ∧ (s.queueRoads rs).oldWindows = s.oldWindows ∧ (s.queueRoads rs).field = s.field ∧ (s.queueRoads rs).freeIdx = s.freeIdx
     ∧ (s.queueRoads rs).yard = s.yard ∧ (s.queueRoads rs).li = s.li ∧ (s.queueRoads rs).fs = s.fs ∧ (s.queueRoads rs).cnt = s.cnt
     ∧ (s.queueRoads rs).pt = s.pt ∧ (s.queueRoads rs).du = s.du ∧ (s.queueRoads rs).pu = s.pu ∧ (s.queueRoads rs).su = s.su
     ∧ (s.queueRoads rs).rq = s.rq ∧ (s.queueRoads rs).re = s.re ∧ (s.queueRoads rs).ct = s.ct
     ∧ (s.queueRoads rs).mi.mem = s.mi.mem ∧ (s.queueRoads rs).mi.startup = s.mi.startup ∧ (s.queueRoads rs).mi.desc = s.mi.desc
     ∧ (s.queueRoads rs).rp = s.rp := by
  unfold State.queueRoads
  simp

@[simp] theorem sendRoadChange_keeps (s : State) (r : Nat) :
    (s.sendRoadChange r).pending = s.pending ∧ (s.sendRoadChange r).time = s.time ∧ (s.sendRoadChange r).windowMs = s.windowMs
     ∧ (s.sendRoadChange r).oldWindows = s.oldWindows ∧ (s.sendRoadChange r).field = s.field
     ∧ (s.sendRoadChange r).freeIdx = s.freeIdx ∧ (s.sendRoadChange r).yard = s.yard ∧ (s.sendRoadChange r).li = s.li
     ∧ (s.sendRoadChange r).fs.free = s.fs.free ∧ (s.sendRoadChange r).fs.inbox = s.fs.inbox
     ∧ (s.sendRoadChange r).fs.active = s.fs.active ∧ (s.sendRoadChange r).fs.handler = s.fs.handler
     ∧ (s.sendRoadChange r).fs.ownFrames = s.fs.ownFrames ∧ (s.sendRoadChange r).fs.holdOff = s.fs.holdOff
     ∧ (s.sendRoadChange r).pt = s.pt ∧ (s.sendRoadChange r).du = s.du ∧ (s.sendRoadChange r).pu = s.pu
     ∧ (s.sendRoadChange r).su = s.su ∧ (s.sendRoadChange r).rq = s.rq ∧ (s.sendRoadChange r).ct = s.ct
     ∧ (s.sendRoadChange r).yu = s.yu ∧ (s.sendRoadChange r).mi = s.mi ∧ (s.sendRoadChange r).rp = s.rp := by
  unfold State.sendRoadChange
  (repeat' split) <;> simp

@[simp] theorem announceGains_keeps (s : State) (old : List RoadRec) :
    (s.announceGains old).pending = s.pending ∧ (s.announceGains old).time = s.time ∧ (s.announceGains old).windowMs = s.windowMs
     ∧ (s.announceGains old).oldWindows = s.oldWindows ∧ (s.announceGains old).field = s.field
     ∧ (s.announceGains old).freeIdx = s.freeIdx ∧ (s.announceGains old).yard = s.yard ∧ (s.announceGains old).li = s.li
     ∧ (s.announceGains old).fs.free = s.fs.free ∧ (s.announceGains old).fs.inbox = s.fs.inbox
     ∧ (s.announceGains old).fs.active = s.fs.active ∧ (s.announceGains old).fs.handler = s.fs.handler
     ∧ (s.announceGains old).fs.ownFrames = s.fs.ownFrames ∧ (s.announceGains old).fs.holdOff = s.fs.holdOff
     ∧ (s.announceGains old).pt = s.pt ∧ (s.announceGains old).du = s.du ∧ (s.announceGains old).pu = s.pu
     ∧ (s.announceGains old).su = s.su ∧ (s.announceGains old).rq = s.rq ∧ (s.announceGains old).ct = s.ct
     ∧ (s.announceGains old).yu = s.yu ∧ (s.announceGains old).mi = s.mi ∧ (s.announceGains old).rp = s.rp := by
  (repeat' apply And.intro) <;> (unfold State.announceGains; try dsimp only) <;> (repeat' split) <;>
    first | rfl | (simp; done) | simp (disch := (intros; (try dsimp only); (repeat' split) <;> try simp))

@[simp] theorem markDoubtful_keeps (s : State) (r : Nat) (cause : DoubtCause) (tram : Option Nat) :
    (s.markDoubtful r cause tram).pending = s.pending ∧ (s.markDoubtful r cause tram).time = s.time
     ∧ (s.markDoubtful r cause tram).windowMs = s.windowMs ∧ (s.markDoubtful r cause tram).oldWindows = s.oldWindows
     ∧ (s.markDoubtful r cause tram).field = s.field ∧ (s.markDoubtful r cause tram).freeIdx = s.freeIdx
     ∧ (s.markDoubtful r cause tram).yard = s.yard ∧ (s.markDoubtful r cause tram).li = s.li
     ∧ (s.markDoubtful r cause tram).fs.free = s.fs.free ∧ (s.markDoubtful r cause tram).fs.inbox = s.fs.inbox
     ∧ (s.markDoubtful r cause tram).fs.active = s.fs.active ∧ (s.markDoubtful r cause tram).fs.handler = s.fs.handler
     ∧ (s.markDoubtful r cause tram).fs.ownFrames = s.fs.ownFrames ∧ (s.markDoubtful r cause tram).fs.holdOff = s.fs.holdOff
     ∧ (s.markDoubtful r cause tram).pt = s.pt ∧ (s.markDoubtful r cause tram).du = s.du ∧ (s.markDoubtful r cause tram).pu = s.pu
     ∧ (s.markDoubtful r cause tram).su = s.su ∧ (s.markDoubtful r cause tram).rq = s.rq ∧ (s.markDoubtful r cause tram).re = s.re
     ∧ (s.markDoubtful r cause tram).ct = s.ct ∧ (s.markDoubtful r cause tram).mi = s.mi := by
  unfold State.markDoubtful
  (repeat' split) <;> simp

@[simp] theorem answerCall_keeps (s : State) (call : CallId) (epoch : Epoch) (t : TramRec) :
    (s.answerCall call epoch t).pending = s.pending ∧ (s.answerCall call epoch t).time = s.time
     ∧ (s.answerCall call epoch t).windowMs = s.windowMs ∧ (s.answerCall call epoch t).oldWindows = s.oldWindows
     ∧ (s.answerCall call epoch t).field = s.field ∧ (s.answerCall call epoch t).freeIdx = s.freeIdx
     ∧ (s.answerCall call epoch t).yard = s.yard ∧ (s.answerCall call epoch t).li = s.li
     ∧ (s.answerCall call epoch t).fs.free = s.fs.free ∧ (s.answerCall call epoch t).fs.inbox = s.fs.inbox
     ∧ (s.answerCall call epoch t).fs.active = s.fs.active ∧ (s.answerCall call epoch t).fs.handler = s.fs.handler
     ∧ (s.answerCall call epoch t).fs.ownFrames = s.fs.ownFrames ∧ (s.answerCall call epoch t).fs.holdOff = s.fs.holdOff
     ∧ (s.answerCall call epoch t).pt = s.pt ∧ (s.answerCall call epoch t).du = s.du ∧ (s.answerCall call epoch t).pu = s.pu
     ∧ (s.answerCall call epoch t).su = s.su ∧ (s.answerCall call epoch t).rq = s.rq ∧ (s.answerCall call epoch t).ct = s.ct
     ∧ (s.answerCall call epoch t).mi = s.mi ∧ (s.answerCall call epoch t).rp = s.rp := by
  (repeat' apply And.intro) <;> (unfold State.answerCall; try dsimp only) <;> (repeat' split) <;>
    first | rfl | (simp; done) | simp

@[simp] theorem takeBidCall_keeps (s : State) (call : CallId) (epoch : Epoch) (t : TramRec) :
    (s.takeBidCall call epoch t).pending = s.pending ∧ (s.takeBidCall call epoch t).time = s.time
     ∧ (s.takeBidCall call epoch t).windowMs = s.windowMs ∧ (s.takeBidCall call epoch t).oldWindows = s.oldWindows
     ∧ (s.takeBidCall call epoch t).field = s.field ∧ (s.takeBidCall call epoch t).freeIdx = s.freeIdx
     ∧ (s.takeBidCall call epoch t).yard = s.yard ∧ (s.takeBidCall call epoch t).li = s.li
     ∧ (s.takeBidCall call epoch t).fs.free = s.fs.free ∧ (s.takeBidCall call epoch t).fs.inbox = s.fs.inbox
     ∧ (s.takeBidCall call epoch t).fs.active = s.fs.active ∧ (s.takeBidCall call epoch t).fs.handler = s.fs.handler
     ∧ (s.takeBidCall call epoch t).fs.ownFrames = s.fs.ownFrames ∧ (s.takeBidCall call epoch t).fs.holdOff = s.fs.holdOff
     ∧ (s.takeBidCall call epoch t).pt = s.pt ∧ (s.takeBidCall call epoch t).du = s.du ∧ (s.takeBidCall call epoch t).pu = s.pu
     ∧ (s.takeBidCall call epoch t).su = s.su ∧ (s.takeBidCall call epoch t).rq = s.rq ∧ (s.takeBidCall call epoch t).ct = s.ct
     ∧ (s.takeBidCall call epoch t).mi = s.mi ∧ (s.takeBidCall call epoch t).rp = s.rp := by
  (repeat' apply And.intro) <;> (unfold State.takeBidCall; try dsimp only) <;> (repeat' split) <;>
    first | rfl | (simp; done) | simp

@[simp] theorem ignoreAward_keeps (s : State) :
    s.ignoreAward.pending = s.pending ∧ s.ignoreAward.time = s.time ∧ s.ignoreAward.windowMs = s.windowMs
     ∧ s.ignoreAward.oldWindows = s.oldWindows ∧ s.ignoreAward.field = s.field ∧ s.ignoreAward.freeIdx = s.freeIdx
     ∧ s.ignoreAward.yard = s.yard ∧ s.ignoreAward.li = s.li ∧ s.ignoreAward.fs = s.fs ∧ s.ignoreAward.pt = s.pt
     ∧ s.ignoreAward.du = s.du ∧ s.ignoreAward.pu = s.pu ∧ s.ignoreAward.su = s.su ∧ s.ignoreAward.rq = s.rq
     ∧ s.ignoreAward.re = s.re ∧ s.ignoreAward.ct = s.ct ∧ s.ignoreAward.yu = s.yu ∧ s.ignoreAward.mi = s.mi
     ∧ s.ignoreAward.rp = s.rp := by
  unfold State.ignoreAward
  simp

@[simp] theorem takeAward_keeps (s : State) (call : CallId) (epoch : Epoch) (road : Nat) (t : TramRec) (direct : Bool) :
    (s.takeAward call epoch road t direct).pending = s.pending ∧ (s.takeAward call epoch road t direct).time = s.time
     ∧ (s.takeAward call epoch road t direct).windowMs = s.windowMs
     ∧ (s.takeAward call epoch road t direct).oldWindows = s.oldWindows ∧ (s.takeAward call epoch road t direct).field = s.field
     ∧ (s.takeAward call epoch road t direct).freeIdx = s.freeIdx ∧ (s.takeAward call epoch road t direct).yard = s.yard
     ∧ (s.takeAward call epoch road t direct).li = s.li ∧ (s.takeAward call epoch road t direct).fs.free = s.fs.free
     ∧ (s.takeAward call epoch road t direct).fs.inbox = s.fs.inbox
     ∧ (s.takeAward call epoch road t direct).fs.active = s.fs.active
     ∧ (s.takeAward call epoch road t direct).fs.handler = s.fs.handler
     ∧ (s.takeAward call epoch road t direct).fs.ownFrames = s.fs.ownFrames
     ∧ (s.takeAward call epoch road t direct).fs.holdOff = s.fs.holdOff ∧ (s.takeAward call epoch road t direct).pt = s.pt
     ∧ (s.takeAward call epoch road t direct).du = s.du ∧ (s.takeAward call epoch road t direct).pu = s.pu
     ∧ (s.takeAward call epoch road t direct).su = s.su ∧ (s.takeAward call epoch road t direct).rq = s.rq
     ∧ (s.takeAward call epoch road t direct).ct = s.ct ∧ (s.takeAward call epoch road t direct).mi = s.mi
     ∧ (s.takeAward call epoch road t direct).rp = s.rp := by
  (repeat' apply And.intro) <;> (unfold State.takeAward; try dsimp only) <;> (repeat' split) <;>
    first | rfl | (simp; done) | simp

@[simp] theorem takeWithdraw_keeps (s : State) (call : CallId) (epoch : Epoch) :
    (s.takeWithdraw call epoch).pending = s.pending ∧ (s.takeWithdraw call epoch).time = s.time
     ∧ (s.takeWithdraw call epoch).windowMs = s.windowMs ∧ (s.takeWithdraw call epoch).oldWindows = s.oldWindows
     ∧ (s.takeWithdraw call epoch).field = s.field ∧ (s.takeWithdraw call epoch).freeIdx = s.freeIdx
     ∧ (s.takeWithdraw call epoch).yard = s.yard ∧ (s.takeWithdraw call epoch).li = s.li
     ∧ (s.takeWithdraw call epoch).fs.free = s.fs.free ∧ (s.takeWithdraw call epoch).fs.inbox = s.fs.inbox
     ∧ (s.takeWithdraw call epoch).fs.active = s.fs.active ∧ (s.takeWithdraw call epoch).fs.handler = s.fs.handler
     ∧ (s.takeWithdraw call epoch).fs.ownFrames = s.fs.ownFrames ∧ (s.takeWithdraw call epoch).fs.holdOff = s.fs.holdOff
     ∧ (s.takeWithdraw call epoch).pt = s.pt ∧ (s.takeWithdraw call epoch).du = s.du ∧ (s.takeWithdraw call epoch).pu = s.pu
     ∧ (s.takeWithdraw call epoch).su = s.su ∧ (s.takeWithdraw call epoch).rq = s.rq ∧ (s.takeWithdraw call epoch).ct = s.ct
     ∧ (s.takeWithdraw call epoch).mi = s.mi ∧ (s.takeWithdraw call epoch).rp = s.rp := by
  unfold State.takeWithdraw
  simp

@[simp] theorem linkArrival_keeps (s : State) (r : Nat) (call : CallId) (key : RouteKey) (id : Nat) :
    (s.linkArrival r call key id).pending = s.pending ∧ (s.linkArrival r call key id).time = s.time
     ∧ (s.linkArrival r call key id).windowMs = s.windowMs ∧ (s.linkArrival r call key id).oldWindows = s.oldWindows
     ∧ (s.linkArrival r call key id).field = s.field ∧ (s.linkArrival r call key id).freeIdx = s.freeIdx
     ∧ (s.linkArrival r call key id).yard = s.yard ∧ (s.linkArrival r call key id).li = s.li
     ∧ (s.linkArrival r call key id).fs = s.fs ∧ (s.linkArrival r call key id).cnt = s.cnt
     ∧ (s.linkArrival r call key id).pt = s.pt ∧ (s.linkArrival r call key id).du = s.du ∧ (s.linkArrival r call key id).pu = s.pu
     ∧ (s.linkArrival r call key id).su = s.su ∧ (s.linkArrival r call key id).rq = s.rq ∧ (s.linkArrival r call key id).re = s.re
     ∧ (s.linkArrival r call key id).ct = s.ct ∧ (s.linkArrival r call key id).mi = s.mi ∧ (s.linkArrival r call key id).rp = s.rp := by
  unfold State.linkArrival
  (repeat' split) <;> simp

@[simp] theorem unlinkArrival_keeps (s : State) (id : Nat) :
    (s.unlinkArrival id).pending = s.pending ∧ (s.unlinkArrival id).time = s.time
     ∧ (s.unlinkArrival id).windowMs = s.windowMs ∧ (s.unlinkArrival id).oldWindows = s.oldWindows
     ∧ (s.unlinkArrival id).field = s.field ∧ (s.unlinkArrival id).freeIdx = s.freeIdx ∧ (s.unlinkArrival id).yard = s.yard
     ∧ (s.unlinkArrival id).li = s.li ∧ (s.unlinkArrival id).fs.free = s.fs.free
     ∧ (s.unlinkArrival id).fs.inbox = s.fs.inbox ∧ (s.unlinkArrival id).fs.active = s.fs.active
     ∧ (s.unlinkArrival id).fs.handler = s.fs.handler ∧ (s.unlinkArrival id).fs.ownFrames = s.fs.ownFrames
     ∧ (s.unlinkArrival id).fs.holdOff = s.fs.holdOff ∧ (s.unlinkArrival id).pt = s.pt ∧ (s.unlinkArrival id).du = s.du
     ∧ (s.unlinkArrival id).pu = s.pu ∧ (s.unlinkArrival id).su = s.su ∧ (s.unlinkArrival id).rq = s.rq
     ∧ (s.unlinkArrival id).ct = s.ct ∧ (s.unlinkArrival id).mi = s.mi ∧ (s.unlinkArrival id).rp = s.rp := by
  unfold State.unlinkArrival
  simp

@[simp] theorem pushArrival_keeps (s : State) (r : Nat) (a : Arrival) :
    (s.pushArrival r a).pending = s.pending ∧ (s.pushArrival r a).time = s.time ∧ (s.pushArrival r a).windowMs = s.windowMs
     ∧ (s.pushArrival r a).oldWindows = s.oldWindows ∧ (s.pushArrival r a).field = s.field
     ∧ (s.pushArrival r a).freeIdx = s.freeIdx ∧ (s.pushArrival r a).yard = s.yard ∧ (s.pushArrival r a).li = s.li
     ∧ (s.pushArrival r a).fs.free = s.fs.free ∧ (s.pushArrival r a).fs.inbox = s.fs.inbox
     ∧ (s.pushArrival r a).fs.active = s.fs.active ∧ (s.pushArrival r a).fs.handler = s.fs.handler
     ∧ (s.pushArrival r a).fs.ownFrames = s.fs.ownFrames ∧ (s.pushArrival r a).fs.holdOff = s.fs.holdOff
     ∧ (s.pushArrival r a).pt = s.pt ∧ (s.pushArrival r a).du = s.du ∧ (s.pushArrival r a).pu = s.pu
     ∧ (s.pushArrival r a).su = s.su ∧ (s.pushArrival r a).rq = s.rq ∧ (s.pushArrival r a).ct = s.ct
     ∧ (s.pushArrival r a).mi.mem = s.mi.mem ∧ (s.pushArrival r a).mi.startup = s.mi.startup
     ∧ (s.pushArrival r a).mi.desc = s.mi.desc := by
  (repeat' apply And.intro) <;> (unfold State.pushArrival; try dsimp only) <;> (repeat' split) <;>
    first | rfl | (simp; done) | simp (disch := (intros; (try dsimp only); (repeat' split) <;> try simp))

@[simp] theorem takePush_keeps (s : State) (r : Nat) (call : CallId) (key : RouteKey) (tram : Nat) :
    (s.takePush r call key tram).pending = s.pending ∧ (s.takePush r call key tram).time = s.time
     ∧ (s.takePush r call key tram).windowMs = s.windowMs ∧ (s.takePush r call key tram).oldWindows = s.oldWindows
     ∧ (s.takePush r call key tram).field = s.field ∧ (s.takePush r call key tram).freeIdx = s.freeIdx
     ∧ (s.takePush r call key tram).yard = s.yard ∧ (s.takePush r call key tram).li = s.li
     ∧ (s.takePush r call key tram).fs.free = s.fs.free ∧ (s.takePush r call key tram).fs.inbox = s.fs.inbox
     ∧ (s.takePush r call key tram).fs.active = s.fs.active ∧ (s.takePush r call key tram).fs.handler = s.fs.handler
     ∧ (s.takePush r call key tram).fs.ownFrames = s.fs.ownFrames ∧ (s.takePush r call key tram).fs.holdOff = s.fs.holdOff
     ∧ (s.takePush r call key tram).pt = s.pt ∧ (s.takePush r call key tram).du = s.du ∧ (s.takePush r call key tram).pu = s.pu
     ∧ (s.takePush r call key tram).su = s.su ∧ (s.takePush r call key tram).rq = s.rq ∧ (s.takePush r call key tram).ct = s.ct
     ∧ (s.takePush r call key tram).mi.mem = s.mi.mem ∧ (s.takePush r call key tram).mi.startup = s.mi.startup
     ∧ (s.takePush r call key tram).mi.desc = s.mi.desc := by
  (repeat' apply And.intro) <;> (unfold State.takePush; try dsimp only) <;> (repeat' split) <;>
    first | rfl | (simp; done) | simp

@[simp] theorem takePop_keeps (s : State) (r tram : Nat) :
    (s.takePop r tram).pending = s.pending ∧ (s.takePop r tram).time = s.time ∧ (s.takePop r tram).windowMs = s.windowMs
     ∧ (s.takePop r tram).oldWindows = s.oldWindows ∧ (s.takePop r tram).field = s.field ∧ (s.takePop r tram).freeIdx = s.freeIdx
     ∧ (s.takePop r tram).yard = s.yard ∧ (s.takePop r tram).li = s.li ∧ (s.takePop r tram).fs.free = s.fs.free
     ∧ (s.takePop r tram).fs.inbox = s.fs.inbox ∧ (s.takePop r tram).fs.active = s.fs.active
     ∧ (s.takePop r tram).fs.handler = s.fs.handler ∧ (s.takePop r tram).fs.ownFrames = s.fs.ownFrames
     ∧ (s.takePop r tram).fs.holdOff = s.fs.holdOff ∧ (s.takePop r tram).pt = s.pt ∧ (s.takePop r tram).du = s.du
     ∧ (s.takePop r tram).pu = s.pu ∧ (s.takePop r tram).su = s.su ∧ (s.takePop r tram).rq = s.rq ∧ (s.takePop r tram).ct = s.ct
     ∧ (s.takePop r tram).mi.mem = s.mi.mem ∧ (s.takePop r tram).mi.startup = s.mi.startup
     ∧ (s.takePop r tram).mi.desc = s.mi.desc := by
  unfold State.takePop
  (repeat' split) <;> simp

@[simp] theorem runOutMark_keeps (s : State) (r tram : Nat) :
    (s.runOutMark r tram).pending = s.pending ∧ (s.runOutMark r tram).time = s.time ∧ (s.runOutMark r tram).windowMs = s.windowMs
     ∧ (s.runOutMark r tram).oldWindows = s.oldWindows ∧ (s.runOutMark r tram).field = s.field
     ∧ (s.runOutMark r tram).freeIdx = s.freeIdx ∧ (s.runOutMark r tram).yard = s.yard ∧ (s.runOutMark r tram).li = s.li
     ∧ (s.runOutMark r tram).fs.free = s.fs.free ∧ (s.runOutMark r tram).fs.inbox = s.fs.inbox
     ∧ (s.runOutMark r tram).fs.active = s.fs.active ∧ (s.runOutMark r tram).fs.handler = s.fs.handler
     ∧ (s.runOutMark r tram).fs.ownFrames = s.fs.ownFrames ∧ (s.runOutMark r tram).fs.holdOff = s.fs.holdOff
     ∧ (s.runOutMark r tram).pt = s.pt ∧ (s.runOutMark r tram).du = s.du ∧ (s.runOutMark r tram).pu = s.pu
     ∧ (s.runOutMark r tram).su = s.su ∧ (s.runOutMark r tram).rq = s.rq ∧ (s.runOutMark r tram).re = s.re
     ∧ (s.runOutMark r tram).ct = s.ct ∧ (s.runOutMark r tram).mi.mem = s.mi.mem ∧ (s.runOutMark r tram).mi.startup = s.mi.startup
     ∧ (s.runOutMark r tram).mi.desc = s.mi.desc := by
  unfold State.runOutMark
  (repeat' split) <;> simp

@[simp] theorem bodyCleared_keeps (s : State) (r : Nat) :
    (s.bodyCleared r).pending = s.pending ∧ (s.bodyCleared r).time = s.time ∧ (s.bodyCleared r).windowMs = s.windowMs
     ∧ (s.bodyCleared r).oldWindows = s.oldWindows ∧ (s.bodyCleared r).field = s.field ∧ (s.bodyCleared r).freeIdx = s.freeIdx
     ∧ (s.bodyCleared r).yard = s.yard ∧ (s.bodyCleared r).li = s.li ∧ (s.bodyCleared r).fs.free = s.fs.free
     ∧ (s.bodyCleared r).fs.inbox = s.fs.inbox ∧ (s.bodyCleared r).fs.active = s.fs.active
     ∧ (s.bodyCleared r).fs.handler = s.fs.handler ∧ (s.bodyCleared r).fs.ownFrames = s.fs.ownFrames
     ∧ (s.bodyCleared r).fs.holdOff = s.fs.holdOff ∧ (s.bodyCleared r).pt = s.pt ∧ (s.bodyCleared r).du = s.du
     ∧ (s.bodyCleared r).pu = s.pu ∧ (s.bodyCleared r).su = s.su ∧ (s.bodyCleared r).rq = s.rq ∧ (s.bodyCleared r).ct = s.ct
     ∧ (s.bodyCleared r).mi.mem = s.mi.mem ∧ (s.bodyCleared r).mi.startup = s.mi.startup ∧ (s.bodyCleared r).mi.desc = s.mi.desc := by
  unfold State.bodyCleared
  (repeat' split) <;> simp

@[simp] theorem bodyOccupied_keeps (s : State) (r : Nat) :
    (s.bodyOccupied r).pending = s.pending ∧ (s.bodyOccupied r).time = s.time ∧ (s.bodyOccupied r).windowMs = s.windowMs
     ∧ (s.bodyOccupied r).oldWindows = s.oldWindows ∧ (s.bodyOccupied r).field = s.field ∧ (s.bodyOccupied r).freeIdx = s.freeIdx
     ∧ (s.bodyOccupied r).yard = s.yard ∧ (s.bodyOccupied r).li = s.li ∧ (s.bodyOccupied r).fs.free = s.fs.free
     ∧ (s.bodyOccupied r).fs.inbox = s.fs.inbox ∧ (s.bodyOccupied r).fs.active = s.fs.active
     ∧ (s.bodyOccupied r).fs.handler = s.fs.handler ∧ (s.bodyOccupied r).fs.ownFrames = s.fs.ownFrames
     ∧ (s.bodyOccupied r).fs.holdOff = s.fs.holdOff ∧ (s.bodyOccupied r).pt = s.pt ∧ (s.bodyOccupied r).du = s.du
     ∧ (s.bodyOccupied r).pu = s.pu ∧ (s.bodyOccupied r).su = s.su ∧ (s.bodyOccupied r).rq = s.rq ∧ (s.bodyOccupied r).re = s.re
     ∧ (s.bodyOccupied r).ct = s.ct ∧ (s.bodyOccupied r).mi.mem = s.mi.mem ∧ (s.bodyOccupied r).mi.startup = s.mi.startup
     ∧ (s.bodyOccupied r).mi.desc = s.mi.desc := by
  unfold State.bodyOccupied
  (repeat' split) <;> simp

@[simp] theorem yuNotice_keeps (s : State) (n : SectNotice) :
    (s.yuNotice n).pending = s.pending ∧ (s.yuNotice n).time = s.time ∧ (s.yuNotice n).windowMs = s.windowMs
     ∧ (s.yuNotice n).oldWindows = s.oldWindows ∧ (s.yuNotice n).field = s.field ∧ (s.yuNotice n).freeIdx = s.freeIdx
     ∧ (s.yuNotice n).yard = s.yard ∧ (s.yuNotice n).li = s.li ∧ (s.yuNotice n).fs.free = s.fs.free
     ∧ (s.yuNotice n).fs.inbox = s.fs.inbox ∧ (s.yuNotice n).fs.active = s.fs.active ∧ (s.yuNotice n).fs.handler = s.fs.handler
     ∧ (s.yuNotice n).fs.ownFrames = s.fs.ownFrames ∧ (s.yuNotice n).fs.holdOff = s.fs.holdOff ∧ (s.yuNotice n).pt = s.pt
     ∧ (s.yuNotice n).du = s.du ∧ (s.yuNotice n).pu = s.pu ∧ (s.yuNotice n).su = s.su ∧ (s.yuNotice n).rq = s.rq
     ∧ (s.yuNotice n).ct = s.ct ∧ (s.yuNotice n).mi.mem = s.mi.mem ∧ (s.yuNotice n).mi.startup = s.mi.startup
     ∧ (s.yuNotice n).mi.desc = s.mi.desc := by
  unfold State.yuNotice
  (repeat' split) <;> simp

@[simp] theorem modArrivalsOf_keeps (s : State) (peer : Nat) (epoch : Epoch) (f : Arrival → Arrival) :
    (s.modArrivalsOf peer epoch f).pending = s.pending ∧ (s.modArrivalsOf peer epoch f).time = s.time
     ∧ (s.modArrivalsOf peer epoch f).windowMs = s.windowMs ∧ (s.modArrivalsOf peer epoch f).oldWindows = s.oldWindows
     ∧ (s.modArrivalsOf peer epoch f).field = s.field ∧ (s.modArrivalsOf peer epoch f).freeIdx = s.freeIdx
     ∧ (s.modArrivalsOf peer epoch f).yard = s.yard ∧ (s.modArrivalsOf peer epoch f).li = s.li
     ∧ (s.modArrivalsOf peer epoch f).fs = s.fs ∧ (s.modArrivalsOf peer epoch f).cnt = s.cnt
     ∧ (s.modArrivalsOf peer epoch f).pt = s.pt ∧ (s.modArrivalsOf peer epoch f).du = s.du
     ∧ (s.modArrivalsOf peer epoch f).pu = s.pu ∧ (s.modArrivalsOf peer epoch f).su = s.su
     ∧ (s.modArrivalsOf peer epoch f).rq = s.rq ∧ (s.modArrivalsOf peer epoch f).re = s.re
     ∧ (s.modArrivalsOf peer epoch f).ct = s.ct ∧ (s.modArrivalsOf peer epoch f).mi = s.mi
     ∧ (s.modArrivalsOf peer epoch f).rp = s.rp := by
  unfold State.modArrivalsOf
  (repeat' split) <;> simp

@[simp] theorem yuLost_keeps (s : State) (peer : Nat) (epoch : Epoch) :
    (s.yuLost peer epoch).pending = s.pending ∧ (s.yuLost peer epoch).time = s.time ∧ (s.yuLost peer epoch).windowMs = s.windowMs
     ∧ (s.yuLost peer epoch).oldWindows = s.oldWindows ∧ (s.yuLost peer epoch).field = s.field
     ∧ (s.yuLost peer epoch).freeIdx = s.freeIdx ∧ (s.yuLost peer epoch).yard = s.yard ∧ (s.yuLost peer epoch).li = s.li
     ∧ (s.yuLost peer epoch).fs = s.fs ∧ (s.yuLost peer epoch).cnt = s.cnt ∧ (s.yuLost peer epoch).pt = s.pt
     ∧ (s.yuLost peer epoch).du = s.du ∧ (s.yuLost peer epoch).pu = s.pu ∧ (s.yuLost peer epoch).su = s.su
     ∧ (s.yuLost peer epoch).rq = s.rq ∧ (s.yuLost peer epoch).re = s.re ∧ (s.yuLost peer epoch).ct = s.ct
     ∧ (s.yuLost peer epoch).mi = s.mi ∧ (s.yuLost peer epoch).rp = s.rp := by
  unfold State.yuLost
  (repeat' split) <;> simp

@[simp] theorem yuReturned_keeps (s : State) (peer : Nat) (epoch : Epoch) :
    (s.yuReturned peer epoch).pending = s.pending ∧ (s.yuReturned peer epoch).time = s.time
     ∧ (s.yuReturned peer epoch).windowMs = s.windowMs ∧ (s.yuReturned peer epoch).oldWindows = s.oldWindows
     ∧ (s.yuReturned peer epoch).field = s.field ∧ (s.yuReturned peer epoch).freeIdx = s.freeIdx
     ∧ (s.yuReturned peer epoch).yard = s.yard ∧ (s.yuReturned peer epoch).li = s.li ∧ (s.yuReturned peer epoch).fs = s.fs
     ∧ (s.yuReturned peer epoch).cnt = s.cnt ∧ (s.yuReturned peer epoch).pt = s.pt ∧ (s.yuReturned peer epoch).du = s.du
     ∧ (s.yuReturned peer epoch).pu = s.pu ∧ (s.yuReturned peer epoch).su = s.su ∧ (s.yuReturned peer epoch).rq = s.rq
     ∧ (s.yuReturned peer epoch).re = s.re ∧ (s.yuReturned peer epoch).ct = s.ct ∧ (s.yuReturned peer epoch).mi = s.mi
     ∧ (s.yuReturned peer epoch).rp = s.rp := by
  unfold State.yuReturned
  simp

@[simp] theorem yuRestarted_keeps (s : State) (peer : Nat) (old : Epoch) :
    (s.yuRestarted peer old).pending = s.pending ∧ (s.yuRestarted peer old).time = s.time
     ∧ (s.yuRestarted peer old).windowMs = s.windowMs ∧ (s.yuRestarted peer old).oldWindows = s.oldWindows
     ∧ (s.yuRestarted peer old).field = s.field ∧ (s.yuRestarted peer old).freeIdx = s.freeIdx
     ∧ (s.yuRestarted peer old).yard = s.yard ∧ (s.yuRestarted peer old).li = s.li ∧ (s.yuRestarted peer old).fs.free = s.fs.free
     ∧ (s.yuRestarted peer old).fs.inbox = s.fs.inbox ∧ (s.yuRestarted peer old).fs.active = s.fs.active
     ∧ (s.yuRestarted peer old).fs.handler = s.fs.handler ∧ (s.yuRestarted peer old).fs.ownFrames = s.fs.ownFrames
     ∧ (s.yuRestarted peer old).fs.holdOff = s.fs.holdOff ∧ (s.yuRestarted peer old).pt = s.pt
     ∧ (s.yuRestarted peer old).du = s.du ∧ (s.yuRestarted peer old).pu = s.pu ∧ (s.yuRestarted peer old).su = s.su
     ∧ (s.yuRestarted peer old).rq = s.rq ∧ (s.yuRestarted peer old).ct = s.ct ∧ (s.yuRestarted peer old).mi = s.mi
     ∧ (s.yuRestarted peer old).rp = s.rp := by
  unfold State.yuRestarted
  simp

@[simp] theorem holdExpiry_keeps (s : State) (r j : Nat) :
    (s.holdExpiry r j).pending = s.pending ∧ (s.holdExpiry r j).time = s.time ∧ (s.holdExpiry r j).windowMs = s.windowMs
     ∧ (s.holdExpiry r j).oldWindows = s.oldWindows ∧ (s.holdExpiry r j).field = s.field ∧ (s.holdExpiry r j).freeIdx = s.freeIdx
     ∧ (s.holdExpiry r j).yard = s.yard ∧ (s.holdExpiry r j).li = s.li ∧ (s.holdExpiry r j).fs.free = s.fs.free
     ∧ (s.holdExpiry r j).fs.inbox = s.fs.inbox ∧ (s.holdExpiry r j).fs.active = s.fs.active
     ∧ (s.holdExpiry r j).fs.handler = s.fs.handler ∧ (s.holdExpiry r j).fs.ownFrames = s.fs.ownFrames
     ∧ (s.holdExpiry r j).fs.holdOff = s.fs.holdOff ∧ (s.holdExpiry r j).pt = s.pt ∧ (s.holdExpiry r j).du = s.du
     ∧ (s.holdExpiry r j).pu = s.pu ∧ (s.holdExpiry r j).su = s.su ∧ (s.holdExpiry r j).rq = s.rq ∧ (s.holdExpiry r j).ct = s.ct
     ∧ (s.holdExpiry r j).mi = s.mi ∧ (s.holdExpiry r j).rp = s.rp := by
  unfold State.holdExpiry
  (repeat' split) <;> simp

@[simp] theorem offerLapse_keeps (s : State) (r : Nat) :
    (s.offerLapse r).pending = s.pending ∧ (s.offerLapse r).time = s.time ∧ (s.offerLapse r).windowMs = s.windowMs
     ∧ (s.offerLapse r).oldWindows = s.oldWindows ∧ (s.offerLapse r).field = s.field ∧ (s.offerLapse r).freeIdx = s.freeIdx
     ∧ (s.offerLapse r).yard = s.yard ∧ (s.offerLapse r).li = s.li ∧ (s.offerLapse r).fs = s.fs ∧ (s.offerLapse r).cnt = s.cnt
     ∧ (s.offerLapse r).pt = s.pt ∧ (s.offerLapse r).du = s.du ∧ (s.offerLapse r).pu = s.pu ∧ (s.offerLapse r).su = s.su
     ∧ (s.offerLapse r).rq = s.rq ∧ (s.offerLapse r).re = s.re ∧ (s.offerLapse r).ct = s.ct ∧ (s.offerLapse r).mi = s.mi
     ∧ (s.offerLapse r).rp = s.rp := by
  unfold State.offerLapse
  (repeat' split) <;> simp

@[simp] theorem yuTakes_keeps (s : State) (m : YuMsg) :
    (s.yuTakes m).pending = s.pending ∧ (s.yuTakes m).time = s.time ∧ (s.yuTakes m).windowMs = s.windowMs
     ∧ (s.yuTakes m).oldWindows = s.oldWindows ∧ (s.yuTakes m).field = s.field ∧ (s.yuTakes m).freeIdx = s.freeIdx
     ∧ (s.yuTakes m).yard = s.yard ∧ (s.yuTakes m).li = s.li ∧ (s.yuTakes m).fs.free = s.fs.free
     ∧ (s.yuTakes m).fs.inbox = s.fs.inbox ∧ (s.yuTakes m).fs.active = s.fs.active ∧ (s.yuTakes m).fs.handler = s.fs.handler
     ∧ (s.yuTakes m).fs.ownFrames = s.fs.ownFrames ∧ (s.yuTakes m).fs.holdOff = s.fs.holdOff ∧ (s.yuTakes m).pt = s.pt
     ∧ (s.yuTakes m).du = s.du ∧ (s.yuTakes m).pu = s.pu ∧ (s.yuTakes m).su = s.su ∧ (s.yuTakes m).rq = s.rq
     ∧ (s.yuTakes m).ct = s.ct ∧ (s.yuTakes m).mi = s.mi ∧ (s.yuTakes m).rp = s.rp := by
  unfold State.yuTakes
  (repeat' split) <;> simp

@[simp] theorem yuTakesAll_keeps (s : State) :
    s.yuTakesAll.pending = s.pending ∧ s.yuTakesAll.time = s.time ∧ s.yuTakesAll.windowMs = s.windowMs
     ∧ s.yuTakesAll.oldWindows = s.oldWindows ∧ s.yuTakesAll.field = s.field ∧ s.yuTakesAll.freeIdx = s.freeIdx
     ∧ s.yuTakesAll.yard = s.yard ∧ s.yuTakesAll.li = s.li ∧ s.yuTakesAll.fs.free = s.fs.free ∧ s.yuTakesAll.fs.inbox = s.fs.inbox
     ∧ s.yuTakesAll.fs.active = s.fs.active ∧ s.yuTakesAll.fs.handler = s.fs.handler ∧ s.yuTakesAll.fs.ownFrames = s.fs.ownFrames
     ∧ s.yuTakesAll.fs.holdOff = s.fs.holdOff ∧ s.yuTakesAll.pt = s.pt ∧ s.yuTakesAll.du = s.du ∧ s.yuTakesAll.pu = s.pu
     ∧ s.yuTakesAll.su = s.su ∧ s.yuTakesAll.rq = s.rq ∧ s.yuTakesAll.ct = s.ct ∧ s.yuTakesAll.mi = s.mi ∧ s.yuTakesAll.rp = s.rp := by
  (repeat' apply And.intro) <;> (unfold State.yuTakesAll; try dsimp only) <;> (repeat' split) <;>
    first | rfl | (simp; done) | simp (disch := (intros; (try dsimp only); (repeat' split) <;> try simp))

@[simp] theorem denyTo_keeps (s : State) (dest : Nat) (key : RouteKey) (reason : DenyReason) (step : Nat) (detail : Option Nat) :
    (s.denyTo dest key reason step detail).pending = s.pending ∧ (s.denyTo dest key reason step detail).time = s.time
     ∧ (s.denyTo dest key reason step detail).windowMs = s.windowMs
     ∧ (s.denyTo dest key reason step detail).oldWindows = s.oldWindows ∧ (s.denyTo dest key reason step detail).field = s.field
     ∧ (s.denyTo dest key reason step detail).freeIdx = s.freeIdx ∧ (s.denyTo dest key reason step detail).yard = s.yard
     ∧ (s.denyTo dest key reason step detail).li = s.li ∧ (s.denyTo dest key reason step detail).fs.free = s.fs.free
     ∧ (s.denyTo dest key reason step detail).fs.inbox = s.fs.inbox
     ∧ (s.denyTo dest key reason step detail).fs.active = s.fs.active
     ∧ (s.denyTo dest key reason step detail).fs.handler = s.fs.handler
     ∧ (s.denyTo dest key reason step detail).fs.ownFrames = s.fs.ownFrames
     ∧ (s.denyTo dest key reason step detail).fs.holdOff = s.fs.holdOff ∧ (s.denyTo dest key reason step detail).pt = s.pt
     ∧ (s.denyTo dest key reason step detail).du = s.du ∧ (s.denyTo dest key reason step detail).pu = s.pu
     ∧ (s.denyTo dest key reason step detail).su = s.su ∧ (s.denyTo dest key reason step detail).rq = s.rq
     ∧ (s.denyTo dest key reason step detail).ct = s.ct ∧ (s.denyTo dest key reason step detail).yu = s.yu
     ∧ (s.denyTo dest key reason step detail).mi = s.mi ∧ (s.denyTo dest key reason step detail).rp = s.rp := by
  unfold State.denyTo
  (repeat' split) <;> simp

@[simp] theorem tellLost_keeps (s : State) (id : Nat) (c : Claim) (cause : LostCause) (point : Option Nat) :
    (s.tellLost id c cause point).pending = s.pending ∧ (s.tellLost id c cause point).time = s.time
     ∧ (s.tellLost id c cause point).windowMs = s.windowMs ∧ (s.tellLost id c cause point).oldWindows = s.oldWindows
     ∧ (s.tellLost id c cause point).field = s.field ∧ (s.tellLost id c cause point).freeIdx = s.freeIdx
     ∧ (s.tellLost id c cause point).yard = s.yard ∧ (s.tellLost id c cause point).li = s.li
     ∧ (s.tellLost id c cause point).fs.free = s.fs.free ∧ (s.tellLost id c cause point).fs.inbox = s.fs.inbox
     ∧ (s.tellLost id c cause point).fs.active = s.fs.active ∧ (s.tellLost id c cause point).fs.handler = s.fs.handler
     ∧ (s.tellLost id c cause point).fs.ownFrames = s.fs.ownFrames ∧ (s.tellLost id c cause point).fs.holdOff = s.fs.holdOff
     ∧ (s.tellLost id c cause point).pt = s.pt ∧ (s.tellLost id c cause point).du = s.du ∧ (s.tellLost id c cause point).pu = s.pu
     ∧ (s.tellLost id c cause point).su = s.su ∧ (s.tellLost id c cause point).rq = s.rq ∧ (s.tellLost id c cause point).yu = s.yu
     ∧ (s.tellLost id c cause point).mi = s.mi ∧ (s.tellLost id c cause point).rp = s.rp := by
  unfold State.tellLost
  simp

@[simp] theorem sendLost_keeps (s : State) (id : Nat) (cause : LostCause) (point : Option Nat) :
    (s.sendLost id cause point).pending = s.pending ∧ (s.sendLost id cause point).time = s.time
     ∧ (s.sendLost id cause point).windowMs = s.windowMs ∧ (s.sendLost id cause point).oldWindows = s.oldWindows
     ∧ (s.sendLost id cause point).field = s.field ∧ (s.sendLost id cause point).freeIdx = s.freeIdx
     ∧ (s.sendLost id cause point).yard = s.yard ∧ (s.sendLost id cause point).li = s.li
     ∧ (s.sendLost id cause point).fs.free = s.fs.free ∧ (s.sendLost id cause point).fs.inbox = s.fs.inbox
     ∧ (s.sendLost id cause point).fs.active = s.fs.active ∧ (s.sendLost id cause point).fs.handler = s.fs.handler
     ∧ (s.sendLost id cause point).fs.ownFrames = s.fs.ownFrames ∧ (s.sendLost id cause point).fs.holdOff = s.fs.holdOff
     ∧ (s.sendLost id cause point).pt = s.pt ∧ (s.sendLost id cause point).du = s.du ∧ (s.sendLost id cause point).pu = s.pu
     ∧ (s.sendLost id cause point).su = s.su ∧ (s.sendLost id cause point).rq = s.rq ∧ (s.sendLost id cause point).yu = s.yu
     ∧ (s.sendLost id cause point).mi = s.mi ∧ (s.sendLost id cause point).rp = s.rp := by
  unfold State.sendLost
  (repeat' split) <;> simp

@[simp] theorem mouthRelease_keeps (s : State) (id : Nat) (c : Claim) (st : ClaimStep) :
    (s.mouthRelease id c st).pending = s.pending ∧ (s.mouthRelease id c st).time = s.time
     ∧ (s.mouthRelease id c st).windowMs = s.windowMs ∧ (s.mouthRelease id c st).oldWindows = s.oldWindows
     ∧ (s.mouthRelease id c st).field = s.field ∧ (s.mouthRelease id c st).freeIdx = s.freeIdx
     ∧ (s.mouthRelease id c st).yard = s.yard ∧ (s.mouthRelease id c st).li = s.li ∧ (s.mouthRelease id c st).fs.free = s.fs.free
     ∧ (s.mouthRelease id c st).fs.inbox = s.fs.inbox ∧ (s.mouthRelease id c st).fs.active = s.fs.active
     ∧ (s.mouthRelease id c st).fs.handler = s.fs.handler ∧ (s.mouthRelease id c st).fs.ownFrames = s.fs.ownFrames
     ∧ (s.mouthRelease id c st).fs.holdOff = s.fs.holdOff ∧ (s.mouthRelease id c st).pt = s.pt
     ∧ (s.mouthRelease id c st).du = s.du ∧ (s.mouthRelease id c st).pu = s.pu ∧ (s.mouthRelease id c st).su = s.su
     ∧ (s.mouthRelease id c st).rq = s.rq ∧ (s.mouthRelease id c st).ct = s.ct ∧ (s.mouthRelease id c st).mi.mem = s.mi.mem
     ∧ (s.mouthRelease id c st).mi.startup = s.mi.startup ∧ (s.mouthRelease id c st).mi.desc = s.mi.desc := by
  unfold State.mouthRelease
  (repeat' split) <;> simp

@[simp] theorem freeIfEmpty_keeps (s : State) (id : Nat) :
    (s.freeIfEmpty id).pending = s.pending ∧ (s.freeIfEmpty id).time = s.time ∧ (s.freeIfEmpty id).windowMs = s.windowMs
     ∧ (s.freeIfEmpty id).oldWindows = s.oldWindows ∧ (s.freeIfEmpty id).field = s.field ∧ (s.freeIfEmpty id).freeIdx = s.freeIdx
     ∧ (s.freeIfEmpty id).yard = s.yard ∧ (s.freeIfEmpty id).li = s.li ∧ (s.freeIfEmpty id).fs = s.fs
     ∧ (s.freeIfEmpty id).cnt = s.cnt ∧ (s.freeIfEmpty id).pt = s.pt ∧ (s.freeIfEmpty id).du = s.du ∧ (s.freeIfEmpty id).pu = s.pu
     ∧ (s.freeIfEmpty id).su = s.su ∧ (s.freeIfEmpty id).rq = s.rq ∧ (s.freeIfEmpty id).re = s.re ∧ (s.freeIfEmpty id).yu = s.yu
     ∧ (s.freeIfEmpty id).mi = s.mi ∧ (s.freeIfEmpty id).rp = s.rp := by
  unfold State.freeIfEmpty
  (repeat' split) <;> simp

@[simp] theorem releaseStep_keeps (s : State) (id i : Nat) (tell : Bool) :
    (s.releaseStep id i tell).pending = s.pending ∧ (s.releaseStep id i tell).time = s.time
     ∧ (s.releaseStep id i tell).windowMs = s.windowMs ∧ (s.releaseStep id i tell).oldWindows = s.oldWindows
     ∧ (s.releaseStep id i tell).field = s.field ∧ (s.releaseStep id i tell).freeIdx = s.freeIdx
     ∧ (s.releaseStep id i tell).yard = s.yard ∧ (s.releaseStep id i tell).li = s.li
     ∧ (s.releaseStep id i tell).fs.free = s.fs.free ∧ (s.releaseStep id i tell).fs.inbox = s.fs.inbox
     ∧ (s.releaseStep id i tell).fs.active = s.fs.active ∧ (s.releaseStep id i tell).fs.handler = s.fs.handler
     ∧ (s.releaseStep id i tell).fs.ownFrames = s.fs.ownFrames ∧ (s.releaseStep id i tell).fs.holdOff = s.fs.holdOff
     ∧ (s.releaseStep id i tell).pt = s.pt ∧ (s.releaseStep id i tell).du = s.du ∧ (s.releaseStep id i tell).su = s.su
     ∧ (s.releaseStep id i tell).rq = s.rq ∧ (s.releaseStep id i tell).mi.mem = s.mi.mem
     ∧ (s.releaseStep id i tell).mi.startup = s.mi.startup ∧ (s.releaseStep id i tell).mi.desc = s.mi.desc := by
  (repeat' apply And.intro) <;> (unfold State.releaseStep; try dsimp only) <;> (repeat' split) <;>
    first | rfl | (simp; done) | simp (disch := (intros; (try dsimp only); (repeat' split) <;> try simp))

@[simp] theorem releaseClear_keeps (s : State) (id : Nat) :
    (s.releaseClear id).pending = s.pending ∧ (s.releaseClear id).time = s.time ∧ (s.releaseClear id).windowMs = s.windowMs
     ∧ (s.releaseClear id).oldWindows = s.oldWindows ∧ (s.releaseClear id).field = s.field
     ∧ (s.releaseClear id).freeIdx = s.freeIdx ∧ (s.releaseClear id).yard = s.yard ∧ (s.releaseClear id).li = s.li
     ∧ (s.releaseClear id).fs.free = s.fs.free ∧ (s.releaseClear id).fs.inbox = s.fs.inbox
     ∧ (s.releaseClear id).fs.active = s.fs.active ∧ (s.releaseClear id).fs.handler = s.fs.handler
     ∧ (s.releaseClear id).fs.ownFrames = s.fs.ownFrames ∧ (s.releaseClear id).fs.holdOff = s.fs.holdOff
     ∧ (s.releaseClear id).pt = s.pt ∧ (s.releaseClear id).du = s.du ∧ (s.releaseClear id).su = s.su
     ∧ (s.releaseClear id).rq = s.rq ∧ (s.releaseClear id).mi.mem = s.mi.mem ∧ (s.releaseClear id).mi.startup = s.mi.startup
     ∧ (s.releaseClear id).mi.desc = s.mi.desc := by
  (repeat' apply And.intro) <;> (unfold State.releaseClear; try dsimp only) <;> (repeat' split) <;>
    first | rfl | (simp; done) | simp (disch := (intros; (try dsimp only); (repeat' split) <;> try simp))

@[simp] theorem releaseAll_keeps (s : State) (id : Nat) :
    (s.releaseAll id).pending = s.pending ∧ (s.releaseAll id).time = s.time ∧ (s.releaseAll id).windowMs = s.windowMs
     ∧ (s.releaseAll id).oldWindows = s.oldWindows ∧ (s.releaseAll id).field = s.field ∧ (s.releaseAll id).freeIdx = s.freeIdx
     ∧ (s.releaseAll id).yard = s.yard ∧ (s.releaseAll id).li = s.li ∧ (s.releaseAll id).fs.free = s.fs.free
     ∧ (s.releaseAll id).fs.inbox = s.fs.inbox ∧ (s.releaseAll id).fs.active = s.fs.active
     ∧ (s.releaseAll id).fs.handler = s.fs.handler ∧ (s.releaseAll id).fs.ownFrames = s.fs.ownFrames
     ∧ (s.releaseAll id).fs.holdOff = s.fs.holdOff ∧ (s.releaseAll id).pt = s.pt ∧ (s.releaseAll id).du = s.du
     ∧ (s.releaseAll id).su = s.su ∧ (s.releaseAll id).rq = s.rq ∧ (s.releaseAll id).mi.mem = s.mi.mem
     ∧ (s.releaseAll id).mi.startup = s.mi.startup ∧ (s.releaseAll id).mi.desc = s.mi.desc := by
  (repeat' apply And.intro) <;> (unfold State.releaseAll; try dsimp only) <;> (repeat' split) <;>
    first | rfl | (simp; done) | simp (disch := (intros; (try dsimp only); (repeat' split) <;> try simp))

@[simp] theorem windDown_keeps (s : State) (id : Nat) :
    (s.windDown id).pending = s.pending ∧ (s.windDown id).time = s.time ∧ (s.windDown id).windowMs = s.windowMs
     ∧ (s.windDown id).oldWindows = s.oldWindows ∧ (s.windDown id).field = s.field ∧ (s.windDown id).freeIdx = s.freeIdx
     ∧ (s.windDown id).yard = s.yard ∧ (s.windDown id).li = s.li ∧ (s.windDown id).fs.free = s.fs.free
     ∧ (s.windDown id).fs.inbox = s.fs.inbox ∧ (s.windDown id).fs.active = s.fs.active ∧ (s.windDown id).fs.handler = s.fs.handler
     ∧ (s.windDown id).fs.ownFrames = s.fs.ownFrames ∧ (s.windDown id).fs.holdOff = s.fs.holdOff ∧ (s.windDown id).pt = s.pt
     ∧ (s.windDown id).du = s.du ∧ (s.windDown id).su = s.su ∧ (s.windDown id).rq = s.rq ∧ (s.windDown id).mi.mem = s.mi.mem
     ∧ (s.windDown id).mi.startup = s.mi.startup ∧ (s.windDown id).mi.desc = s.mi.desc := by
  unfold State.windDown
  (repeat' split) <;> simp

@[simp] theorem examineStep_keeps (s : State) (id i : Nat) :
    (s.examineStep id i).pending = s.pending ∧ (s.examineStep id i).time = s.time ∧ (s.examineStep id i).windowMs = s.windowMs
     ∧ (s.examineStep id i).oldWindows = s.oldWindows ∧ (s.examineStep id i).field = s.field
     ∧ (s.examineStep id i).freeIdx = s.freeIdx ∧ (s.examineStep id i).yard = s.yard ∧ (s.examineStep id i).li = s.li
     ∧ (s.examineStep id i).fs.free = s.fs.free ∧ (s.examineStep id i).fs.inbox = s.fs.inbox
     ∧ (s.examineStep id i).fs.active = s.fs.active ∧ (s.examineStep id i).fs.handler = s.fs.handler
     ∧ (s.examineStep id i).fs.ownFrames = s.fs.ownFrames ∧ (s.examineStep id i).fs.holdOff = s.fs.holdOff
     ∧ (s.examineStep id i).pt = s.pt ∧ (s.examineStep id i).du = s.du ∧ (s.examineStep id i).su = s.su
     ∧ (s.examineStep id i).rq = s.rq ∧ (s.examineStep id i).mi.mem = s.mi.mem ∧ (s.examineStep id i).mi.startup = s.mi.startup
     ∧ (s.examineStep id i).mi.desc = s.mi.desc := by
  unfold State.examineStep
  (repeat' split) <;> simp

@[simp] theorem examineAll_keeps (s : State) (id : Nat) :
    (s.examineAll id).pending = s.pending ∧ (s.examineAll id).time = s.time ∧ (s.examineAll id).windowMs = s.windowMs
     ∧ (s.examineAll id).oldWindows = s.oldWindows ∧ (s.examineAll id).field = s.field ∧ (s.examineAll id).freeIdx = s.freeIdx
     ∧ (s.examineAll id).yard = s.yard ∧ (s.examineAll id).li = s.li ∧ (s.examineAll id).fs.free = s.fs.free
     ∧ (s.examineAll id).fs.inbox = s.fs.inbox ∧ (s.examineAll id).fs.active = s.fs.active
     ∧ (s.examineAll id).fs.handler = s.fs.handler ∧ (s.examineAll id).fs.ownFrames = s.fs.ownFrames
     ∧ (s.examineAll id).fs.holdOff = s.fs.holdOff ∧ (s.examineAll id).pt = s.pt ∧ (s.examineAll id).du = s.du
     ∧ (s.examineAll id).su = s.su ∧ (s.examineAll id).rq = s.rq ∧ (s.examineAll id).mi.mem = s.mi.mem
     ∧ (s.examineAll id).mi.startup = s.mi.startup ∧ (s.examineAll id).mi.desc = s.mi.desc := by
  (repeat' apply And.intro) <;> (unfold State.examineAll; try dsimp only) <;> (repeat' split) <;>
    first | rfl | (simp; done) | simp (disch := (intros; (try dsimp only); (repeat' split) <;> try simp))

@[simp] theorem seenOccupied_keeps (s : State) (id i : Nat) :
    (s.seenOccupied id i).pending = s.pending ∧ (s.seenOccupied id i).time = s.time ∧ (s.seenOccupied id i).windowMs = s.windowMs
     ∧ (s.seenOccupied id i).oldWindows = s.oldWindows ∧ (s.seenOccupied id i).field = s.field
     ∧ (s.seenOccupied id i).freeIdx = s.freeIdx ∧ (s.seenOccupied id i).yard = s.yard ∧ (s.seenOccupied id i).li = s.li
     ∧ (s.seenOccupied id i).fs.free = s.fs.free ∧ (s.seenOccupied id i).fs.inbox = s.fs.inbox
     ∧ (s.seenOccupied id i).fs.active = s.fs.active ∧ (s.seenOccupied id i).fs.handler = s.fs.handler
     ∧ (s.seenOccupied id i).fs.ownFrames = s.fs.ownFrames ∧ (s.seenOccupied id i).fs.holdOff = s.fs.holdOff
     ∧ (s.seenOccupied id i).pt = s.pt ∧ (s.seenOccupied id i).du = s.du ∧ (s.seenOccupied id i).su = s.su
     ∧ (s.seenOccupied id i).rq = s.rq ∧ (s.seenOccupied id i).mi.mem = s.mi.mem ∧ (s.seenOccupied id i).mi.startup = s.mi.startup
     ∧ (s.seenOccupied id i).mi.desc = s.mi.desc := by
  (repeat' apply And.intro) <;> (unfold State.seenOccupied; try dsimp only) <;> (repeat' split) <;>
    first | rfl | (simp; done) | simp

@[simp] theorem sectionCleared_keeps (s : State) (id i : Nat) :
    (s.sectionCleared id i).pending = s.pending ∧ (s.sectionCleared id i).time = s.time
     ∧ (s.sectionCleared id i).windowMs = s.windowMs ∧ (s.sectionCleared id i).oldWindows = s.oldWindows
     ∧ (s.sectionCleared id i).field = s.field ∧ (s.sectionCleared id i).freeIdx = s.freeIdx
     ∧ (s.sectionCleared id i).yard = s.yard ∧ (s.sectionCleared id i).li = s.li ∧ (s.sectionCleared id i).fs.free = s.fs.free
     ∧ (s.sectionCleared id i).fs.inbox = s.fs.inbox ∧ (s.sectionCleared id i).fs.active = s.fs.active
     ∧ (s.sectionCleared id i).fs.handler = s.fs.handler ∧ (s.sectionCleared id i).fs.ownFrames = s.fs.ownFrames
     ∧ (s.sectionCleared id i).fs.holdOff = s.fs.holdOff ∧ (s.sectionCleared id i).pt = s.pt ∧ (s.sectionCleared id i).du = s.du
     ∧ (s.sectionCleared id i).su = s.su ∧ (s.sectionCleared id i).rq = s.rq ∧ (s.sectionCleared id i).mi.mem = s.mi.mem
     ∧ (s.sectionCleared id i).mi.startup = s.mi.startup ∧ (s.sectionCleared id i).mi.desc = s.mi.desc := by
  unfold State.sectionCleared
  (repeat' split) <;> simp

@[simp] theorem ctNotice_keeps (s : State) (n : SectNotice) :
    (s.ctNotice n).pending = s.pending ∧ (s.ctNotice n).time = s.time ∧ (s.ctNotice n).windowMs = s.windowMs
     ∧ (s.ctNotice n).oldWindows = s.oldWindows ∧ (s.ctNotice n).field = s.field ∧ (s.ctNotice n).freeIdx = s.freeIdx
     ∧ (s.ctNotice n).yard = s.yard ∧ (s.ctNotice n).li = s.li ∧ (s.ctNotice n).fs.free = s.fs.free
     ∧ (s.ctNotice n).fs.inbox = s.fs.inbox ∧ (s.ctNotice n).fs.active = s.fs.active ∧ (s.ctNotice n).fs.handler = s.fs.handler
     ∧ (s.ctNotice n).fs.ownFrames = s.fs.ownFrames ∧ (s.ctNotice n).fs.holdOff = s.fs.holdOff ∧ (s.ctNotice n).pt = s.pt
     ∧ (s.ctNotice n).du = s.du ∧ (s.ctNotice n).su = s.su ∧ (s.ctNotice n).rq = s.rq ∧ (s.ctNotice n).mi.mem = s.mi.mem
     ∧ (s.ctNotice n).mi.startup = s.mi.startup ∧ (s.ctNotice n).mi.desc = s.mi.desc := by
  unfold State.ctNotice
  (repeat' split) <;> simp

@[simp] theorem grantClaim_keeps (s : State) (req : ClaimReq) (cls : RouteClass) (id : Nat) (free : List Nat) :
    (s.grantClaim req cls id free).pending = s.pending ∧ (s.grantClaim req cls id free).time = s.time
     ∧ (s.grantClaim req cls id free).windowMs = s.windowMs ∧ (s.grantClaim req cls id free).oldWindows = s.oldWindows
     ∧ (s.grantClaim req cls id free).field = s.field ∧ (s.grantClaim req cls id free).freeIdx = s.freeIdx
     ∧ (s.grantClaim req cls id free).yard = s.yard ∧ (s.grantClaim req cls id free).li = s.li
     ∧ (s.grantClaim req cls id free).fs.free = s.fs.free ∧ (s.grantClaim req cls id free).fs.inbox = s.fs.inbox
     ∧ (s.grantClaim req cls id free).fs.active = s.fs.active ∧ (s.grantClaim req cls id free).fs.handler = s.fs.handler
     ∧ (s.grantClaim req cls id free).fs.ownFrames = s.fs.ownFrames ∧ (s.grantClaim req cls id free).fs.holdOff = s.fs.holdOff
     ∧ (s.grantClaim req cls id free).pt = s.pt ∧ (s.grantClaim req cls id free).du = s.du
     ∧ (s.grantClaim req cls id free).pu = s.pu ∧ (s.grantClaim req cls id free).su = s.su
     ∧ (s.grantClaim req cls id free).rq = s.rq ∧ (s.grantClaim req cls id free).mi = s.mi
     ∧ (s.grantClaim req cls id free).rp = s.rp := by
  (repeat' apply And.intro) <;> (unfold State.grantClaim; try dsimp only) <;> (repeat' split) <;>
    first | rfl | (simp; done) | simp

@[simp] theorem finishClaim_keeps (s : State) (req : ClaimReq) (cls : RouteClass) :
    (s.finishClaim req cls).pending = s.pending ∧ (s.finishClaim req cls).time = s.time
     ∧ (s.finishClaim req cls).windowMs = s.windowMs ∧ (s.finishClaim req cls).oldWindows = s.oldWindows
     ∧ (s.finishClaim req cls).field = s.field ∧ (s.finishClaim req cls).freeIdx = s.freeIdx
     ∧ (s.finishClaim req cls).yard = s.yard ∧ (s.finishClaim req cls).li = s.li ∧ (s.finishClaim req cls).fs.free = s.fs.free
     ∧ (s.finishClaim req cls).fs.inbox = s.fs.inbox ∧ (s.finishClaim req cls).fs.active = s.fs.active
     ∧ (s.finishClaim req cls).fs.handler = s.fs.handler ∧ (s.finishClaim req cls).fs.ownFrames = s.fs.ownFrames
     ∧ (s.finishClaim req cls).fs.holdOff = s.fs.holdOff ∧ (s.finishClaim req cls).pt = s.pt ∧ (s.finishClaim req cls).du = s.du
     ∧ (s.finishClaim req cls).pu = s.pu ∧ (s.finishClaim req cls).su = s.su ∧ (s.finishClaim req cls).rq = s.rq
     ∧ (s.finishClaim req cls).mi = s.mi ∧ (s.finishClaim req cls).rp = s.rp := by
  unfold State.finishClaim
  (repeat' split) <;> simp

@[simp] theorem checkSteps_keeps (s : State) (req : ClaimReq) :
    (s.checkSteps req).pending = s.pending ∧ (s.checkSteps req).time = s.time ∧ (s.checkSteps req).windowMs = s.windowMs
     ∧ (s.checkSteps req).oldWindows = s.oldWindows ∧ (s.checkSteps req).field = s.field ∧ (s.checkSteps req).freeIdx = s.freeIdx
     ∧ (s.checkSteps req).yard = s.yard ∧ (s.checkSteps req).li = s.li ∧ (s.checkSteps req).fs.free = s.fs.free
     ∧ (s.checkSteps req).fs.inbox = s.fs.inbox ∧ (s.checkSteps req).fs.active = s.fs.active
     ∧ (s.checkSteps req).fs.handler = s.fs.handler ∧ (s.checkSteps req).fs.ownFrames = s.fs.ownFrames
     ∧ (s.checkSteps req).fs.holdOff = s.fs.holdOff ∧ (s.checkSteps req).pt = s.pt ∧ (s.checkSteps req).du = s.du
     ∧ (s.checkSteps req).pu = s.pu ∧ (s.checkSteps req).su = s.su ∧ (s.checkSteps req).rq = s.rq ∧ (s.checkSteps req).mi = s.mi
     ∧ (s.checkSteps req).rp = s.rp := by
  unfold State.checkSteps
  (repeat' split) <;> simp

@[simp] theorem checkEarlier_keeps (s : State) (req : ClaimReq) :
    (s.checkEarlier req).pending = s.pending ∧ (s.checkEarlier req).time = s.time ∧ (s.checkEarlier req).windowMs = s.windowMs
     ∧ (s.checkEarlier req).oldWindows = s.oldWindows ∧ (s.checkEarlier req).field = s.field
     ∧ (s.checkEarlier req).freeIdx = s.freeIdx ∧ (s.checkEarlier req).yard = s.yard ∧ (s.checkEarlier req).li = s.li
     ∧ (s.checkEarlier req).fs.free = s.fs.free ∧ (s.checkEarlier req).fs.inbox = s.fs.inbox
     ∧ (s.checkEarlier req).fs.active = s.fs.active ∧ (s.checkEarlier req).fs.handler = s.fs.handler
     ∧ (s.checkEarlier req).fs.ownFrames = s.fs.ownFrames ∧ (s.checkEarlier req).fs.holdOff = s.fs.holdOff
     ∧ (s.checkEarlier req).pt = s.pt ∧ (s.checkEarlier req).du = s.du ∧ (s.checkEarlier req).su = s.su
     ∧ (s.checkEarlier req).rq = s.rq ∧ (s.checkEarlier req).mi.mem = s.mi.mem ∧ (s.checkEarlier req).mi.startup = s.mi.startup
     ∧ (s.checkEarlier req).mi.desc = s.mi.desc := by
  (repeat' apply And.intro) <;> (unfold State.checkEarlier; try dsimp only) <;> (repeat' split) <;>
    first | rfl | (simp; done) | simp (disch := (intros; (try dsimp only); (repeat' split) <;> try simp))

@[simp] theorem evaluateClaim_keeps (s : State) (req : ClaimReq) (rx : Option RxRec) :
    (s.evaluateClaim req rx).pending = s.pending ∧ (s.evaluateClaim req rx).time = s.time
     ∧ (s.evaluateClaim req rx).windowMs = s.windowMs ∧ (s.evaluateClaim req rx).oldWindows = s.oldWindows
     ∧ (s.evaluateClaim req rx).field = s.field ∧ (s.evaluateClaim req rx).freeIdx = s.freeIdx
     ∧ (s.evaluateClaim req rx).yard = s.yard ∧ (s.evaluateClaim req rx).li = s.li ∧ (s.evaluateClaim req rx).fs.free = s.fs.free
     ∧ (s.evaluateClaim req rx).fs.inbox = s.fs.inbox ∧ (s.evaluateClaim req rx).fs.active = s.fs.active
     ∧ (s.evaluateClaim req rx).fs.handler = s.fs.handler ∧ (s.evaluateClaim req rx).fs.ownFrames = s.fs.ownFrames
     ∧ (s.evaluateClaim req rx).fs.holdOff = s.fs.holdOff ∧ (s.evaluateClaim req rx).pt = s.pt
     ∧ (s.evaluateClaim req rx).du = s.du ∧ (s.evaluateClaim req rx).su = s.su ∧ (s.evaluateClaim req rx).rq = s.rq
     ∧ (s.evaluateClaim req rx).mi.mem = s.mi.mem ∧ (s.evaluateClaim req rx).mi.startup = s.mi.startup
     ∧ (s.evaluateClaim req rx).mi.desc = s.mi.desc := by
  unfold State.evaluateClaim
  (repeat' split) <;> simp

@[simp] theorem sendSetFail_keeps (s : State) (key : RouteKey) (point : Option Nat) (cause : SetFailCause) :
    (s.sendSetFail key point cause).pending = s.pending ∧ (s.sendSetFail key point cause).time = s.time
     ∧ (s.sendSetFail key point cause).windowMs = s.windowMs ∧ (s.sendSetFail key point cause).oldWindows = s.oldWindows
     ∧ (s.sendSetFail key point cause).field = s.field ∧ (s.sendSetFail key point cause).freeIdx = s.freeIdx
     ∧ (s.sendSetFail key point cause).yard = s.yard ∧ (s.sendSetFail key point cause).li = s.li
     ∧ (s.sendSetFail key point cause).fs.free = s.fs.free ∧ (s.sendSetFail key point cause).fs.inbox = s.fs.inbox
     ∧ (s.sendSetFail key point cause).fs.active = s.fs.active ∧ (s.sendSetFail key point cause).fs.handler = s.fs.handler
     ∧ (s.sendSetFail key point cause).fs.ownFrames = s.fs.ownFrames ∧ (s.sendSetFail key point cause).fs.holdOff = s.fs.holdOff
     ∧ (s.sendSetFail key point cause).pt = s.pt ∧ (s.sendSetFail key point cause).du = s.du
     ∧ (s.sendSetFail key point cause).pu = s.pu ∧ (s.sendSetFail key point cause).su = s.su
     ∧ (s.sendSetFail key point cause).rq = s.rq ∧ (s.sendSetFail key point cause).ct = s.ct
     ∧ (s.sendSetFail key point cause).yu = s.yu ∧ (s.sendSetFail key point cause).mi = s.mi
     ∧ (s.sendSetFail key point cause).rp = s.rp := by
  unfold State.sendSetFail
  simp

@[simp] theorem enterOrphaned_keeps (s : State) (id : Nat) :
    (s.enterOrphaned id).pending = s.pending ∧ (s.enterOrphaned id).time = s.time ∧ (s.enterOrphaned id).windowMs = s.windowMs
     ∧ (s.enterOrphaned id).oldWindows = s.oldWindows ∧ (s.enterOrphaned id).field = s.field
     ∧ (s.enterOrphaned id).freeIdx = s.freeIdx ∧ (s.enterOrphaned id).yard = s.yard ∧ (s.enterOrphaned id).li = s.li
     ∧ (s.enterOrphaned id).fs = s.fs ∧ (s.enterOrphaned id).pt = s.pt ∧ (s.enterOrphaned id).du = s.du
     ∧ (s.enterOrphaned id).pu = s.pu ∧ (s.enterOrphaned id).su = s.su ∧ (s.enterOrphaned id).rq = s.rq
     ∧ (s.enterOrphaned id).re = s.re ∧ (s.enterOrphaned id).yu = s.yu ∧ (s.enterOrphaned id).mi = s.mi
     ∧ (s.enterOrphaned id).rp = s.rp := by
  unfold State.enterOrphaned
  (repeat' split) <;> simp

@[simp] theorem endPermissions_keeps (s : State) (c : Claim) :
    (s.endPermissions c).pending = s.pending ∧ (s.endPermissions c).time = s.time ∧ (s.endPermissions c).windowMs = s.windowMs
     ∧ (s.endPermissions c).oldWindows = s.oldWindows ∧ (s.endPermissions c).field = s.field
     ∧ (s.endPermissions c).freeIdx = s.freeIdx ∧ (s.endPermissions c).yard = s.yard ∧ (s.endPermissions c).li = s.li
     ∧ (s.endPermissions c).fs = s.fs ∧ (s.endPermissions c).cnt = s.cnt ∧ (s.endPermissions c).pt = s.pt
     ∧ (s.endPermissions c).du = s.du ∧ (s.endPermissions c).su = s.su ∧ (s.endPermissions c).rq = s.rq
     ∧ (s.endPermissions c).re = s.re ∧ (s.endPermissions c).ct = s.ct ∧ (s.endPermissions c).yu = s.yu
     ∧ (s.endPermissions c).mi = s.mi ∧ (s.endPermissions c).rp = s.rp := by
  (repeat' apply And.intro) <;> (unfold State.endPermissions; try dsimp only) <;> (repeat' split) <;>
    first | rfl | (simp; done) | simp (disch := (intros; (try dsimp only); (repeat' split) <;> try simp))

@[simp] theorem leaveSetting_keeps (s : State) (id : Nat) :
    (s.leaveSetting id).pending = s.pending ∧ (s.leaveSetting id).time = s.time ∧ (s.leaveSetting id).windowMs = s.windowMs
     ∧ (s.leaveSetting id).oldWindows = s.oldWindows ∧ (s.leaveSetting id).field = s.field
     ∧ (s.leaveSetting id).freeIdx = s.freeIdx ∧ (s.leaveSetting id).yard = s.yard ∧ (s.leaveSetting id).li = s.li
     ∧ (s.leaveSetting id).fs.free = s.fs.free ∧ (s.leaveSetting id).fs.inbox = s.fs.inbox
     ∧ (s.leaveSetting id).fs.active = s.fs.active ∧ (s.leaveSetting id).fs.handler = s.fs.handler
     ∧ (s.leaveSetting id).fs.ownFrames = s.fs.ownFrames ∧ (s.leaveSetting id).fs.holdOff = s.fs.holdOff
     ∧ (s.leaveSetting id).pt = s.pt ∧ (s.leaveSetting id).du = s.du ∧ (s.leaveSetting id).su = s.su
     ∧ (s.leaveSetting id).rq = s.rq ∧ (s.leaveSetting id).mi.mem = s.mi.mem ∧ (s.leaveSetting id).mi.startup = s.mi.startup
     ∧ (s.leaveSetting id).mi.desc = s.mi.desc := by
  unfold State.leaveSetting
  (repeat' split) <;> simp

@[simp] theorem enterSetting_keeps (s : State) (id : Nat) (c : Claim) :
    (s.enterSetting id c).pending = s.pending ∧ (s.enterSetting id c).time = s.time ∧ (s.enterSetting id c).windowMs = s.windowMs
     ∧ (s.enterSetting id c).oldWindows = s.oldWindows ∧ (s.enterSetting id c).field = s.field
     ∧ (s.enterSetting id c).freeIdx = s.freeIdx ∧ (s.enterSetting id c).yard = s.yard ∧ (s.enterSetting id c).li = s.li
     ∧ (s.enterSetting id c).fs.free = s.fs.free ∧ (s.enterSetting id c).fs.inbox = s.fs.inbox
     ∧ (s.enterSetting id c).fs.active = s.fs.active ∧ (s.enterSetting id c).fs.handler = s.fs.handler
     ∧ (s.enterSetting id c).fs.ownFrames = s.fs.ownFrames ∧ (s.enterSetting id c).fs.holdOff = s.fs.holdOff
     ∧ (s.enterSetting id c).pt = s.pt ∧ (s.enterSetting id c).du = s.du ∧ (s.enterSetting id c).su = s.su
     ∧ (s.enterSetting id c).rq = s.rq ∧ (s.enterSetting id c).mi.mem = s.mi.mem ∧ (s.enterSetting id c).mi.startup = s.mi.startup
     ∧ (s.enterSetting id c).mi.desc = s.mi.desc := by
  unfold State.enterSetting
  (repeat' split) <;> first | rfl | (simp; done) | simp (disch := (intros; (try dsimp only); (repeat' split) <;> try simp))

@[simp] theorem setReserved_keeps (s : State) (id : Nat) (c : Claim) :
    (s.setReserved id c).pending = s.pending ∧ (s.setReserved id c).time = s.time ∧ (s.setReserved id c).windowMs = s.windowMs
     ∧ (s.setReserved id c).oldWindows = s.oldWindows ∧ (s.setReserved id c).field = s.field
     ∧ (s.setReserved id c).freeIdx = s.freeIdx ∧ (s.setReserved id c).yard = s.yard ∧ (s.setReserved id c).li = s.li
     ∧ (s.setReserved id c).fs.free = s.fs.free ∧ (s.setReserved id c).fs.inbox = s.fs.inbox
     ∧ (s.setReserved id c).fs.active = s.fs.active ∧ (s.setReserved id c).fs.handler = s.fs.handler
     ∧ (s.setReserved id c).fs.ownFrames = s.fs.ownFrames ∧ (s.setReserved id c).fs.holdOff = s.fs.holdOff
     ∧ (s.setReserved id c).pt = s.pt ∧ (s.setReserved id c).du = s.du ∧ (s.setReserved id c).su = s.su
     ∧ (s.setReserved id c).rq = s.rq ∧ (s.setReserved id c).mi.mem = s.mi.mem ∧ (s.setReserved id c).mi.startup = s.mi.startup
     ∧ (s.setReserved id c).mi.desc = s.mi.desc := by
  unfold State.setReserved
  (repeat' split) <;> simp

@[simp] theorem takeSet_keeps (s : State) (key : RouteKey) :
    (s.takeSet key).pending = s.pending ∧ (s.takeSet key).time = s.time ∧ (s.takeSet key).windowMs = s.windowMs
     ∧ (s.takeSet key).oldWindows = s.oldWindows ∧ (s.takeSet key).field = s.field ∧ (s.takeSet key).freeIdx = s.freeIdx
     ∧ (s.takeSet key).yard = s.yard ∧ (s.takeSet key).li = s.li ∧ (s.takeSet key).fs.free = s.fs.free
     ∧ (s.takeSet key).fs.inbox = s.fs.inbox ∧ (s.takeSet key).fs.active = s.fs.active ∧ (s.takeSet key).fs.handler = s.fs.handler
     ∧ (s.takeSet key).fs.ownFrames = s.fs.ownFrames ∧ (s.takeSet key).fs.holdOff = s.fs.holdOff ∧ (s.takeSet key).pt = s.pt
     ∧ (s.takeSet key).du = s.du ∧ (s.takeSet key).su = s.su ∧ (s.takeSet key).rq = s.rq ∧ (s.takeSet key).mi.mem = s.mi.mem
     ∧ (s.takeSet key).mi.startup = s.mi.startup ∧ (s.takeSet key).mi.desc = s.mi.desc := by
  unfold State.takeSet
  (repeat' split) <;> simp

@[simp] theorem answerOrder_keeps (s : State) (id p : Nat) :
    (s.answerOrder id p).pending = s.pending ∧ (s.answerOrder id p).time = s.time ∧ (s.answerOrder id p).windowMs = s.windowMs
     ∧ (s.answerOrder id p).oldWindows = s.oldWindows ∧ (s.answerOrder id p).field = s.field
     ∧ (s.answerOrder id p).freeIdx = s.freeIdx ∧ (s.answerOrder id p).yard = s.yard ∧ (s.answerOrder id p).li = s.li
     ∧ (s.answerOrder id p).fs.free = s.fs.free ∧ (s.answerOrder id p).fs.inbox = s.fs.inbox
     ∧ (s.answerOrder id p).fs.active = s.fs.active ∧ (s.answerOrder id p).fs.handler = s.fs.handler
     ∧ (s.answerOrder id p).fs.ownFrames = s.fs.ownFrames ∧ (s.answerOrder id p).fs.holdOff = s.fs.holdOff
     ∧ (s.answerOrder id p).pt = s.pt ∧ (s.answerOrder id p).du = s.du ∧ (s.answerOrder id p).su = s.su
     ∧ (s.answerOrder id p).rq = s.rq ∧ (s.answerOrder id p).mi.mem = s.mi.mem ∧ (s.answerOrder id p).mi.startup = s.mi.startup
     ∧ (s.answerOrder id p).mi.desc = s.mi.desc := by
  (repeat' apply And.intro) <;> (unfold State.answerOrder; try dsimp only) <;> (repeat' split) <;>
    first | rfl | (simp; done) | simp

@[simp] theorem ctMoveDone_keeps (s : State) (p : Nat) :
    (s.ctMoveDone p).pending = s.pending ∧ (s.ctMoveDone p).time = s.time ∧ (s.ctMoveDone p).windowMs = s.windowMs
     ∧ (s.ctMoveDone p).oldWindows = s.oldWindows ∧ (s.ctMoveDone p).field = s.field ∧ (s.ctMoveDone p).freeIdx = s.freeIdx
     ∧ (s.ctMoveDone p).yard = s.yard ∧ (s.ctMoveDone p).li = s.li ∧ (s.ctMoveDone p).fs.free = s.fs.free
     ∧ (s.ctMoveDone p).fs.inbox = s.fs.inbox ∧ (s.ctMoveDone p).fs.active = s.fs.active
     ∧ (s.ctMoveDone p).fs.handler = s.fs.handler ∧ (s.ctMoveDone p).fs.ownFrames = s.fs.ownFrames
     ∧ (s.ctMoveDone p).fs.holdOff = s.fs.holdOff ∧ (s.ctMoveDone p).pt = s.pt ∧ (s.ctMoveDone p).du = s.du
     ∧ (s.ctMoveDone p).su = s.su ∧ (s.ctMoveDone p).rq = s.rq ∧ (s.ctMoveDone p).mi.mem = s.mi.mem
     ∧ (s.ctMoveDone p).mi.startup = s.mi.startup ∧ (s.ctMoveDone p).mi.desc = s.mi.desc := by
  unfold State.ctMoveDone
  (repeat' split) <;> simp

@[simp] theorem ctMoveFail_keeps (s : State) (p : Nat) (cause : MoveCause) :
    (s.ctMoveFail p cause).pending = s.pending ∧ (s.ctMoveFail p cause).time = s.time
     ∧ (s.ctMoveFail p cause).windowMs = s.windowMs ∧ (s.ctMoveFail p cause).oldWindows = s.oldWindows
     ∧ (s.ctMoveFail p cause).field = s.field ∧ (s.ctMoveFail p cause).freeIdx = s.freeIdx ∧ (s.ctMoveFail p cause).yard = s.yard
     ∧ (s.ctMoveFail p cause).li = s.li ∧ (s.ctMoveFail p cause).fs.free = s.fs.free
     ∧ (s.ctMoveFail p cause).fs.inbox = s.fs.inbox ∧ (s.ctMoveFail p cause).fs.active = s.fs.active
     ∧ (s.ctMoveFail p cause).fs.handler = s.fs.handler ∧ (s.ctMoveFail p cause).fs.ownFrames = s.fs.ownFrames
     ∧ (s.ctMoveFail p cause).fs.holdOff = s.fs.holdOff ∧ (s.ctMoveFail p cause).pt = s.pt ∧ (s.ctMoveFail p cause).du = s.du
     ∧ (s.ctMoveFail p cause).su = s.su ∧ (s.ctMoveFail p cause).rq = s.rq ∧ (s.ctMoveFail p cause).mi.mem = s.mi.mem
     ∧ (s.ctMoveFail p cause).mi.startup = s.mi.startup ∧ (s.ctMoveFail p cause).mi.desc = s.mi.desc := by
  unfold State.ctMoveFail
  (repeat' split) <;> simp

@[simp] theorem losePoint_keeps (s : State) (id p : Nat) (c : Claim) :
    (s.losePoint id p c).pending = s.pending ∧ (s.losePoint id p c).time = s.time ∧ (s.losePoint id p c).windowMs = s.windowMs
     ∧ (s.losePoint id p c).oldWindows = s.oldWindows ∧ (s.losePoint id p c).field = s.field
     ∧ (s.losePoint id p c).freeIdx = s.freeIdx ∧ (s.losePoint id p c).yard = s.yard ∧ (s.losePoint id p c).li = s.li
     ∧ (s.losePoint id p c).fs.free = s.fs.free ∧ (s.losePoint id p c).fs.inbox = s.fs.inbox
     ∧ (s.losePoint id p c).fs.active = s.fs.active ∧ (s.losePoint id p c).fs.handler = s.fs.handler
     ∧ (s.losePoint id p c).fs.ownFrames = s.fs.ownFrames ∧ (s.losePoint id p c).fs.holdOff = s.fs.holdOff
     ∧ (s.losePoint id p c).pt = s.pt ∧ (s.losePoint id p c).du = s.du ∧ (s.losePoint id p c).pu = s.pu
     ∧ (s.losePoint id p c).su = s.su ∧ (s.losePoint id p c).rq = s.rq ∧ (s.losePoint id p c).yu = s.yu
     ∧ (s.losePoint id p c).mi = s.mi ∧ (s.losePoint id p c).rp = s.rp := by
  unfold State.losePoint
  (repeat' split) <;> simp

@[simp] theorem ctDetectionLost_keeps (s : State) (p : Nat) :
    (s.ctDetectionLost p).pending = s.pending ∧ (s.ctDetectionLost p).time = s.time ∧ (s.ctDetectionLost p).windowMs = s.windowMs
     ∧ (s.ctDetectionLost p).oldWindows = s.oldWindows ∧ (s.ctDetectionLost p).field = s.field
     ∧ (s.ctDetectionLost p).freeIdx = s.freeIdx ∧ (s.ctDetectionLost p).yard = s.yard ∧ (s.ctDetectionLost p).li = s.li
     ∧ (s.ctDetectionLost p).fs.free = s.fs.free ∧ (s.ctDetectionLost p).fs.inbox = s.fs.inbox
     ∧ (s.ctDetectionLost p).fs.active = s.fs.active ∧ (s.ctDetectionLost p).fs.handler = s.fs.handler
     ∧ (s.ctDetectionLost p).fs.ownFrames = s.fs.ownFrames ∧ (s.ctDetectionLost p).fs.holdOff = s.fs.holdOff
     ∧ (s.ctDetectionLost p).pt = s.pt ∧ (s.ctDetectionLost p).du = s.du ∧ (s.ctDetectionLost p).pu = s.pu
     ∧ (s.ctDetectionLost p).su = s.su ∧ (s.ctDetectionLost p).rq = s.rq ∧ (s.ctDetectionLost p).yu = s.yu
     ∧ (s.ctDetectionLost p).mi = s.mi ∧ (s.ctDetectionLost p).rp = s.rp := by
  unfold State.ctDetectionLost
  (repeat' split) <;> simp

@[simp] theorem takeRelease_keeps (s : State) (key : RouteKey) :
    (s.takeRelease key).pending = s.pending ∧ (s.takeRelease key).time = s.time ∧ (s.takeRelease key).windowMs = s.windowMs
     ∧ (s.takeRelease key).oldWindows = s.oldWindows ∧ (s.takeRelease key).field = s.field
     ∧ (s.takeRelease key).freeIdx = s.freeIdx ∧ (s.takeRelease key).yard = s.yard ∧ (s.takeRelease key).li = s.li
     ∧ (s.takeRelease key).fs.free = s.fs.free ∧ (s.takeRelease key).fs.inbox = s.fs.inbox
     ∧ (s.takeRelease key).fs.active = s.fs.active ∧ (s.takeRelease key).fs.handler = s.fs.handler
     ∧ (s.takeRelease key).fs.ownFrames = s.fs.ownFrames ∧ (s.takeRelease key).fs.holdOff = s.fs.holdOff
     ∧ (s.takeRelease key).pt = s.pt ∧ (s.takeRelease key).du = s.du ∧ (s.takeRelease key).su = s.su
     ∧ (s.takeRelease key).rq = s.rq ∧ (s.takeRelease key).mi.mem = s.mi.mem ∧ (s.takeRelease key).mi.startup = s.mi.startup
     ∧ (s.takeRelease key).mi.desc = s.mi.desc := by
  unfold State.takeRelease
  (repeat' split) <;> simp

@[simp] theorem reservedExpiry_keeps (s : State) (id : Nat) :
    (s.reservedExpiry id).pending = s.pending ∧ (s.reservedExpiry id).time = s.time ∧ (s.reservedExpiry id).windowMs = s.windowMs
     ∧ (s.reservedExpiry id).oldWindows = s.oldWindows ∧ (s.reservedExpiry id).field = s.field
     ∧ (s.reservedExpiry id).freeIdx = s.freeIdx ∧ (s.reservedExpiry id).yard = s.yard ∧ (s.reservedExpiry id).li = s.li
     ∧ (s.reservedExpiry id).fs.free = s.fs.free ∧ (s.reservedExpiry id).fs.inbox = s.fs.inbox
     ∧ (s.reservedExpiry id).fs.active = s.fs.active ∧ (s.reservedExpiry id).fs.handler = s.fs.handler
     ∧ (s.reservedExpiry id).fs.ownFrames = s.fs.ownFrames ∧ (s.reservedExpiry id).fs.holdOff = s.fs.holdOff
     ∧ (s.reservedExpiry id).pt = s.pt ∧ (s.reservedExpiry id).du = s.du ∧ (s.reservedExpiry id).su = s.su
     ∧ (s.reservedExpiry id).rq = s.rq ∧ (s.reservedExpiry id).mi.mem = s.mi.mem ∧ (s.reservedExpiry id).mi.startup = s.mi.startup
     ∧ (s.reservedExpiry id).mi.desc = s.mi.desc := by
  unfold State.reservedExpiry
  (repeat' split) <;> simp

@[simp] theorem setExpiry_keeps (s : State) (id : Nat) :
    (s.setExpiry id).pending = s.pending ∧ (s.setExpiry id).time = s.time ∧ (s.setExpiry id).windowMs = s.windowMs
     ∧ (s.setExpiry id).oldWindows = s.oldWindows ∧ (s.setExpiry id).field = s.field ∧ (s.setExpiry id).freeIdx = s.freeIdx
     ∧ (s.setExpiry id).yard = s.yard ∧ (s.setExpiry id).li = s.li ∧ (s.setExpiry id).fs.free = s.fs.free
     ∧ (s.setExpiry id).fs.inbox = s.fs.inbox ∧ (s.setExpiry id).fs.active = s.fs.active
     ∧ (s.setExpiry id).fs.handler = s.fs.handler ∧ (s.setExpiry id).fs.ownFrames = s.fs.ownFrames
     ∧ (s.setExpiry id).fs.holdOff = s.fs.holdOff ∧ (s.setExpiry id).pt = s.pt ∧ (s.setExpiry id).du = s.du
     ∧ (s.setExpiry id).su = s.su ∧ (s.setExpiry id).rq = s.rq ∧ (s.setExpiry id).mi.mem = s.mi.mem
     ∧ (s.setExpiry id).mi.startup = s.mi.startup ∧ (s.setExpiry id).mi.desc = s.mi.desc := by
  unfold State.setExpiry
  (repeat' split) <;> simp

@[simp] theorem orphanExpiry_keeps (s : State) (id i : Nat) :
    (s.orphanExpiry id i).pending = s.pending ∧ (s.orphanExpiry id i).time = s.time ∧ (s.orphanExpiry id i).windowMs = s.windowMs
     ∧ (s.orphanExpiry id i).oldWindows = s.oldWindows ∧ (s.orphanExpiry id i).field = s.field
     ∧ (s.orphanExpiry id i).freeIdx = s.freeIdx ∧ (s.orphanExpiry id i).yard = s.yard ∧ (s.orphanExpiry id i).li = s.li
     ∧ (s.orphanExpiry id i).fs.free = s.fs.free ∧ (s.orphanExpiry id i).fs.inbox = s.fs.inbox
     ∧ (s.orphanExpiry id i).fs.active = s.fs.active ∧ (s.orphanExpiry id i).fs.handler = s.fs.handler
     ∧ (s.orphanExpiry id i).fs.ownFrames = s.fs.ownFrames ∧ (s.orphanExpiry id i).fs.holdOff = s.fs.holdOff
     ∧ (s.orphanExpiry id i).pt = s.pt ∧ (s.orphanExpiry id i).du = s.du ∧ (s.orphanExpiry id i).su = s.su
     ∧ (s.orphanExpiry id i).rq = s.rq ∧ (s.orphanExpiry id i).mi.mem = s.mi.mem ∧ (s.orphanExpiry id i).mi.startup = s.mi.startup
     ∧ (s.orphanExpiry id i).mi.desc = s.mi.desc := by
  unfold State.orphanExpiry
  (repeat' split) <;> simp

@[simp] theorem orphanRecord_keeps (s : State) (id : Nat) :
    (s.orphanRecord id).pending = s.pending ∧ (s.orphanRecord id).time = s.time ∧ (s.orphanRecord id).windowMs = s.windowMs
     ∧ (s.orphanRecord id).oldWindows = s.oldWindows ∧ (s.orphanRecord id).field = s.field
     ∧ (s.orphanRecord id).freeIdx = s.freeIdx ∧ (s.orphanRecord id).yard = s.yard ∧ (s.orphanRecord id).li = s.li
     ∧ (s.orphanRecord id).fs = s.fs ∧ (s.orphanRecord id).pt = s.pt ∧ (s.orphanRecord id).du = s.du
     ∧ (s.orphanRecord id).pu = s.pu ∧ (s.orphanRecord id).su = s.su ∧ (s.orphanRecord id).rq = s.rq
     ∧ (s.orphanRecord id).re = s.re ∧ (s.orphanRecord id).yu = s.yu ∧ (s.orphanRecord id).mi = s.mi
     ∧ (s.orphanRecord id).rp = s.rp := by
  unfold State.orphanRecord
  (repeat' split) <;> simp

@[simp] theorem ctLost_keeps (s : State) (peer : Nat) (epoch : Epoch) :
    (s.ctLost peer epoch).pending = s.pending ∧ (s.ctLost peer epoch).time = s.time ∧ (s.ctLost peer epoch).windowMs = s.windowMs
     ∧ (s.ctLost peer epoch).oldWindows = s.oldWindows ∧ (s.ctLost peer epoch).field = s.field
     ∧ (s.ctLost peer epoch).freeIdx = s.freeIdx ∧ (s.ctLost peer epoch).yard = s.yard ∧ (s.ctLost peer epoch).li = s.li
     ∧ (s.ctLost peer epoch).fs = s.fs ∧ (s.ctLost peer epoch).pt = s.pt ∧ (s.ctLost peer epoch).du = s.du
     ∧ (s.ctLost peer epoch).pu = s.pu ∧ (s.ctLost peer epoch).su = s.su ∧ (s.ctLost peer epoch).rq = s.rq
     ∧ (s.ctLost peer epoch).re = s.re ∧ (s.ctLost peer epoch).yu = s.yu ∧ (s.ctLost peer epoch).mi = s.mi
     ∧ (s.ctLost peer epoch).rp = s.rp := by
  unfold State.ctLost
  (repeat' split) <;> first | rfl | (simp; done) | simp (disch := (intros; (try dsimp only); (repeat' split) <;> try simp))

@[simp] theorem returnRecord_keeps (s : State) (id : Nat) (c : Claim) :
    (s.returnRecord id c).pending = s.pending ∧ (s.returnRecord id c).time = s.time ∧ (s.returnRecord id c).windowMs = s.windowMs
     ∧ (s.returnRecord id c).oldWindows = s.oldWindows ∧ (s.returnRecord id c).field = s.field
     ∧ (s.returnRecord id c).freeIdx = s.freeIdx ∧ (s.returnRecord id c).yard = s.yard ∧ (s.returnRecord id c).li = s.li
     ∧ (s.returnRecord id c).fs.free = s.fs.free ∧ (s.returnRecord id c).fs.inbox = s.fs.inbox
     ∧ (s.returnRecord id c).fs.active = s.fs.active ∧ (s.returnRecord id c).fs.handler = s.fs.handler
     ∧ (s.returnRecord id c).fs.ownFrames = s.fs.ownFrames ∧ (s.returnRecord id c).fs.holdOff = s.fs.holdOff
     ∧ (s.returnRecord id c).pt = s.pt ∧ (s.returnRecord id c).du = s.du ∧ (s.returnRecord id c).su = s.su
     ∧ (s.returnRecord id c).rq = s.rq ∧ (s.returnRecord id c).mi.mem = s.mi.mem ∧ (s.returnRecord id c).mi.startup = s.mi.startup
     ∧ (s.returnRecord id c).mi.desc = s.mi.desc := by
  (repeat' apply And.intro) <;> (unfold State.returnRecord; try dsimp only) <;> (repeat' split) <;>
    first | rfl | (simp; done) | simp

@[simp] theorem unorphanRecord_keeps (s : State) (id : Nat) :
    (s.unorphanRecord id).pending = s.pending ∧ (s.unorphanRecord id).time = s.time ∧ (s.unorphanRecord id).windowMs = s.windowMs
     ∧ (s.unorphanRecord id).oldWindows = s.oldWindows ∧ (s.unorphanRecord id).field = s.field
     ∧ (s.unorphanRecord id).freeIdx = s.freeIdx ∧ (s.unorphanRecord id).yard = s.yard ∧ (s.unorphanRecord id).li = s.li
     ∧ (s.unorphanRecord id).fs.free = s.fs.free ∧ (s.unorphanRecord id).fs.inbox = s.fs.inbox
     ∧ (s.unorphanRecord id).fs.active = s.fs.active ∧ (s.unorphanRecord id).fs.handler = s.fs.handler
     ∧ (s.unorphanRecord id).fs.ownFrames = s.fs.ownFrames ∧ (s.unorphanRecord id).fs.holdOff = s.fs.holdOff
     ∧ (s.unorphanRecord id).pt = s.pt ∧ (s.unorphanRecord id).du = s.du ∧ (s.unorphanRecord id).su = s.su
     ∧ (s.unorphanRecord id).rq = s.rq ∧ (s.unorphanRecord id).mi.mem = s.mi.mem ∧ (s.unorphanRecord id).mi.startup = s.mi.startup
     ∧ (s.unorphanRecord id).mi.desc = s.mi.desc := by
  unfold State.unorphanRecord
  (repeat' split) <;> simp

@[simp] theorem ctReturned_keeps (s : State) (peer : Nat) (epoch : Epoch) :
    (s.ctReturned peer epoch).pending = s.pending ∧ (s.ctReturned peer epoch).time = s.time
     ∧ (s.ctReturned peer epoch).windowMs = s.windowMs ∧ (s.ctReturned peer epoch).oldWindows = s.oldWindows
     ∧ (s.ctReturned peer epoch).field = s.field ∧ (s.ctReturned peer epoch).freeIdx = s.freeIdx
     ∧ (s.ctReturned peer epoch).yard = s.yard ∧ (s.ctReturned peer epoch).li = s.li
     ∧ (s.ctReturned peer epoch).fs.free = s.fs.free ∧ (s.ctReturned peer epoch).fs.inbox = s.fs.inbox
     ∧ (s.ctReturned peer epoch).fs.active = s.fs.active ∧ (s.ctReturned peer epoch).fs.handler = s.fs.handler
     ∧ (s.ctReturned peer epoch).fs.ownFrames = s.fs.ownFrames ∧ (s.ctReturned peer epoch).fs.holdOff = s.fs.holdOff
     ∧ (s.ctReturned peer epoch).pt = s.pt ∧ (s.ctReturned peer epoch).du = s.du ∧ (s.ctReturned peer epoch).su = s.su
     ∧ (s.ctReturned peer epoch).rq = s.rq ∧ (s.ctReturned peer epoch).mi.mem = s.mi.mem
     ∧ (s.ctReturned peer epoch).mi.startup = s.mi.startup ∧ (s.ctReturned peer epoch).mi.desc = s.mi.desc := by
  (repeat' apply And.intro) <;> (unfold State.ctReturned; try dsimp only) <;> (repeat' split) <;>
    first | rfl | (simp; done) | simp (disch := (intros; (try dsimp only); (repeat' split) <;> try simp))

@[simp] theorem dropMarks_keeps (s : State) (id : Nat) :
    (s.dropMarks id).pending = s.pending ∧ (s.dropMarks id).time = s.time ∧ (s.dropMarks id).windowMs = s.windowMs
     ∧ (s.dropMarks id).oldWindows = s.oldWindows ∧ (s.dropMarks id).field = s.field ∧ (s.dropMarks id).freeIdx = s.freeIdx
     ∧ (s.dropMarks id).yard = s.yard ∧ (s.dropMarks id).li = s.li ∧ (s.dropMarks id).fs = s.fs ∧ (s.dropMarks id).cnt = s.cnt
     ∧ (s.dropMarks id).pt = s.pt ∧ (s.dropMarks id).du = s.du ∧ (s.dropMarks id).pu = s.pu ∧ (s.dropMarks id).su = s.su
     ∧ (s.dropMarks id).rq = s.rq ∧ (s.dropMarks id).re = s.re ∧ (s.dropMarks id).yu = s.yu ∧ (s.dropMarks id).mi = s.mi
     ∧ (s.dropMarks id).rp = s.rp ∧ (s.dropMarks id).ct.locks = s.ct.locks ∧ (s.dropMarks id).ct.free = s.ct.free := by
  simp [State.dropMarks]

@[simp] theorem dropRecord_keeps (s : State) (id : Nat) :
    (s.dropRecord id).pending = s.pending ∧ (s.dropRecord id).time = s.time ∧ (s.dropRecord id).windowMs = s.windowMs
     ∧ (s.dropRecord id).oldWindows = s.oldWindows ∧ (s.dropRecord id).field = s.field ∧ (s.dropRecord id).freeIdx = s.freeIdx
     ∧ (s.dropRecord id).yard = s.yard ∧ (s.dropRecord id).li = s.li ∧ (s.dropRecord id).fs.free = s.fs.free
     ∧ (s.dropRecord id).fs.inbox = s.fs.inbox ∧ (s.dropRecord id).fs.active = s.fs.active
     ∧ (s.dropRecord id).fs.handler = s.fs.handler ∧ (s.dropRecord id).fs.ownFrames = s.fs.ownFrames
     ∧ (s.dropRecord id).fs.holdOff = s.fs.holdOff ∧ (s.dropRecord id).pt = s.pt ∧ (s.dropRecord id).du = s.du
     ∧ (s.dropRecord id).su = s.su ∧ (s.dropRecord id).rq = s.rq ∧ (s.dropRecord id).mi.mem = s.mi.mem
     ∧ (s.dropRecord id).mi.startup = s.mi.startup ∧ (s.dropRecord id).mi.desc = s.mi.desc := by
  unfold State.dropRecord
  simp

@[simp] theorem ctRestarted_keeps (s : State) (peer : Nat) (old : Epoch) :
    (s.ctRestarted peer old).pending = s.pending ∧ (s.ctRestarted peer old).time = s.time
     ∧ (s.ctRestarted peer old).windowMs = s.windowMs ∧ (s.ctRestarted peer old).oldWindows = s.oldWindows
     ∧ (s.ctRestarted peer old).field = s.field ∧ (s.ctRestarted peer old).freeIdx = s.freeIdx
     ∧ (s.ctRestarted peer old).yard = s.yard ∧ (s.ctRestarted peer old).li = s.li ∧ (s.ctRestarted peer old).fs.free = s.fs.free
     ∧ (s.ctRestarted peer old).fs.inbox = s.fs.inbox ∧ (s.ctRestarted peer old).fs.active = s.fs.active
     ∧ (s.ctRestarted peer old).fs.handler = s.fs.handler ∧ (s.ctRestarted peer old).fs.ownFrames = s.fs.ownFrames
     ∧ (s.ctRestarted peer old).fs.holdOff = s.fs.holdOff ∧ (s.ctRestarted peer old).pt = s.pt
     ∧ (s.ctRestarted peer old).du = s.du ∧ (s.ctRestarted peer old).su = s.su ∧ (s.ctRestarted peer old).rq = s.rq
     ∧ (s.ctRestarted peer old).mi.mem = s.mi.mem ∧ (s.ctRestarted peer old).mi.startup = s.mi.startup
     ∧ (s.ctRestarted peer old).mi.desc = s.mi.desc := by
  (repeat' apply And.intro) <;> (unfold State.ctRestarted; try dsimp only) <;> (repeat' split) <;>
    first | rfl | (simp; done) | simp (disch := (intros; (try dsimp only); (repeat' split) <;> try simp))

@[simp] theorem isolateRecord_keeps (s : State) (id : Nat) :
    (s.isolateRecord id).pending = s.pending ∧ (s.isolateRecord id).time = s.time ∧ (s.isolateRecord id).windowMs = s.windowMs
     ∧ (s.isolateRecord id).oldWindows = s.oldWindows ∧ (s.isolateRecord id).field = s.field
     ∧ (s.isolateRecord id).freeIdx = s.freeIdx ∧ (s.isolateRecord id).yard = s.yard ∧ (s.isolateRecord id).li = s.li
     ∧ (s.isolateRecord id).fs.free = s.fs.free ∧ (s.isolateRecord id).fs.inbox = s.fs.inbox
     ∧ (s.isolateRecord id).fs.active = s.fs.active ∧ (s.isolateRecord id).fs.handler = s.fs.handler
     ∧ (s.isolateRecord id).fs.ownFrames = s.fs.ownFrames ∧ (s.isolateRecord id).fs.holdOff = s.fs.holdOff
     ∧ (s.isolateRecord id).pt = s.pt ∧ (s.isolateRecord id).du = s.du ∧ (s.isolateRecord id).su = s.su
     ∧ (s.isolateRecord id).rq = s.rq ∧ (s.isolateRecord id).mi.mem = s.mi.mem ∧ (s.isolateRecord id).mi.startup = s.mi.startup
     ∧ (s.isolateRecord id).mi.desc = s.mi.desc := by
  (repeat' apply And.intro) <;> (unfold State.isolateRecord; try dsimp only) <;> (repeat' split) <;>
    first | rfl | (simp; done) | simp (disch := (intros; (try dsimp only); (repeat' split) <;> try simp))

@[simp] theorem ctIsolate_keeps (s : State) :
    s.ctIsolate.pending = s.pending ∧ s.ctIsolate.time = s.time ∧ s.ctIsolate.windowMs = s.windowMs
     ∧ s.ctIsolate.oldWindows = s.oldWindows ∧ s.ctIsolate.field = s.field ∧ s.ctIsolate.freeIdx = s.freeIdx
     ∧ s.ctIsolate.yard = s.yard ∧ s.ctIsolate.li = s.li ∧ s.ctIsolate.fs.free = s.fs.free ∧ s.ctIsolate.fs.inbox = s.fs.inbox
     ∧ s.ctIsolate.fs.active = s.fs.active ∧ s.ctIsolate.fs.handler = s.fs.handler ∧ s.ctIsolate.fs.ownFrames = s.fs.ownFrames
     ∧ s.ctIsolate.fs.holdOff = s.fs.holdOff ∧ s.ctIsolate.pt = s.pt ∧ s.ctIsolate.du = s.du ∧ s.ctIsolate.su = s.su
     ∧ s.ctIsolate.rq = s.rq ∧ s.ctIsolate.mi.mem = s.mi.mem ∧ s.ctIsolate.mi.startup = s.mi.startup
     ∧ s.ctIsolate.mi.desc = s.mi.desc := by
  (repeat' apply And.intro) <;> (unfold State.ctIsolate; try dsimp only) <;> (repeat' split) <;>
    first | rfl | (simp; done) | simp (disch := (intros; (try dsimp only); (repeat' split) <;> try simp))

@[simp] theorem ctTakes_keeps (s : State) (m : CtMsg) :
    (s.ctTakes m).pending = s.pending ∧ (s.ctTakes m).time = s.time ∧ (s.ctTakes m).windowMs = s.windowMs
     ∧ (s.ctTakes m).oldWindows = s.oldWindows ∧ (s.ctTakes m).field = s.field ∧ (s.ctTakes m).freeIdx = s.freeIdx
     ∧ (s.ctTakes m).yard = s.yard ∧ (s.ctTakes m).li = s.li ∧ (s.ctTakes m).fs.free = s.fs.free
     ∧ (s.ctTakes m).fs.inbox = s.fs.inbox ∧ (s.ctTakes m).fs.active = s.fs.active ∧ (s.ctTakes m).fs.handler = s.fs.handler
     ∧ (s.ctTakes m).fs.ownFrames = s.fs.ownFrames ∧ (s.ctTakes m).fs.holdOff = s.fs.holdOff ∧ (s.ctTakes m).pt = s.pt
     ∧ (s.ctTakes m).du = s.du ∧ (s.ctTakes m).su = s.su ∧ (s.ctTakes m).rq = s.rq ∧ (s.ctTakes m).mi.mem = s.mi.mem
     ∧ (s.ctTakes m).mi.startup = s.mi.startup ∧ (s.ctTakes m).mi.desc = s.mi.desc := by
  unfold State.ctTakes
  (repeat' split) <;> simp

@[simp] theorem ctTakesAll_keeps (s : State) :
    s.ctTakesAll.pending = s.pending ∧ s.ctTakesAll.time = s.time ∧ s.ctTakesAll.windowMs = s.windowMs
     ∧ s.ctTakesAll.oldWindows = s.oldWindows ∧ s.ctTakesAll.field = s.field ∧ s.ctTakesAll.freeIdx = s.freeIdx
     ∧ s.ctTakesAll.yard = s.yard ∧ s.ctTakesAll.li = s.li ∧ s.ctTakesAll.fs.free = s.fs.free ∧ s.ctTakesAll.fs.inbox = s.fs.inbox
     ∧ s.ctTakesAll.fs.active = s.fs.active ∧ s.ctTakesAll.fs.handler = s.fs.handler ∧ s.ctTakesAll.fs.ownFrames = s.fs.ownFrames
     ∧ s.ctTakesAll.fs.holdOff = s.fs.holdOff ∧ s.ctTakesAll.pt = s.pt ∧ s.ctTakesAll.du = s.du ∧ s.ctTakesAll.su = s.su
     ∧ s.ctTakesAll.rq = s.rq ∧ s.ctTakesAll.mi.mem = s.mi.mem ∧ s.ctTakesAll.mi.startup = s.mi.startup
     ∧ s.ctTakesAll.mi.desc = s.mi.desc := by
  (repeat' apply And.intro) <;> (unfold State.ctTakesAll; try dsimp only) <;> (repeat' split) <;>
    first | rfl | (simp; done) | simp (disch := (intros; (try dsimp only); (repeat' split) <;> try simp))

@[simp] theorem bumpAttempts_keeps (s : State) (slot : Nat) :
    (s.bumpAttempts slot).pending = s.pending ∧ (s.bumpAttempts slot).time = s.time ∧ (s.bumpAttempts slot).windowMs = s.windowMs
     ∧ (s.bumpAttempts slot).oldWindows = s.oldWindows ∧ (s.bumpAttempts slot).field = s.field
     ∧ (s.bumpAttempts slot).freeIdx = s.freeIdx ∧ (s.bumpAttempts slot).yard = s.yard ∧ (s.bumpAttempts slot).li = s.li
     ∧ (s.bumpAttempts slot).fs = s.fs ∧ (s.bumpAttempts slot).cnt = s.cnt ∧ (s.bumpAttempts slot).pt = s.pt
     ∧ (s.bumpAttempts slot).du = s.du ∧ (s.bumpAttempts slot).pu = s.pu ∧ (s.bumpAttempts slot).su = s.su
     ∧ (s.bumpAttempts slot).re = s.re ∧ (s.bumpAttempts slot).ct = s.ct ∧ (s.bumpAttempts slot).yu = s.yu
     ∧ (s.bumpAttempts slot).mi = s.mi ∧ (s.bumpAttempts slot).rp = s.rp := by
  unfold State.bumpAttempts
  simp

@[simp] theorem releaseTo_keeps (s : State) (key : RouteKey) (node : Nat) :
    (s.releaseTo key node).pending = s.pending ∧ (s.releaseTo key node).time = s.time
     ∧ (s.releaseTo key node).windowMs = s.windowMs ∧ (s.releaseTo key node).oldWindows = s.oldWindows
     ∧ (s.releaseTo key node).field = s.field ∧ (s.releaseTo key node).freeIdx = s.freeIdx ∧ (s.releaseTo key node).yard = s.yard
     ∧ (s.releaseTo key node).li = s.li ∧ (s.releaseTo key node).fs.free = s.fs.free
     ∧ (s.releaseTo key node).fs.inbox = s.fs.inbox ∧ (s.releaseTo key node).fs.active = s.fs.active
     ∧ (s.releaseTo key node).fs.handler = s.fs.handler ∧ (s.releaseTo key node).fs.ownFrames = s.fs.ownFrames
     ∧ (s.releaseTo key node).fs.holdOff = s.fs.holdOff ∧ (s.releaseTo key node).pt = s.pt ∧ (s.releaseTo key node).du = s.du
     ∧ (s.releaseTo key node).pu = s.pu ∧ (s.releaseTo key node).su = s.su ∧ (s.releaseTo key node).rq = s.rq
     ∧ (s.releaseTo key node).re = s.re ∧ (s.releaseTo key node).yu = s.yu ∧ (s.releaseTo key node).mi = s.mi
     ∧ (s.releaseTo key node).rp = s.rp := by
  unfold State.releaseTo
  (repeat' split) <;> simp

@[simp] theorem setTo_keeps (s : State) (key : RouteKey) (node : Nat) :
    (s.setTo key node).pending = s.pending ∧ (s.setTo key node).time = s.time ∧ (s.setTo key node).windowMs = s.windowMs
     ∧ (s.setTo key node).oldWindows = s.oldWindows ∧ (s.setTo key node).field = s.field ∧ (s.setTo key node).freeIdx = s.freeIdx
     ∧ (s.setTo key node).yard = s.yard ∧ (s.setTo key node).li = s.li ∧ (s.setTo key node).fs.free = s.fs.free
     ∧ (s.setTo key node).fs.inbox = s.fs.inbox ∧ (s.setTo key node).fs.active = s.fs.active
     ∧ (s.setTo key node).fs.handler = s.fs.handler ∧ (s.setTo key node).fs.ownFrames = s.fs.ownFrames
     ∧ (s.setTo key node).fs.holdOff = s.fs.holdOff ∧ (s.setTo key node).pt = s.pt ∧ (s.setTo key node).du = s.du
     ∧ (s.setTo key node).pu = s.pu ∧ (s.setTo key node).su = s.su ∧ (s.setTo key node).rq = s.rq ∧ (s.setTo key node).re = s.re
     ∧ (s.setTo key node).yu = s.yu ∧ (s.setTo key node).mi = s.mi ∧ (s.setTo key node).rp = s.rp := by
  unfold State.setTo
  (repeat' split) <;> simp

@[simp] theorem releaseAsked_keeps (s : State) (x : Inst) :
    (s.releaseAsked x).pending = s.pending ∧ (s.releaseAsked x).time = s.time ∧ (s.releaseAsked x).windowMs = s.windowMs
     ∧ (s.releaseAsked x).oldWindows = s.oldWindows ∧ (s.releaseAsked x).field = s.field ∧ (s.releaseAsked x).freeIdx = s.freeIdx
     ∧ (s.releaseAsked x).yard = s.yard ∧ (s.releaseAsked x).li = s.li ∧ (s.releaseAsked x).fs.free = s.fs.free
     ∧ (s.releaseAsked x).fs.inbox = s.fs.inbox ∧ (s.releaseAsked x).fs.active = s.fs.active
     ∧ (s.releaseAsked x).fs.handler = s.fs.handler ∧ (s.releaseAsked x).fs.ownFrames = s.fs.ownFrames
     ∧ (s.releaseAsked x).fs.holdOff = s.fs.holdOff ∧ (s.releaseAsked x).pt = s.pt ∧ (s.releaseAsked x).du = s.du
     ∧ (s.releaseAsked x).pu = s.pu ∧ (s.releaseAsked x).su = s.su ∧ (s.releaseAsked x).rq = s.rq ∧ (s.releaseAsked x).re = s.re
     ∧ (s.releaseAsked x).yu = s.yu ∧ (s.releaseAsked x).mi = s.mi ∧ (s.releaseAsked x).rp = s.rp := by
  (repeat' apply And.intro) <;> (unfold State.releaseAsked; try dsimp only) <;> (repeat' split) <;>
    first | rfl | (simp; done) | simp (disch := (intros; (try dsimp only); (repeat' split) <;> try simp))

@[simp] theorem withdrawAward_keeps (s : State) (x : Inst) :
    (s.withdrawAward x).pending = s.pending ∧ (s.withdrawAward x).time = s.time ∧ (s.withdrawAward x).windowMs = s.windowMs
     ∧ (s.withdrawAward x).oldWindows = s.oldWindows ∧ (s.withdrawAward x).field = s.field
     ∧ (s.withdrawAward x).freeIdx = s.freeIdx ∧ (s.withdrawAward x).yard = s.yard ∧ (s.withdrawAward x).li = s.li
     ∧ (s.withdrawAward x).fs.free = s.fs.free ∧ (s.withdrawAward x).fs.inbox = s.fs.inbox
     ∧ (s.withdrawAward x).fs.active = s.fs.active ∧ (s.withdrawAward x).fs.handler = s.fs.handler
     ∧ (s.withdrawAward x).fs.ownFrames = s.fs.ownFrames ∧ (s.withdrawAward x).fs.holdOff = s.fs.holdOff
     ∧ (s.withdrawAward x).pt = s.pt ∧ (s.withdrawAward x).du = s.du ∧ (s.withdrawAward x).pu = s.pu
     ∧ (s.withdrawAward x).su = s.su ∧ (s.withdrawAward x).rq = s.rq ∧ (s.withdrawAward x).re = s.re
     ∧ (s.withdrawAward x).ct = s.ct ∧ (s.withdrawAward x).mi = s.mi ∧ (s.withdrawAward x).rp = s.rp := by
  unfold State.withdrawAward
  (repeat' split) <;> simp

@[simp] theorem sendClaim_keeps (s : State) (x : Inst) (rc : RouteCfg) (node : Nat) :
    (s.sendClaim x rc node).pending = s.pending ∧ (s.sendClaim x rc node).time = s.time
     ∧ (s.sendClaim x rc node).windowMs = s.windowMs ∧ (s.sendClaim x rc node).oldWindows = s.oldWindows
     ∧ (s.sendClaim x rc node).field = s.field ∧ (s.sendClaim x rc node).freeIdx = s.freeIdx
     ∧ (s.sendClaim x rc node).yard = s.yard ∧ (s.sendClaim x rc node).li = s.li ∧ (s.sendClaim x rc node).fs.free = s.fs.free
     ∧ (s.sendClaim x rc node).fs.inbox = s.fs.inbox ∧ (s.sendClaim x rc node).fs.active = s.fs.active
     ∧ (s.sendClaim x rc node).fs.handler = s.fs.handler ∧ (s.sendClaim x rc node).fs.ownFrames = s.fs.ownFrames
     ∧ (s.sendClaim x rc node).fs.holdOff = s.fs.holdOff ∧ (s.sendClaim x rc node).pt = s.pt ∧ (s.sendClaim x rc node).du = s.du
     ∧ (s.sendClaim x rc node).pu = s.pu ∧ (s.sendClaim x rc node).su = s.su ∧ (s.sendClaim x rc node).rq = s.rq
     ∧ (s.sendClaim x rc node).re = s.re ∧ (s.sendClaim x rc node).yu = s.yu ∧ (s.sendClaim x rc node).mi = s.mi
     ∧ (s.sendClaim x rc node).rp = s.rp := by
  unfold State.sendClaim
  (repeat' split) <;> simp

@[simp] theorem endInst_keeps (s : State) (i : Nat) (x : Inst) (code : OutcomeCode) :
    (s.endInst i x code).pending = s.pending ∧ (s.endInst i x code).time = s.time ∧ (s.endInst i x code).windowMs = s.windowMs
     ∧ (s.endInst i x code).oldWindows = s.oldWindows ∧ (s.endInst i x code).field = s.field
     ∧ (s.endInst i x code).freeIdx = s.freeIdx ∧ (s.endInst i x code).yard = s.yard ∧ (s.endInst i x code).li = s.li
     ∧ (s.endInst i x code).fs = s.fs ∧ (s.endInst i x code).cnt = s.cnt ∧ (s.endInst i x code).pt = s.pt
     ∧ (s.endInst i x code).du = s.du ∧ (s.endInst i x code).pu = s.pu ∧ (s.endInst i x code).su = s.su
     ∧ (s.endInst i x code).ct = s.ct ∧ (s.endInst i x code).yu = s.yu ∧ (s.endInst i x code).mi = s.mi
     ∧ (s.endInst i x code).rp = s.rp := by
  unfold State.endInst
  simp

@[simp] theorem startCall_keeps (s : State) (i : Nat) :
    (s.startCall i).pending = s.pending ∧ (s.startCall i).time = s.time ∧ (s.startCall i).windowMs = s.windowMs
     ∧ (s.startCall i).oldWindows = s.oldWindows ∧ (s.startCall i).field = s.field ∧ (s.startCall i).freeIdx = s.freeIdx
     ∧ (s.startCall i).yard = s.yard ∧ (s.startCall i).li = s.li ∧ (s.startCall i).fs.free = s.fs.free
     ∧ (s.startCall i).fs.inbox = s.fs.inbox ∧ (s.startCall i).fs.active = s.fs.active ∧ (s.startCall i).fs.handler = s.fs.handler
     ∧ (s.startCall i).fs.ownFrames = s.fs.ownFrames ∧ (s.startCall i).fs.holdOff = s.fs.holdOff ∧ (s.startCall i).pt = s.pt
     ∧ (s.startCall i).du = s.du ∧ (s.startCall i).pu = s.pu ∧ (s.startCall i).su = s.su ∧ (s.startCall i).rq = s.rq
     ∧ (s.startCall i).ct = s.ct ∧ (s.startCall i).mi = s.mi ∧ (s.startCall i).rp = s.rp := by
  unfold State.startCall
  (repeat' split) <;> simp

@[simp] theorem enterBackoff_keeps (s : State) (i : Nat) :
    (s.enterBackoff i).pending = s.pending ∧ (s.enterBackoff i).time = s.time ∧ (s.enterBackoff i).windowMs = s.windowMs
     ∧ (s.enterBackoff i).oldWindows = s.oldWindows ∧ (s.enterBackoff i).field = s.field ∧ (s.enterBackoff i).freeIdx = s.freeIdx
     ∧ (s.enterBackoff i).yard = s.yard ∧ (s.enterBackoff i).li = s.li ∧ (s.enterBackoff i).fs = s.fs
     ∧ (s.enterBackoff i).cnt = s.cnt ∧ (s.enterBackoff i).pt = s.pt ∧ (s.enterBackoff i).du = s.du ∧ (s.enterBackoff i).pu = s.pu
     ∧ (s.enterBackoff i).su = s.su ∧ (s.enterBackoff i).rq = s.rq ∧ (s.enterBackoff i).ct = s.ct ∧ (s.enterBackoff i).yu = s.yu
     ∧ (s.enterBackoff i).mi = s.mi ∧ (s.enterBackoff i).rp = s.rp := by
  unfold State.enterBackoff
  (repeat' split) <;> simp

@[simp] theorem countFailure_keeps (s : State) (slot : Nat) :
    (s.countFailure slot).pending = s.pending ∧ (s.countFailure slot).time = s.time ∧ (s.countFailure slot).windowMs = s.windowMs
     ∧ (s.countFailure slot).oldWindows = s.oldWindows ∧ (s.countFailure slot).field = s.field
     ∧ (s.countFailure slot).freeIdx = s.freeIdx ∧ (s.countFailure slot).yard = s.yard ∧ (s.countFailure slot).li = s.li
     ∧ (s.countFailure slot).fs = s.fs ∧ (s.countFailure slot).pt = s.pt ∧ (s.countFailure slot).du = s.du
     ∧ (s.countFailure slot).pu = s.pu ∧ (s.countFailure slot).su = s.su ∧ (s.countFailure slot).re = s.re
     ∧ (s.countFailure slot).ct = s.ct ∧ (s.countFailure slot).yu = s.yu ∧ (s.countFailure slot).mi = s.mi
     ∧ (s.countFailure slot).rp = s.rp := by
  unfold State.countFailure
  simp

@[simp] theorem makeAttempt_keeps (s : State) (i : Nat) (x : Inst) (rc : RouteCfg) :
    (s.makeAttempt i x rc).pending = s.pending ∧ (s.makeAttempt i x rc).time = s.time
     ∧ (s.makeAttempt i x rc).windowMs = s.windowMs ∧ (s.makeAttempt i x rc).oldWindows = s.oldWindows
     ∧ (s.makeAttempt i x rc).field = s.field ∧ (s.makeAttempt i x rc).freeIdx = s.freeIdx ∧ (s.makeAttempt i x rc).yard = s.yard
     ∧ (s.makeAttempt i x rc).li = s.li ∧ (s.makeAttempt i x rc).fs.free = s.fs.free
     ∧ (s.makeAttempt i x rc).fs.inbox = s.fs.inbox ∧ (s.makeAttempt i x rc).fs.active = s.fs.active
     ∧ (s.makeAttempt i x rc).fs.handler = s.fs.handler ∧ (s.makeAttempt i x rc).fs.ownFrames = s.fs.ownFrames
     ∧ (s.makeAttempt i x rc).fs.holdOff = s.fs.holdOff ∧ (s.makeAttempt i x rc).pt = s.pt ∧ (s.makeAttempt i x rc).du = s.du
     ∧ (s.makeAttempt i x rc).su = s.su ∧ (s.makeAttempt i x rc).rq = s.rq ∧ (s.makeAttempt i x rc).mi.mem = s.mi.mem
     ∧ (s.makeAttempt i x rc).mi.startup = s.mi.startup ∧ (s.makeAttempt i x rc).mi.desc = s.mi.desc := by
  (repeat' apply And.intro) <;> (unfold State.makeAttempt; try dsimp only) <;> (repeat' split) <;>
    first | rfl | (simp; done) | simp (disch := (intros; (try dsimp only); (repeat' split) <;> try simp))

@[simp] theorem beginAttempt_keeps (s : State) (i : Nat) :
    (s.beginAttempt i).pending = s.pending ∧ (s.beginAttempt i).time = s.time ∧ (s.beginAttempt i).windowMs = s.windowMs
     ∧ (s.beginAttempt i).oldWindows = s.oldWindows ∧ (s.beginAttempt i).field = s.field ∧ (s.beginAttempt i).freeIdx = s.freeIdx
     ∧ (s.beginAttempt i).yard = s.yard ∧ (s.beginAttempt i).li = s.li ∧ (s.beginAttempt i).fs.free = s.fs.free
     ∧ (s.beginAttempt i).fs.inbox = s.fs.inbox ∧ (s.beginAttempt i).fs.active = s.fs.active
     ∧ (s.beginAttempt i).fs.handler = s.fs.handler ∧ (s.beginAttempt i).fs.ownFrames = s.fs.ownFrames
     ∧ (s.beginAttempt i).fs.holdOff = s.fs.holdOff ∧ (s.beginAttempt i).pt = s.pt ∧ (s.beginAttempt i).du = s.du
     ∧ (s.beginAttempt i).su = s.su ∧ (s.beginAttempt i).mi.mem = s.mi.mem ∧ (s.beginAttempt i).mi.startup = s.mi.startup
     ∧ (s.beginAttempt i).mi.desc = s.mi.desc := by
  unfold State.beginAttempt
  (repeat' split) <;> simp

@[simp] theorem failAttempt_keeps (s : State) (i : Nat) (cause : AttemptCause) :
    (s.failAttempt i cause).pending = s.pending ∧ (s.failAttempt i cause).time = s.time
     ∧ (s.failAttempt i cause).windowMs = s.windowMs ∧ (s.failAttempt i cause).oldWindows = s.oldWindows
     ∧ (s.failAttempt i cause).field = s.field ∧ (s.failAttempt i cause).freeIdx = s.freeIdx
     ∧ (s.failAttempt i cause).yard = s.yard ∧ (s.failAttempt i cause).li = s.li ∧ (s.failAttempt i cause).fs.free = s.fs.free
     ∧ (s.failAttempt i cause).fs.inbox = s.fs.inbox ∧ (s.failAttempt i cause).fs.active = s.fs.active
     ∧ (s.failAttempt i cause).fs.handler = s.fs.handler ∧ (s.failAttempt i cause).fs.ownFrames = s.fs.ownFrames
     ∧ (s.failAttempt i cause).fs.holdOff = s.fs.holdOff ∧ (s.failAttempt i cause).pt = s.pt ∧ (s.failAttempt i cause).du = s.du
     ∧ (s.failAttempt i cause).pu = s.pu ∧ (s.failAttempt i cause).su = s.su ∧ (s.failAttempt i cause).mi = s.mi
     ∧ (s.failAttempt i cause).rp = s.rp := by
  unfold State.failAttempt
  (repeat' split) <;> simp

@[simp] theorem makeAward_keeps (s : State) (i : Nat) (x : Inst) (a : AwardRec) (route : Option Nat) :
    (s.makeAward i x a route).pending = s.pending ∧ (s.makeAward i x a route).time = s.time
     ∧ (s.makeAward i x a route).windowMs = s.windowMs ∧ (s.makeAward i x a route).oldWindows = s.oldWindows
     ∧ (s.makeAward i x a route).field = s.field ∧ (s.makeAward i x a route).freeIdx = s.freeIdx
     ∧ (s.makeAward i x a route).yard = s.yard ∧ (s.makeAward i x a route).li = s.li
     ∧ (s.makeAward i x a route).fs.free = s.fs.free ∧ (s.makeAward i x a route).fs.inbox = s.fs.inbox
     ∧ (s.makeAward i x a route).fs.active = s.fs.active ∧ (s.makeAward i x a route).fs.handler = s.fs.handler
     ∧ (s.makeAward i x a route).fs.ownFrames = s.fs.ownFrames ∧ (s.makeAward i x a route).fs.holdOff = s.fs.holdOff
     ∧ (s.makeAward i x a route).pt = s.pt ∧ (s.makeAward i x a route).du = s.du ∧ (s.makeAward i x a route).su = s.su
     ∧ (s.makeAward i x a route).mi.mem = s.mi.mem ∧ (s.makeAward i x a route).mi.startup = s.mi.startup
     ∧ (s.makeAward i x a route).mi.desc = s.mi.desc := by
  unfold State.makeAward
  (repeat' split) <;> simp

@[simp] theorem directAward_keeps (s : State) (i : Nat) :
    (s.directAward i).pending = s.pending ∧ (s.directAward i).time = s.time ∧ (s.directAward i).windowMs = s.windowMs
     ∧ (s.directAward i).oldWindows = s.oldWindows ∧ (s.directAward i).field = s.field ∧ (s.directAward i).freeIdx = s.freeIdx
     ∧ (s.directAward i).yard = s.yard ∧ (s.directAward i).li = s.li ∧ (s.directAward i).fs.free = s.fs.free
     ∧ (s.directAward i).fs.inbox = s.fs.inbox ∧ (s.directAward i).fs.active = s.fs.active
     ∧ (s.directAward i).fs.handler = s.fs.handler ∧ (s.directAward i).fs.ownFrames = s.fs.ownFrames
     ∧ (s.directAward i).fs.holdOff = s.fs.holdOff ∧ (s.directAward i).pt = s.pt ∧ (s.directAward i).du = s.du
     ∧ (s.directAward i).su = s.su ∧ (s.directAward i).mi.mem = s.mi.mem ∧ (s.directAward i).mi.startup = s.mi.startup
     ∧ (s.directAward i).mi.desc = s.mi.desc := by
  unfold State.directAward
  (repeat' split) <;> simp

@[simp] theorem takeBid_keeps (s : State) (call : CallId) (road score : Nat) (rx : Option RxRec) :
    (s.takeBid call road score rx).pending = s.pending ∧ (s.takeBid call road score rx).time = s.time
     ∧ (s.takeBid call road score rx).windowMs = s.windowMs ∧ (s.takeBid call road score rx).oldWindows = s.oldWindows
     ∧ (s.takeBid call road score rx).field = s.field ∧ (s.takeBid call road score rx).freeIdx = s.freeIdx
     ∧ (s.takeBid call road score rx).yard = s.yard ∧ (s.takeBid call road score rx).li = s.li
     ∧ (s.takeBid call road score rx).fs = s.fs ∧ (s.takeBid call road score rx).cnt = s.cnt
     ∧ (s.takeBid call road score rx).pt = s.pt ∧ (s.takeBid call road score rx).du = s.du
     ∧ (s.takeBid call road score rx).pu = s.pu ∧ (s.takeBid call road score rx).su = s.su
     ∧ (s.takeBid call road score rx).rq = s.rq ∧ (s.takeBid call road score rx).ct = s.ct
     ∧ (s.takeBid call road score rx).yu = s.yu ∧ (s.takeBid call road score rx).mi = s.mi
     ∧ (s.takeBid call road score rx).rp = s.rp := by
  (repeat' apply And.intro) <;> (unfold State.takeBid; try dsimp only) <;> (repeat' split) <;>
    first | rfl | (simp; done) | simp

@[simp] theorem bidExpiry_keeps (s : State) (i : Nat) :
    (s.bidExpiry i).pending = s.pending ∧ (s.bidExpiry i).time = s.time ∧ (s.bidExpiry i).windowMs = s.windowMs
     ∧ (s.bidExpiry i).oldWindows = s.oldWindows ∧ (s.bidExpiry i).field = s.field ∧ (s.bidExpiry i).freeIdx = s.freeIdx
     ∧ (s.bidExpiry i).yard = s.yard ∧ (s.bidExpiry i).li = s.li ∧ (s.bidExpiry i).fs.free = s.fs.free
     ∧ (s.bidExpiry i).fs.inbox = s.fs.inbox ∧ (s.bidExpiry i).fs.active = s.fs.active ∧ (s.bidExpiry i).fs.handler = s.fs.handler
     ∧ (s.bidExpiry i).fs.ownFrames = s.fs.ownFrames ∧ (s.bidExpiry i).fs.holdOff = s.fs.holdOff ∧ (s.bidExpiry i).pt = s.pt
     ∧ (s.bidExpiry i).du = s.du ∧ (s.bidExpiry i).su = s.su ∧ (s.bidExpiry i).mi.mem = s.mi.mem
     ∧ (s.bidExpiry i).mi.startup = s.mi.startup ∧ (s.bidExpiry i).mi.desc = s.mi.desc := by
  unfold State.bidExpiry
  (repeat' split) <;> simp

@[simp] theorem takeRoadChange_keeps (s : State) :
    s.takeRoadChange.pending = s.pending ∧ s.takeRoadChange.time = s.time ∧ s.takeRoadChange.windowMs = s.windowMs
     ∧ s.takeRoadChange.oldWindows = s.oldWindows ∧ s.takeRoadChange.field = s.field ∧ s.takeRoadChange.freeIdx = s.freeIdx
     ∧ s.takeRoadChange.yard = s.yard ∧ s.takeRoadChange.li = s.li ∧ s.takeRoadChange.fs.free = s.fs.free
     ∧ s.takeRoadChange.fs.inbox = s.fs.inbox ∧ s.takeRoadChange.fs.active = s.fs.active
     ∧ s.takeRoadChange.fs.handler = s.fs.handler ∧ s.takeRoadChange.fs.ownFrames = s.fs.ownFrames
     ∧ s.takeRoadChange.fs.holdOff = s.fs.holdOff ∧ s.takeRoadChange.pt = s.pt ∧ s.takeRoadChange.du = s.du
     ∧ s.takeRoadChange.pu = s.pu ∧ s.takeRoadChange.su = s.su ∧ s.takeRoadChange.rq = s.rq ∧ s.takeRoadChange.ct = s.ct
     ∧ s.takeRoadChange.mi = s.mi ∧ s.takeRoadChange.rp = s.rp := by
  (repeat' apply And.intro) <;> (unfold State.takeRoadChange; try dsimp only) <;> (repeat' split) <;>
    first | rfl | (simp; done) | simp (disch := (intros; (try dsimp only); (repeat' split) <;> try simp))

@[simp] theorem enterSettingRoute_keeps (s : State) (i : Nat) :
    (s.enterSettingRoute i).pending = s.pending ∧ (s.enterSettingRoute i).time = s.time
     ∧ (s.enterSettingRoute i).windowMs = s.windowMs ∧ (s.enterSettingRoute i).oldWindows = s.oldWindows
     ∧ (s.enterSettingRoute i).field = s.field ∧ (s.enterSettingRoute i).freeIdx = s.freeIdx
     ∧ (s.enterSettingRoute i).yard = s.yard ∧ (s.enterSettingRoute i).li = s.li ∧ (s.enterSettingRoute i).fs.free = s.fs.free
     ∧ (s.enterSettingRoute i).fs.inbox = s.fs.inbox ∧ (s.enterSettingRoute i).fs.active = s.fs.active
     ∧ (s.enterSettingRoute i).fs.handler = s.fs.handler ∧ (s.enterSettingRoute i).fs.ownFrames = s.fs.ownFrames
     ∧ (s.enterSettingRoute i).fs.holdOff = s.fs.holdOff ∧ (s.enterSettingRoute i).pt = s.pt ∧ (s.enterSettingRoute i).du = s.du
     ∧ (s.enterSettingRoute i).pu = s.pu ∧ (s.enterSettingRoute i).su = s.su ∧ (s.enterSettingRoute i).rq = s.rq
     ∧ (s.enterSettingRoute i).yu = s.yu ∧ (s.enterSettingRoute i).mi = s.mi ∧ (s.enterSettingRoute i).rp = s.rp := by
  (repeat' apply And.intro) <;> (unfold State.enterSettingRoute; try dsimp only) <;> (repeat' split) <;>
    first | rfl | (simp; done) | simp (disch := (intros; (try dsimp only); (repeat' split) <;> try simp))

@[simp] theorem enterClearing_keeps (s : State) (i : Nat) :
    (s.enterClearing i).pending = s.pending ∧ (s.enterClearing i).time = s.time ∧ (s.enterClearing i).windowMs = s.windowMs
     ∧ (s.enterClearing i).oldWindows = s.oldWindows ∧ (s.enterClearing i).field = s.field
     ∧ (s.enterClearing i).freeIdx = s.freeIdx ∧ (s.enterClearing i).yard = s.yard ∧ (s.enterClearing i).li = s.li
     ∧ (s.enterClearing i).fs = s.fs ∧ (s.enterClearing i).cnt = s.cnt ∧ (s.enterClearing i).pt = s.pt
     ∧ (s.enterClearing i).du = s.du ∧ (s.enterClearing i).pu = s.pu ∧ (s.enterClearing i).rq = s.rq
     ∧ (s.enterClearing i).ct = s.ct ∧ (s.enterClearing i).yu = s.yu ∧ (s.enterClearing i).mi = s.mi
     ∧ (s.enterClearing i).rp = s.rp := by
  unfold State.enterClearing
  (repeat' split) <;> simp

@[simp] theorem allSet_keeps (s : State) (i : Nat) (x : Inst) :
    (s.allSet i x).pending = s.pending ∧ (s.allSet i x).time = s.time ∧ (s.allSet i x).windowMs = s.windowMs
     ∧ (s.allSet i x).oldWindows = s.oldWindows ∧ (s.allSet i x).field = s.field ∧ (s.allSet i x).freeIdx = s.freeIdx
     ∧ (s.allSet i x).yard = s.yard ∧ (s.allSet i x).li = s.li ∧ (s.allSet i x).fs.free = s.fs.free
     ∧ (s.allSet i x).fs.inbox = s.fs.inbox ∧ (s.allSet i x).fs.active = s.fs.active ∧ (s.allSet i x).fs.handler = s.fs.handler
     ∧ (s.allSet i x).fs.ownFrames = s.fs.ownFrames ∧ (s.allSet i x).fs.holdOff = s.fs.holdOff ∧ (s.allSet i x).pt = s.pt
     ∧ (s.allSet i x).du = s.du ∧ (s.allSet i x).pu = s.pu ∧ (s.allSet i x).mi = s.mi ∧ (s.allSet i x).rp = s.rp := by
  unfold State.allSet
  (repeat' split) <;> simp

@[simp] theorem endDegraded_keeps (s : State) (i : Nat) (x : Inst) (spareChanged : Bool) :
    (s.endDegraded i x spareChanged).pending = s.pending ∧ (s.endDegraded i x spareChanged).time = s.time
     ∧ (s.endDegraded i x spareChanged).windowMs = s.windowMs ∧ (s.endDegraded i x spareChanged).oldWindows = s.oldWindows
     ∧ (s.endDegraded i x spareChanged).field = s.field ∧ (s.endDegraded i x spareChanged).freeIdx = s.freeIdx
     ∧ (s.endDegraded i x spareChanged).yard = s.yard ∧ (s.endDegraded i x spareChanged).li = s.li
     ∧ (s.endDegraded i x spareChanged).fs.free = s.fs.free ∧ (s.endDegraded i x spareChanged).fs.inbox = s.fs.inbox
     ∧ (s.endDegraded i x spareChanged).fs.active = s.fs.active ∧ (s.endDegraded i x spareChanged).fs.handler = s.fs.handler
     ∧ (s.endDegraded i x spareChanged).fs.ownFrames = s.fs.ownFrames ∧ (s.endDegraded i x spareChanged).fs.holdOff = s.fs.holdOff
     ∧ (s.endDegraded i x spareChanged).pt = s.pt ∧ (s.endDegraded i x spareChanged).du = s.du
     ∧ (s.endDegraded i x spareChanged).pu = s.pu ∧ (s.endDegraded i x spareChanged).su = s.su
     ∧ (s.endDegraded i x spareChanged).yu = s.yu ∧ (s.endDegraded i x spareChanged).mi = s.mi
     ∧ (s.endDegraded i x spareChanged).rp = s.rp := by
  (repeat' apply And.intro) <;> (unfold State.endDegraded; try dsimp only) <;> (repeat' split) <;>
    first | rfl | (simp; done) | simp (disch := (intros; (try dsimp only); (repeat' split) <;> try simp))

@[simp] theorem checkEnd_keeps (s : State) (i : Nat) :
    (s.checkEnd i).pending = s.pending ∧ (s.checkEnd i).time = s.time ∧ (s.checkEnd i).windowMs = s.windowMs
     ∧ (s.checkEnd i).oldWindows = s.oldWindows ∧ (s.checkEnd i).field = s.field ∧ (s.checkEnd i).freeIdx = s.freeIdx
     ∧ (s.checkEnd i).yard = s.yard ∧ (s.checkEnd i).li = s.li ∧ (s.checkEnd i).fs.free = s.fs.free
     ∧ (s.checkEnd i).fs.inbox = s.fs.inbox ∧ (s.checkEnd i).fs.active = s.fs.active ∧ (s.checkEnd i).fs.handler = s.fs.handler
     ∧ (s.checkEnd i).fs.ownFrames = s.fs.ownFrames ∧ (s.checkEnd i).fs.holdOff = s.fs.holdOff ∧ (s.checkEnd i).pt = s.pt
     ∧ (s.checkEnd i).du = s.du ∧ (s.checkEnd i).pu = s.pu ∧ (s.checkEnd i).su = s.su ∧ (s.checkEnd i).yu = s.yu
     ∧ (s.checkEnd i).mi = s.mi ∧ (s.checkEnd i).rp = s.rp := by
  unfold State.checkEnd
  (repeat' split) <;> simp

@[simp] theorem enterEntered_keeps (s : State) (i : Nat) :
    (s.enterEntered i).pending = s.pending ∧ (s.enterEntered i).time = s.time ∧ (s.enterEntered i).windowMs = s.windowMs
     ∧ (s.enterEntered i).oldWindows = s.oldWindows ∧ (s.enterEntered i).field = s.field ∧ (s.enterEntered i).freeIdx = s.freeIdx
     ∧ (s.enterEntered i).yard = s.yard ∧ (s.enterEntered i).li = s.li ∧ (s.enterEntered i).fs.free = s.fs.free
     ∧ (s.enterEntered i).fs.inbox = s.fs.inbox ∧ (s.enterEntered i).fs.active = s.fs.active
     ∧ (s.enterEntered i).fs.handler = s.fs.handler ∧ (s.enterEntered i).fs.ownFrames = s.fs.ownFrames
     ∧ (s.enterEntered i).fs.holdOff = s.fs.holdOff ∧ (s.enterEntered i).pt = s.pt ∧ (s.enterEntered i).du = s.du
     ∧ (s.enterEntered i).pu = s.pu ∧ (s.enterEntered i).su = s.su ∧ (s.enterEntered i).yu = s.yu ∧ (s.enterEntered i).mi = s.mi
     ∧ (s.enterEntered i).rp = s.rp := by
  unfold State.enterEntered
  simp

@[simp] theorem countPassed_keeps (s : State) (i : Nat) (x : Inst) (p : Nat → RouteStep → Bool) :
    (s.countPassed i x p).pending = s.pending ∧ (s.countPassed i x p).time = s.time ∧ (s.countPassed i x p).windowMs = s.windowMs
     ∧ (s.countPassed i x p).oldWindows = s.oldWindows ∧ (s.countPassed i x p).field = s.field
     ∧ (s.countPassed i x p).freeIdx = s.freeIdx ∧ (s.countPassed i x p).yard = s.yard ∧ (s.countPassed i x p).li = s.li
     ∧ (s.countPassed i x p).fs.free = s.fs.free ∧ (s.countPassed i x p).fs.inbox = s.fs.inbox
     ∧ (s.countPassed i x p).fs.active = s.fs.active ∧ (s.countPassed i x p).fs.handler = s.fs.handler
     ∧ (s.countPassed i x p).fs.ownFrames = s.fs.ownFrames ∧ (s.countPassed i x p).fs.holdOff = s.fs.holdOff
     ∧ (s.countPassed i x p).pt = s.pt ∧ (s.countPassed i x p).du = s.du ∧ (s.countPassed i x p).pu = s.pu
     ∧ (s.countPassed i x p).su = s.su ∧ (s.countPassed i x p).yu = s.yu ∧ (s.countPassed i x p).mi = s.mi
     ∧ (s.countPassed i x p).rp = s.rp := by
  (repeat' apply And.intro) <;> (unfold State.countPassed; try dsimp only) <;> (repeat' split) <;>
    first | rfl | (simp; done) | simp

@[simp] theorem letGo_keeps (s : State) (i : Nat) (x : Inst) (code : OutcomeCode) :
    (s.letGo i x code).pending = s.pending ∧ (s.letGo i x code).time = s.time ∧ (s.letGo i x code).windowMs = s.windowMs
     ∧ (s.letGo i x code).oldWindows = s.oldWindows ∧ (s.letGo i x code).field = s.field ∧ (s.letGo i x code).freeIdx = s.freeIdx
     ∧ (s.letGo i x code).yard = s.yard ∧ (s.letGo i x code).li = s.li ∧ (s.letGo i x code).fs.free = s.fs.free
     ∧ (s.letGo i x code).fs.inbox = s.fs.inbox ∧ (s.letGo i x code).fs.active = s.fs.active
     ∧ (s.letGo i x code).fs.handler = s.fs.handler ∧ (s.letGo i x code).fs.ownFrames = s.fs.ownFrames
     ∧ (s.letGo i x code).fs.holdOff = s.fs.holdOff ∧ (s.letGo i x code).pt = s.pt ∧ (s.letGo i x code).du = s.du
     ∧ (s.letGo i x code).pu = s.pu ∧ (s.letGo i x code).su = s.su ∧ (s.letGo i x code).mi = s.mi ∧ (s.letGo i x code).rp = s.rp := by
  unfold State.letGo
  simp

@[simp] theorem enterCancelling_keeps (s : State) (i : Nat) (cause : CancelCause) :
    (s.enterCancelling i cause).pending = s.pending ∧ (s.enterCancelling i cause).time = s.time
     ∧ (s.enterCancelling i cause).windowMs = s.windowMs ∧ (s.enterCancelling i cause).oldWindows = s.oldWindows
     ∧ (s.enterCancelling i cause).field = s.field ∧ (s.enterCancelling i cause).freeIdx = s.freeIdx
     ∧ (s.enterCancelling i cause).yard = s.yard ∧ (s.enterCancelling i cause).li = s.li
     ∧ (s.enterCancelling i cause).fs.free = s.fs.free ∧ (s.enterCancelling i cause).fs.inbox = s.fs.inbox
     ∧ (s.enterCancelling i cause).fs.active = s.fs.active ∧ (s.enterCancelling i cause).fs.handler = s.fs.handler
     ∧ (s.enterCancelling i cause).fs.ownFrames = s.fs.ownFrames ∧ (s.enterCancelling i cause).fs.holdOff = s.fs.holdOff
     ∧ (s.enterCancelling i cause).pt = s.pt ∧ (s.enterCancelling i cause).du = s.du ∧ (s.enterCancelling i cause).pu = s.pu
     ∧ (s.enterCancelling i cause).mi = s.mi ∧ (s.enterCancelling i cause).rp = s.rp := by
  (repeat' apply And.intro) <;> (unfold State.enterCancelling; try dsimp only) <;> (repeat' split) <;>
    first | rfl | (simp; done) | simp

@[simp] theorem takeCancel_keeps (s : State) (m : CancelMsg) :
    (s.takeCancel m).pending = s.pending ∧ (s.takeCancel m).time = s.time ∧ (s.takeCancel m).windowMs = s.windowMs
     ∧ (s.takeCancel m).oldWindows = s.oldWindows ∧ (s.takeCancel m).field = s.field ∧ (s.takeCancel m).freeIdx = s.freeIdx
     ∧ (s.takeCancel m).yard = s.yard ∧ (s.takeCancel m).li = s.li ∧ (s.takeCancel m).fs.free = s.fs.free
     ∧ (s.takeCancel m).fs.inbox = s.fs.inbox ∧ (s.takeCancel m).fs.active = s.fs.active
     ∧ (s.takeCancel m).fs.handler = s.fs.handler ∧ (s.takeCancel m).fs.ownFrames = s.fs.ownFrames
     ∧ (s.takeCancel m).fs.holdOff = s.fs.holdOff ∧ (s.takeCancel m).pt = s.pt ∧ (s.takeCancel m).du = s.du
     ∧ (s.takeCancel m).pu = s.pu ∧ (s.takeCancel m).mi = s.mi ∧ (s.takeCancel m).rp = s.rp := by
  unfold State.takeCancel
  (repeat' split) <;> simp

@[simp] theorem stale_keeps (s : State) :
    s.stale.pending = s.pending ∧ s.stale.time = s.time ∧ s.stale.windowMs = s.windowMs ∧ s.stale.oldWindows = s.oldWindows
     ∧ s.stale.field = s.field ∧ s.stale.freeIdx = s.freeIdx ∧ s.stale.yard = s.yard ∧ s.stale.li = s.li ∧ s.stale.fs = s.fs
     ∧ s.stale.pt = s.pt ∧ s.stale.du = s.du ∧ s.stale.pu = s.pu ∧ s.stale.su = s.su ∧ s.stale.rq = s.rq ∧ s.stale.re = s.re
     ∧ s.stale.ct = s.ct ∧ s.stale.yu = s.yu ∧ s.stale.mi = s.mi ∧ s.stale.rp = s.rp := by
  unfold State.stale
  simp

@[simp] theorem answerStaleGrant_keeps (s : State) (key : RouteKey) (rx : Option RxRec) :
    (s.answerStaleGrant key rx).pending = s.pending ∧ (s.answerStaleGrant key rx).time = s.time
     ∧ (s.answerStaleGrant key rx).windowMs = s.windowMs ∧ (s.answerStaleGrant key rx).oldWindows = s.oldWindows
     ∧ (s.answerStaleGrant key rx).field = s.field ∧ (s.answerStaleGrant key rx).freeIdx = s.freeIdx
     ∧ (s.answerStaleGrant key rx).yard = s.yard ∧ (s.answerStaleGrant key rx).li = s.li
     ∧ (s.answerStaleGrant key rx).fs.free = s.fs.free ∧ (s.answerStaleGrant key rx).fs.inbox = s.fs.inbox
     ∧ (s.answerStaleGrant key rx).fs.active = s.fs.active ∧ (s.answerStaleGrant key rx).fs.handler = s.fs.handler
     ∧ (s.answerStaleGrant key rx).fs.ownFrames = s.fs.ownFrames ∧ (s.answerStaleGrant key rx).fs.holdOff = s.fs.holdOff
     ∧ (s.answerStaleGrant key rx).pt = s.pt ∧ (s.answerStaleGrant key rx).du = s.du ∧ (s.answerStaleGrant key rx).pu = s.pu
     ∧ (s.answerStaleGrant key rx).su = s.su ∧ (s.answerStaleGrant key rx).rq = s.rq ∧ (s.answerStaleGrant key rx).re = s.re
     ∧ (s.answerStaleGrant key rx).yu = s.yu ∧ (s.answerStaleGrant key rx).mi = s.mi ∧ (s.answerStaleGrant key rx).rp = s.rp := by
  unfold State.answerStaleGrant
  simp

@[simp] theorem recordGrant_keeps (s : State) (i : Nat) (x : Inst) (claimId : Nat) (rx : Option RxRec) :
    (s.recordGrant i x claimId rx).pending = s.pending ∧ (s.recordGrant i x claimId rx).time = s.time
     ∧ (s.recordGrant i x claimId rx).windowMs = s.windowMs ∧ (s.recordGrant i x claimId rx).oldWindows = s.oldWindows
     ∧ (s.recordGrant i x claimId rx).field = s.field ∧ (s.recordGrant i x claimId rx).freeIdx = s.freeIdx
     ∧ (s.recordGrant i x claimId rx).yard = s.yard ∧ (s.recordGrant i x claimId rx).li = s.li
     ∧ (s.recordGrant i x claimId rx).fs.free = s.fs.free ∧ (s.recordGrant i x claimId rx).fs.inbox = s.fs.inbox
     ∧ (s.recordGrant i x claimId rx).fs.active = s.fs.active ∧ (s.recordGrant i x claimId rx).fs.handler = s.fs.handler
     ∧ (s.recordGrant i x claimId rx).fs.ownFrames = s.fs.ownFrames ∧ (s.recordGrant i x claimId rx).fs.holdOff = s.fs.holdOff
     ∧ (s.recordGrant i x claimId rx).pt = s.pt ∧ (s.recordGrant i x claimId rx).du = s.du
     ∧ (s.recordGrant i x claimId rx).pu = s.pu ∧ (s.recordGrant i x claimId rx).su = s.su
     ∧ (s.recordGrant i x claimId rx).rq = s.rq ∧ (s.recordGrant i x claimId rx).yu = s.yu
     ∧ (s.recordGrant i x claimId rx).mi = s.mi ∧ (s.recordGrant i x claimId rx).rp = s.rp := by
  (repeat' apply And.intro) <;> (unfold State.recordGrant; try dsimp only) <;> (repeat' split) <;>
    first | rfl | (simp; done) | simp

@[simp] theorem takeGrant_keeps (s : State) (key : RouteKey) (claimId : Nat) (rx : Option RxRec) :
    (s.takeGrant key claimId rx).pending = s.pending ∧ (s.takeGrant key claimId rx).time = s.time
     ∧ (s.takeGrant key claimId rx).windowMs = s.windowMs ∧ (s.takeGrant key claimId rx).oldWindows = s.oldWindows
     ∧ (s.takeGrant key claimId rx).field = s.field ∧ (s.takeGrant key claimId rx).freeIdx = s.freeIdx
     ∧ (s.takeGrant key claimId rx).yard = s.yard ∧ (s.takeGrant key claimId rx).li = s.li
     ∧ (s.takeGrant key claimId rx).fs.free = s.fs.free ∧ (s.takeGrant key claimId rx).fs.inbox = s.fs.inbox
     ∧ (s.takeGrant key claimId rx).fs.active = s.fs.active ∧ (s.takeGrant key claimId rx).fs.handler = s.fs.handler
     ∧ (s.takeGrant key claimId rx).fs.ownFrames = s.fs.ownFrames ∧ (s.takeGrant key claimId rx).fs.holdOff = s.fs.holdOff
     ∧ (s.takeGrant key claimId rx).pt = s.pt ∧ (s.takeGrant key claimId rx).du = s.du ∧ (s.takeGrant key claimId rx).pu = s.pu
     ∧ (s.takeGrant key claimId rx).su = s.su ∧ (s.takeGrant key claimId rx).rq = s.rq ∧ (s.takeGrant key claimId rx).yu = s.yu
     ∧ (s.takeGrant key claimId rx).mi = s.mi ∧ (s.takeGrant key claimId rx).rp = s.rp := by
  unfold State.takeGrant
  (repeat' split) <;> simp

@[simp] theorem takeDeny_keeps (s : State) (i : Nat) (x : Inst) (reason : DenyReason) (rx : Option RxRec) :
    (s.takeDeny i x reason rx).pending = s.pending ∧ (s.takeDeny i x reason rx).time = s.time
     ∧ (s.takeDeny i x reason rx).windowMs = s.windowMs ∧ (s.takeDeny i x reason rx).oldWindows = s.oldWindows
     ∧ (s.takeDeny i x reason rx).field = s.field ∧ (s.takeDeny i x reason rx).freeIdx = s.freeIdx
     ∧ (s.takeDeny i x reason rx).yard = s.yard ∧ (s.takeDeny i x reason rx).li = s.li
     ∧ (s.takeDeny i x reason rx).fs.free = s.fs.free ∧ (s.takeDeny i x reason rx).fs.inbox = s.fs.inbox
     ∧ (s.takeDeny i x reason rx).fs.active = s.fs.active ∧ (s.takeDeny i x reason rx).fs.handler = s.fs.handler
     ∧ (s.takeDeny i x reason rx).fs.ownFrames = s.fs.ownFrames ∧ (s.takeDeny i x reason rx).fs.holdOff = s.fs.holdOff
     ∧ (s.takeDeny i x reason rx).pt = s.pt ∧ (s.takeDeny i x reason rx).du = s.du ∧ (s.takeDeny i x reason rx).pu = s.pu
     ∧ (s.takeDeny i x reason rx).su = s.su ∧ (s.takeDeny i x reason rx).mi = s.mi ∧ (s.takeDeny i x reason rx).rp = s.rp := by
  unfold State.takeDeny
  (repeat' split) <;> simp

@[simp] theorem takeSetDone_keeps (s : State) (i : Nat) (x : Inst) (at_ : Time) (rx : Option RxRec) :
    (s.takeSetDone i x at_ rx).pending = s.pending ∧ (s.takeSetDone i x at_ rx).time = s.time
     ∧ (s.takeSetDone i x at_ rx).windowMs = s.windowMs ∧ (s.takeSetDone i x at_ rx).oldWindows = s.oldWindows
     ∧ (s.takeSetDone i x at_ rx).field = s.field ∧ (s.takeSetDone i x at_ rx).freeIdx = s.freeIdx
     ∧ (s.takeSetDone i x at_ rx).yard = s.yard ∧ (s.takeSetDone i x at_ rx).li = s.li
     ∧ (s.takeSetDone i x at_ rx).fs.free = s.fs.free ∧ (s.takeSetDone i x at_ rx).fs.inbox = s.fs.inbox
     ∧ (s.takeSetDone i x at_ rx).fs.active = s.fs.active ∧ (s.takeSetDone i x at_ rx).fs.handler = s.fs.handler
     ∧ (s.takeSetDone i x at_ rx).fs.ownFrames = s.fs.ownFrames ∧ (s.takeSetDone i x at_ rx).fs.holdOff = s.fs.holdOff
     ∧ (s.takeSetDone i x at_ rx).pt = s.pt ∧ (s.takeSetDone i x at_ rx).du = s.du ∧ (s.takeSetDone i x at_ rx).pu = s.pu
     ∧ (s.takeSetDone i x at_ rx).mi = s.mi ∧ (s.takeSetDone i x at_ rx).rp = s.rp := by
  (repeat' apply And.intro) <;> (unfold State.takeSetDone; try dsimp only) <;> (repeat' split) <;>
    first | rfl | (simp; done) | simp

@[simp] theorem takeSetFail_keeps (s : State) (i : Nat) (x : Inst) (rx : Option RxRec) :
    (s.takeSetFail i x rx).pending = s.pending ∧ (s.takeSetFail i x rx).time = s.time
     ∧ (s.takeSetFail i x rx).windowMs = s.windowMs ∧ (s.takeSetFail i x rx).oldWindows = s.oldWindows
     ∧ (s.takeSetFail i x rx).field = s.field ∧ (s.takeSetFail i x rx).freeIdx = s.freeIdx ∧ (s.takeSetFail i x rx).yard = s.yard
     ∧ (s.takeSetFail i x rx).li = s.li ∧ (s.takeSetFail i x rx).fs.free = s.fs.free
     ∧ (s.takeSetFail i x rx).fs.inbox = s.fs.inbox ∧ (s.takeSetFail i x rx).fs.active = s.fs.active
     ∧ (s.takeSetFail i x rx).fs.handler = s.fs.handler ∧ (s.takeSetFail i x rx).fs.ownFrames = s.fs.ownFrames
     ∧ (s.takeSetFail i x rx).fs.holdOff = s.fs.holdOff ∧ (s.takeSetFail i x rx).pt = s.pt ∧ (s.takeSetFail i x rx).du = s.du
     ∧ (s.takeSetFail i x rx).pu = s.pu ∧ (s.takeSetFail i x rx).su = s.su ∧ (s.takeSetFail i x rx).mi = s.mi
     ∧ (s.takeSetFail i x rx).rp = s.rp := by
  unfold State.takeSetFail
  (repeat' split) <;> simp

@[simp] theorem takeClaimLost_keeps (s : State) (i : Nat) (x : Inst) (rx : Option RxRec) :
    (s.takeClaimLost i x rx).pending = s.pending ∧ (s.takeClaimLost i x rx).time = s.time
     ∧ (s.takeClaimLost i x rx).windowMs = s.windowMs ∧ (s.takeClaimLost i x rx).oldWindows = s.oldWindows
     ∧ (s.takeClaimLost i x rx).field = s.field ∧ (s.takeClaimLost i x rx).freeIdx = s.freeIdx
     ∧ (s.takeClaimLost i x rx).yard = s.yard ∧ (s.takeClaimLost i x rx).li = s.li ∧ (s.takeClaimLost i x rx).fs.free = s.fs.free
     ∧ (s.takeClaimLost i x rx).fs.inbox = s.fs.inbox ∧ (s.takeClaimLost i x rx).fs.active = s.fs.active
     ∧ (s.takeClaimLost i x rx).fs.handler = s.fs.handler ∧ (s.takeClaimLost i x rx).fs.ownFrames = s.fs.ownFrames
     ∧ (s.takeClaimLost i x rx).fs.holdOff = s.fs.holdOff ∧ (s.takeClaimLost i x rx).pt = s.pt
     ∧ (s.takeClaimLost i x rx).du = s.du ∧ (s.takeClaimLost i x rx).pu = s.pu ∧ (s.takeClaimLost i x rx).mi = s.mi
     ∧ (s.takeClaimLost i x rx).rp = s.rp := by
  unfold State.takeClaimLost
  (repeat' split) <;> simp

@[simp] theorem takePassed_keeps (s : State) (i : Nat) (x : Inst) (number : Nat) (rx : Option RxRec) :
    (s.takePassed i x number rx).pending = s.pending ∧ (s.takePassed i x number rx).time = s.time
     ∧ (s.takePassed i x number rx).windowMs = s.windowMs ∧ (s.takePassed i x number rx).oldWindows = s.oldWindows
     ∧ (s.takePassed i x number rx).field = s.field ∧ (s.takePassed i x number rx).freeIdx = s.freeIdx
     ∧ (s.takePassed i x number rx).yard = s.yard ∧ (s.takePassed i x number rx).li = s.li
     ∧ (s.takePassed i x number rx).fs.free = s.fs.free ∧ (s.takePassed i x number rx).fs.inbox = s.fs.inbox
     ∧ (s.takePassed i x number rx).fs.active = s.fs.active ∧ (s.takePassed i x number rx).fs.handler = s.fs.handler
     ∧ (s.takePassed i x number rx).fs.ownFrames = s.fs.ownFrames ∧ (s.takePassed i x number rx).fs.holdOff = s.fs.holdOff
     ∧ (s.takePassed i x number rx).pt = s.pt ∧ (s.takePassed i x number rx).du = s.du ∧ (s.takePassed i x number rx).pu = s.pu
     ∧ (s.takePassed i x number rx).su = s.su ∧ (s.takePassed i x number rx).yu = s.yu ∧ (s.takePassed i x number rx).mi = s.mi
     ∧ (s.takePassed i x number rx).rp = s.rp := by
  unfold State.takePassed
  (repeat' split) <;> simp

@[simp] theorem takeReply_keeps (s : State) (m : ReMsg) (rx : Option RxRec) :
    (s.takeReply m rx).pending = s.pending ∧ (s.takeReply m rx).time = s.time ∧ (s.takeReply m rx).windowMs = s.windowMs
     ∧ (s.takeReply m rx).oldWindows = s.oldWindows ∧ (s.takeReply m rx).field = s.field ∧ (s.takeReply m rx).freeIdx = s.freeIdx
     ∧ (s.takeReply m rx).yard = s.yard ∧ (s.takeReply m rx).li = s.li ∧ (s.takeReply m rx).fs.free = s.fs.free
     ∧ (s.takeReply m rx).fs.inbox = s.fs.inbox ∧ (s.takeReply m rx).fs.active = s.fs.active
     ∧ (s.takeReply m rx).fs.handler = s.fs.handler ∧ (s.takeReply m rx).fs.ownFrames = s.fs.ownFrames
     ∧ (s.takeReply m rx).fs.holdOff = s.fs.holdOff ∧ (s.takeReply m rx).pt = s.pt ∧ (s.takeReply m rx).du = s.du
     ∧ (s.takeReply m rx).pu = s.pu ∧ (s.takeReply m rx).mi = s.mi ∧ (s.takeReply m rx).rp = s.rp := by
  unfold State.takeReply
  (repeat' split) <;> simp

@[simp] theorem takeProved_keeps (s : State) (g : Nat) :
    (s.takeProved g).pending = s.pending ∧ (s.takeProved g).time = s.time ∧ (s.takeProved g).windowMs = s.windowMs
     ∧ (s.takeProved g).oldWindows = s.oldWindows ∧ (s.takeProved g).field = s.field ∧ (s.takeProved g).freeIdx = s.freeIdx
     ∧ (s.takeProved g).yard = s.yard ∧ (s.takeProved g).li = s.li ∧ (s.takeProved g).fs = s.fs ∧ (s.takeProved g).pt = s.pt
     ∧ (s.takeProved g).du = s.du ∧ (s.takeProved g).pu = s.pu ∧ (s.takeProved g).rq = s.rq ∧ (s.takeProved g).ct = s.ct
     ∧ (s.takeProved g).yu = s.yu ∧ (s.takeProved g).mi = s.mi ∧ (s.takeProved g).rp = s.rp := by
  unfold State.takeProved
  (repeat' split) <;> simp

@[simp] theorem takeClearFail_keeps (s : State) (g : Nat) :
    (s.takeClearFail g).pending = s.pending ∧ (s.takeClearFail g).time = s.time ∧ (s.takeClearFail g).windowMs = s.windowMs
     ∧ (s.takeClearFail g).oldWindows = s.oldWindows ∧ (s.takeClearFail g).field = s.field
     ∧ (s.takeClearFail g).freeIdx = s.freeIdx ∧ (s.takeClearFail g).yard = s.yard ∧ (s.takeClearFail g).li = s.li
     ∧ (s.takeClearFail g).fs.free = s.fs.free ∧ (s.takeClearFail g).fs.inbox = s.fs.inbox
     ∧ (s.takeClearFail g).fs.active = s.fs.active ∧ (s.takeClearFail g).fs.handler = s.fs.handler
     ∧ (s.takeClearFail g).fs.ownFrames = s.fs.ownFrames ∧ (s.takeClearFail g).fs.holdOff = s.fs.holdOff
     ∧ (s.takeClearFail g).pt = s.pt ∧ (s.takeClearFail g).du = s.du ∧ (s.takeClearFail g).pu = s.pu
     ∧ (s.takeClearFail g).mi = s.mi ∧ (s.takeClearFail g).rp = s.rp := by
  unfold State.takeClearFail
  (repeat' split) <;> simp

@[simp] theorem takeLampFault_keeps (s : State) (g : Nat) :
    (s.takeLampFault g).pending = s.pending ∧ (s.takeLampFault g).time = s.time ∧ (s.takeLampFault g).windowMs = s.windowMs
     ∧ (s.takeLampFault g).oldWindows = s.oldWindows ∧ (s.takeLampFault g).field = s.field
     ∧ (s.takeLampFault g).freeIdx = s.freeIdx ∧ (s.takeLampFault g).yard = s.yard ∧ (s.takeLampFault g).li = s.li
     ∧ (s.takeLampFault g).fs.free = s.fs.free ∧ (s.takeLampFault g).fs.inbox = s.fs.inbox
     ∧ (s.takeLampFault g).fs.active = s.fs.active ∧ (s.takeLampFault g).fs.handler = s.fs.handler
     ∧ (s.takeLampFault g).fs.ownFrames = s.fs.ownFrames ∧ (s.takeLampFault g).fs.holdOff = s.fs.holdOff
     ∧ (s.takeLampFault g).pt = s.pt ∧ (s.takeLampFault g).du = s.du ∧ (s.takeLampFault g).pu = s.pu
     ∧ (s.takeLampFault g).mi = s.mi ∧ (s.takeLampFault g).rp = s.rp := by
  unfold State.takeLampFault
  (repeat' split) <;> simp

@[simp] theorem trampedFirst_keeps (s : State) (i : Nat) (x : Inst) :
    (s.trampedFirst i x).pending = s.pending ∧ (s.trampedFirst i x).time = s.time ∧ (s.trampedFirst i x).windowMs = s.windowMs
     ∧ (s.trampedFirst i x).oldWindows = s.oldWindows ∧ (s.trampedFirst i x).field = s.field
     ∧ (s.trampedFirst i x).freeIdx = s.freeIdx ∧ (s.trampedFirst i x).yard = s.yard ∧ (s.trampedFirst i x).li = s.li
     ∧ (s.trampedFirst i x).fs.free = s.fs.free ∧ (s.trampedFirst i x).fs.inbox = s.fs.inbox
     ∧ (s.trampedFirst i x).fs.active = s.fs.active ∧ (s.trampedFirst i x).fs.handler = s.fs.handler
     ∧ (s.trampedFirst i x).fs.ownFrames = s.fs.ownFrames ∧ (s.trampedFirst i x).fs.holdOff = s.fs.holdOff
     ∧ (s.trampedFirst i x).pt = s.pt ∧ (s.trampedFirst i x).du = s.du ∧ (s.trampedFirst i x).pu = s.pu
     ∧ (s.trampedFirst i x).yu = s.yu ∧ (s.trampedFirst i x).mi = s.mi ∧ (s.trampedFirst i x).rp = s.rp := by
  unfold State.trampedFirst
  (repeat' split) <;> simp

@[simp] theorem reNotice_keeps (s : State) (n : SectNotice) :
    (s.reNotice n).pending = s.pending ∧ (s.reNotice n).time = s.time ∧ (s.reNotice n).windowMs = s.windowMs
     ∧ (s.reNotice n).oldWindows = s.oldWindows ∧ (s.reNotice n).field = s.field ∧ (s.reNotice n).freeIdx = s.freeIdx
     ∧ (s.reNotice n).yard = s.yard ∧ (s.reNotice n).li = s.li ∧ (s.reNotice n).fs.free = s.fs.free
     ∧ (s.reNotice n).fs.inbox = s.fs.inbox ∧ (s.reNotice n).fs.active = s.fs.active ∧ (s.reNotice n).fs.handler = s.fs.handler
     ∧ (s.reNotice n).fs.ownFrames = s.fs.ownFrames ∧ (s.reNotice n).fs.holdOff = s.fs.holdOff ∧ (s.reNotice n).pt = s.pt
     ∧ (s.reNotice n).du = s.du ∧ (s.reNotice n).pu = s.pu ∧ (s.reNotice n).yu = s.yu ∧ (s.reNotice n).mi = s.mi
     ∧ (s.reNotice n).rp = s.rp := by
  (repeat' apply And.intro) <;> (unfold State.reNotice; try dsimp only) <;> (repeat' split) <;>
    first | rfl | (simp; done) | simp (disch := (intros; (try dsimp only); (repeat' split) <;> try simp))

@[simp] theorem ownerGone_keeps (s : State) (peer : Nat) (epoch : Epoch) (changed : Bool) (i : Nat) (x : Inst) :
    (s.ownerGone peer epoch changed i x).pending = s.pending ∧ (s.ownerGone peer epoch changed i x).time = s.time
     ∧ (s.ownerGone peer epoch changed i x).windowMs = s.windowMs ∧ (s.ownerGone peer epoch changed i x).oldWindows = s.oldWindows
     ∧ (s.ownerGone peer epoch changed i x).field = s.field ∧ (s.ownerGone peer epoch changed i x).freeIdx = s.freeIdx
     ∧ (s.ownerGone peer epoch changed i x).yard = s.yard ∧ (s.ownerGone peer epoch changed i x).li = s.li
     ∧ (s.ownerGone peer epoch changed i x).fs.free = s.fs.free ∧ (s.ownerGone peer epoch changed i x).fs.inbox = s.fs.inbox
     ∧ (s.ownerGone peer epoch changed i x).fs.active = s.fs.active
     ∧ (s.ownerGone peer epoch changed i x).fs.handler = s.fs.handler
     ∧ (s.ownerGone peer epoch changed i x).fs.ownFrames = s.fs.ownFrames
     ∧ (s.ownerGone peer epoch changed i x).fs.holdOff = s.fs.holdOff ∧ (s.ownerGone peer epoch changed i x).pt = s.pt
     ∧ (s.ownerGone peer epoch changed i x).du = s.du ∧ (s.ownerGone peer epoch changed i x).pu = s.pu
     ∧ (s.ownerGone peer epoch changed i x).mi = s.mi ∧ (s.ownerGone peer epoch changed i x).rp = s.rp := by
  unfold State.ownerGone
  (repeat' split) <;> simp

@[simp] theorem reLost_keeps (s : State) (peer : Nat) (epoch : Epoch) (changed : Bool) :
    (s.reLost peer epoch changed).pending = s.pending ∧ (s.reLost peer epoch changed).time = s.time
     ∧ (s.reLost peer epoch changed).windowMs = s.windowMs ∧ (s.reLost peer epoch changed).oldWindows = s.oldWindows
     ∧ (s.reLost peer epoch changed).field = s.field ∧ (s.reLost peer epoch changed).freeIdx = s.freeIdx
     ∧ (s.reLost peer epoch changed).yard = s.yard ∧ (s.reLost peer epoch changed).li = s.li
     ∧ (s.reLost peer epoch changed).fs.free = s.fs.free ∧ (s.reLost peer epoch changed).fs.inbox = s.fs.inbox
     ∧ (s.reLost peer epoch changed).fs.active = s.fs.active ∧ (s.reLost peer epoch changed).fs.handler = s.fs.handler
     ∧ (s.reLost peer epoch changed).fs.ownFrames = s.fs.ownFrames ∧ (s.reLost peer epoch changed).fs.holdOff = s.fs.holdOff
     ∧ (s.reLost peer epoch changed).pt = s.pt ∧ (s.reLost peer epoch changed).du = s.du ∧ (s.reLost peer epoch changed).pu = s.pu
     ∧ (s.reLost peer epoch changed).mi = s.mi ∧ (s.reLost peer epoch changed).rp = s.rp := by
  (repeat' apply And.intro) <;> (unfold State.reLost; try dsimp only) <;> (repeat' split) <;>
    first | rfl | (simp; done) | simp (disch := (intros; (try dsimp only); (repeat' split) <;> try simp))

@[simp] theorem reReturned_keeps (s : State) (peer : Nat) (epoch : Epoch) :
    (s.reReturned peer epoch).pending = s.pending ∧ (s.reReturned peer epoch).time = s.time
     ∧ (s.reReturned peer epoch).windowMs = s.windowMs ∧ (s.reReturned peer epoch).oldWindows = s.oldWindows
     ∧ (s.reReturned peer epoch).field = s.field ∧ (s.reReturned peer epoch).freeIdx = s.freeIdx
     ∧ (s.reReturned peer epoch).yard = s.yard ∧ (s.reReturned peer epoch).li = s.li ∧ (s.reReturned peer epoch).fs = s.fs
     ∧ (s.reReturned peer epoch).cnt = s.cnt ∧ (s.reReturned peer epoch).pt = s.pt ∧ (s.reReturned peer epoch).du = s.du
     ∧ (s.reReturned peer epoch).pu = s.pu ∧ (s.reReturned peer epoch).su = s.su ∧ (s.reReturned peer epoch).rq = s.rq
     ∧ (s.reReturned peer epoch).ct = s.ct ∧ (s.reReturned peer epoch).yu = s.yu ∧ (s.reReturned peer epoch).mi = s.mi
     ∧ (s.reReturned peer epoch).rp = s.rp := by
  unfold State.reReturned
  (repeat' split) <;> simp

@[simp] theorem takeLockReport_keeps (s : State) (peer : Nat) (epoch : Epoch) (at_ : Time) (map : BitVec 16) :
    (s.takeLockReport peer epoch at_ map).pending = s.pending ∧ (s.takeLockReport peer epoch at_ map).time = s.time
     ∧ (s.takeLockReport peer epoch at_ map).windowMs = s.windowMs
     ∧ (s.takeLockReport peer epoch at_ map).oldWindows = s.oldWindows ∧ (s.takeLockReport peer epoch at_ map).field = s.field
     ∧ (s.takeLockReport peer epoch at_ map).freeIdx = s.freeIdx ∧ (s.takeLockReport peer epoch at_ map).yard = s.yard
     ∧ (s.takeLockReport peer epoch at_ map).li = s.li ∧ (s.takeLockReport peer epoch at_ map).fs.free = s.fs.free
     ∧ (s.takeLockReport peer epoch at_ map).fs.inbox = s.fs.inbox ∧ (s.takeLockReport peer epoch at_ map).fs.active = s.fs.active
     ∧ (s.takeLockReport peer epoch at_ map).fs.handler = s.fs.handler
     ∧ (s.takeLockReport peer epoch at_ map).fs.ownFrames = s.fs.ownFrames
     ∧ (s.takeLockReport peer epoch at_ map).fs.holdOff = s.fs.holdOff ∧ (s.takeLockReport peer epoch at_ map).pt = s.pt
     ∧ (s.takeLockReport peer epoch at_ map).du = s.du ∧ (s.takeLockReport peer epoch at_ map).pu = s.pu
     ∧ (s.takeLockReport peer epoch at_ map).su = s.su ∧ (s.takeLockReport peer epoch at_ map).yu = s.yu
     ∧ (s.takeLockReport peer epoch at_ map).mi = s.mi ∧ (s.takeLockReport peer epoch at_ map).rp = s.rp := by
  (repeat' apply And.intro) <;> (unfold State.takeLockReport; try dsimp only) <;> (repeat' split) <;>
    first | rfl | (simp; done) | simp (disch := (intros; (try dsimp only); (repeat' split) <;> try simp))

@[simp] theorem isolateInst_keeps (s : State) (i : Nat) (x : Inst) :
    (s.isolateInst i x).pending = s.pending ∧ (s.isolateInst i x).time = s.time ∧ (s.isolateInst i x).windowMs = s.windowMs
     ∧ (s.isolateInst i x).oldWindows = s.oldWindows ∧ (s.isolateInst i x).field = s.field
     ∧ (s.isolateInst i x).freeIdx = s.freeIdx ∧ (s.isolateInst i x).yard = s.yard ∧ (s.isolateInst i x).li = s.li
     ∧ (s.isolateInst i x).fs.free = s.fs.free ∧ (s.isolateInst i x).fs.inbox = s.fs.inbox
     ∧ (s.isolateInst i x).fs.active = s.fs.active ∧ (s.isolateInst i x).fs.handler = s.fs.handler
     ∧ (s.isolateInst i x).fs.ownFrames = s.fs.ownFrames ∧ (s.isolateInst i x).fs.holdOff = s.fs.holdOff
     ∧ (s.isolateInst i x).pt = s.pt ∧ (s.isolateInst i x).du = s.du ∧ (s.isolateInst i x).pu = s.pu
     ∧ (s.isolateInst i x).su = s.su ∧ (s.isolateInst i x).rq = s.rq ∧ (s.isolateInst i x).mi = s.mi
     ∧ (s.isolateInst i x).rp = s.rp := by
  (repeat' apply And.intro) <;> (unfold State.isolateInst; try dsimp only) <;> (repeat' split) <;>
    first | rfl | (simp; done) | simp (disch := (intros; (try dsimp only); (repeat' split) <;> try simp))

@[simp] theorem reIsolate_keeps (s : State) :
    s.reIsolate.pending = s.pending ∧ s.reIsolate.time = s.time ∧ s.reIsolate.windowMs = s.windowMs
     ∧ s.reIsolate.oldWindows = s.oldWindows ∧ s.reIsolate.field = s.field ∧ s.reIsolate.freeIdx = s.freeIdx
     ∧ s.reIsolate.yard = s.yard ∧ s.reIsolate.li = s.li ∧ s.reIsolate.fs.free = s.fs.free ∧ s.reIsolate.fs.inbox = s.fs.inbox
     ∧ s.reIsolate.fs.active = s.fs.active ∧ s.reIsolate.fs.handler = s.fs.handler ∧ s.reIsolate.fs.ownFrames = s.fs.ownFrames
     ∧ s.reIsolate.fs.holdOff = s.fs.holdOff ∧ s.reIsolate.pt = s.pt ∧ s.reIsolate.du = s.du ∧ s.reIsolate.pu = s.pu
     ∧ s.reIsolate.su = s.su ∧ s.reIsolate.rq = s.rq ∧ s.reIsolate.mi = s.mi ∧ s.reIsolate.rp = s.rp := by
  (repeat' apply And.intro) <;> (unfold State.reIsolate; try dsimp only) <;> (repeat' split) <;>
    first | rfl | (simp; done) | simp (disch := (intros; (try dsimp only); (repeat' split) <;> try simp))

@[simp] theorem retry_keeps (s : State) (i : Nat) (x : Inst) :
    (s.retry i x).pending = s.pending ∧ (s.retry i x).time = s.time ∧ (s.retry i x).windowMs = s.windowMs
     ∧ (s.retry i x).oldWindows = s.oldWindows ∧ (s.retry i x).field = s.field ∧ (s.retry i x).freeIdx = s.freeIdx
     ∧ (s.retry i x).yard = s.yard ∧ (s.retry i x).li = s.li ∧ (s.retry i x).fs.free = s.fs.free
     ∧ (s.retry i x).fs.inbox = s.fs.inbox ∧ (s.retry i x).fs.active = s.fs.active ∧ (s.retry i x).fs.handler = s.fs.handler
     ∧ (s.retry i x).fs.ownFrames = s.fs.ownFrames ∧ (s.retry i x).fs.holdOff = s.fs.holdOff ∧ (s.retry i x).pt = s.pt
     ∧ (s.retry i x).du = s.du ∧ (s.retry i x).su = s.su ∧ (s.retry i x).mi.mem = s.mi.mem
     ∧ (s.retry i x).mi.startup = s.mi.startup ∧ (s.retry i x).mi.desc = s.mi.desc := by
  unfold State.retry
  (repeat' split) <;> simp

@[simp] theorem countTelegramFault_keeps (s : State) (f : TelegramFault) :
    (s.countTelegramFault f).pending = s.pending ∧ (s.countTelegramFault f).time = s.time
     ∧ (s.countTelegramFault f).windowMs = s.windowMs ∧ (s.countTelegramFault f).oldWindows = s.oldWindows
     ∧ (s.countTelegramFault f).field = s.field ∧ (s.countTelegramFault f).freeIdx = s.freeIdx
     ∧ (s.countTelegramFault f).yard = s.yard ∧ (s.countTelegramFault f).li = s.li ∧ (s.countTelegramFault f).fs = s.fs
     ∧ (s.countTelegramFault f).pt = s.pt ∧ (s.countTelegramFault f).du = s.du ∧ (s.countTelegramFault f).pu = s.pu
     ∧ (s.countTelegramFault f).su = s.su ∧ (s.countTelegramFault f).rq = s.rq ∧ (s.countTelegramFault f).re = s.re
     ∧ (s.countTelegramFault f).ct = s.ct ∧ (s.countTelegramFault f).yu = s.yu ∧ (s.countTelegramFault f).mi = s.mi
     ∧ (s.countTelegramFault f).rp = s.rp := by
  unfold State.countTelegramFault
  (repeat' split) <;> simp

@[simp] theorem badTelegram_keeps (s : State) :
    s.badTelegram.pending = s.pending ∧ s.badTelegram.time = s.time ∧ s.badTelegram.windowMs = s.windowMs
     ∧ s.badTelegram.oldWindows = s.oldWindows ∧ s.badTelegram.field = s.field ∧ s.badTelegram.freeIdx = s.freeIdx
     ∧ s.badTelegram.yard = s.yard ∧ s.badTelegram.li = s.li ∧ s.badTelegram.fs = s.fs ∧ s.badTelegram.pt = s.pt
     ∧ s.badTelegram.du = s.du ∧ s.badTelegram.pu = s.pu ∧ s.badTelegram.su = s.su ∧ s.badTelegram.rq = s.rq
     ∧ s.badTelegram.re = s.re ∧ s.badTelegram.ct = s.ct ∧ s.badTelegram.yu = s.yu ∧ s.badTelegram.mi = s.mi
     ∧ s.badTelegram.rp = s.rp := by
  unfold State.badTelegram
  simp

@[simp] theorem gapPassed_keeps (s : State) (p : Nat) :
    (s.gapPassed p).pending = s.pending ∧ (s.gapPassed p).time = s.time ∧ (s.gapPassed p).windowMs = s.windowMs
     ∧ (s.gapPassed p).oldWindows = s.oldWindows ∧ (s.gapPassed p).field = s.field ∧ (s.gapPassed p).freeIdx = s.freeIdx
     ∧ (s.gapPassed p).yard = s.yard ∧ (s.gapPassed p).li = s.li ∧ (s.gapPassed p).fs = s.fs ∧ (s.gapPassed p).pt = s.pt
     ∧ (s.gapPassed p).du = s.du ∧ (s.gapPassed p).pu = s.pu ∧ (s.gapPassed p).su = s.su ∧ (s.gapPassed p).re = s.re
     ∧ (s.gapPassed p).ct = s.ct ∧ (s.gapPassed p).yu = s.yu ∧ (s.gapPassed p).mi = s.mi ∧ (s.gapPassed p).rp = s.rp := by
  unfold State.gapPassed
  (repeat' split) <;> simp

@[simp] theorem completeTelegram_keeps (s : State) (p : Nat) (l : List Byte) (damaged : Bool) :
    (s.completeTelegram p l damaged).pending = s.pending ∧ (s.completeTelegram p l damaged).time = s.time
     ∧ (s.completeTelegram p l damaged).windowMs = s.windowMs ∧ (s.completeTelegram p l damaged).oldWindows = s.oldWindows
     ∧ (s.completeTelegram p l damaged).field = s.field ∧ (s.completeTelegram p l damaged).freeIdx = s.freeIdx
     ∧ (s.completeTelegram p l damaged).yard = s.yard ∧ (s.completeTelegram p l damaged).li = s.li
     ∧ (s.completeTelegram p l damaged).fs = s.fs ∧ (s.completeTelegram p l damaged).pt = s.pt
     ∧ (s.completeTelegram p l damaged).du = s.du ∧ (s.completeTelegram p l damaged).pu = s.pu
     ∧ (s.completeTelegram p l damaged).su = s.su ∧ (s.completeTelegram p l damaged).re = s.re
     ∧ (s.completeTelegram p l damaged).ct = s.ct ∧ (s.completeTelegram p l damaged).yu = s.yu
     ∧ (s.completeTelegram p l damaged).mi = s.mi ∧ (s.completeTelegram p l damaged).rp = s.rp := by
  unfold State.completeTelegram
  (repeat' split) <;> simp

@[simp] theorem assembleByte_keeps (s : State) (p : Nat) (value : Byte) (framed : Bool) :
    (s.assembleByte p value framed).pending = s.pending ∧ (s.assembleByte p value framed).time = s.time
     ∧ (s.assembleByte p value framed).windowMs = s.windowMs ∧ (s.assembleByte p value framed).oldWindows = s.oldWindows
     ∧ (s.assembleByte p value framed).field = s.field ∧ (s.assembleByte p value framed).freeIdx = s.freeIdx
     ∧ (s.assembleByte p value framed).yard = s.yard ∧ (s.assembleByte p value framed).li = s.li
     ∧ (s.assembleByte p value framed).fs = s.fs ∧ (s.assembleByte p value framed).pt = s.pt
     ∧ (s.assembleByte p value framed).du = s.du ∧ (s.assembleByte p value framed).pu = s.pu
     ∧ (s.assembleByte p value framed).su = s.su ∧ (s.assembleByte p value framed).re = s.re
     ∧ (s.assembleByte p value framed).ct = s.ct ∧ (s.assembleByte p value framed).yu = s.yu
     ∧ (s.assembleByte p value framed).mi = s.mi ∧ (s.assembleByte p value framed).rp = s.rp := by
  (repeat' apply And.intro) <;> (unfold State.assembleByte; try dsimp only) <;> (repeat' split) <;>
    first | rfl | (simp; done) | simp

@[simp] theorem readerByte_keeps (s : State) (p : Nat) (value : Byte) (framed : Bool) :
    (s.readerByte p value framed).pending = s.pending ∧ (s.readerByte p value framed).time = s.time
     ∧ (s.readerByte p value framed).windowMs = s.windowMs ∧ (s.readerByte p value framed).oldWindows = s.oldWindows
     ∧ (s.readerByte p value framed).field = s.field ∧ (s.readerByte p value framed).freeIdx = s.freeIdx
     ∧ (s.readerByte p value framed).yard = s.yard ∧ (s.readerByte p value framed).li = s.li
     ∧ (s.readerByte p value framed).fs = s.fs ∧ (s.readerByte p value framed).pt = s.pt ∧ (s.readerByte p value framed).du = s.du
     ∧ (s.readerByte p value framed).pu = s.pu ∧ (s.readerByte p value framed).su = s.su ∧ (s.readerByte p value framed).re = s.re
     ∧ (s.readerByte p value framed).ct = s.ct ∧ (s.readerByte p value framed).yu = s.yu ∧ (s.readerByte p value framed).mi = s.mi
     ∧ (s.readerByte p value framed).rp = s.rp := by
  unfold State.readerByte
  (repeat' split) <;> simp

@[simp] theorem withTelegram_pending (s : State) (p : Nat) (c : TelClass) (act : Telegram → State → State)
    (h : ∀ t s, (act t s).pending = s.pending) : (s.withTelegram p c act).pending = s.pending := by
  unfold State.withTelegram
  (repeat' split) <;> simp [h]

@[simp] theorem withTelegram_time (s : State) (p : Nat) (c : TelClass) (act : Telegram → State → State)
    (h : ∀ t s, (act t s).time = s.time) : (s.withTelegram p c act).time = s.time := by
  unfold State.withTelegram
  (repeat' split) <;> simp [h]

@[simp] theorem withTelegram_windowMs (s : State) (p : Nat) (c : TelClass) (act : Telegram → State → State)
    (h : ∀ t s, (act t s).windowMs = s.windowMs) : (s.withTelegram p c act).windowMs = s.windowMs := by
  unfold State.withTelegram
  (repeat' split) <;> simp [h]

@[simp] theorem withTelegram_oldWindows (s : State) (p : Nat) (c : TelClass) (act : Telegram → State → State)
    (h : ∀ t s, (act t s).oldWindows = s.oldWindows) : (s.withTelegram p c act).oldWindows = s.oldWindows := by
  unfold State.withTelegram
  (repeat' split) <;> simp [h]

@[simp] theorem withTelegram_field (s : State) (p : Nat) (c : TelClass) (act : Telegram → State → State)
    (h : ∀ t s, (act t s).field = s.field) : (s.withTelegram p c act).field = s.field := by
  unfold State.withTelegram
  (repeat' split) <;> simp [h]

@[simp] theorem withTelegram_freeIdx (s : State) (p : Nat) (c : TelClass) (act : Telegram → State → State)
    (h : ∀ t s, (act t s).freeIdx = s.freeIdx) : (s.withTelegram p c act).freeIdx = s.freeIdx := by
  unfold State.withTelegram
  (repeat' split) <;> simp [h]

@[simp] theorem withTelegram_yard (s : State) (p : Nat) (c : TelClass) (act : Telegram → State → State)
    (h : ∀ t s, (act t s).yard = s.yard) : (s.withTelegram p c act).yard = s.yard := by
  unfold State.withTelegram
  (repeat' split) <;> simp [h]

@[simp] theorem withTelegram_li (s : State) (p : Nat) (c : TelClass) (act : Telegram → State → State)
    (h : ∀ t s, (act t s).li = s.li) : (s.withTelegram p c act).li = s.li := by
  unfold State.withTelegram
  (repeat' split) <;> simp [h]

@[simp] theorem withTelegram_fs (s : State) (p : Nat) (c : TelClass) (act : Telegram → State → State)
    (h : ∀ t s, (act t s).fs = s.fs) : (s.withTelegram p c act).fs = s.fs := by
  unfold State.withTelegram
  (repeat' split) <;> simp [h]

@[simp] theorem withTelegram_pt (s : State) (p : Nat) (c : TelClass) (act : Telegram → State → State)
    (h : ∀ t s, (act t s).pt = s.pt) : (s.withTelegram p c act).pt = s.pt := by
  unfold State.withTelegram
  (repeat' split) <;> simp [h]

@[simp] theorem withTelegram_du (s : State) (p : Nat) (c : TelClass) (act : Telegram → State → State)
    (h : ∀ t s, (act t s).du = s.du) : (s.withTelegram p c act).du = s.du := by
  unfold State.withTelegram
  (repeat' split) <;> simp [h]

@[simp] theorem withTelegram_pu (s : State) (p : Nat) (c : TelClass) (act : Telegram → State → State)
    (h : ∀ t s, (act t s).pu = s.pu) : (s.withTelegram p c act).pu = s.pu := by
  unfold State.withTelegram
  (repeat' split) <;> simp [h]

@[simp] theorem withTelegram_su (s : State) (p : Nat) (c : TelClass) (act : Telegram → State → State)
    (h : ∀ t s, (act t s).su = s.su) : (s.withTelegram p c act).su = s.su := by
  unfold State.withTelegram
  (repeat' split) <;> simp [h]

@[simp] theorem withTelegram_re (s : State) (p : Nat) (c : TelClass) (act : Telegram → State → State)
    (h : ∀ t s, (act t s).re = s.re) : (s.withTelegram p c act).re = s.re := by
  unfold State.withTelegram
  (repeat' split) <;> simp [h]

@[simp] theorem withTelegram_ct (s : State) (p : Nat) (c : TelClass) (act : Telegram → State → State)
    (h : ∀ t s, (act t s).ct = s.ct) : (s.withTelegram p c act).ct = s.ct := by
  unfold State.withTelegram
  (repeat' split) <;> simp [h]

@[simp] theorem withTelegram_yu (s : State) (p : Nat) (c : TelClass) (act : Telegram → State → State)
    (h : ∀ t s, (act t s).yu = s.yu) : (s.withTelegram p c act).yu = s.yu := by
  unfold State.withTelegram
  (repeat' split) <;> simp [h]

@[simp] theorem withTelegram_mi (s : State) (p : Nat) (c : TelClass) (act : Telegram → State → State)
    (h : ∀ t s, (act t s).mi = s.mi) : (s.withTelegram p c act).mi = s.mi := by
  unfold State.withTelegram
  (repeat' split) <;> simp [h]

@[simp] theorem withTelegram_rp (s : State) (p : Nat) (c : TelClass) (act : Telegram → State → State)
    (h : ∀ t s, (act t s).rp = s.rp) : (s.withTelegram p c act).rp = s.rp := by
  unfold State.withTelegram
  (repeat' split) <;> simp [h]

@[simp] theorem setLamps_keeps (s : State) :
    s.setLamps.pending = s.pending ∧ s.setLamps.time = s.time ∧ s.setLamps.windowMs = s.windowMs
     ∧ s.setLamps.oldWindows = s.oldWindows ∧ s.setLamps.field = s.field ∧ s.setLamps.freeIdx = s.freeIdx
     ∧ s.setLamps.yard = s.yard ∧ s.setLamps.li = s.li ∧ s.setLamps.fs = s.fs ∧ s.setLamps.cnt = s.cnt ∧ s.setLamps.pt = s.pt
     ∧ s.setLamps.du = s.du ∧ s.setLamps.pu = s.pu ∧ s.setLamps.su = s.su ∧ s.setLamps.re = s.re ∧ s.setLamps.ct = s.ct
     ∧ s.setLamps.yu = s.yu ∧ s.setLamps.mi = s.mi ∧ s.setLamps.rp = s.rp := by
  unfold State.setLamps
  simp

@[simp] theorem writeOutcome_keeps (s : State) (r : OutcomeRec) :
    (s.writeOutcome r).pending = s.pending ∧ (s.writeOutcome r).time = s.time ∧ (s.writeOutcome r).windowMs = s.windowMs
     ∧ (s.writeOutcome r).oldWindows = s.oldWindows ∧ (s.writeOutcome r).field = s.field ∧ (s.writeOutcome r).freeIdx = s.freeIdx
     ∧ (s.writeOutcome r).yard = s.yard ∧ (s.writeOutcome r).li = s.li ∧ (s.writeOutcome r).fs.free = s.fs.free
     ∧ (s.writeOutcome r).fs.inbox = s.fs.inbox ∧ (s.writeOutcome r).fs.active = s.fs.active
     ∧ (s.writeOutcome r).fs.handler = s.fs.handler ∧ (s.writeOutcome r).fs.ownFrames = s.fs.ownFrames
     ∧ (s.writeOutcome r).fs.holdOff = s.fs.holdOff ∧ (s.writeOutcome r).pt = s.pt ∧ (s.writeOutcome r).du = s.du
     ∧ (s.writeOutcome r).pu = s.pu ∧ (s.writeOutcome r).su = s.su ∧ (s.writeOutcome r).re = s.re ∧ (s.writeOutcome r).ct = s.ct
     ∧ (s.writeOutcome r).yu = s.yu ∧ (s.writeOutcome r).mi = s.mi := by
  unfold State.writeOutcome
  simp

@[simp] theorem slotOutcome_keeps (s : State) (d : SlotData) (code : OutcomeCode) :
    (s.slotOutcome d code).pending = s.pending ∧ (s.slotOutcome d code).time = s.time
     ∧ (s.slotOutcome d code).windowMs = s.windowMs ∧ (s.slotOutcome d code).oldWindows = s.oldWindows
     ∧ (s.slotOutcome d code).field = s.field ∧ (s.slotOutcome d code).freeIdx = s.freeIdx ∧ (s.slotOutcome d code).yard = s.yard
     ∧ (s.slotOutcome d code).li = s.li ∧ (s.slotOutcome d code).fs.free = s.fs.free
     ∧ (s.slotOutcome d code).fs.inbox = s.fs.inbox ∧ (s.slotOutcome d code).fs.active = s.fs.active
     ∧ (s.slotOutcome d code).fs.handler = s.fs.handler ∧ (s.slotOutcome d code).fs.ownFrames = s.fs.ownFrames
     ∧ (s.slotOutcome d code).fs.holdOff = s.fs.holdOff ∧ (s.slotOutcome d code).pt = s.pt ∧ (s.slotOutcome d code).du = s.du
     ∧ (s.slotOutcome d code).pu = s.pu ∧ (s.slotOutcome d code).su = s.su ∧ (s.slotOutcome d code).re = s.re
     ∧ (s.slotOutcome d code).ct = s.ct ∧ (s.slotOutcome d code).yu = s.yu ∧ (s.slotOutcome d code).mi = s.mi := by
  unfold State.slotOutcome
  simp

@[simp] theorem endQueued_keeps (s : State) (i : Nat) (d : SlotData) (code : OutcomeCode) :
    (s.endQueued i d code).pending = s.pending ∧ (s.endQueued i d code).time = s.time
     ∧ (s.endQueued i d code).windowMs = s.windowMs ∧ (s.endQueued i d code).oldWindows = s.oldWindows
     ∧ (s.endQueued i d code).field = s.field ∧ (s.endQueued i d code).freeIdx = s.freeIdx ∧ (s.endQueued i d code).yard = s.yard
     ∧ (s.endQueued i d code).li = s.li ∧ (s.endQueued i d code).fs.free = s.fs.free
     ∧ (s.endQueued i d code).fs.inbox = s.fs.inbox ∧ (s.endQueued i d code).fs.active = s.fs.active
     ∧ (s.endQueued i d code).fs.handler = s.fs.handler ∧ (s.endQueued i d code).fs.ownFrames = s.fs.ownFrames
     ∧ (s.endQueued i d code).fs.holdOff = s.fs.holdOff ∧ (s.endQueued i d code).pt = s.pt ∧ (s.endQueued i d code).du = s.du
     ∧ (s.endQueued i d code).pu = s.pu ∧ (s.endQueued i d code).su = s.su ∧ (s.endQueued i d code).re = s.re
     ∧ (s.endQueued i d code).ct = s.ct ∧ (s.endQueued i d code).yu = s.yu ∧ (s.endQueued i d code).mi = s.mi := by
  unfold State.endQueued
  simp

@[simp] theorem startInst_keeps (s : State) (i : Nat) (code : ReqCode) :
    (s.startInst i code).pending = s.pending ∧ (s.startInst i code).time = s.time ∧ (s.startInst i code).windowMs = s.windowMs
     ∧ (s.startInst i code).oldWindows = s.oldWindows ∧ (s.startInst i code).field = s.field
     ∧ (s.startInst i code).freeIdx = s.freeIdx ∧ (s.startInst i code).yard = s.yard ∧ (s.startInst i code).li = s.li
     ∧ (s.startInst i code).fs.free = s.fs.free ∧ (s.startInst i code).fs.inbox = s.fs.inbox
     ∧ (s.startInst i code).fs.active = s.fs.active ∧ (s.startInst i code).fs.handler = s.fs.handler
     ∧ (s.startInst i code).fs.ownFrames = s.fs.ownFrames ∧ (s.startInst i code).fs.holdOff = s.fs.holdOff
     ∧ (s.startInst i code).pt = s.pt ∧ (s.startInst i code).du = s.du ∧ (s.startInst i code).su = s.su
     ∧ (s.startInst i code).mi.mem = s.mi.mem ∧ (s.startInst i code).mi.startup = s.mi.startup
     ∧ (s.startInst i code).mi.desc = s.mi.desc := by
  unfold State.startInst
  (repeat' split) <;> simp

@[simp] theorem activate_keeps (s : State) (g k : Nat) (d : SlotData) (i : Nat) :
    (s.activate g k d i).pending = s.pending ∧ (s.activate g k d i).time = s.time ∧ (s.activate g k d i).windowMs = s.windowMs
     ∧ (s.activate g k d i).oldWindows = s.oldWindows ∧ (s.activate g k d i).field = s.field
     ∧ (s.activate g k d i).freeIdx = s.freeIdx ∧ (s.activate g k d i).yard = s.yard ∧ (s.activate g k d i).li = s.li
     ∧ (s.activate g k d i).fs.free = s.fs.free ∧ (s.activate g k d i).fs.inbox = s.fs.inbox
     ∧ (s.activate g k d i).fs.active = s.fs.active ∧ (s.activate g k d i).fs.handler = s.fs.handler
     ∧ (s.activate g k d i).fs.ownFrames = s.fs.ownFrames ∧ (s.activate g k d i).fs.holdOff = s.fs.holdOff
     ∧ (s.activate g k d i).pt = s.pt ∧ (s.activate g k d i).du = s.du ∧ (s.activate g k d i).su = s.su
     ∧ (s.activate g k d i).mi.mem = s.mi.mem ∧ (s.activate g k d i).mi.startup = s.mi.startup
     ∧ (s.activate g k d i).mi.desc = s.mi.desc := by
  unfold State.activate
  simp

@[simp] theorem visit_keeps (s : State) (n left g : Nat) :
    (s.visit n left g).pending = s.pending ∧ (s.visit n left g).time = s.time ∧ (s.visit n left g).windowMs = s.windowMs
     ∧ (s.visit n left g).oldWindows = s.oldWindows ∧ (s.visit n left g).field = s.field ∧ (s.visit n left g).freeIdx = s.freeIdx
     ∧ (s.visit n left g).yard = s.yard ∧ (s.visit n left g).li = s.li ∧ (s.visit n left g).fs.free = s.fs.free
     ∧ (s.visit n left g).fs.inbox = s.fs.inbox ∧ (s.visit n left g).fs.active = s.fs.active
     ∧ (s.visit n left g).fs.handler = s.fs.handler ∧ (s.visit n left g).fs.ownFrames = s.fs.ownFrames
     ∧ (s.visit n left g).fs.holdOff = s.fs.holdOff ∧ (s.visit n left g).pt = s.pt ∧ (s.visit n left g).du = s.du
     ∧ (s.visit n left g).su = s.su ∧ (s.visit n left g).mi.mem = s.mi.mem ∧ (s.visit n left g).mi.startup = s.mi.startup
     ∧ (s.visit n left g).mi.desc = s.mi.desc := by
  induction n generalizing s left g with
  | zero => simp [State.visit]
  | succ n ih =>
    cases left with
    | zero => simp [State.visit]
    | succ left =>
      rw [State.visit]
      split <;> simp [ih]

@[simp] theorem scan_keeps (s : State) :
    s.scan.pending = s.pending ∧ s.scan.time = s.time ∧ s.scan.windowMs = s.windowMs ∧ s.scan.oldWindows = s.oldWindows
     ∧ s.scan.field = s.field ∧ s.scan.freeIdx = s.freeIdx ∧ s.scan.yard = s.yard ∧ s.scan.li = s.li ∧ s.scan.fs.free = s.fs.free
     ∧ s.scan.fs.inbox = s.fs.inbox ∧ s.scan.fs.active = s.fs.active ∧ s.scan.fs.handler = s.fs.handler
     ∧ s.scan.fs.ownFrames = s.fs.ownFrames ∧ s.scan.fs.holdOff = s.fs.holdOff ∧ s.scan.pt = s.pt ∧ s.scan.du = s.du
     ∧ s.scan.su = s.su ∧ s.scan.mi.mem = s.mi.mem ∧ s.scan.mi.startup = s.mi.startup ∧ s.scan.mi.desc = s.mi.desc := by
  unfold State.scan
  simp

@[simp] theorem refuse_keeps (s : State) (t : Telegram) (d : RefusalDetail) :
    (s.refuse t d).pending = s.pending ∧ (s.refuse t d).time = s.time ∧ (s.refuse t d).windowMs = s.windowMs
     ∧ (s.refuse t d).oldWindows = s.oldWindows ∧ (s.refuse t d).field = s.field ∧ (s.refuse t d).freeIdx = s.freeIdx
     ∧ (s.refuse t d).yard = s.yard ∧ (s.refuse t d).li = s.li ∧ (s.refuse t d).fs.free = s.fs.free
     ∧ (s.refuse t d).fs.inbox = s.fs.inbox ∧ (s.refuse t d).fs.active = s.fs.active ∧ (s.refuse t d).fs.handler = s.fs.handler
     ∧ (s.refuse t d).fs.ownFrames = s.fs.ownFrames ∧ (s.refuse t d).fs.holdOff = s.fs.holdOff ∧ (s.refuse t d).pt = s.pt
     ∧ (s.refuse t d).du = s.du ∧ (s.refuse t d).pu = s.pu ∧ (s.refuse t d).su = s.su ∧ (s.refuse t d).re = s.re
     ∧ (s.refuse t d).ct = s.ct ∧ (s.refuse t d).yu = s.yu ∧ (s.refuse t d).mi = s.mi := by
  unfold State.refuse
  simp

@[simp] theorem takeSlot_keeps (s : State) (t : Telegram) (c : ReqCode) (k : Nat) :
    (s.takeSlot t c k).pending = s.pending ∧ (s.takeSlot t c k).time = s.time ∧ (s.takeSlot t c k).windowMs = s.windowMs
     ∧ (s.takeSlot t c k).oldWindows = s.oldWindows ∧ (s.takeSlot t c k).field = s.field ∧ (s.takeSlot t c k).freeIdx = s.freeIdx
     ∧ (s.takeSlot t c k).yard = s.yard ∧ (s.takeSlot t c k).li = s.li ∧ (s.takeSlot t c k).fs.free = s.fs.free
     ∧ (s.takeSlot t c k).fs.inbox = s.fs.inbox ∧ (s.takeSlot t c k).fs.active = s.fs.active
     ∧ (s.takeSlot t c k).fs.handler = s.fs.handler ∧ (s.takeSlot t c k).fs.ownFrames = s.fs.ownFrames
     ∧ (s.takeSlot t c k).fs.holdOff = s.fs.holdOff ∧ (s.takeSlot t c k).pt = s.pt ∧ (s.takeSlot t c k).du = s.du
     ∧ (s.takeSlot t c k).su = s.su ∧ (s.takeSlot t c k).mi.mem = s.mi.mem ∧ (s.takeSlot t c k).mi.startup = s.mi.startup
     ∧ (s.takeSlot t c k).mi.desc = s.mi.desc := by
  unfold State.takeSlot
  simp

@[simp] theorem fileRequest_keeps (s : State) (t : Telegram) (c : ReqCode) :
    (s.fileRequest t c).pending = s.pending ∧ (s.fileRequest t c).time = s.time ∧ (s.fileRequest t c).windowMs = s.windowMs
     ∧ (s.fileRequest t c).oldWindows = s.oldWindows ∧ (s.fileRequest t c).field = s.field ∧ (s.fileRequest t c).freeIdx = s.freeIdx
     ∧ (s.fileRequest t c).yard = s.yard ∧ (s.fileRequest t c).li = s.li ∧ (s.fileRequest t c).fs.free = s.fs.free
     ∧ (s.fileRequest t c).fs.inbox = s.fs.inbox ∧ (s.fileRequest t c).fs.active = s.fs.active ∧ (s.fileRequest t c).fs.handler = s.fs.handler
     ∧ (s.fileRequest t c).fs.ownFrames = s.fs.ownFrames ∧ (s.fileRequest t c).fs.holdOff = s.fs.holdOff ∧ (s.fileRequest t c).pt = s.pt
     ∧ (s.fileRequest t c).du = s.du ∧ (s.fileRequest t c).su = s.su ∧ (s.fileRequest t c).mi.mem = s.mi.mem
     ∧ (s.fileRequest t c).mi.startup = s.mi.startup ∧ (s.fileRequest t c).mi.desc = s.mi.desc := by
  (repeat' apply And.intro) <;> (unfold State.fileRequest; try dsimp only) <;> (repeat' split) <;>
    first | rfl | (simp; done) | simp

@[simp] theorem newRequest_keeps (c : Option ReqCode) (t : Telegram) (s : State) :
    (State.newRequest c t s).pending = s.pending ∧ (State.newRequest c t s).time = s.time
     ∧ (State.newRequest c t s).windowMs = s.windowMs ∧ (State.newRequest c t s).oldWindows = s.oldWindows
     ∧ (State.newRequest c t s).field = s.field ∧ (State.newRequest c t s).freeIdx = s.freeIdx
     ∧ (State.newRequest c t s).yard = s.yard ∧ (State.newRequest c t s).li = s.li ∧ (State.newRequest c t s).fs.free = s.fs.free
     ∧ (State.newRequest c t s).fs.inbox = s.fs.inbox ∧ (State.newRequest c t s).fs.active = s.fs.active
     ∧ (State.newRequest c t s).fs.handler = s.fs.handler ∧ (State.newRequest c t s).fs.ownFrames = s.fs.ownFrames
     ∧ (State.newRequest c t s).fs.holdOff = s.fs.holdOff ∧ (State.newRequest c t s).pt = s.pt
     ∧ (State.newRequest c t s).du = s.du ∧ (State.newRequest c t s).su = s.su ∧ (State.newRequest c t s).mi.mem = s.mi.mem
     ∧ (State.newRequest c t s).mi.startup = s.mi.startup ∧ (State.newRequest c t s).mi.desc = s.mi.desc := by
  unfold State.newRequest
  (repeat' split) <;> simp

@[simp] theorem passCancel_keeps (s : State) (i : Nat) (d : SlotData) (inst : Nat) (cause : CancelMark) :
    (s.passCancel i d inst cause).pending = s.pending ∧ (s.passCancel i d inst cause).time = s.time
     ∧ (s.passCancel i d inst cause).windowMs = s.windowMs ∧ (s.passCancel i d inst cause).oldWindows = s.oldWindows
     ∧ (s.passCancel i d inst cause).field = s.field ∧ (s.passCancel i d inst cause).freeIdx = s.freeIdx
     ∧ (s.passCancel i d inst cause).yard = s.yard ∧ (s.passCancel i d inst cause).li = s.li
     ∧ (s.passCancel i d inst cause).fs = s.fs ∧ (s.passCancel i d inst cause).cnt = s.cnt
     ∧ (s.passCancel i d inst cause).pt = s.pt ∧ (s.passCancel i d inst cause).du = s.du ∧ (s.passCancel i d inst cause).pu = s.pu
     ∧ (s.passCancel i d inst cause).su = s.su ∧ (s.passCancel i d inst cause).ct = s.ct ∧ (s.passCancel i d inst cause).yu = s.yu
     ∧ (s.passCancel i d inst cause).mi = s.mi ∧ (s.passCancel i d inst cause).rp = s.rp := by
  unfold State.passCancel
  simp

@[simp] theorem withdrawSlot_keeps (s : State) (i : Nat) (cause : CancelMark) (code : OutcomeCode) :
    (s.withdrawSlot i cause code).pending = s.pending ∧ (s.withdrawSlot i cause code).time = s.time
     ∧ (s.withdrawSlot i cause code).windowMs = s.windowMs ∧ (s.withdrawSlot i cause code).oldWindows = s.oldWindows
     ∧ (s.withdrawSlot i cause code).field = s.field ∧ (s.withdrawSlot i cause code).freeIdx = s.freeIdx
     ∧ (s.withdrawSlot i cause code).yard = s.yard ∧ (s.withdrawSlot i cause code).li = s.li
     ∧ (s.withdrawSlot i cause code).fs.free = s.fs.free ∧ (s.withdrawSlot i cause code).fs.inbox = s.fs.inbox
     ∧ (s.withdrawSlot i cause code).fs.active = s.fs.active ∧ (s.withdrawSlot i cause code).fs.handler = s.fs.handler
     ∧ (s.withdrawSlot i cause code).fs.ownFrames = s.fs.ownFrames ∧ (s.withdrawSlot i cause code).fs.holdOff = s.fs.holdOff
     ∧ (s.withdrawSlot i cause code).pt = s.pt ∧ (s.withdrawSlot i cause code).du = s.du ∧ (s.withdrawSlot i cause code).pu = s.pu
     ∧ (s.withdrawSlot i cause code).su = s.su ∧ (s.withdrawSlot i cause code).ct = s.ct ∧ (s.withdrawSlot i cause code).yu = s.yu
     ∧ (s.withdrawSlot i cause code).mi = s.mi := by
  unfold State.withdrawSlot
  (repeat' split) <;> simp

@[simp] theorem takeCancelTelegram_keeps (t : Telegram) (s : State) :
    (State.takeCancelTelegram t s).pending = s.pending ∧ (State.takeCancelTelegram t s).time = s.time
     ∧ (State.takeCancelTelegram t s).windowMs = s.windowMs ∧ (State.takeCancelTelegram t s).oldWindows = s.oldWindows
     ∧ (State.takeCancelTelegram t s).field = s.field ∧ (State.takeCancelTelegram t s).freeIdx = s.freeIdx
     ∧ (State.takeCancelTelegram t s).yard = s.yard ∧ (State.takeCancelTelegram t s).li = s.li
     ∧ (State.takeCancelTelegram t s).fs.free = s.fs.free ∧ (State.takeCancelTelegram t s).fs.inbox = s.fs.inbox
     ∧ (State.takeCancelTelegram t s).fs.active = s.fs.active ∧ (State.takeCancelTelegram t s).fs.handler = s.fs.handler
     ∧ (State.takeCancelTelegram t s).fs.ownFrames = s.fs.ownFrames ∧ (State.takeCancelTelegram t s).fs.holdOff = s.fs.holdOff
     ∧ (State.takeCancelTelegram t s).pt = s.pt ∧ (State.takeCancelTelegram t s).du = s.du
     ∧ (State.takeCancelTelegram t s).pu = s.pu ∧ (State.takeCancelTelegram t s).su = s.su
     ∧ (State.takeCancelTelegram t s).ct = s.ct ∧ (State.takeCancelTelegram t s).yu = s.yu
     ∧ (State.takeCancelTelegram t s).mi = s.mi := by
  (repeat' apply And.intro) <;> (unfold State.takeCancelTelegram; try dsimp only) <;> (repeat' split) <;>
    first | rfl | (simp; done) | simp (disch := (intros; (try dsimp only); (repeat' split) <;> try simp))

@[simp] theorem lifetimeExpiry_keeps (s : State) (i : Nat) :
    (s.lifetimeExpiry i).pending = s.pending ∧ (s.lifetimeExpiry i).time = s.time ∧ (s.lifetimeExpiry i).windowMs = s.windowMs
     ∧ (s.lifetimeExpiry i).oldWindows = s.oldWindows ∧ (s.lifetimeExpiry i).field = s.field
     ∧ (s.lifetimeExpiry i).freeIdx = s.freeIdx ∧ (s.lifetimeExpiry i).yard = s.yard ∧ (s.lifetimeExpiry i).li = s.li
     ∧ (s.lifetimeExpiry i).fs.free = s.fs.free ∧ (s.lifetimeExpiry i).fs.inbox = s.fs.inbox
     ∧ (s.lifetimeExpiry i).fs.active = s.fs.active ∧ (s.lifetimeExpiry i).fs.handler = s.fs.handler
     ∧ (s.lifetimeExpiry i).fs.ownFrames = s.fs.ownFrames ∧ (s.lifetimeExpiry i).fs.holdOff = s.fs.holdOff
     ∧ (s.lifetimeExpiry i).pt = s.pt ∧ (s.lifetimeExpiry i).du = s.du ∧ (s.lifetimeExpiry i).pu = s.pu
     ∧ (s.lifetimeExpiry i).su = s.su ∧ (s.lifetimeExpiry i).ct = s.ct ∧ (s.lifetimeExpiry i).yu = s.yu
     ∧ (s.lifetimeExpiry i).mi = s.mi := by
  unfold State.lifetimeExpiry
  (repeat' split) <;> simp

@[simp] theorem takeOutcome_keeps (s : State) (m : OutcomeMsg) :
    (s.takeOutcome m).pending = s.pending ∧ (s.takeOutcome m).time = s.time ∧ (s.takeOutcome m).windowMs = s.windowMs
     ∧ (s.takeOutcome m).oldWindows = s.oldWindows ∧ (s.takeOutcome m).field = s.field ∧ (s.takeOutcome m).freeIdx = s.freeIdx
     ∧ (s.takeOutcome m).yard = s.yard ∧ (s.takeOutcome m).li = s.li ∧ (s.takeOutcome m).fs.free = s.fs.free
     ∧ (s.takeOutcome m).fs.inbox = s.fs.inbox ∧ (s.takeOutcome m).fs.active = s.fs.active
     ∧ (s.takeOutcome m).fs.handler = s.fs.handler ∧ (s.takeOutcome m).fs.ownFrames = s.fs.ownFrames
     ∧ (s.takeOutcome m).fs.holdOff = s.fs.holdOff ∧ (s.takeOutcome m).pt = s.pt ∧ (s.takeOutcome m).du = s.du
     ∧ (s.takeOutcome m).su = s.su ∧ (s.takeOutcome m).mi.mem = s.mi.mem ∧ (s.takeOutcome m).mi.startup = s.mi.startup
     ∧ (s.takeOutcome m).mi.desc = s.mi.desc := by
  unfold State.takeOutcome
  (repeat' split) <;> simp

@[simp] theorem rqIsolate_keeps (s : State) :
    s.rqIsolate.pending = s.pending ∧ s.rqIsolate.time = s.time ∧ s.rqIsolate.windowMs = s.windowMs
     ∧ s.rqIsolate.oldWindows = s.oldWindows ∧ s.rqIsolate.field = s.field ∧ s.rqIsolate.freeIdx = s.freeIdx
     ∧ s.rqIsolate.yard = s.yard ∧ s.rqIsolate.li = s.li ∧ s.rqIsolate.fs.free = s.fs.free ∧ s.rqIsolate.fs.inbox = s.fs.inbox
     ∧ s.rqIsolate.fs.active = s.fs.active ∧ s.rqIsolate.fs.handler = s.fs.handler ∧ s.rqIsolate.fs.ownFrames = s.fs.ownFrames
     ∧ s.rqIsolate.fs.holdOff = s.fs.holdOff ∧ s.rqIsolate.pt = s.pt ∧ s.rqIsolate.du = s.du ∧ s.rqIsolate.pu = s.pu
     ∧ s.rqIsolate.su = s.su ∧ s.rqIsolate.re = s.re ∧ s.rqIsolate.ct = s.ct ∧ s.rqIsolate.yu = s.yu ∧ s.rqIsolate.mi = s.mi := by
  refine ⟨?_, ?_, ?_, ?_, ?_, ?_, ?_, ?_, ?_, ?_, ?_, ?_, ?_, ?_, ?_, ?_, ?_, ?_, ?_, ?_, ?_, ?_⟩
  · unfold State.rqIsolate; (repeat' split) <;> first | rfl | (simp; done) |
      (refine (forEach_pending _ _ _ ?_).trans ?_ <;> intros <;> (try dsimp only) <;> (repeat' split) <;> first | rfl | (simp; done) |
        (refine (forEach_pending _ _ _ ?_).trans ?_ <;> intros <;> (try dsimp only) <;> (repeat' split) <;> first | rfl | simp))
  · unfold State.rqIsolate; (repeat' split) <;> first | rfl | (simp; done) |
      (refine (forEach_time _ _ _ ?_).trans ?_ <;> intros <;> (try dsimp only) <;> (repeat' split) <;> first | rfl | (simp; done) |
        (refine (forEach_time _ _ _ ?_).trans ?_ <;> intros <;> (try dsimp only) <;> (repeat' split) <;> first | rfl | simp))
  · unfold State.rqIsolate; (repeat' split) <;> first | rfl | (simp; done) |
      (refine (forEach_windowMs _ _ _ ?_).trans ?_ <;> intros <;> (try dsimp only) <;> (repeat' split) <;> first | rfl | (simp; done) |
        (refine (forEach_windowMs _ _ _ ?_).trans ?_ <;> intros <;> (try dsimp only) <;> (repeat' split) <;> first | rfl | simp))
  · unfold State.rqIsolate; (repeat' split) <;> first | rfl | (simp; done) |
      (refine (forEach_oldWindows _ _ _ ?_).trans ?_ <;> intros <;> (try dsimp only) <;> (repeat' split) <;> first | rfl | (simp; done) |
        (refine (forEach_oldWindows _ _ _ ?_).trans ?_ <;> intros <;> (try dsimp only) <;> (repeat' split) <;> first | rfl | simp))
  · unfold State.rqIsolate; (repeat' split) <;> first | rfl | (simp; done) |
      (refine (forEach_field _ _ _ ?_).trans ?_ <;> intros <;> (try dsimp only) <;> (repeat' split) <;> first | rfl | (simp; done) |
        (refine (forEach_field _ _ _ ?_).trans ?_ <;> intros <;> (try dsimp only) <;> (repeat' split) <;> first | rfl | simp))
  · unfold State.rqIsolate; (repeat' split) <;> first | rfl | (simp; done) |
      (refine (forEach_freeIdx _ _ _ ?_).trans ?_ <;> intros <;> (try dsimp only) <;> (repeat' split) <;> first | rfl | (simp; done) |
        (refine (forEach_freeIdx _ _ _ ?_).trans ?_ <;> intros <;> (try dsimp only) <;> (repeat' split) <;> first | rfl | simp))
  · unfold State.rqIsolate; (repeat' split) <;> first | rfl | (simp; done) |
      (refine (forEach_yard _ _ _ ?_).trans ?_ <;> intros <;> (try dsimp only) <;> (repeat' split) <;> first | rfl | (simp; done) |
        (refine (forEach_yard _ _ _ ?_).trans ?_ <;> intros <;> (try dsimp only) <;> (repeat' split) <;> first | rfl | simp))
  · unfold State.rqIsolate; (repeat' split) <;> first | rfl | (simp; done) |
      (refine (forEach_li _ _ _ ?_).trans ?_ <;> intros <;> (try dsimp only) <;> (repeat' split) <;> first | rfl | (simp; done) |
        (refine (forEach_li _ _ _ ?_).trans ?_ <;> intros <;> (try dsimp only) <;> (repeat' split) <;> first | rfl | simp))
  · unfold State.rqIsolate; (repeat' split) <;> first | rfl | (simp; done) |
      (refine (forEach_fs_free _ _ _ ?_).trans ?_ <;> intros <;> (try dsimp only) <;> (repeat' split) <;> first | rfl | (simp; done) |
        (refine (forEach_fs_free _ _ _ ?_).trans ?_ <;> intros <;> (try dsimp only) <;> (repeat' split) <;> first | rfl | simp))
  · unfold State.rqIsolate; (repeat' split) <;> first | rfl | (simp; done) |
      (refine (forEach_fs_inbox _ _ _ ?_).trans ?_ <;> intros <;> (try dsimp only) <;> (repeat' split) <;> first | rfl | (simp; done) |
        (refine (forEach_fs_inbox _ _ _ ?_).trans ?_ <;> intros <;> (try dsimp only) <;> (repeat' split) <;> first | rfl | simp))
  · unfold State.rqIsolate; (repeat' split) <;> first | rfl | (simp; done) |
      (refine (forEach_fs_active _ _ _ ?_).trans ?_ <;> intros <;> (try dsimp only) <;> (repeat' split) <;> first | rfl | (simp; done) |
        (refine (forEach_fs_active _ _ _ ?_).trans ?_ <;> intros <;> (try dsimp only) <;> (repeat' split) <;> first | rfl | simp))
  · unfold State.rqIsolate; (repeat' split) <;> first | rfl | (simp; done) |
      (refine (forEach_fs_handler _ _ _ ?_).trans ?_ <;> intros <;> (try dsimp only) <;> (repeat' split) <;> first | rfl | (simp; done) |
        (refine (forEach_fs_handler _ _ _ ?_).trans ?_ <;> intros <;> (try dsimp only) <;> (repeat' split) <;> first | rfl | simp))
  · unfold State.rqIsolate; (repeat' split) <;> first | rfl | (simp; done) |
      (refine (forEach_fs_ownFrames _ _ _ ?_).trans ?_ <;> intros <;> (try dsimp only) <;> (repeat' split) <;> first | rfl | (simp; done) |
        (refine (forEach_fs_ownFrames _ _ _ ?_).trans ?_ <;> intros <;> (try dsimp only) <;> (repeat' split) <;> first | rfl | simp))
  · unfold State.rqIsolate; (repeat' split) <;> first | rfl | (simp; done) |
      (refine (forEach_fs_holdOff _ _ _ ?_).trans ?_ <;> intros <;> (try dsimp only) <;> (repeat' split) <;> first | rfl | (simp; done) |
        (refine (forEach_fs_holdOff _ _ _ ?_).trans ?_ <;> intros <;> (try dsimp only) <;> (repeat' split) <;> first | rfl | simp))
  · unfold State.rqIsolate; (repeat' split) <;> first | rfl | (simp; done) |
      (refine (forEach_pt _ _ _ ?_).trans ?_ <;> intros <;> (try dsimp only) <;> (repeat' split) <;> first | rfl | (simp; done) |
        (refine (forEach_pt _ _ _ ?_).trans ?_ <;> intros <;> (try dsimp only) <;> (repeat' split) <;> first | rfl | simp))
  · unfold State.rqIsolate; (repeat' split) <;> first | rfl | (simp; done) |
      (refine (forEach_du _ _ _ ?_).trans ?_ <;> intros <;> (try dsimp only) <;> (repeat' split) <;> first | rfl | (simp; done) |
        (refine (forEach_du _ _ _ ?_).trans ?_ <;> intros <;> (try dsimp only) <;> (repeat' split) <;> first | rfl | simp))
  · unfold State.rqIsolate; (repeat' split) <;> first | rfl | (simp; done) |
      (refine (forEach_pu _ _ _ ?_).trans ?_ <;> intros <;> (try dsimp only) <;> (repeat' split) <;> first | rfl | (simp; done) |
        (refine (forEach_pu _ _ _ ?_).trans ?_ <;> intros <;> (try dsimp only) <;> (repeat' split) <;> first | rfl | simp))
  · unfold State.rqIsolate; (repeat' split) <;> first | rfl | (simp; done) |
      (refine (forEach_su _ _ _ ?_).trans ?_ <;> intros <;> (try dsimp only) <;> (repeat' split) <;> first | rfl | (simp; done) |
        (refine (forEach_su _ _ _ ?_).trans ?_ <;> intros <;> (try dsimp only) <;> (repeat' split) <;> first | rfl | simp))
  · unfold State.rqIsolate; (repeat' split) <;> first | rfl | (simp; done) |
      (refine (forEach_re _ _ _ ?_).trans ?_ <;> intros <;> (try dsimp only) <;> (repeat' split) <;> first | rfl | (simp; done) |
        (refine (forEach_re _ _ _ ?_).trans ?_ <;> intros <;> (try dsimp only) <;> (repeat' split) <;> first | rfl | simp))
  · unfold State.rqIsolate; (repeat' split) <;> first | rfl | (simp; done) |
      (refine (forEach_ct _ _ _ ?_).trans ?_ <;> intros <;> (try dsimp only) <;> (repeat' split) <;> first | rfl | (simp; done) |
        (refine (forEach_ct _ _ _ ?_).trans ?_ <;> intros <;> (try dsimp only) <;> (repeat' split) <;> first | rfl | simp))
  · unfold State.rqIsolate; (repeat' split) <;> first | rfl | (simp; done) |
      (refine (forEach_yu _ _ _ ?_).trans ?_ <;> intros <;> (try dsimp only) <;> (repeat' split) <;> first | rfl | (simp; done) |
        (refine (forEach_yu _ _ _ ?_).trans ?_ <;> intros <;> (try dsimp only) <;> (repeat' split) <;> first | rfl | simp))
  · unfold State.rqIsolate; (repeat' split) <;> first | rfl | (simp; done) |
      (refine (forEach_mi _ _ _ ?_).trans ?_ <;> intros <;> (try dsimp only) <;> (repeat' split) <;> first | rfl | (simp; done) |
        (refine (forEach_mi _ _ _ ?_).trans ?_ <;> intros <;> (try dsimp only) <;> (repeat' split) <;> first | rfl | simp))

@[simp] theorem holdEnd_keeps (s : State) (p : Nat) :
    (s.holdEnd p).pending = s.pending ∧ (s.holdEnd p).time = s.time ∧ (s.holdEnd p).windowMs = s.windowMs
     ∧ (s.holdEnd p).oldWindows = s.oldWindows ∧ (s.holdEnd p).field = s.field ∧ (s.holdEnd p).freeIdx = s.freeIdx
     ∧ (s.holdEnd p).yard = s.yard ∧ (s.holdEnd p).li = s.li ∧ (s.holdEnd p).fs = s.fs ∧ (s.holdEnd p).cnt = s.cnt
     ∧ (s.holdEnd p).pt = s.pt ∧ (s.holdEnd p).du = s.du ∧ (s.holdEnd p).pu = s.pu ∧ (s.holdEnd p).su = s.su
     ∧ (s.holdEnd p).re = s.re ∧ (s.holdEnd p).ct = s.ct ∧ (s.holdEnd p).yu = s.yu ∧ (s.holdEnd p).mi = s.mi
     ∧ (s.holdEnd p).rp = s.rp := by
  unfold State.holdEnd
  (repeat' split) <;> simp

@[simp] theorem lampFaultNotice_keeps (s : State) (g : Nat) :
    (s.lampFaultNotice g).pending = s.pending ∧ (s.lampFaultNotice g).time = s.time ∧ (s.lampFaultNotice g).windowMs = s.windowMs
     ∧ (s.lampFaultNotice g).oldWindows = s.oldWindows ∧ (s.lampFaultNotice g).field = s.field
     ∧ (s.lampFaultNotice g).freeIdx = s.freeIdx ∧ (s.lampFaultNotice g).yard = s.yard ∧ (s.lampFaultNotice g).li = s.li
     ∧ (s.lampFaultNotice g).fs = s.fs ∧ (s.lampFaultNotice g).cnt = s.cnt ∧ (s.lampFaultNotice g).pt = s.pt
     ∧ (s.lampFaultNotice g).du = s.du ∧ (s.lampFaultNotice g).pu = s.pu ∧ (s.lampFaultNotice g).su = s.su
     ∧ (s.lampFaultNotice g).re = s.re ∧ (s.lampFaultNotice g).ct = s.ct ∧ (s.lampFaultNotice g).yu = s.yu
     ∧ (s.lampFaultNotice g).mi = s.mi ∧ (s.lampFaultNotice g).rp = s.rp := by
  unfold State.lampFaultNotice
  simp

@[simp] theorem lampRecoveredNotice_keeps (s : State) (g : Nat) :
    (s.lampRecoveredNotice g).pending = s.pending ∧ (s.lampRecoveredNotice g).time = s.time
     ∧ (s.lampRecoveredNotice g).windowMs = s.windowMs ∧ (s.lampRecoveredNotice g).oldWindows = s.oldWindows
     ∧ (s.lampRecoveredNotice g).field = s.field ∧ (s.lampRecoveredNotice g).freeIdx = s.freeIdx
     ∧ (s.lampRecoveredNotice g).yard = s.yard ∧ (s.lampRecoveredNotice g).li = s.li
     ∧ (s.lampRecoveredNotice g).fs.free = s.fs.free ∧ (s.lampRecoveredNotice g).fs.inbox = s.fs.inbox
     ∧ (s.lampRecoveredNotice g).fs.active = s.fs.active ∧ (s.lampRecoveredNotice g).fs.handler = s.fs.handler
     ∧ (s.lampRecoveredNotice g).fs.ownFrames = s.fs.ownFrames ∧ (s.lampRecoveredNotice g).fs.holdOff = s.fs.holdOff
     ∧ (s.lampRecoveredNotice g).pt = s.pt ∧ (s.lampRecoveredNotice g).du = s.du ∧ (s.lampRecoveredNotice g).su = s.su
     ∧ (s.lampRecoveredNotice g).mi.mem = s.mi.mem ∧ (s.lampRecoveredNotice g).mi.startup = s.mi.startup
     ∧ (s.lampRecoveredNotice g).mi.desc = s.mi.desc := by
  (repeat' apply And.intro) <;> (unfold State.lampRecoveredNotice; try dsimp only) <;> (repeat' split) <;>
    first | rfl | (simp; done) | simp

@[simp] theorem evaluateSignal_keeps (r : LampReadings) (g : Nat) (s : State) :
    (State.evaluateSignal r g s).pending = s.pending ∧ (State.evaluateSignal r g s).time = s.time
     ∧ (State.evaluateSignal r g s).windowMs = s.windowMs ∧ (State.evaluateSignal r g s).oldWindows = s.oldWindows
     ∧ (State.evaluateSignal r g s).field = s.field ∧ (State.evaluateSignal r g s).freeIdx = s.freeIdx
     ∧ (State.evaluateSignal r g s).yard = s.yard ∧ (State.evaluateSignal r g s).li = s.li
     ∧ (State.evaluateSignal r g s).fs.free = s.fs.free ∧ (State.evaluateSignal r g s).fs.inbox = s.fs.inbox
     ∧ (State.evaluateSignal r g s).fs.active = s.fs.active ∧ (State.evaluateSignal r g s).fs.handler = s.fs.handler
     ∧ (State.evaluateSignal r g s).fs.ownFrames = s.fs.ownFrames ∧ (State.evaluateSignal r g s).fs.holdOff = s.fs.holdOff
     ∧ (State.evaluateSignal r g s).pt = s.pt ∧ (State.evaluateSignal r g s).du = s.du
     ∧ (State.evaluateSignal r g s).mi.mem = s.mi.mem ∧ (State.evaluateSignal r g s).mi.startup = s.mi.startup
     ∧ (State.evaluateSignal r g s).mi.desc = s.mi.desc := by
  unfold State.evaluateSignal
  (repeat' split) <;> simp

@[simp] theorem evaluateSignals_keeps (s : State) :
    s.evaluateSignals.pending = s.pending ∧ s.evaluateSignals.time = s.time ∧ s.evaluateSignals.windowMs = s.windowMs
     ∧ s.evaluateSignals.oldWindows = s.oldWindows ∧ s.evaluateSignals.field = s.field ∧ s.evaluateSignals.freeIdx = s.freeIdx
     ∧ s.evaluateSignals.yard = s.yard ∧ s.evaluateSignals.li = s.li ∧ s.evaluateSignals.fs.free = s.fs.free
     ∧ s.evaluateSignals.fs.inbox = s.fs.inbox ∧ s.evaluateSignals.fs.active = s.fs.active
     ∧ s.evaluateSignals.fs.handler = s.fs.handler ∧ s.evaluateSignals.fs.ownFrames = s.fs.ownFrames
     ∧ s.evaluateSignals.fs.holdOff = s.fs.holdOff ∧ s.evaluateSignals.pt = s.pt ∧ s.evaluateSignals.du = s.du
     ∧ s.evaluateSignals.mi.mem = s.mi.mem ∧ s.evaluateSignals.mi.startup = s.mi.startup ∧ s.evaluateSignals.mi.desc = s.mi.desc := by
  (repeat' apply And.intro) <;> (unfold State.evaluateSignals; try dsimp only) <;> (repeat' split) <;>
    first | rfl | (simp; done) | simp (disch := (intros; (try dsimp only); (repeat' split) <;> try simp))

@[simp] theorem sendHoldOff_keeps (s : State) :
    s.sendHoldOff.pending = s.pending ∧ s.sendHoldOff.time = s.time ∧ s.sendHoldOff.windowMs = s.windowMs
     ∧ s.sendHoldOff.oldWindows = s.oldWindows ∧ s.sendHoldOff.field = s.field ∧ s.sendHoldOff.freeIdx = s.freeIdx
     ∧ s.sendHoldOff.yard = s.yard ∧ s.sendHoldOff.li = s.li ∧ s.sendHoldOff.fs.free = s.fs.free
     ∧ s.sendHoldOff.fs.inbox = s.fs.inbox ∧ s.sendHoldOff.fs.active = s.fs.active ∧ s.sendHoldOff.fs.handler = s.fs.handler
     ∧ s.sendHoldOff.fs.ownFrames = s.fs.ownFrames ∧ s.sendHoldOff.fs.holdOff = s.fs.holdOff ∧ s.sendHoldOff.pt = s.pt
     ∧ s.sendHoldOff.du = s.du ∧ s.sendHoldOff.pu = s.pu ∧ s.sendHoldOff.su = s.su ∧ s.sendHoldOff.rq = s.rq
     ∧ s.sendHoldOff.re = s.re ∧ s.sendHoldOff.ct = s.ct ∧ s.sendHoldOff.yu = s.yu ∧ s.sendHoldOff.mi = s.mi
     ∧ s.sendHoldOff.rp = s.rp := by
  unfold State.sendHoldOff
  simp

@[simp] theorem poolFell_keeps (s : State) :
    s.poolFell.pending = s.pending ∧ s.poolFell.time = s.time ∧ s.poolFell.windowMs = s.windowMs
     ∧ s.poolFell.oldWindows = s.oldWindows ∧ s.poolFell.field = s.field ∧ s.poolFell.freeIdx = s.freeIdx
     ∧ s.poolFell.yard = s.yard ∧ s.poolFell.li = s.li ∧ s.poolFell.fs.free = s.fs.free ∧ s.poolFell.fs.inbox = s.fs.inbox
     ∧ s.poolFell.fs.active = s.fs.active ∧ s.poolFell.fs.handler = s.fs.handler ∧ s.poolFell.fs.ownFrames = s.fs.ownFrames
     ∧ s.poolFell.fs.holdOff = s.fs.holdOff ∧ s.poolFell.pt = s.pt ∧ s.poolFell.du = s.du ∧ s.poolFell.pu = s.pu
     ∧ s.poolFell.su = s.su ∧ s.poolFell.rq = s.rq ∧ s.poolFell.re = s.re ∧ s.poolFell.ct = s.ct ∧ s.poolFell.yu = s.yu
     ∧ s.poolFell.mi = s.mi ∧ s.poolFell.rp = s.rp := by
  (repeat' apply And.intro) <;> (unfold State.poolFell; try dsimp only) <;> (repeat' split) <;>
    first | rfl | (simp; done) | simp

@[simp] theorem takeBuffer_keeps (s : State) :
    s.takeBuffer.pending = s.pending ∧ s.takeBuffer.time = s.time ∧ s.takeBuffer.windowMs = s.windowMs
     ∧ s.takeBuffer.oldWindows = s.oldWindows ∧ s.takeBuffer.field = s.field ∧ s.takeBuffer.freeIdx = s.freeIdx
     ∧ s.takeBuffer.yard = s.yard ∧ s.takeBuffer.li = s.li ∧ s.takeBuffer.fs.inbox = s.fs.inbox
     ∧ s.takeBuffer.fs.active = s.fs.active ∧ s.takeBuffer.fs.handler = s.fs.handler ∧ s.takeBuffer.fs.ownFrames = s.fs.ownFrames
     ∧ s.takeBuffer.fs.holdOff = s.fs.holdOff ∧ s.takeBuffer.pt = s.pt ∧ s.takeBuffer.du = s.du ∧ s.takeBuffer.pu = s.pu
     ∧ s.takeBuffer.su = s.su ∧ s.takeBuffer.rq = s.rq ∧ s.takeBuffer.re = s.re ∧ s.takeBuffer.ct = s.ct ∧ s.takeBuffer.yu = s.yu
     ∧ s.takeBuffer.mi = s.mi ∧ s.takeBuffer.rp = s.rp := by
  (repeat' apply And.intro) <;> (unfold State.takeBuffer; try dsimp only) <;> (repeat' split) <;>
    first | rfl | (simp; done) | simp

@[simp] theorem giveBuffer_keeps (s : State) :
    s.giveBuffer.pending = s.pending ∧ s.giveBuffer.time = s.time ∧ s.giveBuffer.windowMs = s.windowMs
     ∧ s.giveBuffer.oldWindows = s.oldWindows ∧ s.giveBuffer.field = s.field ∧ s.giveBuffer.freeIdx = s.freeIdx
     ∧ s.giveBuffer.yard = s.yard ∧ s.giveBuffer.li = s.li ∧ s.giveBuffer.fs.inbox = s.fs.inbox
     ∧ s.giveBuffer.fs.active = s.fs.active ∧ s.giveBuffer.fs.handler = s.fs.handler ∧ s.giveBuffer.fs.ownFrames = s.fs.ownFrames
     ∧ s.giveBuffer.fs.holdOff = s.fs.holdOff ∧ s.giveBuffer.cnt = s.cnt ∧ s.giveBuffer.pt = s.pt ∧ s.giveBuffer.du = s.du
     ∧ s.giveBuffer.pu = s.pu ∧ s.giveBuffer.su = s.su ∧ s.giveBuffer.rq = s.rq ∧ s.giveBuffer.re = s.re ∧ s.giveBuffer.ct = s.ct
     ∧ s.giveBuffer.yu = s.yu ∧ s.giveBuffer.mi = s.mi ∧ s.giveBuffer.rp = s.rp := by
  unfold State.giveBuffer
  simp

@[simp] theorem poolExpiry_keeps (s : State) :
    s.poolExpiry.pending = s.pending ∧ s.poolExpiry.time = s.time ∧ s.poolExpiry.windowMs = s.windowMs
     ∧ s.poolExpiry.oldWindows = s.oldWindows ∧ s.poolExpiry.field = s.field ∧ s.poolExpiry.freeIdx = s.freeIdx
     ∧ s.poolExpiry.yard = s.yard ∧ s.poolExpiry.li = s.li ∧ s.poolExpiry.fs.free = s.fs.free ∧ s.poolExpiry.fs.inbox = s.fs.inbox
     ∧ s.poolExpiry.fs.active = s.fs.active ∧ s.poolExpiry.fs.handler = s.fs.handler ∧ s.poolExpiry.fs.ownFrames = s.fs.ownFrames
     ∧ s.poolExpiry.fs.holdOff = s.fs.holdOff ∧ s.poolExpiry.pt = s.pt ∧ s.poolExpiry.du = s.du ∧ s.poolExpiry.pu = s.pu
     ∧ s.poolExpiry.su = s.su ∧ s.poolExpiry.rq = s.rq ∧ s.poolExpiry.re = s.re ∧ s.poolExpiry.ct = s.ct ∧ s.poolExpiry.yu = s.yu
     ∧ s.poolExpiry.mi = s.mi ∧ s.poolExpiry.rp = s.rp := by
  unfold State.poolExpiry
  (repeat' split) <;> simp

@[simp] theorem fileFrame_keeps (s : State) (f : RxFrame) :
    (s.fileFrame f).pending = s.pending ∧ (s.fileFrame f).time = s.time ∧ (s.fileFrame f).windowMs = s.windowMs
     ∧ (s.fileFrame f).oldWindows = s.oldWindows ∧ (s.fileFrame f).field = s.field ∧ (s.fileFrame f).freeIdx = s.freeIdx
     ∧ (s.fileFrame f).yard = s.yard ∧ (s.fileFrame f).li = s.li ∧ (s.fileFrame f).fs.free = s.fs.free
     ∧ (s.fileFrame f).fs.handler = s.fs.handler ∧ (s.fileFrame f).fs.ownFrames = s.fs.ownFrames
     ∧ (s.fileFrame f).fs.holdOff = s.fs.holdOff ∧ (s.fileFrame f).cnt = s.cnt ∧ (s.fileFrame f).pt = s.pt
     ∧ (s.fileFrame f).du = s.du ∧ (s.fileFrame f).pu = s.pu ∧ (s.fileFrame f).su = s.su ∧ (s.fileFrame f).rq = s.rq
     ∧ (s.fileFrame f).re = s.re ∧ (s.fileFrame f).ct = s.ct ∧ (s.fileFrame f).yu = s.yu ∧ (s.fileFrame f).mi = s.mi
     ∧ (s.fileFrame f).rp = s.rp := by
  unfold State.fileFrame
  (repeat' split) <;> simp

@[simp] theorem finishFrame_keeps (s : State) :
    s.finishFrame.pending = s.pending ∧ s.finishFrame.time = s.time ∧ s.finishFrame.windowMs = s.windowMs
     ∧ s.finishFrame.oldWindows = s.oldWindows ∧ s.finishFrame.field = s.field ∧ s.finishFrame.freeIdx = s.freeIdx
     ∧ s.finishFrame.yard = s.yard ∧ s.finishFrame.li = s.li ∧ s.finishFrame.fs.inbox = s.fs.inbox
     ∧ s.finishFrame.fs.active = s.fs.active ∧ s.finishFrame.fs.ownFrames = s.fs.ownFrames
     ∧ s.finishFrame.fs.holdOff = s.fs.holdOff ∧ s.finishFrame.cnt = s.cnt ∧ s.finishFrame.pt = s.pt ∧ s.finishFrame.du = s.du
     ∧ s.finishFrame.pu = s.pu ∧ s.finishFrame.su = s.su ∧ s.finishFrame.rq = s.rq ∧ s.finishFrame.re = s.re
     ∧ s.finishFrame.ct = s.ct ∧ s.finishFrame.yu = s.yu ∧ s.finishFrame.mi = s.mi ∧ s.finishFrame.rp = s.rp := by
  unfold State.finishFrame
  simp

@[simp] theorem withFrame_pending (s : State) (k : Kind) (act : RxFrame → State → State)
    (h : ∀ f s, (act f s).pending = s.pending) : (s.withFrame k act).pending = s.pending := by
  unfold State.withFrame
  split <;> simp [h]

@[simp] theorem withFrame_time (s : State) (k : Kind) (act : RxFrame → State → State)
    (h : ∀ f s, (act f s).time = s.time) : (s.withFrame k act).time = s.time := by
  unfold State.withFrame
  split <;> simp [h]

@[simp] theorem withFrame_windowMs (s : State) (k : Kind) (act : RxFrame → State → State)
    (h : ∀ f s, (act f s).windowMs = s.windowMs) : (s.withFrame k act).windowMs = s.windowMs := by
  unfold State.withFrame
  split <;> simp [h]

@[simp] theorem withFrame_oldWindows (s : State) (k : Kind) (act : RxFrame → State → State)
    (h : ∀ f s, (act f s).oldWindows = s.oldWindows) : (s.withFrame k act).oldWindows = s.oldWindows := by
  unfold State.withFrame
  split <;> simp [h]

@[simp] theorem withFrame_field (s : State) (k : Kind) (act : RxFrame → State → State)
    (h : ∀ f s, (act f s).field = s.field) : (s.withFrame k act).field = s.field := by
  unfold State.withFrame
  split <;> simp [h]

@[simp] theorem withFrame_freeIdx (s : State) (k : Kind) (act : RxFrame → State → State)
    (h : ∀ f s, (act f s).freeIdx = s.freeIdx) : (s.withFrame k act).freeIdx = s.freeIdx := by
  unfold State.withFrame
  split <;> simp [h]

@[simp] theorem withFrame_yard (s : State) (k : Kind) (act : RxFrame → State → State)
    (h : ∀ f s, (act f s).yard = s.yard) : (s.withFrame k act).yard = s.yard := by
  unfold State.withFrame
  split <;> simp [h]

@[simp] theorem withFrame_li (s : State) (k : Kind) (act : RxFrame → State → State)
    (h : ∀ f s, (act f s).li = s.li) : (s.withFrame k act).li = s.li := by
  unfold State.withFrame
  split <;> simp [h]

@[simp] theorem withFrame_cnt (s : State) (k : Kind) (act : RxFrame → State → State)
    (h : ∀ f s, (act f s).cnt = s.cnt) : (s.withFrame k act).cnt = s.cnt := by
  unfold State.withFrame
  split <;> simp [h]

@[simp] theorem withFrame_pt (s : State) (k : Kind) (act : RxFrame → State → State)
    (h : ∀ f s, (act f s).pt = s.pt) : (s.withFrame k act).pt = s.pt := by
  unfold State.withFrame
  split <;> simp [h]

@[simp] theorem withFrame_du (s : State) (k : Kind) (act : RxFrame → State → State)
    (h : ∀ f s, (act f s).du = s.du) : (s.withFrame k act).du = s.du := by
  unfold State.withFrame
  split <;> simp [h]

@[simp] theorem withFrame_pu (s : State) (k : Kind) (act : RxFrame → State → State)
    (h : ∀ f s, (act f s).pu = s.pu) : (s.withFrame k act).pu = s.pu := by
  unfold State.withFrame
  split <;> simp [h]

@[simp] theorem withFrame_su (s : State) (k : Kind) (act : RxFrame → State → State)
    (h : ∀ f s, (act f s).su = s.su) : (s.withFrame k act).su = s.su := by
  unfold State.withFrame
  split <;> simp [h]

@[simp] theorem withFrame_rq (s : State) (k : Kind) (act : RxFrame → State → State)
    (h : ∀ f s, (act f s).rq = s.rq) : (s.withFrame k act).rq = s.rq := by
  unfold State.withFrame
  split <;> simp [h]

@[simp] theorem withFrame_re (s : State) (k : Kind) (act : RxFrame → State → State)
    (h : ∀ f s, (act f s).re = s.re) : (s.withFrame k act).re = s.re := by
  unfold State.withFrame
  split <;> simp [h]

@[simp] theorem withFrame_ct (s : State) (k : Kind) (act : RxFrame → State → State)
    (h : ∀ f s, (act f s).ct = s.ct) : (s.withFrame k act).ct = s.ct := by
  unfold State.withFrame
  split <;> simp [h]

@[simp] theorem withFrame_yu (s : State) (k : Kind) (act : RxFrame → State → State)
    (h : ∀ f s, (act f s).yu = s.yu) : (s.withFrame k act).yu = s.yu := by
  unfold State.withFrame
  split <;> simp [h]

@[simp] theorem withFrame_mi (s : State) (k : Kind) (act : RxFrame → State → State)
    (h : ∀ f s, (act f s).mi = s.mi) : (s.withFrame k act).mi = s.mi := by
  unfold State.withFrame
  split <;> simp [h]

@[simp] theorem withFrame_rp (s : State) (k : Kind) (act : RxFrame → State → State)
    (h : ∀ f s, (act f s).rp = s.rp) : (s.withFrame k act).rp = s.rp := by
  unfold State.withFrame
  split <;> simp [h]

@[simp] theorem setHoldOff_keeps (s : State) (k : Nat) (endTime : Option Time) :
    (s.setHoldOff k endTime).pending = s.pending ∧ (s.setHoldOff k endTime).time = s.time
     ∧ (s.setHoldOff k endTime).windowMs = s.windowMs ∧ (s.setHoldOff k endTime).oldWindows = s.oldWindows
     ∧ (s.setHoldOff k endTime).field = s.field ∧ (s.setHoldOff k endTime).freeIdx = s.freeIdx
     ∧ (s.setHoldOff k endTime).yard = s.yard ∧ (s.setHoldOff k endTime).li = s.li ∧ (s.setHoldOff k endTime).fs.free = s.fs.free
     ∧ (s.setHoldOff k endTime).fs.inbox = s.fs.inbox ∧ (s.setHoldOff k endTime).fs.active = s.fs.active
     ∧ (s.setHoldOff k endTime).fs.handler = s.fs.handler ∧ (s.setHoldOff k endTime).fs.ownFrames = s.fs.ownFrames
     ∧ (s.setHoldOff k endTime).cnt = s.cnt ∧ (s.setHoldOff k endTime).pt = s.pt ∧ (s.setHoldOff k endTime).du = s.du
     ∧ (s.setHoldOff k endTime).pu = s.pu ∧ (s.setHoldOff k endTime).su = s.su ∧ (s.setHoldOff k endTime).rq = s.rq
     ∧ (s.setHoldOff k endTime).re = s.re ∧ (s.setHoldOff k endTime).ct = s.ct ∧ (s.setHoldOff k endTime).yu = s.yu
     ∧ (s.setHoldOff k endTime).mi = s.mi ∧ (s.setHoldOff k endTime).rp = s.rp := by
  unfold State.setHoldOff
  simp

@[simp] theorem takeHoldOff_keeps (f : RxFrame) (s : State) :
    (takeHoldOff f s).pending = s.pending ∧ (takeHoldOff f s).time = s.time ∧ (takeHoldOff f s).windowMs = s.windowMs
     ∧ (takeHoldOff f s).oldWindows = s.oldWindows ∧ (takeHoldOff f s).field = s.field ∧ (takeHoldOff f s).freeIdx = s.freeIdx
     ∧ (takeHoldOff f s).yard = s.yard ∧ (takeHoldOff f s).li = s.li ∧ (takeHoldOff f s).fs.free = s.fs.free
     ∧ (takeHoldOff f s).fs.inbox = s.fs.inbox ∧ (takeHoldOff f s).fs.active = s.fs.active
     ∧ (takeHoldOff f s).fs.handler = s.fs.handler ∧ (takeHoldOff f s).fs.ownFrames = s.fs.ownFrames
     ∧ (takeHoldOff f s).cnt = s.cnt ∧ (takeHoldOff f s).pt = s.pt ∧ (takeHoldOff f s).du = s.du ∧ (takeHoldOff f s).pu = s.pu
     ∧ (takeHoldOff f s).su = s.su ∧ (takeHoldOff f s).rq = s.rq ∧ (takeHoldOff f s).re = s.re ∧ (takeHoldOff f s).ct = s.ct
     ∧ (takeHoldOff f s).yu = s.yu ∧ (takeHoldOff f s).mi = s.mi ∧ (takeHoldOff f s).rp = s.rp := by
  (repeat' apply And.intro) <;> (unfold takeHoldOff; try dsimp only) <;> (repeat' split) <;>
    first | rfl | (simp; done) | simp

@[simp] theorem holdOffEnd_keeps (s : State) (k : Nat) :
    (s.holdOffEnd k).pending = s.pending ∧ (s.holdOffEnd k).time = s.time ∧ (s.holdOffEnd k).windowMs = s.windowMs
     ∧ (s.holdOffEnd k).oldWindows = s.oldWindows ∧ (s.holdOffEnd k).field = s.field ∧ (s.holdOffEnd k).freeIdx = s.freeIdx
     ∧ (s.holdOffEnd k).yard = s.yard ∧ (s.holdOffEnd k).li = s.li ∧ (s.holdOffEnd k).fs.free = s.fs.free
     ∧ (s.holdOffEnd k).fs.inbox = s.fs.inbox ∧ (s.holdOffEnd k).fs.active = s.fs.active
     ∧ (s.holdOffEnd k).fs.handler = s.fs.handler ∧ (s.holdOffEnd k).fs.ownFrames = s.fs.ownFrames ∧ (s.holdOffEnd k).cnt = s.cnt
     ∧ (s.holdOffEnd k).pt = s.pt ∧ (s.holdOffEnd k).du = s.du ∧ (s.holdOffEnd k).pu = s.pu ∧ (s.holdOffEnd k).su = s.su
     ∧ (s.holdOffEnd k).rq = s.rq ∧ (s.holdOffEnd k).re = s.re ∧ (s.holdOffEnd k).ct = s.ct ∧ (s.holdOffEnd k).yu = s.yu
     ∧ (s.holdOffEnd k).mi = s.mi ∧ (s.holdOffEnd k).rp = s.rp := by
  unfold State.holdOffEnd
  (repeat' split) <;> simp

@[simp] theorem changePeer_keeps (s : State) (k : Nat) (before new : PeerRec) :
    (s.changePeer k before new).pending = s.pending ∧ (s.changePeer k before new).time = s.time
     ∧ (s.changePeer k before new).windowMs = s.windowMs ∧ (s.changePeer k before new).oldWindows = s.oldWindows
     ∧ (s.changePeer k before new).field = s.field ∧ (s.changePeer k before new).freeIdx = s.freeIdx
     ∧ (s.changePeer k before new).yard = s.yard ∧ (s.changePeer k before new).li = s.li ∧ (s.changePeer k before new).fs = s.fs
     ∧ (s.changePeer k before new).cnt = s.cnt ∧ (s.changePeer k before new).pt.mode = s.pt.mode
     ∧ (s.changePeer k before new).pt.node = s.pt.node ∧ (s.changePeer k before new).pt.epoch = s.pt.epoch
     ∧ (s.changePeer k before new).du = s.du ∧ (s.changePeer k before new).pu = s.pu ∧ (s.changePeer k before new).su = s.su
     ∧ (s.changePeer k before new).rq = s.rq ∧ (s.changePeer k before new).mi = s.mi ∧ (s.changePeer k before new).rp = s.rp := by
  unfold State.changePeer
  (repeat' split) <;> simp

@[simp] theorem noteEpoch_keeps (s : State) (k : Nat) (epoch : Epoch) :
    (s.noteEpoch k epoch).pending = s.pending ∧ (s.noteEpoch k epoch).time = s.time ∧ (s.noteEpoch k epoch).windowMs = s.windowMs
     ∧ (s.noteEpoch k epoch).oldWindows = s.oldWindows ∧ (s.noteEpoch k epoch).field = s.field
     ∧ (s.noteEpoch k epoch).freeIdx = s.freeIdx ∧ (s.noteEpoch k epoch).yard = s.yard ∧ (s.noteEpoch k epoch).li = s.li
     ∧ (s.noteEpoch k epoch).fs = s.fs ∧ (s.noteEpoch k epoch).cnt = s.cnt ∧ (s.noteEpoch k epoch).pt.mode = s.pt.mode
     ∧ (s.noteEpoch k epoch).pt.node = s.pt.node ∧ (s.noteEpoch k epoch).pt.epoch = s.pt.epoch ∧ (s.noteEpoch k epoch).du = s.du
     ∧ (s.noteEpoch k epoch).pu = s.pu ∧ (s.noteEpoch k epoch).su = s.su ∧ (s.noteEpoch k epoch).rq = s.rq
     ∧ (s.noteEpoch k epoch).mi = s.mi ∧ (s.noteEpoch k epoch).rp = s.rp := by
  unfold State.noteEpoch
  (repeat' split) <;> simp

@[simp] theorem takeStateFrame_keeps (f : RxFrame) (s : State) :
    (takeStateFrame f s).pending = s.pending ∧ (takeStateFrame f s).time = s.time ∧ (takeStateFrame f s).windowMs = s.windowMs
     ∧ (takeStateFrame f s).oldWindows = s.oldWindows ∧ (takeStateFrame f s).field = s.field
     ∧ (takeStateFrame f s).freeIdx = s.freeIdx ∧ (takeStateFrame f s).yard = s.yard ∧ (takeStateFrame f s).li = s.li
     ∧ (takeStateFrame f s).fs.free = s.fs.free ∧ (takeStateFrame f s).fs.inbox = s.fs.inbox
     ∧ (takeStateFrame f s).fs.active = s.fs.active ∧ (takeStateFrame f s).fs.handler = s.fs.handler
     ∧ (takeStateFrame f s).fs.ownFrames = s.fs.ownFrames ∧ (takeStateFrame f s).fs.holdOff = s.fs.holdOff
     ∧ (takeStateFrame f s).pt.mode = s.pt.mode ∧ (takeStateFrame f s).pt.node = s.pt.node
     ∧ (takeStateFrame f s).pt.epoch = s.pt.epoch ∧ (takeStateFrame f s).du = s.du ∧ (takeStateFrame f s).pu = s.pu
     ∧ (takeStateFrame f s).su = s.su ∧ (takeStateFrame f s).mi = s.mi ∧ (takeStateFrame f s).rp = s.rp := by
  (repeat' apply And.intro) <;> (unfold takeStateFrame; try dsimp only) <;> (repeat' split) <;>
    first | rfl | (simp; done) | simp

@[simp] theorem takeAnnounce_keeps (f : RxFrame) (s : State) :
    (takeAnnounce f s).pending = s.pending ∧ (takeAnnounce f s).time = s.time ∧ (takeAnnounce f s).windowMs = s.windowMs
     ∧ (takeAnnounce f s).oldWindows = s.oldWindows ∧ (takeAnnounce f s).field = s.field ∧ (takeAnnounce f s).freeIdx = s.freeIdx
     ∧ (takeAnnounce f s).yard = s.yard ∧ (takeAnnounce f s).li = s.li ∧ (takeAnnounce f s).fs = s.fs
     ∧ (takeAnnounce f s).cnt = s.cnt ∧ (takeAnnounce f s).pt.mode = s.pt.mode ∧ (takeAnnounce f s).pt.node = s.pt.node
     ∧ (takeAnnounce f s).pt.epoch = s.pt.epoch ∧ (takeAnnounce f s).du = s.du ∧ (takeAnnounce f s).pu = s.pu
     ∧ (takeAnnounce f s).su = s.su ∧ (takeAnnounce f s).rq = s.rq ∧ (takeAnnounce f s).re = s.re ∧ (takeAnnounce f s).ct = s.ct
     ∧ (takeAnnounce f s).yu = s.yu ∧ (takeAnnounce f s).mi = s.mi ∧ (takeAnnounce f s).rp = s.rp := by
  (repeat' apply And.intro) <;> (unfold takeAnnounce; try dsimp only) <;> (repeat' split) <;>
    first | rfl | (simp; done) | simp

@[simp] theorem peerSilence_keeps (s : State) (k : Nat) :
    (s.peerSilence k).pending = s.pending ∧ (s.peerSilence k).time = s.time ∧ (s.peerSilence k).windowMs = s.windowMs
     ∧ (s.peerSilence k).oldWindows = s.oldWindows ∧ (s.peerSilence k).field = s.field ∧ (s.peerSilence k).freeIdx = s.freeIdx
     ∧ (s.peerSilence k).yard = s.yard ∧ (s.peerSilence k).li = s.li ∧ (s.peerSilence k).fs = s.fs ∧ (s.peerSilence k).cnt = s.cnt
     ∧ (s.peerSilence k).pt.mode = s.pt.mode ∧ (s.peerSilence k).pt.node = s.pt.node ∧ (s.peerSilence k).pt.epoch = s.pt.epoch
     ∧ (s.peerSilence k).du = s.du ∧ (s.peerSilence k).pu = s.pu ∧ (s.peerSilence k).su = s.su ∧ (s.peerSilence k).rq = s.rq
     ∧ (s.peerSilence k).mi = s.mi ∧ (s.peerSilence k).rp = s.rp := by
  unfold State.peerSilence
  (repeat' split) <;> simp

@[simp] theorem peerLoss_keeps (s : State) (k : Nat) :
    (s.peerLoss k).pending = s.pending ∧ (s.peerLoss k).time = s.time ∧ (s.peerLoss k).windowMs = s.windowMs
     ∧ (s.peerLoss k).oldWindows = s.oldWindows ∧ (s.peerLoss k).field = s.field ∧ (s.peerLoss k).freeIdx = s.freeIdx
     ∧ (s.peerLoss k).yard = s.yard ∧ (s.peerLoss k).li = s.li ∧ (s.peerLoss k).fs.free = s.fs.free
     ∧ (s.peerLoss k).fs.inbox = s.fs.inbox ∧ (s.peerLoss k).fs.active = s.fs.active ∧ (s.peerLoss k).fs.handler = s.fs.handler
     ∧ (s.peerLoss k).fs.ownFrames = s.fs.ownFrames ∧ (s.peerLoss k).fs.holdOff = s.fs.holdOff
     ∧ (s.peerLoss k).pt.mode = s.pt.mode ∧ (s.peerLoss k).pt.node = s.pt.node ∧ (s.peerLoss k).pt.epoch = s.pt.epoch
     ∧ (s.peerLoss k).du = s.du ∧ (s.peerLoss k).pu = s.pu ∧ (s.peerLoss k).su = s.su ∧ (s.peerLoss k).rq = s.rq
     ∧ (s.peerLoss k).mi = s.mi := by
  unfold State.peerLoss
  (repeat' split) <;> simp

@[simp] theorem stopAll_keeps (s : State) :
    s.stopAll.pending = s.pending ∧ s.stopAll.time = s.time ∧ s.stopAll.windowMs = s.windowMs
     ∧ s.stopAll.oldWindows = s.oldWindows ∧ s.stopAll.field = s.field ∧ s.stopAll.freeIdx = s.freeIdx ∧ s.stopAll.yard = s.yard
     ∧ s.stopAll.li = s.li ∧ s.stopAll.fs = s.fs ∧ s.stopAll.cnt = s.cnt ∧ s.stopAll.pt = s.pt ∧ s.stopAll.du = s.du
     ∧ s.stopAll.pu = s.pu ∧ s.stopAll.rq = s.rq ∧ s.stopAll.re = s.re ∧ s.stopAll.ct = s.ct ∧ s.stopAll.yu = s.yu
     ∧ s.stopAll.mi = s.mi ∧ s.stopAll.rp = s.rp := by
  (repeat' apply And.intro) <;> (unfold State.stopAll; try dsimp only) <;> (repeat' split) <;>
    first | rfl | (simp; done) | simp (disch := (intros; (try dsimp only); (repeat' split) <;> try simp))

@[simp] theorem giveIsolation_keeps (s : State) :
    s.giveIsolation.pending = s.pending ∧ s.giveIsolation.time = s.time ∧ s.giveIsolation.windowMs = s.windowMs
     ∧ s.giveIsolation.oldWindows = s.oldWindows ∧ s.giveIsolation.field = s.field ∧ s.giveIsolation.freeIdx = s.freeIdx
     ∧ s.giveIsolation.yard = s.yard ∧ s.giveIsolation.li = s.li ∧ s.giveIsolation.fs = s.fs ∧ s.giveIsolation.cnt = s.cnt
     ∧ s.giveIsolation.pt = s.pt ∧ s.giveIsolation.du = s.du ∧ s.giveIsolation.pu = s.pu ∧ s.giveIsolation.su = s.su
     ∧ s.giveIsolation.mi = s.mi ∧ s.giveIsolation.rp = s.rp := by
  unfold State.giveIsolation
  simp

@[simp] theorem enterIsolated_keeps (s : State) (epoch : Epoch) :
    (s.enterIsolated epoch).pending = s.pending ∧ (s.enterIsolated epoch).time = s.time
     ∧ (s.enterIsolated epoch).windowMs = s.windowMs ∧ (s.enterIsolated epoch).oldWindows = s.oldWindows
     ∧ (s.enterIsolated epoch).field = s.field ∧ (s.enterIsolated epoch).freeIdx = s.freeIdx
     ∧ (s.enterIsolated epoch).yard = s.yard ∧ (s.enterIsolated epoch).li = s.li ∧ (s.enterIsolated epoch).fs.free = s.fs.free
     ∧ (s.enterIsolated epoch).fs.inbox = s.fs.inbox ∧ (s.enterIsolated epoch).fs.active = s.fs.active
     ∧ (s.enterIsolated epoch).fs.handler = s.fs.handler ∧ (s.enterIsolated epoch).fs.ownFrames = s.fs.ownFrames
     ∧ (s.enterIsolated epoch).fs.holdOff = s.fs.holdOff ∧ (s.enterIsolated epoch).pt.node = s.pt.node
     ∧ (s.enterIsolated epoch).pt.epoch = s.pt.epoch ∧ (s.enterIsolated epoch).du = s.du ∧ (s.enterIsolated epoch).pu = s.pu
     ∧ (s.enterIsolated epoch).mi = s.mi := by
  unfold State.enterIsolated
  simp

@[simp] theorem examineOwn_keeps (s : State) (r : RxRec) :
    (s.examineOwn r).pending = s.pending ∧ (s.examineOwn r).time = s.time ∧ (s.examineOwn r).windowMs = s.windowMs
     ∧ (s.examineOwn r).oldWindows = s.oldWindows ∧ (s.examineOwn r).field = s.field ∧ (s.examineOwn r).freeIdx = s.freeIdx
     ∧ (s.examineOwn r).yard = s.yard ∧ (s.examineOwn r).li = s.li ∧ (s.examineOwn r).fs.free = s.fs.free
     ∧ (s.examineOwn r).fs.inbox = s.fs.inbox ∧ (s.examineOwn r).fs.active = s.fs.active
     ∧ (s.examineOwn r).fs.handler = s.fs.handler ∧ (s.examineOwn r).fs.ownFrames = s.fs.ownFrames
     ∧ (s.examineOwn r).fs.holdOff = s.fs.holdOff ∧ (s.examineOwn r).pt.node = s.pt.node ∧ (s.examineOwn r).pt.epoch = s.pt.epoch
     ∧ (s.examineOwn r).du = s.du ∧ (s.examineOwn r).pu = s.pu ∧ (s.examineOwn r).mi = s.mi := by
  (repeat' apply And.intro) <;> (unfold State.examineOwn; try dsimp only) <;> (repeat' split) <;>
    first | rfl | (simp; done) | simp

@[simp] theorem offerAnnounce_keeps (s : State) :
    s.offerAnnounce.pending = s.pending ∧ s.offerAnnounce.time = s.time ∧ s.offerAnnounce.windowMs = s.windowMs
     ∧ s.offerAnnounce.oldWindows = s.oldWindows ∧ s.offerAnnounce.field = s.field ∧ s.offerAnnounce.freeIdx = s.freeIdx
     ∧ s.offerAnnounce.yard = s.yard ∧ s.offerAnnounce.li = s.li ∧ s.offerAnnounce.fs.free = s.fs.free
     ∧ s.offerAnnounce.fs.inbox = s.fs.inbox ∧ s.offerAnnounce.fs.active = s.fs.active ∧ s.offerAnnounce.fs.handler = s.fs.handler
     ∧ s.offerAnnounce.fs.ownFrames = s.fs.ownFrames ∧ s.offerAnnounce.fs.holdOff = s.fs.holdOff
     ∧ s.offerAnnounce.pt.mode = s.pt.mode ∧ s.offerAnnounce.pt.node = s.pt.node ∧ s.offerAnnounce.pt.epoch = s.pt.epoch
     ∧ s.offerAnnounce.du = s.du ∧ s.offerAnnounce.pu = s.pu ∧ s.offerAnnounce.su = s.su ∧ s.offerAnnounce.rq = s.rq
     ∧ s.offerAnnounce.re = s.re ∧ s.offerAnnounce.ct = s.ct ∧ s.offerAnnounce.yu = s.yu ∧ s.offerAnnounce.mi = s.mi
     ∧ s.offerAnnounce.rp = s.rp := by
  unfold State.offerAnnounce
  simp

@[simp] theorem enterRunning_keeps (s : State) :
    s.enterRunning.pending = s.pending ∧ s.enterRunning.time = s.time ∧ s.enterRunning.windowMs = s.windowMs
     ∧ s.enterRunning.oldWindows = s.oldWindows ∧ s.enterRunning.field = s.field ∧ s.enterRunning.freeIdx = s.freeIdx
     ∧ s.enterRunning.yard = s.yard ∧ s.enterRunning.li = s.li ∧ s.enterRunning.fs.free = s.fs.free
     ∧ s.enterRunning.fs.inbox = s.fs.inbox ∧ s.enterRunning.fs.active = s.fs.active ∧ s.enterRunning.fs.handler = s.fs.handler
     ∧ s.enterRunning.fs.ownFrames = s.fs.ownFrames ∧ s.enterRunning.fs.holdOff = s.fs.holdOff
     ∧ s.enterRunning.pt.node = s.pt.node ∧ s.enterRunning.pt.epoch = s.pt.epoch ∧ s.enterRunning.du = s.du
     ∧ s.enterRunning.pu = s.pu ∧ s.enterRunning.su = s.su ∧ s.enterRunning.ct = s.ct ∧ s.enterRunning.yu = s.yu
     ∧ s.enterRunning.mi = s.mi := by
  refine ⟨?_, ?_, ?_, ?_, ?_, ?_, ?_, ?_, ?_, ?_, ?_, ?_, ?_, ?_, ?_, ?_, ?_, ?_, ?_, ?_, ?_, ?_⟩
  · unfold State.enterRunning; (repeat' split) <;> first | rfl | (simp; done) |
      (refine (forEach_pending _ _ _ ?_).trans ?_ <;> intros <;> (try dsimp only) <;> (repeat' split) <;> first | rfl | (simp; done) |
        (refine (forEach_pending _ _ _ ?_).trans ?_ <;> intros <;> (try dsimp only) <;> (repeat' split) <;> first | rfl | simp))
  · unfold State.enterRunning; (repeat' split) <;> first | rfl | (simp; done) |
      (refine (forEach_time _ _ _ ?_).trans ?_ <;> intros <;> (try dsimp only) <;> (repeat' split) <;> first | rfl | (simp; done) |
        (refine (forEach_time _ _ _ ?_).trans ?_ <;> intros <;> (try dsimp only) <;> (repeat' split) <;> first | rfl | simp))
  · unfold State.enterRunning; (repeat' split) <;> first | rfl | (simp; done) |
      (refine (forEach_windowMs _ _ _ ?_).trans ?_ <;> intros <;> (try dsimp only) <;> (repeat' split) <;> first | rfl | (simp; done) |
        (refine (forEach_windowMs _ _ _ ?_).trans ?_ <;> intros <;> (try dsimp only) <;> (repeat' split) <;> first | rfl | simp))
  · unfold State.enterRunning; (repeat' split) <;> first | rfl | (simp; done) |
      (refine (forEach_oldWindows _ _ _ ?_).trans ?_ <;> intros <;> (try dsimp only) <;> (repeat' split) <;> first | rfl | (simp; done) |
        (refine (forEach_oldWindows _ _ _ ?_).trans ?_ <;> intros <;> (try dsimp only) <;> (repeat' split) <;> first | rfl | simp))
  · unfold State.enterRunning; (repeat' split) <;> first | rfl | (simp; done) |
      (refine (forEach_field _ _ _ ?_).trans ?_ <;> intros <;> (try dsimp only) <;> (repeat' split) <;> first | rfl | (simp; done) |
        (refine (forEach_field _ _ _ ?_).trans ?_ <;> intros <;> (try dsimp only) <;> (repeat' split) <;> first | rfl | simp))
  · unfold State.enterRunning; (repeat' split) <;> first | rfl | (simp; done) |
      (refine (forEach_freeIdx _ _ _ ?_).trans ?_ <;> intros <;> (try dsimp only) <;> (repeat' split) <;> first | rfl | (simp; done) |
        (refine (forEach_freeIdx _ _ _ ?_).trans ?_ <;> intros <;> (try dsimp only) <;> (repeat' split) <;> first | rfl | simp))
  · unfold State.enterRunning; (repeat' split) <;> first | rfl | (simp; done) |
      (refine (forEach_yard _ _ _ ?_).trans ?_ <;> intros <;> (try dsimp only) <;> (repeat' split) <;> first | rfl | (simp; done) |
        (refine (forEach_yard _ _ _ ?_).trans ?_ <;> intros <;> (try dsimp only) <;> (repeat' split) <;> first | rfl | simp))
  · unfold State.enterRunning; (repeat' split) <;> first | rfl | (simp; done) |
      (refine (forEach_li _ _ _ ?_).trans ?_ <;> intros <;> (try dsimp only) <;> (repeat' split) <;> first | rfl | (simp; done) |
        (refine (forEach_li _ _ _ ?_).trans ?_ <;> intros <;> (try dsimp only) <;> (repeat' split) <;> first | rfl | simp))
  · unfold State.enterRunning; (repeat' split) <;> first | rfl | (simp; done) |
      (refine (forEach_fs_free _ _ _ ?_).trans ?_ <;> intros <;> (try dsimp only) <;> (repeat' split) <;> first | rfl | (simp; done) |
        (refine (forEach_fs_free _ _ _ ?_).trans ?_ <;> intros <;> (try dsimp only) <;> (repeat' split) <;> first | rfl | simp))
  · unfold State.enterRunning; (repeat' split) <;> first | rfl | (simp; done) |
      (refine (forEach_fs_inbox _ _ _ ?_).trans ?_ <;> intros <;> (try dsimp only) <;> (repeat' split) <;> first | rfl | (simp; done) |
        (refine (forEach_fs_inbox _ _ _ ?_).trans ?_ <;> intros <;> (try dsimp only) <;> (repeat' split) <;> first | rfl | simp))
  · unfold State.enterRunning; (repeat' split) <;> first | rfl | (simp; done) |
      (refine (forEach_fs_active _ _ _ ?_).trans ?_ <;> intros <;> (try dsimp only) <;> (repeat' split) <;> first | rfl | (simp; done) |
        (refine (forEach_fs_active _ _ _ ?_).trans ?_ <;> intros <;> (try dsimp only) <;> (repeat' split) <;> first | rfl | simp))
  · unfold State.enterRunning; (repeat' split) <;> first | rfl | (simp; done) |
      (refine (forEach_fs_handler _ _ _ ?_).trans ?_ <;> intros <;> (try dsimp only) <;> (repeat' split) <;> first | rfl | (simp; done) |
        (refine (forEach_fs_handler _ _ _ ?_).trans ?_ <;> intros <;> (try dsimp only) <;> (repeat' split) <;> first | rfl | simp))
  · unfold State.enterRunning; (repeat' split) <;> first | rfl | (simp; done) |
      (refine (forEach_fs_ownFrames _ _ _ ?_).trans ?_ <;> intros <;> (try dsimp only) <;> (repeat' split) <;> first | rfl | (simp; done) |
        (refine (forEach_fs_ownFrames _ _ _ ?_).trans ?_ <;> intros <;> (try dsimp only) <;> (repeat' split) <;> first | rfl | simp))
  · unfold State.enterRunning; (repeat' split) <;> first | rfl | (simp; done) |
      (refine (forEach_fs_holdOff _ _ _ ?_).trans ?_ <;> intros <;> (try dsimp only) <;> (repeat' split) <;> first | rfl | (simp; done) |
        (refine (forEach_fs_holdOff _ _ _ ?_).trans ?_ <;> intros <;> (try dsimp only) <;> (repeat' split) <;> first | rfl | simp))
  · unfold State.enterRunning; (repeat' split) <;> first | rfl | (simp; done) |
      (refine (forEach_pt_node _ _ _ ?_).trans ?_ <;> intros <;> (try dsimp only) <;> (repeat' split) <;> first | rfl | (simp; done) |
        (refine (forEach_pt_node _ _ _ ?_).trans ?_ <;> intros <;> (try dsimp only) <;> (repeat' split) <;> first | rfl | simp))
  · unfold State.enterRunning; (repeat' split) <;> first | rfl | (simp; done) |
      (refine (forEach_pt_epoch _ _ _ ?_).trans ?_ <;> intros <;> (try dsimp only) <;> (repeat' split) <;> first | rfl | (simp; done) |
        (refine (forEach_pt_epoch _ _ _ ?_).trans ?_ <;> intros <;> (try dsimp only) <;> (repeat' split) <;> first | rfl | simp))
  · unfold State.enterRunning; (repeat' split) <;> first | rfl | (simp; done) |
      (refine (forEach_du _ _ _ ?_).trans ?_ <;> intros <;> (try dsimp only) <;> (repeat' split) <;> first | rfl | (simp; done) |
        (refine (forEach_du _ _ _ ?_).trans ?_ <;> intros <;> (try dsimp only) <;> (repeat' split) <;> first | rfl | simp))
  · unfold State.enterRunning; (repeat' split) <;> first | rfl | (simp; done) |
      (refine (forEach_pu _ _ _ ?_).trans ?_ <;> intros <;> (try dsimp only) <;> (repeat' split) <;> first | rfl | (simp; done) |
        (refine (forEach_pu _ _ _ ?_).trans ?_ <;> intros <;> (try dsimp only) <;> (repeat' split) <;> first | rfl | simp))
  · unfold State.enterRunning; (repeat' split) <;> first | rfl | (simp; done) |
      (refine (forEach_su _ _ _ ?_).trans ?_ <;> intros <;> (try dsimp only) <;> (repeat' split) <;> first | rfl | (simp; done) |
        (refine (forEach_su _ _ _ ?_).trans ?_ <;> intros <;> (try dsimp only) <;> (repeat' split) <;> first | rfl | simp))
  · unfold State.enterRunning; (repeat' split) <;> first | rfl | (simp; done) |
      (refine (forEach_ct _ _ _ ?_).trans ?_ <;> intros <;> (try dsimp only) <;> (repeat' split) <;> first | rfl | (simp; done) |
        (refine (forEach_ct _ _ _ ?_).trans ?_ <;> intros <;> (try dsimp only) <;> (repeat' split) <;> first | rfl | simp))
  · unfold State.enterRunning; (repeat' split) <;> first | rfl | (simp; done) |
      (refine (forEach_yu _ _ _ ?_).trans ?_ <;> intros <;> (try dsimp only) <;> (repeat' split) <;> first | rfl | (simp; done) |
        (refine (forEach_yu _ _ _ ?_).trans ?_ <;> intros <;> (try dsimp only) <;> (repeat' split) <;> first | rfl | simp))
  · unfold State.enterRunning; (repeat' split) <;> first | rfl | (simp; done) |
      (refine (forEach_mi _ _ _ ?_).trans ?_ <;> intros <;> (try dsimp only) <;> (repeat' split) <;> first | rfl | (simp; done) |
        (refine (forEach_mi _ _ _ ?_).trans ?_ <;> intros <;> (try dsimp only) <;> (repeat' split) <;> first | rfl | simp))

@[simp] theorem listenMark_keeps (s : State) :
    s.listenMark.pending = s.pending ∧ s.listenMark.time = s.time ∧ s.listenMark.windowMs = s.windowMs
     ∧ s.listenMark.oldWindows = s.oldWindows ∧ s.listenMark.field = s.field ∧ s.listenMark.freeIdx = s.freeIdx
     ∧ s.listenMark.yard = s.yard ∧ s.listenMark.li = s.li ∧ s.listenMark.fs.free = s.fs.free ∧ s.listenMark.fs.inbox = s.fs.inbox
     ∧ s.listenMark.fs.active = s.fs.active ∧ s.listenMark.fs.handler = s.fs.handler ∧ s.listenMark.fs.ownFrames = s.fs.ownFrames
     ∧ s.listenMark.fs.holdOff = s.fs.holdOff ∧ s.listenMark.pt.node = s.pt.node ∧ s.listenMark.pt.epoch = s.pt.epoch
     ∧ s.listenMark.du = s.du ∧ s.listenMark.pu = s.pu ∧ s.listenMark.su = s.su ∧ s.listenMark.ct = s.ct ∧ s.listenMark.yu = s.yu
     ∧ s.listenMark.mi = s.mi := by
  unfold State.listenMark
  (repeat' split) <;> simp

@[simp] theorem discard_keeps (s : State) (d : Discard) :
    (s.discard d).pending = s.pending ∧ (s.discard d).time = s.time ∧ (s.discard d).windowMs = s.windowMs
     ∧ (s.discard d).oldWindows = s.oldWindows ∧ (s.discard d).field = s.field ∧ (s.discard d).freeIdx = s.freeIdx
     ∧ (s.discard d).yard = s.yard ∧ (s.discard d).fs.inbox = s.fs.inbox ∧ (s.discard d).fs.active = s.fs.active
     ∧ (s.discard d).fs.handler = s.fs.handler ∧ (s.discard d).fs.ownFrames = s.fs.ownFrames
     ∧ (s.discard d).fs.holdOff = s.fs.holdOff ∧ (s.discard d).pt = s.pt ∧ (s.discard d).du = s.du ∧ (s.discard d).pu = s.pu
     ∧ (s.discard d).su = s.su ∧ (s.discard d).rq = s.rq ∧ (s.discard d).re = s.re ∧ (s.discard d).ct = s.ct
     ∧ (s.discard d).yu = s.yu ∧ (s.discard d).mi = s.mi ∧ (s.discard d).rp = s.rp := by
  unfold State.discard
  simp

@[simp] theorem abandon_keeps (s : State) :
    s.abandon.pending = s.pending ∧ s.abandon.time = s.time ∧ s.abandon.windowMs = s.windowMs
     ∧ s.abandon.oldWindows = s.oldWindows ∧ s.abandon.field = s.field ∧ s.abandon.freeIdx = s.freeIdx ∧ s.abandon.yard = s.yard
     ∧ s.abandon.fs.inbox = s.fs.inbox ∧ s.abandon.fs.active = s.fs.active ∧ s.abandon.fs.handler = s.fs.handler
     ∧ s.abandon.fs.ownFrames = s.fs.ownFrames ∧ s.abandon.fs.holdOff = s.fs.holdOff ∧ s.abandon.pt = s.pt ∧ s.abandon.du = s.du
     ∧ s.abandon.pu = s.pu ∧ s.abandon.su = s.su ∧ s.abandon.rq = s.rq ∧ s.abandon.re = s.re ∧ s.abandon.ct = s.ct
     ∧ s.abandon.yu = s.yu ∧ s.abandon.mi = s.mi ∧ s.abandon.rp = s.rp := by
  unfold State.abandon
  (repeat' split) <;> simp

@[simp] theorem beginFrame_keeps (s : State) :
    s.beginFrame.pending = s.pending ∧ s.beginFrame.time = s.time ∧ s.beginFrame.windowMs = s.windowMs
     ∧ s.beginFrame.oldWindows = s.oldWindows ∧ s.beginFrame.field = s.field ∧ s.beginFrame.freeIdx = s.freeIdx
     ∧ s.beginFrame.yard = s.yard ∧ s.beginFrame.fs.inbox = s.fs.inbox ∧ s.beginFrame.fs.active = s.fs.active
     ∧ s.beginFrame.fs.handler = s.fs.handler ∧ s.beginFrame.fs.ownFrames = s.fs.ownFrames
     ∧ s.beginFrame.fs.holdOff = s.fs.holdOff ∧ s.beginFrame.pt = s.pt ∧ s.beginFrame.du = s.du ∧ s.beginFrame.pu = s.pu
     ∧ s.beginFrame.su = s.su ∧ s.beginFrame.rq = s.rq ∧ s.beginFrame.re = s.re ∧ s.beginFrame.ct = s.ct ∧ s.beginFrame.yu = s.yu
     ∧ s.beginFrame.mi = s.mi ∧ s.beginFrame.rp = s.rp := by
  unfold State.beginFrame
  (repeat' split) <;> simp

@[simp] theorem addByte_keeps (s : State) (b : Byte) :
    (s.addByte b).pending = s.pending ∧ (s.addByte b).time = s.time ∧ (s.addByte b).windowMs = s.windowMs
     ∧ (s.addByte b).oldWindows = s.oldWindows ∧ (s.addByte b).field = s.field ∧ (s.addByte b).freeIdx = s.freeIdx
     ∧ (s.addByte b).yard = s.yard ∧ (s.addByte b).fs.inbox = s.fs.inbox ∧ (s.addByte b).fs.active = s.fs.active
     ∧ (s.addByte b).fs.handler = s.fs.handler ∧ (s.addByte b).fs.ownFrames = s.fs.ownFrames
     ∧ (s.addByte b).fs.holdOff = s.fs.holdOff ∧ (s.addByte b).pt = s.pt ∧ (s.addByte b).du = s.du ∧ (s.addByte b).pu = s.pu
     ∧ (s.addByte b).su = s.su ∧ (s.addByte b).rq = s.rq ∧ (s.addByte b).re = s.re ∧ (s.addByte b).ct = s.ct
     ∧ (s.addByte b).yu = s.yu ∧ (s.addByte b).mi = s.mi ∧ (s.addByte b).rp = s.rp := by
  unfold State.addByte
  (repeat' split) <;> simp

@[simp] theorem accept_keeps (s : State) (l : List Byte) (k : Kind) :
    (s.accept l k).pending = s.pending ∧ (s.accept l k).time = s.time ∧ (s.accept l k).windowMs = s.windowMs
     ∧ (s.accept l k).oldWindows = s.oldWindows ∧ (s.accept l k).field = s.field ∧ (s.accept l k).freeIdx = s.freeIdx
     ∧ (s.accept l k).yard = s.yard ∧ (s.accept l k).fs.free = s.fs.free ∧ (s.accept l k).fs.handler = s.fs.handler
     ∧ (s.accept l k).fs.ownFrames = s.fs.ownFrames ∧ (s.accept l k).fs.holdOff = s.fs.holdOff
     ∧ (s.accept l k).pt.mode = s.pt.mode ∧ (s.accept l k).pt.node = s.pt.node ∧ (s.accept l k).pt.epoch = s.pt.epoch
     ∧ (s.accept l k).du = s.du ∧ (s.accept l k).pu = s.pu ∧ (s.accept l k).su = s.su ∧ (s.accept l k).rq = s.rq
     ∧ (s.accept l k).mi = s.mi ∧ (s.accept l k).rp = s.rp := by
  unfold State.accept
  (repeat' split) <;> simp

@[simp] theorem examine_keeps (s : State) (l : List Byte) :
    (s.examine l).pending = s.pending ∧ (s.examine l).time = s.time ∧ (s.examine l).windowMs = s.windowMs
     ∧ (s.examine l).oldWindows = s.oldWindows ∧ (s.examine l).field = s.field ∧ (s.examine l).freeIdx = s.freeIdx
     ∧ (s.examine l).yard = s.yard ∧ (s.examine l).fs.handler = s.fs.handler ∧ (s.examine l).fs.holdOff = s.fs.holdOff
     ∧ (s.examine l).pt.mode = s.pt.mode ∧ (s.examine l).pt.node = s.pt.node ∧ (s.examine l).pt.epoch = s.pt.epoch
     ∧ (s.examine l).du = s.du ∧ (s.examine l).pu = s.pu ∧ (s.examine l).su = s.su ∧ (s.examine l).rq = s.rq
     ∧ (s.examine l).mi = s.mi ∧ (s.examine l).rp = s.rp := by
  unfold State.examine
  (repeat' split) <;> simp

@[simp] theorem endFrame_keeps (s : State) :
    s.endFrame.pending = s.pending ∧ s.endFrame.time = s.time ∧ s.endFrame.windowMs = s.windowMs
     ∧ s.endFrame.oldWindows = s.oldWindows ∧ s.endFrame.field = s.field ∧ s.endFrame.freeIdx = s.freeIdx
     ∧ s.endFrame.yard = s.yard ∧ s.endFrame.fs.handler = s.fs.handler ∧ s.endFrame.fs.holdOff = s.fs.holdOff
     ∧ s.endFrame.pt.mode = s.pt.mode ∧ s.endFrame.pt.node = s.pt.node ∧ s.endFrame.pt.epoch = s.pt.epoch ∧ s.endFrame.du = s.du
     ∧ s.endFrame.pu = s.pu ∧ s.endFrame.su = s.su ∧ s.endFrame.rq = s.rq ∧ s.endFrame.mi = s.mi ∧ s.endFrame.rp = s.rp := by
  unfold State.endFrame
  (repeat' split) <;> simp

@[simp] theorem useSymbol_keeps (s : State) (x : LineSymbol) :
    (s.useSymbol x).pending = s.pending ∧ (s.useSymbol x).time = s.time ∧ (s.useSymbol x).windowMs = s.windowMs
     ∧ (s.useSymbol x).oldWindows = s.oldWindows ∧ (s.useSymbol x).field = s.field ∧ (s.useSymbol x).freeIdx = s.freeIdx
     ∧ (s.useSymbol x).yard = s.yard ∧ (s.useSymbol x).fs.handler = s.fs.handler ∧ (s.useSymbol x).fs.holdOff = s.fs.holdOff
     ∧ (s.useSymbol x).pt.mode = s.pt.mode ∧ (s.useSymbol x).pt.node = s.pt.node ∧ (s.useSymbol x).pt.epoch = s.pt.epoch
     ∧ (s.useSymbol x).du = s.du ∧ (s.useSymbol x).pu = s.pu ∧ (s.useSymbol x).su = s.su ∧ (s.useSymbol x).rq = s.rq
     ∧ (s.useSymbol x).mi = s.mi ∧ (s.useSymbol x).rp = s.rp := by
  unfold State.useSymbol
  (repeat' split) <;> simp

@[simp] theorem violate_keeps (s : State) :
    s.violate.pending = s.pending ∧ s.violate.time = s.time ∧ s.violate.windowMs = s.windowMs
     ∧ s.violate.oldWindows = s.oldWindows ∧ s.violate.field = s.field ∧ s.violate.freeIdx = s.freeIdx ∧ s.violate.yard = s.yard
     ∧ s.violate.fs.inbox = s.fs.inbox ∧ s.violate.fs.active = s.fs.active ∧ s.violate.fs.handler = s.fs.handler
     ∧ s.violate.fs.ownFrames = s.fs.ownFrames ∧ s.violate.fs.holdOff = s.fs.holdOff ∧ s.violate.pt = s.pt ∧ s.violate.du = s.du
     ∧ s.violate.pu = s.pu ∧ s.violate.su = s.su ∧ s.violate.rq = s.rq ∧ s.violate.re = s.re ∧ s.violate.ct = s.ct
     ∧ s.violate.yu = s.yu ∧ s.violate.mi = s.mi ∧ s.violate.rp = s.rp := by
  unfold State.violate
  (repeat' split) <;> simp

@[simp] theorem inCheck_keeps (s : State) (x : Option LineSymbol) :
    (s.inCheck x).pending = s.pending ∧ (s.inCheck x).time = s.time ∧ (s.inCheck x).windowMs = s.windowMs
     ∧ (s.inCheck x).oldWindows = s.oldWindows ∧ (s.inCheck x).field = s.field ∧ (s.inCheck x).freeIdx = s.freeIdx
     ∧ (s.inCheck x).yard = s.yard ∧ (s.inCheck x).fs.handler = s.fs.handler ∧ (s.inCheck x).fs.holdOff = s.fs.holdOff
     ∧ (s.inCheck x).pt.mode = s.pt.mode ∧ (s.inCheck x).pt.node = s.pt.node ∧ (s.inCheck x).pt.epoch = s.pt.epoch
     ∧ (s.inCheck x).du = s.du ∧ (s.inCheck x).pu = s.pu ∧ (s.inCheck x).su = s.su ∧ (s.inCheck x).rq = s.rq ∧ (s.inCheck x).mi = s.mi
     ∧ (s.inCheck x).rp = s.rp := by
  unfold State.inCheck
  (repeat' split) <;> simp

@[simp] theorem inStep_keeps (s : State) (x : Option LineSymbol) :
    (s.inStep x).pending = s.pending ∧ (s.inStep x).time = s.time ∧ (s.inStep x).windowMs = s.windowMs
     ∧ (s.inStep x).oldWindows = s.oldWindows ∧ (s.inStep x).field = s.field ∧ (s.inStep x).freeIdx = s.freeIdx
     ∧ (s.inStep x).yard = s.yard ∧ (s.inStep x).fs.handler = s.fs.handler ∧ (s.inStep x).fs.holdOff = s.fs.holdOff
     ∧ (s.inStep x).pt.mode = s.pt.mode ∧ (s.inStep x).pt.node = s.pt.node ∧ (s.inStep x).pt.epoch = s.pt.epoch
     ∧ (s.inStep x).du = s.du ∧ (s.inStep x).pu = s.pu ∧ (s.inStep x).su = s.su ∧ (s.inStep x).rq = s.rq ∧ (s.inStep x).mi = s.mi
     ∧ (s.inStep x).rp = s.rp := by
  unfold State.inStep
  (repeat' split) <;> simp

@[simp] theorem decode_keeps (s : State) (g : LineGroup) :
    (s.decode g).pending = s.pending ∧ (s.decode g).time = s.time ∧ (s.decode g).windowMs = s.windowMs
     ∧ (s.decode g).oldWindows = s.oldWindows ∧ (s.decode g).field = s.field ∧ (s.decode g).freeIdx = s.freeIdx
     ∧ (s.decode g).yard = s.yard ∧ (s.decode g).fs.handler = s.fs.handler ∧ (s.decode g).fs.holdOff = s.fs.holdOff
     ∧ (s.decode g).pt.mode = s.pt.mode ∧ (s.decode g).pt.node = s.pt.node ∧ (s.decode g).pt.epoch = s.pt.epoch
     ∧ (s.decode g).du = s.du ∧ (s.decode g).pu = s.pu ∧ (s.decode g).su = s.su ∧ (s.decode g).rq = s.rq ∧ (s.decode g).mi = s.mi
     ∧ (s.decode g).rp = s.rp := by
  unfold State.decode
  (repeat' split) <;> simp

@[simp] theorem hearGroup_keeps (s : State) (g : LineGroup) :
    (s.hearGroup g).pending = s.pending ∧ (s.hearGroup g).time = s.time ∧ (s.hearGroup g).windowMs = s.windowMs
     ∧ (s.hearGroup g).oldWindows = s.oldWindows ∧ (s.hearGroup g).field = s.field ∧ (s.hearGroup g).freeIdx = s.freeIdx
     ∧ (s.hearGroup g).yard = s.yard ∧ (s.hearGroup g).fs.handler = s.fs.handler ∧ (s.hearGroup g).fs.holdOff = s.fs.holdOff
     ∧ (s.hearGroup g).pt.mode = s.pt.mode ∧ (s.hearGroup g).pt.node = s.pt.node ∧ (s.hearGroup g).pt.epoch = s.pt.epoch
     ∧ (s.hearGroup g).du = s.du ∧ (s.hearGroup g).pu = s.pu ∧ (s.hearGroup g).su = s.su ∧ (s.hearGroup g).rq = s.rq
     ∧ (s.hearGroup g).mi = s.mi ∧ (s.hearGroup g).rp = s.rp := by
  unfold State.hearGroup
  (repeat' split) <;> simp

@[simp] theorem hear_keeps (s : State) (l : List LineGroup) :
    (s.hear l).pending = s.pending ∧ (s.hear l).time = s.time ∧ (s.hear l).windowMs = s.windowMs
     ∧ (s.hear l).oldWindows = s.oldWindows ∧ (s.hear l).field = s.field ∧ (s.hear l).freeIdx = s.freeIdx
     ∧ (s.hear l).yard = s.yard ∧ (s.hear l).fs.handler = s.fs.handler ∧ (s.hear l).fs.holdOff = s.fs.holdOff
     ∧ (s.hear l).pt.mode = s.pt.mode ∧ (s.hear l).pt.node = s.pt.node ∧ (s.hear l).pt.epoch = s.pt.epoch ∧ (s.hear l).du = s.du
     ∧ (s.hear l).pu = s.pu ∧ (s.hear l).su = s.su ∧ (s.hear l).rq = s.rq ∧ (s.hear l).mi = s.mi ∧ (s.hear l).rp = s.rp := by
  (repeat' apply And.intro) <;> (unfold State.hear; try dsimp only) <;> (repeat' split) <;>
    first | rfl | (simp; done) | simp (disch := (intros; (try dsimp only); (repeat' split) <;> try simp))

@[simp] theorem idlePoint_keeps (s : State) :
    s.idlePoint.pending = s.pending ∧ s.idlePoint.time = s.time ∧ s.idlePoint.windowMs = s.windowMs
     ∧ s.idlePoint.oldWindows = s.oldWindows ∧ s.idlePoint.field = s.field ∧ s.idlePoint.freeIdx = s.freeIdx
     ∧ s.idlePoint.yard = s.yard ∧ s.idlePoint.fs = s.fs ∧ s.idlePoint.cnt = s.cnt ∧ s.idlePoint.pt = s.pt ∧ s.idlePoint.du = s.du
     ∧ s.idlePoint.pu = s.pu ∧ s.idlePoint.su = s.su ∧ s.idlePoint.rq = s.rq ∧ s.idlePoint.re = s.re ∧ s.idlePoint.ct = s.ct
     ∧ s.idlePoint.yu = s.yu ∧ s.idlePoint.mi = s.mi ∧ s.idlePoint.rp = s.rp := by
  unfold State.idlePoint
  simp

@[simp] theorem lineQuiet_keeps (s : State) :
    s.lineQuiet.pending = s.pending ∧ s.lineQuiet.time = s.time ∧ s.lineQuiet.windowMs = s.windowMs
     ∧ s.lineQuiet.oldWindows = s.oldWindows ∧ s.lineQuiet.field = s.field ∧ s.lineQuiet.freeIdx = s.freeIdx
     ∧ s.lineQuiet.yard = s.yard ∧ s.lineQuiet.fs.inbox = s.fs.inbox ∧ s.lineQuiet.fs.active = s.fs.active
     ∧ s.lineQuiet.fs.handler = s.fs.handler ∧ s.lineQuiet.fs.ownFrames = s.fs.ownFrames ∧ s.lineQuiet.fs.holdOff = s.fs.holdOff
     ∧ s.lineQuiet.pt = s.pt ∧ s.lineQuiet.du = s.du ∧ s.lineQuiet.pu = s.pu ∧ s.lineQuiet.su = s.su ∧ s.lineQuiet.rq = s.rq
     ∧ s.lineQuiet.re = s.re ∧ s.lineQuiet.ct = s.ct ∧ s.lineQuiet.yu = s.yu ∧ s.lineQuiet.mi = s.mi ∧ s.lineQuiet.rp = s.rp := by
  (repeat' apply And.intro) <;> (unfold State.lineQuiet; try dsimp only) <;> (repeat' split) <;>
    first | rfl | (simp; done) | simp

@[simp] theorem sendFrame_keeps (s : State) (f : TxFrame) (rest : List TxFrame) :
    (s.sendFrame f rest).pending = s.pending ∧ (s.sendFrame f rest).time = s.time ∧ (s.sendFrame f rest).windowMs = s.windowMs
     ∧ (s.sendFrame f rest).oldWindows = s.oldWindows ∧ (s.sendFrame f rest).field = s.field ∧ (s.sendFrame f rest).freeIdx = s.freeIdx
     ∧ (s.sendFrame f rest).yard = s.yard ∧ (s.sendFrame f rest).fs.free = s.fs.free ∧ (s.sendFrame f rest).fs.inbox = s.fs.inbox
     ∧ (s.sendFrame f rest).fs.active = s.fs.active ∧ (s.sendFrame f rest).fs.handler = s.fs.handler
     ∧ (s.sendFrame f rest).fs.ownFrames = s.fs.ownFrames ∧ (s.sendFrame f rest).fs.holdOff = s.fs.holdOff ∧ (s.sendFrame f rest).cnt = s.cnt
     ∧ (s.sendFrame f rest).pt = s.pt ∧ (s.sendFrame f rest).du = s.du ∧ (s.sendFrame f rest).pu = s.pu ∧ (s.sendFrame f rest).su = s.su
     ∧ (s.sendFrame f rest).rq = s.rq ∧ (s.sendFrame f rest).re = s.re ∧ (s.sendFrame f rest).ct = s.ct ∧ (s.sendFrame f rest).yu = s.yu
     ∧ (s.sendFrame f rest).mi = s.mi ∧ (s.sendFrame f rest).rp = s.rp := by
  unfold State.sendFrame
  simp

@[simp] theorem startSending_keeps (s : State) (step : Nat) :
    (s.startSending step).pending = s.pending ∧ (s.startSending step).time = s.time ∧ (s.startSending step).windowMs = s.windowMs
     ∧ (s.startSending step).oldWindows = s.oldWindows ∧ (s.startSending step).field = s.field ∧ (s.startSending step).freeIdx = s.freeIdx
     ∧ (s.startSending step).yard = s.yard ∧ (s.startSending step).fs.free = s.fs.free ∧ (s.startSending step).fs.inbox = s.fs.inbox
     ∧ (s.startSending step).fs.active = s.fs.active ∧ (s.startSending step).fs.handler = s.fs.handler
     ∧ (s.startSending step).fs.ownFrames = s.fs.ownFrames ∧ (s.startSending step).fs.holdOff = s.fs.holdOff ∧ (s.startSending step).cnt = s.cnt
     ∧ (s.startSending step).pt = s.pt ∧ (s.startSending step).du = s.du ∧ (s.startSending step).pu = s.pu ∧ (s.startSending step).su = s.su
     ∧ (s.startSending step).rq = s.rq ∧ (s.startSending step).re = s.re ∧ (s.startSending step).ct = s.ct ∧ (s.startSending step).yu = s.yu
     ∧ (s.startSending step).mi = s.mi ∧ (s.startSending step).rp = s.rp := by
  unfold State.startSending
  (repeat' split) <;> simp

@[simp] theorem withCtHandover_keeps (s : State) (p : CtMsg → Bool) :
    (s.withCtHandover p).pending = s.pending ∧ (s.withCtHandover p).time = s.time ∧ (s.withCtHandover p).windowMs = s.windowMs
     ∧ (s.withCtHandover p).oldWindows = s.oldWindows ∧ (s.withCtHandover p).field = s.field
     ∧ (s.withCtHandover p).freeIdx = s.freeIdx ∧ (s.withCtHandover p).yard = s.yard ∧ (s.withCtHandover p).li = s.li
     ∧ (s.withCtHandover p).fs.free = s.fs.free ∧ (s.withCtHandover p).fs.inbox = s.fs.inbox
     ∧ (s.withCtHandover p).fs.active = s.fs.active ∧ (s.withCtHandover p).fs.handler = s.fs.handler
     ∧ (s.withCtHandover p).fs.ownFrames = s.fs.ownFrames ∧ (s.withCtHandover p).fs.holdOff = s.fs.holdOff
     ∧ (s.withCtHandover p).pt = s.pt ∧ (s.withCtHandover p).du = s.du ∧ (s.withCtHandover p).su = s.su
     ∧ (s.withCtHandover p).rq = s.rq ∧ (s.withCtHandover p).mi.mem = s.mi.mem ∧ (s.withCtHandover p).mi.startup = s.mi.startup
     ∧ (s.withCtHandover p).mi.desc = s.mi.desc := by
  unfold State.withCtHandover
  (repeat' split) <;> simp

@[simp] theorem withReHandover_keeps (s : State) (k : Kind) :
    (s.withReHandover k).pending = s.pending ∧ (s.withReHandover k).time = s.time ∧ (s.withReHandover k).windowMs = s.windowMs
     ∧ (s.withReHandover k).oldWindows = s.oldWindows ∧ (s.withReHandover k).field = s.field
     ∧ (s.withReHandover k).freeIdx = s.freeIdx ∧ (s.withReHandover k).yard = s.yard ∧ (s.withReHandover k).li = s.li
     ∧ (s.withReHandover k).fs.free = s.fs.free ∧ (s.withReHandover k).fs.inbox = s.fs.inbox
     ∧ (s.withReHandover k).fs.active = s.fs.active ∧ (s.withReHandover k).fs.handler = s.fs.handler
     ∧ (s.withReHandover k).fs.ownFrames = s.fs.ownFrames ∧ (s.withReHandover k).fs.holdOff = s.fs.holdOff
     ∧ (s.withReHandover k).pt = s.pt ∧ (s.withReHandover k).du = s.du ∧ (s.withReHandover k).pu = s.pu
     ∧ (s.withReHandover k).mi = s.mi ∧ (s.withReHandover k).rp = s.rp := by
  unfold State.withReHandover
  (repeat' split) <;> simp

@[simp] theorem withYuHandover_keeps (s : State) (p : YuMsg → Bool) :
    (s.withYuHandover p).pending = s.pending ∧ (s.withYuHandover p).time = s.time ∧ (s.withYuHandover p).windowMs = s.windowMs
     ∧ (s.withYuHandover p).oldWindows = s.oldWindows ∧ (s.withYuHandover p).field = s.field
     ∧ (s.withYuHandover p).freeIdx = s.freeIdx ∧ (s.withYuHandover p).yard = s.yard ∧ (s.withYuHandover p).li = s.li
     ∧ (s.withYuHandover p).fs.free = s.fs.free ∧ (s.withYuHandover p).fs.inbox = s.fs.inbox
     ∧ (s.withYuHandover p).fs.active = s.fs.active ∧ (s.withYuHandover p).fs.handler = s.fs.handler
     ∧ (s.withYuHandover p).fs.ownFrames = s.fs.ownFrames ∧ (s.withYuHandover p).fs.holdOff = s.fs.holdOff
     ∧ (s.withYuHandover p).pt = s.pt ∧ (s.withYuHandover p).du = s.du ∧ (s.withYuHandover p).pu = s.pu
     ∧ (s.withYuHandover p).su = s.su ∧ (s.withYuHandover p).rq = s.rq ∧ (s.withYuHandover p).ct = s.ct
     ∧ (s.withYuHandover p).mi = s.mi ∧ (s.withYuHandover p).rp = s.rp := by
  unfold State.withYuHandover
  (repeat' split) <;> simp

@[simp] theorem withBidHandover_keeps (s : State) :
    s.withBidHandover.pending = s.pending ∧ s.withBidHandover.time = s.time ∧ s.withBidHandover.windowMs = s.windowMs
     ∧ s.withBidHandover.oldWindows = s.oldWindows ∧ s.withBidHandover.field = s.field ∧ s.withBidHandover.freeIdx = s.freeIdx
     ∧ s.withBidHandover.yard = s.yard ∧ s.withBidHandover.li = s.li ∧ s.withBidHandover.fs = s.fs ∧ s.withBidHandover.cnt = s.cnt
     ∧ s.withBidHandover.pt = s.pt ∧ s.withBidHandover.du = s.du ∧ s.withBidHandover.pu = s.pu ∧ s.withBidHandover.su = s.su
     ∧ s.withBidHandover.rq = s.rq ∧ s.withBidHandover.ct = s.ct ∧ s.withBidHandover.yu = s.yu ∧ s.withBidHandover.mi = s.mi
     ∧ s.withBidHandover.rp = s.rp := by
  unfold State.withBidHandover
  (repeat' split) <;> simp

@[simp] theorem withChangeHandover_keeps (s : State) :
    s.withChangeHandover.pending = s.pending ∧ s.withChangeHandover.time = s.time ∧ s.withChangeHandover.windowMs = s.windowMs
     ∧ s.withChangeHandover.oldWindows = s.oldWindows ∧ s.withChangeHandover.field = s.field
     ∧ s.withChangeHandover.freeIdx = s.freeIdx ∧ s.withChangeHandover.yard = s.yard ∧ s.withChangeHandover.li = s.li
     ∧ s.withChangeHandover.fs.free = s.fs.free ∧ s.withChangeHandover.fs.inbox = s.fs.inbox
     ∧ s.withChangeHandover.fs.active = s.fs.active ∧ s.withChangeHandover.fs.handler = s.fs.handler
     ∧ s.withChangeHandover.fs.ownFrames = s.fs.ownFrames ∧ s.withChangeHandover.fs.holdOff = s.fs.holdOff
     ∧ s.withChangeHandover.pt = s.pt ∧ s.withChangeHandover.du = s.du ∧ s.withChangeHandover.pu = s.pu
     ∧ s.withChangeHandover.su = s.su ∧ s.withChangeHandover.rq = s.rq ∧ s.withChangeHandover.ct = s.ct
     ∧ s.withChangeHandover.mi = s.mi ∧ s.withChangeHandover.rp = s.rp := by
  unfold State.withChangeHandover
  (repeat' split) <;> simp

@[simp] theorem claimFrame_keeps (f : RxFrame) (s : State) :
    (claimFrame f s).pending = s.pending ∧ (claimFrame f s).time = s.time ∧ (claimFrame f s).windowMs = s.windowMs
     ∧ (claimFrame f s).oldWindows = s.oldWindows ∧ (claimFrame f s).field = s.field ∧ (claimFrame f s).freeIdx = s.freeIdx
     ∧ (claimFrame f s).yard = s.yard ∧ (claimFrame f s).li = s.li ∧ (claimFrame f s).fs.free = s.fs.free
     ∧ (claimFrame f s).fs.inbox = s.fs.inbox ∧ (claimFrame f s).fs.active = s.fs.active
     ∧ (claimFrame f s).fs.handler = s.fs.handler ∧ (claimFrame f s).fs.ownFrames = s.fs.ownFrames
     ∧ (claimFrame f s).fs.holdOff = s.fs.holdOff ∧ (claimFrame f s).pt = s.pt ∧ (claimFrame f s).du = s.du
     ∧ (claimFrame f s).su = s.su ∧ (claimFrame f s).rq = s.rq ∧ (claimFrame f s).mi.mem = s.mi.mem
     ∧ (claimFrame f s).mi.startup = s.mi.startup ∧ (claimFrame f s).mi.desc = s.mi.desc := by
  unfold claimFrame
  simp

@[simp] theorem setFrame_keeps (f : RxFrame) (s : State) :
    (setFrame f s).pending = s.pending ∧ (setFrame f s).time = s.time ∧ (setFrame f s).windowMs = s.windowMs
     ∧ (setFrame f s).oldWindows = s.oldWindows ∧ (setFrame f s).field = s.field ∧ (setFrame f s).freeIdx = s.freeIdx
     ∧ (setFrame f s).yard = s.yard ∧ (setFrame f s).li = s.li ∧ (setFrame f s).fs.free = s.fs.free
     ∧ (setFrame f s).fs.inbox = s.fs.inbox ∧ (setFrame f s).fs.active = s.fs.active ∧ (setFrame f s).fs.handler = s.fs.handler
     ∧ (setFrame f s).fs.ownFrames = s.fs.ownFrames ∧ (setFrame f s).fs.holdOff = s.fs.holdOff ∧ (setFrame f s).pt = s.pt
     ∧ (setFrame f s).du = s.du ∧ (setFrame f s).su = s.su ∧ (setFrame f s).rq = s.rq ∧ (setFrame f s).mi.mem = s.mi.mem
     ∧ (setFrame f s).mi.startup = s.mi.startup ∧ (setFrame f s).mi.desc = s.mi.desc := by
  (repeat' apply And.intro) <;> (unfold setFrame; try dsimp only) <;> (repeat' split) <;>
    first | rfl | (simp; done) | simp

@[simp] theorem releaseFrame_keeps (f : RxFrame) (s : State) :
    (releaseFrame f s).pending = s.pending ∧ (releaseFrame f s).time = s.time ∧ (releaseFrame f s).windowMs = s.windowMs
     ∧ (releaseFrame f s).oldWindows = s.oldWindows ∧ (releaseFrame f s).field = s.field ∧ (releaseFrame f s).freeIdx = s.freeIdx
     ∧ (releaseFrame f s).yard = s.yard ∧ (releaseFrame f s).li = s.li ∧ (releaseFrame f s).fs.free = s.fs.free
     ∧ (releaseFrame f s).fs.inbox = s.fs.inbox ∧ (releaseFrame f s).fs.active = s.fs.active
     ∧ (releaseFrame f s).fs.handler = s.fs.handler ∧ (releaseFrame f s).fs.ownFrames = s.fs.ownFrames
     ∧ (releaseFrame f s).fs.holdOff = s.fs.holdOff ∧ (releaseFrame f s).pt = s.pt ∧ (releaseFrame f s).du = s.du
     ∧ (releaseFrame f s).su = s.su ∧ (releaseFrame f s).rq = s.rq ∧ (releaseFrame f s).mi.mem = s.mi.mem
     ∧ (releaseFrame f s).mi.startup = s.mi.startup ∧ (releaseFrame f s).mi.desc = s.mi.desc := by
  (repeat' apply And.intro) <;> (unfold releaseFrame; try dsimp only) <;> (repeat' split) <;>
    first | rfl | (simp; done) | simp

@[simp] theorem replyFrame_keeps (f : RxFrame) (s : State) :
    (replyFrame f s).pending = s.pending ∧ (replyFrame f s).time = s.time ∧ (replyFrame f s).windowMs = s.windowMs
     ∧ (replyFrame f s).oldWindows = s.oldWindows ∧ (replyFrame f s).field = s.field ∧ (replyFrame f s).freeIdx = s.freeIdx
     ∧ (replyFrame f s).yard = s.yard ∧ (replyFrame f s).li = s.li ∧ (replyFrame f s).fs.free = s.fs.free
     ∧ (replyFrame f s).fs.inbox = s.fs.inbox ∧ (replyFrame f s).fs.active = s.fs.active
     ∧ (replyFrame f s).fs.handler = s.fs.handler ∧ (replyFrame f s).fs.ownFrames = s.fs.ownFrames
     ∧ (replyFrame f s).fs.holdOff = s.fs.holdOff ∧ (replyFrame f s).pt = s.pt ∧ (replyFrame f s).du = s.du
     ∧ (replyFrame f s).pu = s.pu ∧ (replyFrame f s).mi = s.mi ∧ (replyFrame f s).rp = s.rp := by
  unfold replyFrame
  (repeat' split) <;> simp

@[simp] theorem bidFrame_keeps (f : RxFrame) (s : State) :
    (bidFrame f s).pending = s.pending ∧ (bidFrame f s).time = s.time ∧ (bidFrame f s).windowMs = s.windowMs
     ∧ (bidFrame f s).oldWindows = s.oldWindows ∧ (bidFrame f s).field = s.field ∧ (bidFrame f s).freeIdx = s.freeIdx
     ∧ (bidFrame f s).yard = s.yard ∧ (bidFrame f s).li = s.li ∧ (bidFrame f s).fs = s.fs ∧ (bidFrame f s).cnt = s.cnt
     ∧ (bidFrame f s).pt = s.pt ∧ (bidFrame f s).du = s.du ∧ (bidFrame f s).pu = s.pu ∧ (bidFrame f s).su = s.su
     ∧ (bidFrame f s).rq = s.rq ∧ (bidFrame f s).ct = s.ct ∧ (bidFrame f s).yu = s.yu ∧ (bidFrame f s).mi = s.mi
     ∧ (bidFrame f s).rp = s.rp := by
  unfold bidFrame
  simp

@[simp] theorem bidCallFrame_keeps (f : RxFrame) (s : State) :
    (bidCallFrame f s).pending = s.pending ∧ (bidCallFrame f s).time = s.time ∧ (bidCallFrame f s).windowMs = s.windowMs
     ∧ (bidCallFrame f s).oldWindows = s.oldWindows ∧ (bidCallFrame f s).field = s.field ∧ (bidCallFrame f s).freeIdx = s.freeIdx
     ∧ (bidCallFrame f s).yard = s.yard ∧ (bidCallFrame f s).li = s.li ∧ (bidCallFrame f s).fs.free = s.fs.free
     ∧ (bidCallFrame f s).fs.inbox = s.fs.inbox ∧ (bidCallFrame f s).fs.active = s.fs.active
     ∧ (bidCallFrame f s).fs.handler = s.fs.handler ∧ (bidCallFrame f s).fs.ownFrames = s.fs.ownFrames
     ∧ (bidCallFrame f s).fs.holdOff = s.fs.holdOff ∧ (bidCallFrame f s).pt = s.pt ∧ (bidCallFrame f s).du = s.du
     ∧ (bidCallFrame f s).pu = s.pu ∧ (bidCallFrame f s).su = s.su ∧ (bidCallFrame f s).rq = s.rq ∧ (bidCallFrame f s).ct = s.ct
     ∧ (bidCallFrame f s).mi = s.mi ∧ (bidCallFrame f s).rp = s.rp := by
  (repeat' apply And.intro) <;> (unfold bidCallFrame; try dsimp only) <;> (repeat' split) <;>
    first | rfl | (simp; done) | simp

@[simp] theorem awardFrame_keeps (f : RxFrame) (s : State) :
    (awardFrame f s).pending = s.pending ∧ (awardFrame f s).time = s.time ∧ (awardFrame f s).windowMs = s.windowMs
     ∧ (awardFrame f s).oldWindows = s.oldWindows ∧ (awardFrame f s).field = s.field ∧ (awardFrame f s).freeIdx = s.freeIdx
     ∧ (awardFrame f s).yard = s.yard ∧ (awardFrame f s).li = s.li ∧ (awardFrame f s).fs.free = s.fs.free
     ∧ (awardFrame f s).fs.inbox = s.fs.inbox ∧ (awardFrame f s).fs.active = s.fs.active
     ∧ (awardFrame f s).fs.handler = s.fs.handler ∧ (awardFrame f s).fs.ownFrames = s.fs.ownFrames
     ∧ (awardFrame f s).fs.holdOff = s.fs.holdOff ∧ (awardFrame f s).pt = s.pt ∧ (awardFrame f s).du = s.du
     ∧ (awardFrame f s).pu = s.pu ∧ (awardFrame f s).su = s.su ∧ (awardFrame f s).rq = s.rq ∧ (awardFrame f s).ct = s.ct
     ∧ (awardFrame f s).mi = s.mi ∧ (awardFrame f s).rp = s.rp := by
  (repeat' apply And.intro) <;> (unfold awardFrame; try dsimp only) <;> (repeat' split) <;>
    first | rfl | (simp; done) | simp

@[simp] theorem withdrawFrame_keeps (f : RxFrame) (s : State) :
    (withdrawFrame f s).pending = s.pending ∧ (withdrawFrame f s).time = s.time ∧ (withdrawFrame f s).windowMs = s.windowMs
     ∧ (withdrawFrame f s).oldWindows = s.oldWindows ∧ (withdrawFrame f s).field = s.field
     ∧ (withdrawFrame f s).freeIdx = s.freeIdx ∧ (withdrawFrame f s).yard = s.yard ∧ (withdrawFrame f s).li = s.li
     ∧ (withdrawFrame f s).fs.free = s.fs.free ∧ (withdrawFrame f s).fs.inbox = s.fs.inbox
     ∧ (withdrawFrame f s).fs.active = s.fs.active ∧ (withdrawFrame f s).fs.handler = s.fs.handler
     ∧ (withdrawFrame f s).fs.ownFrames = s.fs.ownFrames ∧ (withdrawFrame f s).fs.holdOff = s.fs.holdOff
     ∧ (withdrawFrame f s).pt = s.pt ∧ (withdrawFrame f s).du = s.du ∧ (withdrawFrame f s).pu = s.pu
     ∧ (withdrawFrame f s).su = s.su ∧ (withdrawFrame f s).rq = s.rq ∧ (withdrawFrame f s).ct = s.ct
     ∧ (withdrawFrame f s).mi = s.mi ∧ (withdrawFrame f s).rp = s.rp := by
  (repeat' apply And.intro) <;> (unfold withdrawFrame; try dsimp only) <;> (repeat' split) <;>
    first | rfl | (simp; done) | simp

@[simp] theorem buildState_keeps (s : State) :
    s.buildState.pending = s.pending ∧ s.buildState.time = s.time ∧ s.buildState.windowMs = s.windowMs
     ∧ s.buildState.oldWindows = s.oldWindows ∧ s.buildState.field = s.field ∧ s.buildState.freeIdx = s.freeIdx
     ∧ s.buildState.yard = s.yard ∧ s.buildState.li = s.li ∧ s.buildState.fs.free = s.fs.free ∧ s.buildState.fs.inbox = s.fs.inbox
     ∧ s.buildState.fs.active = s.fs.active ∧ s.buildState.fs.handler = s.fs.handler ∧ s.buildState.fs.ownFrames = s.fs.ownFrames
     ∧ s.buildState.fs.holdOff = s.fs.holdOff ∧ s.buildState.pt = s.pt ∧ s.buildState.du = s.du ∧ s.buildState.pu = s.pu
     ∧ s.buildState.su = s.su ∧ s.buildState.rq = s.rq ∧ s.buildState.re = s.re ∧ s.buildState.ct = s.ct ∧ s.buildState.yu = s.yu
     ∧ s.buildState.mi = s.mi ∧ s.buildState.rp = s.rp := by
  unfold State.buildState
  simp

@[simp] theorem stateMark_keeps (s : State) :
    s.stateMark.pending = s.pending ∧ s.stateMark.time = s.time ∧ s.stateMark.windowMs = s.windowMs
     ∧ s.stateMark.oldWindows = s.oldWindows ∧ s.stateMark.field = s.field ∧ s.stateMark.freeIdx = s.freeIdx
     ∧ s.stateMark.yard = s.yard ∧ s.stateMark.li = s.li ∧ s.stateMark.fs.free = s.fs.free ∧ s.stateMark.fs.inbox = s.fs.inbox
     ∧ s.stateMark.fs.active = s.fs.active ∧ s.stateMark.fs.handler = s.fs.handler ∧ s.stateMark.fs.ownFrames = s.fs.ownFrames
     ∧ s.stateMark.fs.holdOff = s.fs.holdOff ∧ s.stateMark.pt.mode = s.pt.mode ∧ s.stateMark.pt.node = s.pt.node
     ∧ s.stateMark.pt.epoch = s.pt.epoch ∧ s.stateMark.du = s.du ∧ s.stateMark.pu = s.pu ∧ s.stateMark.su = s.su
     ∧ s.stateMark.rq = s.rq ∧ s.stateMark.re = s.re ∧ s.stateMark.ct = s.ct ∧ s.stateMark.yu = s.yu ∧ s.stateMark.mi = s.mi
     ∧ s.stateMark.rp = s.rp := by
  unfold State.stateMark
  (repeat' split) <;> simp

@[simp] theorem inspectFrame_keeps (f : RxFrame) (s : State) :
    (inspectFrame f s).pending = s.pending ∧ (inspectFrame f s).time = s.time ∧ (inspectFrame f s).windowMs = s.windowMs
     ∧ (inspectFrame f s).oldWindows = s.oldWindows ∧ (inspectFrame f s).field = s.field ∧ (inspectFrame f s).freeIdx = s.freeIdx
     ∧ (inspectFrame f s).yard = s.yard ∧ (inspectFrame f s).li = s.li ∧ (inspectFrame f s).fs.free = s.fs.free
     ∧ (inspectFrame f s).fs.inbox = s.fs.inbox ∧ (inspectFrame f s).fs.active = s.fs.active
     ∧ (inspectFrame f s).fs.handler = s.fs.handler ∧ (inspectFrame f s).fs.ownFrames = s.fs.ownFrames
     ∧ (inspectFrame f s).fs.holdOff = s.fs.holdOff ∧ (inspectFrame f s).pt = s.pt ∧ (inspectFrame f s).du = s.du
     ∧ (inspectFrame f s).pu = s.pu ∧ (inspectFrame f s).su = s.su ∧ (inspectFrame f s).rq = s.rq ∧ (inspectFrame f s).re = s.re
     ∧ (inspectFrame f s).ct = s.ct ∧ (inspectFrame f s).yu = s.yu ∧ (inspectFrame f s).mi = s.mi ∧ (inspectFrame f s).rp = s.rp := by
  unfold inspectFrame
  (repeat' split) <;> simp

@[simp] theorem configFault_keeps (s : State) :
    s.configFault.pending = s.pending ∧ s.configFault.time = s.time ∧ s.configFault.windowMs = s.windowMs
     ∧ s.configFault.oldWindows = s.oldWindows ∧ s.configFault.field = s.field ∧ s.configFault.freeIdx = s.freeIdx
     ∧ s.configFault.yard = s.yard ∧ s.configFault.li = s.li ∧ s.configFault.fs = s.fs ∧ s.configFault.cnt = s.cnt
     ∧ s.configFault.pt.node = s.pt.node ∧ s.configFault.pt.epoch = s.pt.epoch ∧ s.configFault.du = s.du ∧ s.configFault.pu = s.pu
     ∧ s.configFault.su = s.su ∧ s.configFault.rq = s.rq ∧ s.configFault.re = s.re ∧ s.configFault.ct = s.ct
     ∧ s.configFault.yu = s.yu ∧ s.configFault.mi.mem = s.mi.mem ∧ s.configFault.mi.desc = s.mi.desc ∧ s.configFault.rp = s.rp := by
  unfold State.configFault
  simp

@[simp] theorem release_keeps (s : State) (straps : Nat) :
    (s.release straps).pending = s.pending ∧ (s.release straps).time = s.time ∧ (s.release straps).oldWindows = s.oldWindows
     ∧ (s.release straps).field = s.field ∧ (s.release straps).freeIdx = s.freeIdx ∧ (s.release straps).yard = s.yard
     ∧ (s.release straps).li = s.li ∧ (s.release straps).fs = s.fs ∧ (s.release straps).cnt = s.cnt
     ∧ (s.release straps).pt.epoch = s.pt.epoch ∧ (s.release straps).du = s.du ∧ (s.release straps).pu = s.pu
     ∧ (s.release straps).su = s.su ∧ (s.release straps).rq = s.rq ∧ (s.release straps).re = s.re ∧ (s.release straps).ct = s.ct
     ∧ (s.release straps).yu = s.yu ∧ (s.release straps).mi.mem = s.mi.mem ∧ (s.release straps).mi.desc = s.mi.desc
     ∧ (s.release straps).rp = s.rp := by
  unfold State.release
  (repeat' split) <;> simp

@[simp] theorem takeImage_keeps (s : State) (acked : Bool) :
    (s.takeImage acked).pending = s.pending ∧ (s.takeImage acked).time = s.time ∧ (s.takeImage acked).windowMs = s.windowMs
     ∧ (s.takeImage acked).oldWindows = s.oldWindows ∧ (s.takeImage acked).field = s.field
     ∧ (s.takeImage acked).freeIdx = s.freeIdx ∧ (s.takeImage acked).yard = s.yard ∧ (s.takeImage acked).li = s.li
     ∧ (s.takeImage acked).fs = s.fs ∧ (s.takeImage acked).cnt = s.cnt ∧ (s.takeImage acked).pt.node = s.pt.node
     ∧ (s.takeImage acked).pt.epoch = s.pt.epoch ∧ (s.takeImage acked).du = s.du ∧ (s.takeImage acked).pu = s.pu
     ∧ (s.takeImage acked).su = s.su ∧ (s.takeImage acked).rq = s.rq ∧ (s.takeImage acked).re = s.re
     ∧ (s.takeImage acked).ct = s.ct ∧ (s.takeImage acked).yu = s.yu ∧ (s.takeImage acked).mi.mem = s.mi.mem
     ∧ (s.takeImage acked).rp = s.rp := by
  unfold State.takeImage
  (repeat' split) <;> simp

@[simp] theorem failedCopy_keeps (s : State) (mem : List Host.Cell) (addr : Nat) :
    (s.failedCopy mem addr).pending = s.pending ∧ (s.failedCopy mem addr).time = s.time
     ∧ (s.failedCopy mem addr).windowMs = s.windowMs ∧ (s.failedCopy mem addr).oldWindows = s.oldWindows
     ∧ (s.failedCopy mem addr).field = s.field ∧ (s.failedCopy mem addr).yard = s.yard ∧ (s.failedCopy mem addr).li = s.li
     ∧ (s.failedCopy mem addr).fs = s.fs ∧ (s.failedCopy mem addr).cnt = s.cnt ∧ (s.failedCopy mem addr).pt.node = s.pt.node
     ∧ (s.failedCopy mem addr).pt.epoch = s.pt.epoch ∧ (s.failedCopy mem addr).du = s.du ∧ (s.failedCopy mem addr).pu = s.pu
     ∧ (s.failedCopy mem addr).su = s.su ∧ (s.failedCopy mem addr).rq = s.rq ∧ (s.failedCopy mem addr).re = s.re
     ∧ (s.failedCopy mem addr).ct = s.ct ∧ (s.failedCopy mem addr).yu = s.yu ∧ (s.failedCopy mem addr).mi.desc = s.mi.desc
     ∧ (s.failedCopy mem addr).rp = s.rp := by
  unfold State.failedCopy
  simp

@[simp] theorem takeEpoch_keeps (s : State) (result : EpochWrite) :
    (s.takeEpoch result).pending = s.pending ∧ (s.takeEpoch result).time = s.time ∧ (s.takeEpoch result).windowMs = s.windowMs
     ∧ (s.takeEpoch result).oldWindows = s.oldWindows ∧ (s.takeEpoch result).field = s.field ∧ (s.takeEpoch result).yard = s.yard
     ∧ (s.takeEpoch result).li = s.li ∧ (s.takeEpoch result).fs = s.fs ∧ (s.takeEpoch result).cnt = s.cnt
     ∧ (s.takeEpoch result).pt.node = s.pt.node ∧ (s.takeEpoch result).du = s.du ∧ (s.takeEpoch result).pu = s.pu
     ∧ (s.takeEpoch result).su = s.su ∧ (s.takeEpoch result).rq = s.rq ∧ (s.takeEpoch result).re = s.re
     ∧ (s.takeEpoch result).ct = s.ct ∧ (s.takeEpoch result).yu = s.yu ∧ (s.takeEpoch result).mi.desc = s.mi.desc
     ∧ (s.takeEpoch result).rp = s.rp := by
  unfold State.takeEpoch
  (repeat' split) <;> simp

@[simp] theorem takeDescription_keeps (s : State) (roads : List RoadRec) :
    (s.takeDescription roads).pending = s.pending ∧ (s.takeDescription roads).time = s.time
     ∧ (s.takeDescription roads).windowMs = s.windowMs ∧ (s.takeDescription roads).oldWindows = s.oldWindows
     ∧ (s.takeDescription roads).field = s.field ∧ (s.takeDescription roads).freeIdx = s.freeIdx
     ∧ (s.takeDescription roads).li = s.li ∧ (s.takeDescription roads).fs = s.fs ∧ (s.takeDescription roads).cnt = s.cnt
     ∧ (s.takeDescription roads).pt = s.pt ∧ (s.takeDescription roads).rq = s.rq ∧ (s.takeDescription roads).re = s.re
     ∧ (s.takeDescription roads).mi = s.mi ∧ (s.takeDescription roads).rp = s.rp := by
  unfold State.takeDescription
  simp

@[simp] theorem evaluateSect_keeps (l : Levels) (k : Nat) (s : State) :
    (State.evaluateSect l k s).pending = s.pending ∧ (State.evaluateSect l k s).time = s.time
     ∧ (State.evaluateSect l k s).windowMs = s.windowMs ∧ (State.evaluateSect l k s).oldWindows = s.oldWindows
     ∧ (State.evaluateSect l k s).field = s.field ∧ (State.evaluateSect l k s).freeIdx = s.freeIdx
     ∧ (State.evaluateSect l k s).yard = s.yard ∧ (State.evaluateSect l k s).li = s.li
     ∧ (State.evaluateSect l k s).fs.free = s.fs.free ∧ (State.evaluateSect l k s).fs.inbox = s.fs.inbox
     ∧ (State.evaluateSect l k s).fs.active = s.fs.active ∧ (State.evaluateSect l k s).fs.handler = s.fs.handler
     ∧ (State.evaluateSect l k s).fs.ownFrames = s.fs.ownFrames ∧ (State.evaluateSect l k s).fs.holdOff = s.fs.holdOff
     ∧ (State.evaluateSect l k s).pt = s.pt ∧ (State.evaluateSect l k s).su = s.su ∧ (State.evaluateSect l k s).rq = s.rq
     ∧ (State.evaluateSect l k s).mi = s.mi := by
  (repeat' apply And.intro) <;> (unfold State.evaluateSect; try dsimp only) <;> (repeat' split) <;>
    first | rfl | (simp; done) | simp

@[simp] theorem exchange_keeps (s : State) :
    s.exchange.pending = s.pending ∧ s.exchange.time = s.time ∧ s.exchange.oldWindows = s.oldWindows
     ∧ s.exchange.freeIdx = s.freeIdx ∧ s.exchange.yard = s.yard ∧ s.exchange.li = s.li ∧ s.exchange.fs = s.fs
     ∧ s.exchange.cnt = s.cnt ∧ s.exchange.pt = s.pt ∧ s.exchange.du = s.du ∧ s.exchange.pu = s.pu ∧ s.exchange.rq = s.rq
     ∧ s.exchange.re = s.re ∧ s.exchange.ct = s.ct ∧ s.exchange.yu = s.yu ∧ s.exchange.mi = s.mi ∧ s.exchange.rp = s.rp := by
  simp [State.exchange]

/-- What an exchange sends, and what it counts for the lag of R17. -/
theorem exchange_sends (s : State) :
    s.exchange.field = s.outputs ∧ s.exchange.windowMs = s.windowMs - Config.windowMs
     ∧ s.exchange.su = { s.su with signals := s.su.signals.map SignalRec.exchanged } := by
  simp [State.exchange]

/-- A reading counts only for a lamp that two exchanges have sent (R17). -/
theorem usable_isSome (r : LampReadings) (g : Nat) (x : SignalRec) :
    (r.usable g x).isSome = (x.lit.isSome && decide (2 ≤ x.sent)) := by
  unfold LampReadings.usable
  cases x.lit <;> simp
  split <;> simp_all

end Sys2Proof.Laws
end

