-- ==== Sys2Proof/Laws/Blocks.lean ====
section
/-! SUPPORT. What some operations of the blocks do, said once in full: frames and reports that are offered, code words and groups of
the line, a drive that is turned on, permission-end notices, link and unlink of an arrival. -/

namespace Sys2Proof.Laws

open Sys2Proof.Machine

/-! ## Frames and reports (R51, R167) -/

/-- What offering a frame does to FS depends on the mode and on FS alone. -/
theorem send_fs_congr {s t : State} (hm : s.pt.mode = t.pt.mode) (hf : s.fs = t.fs) (k : Kind) (dest : Nat) (l : List Byte) :
    (s.send k dest l).fs = (t.send k dest l).fs := by
  by_cases h1 : t.pt.mode.active = true
  · by_cases h2 : k = .state ∧ t.fs.queue.any (fun g => g.kind == .state) = true
    · simp only [State.send, hm, hf, h1, h2, Bool.not_true, Bool.false_eq_true, if_false, if_true, and_self]
    · by_cases h3 : t.fs.queue.length < 16
      · simp only [State.send, State.heldOff, hm, hf, h1, h2, h3, Bool.not_true, Bool.false_eq_true, if_false, if_true]
      · cases hv : victim k.level t.fs.queue <;>
          simp only [State.send, State.heldOff, hm, hf, h1, h2, h3, hv, Bool.not_true, Bool.false_eq_true, if_false]
  · simp only [State.send, hm, hf, h1, Bool.not_false, if_true]

/-- What offering a frame does to the counters depends on the mode, FS and the counters alone. -/
theorem send_cnt_congr {s t : State} (hm : s.pt.mode = t.pt.mode) (hf : s.fs = t.fs) (hc : s.cnt = t.cnt) (k : Kind) (dest : Nat)
    (l : List Byte) : (s.send k dest l).cnt = (t.send k dest l).cnt := by
  by_cases h1 : t.pt.mode.active = true
  · by_cases h2 : k = .state ∧ t.fs.queue.any (fun g => g.kind == .state) = true
    · simp only [State.send, hm, hf, hc, h1, h2, Bool.not_true, Bool.false_eq_true, if_false, if_true, and_self]
    · by_cases h3 : t.fs.queue.length < 16
      · simp only [State.send, State.heldOff, hm, hf, hc, h1, h2, h3, Bool.not_true, Bool.false_eq_true, if_false, if_true]
      · cases hv : victim k.level t.fs.queue <;>
          simp only [State.send, State.heldOff, hm, hf, hc, h1, h2, h3, hv, Bool.not_true, Bool.false_eq_true, if_false]
  · simp only [State.send, hm, hf, hc, h1, Bool.not_false, if_true]

@[simp] theorem reported_nil (s : State) : s.reported [] = s := rfl

@[simp] theorem reported_cons (s : State) (r : OutcomeRec) (l : List OutcomeRec) :
    s.reported (r :: l) = (s.reportOutcome r).reported l := rfl

@[simp] theorem ringAfter_nil (ring : List OutcomeRec) : ringAfter ring [] = ring := rfl

@[simp] theorem ringAfter_cons (ring : List OutcomeRec) (r : OutcomeRec) (l : List OutcomeRec) :
    ringAfter ring (r :: l) = ringAfter ((r :: ring).take 16) l := rfl

/-! ## Code words and groups (R40) -/

@[simp] theorem otherDisparity_twice (rd : Disparity) : otherDisparity (otherDisparity rd) = rd := by cases rd <;> rfl

@[simp] theorem codeWords_length (rd : Disparity) (l : List LineSymbol) : (codeWords rd l).length = l.length := by
  induction l generalizing rd with
  | nil => rfl
  | cons x xs ih => simp [codeWords, ih]

@[simp] theorem codeWords_symbols (rd : Disparity) (l : List LineSymbol) : (codeWords rd l).map (·.symbol) = l := by
  induction l generalizing rd with
  | nil => rfl
  | cons x xs ih => simp [codeWords, ih]

@[simp] theorem burstSymbols_length (frame : List Byte) : (burstSymbols frame).length = frame.length + 4 := by
  simp [burstSymbols]

@[simp] theorem readGroups_length (rd : Disparity) (l : List LineGroup) : (readGroups rd l).length = l.length := by
  induction l generalizing rd with
  | nil => rfl
  | cons g gs ih => simp [readGroups, ih]

/-- The running disparity after groups. -/
theorem readGroups_append (rd : Disparity) (l m : List LineGroup) :
    readGroups rd (l ++ m) = readGroups rd l ++ readGroups (l.foldl disparityAfter rd) m := by
  induction l generalizing rd with
  | nil => rfl
  | cons g gs ih => simp [readGroups, ih]

/-- A code word is read as its symbol exactly at its own disparity. -/
theorem groupSymbol_word (rd r : Disparity) (align : Fin 10) (x : LineSymbol) (b : Balance) :
    groupSymbol rd ⟨align, .word x r, b⟩ = if r = rd then some x else none := rfl

/-! ## Points (R19) -/

/-- A held-occupied section gives no drive permission. -/
theorem drivePermission_heldOccupied (s : State) (k : Nat) (h : s.heldOccupied k = true) : s.drivePermission k = false := by
  unfold State.heldOccupied at h
  unfold State.drivePermission State.sectClear
  cases hs : s.sectState k with
  | none => rfl
  | some st => cases st <;> simp_all

/-- With the drive permission the drive is turned on; without it the move in hand ends. -/
theorem turnDrive_cases (s : State) (p k : Nat) (r : PointRec) :
    s.turnDrive p k r = if s.drivePermission k = true then s.modPoint p (fun _ => r)
      else s.stopPoint p (if s.heldOccupied k = true then .occupied else .withdrawn) := by
  unfold State.turnDrive
  by_cases h : s.heldOccupied k = true
  · simp [h, drivePermission_heldOccupied s k h]
  · by_cases hp : s.drivePermission k = true <;> simp_all

/-! ## Claims (R94, R105) -/

/-- The change of a record in use is the change to one value. -/
theorem modClaim_const (s : State) (id : Nat) (c : Claim) (f : Claim → Claim) (h : s.claim? id = some c) :
    s.modClaim id f = s.modClaim id (fun _ => f c) := by
  have hl : s.ct.records.modify id (Option.map f) = s.ct.records.modify id (Option.map (fun _ => f c)) := by
    apply List.ext_getElem?
    intro j
    by_cases hj : id = j
    · subst hj
      simp only [List.getElem?_modify]
      unfold State.claim? at h
      cases hr : s.ct.records[id]? with
      | none => simp
      | some r =>
        cases r with
        | none => simp
        | some d => simp [hr] at h; simp [h]
    · simp [hj]
  unfold State.modClaim
  rw [hl]

/-- Permission-end notices for points join PU's list in their order. -/
theorem forEach_endPermission (l : List Nat) (s : State) : forEach l (fun p s => s.endPermission p) s
    = { s with pu := { s.pu with permEnds := s.pu.permEnds ++ l } } := by
  induction l generalizing s with
  | nil => simp [forEach]
  | cons x xs ih => rw [forEach, ih]; simp [State.endPermission]

/-- The permission-end notices of a record that leaves SETTING: the points of its locked steps, in step order. -/
theorem endPermissions_eq (s : State) (c : Claim) : s.endPermissions c = { s with pu := { s.pu with
    permEnds := s.pu.permEnds ++ (c.steps.filter (·.locked)).flatMap (fun st => s.containedPoints st.sect) } } := by
  unfold State.endPermissions
  generalize c.steps.filter (·.locked) = l
  induction l generalizing s with
  | nil => simp [forEach]
  | cons x xs ih => rw [forEach, ih, forEach_endPermission]; simp [State.containedPoints]

/-! ## Roads (R152, R154) -/

/-- An UNLINK changes the roads one by one, and nothing that ROAD-CHANGE does not reach. -/
@[simp] theorem unlinkArrival_roads (s : State) (id : Nat) : (s.unlinkArrival id).yu.roads = s.yu.roads.map (RoadRec.unlink id) := by
  simp [State.unlinkArrival]

/-- A link notice changes one road. -/
theorem linkArrival_yu (s : State) (r : Nat) (call : CallId) (key : RouteKey) (id : Nat) :
    (s.linkArrival r call key id).yu = { s.yu with roads := s.yu.roads.modify r (fun x =>
      { x with arrivals := x.arrivals.map (fun a => if a.isFor call key then { a with link := some id } else a) }) } := rfl

/-! ## The line (R54) -/

/-- A station starts exactly at the access step that is its candidate's rank. -/
theorem startSending_other_step (s : State) (c : Candidate) (step : Nat) (ha : s.li.access = .round (some c)) (h : step ≠ c.rank) :
    s.startSending step = s := by
  unfold State.startSending
  cases hr : s.receives <;> simp [ha, h]

end Sys2Proof.Laws
end

