-- ==== Sys2Proof/Laws/Ops.lean ====
section
/-! SUPPORT. What the shared operations of Machine/Ops.lean do: the lists, the timers and the time base, the byte order, and the
configuration memory, whose canonical form every write keeps. -/

namespace Sys2Proof.Laws

open Sys2Proof.Machine

/-! ## Lists -/

/-- The item taken is one that was asked for. -/
theorem takeFirst_accepts {α : Type} {p : α → Bool} {l rest : List α} {x : α} (h : takeFirst p l = some (x, rest)) : p x = true := by
  induction l generalizing x rest with
  | nil => simp [takeFirst] at h
  | cons y ys ih =>
    unfold takeFirst at h
    split at h
    · simp_all
    · split at h
      · rename_i z zs hz
        simp only [Option.some.injEq, Prod.mk.injEq] at h
        exact h.1 ▸ ih hz
      · simp at h

/-- The list was the item taken with the others around it: the ones before it are not asked for, and the order is kept. -/
theorem takeFirst_split {α : Type} {p : α → Bool} {l rest : List α} {x : α} (h : takeFirst p l = some (x, rest)) :
    ∃ front back, l = front ++ x :: back ∧ rest = front ++ back ∧ ∀ y ∈ front, p y = false := by
  induction l generalizing x rest with
  | nil => simp [takeFirst] at h
  | cons y ys ih =>
    unfold takeFirst at h
    split at h
    · simp only [Option.some.injEq, Prod.mk.injEq] at h
      exact ⟨[], ys, by simp [h.1], by simp [h.2], by simp⟩
    · rename_i hp
      split at h
      · rename_i z zs hz
        simp only [Option.some.injEq, Prod.mk.injEq] at h
        obtain ⟨front, back, h1, h2, h3⟩ := ih hz
        refine ⟨y :: front, back, ?_, ?_, ?_⟩
        · rw [← h.1, h1]; rfl
        · rw [← h.2, h2]; rfl
        · intro w hw
          rcases List.mem_cons.mp hw with rfl | hw
          · simpa using hp
          · exact h3 w hw
      · simp at h

/-- One item fewer waits after one is taken. -/
theorem takeFirst_length {α : Type} {p : α → Bool} {l rest : List α} {x : α} (h : takeFirst p l = some (x, rest)) :
    l.length = rest.length + 1 := by
  obtain ⟨front, back, h1, h2, -⟩ := takeFirst_split h
  simp only [h1, h2, List.length_append, List.length_cons]
  omega

/-- Nothing is taken exactly where nothing is asked for. -/
theorem takeFirst_none {α : Type} {p : α → Bool} {l : List α} : takeFirst p l = none ↔ ∀ x ∈ l, p x = false := by
  induction l with
  | nil => simp [takeFirst]
  | cons y ys ih =>
    unfold takeFirst
    split
    · simp_all
    · split <;> simp_all

/-- The index found is that of an item asked for, and no earlier one is. -/
theorem firstIndexFrom_spec {α : Type} {p : α → Bool} {l : List α} {k i : Nat} (h : firstIndexFrom p k l = some i) :
    k ≤ i ∧ (∃ x, l[i - k]? = some x ∧ p x = true) ∧ ∀ j, j < i - k → ∀ x, l[j]? = some x → p x = false := by
  induction l generalizing k with
  | nil => simp [firstIndexFrom] at h
  | cons y ys ih =>
    unfold firstIndexFrom at h
    split at h
    · rename_i hp
      simp only [Option.some.injEq] at h
      subst h
      exact ⟨Nat.le_refl _, ⟨y, by simp, hp⟩, by intro j hj; omega⟩
    · rename_i hp
      obtain ⟨h1, ⟨x, h2, h3⟩, h4⟩ := ih h
      have hik : i - k = (i - (k + 1)) + 1 := by omega
      refine ⟨by omega, ⟨x, by rw [hik]; simpa using h2, h3⟩, ?_⟩
      intro j hj w hw
      cases j with
      | zero => simp only [List.getElem?_cons_zero, Option.some.injEq] at hw; subst hw; simpa using hp
      | succ j => exact h4 j (by omega) w (by simpa using hw)

/-- The first item asked for, by its index. -/
theorem firstIndex_spec {α : Type} {p : α → Bool} {l : List α} {i : Nat} (h : firstIndex p l = some i) :
    (∃ x, l[i]? = some x ∧ p x = true) ∧ ∀ j, j < i → ∀ x, l[j]? = some x → p x = false := by
  have := firstIndexFrom_spec h
  simpa using this.2

/-- No index is found where, and only where, no item has the property. -/
theorem firstIndexFrom_eq_none_iff {α : Type} (p : α → Bool) (l : List α) (k : Nat) :
    firstIndexFrom p k l = none ↔ ∀ x ∈ l, p x = false := by
  induction l generalizing k with
  | nil => simp [firstIndexFrom]
  | cons y ys ih => unfold firstIndexFrom; split <;> simp_all

theorem firstIndex_eq_none_iff {α : Type} (p : α → Bool) (l : List α) :
    firstIndex p l = none ↔ ∀ x ∈ l, p x = false :=
  firstIndexFrom_eq_none_iff p l 0

/-- The index found is the lowest one whose item has the property. -/
theorem firstIndex_eq_some_iff {α : Type} (p : α → Bool) (l : List α) (i : Nat) :
    firstIndex p l = some i ↔
    (∃ x, l[i]? = some x ∧ p x = true) ∧ ∀ j x, j < i → l[j]? = some x → p x = false := by
  constructor
  · intro h; have := firstIndex_spec h; exact ⟨this.1, fun j x hj hx => this.2 j hj x hx⟩
  · rintro ⟨⟨x, hx, hp⟩, h⟩
    cases e : firstIndex p l with
    | none => have := (firstIndex_eq_none_iff p l).1 e x (List.mem_of_getElem? hx); simp_all
    | some k =>
      obtain ⟨⟨y, hy, hpy⟩, hk⟩ := firstIndex_spec e
      rcases Nat.lt_trichotomy i k with h1 | h1 | h1
      · have := hk i h1 x hx; simp_all
      · rw [h1]
      · have := h k y h1 hy; simp_all

/-! ## Time -/

/-- A timer that runs counts 1 ms and does not pass its limit; a stopped one stays stopped. -/
@[simp] theorem tickTimer_none : tickTimer none = none := rfl

@[simp] theorem tickTimer_some (t : Timer) : tickTimer (some t) = some ⟨min (t.elapsed + 1) t.limit, t.limit⟩ := rfl

/-- A timer that has reached its limit stays due until its expiry is taken. -/
theorem due_tickTimer {t : Option Timer} (h : due t = true) : due (tickTimer t) = true := by
  cases t with
  | none => simp [due] at h
  | some t => simp only [due, tickTimer, decide_eq_true_eq] at h ⊢; omega

/-- A timer just started is not due, unless its limit is 0. -/
theorem due_startTimer (limit : Nat) : due (startTimer limit) = decide (limit = 0) := by
  simp [due, startTimer]

@[simp] theorem since_self (t : Time) : since t t = 0 := by simp [since]

/-- The end of a time counted from a moment, seen from that moment on. -/
theorem since_after (t : Time) (ms : Nat) (h : ms < 4294967296) : since (after t ms) t = ms := by
  simp only [since, after]
  have : t + BitVec.ofNat 32 ms - t = BitVec.ofNat 32 ms := by
    apply BitVec.eq_of_toNat_eq
    simp only [BitVec.toNat_sub, BitVec.toNat_add, BitVec.toNat_ofNat]
    have := t.isLt
    omega
  rw [this, BitVec.toNat_ofNat]
  omega

/-! ## Bytes -/

@[simp] theorem byte_toNat (n : Nat) : (byte n).toNat = n % 256 := by simp [byte]

@[simp] theorem bytes2_length (n : Nat) : (bytes2 n).length = 2 := rfl
@[simp] theorem bytes3_length (n : Nat) : (bytes3 n).length = 3 := rfl
@[simp] theorem bytes4_length (n : Nat) : (bytes4 n).length = 4 := rfl

/-- A 2-byte field reads back. -/
theorem wordAt_bytes2 (n : Nat) (h : n < 65536) (rest : List Byte) : wordAt (bytes2 n ++ rest) 0 = n := by
  simp only [wordAt, byteAt, bytes2, List.cons_append, List.nil_append, List.getElem?_cons_zero, List.getElem?_cons_succ,
    byte_toNat]
  omega

/-- The check byte makes the sum of the bytes and itself FFh. -/
theorem byteSum_checkByte (l : List Byte) : byteSum l + checkByte l = 255 := by
  simp only [checkByte]
  apply BitVec.eq_of_toNat_eq
  simp only [BitVec.toNat_add, BitVec.toNat_sub]
  have := (byteSum l).isLt
  omega

/-! ## The configuration memory -/

/-- In a canonical memory whose first cell is at `k`, the cells behind it are canonical and stand above `k`. -/
theorem wf_tail {c : Host.Cell} {rest : List Host.Cell} (h : Memory.wf (c :: rest) = true) : Memory.wf rest = true := by
  obtain ⟨k, b⟩ := c
  cases rest with
  | nil => rfl
  | cons d ds => simp only [Memory.wf, Bool.and_eq_true] at h; exact h.2

theorem wf_head_value {k : Nat} {b : Byte} {rest : List Host.Cell} (h : Memory.wf ((k, b) :: rest) = true) :
    b ≠ Config.unwrittenByte := by
  cases rest with
  | nil => simp only [Memory.wf, Bool.and_eq_true, decide_eq_true_eq] at h; exact h.2
  | cons d ds => simp only [Memory.wf, Bool.and_eq_true, decide_eq_true_eq] at h; exact h.1.2

theorem wf_head_address {k : Nat} {b : Byte} {rest : List Host.Cell} (h : Memory.wf ((k, b) :: rest) = true) :
    k < Config.memoryBytes := by
  induction rest generalizing k b with
  | nil => simp only [Memory.wf, Bool.and_eq_true, decide_eq_true_eq] at h; exact h.1
  | cons d ds ih =>
    obtain ⟨k', b'⟩ := d
    have := ih (wf_tail h)
    simp only [Memory.wf, Bool.and_eq_true, decide_eq_true_eq] at h
    omega

theorem wf_above {k : Nat} {b : Byte} {rest : List Host.Cell} (h : Memory.wf ((k, b) :: rest) = true) :
    ∀ c ∈ rest, k < c.1 := by
  induction rest generalizing k b with
  | nil => simp
  | cons d ds ih =>
    obtain ⟨k', b'⟩ := d
    have hkk : k < k' := by simp only [Memory.wf, Bool.and_eq_true, decide_eq_true_eq] at h; exact h.1.1
    intro c hc
    rcases List.mem_cons.mp hc with rfl | hc
    · exact hkk
    · have := ih (wf_tail h) c hc; omega

/-- A cell may stand before a canonical memory that lies above it. -/
theorem wf_cons {k : Nat} {b : Byte} {rest : List Host.Cell} (hk : k < Config.memoryBytes) (hb : b ≠ Config.unwrittenByte)
    (hr : Memory.wf rest = true) (ha : ∀ c ∈ rest, k < c.1) : Memory.wf ((k, b) :: rest) = true := by
  cases rest with
  | nil => simp [Memory.wf, hk, hb]
  | cons d ds =>
    obtain ⟨k', b'⟩ := d
    have := ha (k', b') (by simp)
    simp only [Memory.wf, Bool.and_eq_true, decide_eq_true_eq]
    exact ⟨⟨this, hb⟩, hr⟩

/-- What a write lists is what was listed, or the address written. -/
theorem writeByte_addresses {m : List Host.Cell} {a : Nat} {b : Byte} : ∀ c ∈ writeByte m a b, c ∈ m ∨ c.1 = a := by
  induction m with
  | nil =>
    intro c hc
    unfold writeByte at hc
    split at hc <;> simp_all
  | cons d ds ih =>
    obtain ⟨k, v⟩ := d
    intro c hc
    unfold writeByte at hc
    split at hc
    · rcases List.mem_cons.mp hc with rfl | hc
      · simp
      · rcases ih c hc with h | h <;> simp [h]
    · dsimp only at hc
      by_cases hb : b = Config.unwrittenByte <;> by_cases hka : k = a <;>
        simp only [hb, hka, if_true, if_false, List.mem_cons] at hc ⊢ <;> (try rcases hc with rfl | hc) <;> simp_all

/-- A write of one byte inside the memory keeps the canonical form. -/
theorem writeByte_wf {m : List Host.Cell} {a : Nat} {b : Byte} (h : Memory.wf m = true) (ha : a < Config.memoryBytes) :
    Memory.wf (writeByte m a b) = true := by
  induction m with
  | nil =>
    unfold writeByte
    split
    · rfl
    · exact wf_cons ha (by assumption) rfl (by simp)
  | cons d ds ih =>
    obtain ⟨k, v⟩ := d
    have ht := wf_tail h
    have hab := wf_above h
    unfold writeByte
    split
    · rename_i hk
      refine wf_cons (wf_head_address h) (wf_head_value h) (ih ht) ?_
      intro c hc
      rcases writeByte_addresses c hc with hc | hc
      · exact hab c hc
      · omega
    · rename_i hk
      dsimp only
      by_cases hka : k = a
      · subst hka
        by_cases hb : b = Config.unwrittenByte
        · simpa only [if_true, if_pos hb] using ht
        · simpa only [if_true, if_neg hb] using wf_cons ha hb ht hab
      · by_cases hb : b = Config.unwrittenByte
        · simpa only [if_neg hka, if_pos hb] using h
        · simp only [if_neg hka, if_neg hb]
          refine wf_cons ha hb h ?_
          intro c hc
          rcases List.mem_cons.mp hc with rfl | hc
          · simp only; omega
          · have := hab c hc; omega

/-- A write of bytes inside the memory keeps the canonical form. -/
theorem writeBytes_wf {m : List Host.Cell} {a : Nat} {l : List Byte} (h : Memory.wf m = true) (ha : a + l.length ≤ Config.memoryBytes) :
    Memory.wf (writeBytes m a l) = true := by
  induction l generalizing m a with
  | nil => exact h
  | cons b bs ih =>
    simp only [List.length_cons] at ha
    exact ih (writeByte_wf h (by omega)) (by omega)

/-- A byte that no cell lists reads as an unwritten one. -/
theorem readByte_above {m : List Host.Cell} {a : Nat} (h : ∀ c ∈ m, a < c.1) : readByte m a = Config.unwrittenByte := by
  induction m with
  | nil => rfl
  | cons d ds ih =>
    obtain ⟨k, v⟩ := d
    have hk : a < k := h (k, v) (by simp)
    unfold readByte
    rw [if_neg (by omega)]
    exact ih (fun c hc => h c (by simp [hc]))

/-- After a write, its address reads the byte written, and every other address reads as before. -/
theorem readByte_writeByte {m : List Host.Cell} {a x : Nat} {b : Byte} (h : Memory.wf m = true) :
    readByte (writeByte m a b) x = if x = a then b else readByte m x := by
  induction m with
  | nil =>
    unfold writeByte
    split
    · rename_i hb; simp only [readByte]; split <;> simp [hb]
    · simp only [readByte]
      by_cases hx : x = a
      · subst hx; simp
      · rw [if_neg (fun h => hx h.symm), if_neg hx]
  | cons d ds ih =>
    obtain ⟨k, v⟩ := d
    have ht := wf_tail h
    have hab := wf_above h
    unfold writeByte
    split
    · rename_i hk
      simp only [readByte, ih ht]
      by_cases hx : x = a
      · subst hx; simp only [if_true]; rw [if_neg (by omega)]
      · simp only [if_neg hx]
    · rename_i hk
      dsimp only
      by_cases hka : k = a
      · subst hka
        simp only [if_true]
        have hr : readByte ds k = Config.unwrittenByte := readByte_above hab
        by_cases hb : b = Config.unwrittenByte
        · simp only [if_pos hb, readByte]
          by_cases hx : x = k
          · subst hx; simp [hr, hb]
          · rw [if_neg hx, if_neg (fun h => hx h.symm)]
        · simp only [if_neg hb, readByte]
          by_cases hx : x = k
          · subst hx; simp
          · have hx' : ¬ k = x := fun h => hx h.symm
            simp only [if_neg hx, if_neg hx']
      · simp only [if_neg hka]
        have hr : readByte ((k, v) :: ds) a = Config.unwrittenByte := by
          apply readByte_above
          intro c hc
          rcases List.mem_cons.mp hc with rfl | hc
          · simp only; omega
          · have := hab c hc; omega
        by_cases hb : b = Config.unwrittenByte
        · simp only [if_pos hb]
          by_cases hx : x = a
          · subst hx; simp [hr, hb]
          · rw [if_neg hx]
        · simp only [if_neg hb]
          by_cases hx : x = a
          · subst hx; simp [readByte]
          · rw [readByte, if_neg (fun h => hx h.symm), if_neg hx]

/-- After a write of bytes, every address outside them reads as before, and each of them reads the byte written. -/
theorem readByte_writeBytes {m : List Host.Cell} {a x : Nat} {l : List Byte} (h : Memory.wf m = true)
    (ha : a + l.length ≤ Config.memoryBytes) :
    readByte (writeBytes m a l) x = match (if a ≤ x then l[x - a]? else none) with
      | some b => b
      | none => readByte m x := by
  induction l generalizing m a with
  | nil => simp [writeBytes]
  | cons b bs ih =>
    simp only [List.length_cons] at ha
    rw [writeBytes, ih (writeByte_wf h (by omega)) (by omega), readByte_writeByte h]
    by_cases hx : x = a
    · subst hx
      simp
    · by_cases hlt : a ≤ x
      · have h1 : a + 1 ≤ x := by omega
        have h2 : x - a = (x - (a + 1)) + 1 := by omega
        simp only [if_pos h1, if_pos hlt, h2, List.getElem?_cons_succ, if_neg hx]
      · simp only [if_neg hlt, if_neg (show ¬ a + 1 ≤ x by omega), if_neg hx]

/-- The memory after reset lists nothing, which is canonical. -/
theorem reset_memory_wf : Memory.wf State.reset.mi.mem = true := by decide

end Sys2Proof.Laws
end

