-- ==== Sys2Proof/Laws/Image.lean ====
section
/-! SUPPORT. Lemmas about the image (R173, R174, R181, R182): the number of items that are read, what the structural checks say, and what
the clamp list names. -/

namespace Sys2Proof.Laws

open Sys2Proof.Machine

/-! ## Reading -/

@[simp] theorem readList_length {α : Type} (rd : List Byte → Nat → α) (size : Nat) (l : List Byte) (o n : Nat) :
    (readList rd size l o n).length = n := by
  induction n generalizing o with
  | zero => rfl
  | succ n ih => simp [readList, ih]

@[simp] theorem readRoutes_length (l : List Byte) (o n : Nat) : (readRoutes l o n).1.length = n := by
  induction n generalizing o with
  | zero => rfl
  | succ n ih => simp [readRoutes, ih]

/-! ## The structural checks -/

theorem hasTwice_eq_false_iff (l : List Nat) : hasTwice l = false ↔ l.Nodup := by
  induction l with
  | nil => simp [hasTwice]
  | cons x xs ih => simp [hasTwice, ih]

theorem stepsDistinct_iff (l : List RouteStep) : stepsDistinct l = true ↔ (l.map (fun st => (st.owner, st.sect))).Nodup := by
  induction l with
  | nil => simp [stepsDistinct]
  | cons x xs ih => simp [stepsDistinct, ih]

theorem destsDistinct_iff (l : List RawRoute) :
    destsDistinct l = true ↔ l.Pairwise (fun a b => a.signal = b.signal → a.dest ≠ b.dest) := by
  induction l with
  | nil => simp [destsDistinct]
  | cons x xs ih =>
    simp [destsDistinct, ih]
    intro _
    constructor
    · intro h a ha e hd; exact h a ha e.symm hd.symm
    · intro h a ha e hd; exact h a ha e.symm hd.symm

theorem allIdx_iff {α : Type} (l : List α) (p : Nat → α → Bool) : allIdx l p = true ↔ ∀ k x, l[k]? = some x → p k x = true := by
  unfold allIdx
  simp only [List.all_eq_true, List.mem_range]
  constructor
  · intro h k x hx
    have := h k (List.getElem?_eq_some_iff.1 hx).1
    simpa [hx] using this
  · intro h k hk
    cases e : l[k]? with
    | none => rfl
    | some x => exact h k x e

/-- The checks of one route say that it is sound. -/
theorem routeChecks_iff (m : RawImage) (node : Nat) (r : RawRoute) :
    (routeEntryOk m r && routeStepsOk node r && localStepsOk m node r && mouthFlagOk r && routeDestOk r) = true ↔ r.sound m node := by
  have h1 : routeEntryOk m r = true ↔ (∃ g d, m.signals[r.signal]? = some g ∧ r.dir = some d ∧ g.has d = true) := by
    unfold routeEntryOk
    cases m.signals[r.signal]? <;> cases r.dir <;> simp
  have h2 : routeStepsOk node r = true ↔ (r.steps.length ≤ 12 ∧ (∃ st rest, r.steps = st :: rest ∧ st.owner = node)
    ∧ (r.steps.map (fun st => (st.owner, st.sect))).Nodup ∧ (∀ st ∈ r.steps, st.sect < 16)) := by
    unfold routeStepsOk
    simp only [Bool.and_eq_true, stepsDistinct_iff, decide_eq_true_eq, List.all_eq_true]
    cases e : r.steps <;> simp
    grind
  have h3 : localStepsOk m node r = true ↔ (∀ st ∈ r.steps, st.owner = node → ∃ c, m.sects[st.sect]? = some c
        ∧ (c.role = .route ∨ c.role = .roadMouth)
        ∧ (∀ d ∈ st.demands, d.point ∈ c.points) ∧ (st.demands.map (·.point)).Nodup) := by
    unfold localStepsOk
    simp only [List.all_eq_true]
    apply forall_congr'; intro st; apply forall_congr'; intro _
    cases e : m.sects[st.sect]? <;> simp [← hasTwice_eq_false_iff]
    grind
  have h4 : mouthFlagOk r = true ↔ ((∀ st ∈ r.steps.dropLast, st.mouth = false)
      ∧ (r.cls ≠ some .runIn → ∀ st ∈ r.steps, st.mouth = false)) := by
    unfold mouthFlagOk
    by_cases h : r.cls = some .runIn <;> simp [h]
  have h5 : routeDestOk r = true ↔ ((r.cls = some .runIn ∧ ∃ n k, r.dest = some (.road n k))
        ∨ (r.cls = some .runOut ∧ r.dest = some .line)
        ∨ (r.cls = some .shunt ∧ ∃ k, r.dest = some (.code k) ∧ 1 ≤ k ∧ k ≤ 15)) := by
    unfold routeDestOk
    rcases r.cls with _ | c <;> rcases r.dest with _ | d <;> (try cases c) <;> (try cases d) <;> simp
  simp only [Bool.and_eq_true, h1, h2, h3, h4, h5, RawRoute.sound, and_assoc]

/-- The structural checks say that an image with the counts of its header is sound. -/
theorem structureOk_iff (h : List Byte) (node : Nat) (m : RawImage) (e3 : m.sects.length = byteAt h 3)
    (e4 : m.points.length = byteAt h 4) (e5 : m.signals.length = byteAt h 5) (e6 : m.reqPoints.length = byteAt h 6)
    (e7 : m.roads.length = byteAt h 7) (e8 : m.routes.length = byteAt h 8) :
    structureOk h node m = true ↔ m.sound node := by
  unfold structureOk RawImage.sound
  simp only [Bool.and_eq_true, destsDistinct_iff]
  have a1 : countsOk h = true ↔ (1 ≤ m.sects.length ∧ m.sects.length ≤ 16 ∧ m.points.length ≤ 8 ∧ m.signals.length ≤ 8
      ∧ m.reqPoints.length ≤ 8 ∧ m.roads.length ≤ 4 ∧ m.routes.length ≤ 24) := by
    rw [e3, e4, e5, e6, e7, e8]; simp [countsOk, and_assoc]
  have a2 : sectsOk m = true ↔ ((∀ c ∈ m.sects, ∀ p ∈ c.points, p < m.points.length) ∧ (m.sects.flatMap (·.points)).Nodup) := by
    unfold sectsOk; simp only [Bool.and_eq_true, Bool.not_eq_true', hasTwice_eq_false_iff]; simp
  have a3 : pointsOk m = true ↔
      (∀ (k : Nat) (p : PointCfg), m.points[k]? = some p → ∃ c, m.sects[p.sect]? = some c ∧ k ∈ c.points) := by
    unfold pointsOk; rw [allIdx_iff]; simp [Option.any_eq_true]
  have a4 : signalsOk m = true ↔ (∀ (k : Nat) (g : SignalCfg), m.signals[k]? = some g →
        (g.left = true ∨ g.straight = true ∨ g.right = true)
        ∧ (∀ a, g.approach = some a → a < m.sects.length) ∧ (∀ p, g.reqPoint = some p → m.reqPoints[p]? = some k)) := by
    unfold signalsOk; rw [allIdx_iff]
    apply forall_congr'; intro k; apply forall_congr'; intro g; apply forall_congr'; intro _
    cases g.approach <;> cases g.reqPoint <;> simp [or_assoc, and_assoc]
  have a5 : reqPointsOk m = true ↔
      (∀ k g : Nat, m.reqPoints[k]? = some g → ∃ c, m.signals[g]? = some c ∧ c.reqPoint = some k) := by
    unfold reqPointsOk; rw [allIdx_iff]; simp [Option.any_eq_true]
  have a6 : roadsOk m = true ↔ ((∀ r ∈ m.roads,
        (∃ c, m.sects[r.mouth]? = some c ∧ c.role = .roadMouth)
        ∧ (∃ c, m.sects[r.body]? = some c ∧ c.role = .roadBody) ∧ r.runOut < m.signals.length)
      ∧ (m.roads.map (·.mouth)).Nodup ∧ (m.roads.map (·.body)).Nodup ∧ (m.roads.map (·.runOut)).Nodup) := by
    unfold roadsOk
    simp only [Bool.and_eq_true, Bool.not_eq_true', hasTwice_eq_false_iff]
    simp [and_assoc, Option.any_eq_true]
  have a7 : m.routes.all (fun r => routeEntryOk m r && routeStepsOk node r && localStepsOk m node r && mouthFlagOk r
        && routeDestOk r) = true ↔ ∀ r ∈ m.routes, r.sound m node := by
    rw [List.all_eq_true]
    apply forall_congr'; intro r; apply forall_congr'; intro _
    exact routeChecks_iff m node r
  rw [a1, a2, a3, a4, a5, a6, a7]; simp only [and_assoc]

/-! ## The clamp list -/

/-- A clamp note is there for each item whose value lies outside the range, and for no other. -/
theorem mem_clampNotes_iff {α : Type} (kind lo hi : Nat) (get : α → Nat) (l : List α) :
    ∀ (k : Nat) (c : Clamp), c ∈ clampNotes kind lo hi get k l ↔
    c.read ≠ c.used ∧ ∃ j x, l[j]? = some x ∧ c.index = k + j ∧ c.kind = kind ∧ c.read = get x ∧ c.used = clampTo lo hi (get x) := by
  induction l with
  | nil => intro k c; simp [clampNotes]
  | cons x xs ih =>
    intro k c
    have tail : (∃ j y, (x :: xs)[j]? = some y ∧ c.index = k + j ∧ c.kind = kind ∧ c.read = get y
        ∧ c.used = clampTo lo hi (get y)) ↔
      ((c.index = k ∧ c.kind = kind ∧ c.read = get x ∧ c.used = clampTo lo hi (get x)) 
        ∨ ∃ j y, xs[j]? = some y ∧ c.index = k + 1 + j ∧ c.kind = kind ∧ c.read = get y
          ∧ c.used = clampTo lo hi (get y)) := by
      constructor
      · rintro ⟨j, y, h1, h2⟩
        cases j with
        | zero => simp at h1; subst h1; left; simpa using h2
        | succ j => right; exact ⟨j, y, by simpa using h1, by omega, h2.2⟩
      · rintro (h | ⟨j, y, h1, h2⟩)
        · exact ⟨0, x, by simp, by simpa using h⟩
        · exact ⟨j + 1, y, by simpa using h1, by omega, h2.2⟩
    rw [tail]
    unfold clampNotes
    dsimp only
    split
    · rename_i e
      rw [ih]
      constructor
      · rintro ⟨a, b⟩; exact ⟨a, Or.inr b⟩
      · rintro ⟨a, b | b⟩
        · exfalso; apply a; rw [b.2.2.1, b.2.2.2, e]
        · exact ⟨a, b⟩
    · rename_i e
      rw [List.mem_cons, ih]
      constructor
      · rintro (h | ⟨a, b⟩)
        · subst h; exact ⟨fun h => e h.symm, Or.inl ⟨rfl, rfl, rfl, rfl⟩⟩
        · exact ⟨a, Or.inr b⟩
      · rintro ⟨a, b | b⟩
        · left; cases c; simp_all
        · exact Or.inr ⟨a, b⟩

end Sys2Proof.Laws
end

