-- ==== Sys2Proof/WellFormed.lean ====
section
/-! DEFINITION. Which commands are well formed: an operand that names an element lies in the index range of 00_scope.md
section 1 and of the chapters; the strap value has six bits; a list of groups carries no delimiter but the one its row stands for; an access step has
eight bits. -/

namespace Sys2Proof

/-- A data symbol or no code word: what stands between the delimiters of a frame (R43). -/
def LineGroup.inBody (g : LineGroup) : Bool :=
  match g.code with
  | .word (.data _) _ | .invalid => true
  | .word .comma _ | .word .startDelim _ | .word .endDelim _ => false

/-- A code word of the end delimiter. -/
def LineGroup.endsFrame (g : LineGroup) : Bool :=
  match g.code with
  | .word .endDelim _ => true
  | _ => false

/-- Well-formedness of a command. -/
def Instr.wellFormed : Instr → Bool
  | .resetRelease straps => straps < 64
  | .roadRestore acked => acked.length == 4
  | .puSectionChange k | .ctSectionChange k | .reSectionChange k | .yuSectionChange k => k < 16
  | .travelTimerExpiry p | .permissionEnd p | .moveDone p | .moveFail p | .detectionLost p => p < 8
  | .proceedCommand g | .stopCommand g | .clearingTimerExpiry g | .trialTimerExpiry g
  | .proved g | .clearFail g | .lampFault g => g < 8
  | .oversizeDiscard l => l.all LineGroup.inBody
  | .frameReceived l => l.dropLast.all LineGroup.inBody && l.getLast?.any LineGroup.endsFrame
  | .lineAccess step => step < 256
  | .lossOfSync _ _ | .lineQualityWindow _ => true
  | .holdOffTimerExpiry k | .peerSilent k | .peerLost k
  | .ctUnusable k | .ctUsable k | .ctEpochChange k
  | .reUnusable k | .reUsable k | .reEpochChange k
  | .yuUnusable k | .yuUsable k | .yuEpochChange k => k < 63
  | .telegramGapTimeout p | .inRequest p | .outRequest p | .roadRequest p | .destRequest p
  | .cancel p | .unknownCodeTelegram p | .refusalHoldExpiry p | .readerInputByte p _ _ => p < 8
  | .slotLifetimeExpiry i => i < 16
  | .reservedTimerExpiry c | .setTimerExpiry c => c < 32
  | .orphanClearExpiry c i => c < 32 && i < 12
  | .offerExpiry r => r < 4
  | .holdTimerExpiry r j => r < 4 && j < 4
  | .cancelInstance i | .bidTimerExpiry i | .roadWaitExpiry i | .awardWaitExpiry i | .claimWindowExpiry i
  | .setWindowExpiry i | .approachTimerExpiry i | .releaseDelayExpiry i | .runThroughExpiry i
  | .retryTimerExpiry i => i < 8
  | .powerOnReset | .pinReset | .imageReadDone _ | .epochWriteDone _ | .windowEnd _ | .pointWindowEvaluation
  | .signalWindowEvaluation | .startDelimiter _ _ _ | .ownSourceFrame | .transmissionEnd
  | .accessRoundTimeout | .poolLowTimerExpiry | .holdOff | .announce | .state | .listenTimer | .stateTimer
  | .ctIsolation | .reIsolation | .rqIsolation | .yuIsolation | .outcome | .claim _ | .set _ | .release _
  | .grant _ | .deny _ | .setDone _ | .setFail _ | .claimLost _ | .passed _ | .bidCall _ | .bid _ | .award _
  | .awardWithdraw _ | .roadChange _ | .roadWriteDone | .roadWriteFail | .inspect | .inspectReply | .event
  | .commaReceived _ _ _ | .firstIdlePoint => true

end Sys2Proof
end

