-- ==== Sys2Proof/Tests/Slice0.lean ====
section
/-! SUPPORT. Tests: well-formedness, the checks and scores that the spec works out, some single steps, and for each statement with
hypotheses a state and operands that meet them. -/

namespace Sys2Proof.Tests

open Sys2Proof.Machine

/-! ## A small running node -/

/-- A yard of four sections, one point, one signal, one request point, one road and two routes. -/
def yard : Yard where
  sects := [⟨false, .route, [0]⟩, ⟨false, .roadMouth, []⟩, ⟨false, .roadBody, []⟩, ⟨true, .approach, []⟩]
  points := [⟨0, 3⟩]
  signals := [⟨true, true, false, some 3, some 0⟩]
  reqPoints := [0]
  roads := [⟨1, 2, 2, 1, 0⟩]
  routes :=
    [{ signal := 0, cls := .runIn, dest := .road 1 0, dir := .straight, approach := 30, delay := 10
       steps := [⟨1, 0, false, [⟨0, .normal⟩]⟩, ⟨1, 1, true, []⟩] },
     { signal := 0, cls := .runOut, dest := .line, dir := .left, approach := 30, delay := 10
       steps := [⟨1, 0, false, [⟨0, .reverse⟩]⟩, ⟨5, 4, false, []⟩] }]

/-- The receive record of a frame from node 5, which is usable under epoch 9. -/
def rx5 : RxRec := ⟨0, 5, 9, .other .inStep false, true⟩

/-- The peer record of node 5. -/
def peer5 : PeerRec := ⟨.inStep, some 9, some 0, some .running, some .powerOn, some 0, 0, false, false, 0, 0⟩

/-- Node 1 under epoch 7 in RUNNING with this yard: every section CLEAR, tram 2207 on the road, node 5 usable. -/
def base : State :=
  { State.reset with
    windowMs := 20, oldWindows := 0, field := ⟨[.off], [some .stop]⟩, yard := yard
    pt := { State.reset.pt with mode := .running, node := 1, epoch := 7, stateMs := some 250
                                peers := State.reset.pt.peers.set 5 peer5 }
    du := { State.reset.du with sects := List.replicate 4 ⟨.clear, 0, 0⟩ }
    pu := { State.reset.pu with points := [PointRec.rest .detN] }
    su := { State.reset.su with signals := [SignalRec.atStop] }
    ct := { State.reset.ct with locks := List.replicate 4 none }
    yu := { State.reset.yu with roads := [⟨.known, [⟨2207, 1, 40⟩], [], none⟩] }
    mi := { State.reset.mi with startup := .ended, desc := yard } }

/-- The node in another mode. -/
def inMode (m : Mode) : State := { base with pt := { base.pt with mode := m } }

/-- A frame waits in its inbox. -/
def withFrame (k : Kind) (payload : List Byte) : State :=
  { base with fs := { base.fs with free := 31, inbox := [⟨k, rx5, payload⟩], active := [k] } }

/-- The frame that the handler would deliver as kind `k`. -/
def delivered (s : State) (k : Kind) : Option RxFrame := (s.fs.takeFrame k).map (·.1)

/-- A route key of node 5. -/
def key5 : RouteKey := ⟨5, 9, 0, 1, 0⟩

/-- A step of a claim on section `k`, locked. -/
def step' (n k : Nat) (seen : Bool) : ClaimStep := ⟨n, k, [], n == 1, false, true, seen, none, []⟩

/-- A claim of node 5 on sections 0 and 1. -/
def claim5 (st : ClaimState) : Claim where
  state := st
  key := key5
  cls := .shunt
  tram := 2207
  approach := 30
  steps := [step' 1 0 true, step' 2 1 true]
  award := none
  prev := none
  orders := []
  setFail := false
  lost := false
  lostPoint := none
  lostSent := false
  releaseMark := false
  orphanPending := false
  reservedT := none
  setT := none

/-- The node with a claim in record 0. -/
def withClaim (c : Claim) : State :=
  { base with ct := { base.ct with records := base.ct.records.set 0 (some c), free := (List.range 31).map (· + 1)
                                   locks := [some 0, some 0, none, none] } }

/-- What the request slot of the instance holds. -/
def slot : SlotData := ⟨1, 2207, 1, 40, .inbound, none, none, 0, 0, none, 0, 0⟩

/-- An instance of route 0 in a state, its owner asked. -/
def inst (st : ReState) : Inst :=
  { Inst.new 0 slot with state := st, route := some 0, attempt := some 0, passed := [false, false]
                         owners := [⟨1, true, .none, none, false, none, false, false⟩] }

/-- The node with an instance in use. -/
def withInst (x : Inst) : State :=
  { base with re := { base.re with insts := base.re.insts.set 0 (some x) }
              rq := { base.rq with slots := base.rq.slots.set 0 (.active slot 0 none) } }

/-- A section notice. -/
def notice (k : Nat) (a b : SectState) : SectNotice := ⟨k, a, b, 0⟩

/-! ## Well-formedness: an ill-formed command for each check -/

theorem test_ill_formed_straps : (Instr.resetRelease 64).wellFormed = false := by decide
theorem test_ill_formed_restore : (Instr.roadRestore [true]).wellFormed = false := by decide
theorem test_ill_formed_sections : [Instr.puSectionChange 16, .ctSectionChange 16, .reSectionChange 16, .yuSectionChange 16].all
    (fun c => !c.wellFormed) = true := by decide
theorem test_ill_formed_points : [Instr.travelTimerExpiry 8, .permissionEnd 8, .moveDone 8, .moveFail 8, .detectionLost 8].all
    (fun c => !c.wellFormed) = true := by decide
theorem test_ill_formed_signals : [Instr.proceedCommand 8, .stopCommand 8, .clearingTimerExpiry 8, .trialTimerExpiry 8, .proved 8,
    .clearFail 8, .lampFault 8].all (fun c => !c.wellFormed) = true := by decide
/-- A group with a code word, at alignment 0. -/
def group (x : LineSymbol) (rd : Disparity) : LineGroup := ⟨0, .word x rd, .even⟩

/-- A group that is no code word. -/
def noWord : LineGroup := ⟨0, .invalid, .even⟩

theorem test_ill_formed_groups : [Instr.frameReceived [], .frameReceived [group (.data 0) .negative],
    .frameReceived [group .comma .negative, group .endDelim .negative], .oversizeDiscard [group .startDelim .positive]].all
    (fun c => !c.wellFormed) = true := by decide
theorem test_ill_formed_access_step : (Instr.lineAccess 256).wellFormed = false := by decide
theorem test_ill_formed_peers : [Instr.holdOffTimerExpiry 63, .peerSilent 63, .peerLost 63, .ctUnusable 63, .ctUsable 63,
    .ctEpochChange 63, .reUnusable 63, .reUsable 63, .reEpochChange 63, .yuUnusable 63, .yuUsable 63, .yuEpochChange 63].all
    (fun c => !c.wellFormed) = true := by decide
theorem test_ill_formed_request_points : [Instr.telegramGapTimeout 8, .inRequest 8, .outRequest 8, .roadRequest 8, .destRequest 8,
    .cancel 8, .unknownCodeTelegram 8, .refusalHoldExpiry 8, .readerInputByte 8 0 true].all (fun c => !c.wellFormed) = true := by decide
theorem test_ill_formed_slot : (Instr.slotLifetimeExpiry 16).wellFormed = false := by decide
theorem test_ill_formed_claims : [Instr.reservedTimerExpiry 32, .setTimerExpiry 32, .orphanClearExpiry 32 0,
    .orphanClearExpiry 0 12].all (fun c => !c.wellFormed) = true := by decide
theorem test_ill_formed_roads : [Instr.offerExpiry 4, .holdTimerExpiry 4 0, .holdTimerExpiry 0 4].all
    (fun c => !c.wellFormed) = true := by decide
theorem test_ill_formed_instances : [Instr.cancelInstance 8, .bidTimerExpiry 8, .roadWaitExpiry 8, .awardWaitExpiry 8,
    .claimWindowExpiry 8, .setWindowExpiry 8, .approachTimerExpiry 8, .releaseDelayExpiry 8, .runThroughExpiry 8,
    .retryTimerExpiry 8].all (fun c => !c.wellFormed) = true := by decide
theorem test_well_formed_boundaries : [Instr.resetRelease 63, .roadRestore [true, true, true, true], .puSectionChange 15,
    .travelTimerExpiry 7, .proved 7, .frameReceived [group (.data 0) .negative, noWord, group .endDelim .positive],
    .lineAccess 255, .peerLost 62, .cancel 7, .slotLifetimeExpiry 15,
    .orphanClearExpiry 31 11, .holdTimerExpiry 3 3, .retryTimerExpiry 7].all (fun c => c.wellFormed) = true := by decide

/-! ## Checks and scores that the spec works out -/

/-- The text "123456789". -/
def digits : List Byte := [0x31, 0x32, 0x33, 0x34, 0x35, 0x36, 0x37, 0x38, 0x39]

theorem test_crc16_of_digits : crc16 digits = 0x29B1 := by decide +kernel
theorem test_crc32_of_digits : crc32 digits = 0xCBF43926 := by decide +kernel
theorem test_check_byte_of_blank_memory_fails :
    checkByte (List.replicate 34 0) ≠ 0 ∧ checkByte (List.replicate 34 255) ≠ 255 := by decide
theorem test_retry_delays : retryDelay .shunt 3 9 = 1245 ∧ retryDelay .shunt 9 9 = 3245 ∧ retryDelay .runIn 1 0 = 100
    ∧ retryDelay .shunt 255 62 = 3510 := by decide

/-! ## Single steps -/

/-- The state that a step answers. -/
def after' (s : State) : Option State :=
  match step s with
  | .next t => some t
  | _ => none

theorem test_reset_idles : after' State.reset = some State.reset := by decide
theorem test_release_starts : ((after' { State.reset with pending := [.resetRelease 5] }).map
    (fun t => (t.pt.node, t.mi.startup, t.pending))) = some (5, .image, []) := by decide
theorem test_straps_63_fault : ((after' { State.reset with pending := [.resetRelease 63] }).map (·.pt.mode)) = some .configFault := by
  decide
theorem test_blank_image_faults :
    ((after' { State.reset with pending := [.imageReadDone true], mi := { State.reset.mi with startup := .image } }).map
      (·.pt.mode)) = some .configFault := by decide
theorem test_pin_reset_keeps_counters : ((after' { base with pending := [.pinReset], du := ⟨[], List.replicate 16 4⟩ }).map
    (fun t => (t.du.disturb, t.pt.cause, t.mi.startup))) = some (List.replicate 16 4, .pin, .held) := by decide
theorem test_tick_advances : ((after' base).map (fun t => (t.time, t.windowMs))) = some (1, 21) := by decide
theorem test_window_detects_a_tram :
    ((after' { base with pending := [.windowEnd ⟨0xFFFE, 0xFFFE, 1, 0, 1, 0, 0, 0⟩] }).map
      (fun t => (t.du.sects.map (·.state), t.ct.notices))) = some ([.occupied, .clear, .clear, .clear], [notice 0 .clear .occupied]) := by
  decide
theorem test_state_timer_queues_a_frame : ((after' { base with pending := [.stateTimer] }).map
    (fun t => t.fs.queue.map (fun f => (f.kind, f.dest, f.payload.length)))) = some [(.state, 63, 36)] := by decide
theorem test_no_word_is_a_command : decodeTableWord 16 0 = none ∧ (base.withFetchWord 16 0).pending = [] := by decide

/-- A road with trams in the given run-out slots, one place each, buffer-stop end first. -/
def roadOf (slots : List Nat) : RoadRec := ⟨.known, slots.map (fun z => ⟨1, 1, z⟩), [], none⟩

theorem test_worked_scores :
    (roadOf [40, 31, 22]).score ⟨0, 0, 6, 0, 0⟩ ⟨3104, 1, 17⟩ = 9
    ∧ (roadOf [12]).score ⟨0, 0, 4, 2, 0⟩ ⟨3104, 1, 17⟩ = 585
    ∧ (roadOf []).score ⟨0, 0, 8, 1, 0⟩ ⟨3104, 1, 17⟩ = 302
    ∧ (roadOf [0, 1, 2, 3, 4, 5, 6]).score ⟨0, 0, 8, 15, 0⟩ ⟨3104, 1, 200⟩ = 4095 := by decide

/-! ## Witnesses: the hypotheses of each statement are met -/

/-- IdleStepIsOneMillisecond: an empty queue, with RESET held and released. -/
theorem witness_idle : (State.reset.pending = [] ∧ State.reset.mi.startup = .held) ∧ (base.pending = [] ∧ base.mi.startup ≠ .held) := by
  decide

theorem witness_steps : (∃ t, step base = .next t) ∧ (∃ t, step { base with pending := [.stateTimer] } = .next t) :=
  ⟨⟨_, rfl⟩, ⟨_, rfl⟩⟩

/-- StepKeepsMemoryForm, RoadWritesEnd and ResetsClearTheState: a road write in hand, at the last road. -/
def writingState : State :=
  { base with mi := { base.mi with writing := some (3, List.replicate 35 0) }, yu := { base.yu with queue := [0] } }

theorem witness_memory : MemoryInv writingState ∧ writingState.mi.writing = some (3, List.replicate 35 0)
    ∧ writingState.mi.startup ≠ .epoch ∧ base.mi.writing = none ∧ writingState.yu.queue = [0] ∧ writingState.yu.roads[0]?.isSome := by
  refine ⟨⟨by decide, by decide, by decide, by decide, ?_⟩, by decide, by decide, by decide, by decide, by decide⟩
  rintro r l h
  simp only [writingState, Option.some.injEq, Prod.mk.injEq] at h
  obtain ⟨rfl, rfl⟩ := h
  decide

/-- StepKeepsFrameStoreLaws: a frame in an inbox. -/
theorem witness_frame_store : PoolInv (withFrame .inspect [1, 0, 0]) ∧ ActiveInv (withFrame .inspect [1, 0, 0]) := by
  refine ⟨⟨by decide, by decide, by decide⟩, by decide, fun k => ?_⟩
  cases k <;> decide

/-- StepKeepsTransmitQueueLaw: two frames of one level, one of them deferred. -/
def queueState : State :=
  { base with fs := { base.fs with
    queue := [⟨.state, 63, [], 4, false⟩, ⟨.bid, 5, [], 2, true⟩, ⟨.bid, 6, [], 3, false⟩], nextAge := 5
    holdOff := base.fs.holdOff.set 5 (some 40) } }

theorem witness_queue : QueueInv queueState := by
  refine ⟨by decide, ?_, by decide, by decide, by decide, by decide⟩
  simp [queueState, TxFrame.before, Kind.level]

theorem witness_claims : ClaimInv base := by
  have hn : ∀ id, base.claim? id = none := by
    intro id
    simp only [State.claim?, base, State.reset, CT.reset, List.getElem?_replicate]
    split <;> simp_all
  have hl : ∀ k, base.lock? k = none := by
    intro k
    simp only [State.lock?, base, List.getElem?_replicate]
    split <;> simp_all
  refine ⟨by decide, by decide, by decide, fun id => ?_, fun k id => ?_, fun id c h => ?_, fun h => absurd rfl h⟩
  · simp only [base, State.reset, CT.reset, List.mem_range, List.getElem?_replicate]
    split <;> simp_all
  · simp [hn, hl]
  · simp [hn] at h

theorem witness_sections : (SectState.clear ≠ .disturbed ∧ SectState.occupied ≠ .disturbed) ∧ (1 + 1 < 3 ∧ ¬ 2 + 1 < 3)
    ∧ (3 + 1 < 5 ∧ ¬ 4 + 1 < 5) := by decide

/-- WindowEndTable: a window that evaluates at exactly 20 ms, a configured and an unconfigured section, and the windows that do not. -/
theorem witness_window_end :
    (base.mi.startup ≠ .held ∧ 20 ≤ base.windowMs ∧ base.pt.mode.active = true ∧ base.oldWindows = 0
      ∧ base.yard.sects[3]?.isSome ∧ base.du.sects[3]?.isSome ∧ base.yard.sects[4]? = none)
    ∧ (State.reset.mi.startup = .held ∧ { base with windowMs := 19 }.windowMs < 20)
    ∧ ((inMode .start).pt.mode.active = false ∧ 20 ≤ (inMode .start).windowMs)
    ∧ 0 < { base with oldWindows := 1 }.oldWindows := by decide

/-- A window that started before the entry into JOINING is not evaluated; a late one gives its own end time in its notices. -/
theorem test_old_and_late_windows :
    ((after' { base with oldWindows := 2, pending := [.windowEnd ⟨0, 0, 0, 0, 0, 0, 0, 0⟩] }).map
      (fun t => (t.oldWindows, t.windowMs, t.ct.notices))) = some (1, 0, [])
    ∧ ((after' { base with windowMs := 47, time := 100, pending := [.windowEnd ⟨0xFFFE, 0xFFFE, 1, 0, 1, 0, 0, 0⟩] }).map
      (fun t => t.ct.notices)) = some [⟨0, .clear, .occupied, 73⟩] := by decide

/-- The node with one record for its point. -/
def withPoint (r : PointRec) : State :=
  let s := withClaim { claim5 .setting with orders := [0] }
  { s with pu := { s.pu with points := [r] } }

/-- A point driving to REVERSE. -/
def moving : PointRec := PointRec.driving .moving .reverse .normal .reverse false 3000

/-- MoveOrderTable: each row, with and without a permission-end notice that waits. -/
theorem witness_move_orders :
    (∀ r ∈ [PointRec.rest .detN, PointRec.rest .detR, moving, PointRec.rest .failed, PointRec.rest .noDet, PointRec.rest .bothDet],
      (withPoint r).yard.points[0]? = some ⟨0, 3⟩ ∧ ((withPoint r).settlePermission 0).pu.points[0]? = some r
        ∧ (withPoint r).drivePermission 0 = true ∧ (withPoint r).pu.permEnds.contains 0 = false)
    ∧ (PointRec.rest .detR).state = Position.reverse.detected ∧ (PointRec.rest .detN).state = Position.reverse.other.detected
    ∧ (moving.target = some .reverse ∧ moving.target ≠ some .normal)
    ∧ ({ base with du := { base.du with sects := [⟨.occupied, 0, 0⟩] } }.heldOccupied 0 = true)
    ∧ (base.heldOccupied 0 = false ∧ base.drivePermission 0 = false ∧ base.yard.points[0]?.isSome ∧ base.pu.points[0]?.isSome)
    ∧ ({ base with pu := { base.pu with permEnds := [0] } }.pu.permEnds.contains 0 = true) := by decide

/-- PointReadingTables: each state at the runs before and at its threshold. -/
theorem witness_point_readings :
    (moving.target = some .reverse ∧ moving.start = some .normal ∧ moving.state = .moving ∧ moving.seekRun = 0)
    ∧ (1 ≤ { moving with seekRun := 1 }.seekRun ∧ Contact.rOnly = Position.reverse.contact ∧ Contact.both ≠ Position.reverse.contact)
    ∧ ({ moving with state := .backing }.state = .backing ∧ Contact.nOnly = Position.normal.contact)
    ∧ ((PointRec.rest .detN).state = Position.normal.detected ∧ Contact.both ≠ Position.normal.contact
      ∧ (PointRec.rest .detN).lossRun = 0 ∧ { PointRec.rest .detN with lossRun := 1, lossBoth := true }.lossBoth = true)
    ∧ ({ PointRec.rest .noDet with recRun := 2, recContact := some .normal }.recContact = some .normal
      ∧ 2 ≤ { PointRec.rest .noDet with recRun := 2 }.recRun ∧ (PointRec.rest .noDet).recContact ≠ some .normal
      ∧ { PointRec.rest .noDet with recRun := 1, recContact := some .normal }.recRun ≤ 1)
    ∧ (1 ≤ { PointRec.rest .bothDet with faultRun := 1 }.faultRun ∧ (PointRec.rest .failed).state = .failed) := by decide

theorem witness_point_window : { base with pu := { base.pu with readings := some (1, 0) } }.pu.readings = some (1, 0)
    ∧ base.yard.points[0]? = some ⟨0, 3⟩ ∧ base.pu.points[0]? = some (PointRec.rest .detN) := by decide

/-- TravelTimerExpiryBacksOrFails: a first try, a back-drive and a retry at T_pt. -/
def spent (st : PointState) (retry : Bool) : PointRec := { moving with state := st, retry := retry, travel := some ⟨3000, 3000⟩ }

theorem witness_travel :
    (∀ r ∈ [spent .moving false, spent .backing false, spent .moving true],
      (withPoint r).pu.points[0]? = some r ∧ due r.travel = true ∧ r.target = some .reverse ∧ r.start = some .normal)
    ∧ base.yard.points[0]? = some ⟨0, 3⟩ ∧ (withPoint moving).drivePermission 0 = true ∧ base.drivePermission 0 = false := by decide

/-- A drive of a move in hand is turned on with the permission alone (R19): over an occupied section the move ends. -/
theorem test_drive_needs_permission :
    ((after' { withPoint (spent .moving false) with pending := [.travelTimerExpiry 0] }).map
      (fun t => (t.pu.points.map (·.state), t.ct.reports))) = some ([.backing], [])
    ∧ ((after' { withPoint (spent .moving false) with
        pending := [.travelTimerExpiry 0], du := { base.du with sects := [⟨.occupied, 0, 0⟩] } }).map
      (fun t => (t.pu.points.map (·.state), t.ct.reports))) = some ([.noDet], [.moveFail 0 .occupied])
    ∧ ((after' (let s := withPoint { spent .backing false with seekRun := 1 }
        { s with pending := [.pointWindowEvaluation], pu := { s.pu with readings := some (1, 0) }
                 du := { base.du with sects := [⟨.occupied, 0, 0⟩] } })).map
      (fun t => (t.pu.points.map (·.state), t.ct.reports))) = some ([.noDet], [.moveFail 0 .occupied]) := by decide

/-- NoticesStopMovingPoints: a moving point and one at rest, with its notices. -/
def noticed (r : PointRec) (n : SectNotice) : State :=
  let s := withPoint r
  { s with pu := { s.pu with permEnds := [0], notices := [n] } }

theorem witness_stopping :
    (∀ r ∈ [moving, spent .backing false, PointRec.rest .detN],
      (noticed r (notice 0 .clear .occupied)).pu.permEnds.contains 0 = true
        ∧ (noticed r (notice 0 .clear .occupied)).pu.points[0]? = some r
        ∧ takeFirst (fun x : SectNotice => x.sect == 0) (noticed r (notice 0 .clear .disturbed)).pu.notices
            = some (notice 0 .clear .disturbed, []))
    ∧ (moving.state = .moving ∧ (spent .backing false).state = .backing ∧ (PointRec.rest .detN).state ≠ .moving) := by decide

/-- The node with one record and one command for its signal. -/
def withSignal (r : SignalRec) (c : SuCommand) : State :=
  { base with su := { base.su with signals := [r], commands := [c] } }

/-- ProceedCommandTable: each state, with a direction that is available and one that is not. -/
theorem witness_proceed :
    (∀ r ∈ [SignalRec.atStop, SignalRec.clearingFor .left, { SignalRec.clearingFor .straight with state := .proceed, clearing := none },
        SignalRec.faulted], ∀ d ∈ [Direction.left, .straight, .right],
      (withSignal r (.proceed 0 d)).yard.signals[0]? = some ⟨true, true, false, some 3, some 0⟩
        ∧ (withSignal r (.proceed 0 d)).su.signals[0]? = some r
        ∧ takeFirst (fun x : SuCommand => x.signal == 0) (withSignal r (.proceed 0 d)).su.commands = some (.proceed 0 d, []))
    ∧ (SignalCfg.mk true true false (some 3) (some 0)).has .right = false
    ∧ (SignalRec.clearingFor .left).dir = some .left ∧ (SignalRec.clearingFor .left).dir ≠ some .straight := by decide

/-- StopCommandsAndSignalTimers: a STOP, the clearing timer at 100 ms, and both phases of a trial at their ends. -/
theorem witness_stop_and_timers :
    takeFirst (fun x : SuCommand => x.signal == 0) (withSignal SignalRec.atStop (.stop 0)).su.commands = some (.stop 0, [])
    ∧ (withSignal SignalRec.atStop (.stop 0)).su.signals[0]? = some SignalRec.atStop
    ∧ due { SignalRec.clearingFor .left with clearing := some ⟨100, 100⟩ }.clearing = true
    ∧ { SignalRec.faulted with trial := some (.dark, ⟨1000, 1000⟩) }.trial = some (.dark, ⟨1000, 1000⟩)
    ∧ { SignalRec.faulted with trial := some (.lit, ⟨100, 100⟩) }.state = .lampFault := by decide

/-- LampReadings: each state with a lit lamp, at the runs before and at the threshold, and readings that wait. -/
theorem witness_lamps :
    ((SignalRec.clearingFor .left).lit = some .left ∧ (SignalRec.clearingFor .left).proof = 0
      ∧ 1 ≤ { SignalRec.clearingFor .left with proof := 1 }.proof)
    ∧ (SignalRec.atStop.lit = some .stop ∧ SignalRec.atStop.dark = 0 ∧ 1 ≤ { SignalRec.atStop with dark := 1 }.dark)
    ∧ ({ SignalRec.faulted with lit := some .stop, proof := 1 }.proof ≤ 1 ∧ 2 ≤ { SignalRec.faulted with proof := 2 }.proof)
    ∧ { base with su := { base.su with readings := some ⟨1, 0, 0, 0⟩ } }.su.readings = some ⟨1, 0, 0, 0⟩
    ∧ base.su.signals[0]? = some SignalRec.atStop := by decide

/-- LampReadings: a reading counts from the second exchange after the lighting on, at the boundary, for each lamp. -/
theorem witness_lamp_lag :
    (∀ l ∈ [Lamp.stop, .left, .straight, .right], ∀ k ∈ [0, 1, 2],
      ({ SignalRec.atStop with lit := some l, sent := k }.lit = some l ∧ (k ≤ 1 ∨ 2 ≤ k)))
    ∧ SignalRec.faulted.lit = none := by decide

/-- A lamp put off before an exchange and lit again after it is not proved by that exchange's reading (R17). -/
theorem test_lamp_relit_after_an_exchange :
    let shown := { SignalRec.clearingFor .left with sent := 2 }
    let off := (withSignal shown (.stop 0)).takeStop 0
    let relit := ({ off with windowMs := 20 }.windowEnds ⟨0, 0, 0, 0, 0, 1, 0, 0⟩).takeProceed 0 .left
    (relit.su.signals.map (·.sent), relit.evaluateSignals.su.signals.map (·.proof)) = ([0], [0])
    ∧ (let once := { relit with windowMs := 20 }.windowEnds ⟨0, 0, 0, 0, 0, 1, 0, 0⟩
       let twice := { once with windowMs := 20 }.windowEnds ⟨0, 0, 0, 0, 0, 1, 0, 0⟩
       (once.evaluateSignals.su.signals.map (·.proof), twice.evaluateSignals.su.signals.map (·.proof)) = ([0], [1])) := by decide

/-- SignalEvaluationsAreReported: a lamp that fails in PROCEED and in STOP, one that recovers, and the EVENT frame of a failure. -/
theorem witness_lamp_effects :
    (({ SignalRec.clearingFor .left with state := .proceed, dark := 1 }.evaluate (some false)).2 = .failed .proceed .left
      ∧ ({ SignalRec.atStop with dark := 1 }.evaluate (some false)).2 = .failed .stop .stop
      ∧ ({ SignalRec.faulted with lit := some .stop, proof := 2 }.evaluate (some true)).2 = .recovered)
    ∧ (base.yard.signals[0]?).bind (·.reqPoint) = some 0
    ∧ (let s := { base with su := { base.su with
         signals := [{ SignalRec.atStop with dark := 1, sent := 2 }], readings := some ⟨0, 0, 0, 0⟩ } }
       (after' { s with pending := [.signalWindowEvaluation] }).map (fun t => (t.rq.fault.head?, t.fs.queue.map (·.payload)))
         = some (some true, [[0, 1, 3, 0, 0, 0, 0, 0, 0, 0]])) := by decide

/-- ChangedRoadsAreQueued: no write in hand, a write in hand, and a road that waits already. -/
theorem witness_queued_roads :
    (base.mi.writing = none ∧ base.yu.queue = [] ∧ base.yu.roads[0]?.isSome)
    ∧ (writingState.mi.writing ≠ none ∧ (writingState.queueRoads [0, 1]).yu.queue = [0, 1])
    ∧ (base.queueRoads [0, 0]).mi.writing = some (0, encRoad ⟨.known, [⟨2207, 1, 40⟩], [], none⟩) := by decide

/-- The node in a receive synchronisation state, with a frame in assembly. -/
def onLine (y : Sync) (a : Option Assembly) : State := { base with li := { base.li with sync := y, asm := a } }

/-- DelimitersAndCommas: each synchronisation state, with buffers, with the sixth-last one, and with none. -/
theorem witness_delimiters :
    (∀ y ∈ [Sync.hunt, .check, .inStep], (onLine y none).receives = true ∧ (onLine y none).li.asm = none)
    ∧ ((onLine .inStep (some ⟨[1], false⟩)).receives = true)
    ∧ ((0 : Fin 10) = base.li.align ∧ (1 : Fin 10) ≠ base.li.align)
    ∧ (Disparity.negative = base.li.disparity ∧ Disparity.positive ≠ base.li.disparity)
    ∧ (0 < base.fs.free ∧ { base.fs with free := 0 }.free = 0 ∧ base.fs.free ≠ 6) := by decide

/-- A comma in HUNT gives alignment and running disparity; a start delimiter of the wrong disparity in CHECK is a code violation. -/
theorem test_comma_and_disparity :
    ((after' { onLine .hunt none with pending := [.commaReceived 7 .positive .zeros] }).map
      (fun t => (t.li.sync, t.li.align, t.li.disparity))) = some (.check, 7, .negative)
    ∧ ((after' { onLine .check none with pending := [.startDelimiter 0 .positive .even] }).map
      (fun t => (t.li.sync, t.li.violCount, t.li.asm))) = some (.hunt, 1, none)
    ∧ ((after' { onLine .check none with pending := [.startDelimiter 0 .negative .ones] }).map
      (fun t => (t.li.sync, t.li.disparity, t.li.asm))) = some (.inStep, .positive, some ⟨[], false⟩) := by decide

/-- A sound INSPECT frame from node 5 to node 1. -/
def soundFrame : List Byte := frameBytes 5 9 0 ⟨.inspect, 1, [1, 0, 0], 0, false⟩

/-- FrameCheckOrder: a frame for each row, at 8 and at 9 bytes. -/
theorem witness_frame_checks :
    (List.replicate 8 (0 : Byte)).length < 9
    ∧ (9 ≤ (List.replicate 9 (0 : Byte)).length
      ∧ (crc16 ((List.replicate 9 (0 : Byte)).take 7)).toNat ≠ wordAt (List.replicate 9 0) 7)
    ∧ (9 ≤ soundFrame.length ∧ (crc16 (soundFrame.take (soundFrame.length - 2))).toNat = wordAt soundFrame (soundFrame.length - 2)
      ∧ byteAt soundFrame 6 ≤ 48 ∧ byteAt soundFrame 6 = soundFrame.length - 9)
    ∧ (let l := [0, 0, 0, 0, 0, 0, 1] ++ bytes2 (crc16 [0, 0, 0, 0, 0, 0, 1]).toNat
       9 ≤ l.length ∧ (crc16 (l.take 7)).toNat = wordAt l 7 ∧ ¬ (byteAt l 6 ≤ 48 ∧ byteAt l 6 = l.length - 9)) := by decide +kernel

/-- FrameReceivedIsCheckedAndFiled: frames with a fault, of the own source, for another node, of no kind, too short, and sound. -/
theorem witness_frame_received :
    ((onLine .inStep (some ⟨[], false⟩)).receives = true ∧ (onLine .inStep (some ⟨[], false⟩)).li.sync = .inStep
      ∧ soundFrame.length ≤ 57)
    ∧ (Assembly.mk [0] false).fault = some .undersize
    ∧ ((Assembly.mk soundFrame false).fault = none ∧ frameSource soundFrame = 5 ∧ frameDest soundFrame = 1
      ∧ Kind.ofCode (byteAt soundFrame 0) = some .inspect
      ∧ Kind.minPayload .inspect (framePayload soundFrame) ≤ (framePayload soundFrame).length)
    ∧ (let own := frameBytes 1 9 0 ⟨.inspect, 1, [1, 0, 0], 0, false⟩
       (Assembly.mk own false).fault = none ∧ frameSource own = base.pt.node)
    ∧ (let other := frameBytes 5 9 0 ⟨.inspect, 2, [1, 0, 0], 0, false⟩
       (Assembly.mk other false).fault = none ∧ frameDest other ≠ base.pt.node ∧ frameDest other ≠ 63)
    ∧ (let short := frameBytes 5 9 0 ⟨.inspect, 63, [1, 0], 0, false⟩
       (Assembly.mk short false).fault = none ∧ frameDest short = 63
         ∧ (framePayload short).length < Kind.minPayload .inspect (framePayload short))
    ∧ (let body : List Byte := [0x7F, 1, 5, 0, 9, 0, 0]
       let odd := body ++ bytes2 (crc16 body).toNat
       (Assembly.mk odd false).fault = none ∧ Kind.ofCode (byteAt odd 0) = none) := by decide +kernel

/-- The groups of bytes and an end delimiter, with as many ones as zeros in each. -/
def groupsOf (l : List Byte) : List LineGroup :=
  l.map (fun b => group (.data b) .negative) ++ [group .endDelim .negative]

/-- Such groups read as the bytes and the end delimiter; three groups that are no code word read as three violations. -/
theorem witness_groups :
    ((∀ g ∈ groupsOf soundFrame, g.align = base.li.align)
      ∧ readGroups base.li.disparity (groupsOf soundFrame)
          = soundFrame.map (fun b => some (LineSymbol.data b)) ++ [some .endDelim])
    ∧ ((∀ g ∈ [noWord, noWord, noWord], g.align = base.li.align)
      ∧ readGroups base.li.disparity [noWord, noWord, noWord] = List.replicate (3 - 0) none)
    ∧ readGroups base.li.disparity [group (.data 0) .negative] = [(0 : Byte)].map (fun b => some (.data b)) := by decide +kernel

/-- A frame arrives, group by group, and its inbox holds it. -/
theorem test_frame_received_is_filed :
    ((after' { onLine .inStep (some ⟨[], false⟩) with pending := [.frameReceived (groupsOf soundFrame)] }).map
      (fun t => (t.fs.inbox, t.fs.active))) = some ([⟨.inspect, rx5, [1, 0, 0]⟩], [.inspect]) := by decide +kernel

/-- OversizeQualityAndLossOfSync: the last byte of an oversize frame, the last symbol of a window, and two violations before
a third. -/
theorem witness_line_events :
    ((Assembly.mk (List.replicate 57 0) false).bytes.length < 58 ∧ (List.replicate 57 (0 : Byte)).length + [(0 : Byte)].length = 58)
    ∧ (1023 < 1024 ∧ 1023 + [(0 : Byte)].length = 1024)
    ∧ (let s := onLine .inStep none
       s.receives = true ∧ s.li.sync = .inStep ∧ s.li.asm = none ∧ s.li.symCount < 1024
         ∧ { s.li with violRun := 2 }.violRun ≤ 2) := by decide

/-- LineAccessRounds: a frame to send, a frame in transmission, a round and no round. -/
theorem witness_access :
    (let s := { queueState with li := { base.li with access := .round (some ⟨4, 1⟩) } }
     s.receives = true ∧ s.li.access = .round (some ⟨4, 1⟩)
       ∧ (takeFirst (fun f : TxFrame => f.age == 4) s.fs.queue).isSome = true ∧ (2 : Nat) ≠ (Candidate.mk 4 1).rank)
    ∧ queueState.candidate = some ⟨4, 64 * 0 + 1⟩
    ∧ { base.li with sending := some [⟨.comma, .negative⟩] }.sending.isSome = true
    ∧ (base.receives = true ∧ base.li.access = .unaligned) := by decide +kernel

/-- A station sends at its own access step, and at no other (R54). -/
theorem test_line_access_takes_the_rank_step :
    (let s := { queueState with li := { base.li with access := .round (some ⟨4, 1⟩) } }
     ((after' { s with pending := [.lineAccess 1] }).map (fun t => (t.fs.queue.length, t.li.seq))) = some (2, 1)
       ∧ ((after' { s with pending := [.lineAccess 2] }).map (fun t => (t.fs.queue.length, t.li.seq))) = some (3, 0)) := by
  decide +kernel

/-- PoolLowAndHoldOff: the sixth-last buffer, the pool-low timer at 40 ms over a short and a full pool, and a HOLD-OFF frame. -/
theorem witness_pool :
    ({ base.fs with free := 6 }.free = 6 ∧ base.fs.poolTimer = none ∧ { base.fs with poolTimer := some ⟨3, 40⟩ }.poolTimer ≠ none)
    ∧ (due (some ⟨40, 40⟩) = true ∧ { base.fs with free := 5 }.free < 6 ∧ 6 ≤ { base.fs with free := 6 }.free)
    ∧ ((delivered (withFrame .holdOff [40]) .holdOff).isSome = true ∧ rx5.source < 63 ∧ rx5.source ≠ base.pt.node
      ∧ byteAt [(0 : Byte)] 0 = 0 ∧ byteAt [(40 : Byte)] 0 ≠ 0
      ∧ reached 0 (0 + BitVec.ofNat 32 40) = false ∧ reached 40 (0 + BitVec.ofNat 32 40) = true)
    ∧ queueState.fs.holdOff[5]? = some (some 40) := by decide

/-- FrameHandlerServesInTurn: two kinds of one level, the second of which is the handler's next. -/
theorem witness_handler :
    (let fs := { base.fs with inbox := [⟨.deny, rx5, []⟩, ⟨.claim, rx5, []⟩, ⟨.inspect, rx5, []⟩], active := [.claim, .deny, .inspect] }
     fs.handler = none ∧ fs.active.filter (fun j => j.level == Kind.claim.level) = .claim :: [.deny]
       ∧ (∀ j ∈ fs.active, Kind.claim.level ≤ j.level)
       ∧ takeFirst (fun g : RxFrame => g.kind == .claim) fs.inbox = some (⟨.claim, rx5, []⟩, [⟨.deny, rx5, []⟩, ⟨.inspect, rx5, []⟩]))
    ∧ (delivered (withFrame .inspectReply [1, 0, 0, 2]) .inspectReply).isSome = true
    ∧ (delivered (withFrame .event []) .event).isSome = true := by decide

/-- TransmitQueueTakesFrames: a queued STATE frame, a queue with room, and a full one with a frame above and one not above. -/
theorem witness_queue_offers :
    (base.pt.mode.active = true ∧ base.fs.queue.length < 16)
    ∧ (∃ g ∈ queueState.fs.queue, g.kind = .state)
    ∧ (let q := List.replicate 15 (TxFrame.mk .claim 5 [] 0 false) ++ [⟨.event, 63, [], 1, false⟩]
       16 ≤ q.length ∧ Kind.claim.level < Kind.event.level ∧ Kind.event.level ≤ Kind.inspectReply.level
         ∧ ¬ ∃ g ∈ q, g.kind = .state) := by decide

/-- StateFramesMovePeers: a STATE frame of a known peer; two frames 600 and 601 ms apart; and the record of each state. -/
theorem witness_state_frames :
    ((delivered (withFrame .state (List.replicate 36 0)) .state).isSome = true ∧ base.peer? 5 = some peer5
      ∧ peer5.state ≠ .unknown ∧ peer5.epoch = some rx5.epoch ∧ { peer5 with epoch := some 8 }.epoch ≠ some rx5.epoch)
    ∧ ((600#32 - 0).toNat ≤ 600 ∧ 600 < (601#32 - 0).toNat)
    ∧ ({ peer5 with state := .joining, lastState := none }.state = .joining)
    ∧ (PeerRec.reset.state = .unknown ∧ PeerRec.reset.lastState = none) := by decide

/-- PeersComeAndGo: both changes of usability, a known and an unknown peer, a new epoch, and both supervision limits. -/
theorem witness_peers :
    (peer5.usable = true ∧ { peer5 with state := .lost }.usable = false ∧ { peer5 with owed := true }.owed = true)
    ∧ ((delivered (withFrame .announce [0]) .announce).isSome = true ∧ PeerRec.reset.state = .unknown ∧ (9 : Epoch) ≠ 10)
    ∧ (let s := { base with time := 500 }
       s.peer? 5 = some peer5 ∧ peer5.epoch = some 9 ∧ peer5.lastState = some 0 ∧ peer5.state = .inStep ∧ 500 ≤ (s.time - 0).toNat)
    ∧ ({ peer5 with state := .silent }.state = .silent ∧ 1000 ≤ (1000#32 - 0).toNat) := by decide

/-- DuplicateIdIsolates and ListenTimerLeadsToRunning. -/
theorem witness_own_source_and_listen :
    (let s := { base with fs := { base.fs with ownFrames := [⟨0, 1, 8, .own, false⟩] } }
     s.fs.ownFrames = ⟨0, 1, 8, .own, false⟩ :: [] ∧ s.pt.mode = .running)
    ∧ (let s := { inMode .joining with pt := { (inMode .joining).pt with listen := some ⟨250, 1000⟩, announces := 1 } }
       s.pt.mode = .joining ∧ s.pt.listen = some ⟨250, 1000⟩ ∧ s.pt.announces < 3 ∧ s.pt.announces * 250 ≤ 250)
    ∧ (let s := { inMode .joining with pt := { (inMode .joining).pt with listen := some ⟨1000, 1000⟩, announces := 3 } }
       s.pt.mode = .joining ∧ 3 ≤ s.pt.announces ∧ 1000 ≤ 1000) := by decide

/-- StateFramesAreBuilt and InspectsAreAnswered. -/
theorem witness_reports :
    (base.pt.stateMs = some 250 ∧ 250 ≤ 250)
    ∧ ((delivered (withFrame .inspect [1, 0, 0]) .inspect).isSome = true ∧ rx5.source ≠ 63)
    ∧ (base.yu.roads[0]?.isSome ∧ base.yu.roads[1]? = none ∧ base.inst? 7 = none ∧ (withInst (inst .clear)).inst? 0 = some (inst .clear)
      ∧ (withClaim (claim5 .set)).claim? 0 = some (claim5 .set)) := by decide

/-- A telegram of tram 2207 with a request code. -/
def telegram (code : Nat) : List Byte :=
  let l : List Byte := bytes2 2207 ++ [1, 40, byte code, 1, 0]
  l ++ [checkByte l]

/-- The node with a completed telegram at point 0. -/
def withTelegram (code : Nat) : State :=
  { base with rq := { base.rq with telegrams := [⟨0, telegram code, 0⟩] } }

/-- ReaderInputs: a seventh and an eighth byte, each fault of a telegram, the overrun states, and the timers at their ends. -/
theorem witness_reader :
    (base.readsPoint 0 = true ∧ base.rq.points[0]? = some ReqPoint.reset ∧ due ReqPoint.reset.gap = false)
    ∧ ((telegram 1).take 6).length < 7 ∧ 7 ≤ ((telegram 1).take 7).length
    ∧ telegramFault ((telegram 1).take 7 ++ [(telegram 1).getD 7 0]) = none
    ∧ telegramFault (List.replicate 7 0 ++ [0]) = some .badCheck
    ∧ telegramFault (List.replicate 7 0 ++ [255]) = some .badTram
    ∧ { ReqPoint.reset with overrun := .armed }.overrun = .armed ∧ { ReqPoint.reset with overrun := .counted }.overrun = .counted
    ∧ due (some ⟨3, 3⟩) = true ∧ reached 30000 30000 = true := by decide

/-- RequestsTable: each request, a refusal of each kind, and a run-out that is accepted and one that is not. -/
theorem witness_requests :
    (∀ c ∈ [1, 2, 3], takeFirst (fun t : Telegram => t.point == 0) (withTelegram c).rq.telegrams = some (⟨0, telegram c, 0⟩, [])
      ∧ telegramFault (telegram c) = none)
    ∧ (telClass (telCode (telegram 1)) = .request .inbound ∧ telClass (telCode (telegram 2)) = .request .outbound
      ∧ telClass (telCode (telegram 3)) = .request .road ∧ telClass (telCode (telegram 4)) = .request .dest)
    ∧ ((withTelegram 1).holdStands ⟨0, telegram 1, 0⟩ = false ∧ (withTelegram 1).duplicate ⟨0, telegram 1, 0⟩ .inbound = false
      ∧ (withTelegram 1).refusalOf ⟨0, telegram 1, 0⟩ (some .inbound) = none ∧ (withTelegram 1).freeSlot = some 0)
    ∧ ((withTelegram 4).refusalOf ⟨0, telegram 4, 0⟩ (some .dest) = some .noRoute)
    ∧ ((inMode .joining).pt.mode ≠ .running ∧ { base.rq with fault := [true] }.fault.getD 0 false = true
      ∧ { base with rq := { base.rq with slots := [] } }.freeSlot = none)
    ∧ ((withInst (inst .clear)).duplicate ⟨0, telegram 1, 0⟩ .inbound = true)
    ∧ (base.mouthRoad 0 = some 0 ∧ base.refusalOf ⟨0, telegram 2, 0⟩ (some .outbound) = none
      ∧ base.runOutAccepts 0 2207 = true
      ∧ { base with yu := { base.yu with roads := [⟨.known, [⟨2207, 1, 40⟩, ⟨9, 1, 41⟩], [], none⟩] } }.runOutAccepts 0 2207 = false) := by
  decide

/-- CancelAndLifetimeEndSlots and SlotsEndAndActivate. -/
theorem witness_slots :
    (telClass (telCode (telegram 6)) = .unknown ∧ telClass (telCode (telegram 5)) = .cancel ∧ telegramFault (telegram 5) = none
      ∧ telegramFault (telegram 6) = none)
    ∧ (reached 600000 (slot.arrival + BitVec.ofNat 32 600000) = true ∧ reached 599999 (slot.arrival + BitVec.ofNat 32 600000) = false)
    ∧ ((withInst (inst .clear)).rq.slots[0]? = some (.active slot 0 none) ∧ slot.serial = 1 ∧ slot.serial ≠ 2)
    ∧ ({ base with rq := { base.rq with outcomes := [⟨0, 0, 1, .done⟩], isolated := true } }.rq.outcomes = ⟨0, 0, 1, .done⟩ :: [])
    ∧ (∀ g, g < 8 → base.activable g = none)
    ∧ ({ base with rq := { base.rq with slots := base.rq.slots.set 0 (.queued slot), queues := base.rq.queues.set 0 [0] } }.activable 0
        = some (0, slot, 0)) := by decide

/-- Slots 0 and 2 of tram 2207 at point 0: one QUEUED at signal 0, one ACTIVE in instance 3. -/
def twoSlots : State :=
  { withTelegram 5 with rq := { (withTelegram 5).rq with
      slots := ((base.rq.slots.set 0 (.queued slot)).set 2 (.active { slot with serial := 2 } 3 none))
      queues := base.rq.queues.set 0 [0], lamps := [true] } }

theorem witness_cancel : twoSlots.hasTelegram 0 .cancel ⟨0, telegram 5, 0⟩ []
    ∧ (withTelegram 6).hasTelegram 0 .unknown ⟨0, telegram 6, 0⟩ []
    ∧ twoSlots.cancelRecords ⟨0, telegram 5, 0⟩ = [⟨some 1, 2207, 0, .cancelled .requested, 0⟩]
    ∧ twoSlots.cancelMessages ⟨0, telegram 5, 0⟩ = [⟨3, 2, 2, .requested⟩]
    ∧ (Slot.active slot 0 (some .lifetime)) ≠ .active slot 0 none := by
  unfold State.hasTelegram
  decide

/-- CANCEL frees the QUEUED slot with its record and report, and passes a cancel for the ACTIVE one. -/
theorem test_cancel_ends_slots :
    ((after' { twoSlots with pending := [.cancel 0] }).map (fun t => (t.rq.slots.take 3, t.rq.queues.head?, t.rq.ring, t.re.cancels)))
      = some ([.free, .free, .active { slot with serial := 2 } 3 (some .requested)], some [],
          [⟨some 1, 2207, 0, .cancelled .requested, 0⟩], [⟨3, 2, 2, .requested⟩])
    ∧ ((after' { twoSlots with pending := [.cancel 0] }).map (fun t => (t.rp.serial, t.fs.queue.length, t.rq.lamps.head?)))
      = some (1, 1, some true) := by decide

/-- Outside RUNNING a CANCEL is ignored, also while slots are still in use (R86). -/
theorem test_cancel_outside_running :
    (let s := { twoSlots with pt := { twoSlots.pt with mode := .isolated } }
     s.hasTelegram 0 .cancel ⟨0, telegram 5, 0⟩ []
       ∧ ((after' { s with pending := [.cancel 0] }).map (fun t => (t.rq.slots.head?, t.rq.telegrams, t.re.cancels)))
          = some (some (.queued slot), [], [])) := by
  unfold State.hasTelegram
  decide

/-- ScanActivatesQueueHeads: signal 0 is visited first after signal 7, and second after signal 6. -/
theorem witness_scan :
    (let s := { base with rq := { base.rq with
       slots := base.rq.slots.set 0 (.queued slot), queues := base.rq.queues.set 0 [0], lastServed := 6 } }
     (∀ n, n < 1 → s.activable ((s.rq.lastServed + 1 + n) % 8) = none)
       ∧ s.activable ((s.rq.lastServed + 1 + 1) % 8) = some (0, slot, 0)
       ∧ (s.scan.inst? 0).isSome = true ∧ s.scan.rq.lastServed = 0) := by decide

/-- The end of the lifetime, and an unknown code. -/
theorem test_lifetime_and_unknown_code :
    ((after' { twoSlots with time := 600000, pending := [.slotLifetimeExpiry 0] }).map
      (fun t => (t.rq.slots.head?, t.rq.ring, t.rp.serial))) = some (some .free, [⟨some 1, 2207, 0, .expired, 600000⟩], 1)
    ∧ ((after' { withTelegram 6 with pending := [.unknownCodeTelegram 0] }).map (fun t => (t.rq.ring, t.rq.telegrams)))
      = some ([⟨none, 2207, 0, .refused .badCode, 0⟩], []) := by decide

/-- RQ_ISOLATION ends every slot in use, in rising index. -/
theorem test_isolation_ends_slots :
    ((after' { twoSlots with pending := [.rqIsolation], rq := { twoSlots.rq with isolated := true } }).map
      (fun t => (t.rq.slots.take 3, t.rq.ring.map (fun r => (r.serial, r.code)), t.rp.serial)))
      = some ([.free, .free, .free], [(some 2, .cancelled .isolation), (some 1, .cancelled .isolation)], 2) := by decide

/-- A CLAIM of node 5 for sections 0 and 1, of class SHUNT. -/
def claimReq : ClaimReq where
  key := key5
  cls := some .shunt
  tram := 2207
  approach := 30
  award := none
  steps := [⟨1, 0, true, false, 0, []⟩, ⟨2, 1, false, false, 0, []⟩]

/-- Another CLAIM of the same route, with a mouth step. -/
def mouthReq : ClaimReq :=
  { claimReq with key := { key5 with attempt := 1 }, cls := some .runIn, award := some ⟨⟨5, 1⟩, false⟩
                  steps := [⟨12, 1, false, true, 0, []⟩] }

/-- ClaimsAreChecked: a CLAIM, a SET and a RELEASE as frame and as handover, each mode, trusted and untrusted requesters, repeats. -/
theorem witness_claim_checks :
    ((delivered (withFrame .claim (encClaim claimReq)) .claim).isSome = true
      ∧ (delivered (withFrame .set (encKey key5)) .set).isSome = true
      ∧ (delivered (withFrame .release (encKey key5)) .release).isSome = true
      ∧ rx5.source = (decKey (encKey key5)).owner)
    ∧ (fromNobody (some rx5) = false ∧ fromNobody none = false)
    ∧ ((inMode .joining).pt.mode = .joining ∧ (inMode .isolated).pt.mode = .isolated ∧ base.pt.mode = .running)
    ∧ (requesterTrusted (some rx5) key5 = true ∧ requesterTrusted (some { rx5 with epochMatch := false }) key5 = false)
    ∧ ((withClaim (claim5 .set)).claimWithKey key5 = some 0 ∧ (withClaim (claim5 .set)).claimWithKey mouthReq.key = none
      ∧ (withClaim (claim5 .set)).claimsWhere (fun c => c.earlierOf mouthReq.key) = 0 :: []
      ∧ (claim5 .set).anySeen = true ∧ base.claimsWhere (fun c => c.earlierOf key5) = []) := by decide

/-- Two earlier attempts of one route: the first unseen, the second seen; and one unseen alone. -/
theorem witness_earlier_attempts :
    (let old := { claim5 .set with key := { key5 with attempt := 2 }, steps := [step' 1 0 false] }
     let s := { base with ct := { base.ct with records := (base.ct.records.set 0 (some old)).set 1 (some (claim5 .set)) } }
     s.claimWithKey mouthReq.key = none ∧ s.claimsWhere (fun c => c.earlierOf mouthReq.key) = [0] ++ 1 :: []
       ∧ s.claim? 0 = some old ∧ (∀ st ∈ old.steps, st.seen = false) ∧ s.claim? 1 = some (claim5 .set)
       ∧ (∃ st ∈ (claim5 .set).steps, st.seen = true)) := by decide

/-- ClaimsAreGrantedOrDenied: each denial of a step, and a CLAIM that passes with the boundary step number 12. -/
theorem witness_claim_steps :
    ((withClaim (claim5 .set)).lock? 1 = some 0)
    ∧ (∀ st ∈ [SectState.occupied, .disturbed],
        (let s := { base with du := { base.du with sects := [⟨st, 0, 0⟩] } }
         s.lock? 0 = none ∧ s.sectState 0 = some st))
    ∧ (let s := { base with pu := { base.pu with points := [PointRec.rest .failed] } }
       s.lock? 0 = none ∧ s.sectState 0 = some .clear
         ∧ (s.containedPoints 0).find? (fun p => (s.pointState p).any PointState.faulty) = some 0)
    ∧ ((base.containedPoints 1).find? (fun p => (base.pointState p).any PointState.faulty) = none ∧ base.roadOfMouth 1 = some 0)
    ∧ (base.badClaim claimReq = none ∧ base.firstDenial claimReq claimReq.steps = none ∧ base.ct.free = 0 :: (List.range 31).map (· + 1)
      ∧ 0 < base.ct.records.length ∧ base.ct.locks.length = base.yard.sects.length)
    ∧ (base.badClaim mouthReq = none ∧ base.firstDenial mouthReq mouthReq.steps = some (12, .noAward, none)
      ∧ mouthReq.steps = [] ++ ⟨12, 1, false, true, 0, []⟩ :: [] ∧ base.stepDenial mouthReq ⟨12, 1, false, true, 0, []⟩ = some (.noAward, none))
    ∧ (claimReq.key.owner ≠ base.pt.node ∧ claimReq.key.owner < 63 ∧ claimReq.steps.find? (·.mouth) = none
      ∧ mouthReq.steps.find? (·.mouth) = some ⟨12, 1, false, true, 0, []⟩ ∧ mouthReq.award = some ⟨⟨5, 1⟩, false⟩)
    ∧ (base.badClaim { claimReq with steps := [⟨13, 0, false, false, 0, []⟩] } = some 13)
    ∧ { base.ct with free := [] }.free = [] := by decide

/-- BadStepConditions: each condition with the step number it gives, at the boundary values, and a step list in which only the later of two
steps offends. -/
theorem witness_bad_steps :
    (∀ st ∈ [(⟨0, 0, false, false, 0, []⟩ : ReqStep), ⟨13, 0, false, false, 0, []⟩, ⟨1, 0, false, false, 3, []⟩, ⟨1, 16, false, false, 0, []⟩,
        ⟨1, 4, false, false, 0, []⟩, ⟨1, 3, false, false, 0, []⟩, ⟨1, 2, false, false, 0, []⟩, ⟨1, 0, false, false, 1, [⟨1, .normal⟩]⟩,
        ⟨1, 0, false, false, 2, [⟨0, .normal⟩, ⟨0, .reverse⟩]⟩, ⟨1, 1, false, true, 0, []⟩],
      base.badClaim { claimReq with steps := [st] } = some st.number)
    ∧ (base.badClaim { mouthReq with steps := [⟨1, 0, false, false, 0, []⟩, ⟨2, 0, false, false, 0, []⟩] } = some 2
      ∧ base.badClaim { mouthReq with steps := [⟨2, 0, false, false, 0, []⟩, ⟨1, 1, false, false, 0, []⟩] } = some 1
      ∧ base.badClaim { mouthReq with steps := [⟨1, 1, false, true, 0, []⟩, ⟨2, 0, false, false, 0, []⟩] } = some 1)
    ∧ (mouthReq.cls ≠ none ∧ mouthReq.steps.length ≤ 12 ∧ mouthReq.steps ≠ [])
    ∧ (base.badClaim { claimReq with cls := none } = some 0 ∧ base.badClaim { claimReq with steps := [] } = some 0
      ∧ base.badClaim { claimReq with steps := List.replicate 13 ⟨1, 0, false, false, 0, []⟩ } = some 0) := by decide

/-- A claim of node 5 with no step seen. -/
def fresh (st : ClaimState) : Claim := { claim5 st with steps := [step' 1 0 false, step' 2 1 false] }

/-- SettingARoute: each state of the record, and each report, with orders left and with the last one. -/
theorem witness_setting :
    (base.claimWithKey key5 = none)
    ∧ (∀ st ∈ [ClaimState.reserved, .setting, .set, .orphaned], (withClaim (fresh st)).claimWithKey key5 = some 0
        ∧ (withClaim (fresh st)).claim? 0 = some (fresh st) ∧ (fresh st).releaseMark = false ∧ (fresh st).lost = false)
    ∧ (∃ st ∈ (claim5 .reserved).steps, st.seen = true)
    ∧ (∀ st ∈ (fresh .reserved).steps, ¬ (st.locked = true ∧ (withClaim (fresh .reserved)).heldOccupied st.sect = true) ∧ st.seen = false)
    ∧ ((withClaim (fresh .reserved)).faultyPoint (fresh .reserved) = none)
    ∧ (let c := { fresh .setting with orders := [0] }
       (withClaim c).recordOrdering 0 = some 0 ∧ c.orders.erase 0 = [] ∧ { c with orders := [0, 7] }.orders.erase 0 ≠ [])
    ∧ (∀ r ∈ [PuReport.moveDone 0, .moveFail 0 .timeout, .detectionLost 0],
        takeFirst (fun x : PuReport => x.point == 0) { base.ct with reports := [r] }.reports = some (r, []))
    ∧ (base.lock? 0 = none ∧ (withClaim (fresh .set)).lock? 0 = some 0 ∧ base.recordOrdering 0 = none)
    ∧ (let c := { fresh .reserved with steps := [{ step' 1 0 false with demands := [⟨0, .reverse⟩] }] }
       (withClaim c).claim? 0 = some c ∧ c.steps.flatMap (·.demands) ≠ [] ∧ (fresh .reserved).steps.flatMap (·.demands) = []) := by decide

/-- SET begins SETTING with its move order; the last answer ends it, with SET-DONE or, over a seen step, with SET-FAIL (R104, R105). -/
theorem test_setting :
    (let c := { fresh .reserved with key := { key5 with owner := 1 }, steps := [{ step' 1 0 false with demands := [⟨0, .reverse⟩] }] }
     ((after' { withClaim c with pending := [.set .handover], ct := { (withClaim c).ct with fromRe := [.set c.key] } }).map
       (fun t => ((t.claim? 0).map (fun c => (c.state, c.orders)), t.pu.points.map (·.state)))) = some (some (.setting, [0]), [.moving])
     ∧ (let d := { c with state := .setting, orders := [0] }
        ((after' { withClaim d with pending := [.moveDone 0], ct := { (withClaim d).ct with reports := [.moveDone 0] } }).map
          (fun t => ((t.claim? 0).map (·.state), t.re.fromCt))) = some (some .set, [.setDone c.key 0]))
     ∧ (let d := { c with state := .setting, orders := [0], steps := [{ step' 1 0 true with demands := [⟨0, .reverse⟩] }] }
        ((after' { withClaim d with pending := [.moveDone 0], ct := { (withClaim d).ct with reports := [.moveDone 0] } }).map
          (fun t => ((t.claim? 0).map (·.state), t.re.fromCt))) = some (some .reserved, [.setFail c.key none .occupied]))) := by decide

/-- ReleasesAndWindingDown: a step with another locked one, and the last locked step. -/
theorem witness_releases :
    ((withClaim (fresh .set)).claim? 0 = some (fresh .set) ∧ (fresh .set).steps[1]? = some (step' 2 1 false)
      ∧ (step' 2 1 false).locked = true)
    ∧ (let c := { fresh .set with steps := [step' 1 0 false] }
       c.steps[0]? = some (step' 1 0 false) ∧ c.steps[1]? = none)
    ∧ ({ fresh .setting with orders := [0] }.orders ≠ [] ∧ { fresh .set with releaseMark := true }.releaseMark = true)
    ∧ base.claimWithKey key5 = none := by decide

/-- MouthReleasesReachYu: a mouth step, seen and not seen, with and without an award, and a RUN_OUT claim of this node that leaves the
road. -/
theorem witness_mouth_releases :
    (let c := { fresh .set with award := some ⟨⟨5, 1⟩, false⟩, steps := [{ step' 1 1 true with mouth := true }] }
     (withClaim c).claim? 0 = some c ∧ c.steps[0]? = some { step' 1 1 true with mouth := true }
       ∧ (withClaim c).sectRole 1 = some .roadMouth ∧ (withClaim c).roadOfMouth 1 = some 0 ∧ c.award ≠ none)
    ∧ (base.sectRole 0 ≠ some .roadMouth ∧ (step' 1 1 false).seen = false ∧ (fresh .set).award = none)
    ∧ (base.yard.roads[0]? = some ⟨1, 2, 2, 1, 0⟩ ∧ (base.yard.routes[1]?).map (·.signal) = some 0
      ∧ { fresh .set with cls := .runOut }.cls = .runOut) := by decide

/-- SectionsTimersAndRequesters: a locked section that becomes occupied and CLEAR, with each state of its record; the timers at their
limits; and each notice. -/
theorem witness_claim_events :
    (takeFirst (fun x : SectNotice => x.sect == 0) [notice 0 .occupied .clear] = some (notice 0 .occupied .clear, [])
      ∧ takeFirst (fun x : SectNotice => x.sect == 0) [notice 0 .clear .occupied] = some (notice 0 .clear .occupied, []))
    ∧ (base.lock? 0 = none ∧ (withClaim (claim5 .set)).lock? 0 = some 0
      ∧ (∀ st ∈ [ClaimState.reserved, .set, .orphaned], (claim5 st).stepOn 0 = some 0)
      ∧ (claim5 .set).steps[0]? = some (step' 1 0 true) ∧ (withClaim (claim5 .set)).sectClear 0 = true
      ∧ (claim5 .set).steps[1]? = some (step' 2 1 true) ∧ (step' 2 1 true).seen = true ∧ (step' 1 0 false).seen = false)
    ∧ (let c := { claim5 .set with steps := [step' 1 0 true, step' 2 1 false] }
       c.stepOn 1 = some 1 ∧ c.steps[1]? = some (step' 2 1 false) ∧ c.steps[0]? = some (step' 1 0 true)
         ∧ (step' 1 0 true).nextLocal = true ∧ (step' 1 0 true).seen = true ∧ (withClaim c).sectClear 0 = true)
    ∧ (due { claim5 .reserved with reservedT := some ⟨10000, 10000⟩ }.reservedT = true
      ∧ due { claim5 .set with setT := some ⟨45000, 45000⟩ }.setT = true
      ∧ due { step' 1 0 true with orphan := some ⟨30000, 30000⟩ }.orphan = true)
    ∧ (∀ n ∈ [PeerNotice.unusable 5 9, .usable 5 9, .epochChange 5 9 10],
        takeFirst (fun x : PeerNotice => x.peer == 5) [n] = some (n, []))
    ∧ ({ base.ct with isolated := true }.isolated = true ∧ { claim5 .orphaned with prev := some .set }.prev = some .set
      ∧ (∀ st ∈ (fresh .orphaned).steps, st.locked = true → st.seen = false)) := by decide

/-- A record in ORPHANED that has been lost, from a state. -/
def orphaned (prev : ClaimState) (seen : Bool) : Claim :=
  { claim5 .orphaned with
    prev := some prev, lost := true, lostPoint := some 0
    steps := [{ step' 1 0 seen with orphan := some ⟨5, 30000⟩ }, step' 2 1 false] }

/-- ReturningRequester: records in ORPHANED from RESERVED and from SET, with a step that is released and with none, and a record of
another epoch; a step that is ready for release and one that is not. -/
theorem witness_returns :
    (∀ c ∈ [orphaned .reserved false, orphaned .set false, orphaned .set true],
      (withClaim c).claim? 0 = some c ∧ c.madeBy 5 9 = true ∧ c.madeBy 5 10 = false ∧ c.releaseMark = false)
    ∧ (∀ st ∈ (orphaned .set false).steps, ¬ (st.locked = true ∧ st.seen = true))
    ∧ (let c := { claim5 .set with steps := [step' 1 0 true, step' 2 1 true] }
       (withClaim c).sectClear 0 = true ∧ c.steps[1]? = some (step' 2 1 true))
    ∧ { fresh .orphaned with releaseMark := true }.releaseMark = true
    ∧ (let s := { withClaim (orphaned .set false) with pending := [.ctUsable 5] }
       (after' { s with ct := { s.ct with peerNotices := [.usable 5 9] } }).map
         (fun t => ((t.claim? 0).map (fun c => (c.state, c.setT, c.lostSent)), t.fs.queue.map (·.kind)))
           = some (some (.set, some ⟨0, 45000⟩, true), [.claimLost])) := by decide

/-- RestartedRequester: a record with one clear section and one occupied, one with both clear, and one in SETTING. -/
theorem witness_restarts :
    (let s := withClaim (fresh .set)
     let held := { s with du := { s.du with sects := s.du.sects.set 1 ⟨.occupied, 0, 0⟩ } }
     s.allClear (fresh .set) = true ∧ held.allClear (fresh .set) = false ∧ held.clearSteps (fresh .set) = [0]
       ∧ ((s.releaseClear 0).claim? 0 = none ∧ (s.releaseClear 0).ct.free.getLast? = some 0)
       ∧ (after' { held with pending := [.ctEpochChange 5], ct := { held.ct with peerNotices := [.epochChange 5 9 10] } }).map
          (fun t => ((t.claim? 0).map (fun c => (c.releaseMark, c.steps.map (·.locked))), t.lock? 0, t.lock? 1))
            = some (some (true, [false, true]), none, some 0))
    ∧ ({ fresh .setting with orders := [0] }.state = .setting ∧ { fresh .setting with orders := [0] }.orders ≠ []) := by decide

/-- Isolation drops the marks of a record in SETTING that carries the release mark already (R117, R118). -/
theorem test_isolation_drops_marks :
    (let c := { fresh .setting with releaseMark := true, lost := true, lostPoint := some 0, orphanPending := true, orders := [0] }
     let s := { withClaim c with du := { base.du with sects := List.replicate 4 ⟨.occupied, 0, 0⟩ }, pending := [.ctIsolation] }
     (after' { s with ct := { s.ct with isolated := true } }).map (fun t => (t.claim? 0).map (fun c => (c.state, c.lost, c.orphanPending)))
       = some (some (.reserved, false, false))) := by decide

/-- The next section of a passed step becomes occupied: the step before it is released, with PASSED to its owner (R109, R110). -/
theorem test_sectional_release :
    (let c := { claim5 .set with steps := [step' 1 0 true, step' 2 1 false] }
     let n := notice 1 .clear .occupied
     ((after' { withClaim c with pending := [.ctSectionChange 1], ct := { (withClaim c).ct with notices := [n] } }).map
       (fun t => (t.ct.locks.take 2, t.fs.queue.map (fun f => (f.kind, f.dest))))) = some ([none, some 0], [(.passed, 5)])) := by decide

/-- An instance of the stabling path in a phase. -/
def calling (ph : CallPhase) : Inst :=
  { inst .calling with route := none, attempt := none, phase := some ph, call := some ⟨1, 1⟩, owners := [], passed := [] }

/-- CallingForARoad: bids that count and that do not, at the score 4095, and the timers of a call at their ends. -/
theorem witness_calls :
    ((withInst (calling .bidding)).inst? 0 = some (calling .bidding) ∧ (withInst (calling .bidding)).bidding ⟨1, 1⟩ = some 0
      ∧ (withInst (calling .bidding)).runInRoute 0 1 0 = some 0 ∧ (withInst (calling .bidding)).runInRoute 0 5 0 = none
      ∧ rx5.usable = true ∧ rx5.epochMatch = true ∧ 4095 ≤ 4095 ∧ rx5.source ∉ (calling .bidding).bidders)
    ∧ (let y := { yard with routes := yard.routes.map (fun r => { r with dest := .road 5 0 }) }
       { withInst (calling .bidding) with yard := y }.runInRoute 0 5 0 ≠ none)
    ∧ ((delivered (withFrame .bid (encBid ⟨1, 1⟩ 0 9)) .bid).isSome = true
      ∧ (delivered (withFrame .roadChange [0, 0, 1]) .roadChange).isSome = true)
    ∧ ((calling .waiting).state = .calling ∧ (calling .waiting).phase = some .waiting)
    ∧ (due { ReTimers.stopped with bid := some ⟨150, 150⟩ }.bid = true ∧ due { ReTimers.stopped with roadWait := some ⟨5000, 5000⟩ }.roadWait
        = true ∧ due { ReTimers.stopped with awardWait := some ⟨60, 60⟩ }.awardWait = true)
    ∧ ({ calling .bidding with best := some ⟨5, 0, 9⟩ }.best = some ⟨5, 0, 9⟩ ∧ (5 : Nat) ≠ base.pt.node)
    ∧ { slot with road := some (5, 0) }.road = some (5, 0) := by decide

theorem witness_no_waiting_instance : ∀ i x, base.inst? i = some x → ¬ (x.state = .calling ∧ x.phase = some .waiting) := by
  intro i x h
  simp only [State.inst?, base, State.reset, RE.reset, List.getElem?_replicate] at h
  split at h <;> simp_all

/-- Attempts: attempt numbers 255 and 256, owners usable and not, and what an instance in BACKOFF holds. -/
theorem witness_attempts :
    (let x := { inst .backoff with attempt := some 254 }
     (withInst x).inst? 0 = some x ∧ (withInst x).routeOf x = some (yard.routes.head (by decide)) ∧ x.nextAttempt ≤ 255)
    ∧ (255 < { inst .backoff with attempt := some 255 }.nextAttempt)
    ∧ (let x := { inst .backoff with route := some 1 }
       (withInst x).routeOf x = yard.routes[1]? ∧ (withInst x).peerUsable 5 = true
         ∧ (∀ k ∈ (yard.routes[1]'(by decide)).owners, k = (withInst x).pt.node ∨ (withInst x).peerUsable k = true)
         ∧ { withInst x with pt := { base.pt with peers := State.reset.pt.peers } }.peerUsable 5 = false)
    ∧ (due { ReTimers.stopped with retry := some ⟨105, 105⟩ }.retry = true
      ∧ { inst .backoff with award := some ⟨⟨1, 1⟩, 5, 0, false⟩ }.award = some ⟨⟨1, 1⟩, 5, 0, false⟩)
    ∧ (((withInst (inst .claiming)).rq.slots[(inst .claiming).slot]?).bind Slot.data? = some slot
      ∧ (inst .claiming).asked (withInst (inst .claiming)).pt.node = true)
    ∧ (due { ReTimers.stopped with claim := some ⟨400, 400⟩ }.claim = true
      ∧ due { ReTimers.stopped with set := some ⟨8000, 8000⟩ }.set = true) := by decide

/-- The key of the instance. -/
def keyOfInst : RouteKey := ⟨1, 7, 0, 1, 0⟩

/-- RepliesOfOwners: each reply as frame and as handover, stale and counting. -/
theorem witness_replies :
    (∀ k ∈ [Kind.grant, .deny, .setDone, .setFail, .passed, .claimLost],
      (delivered (withFrame k (encKey keyOfInst ++ [1, 1, 1])) k).isSome = true
        ∧ ((delivered (withFrame k (encKey keyOfInst ++ [1, 1, 1])) k).bind decReply).isSome = true)
    ∧ (ReMsg.grant keyOfInst 0).kind = .grant
    ∧ (base.pt.mode ≠ .isolated ∧ keyOfInst.owner = base.pt.node ∧ base.instWithKey keyOfInst = none)
    ∧ (∀ st ∈ [ReState.claiming, .setting], (withInst (inst st)).instWithKey keyOfInst = some 0
        ∧ (withInst (inst st)).inst? 0 = some (inst st) ∧ (withInst (inst st)).replyCounts (inst st) none = true)
    ∧ ((inst .claiming).owner? 1).any OwnerEntry.hasGranted = false
    ∧ ((withInst (inst .setting)).firstSect (inst .setting) = some 0 ∧ (withInst (inst .setting)).heldOccupied 0 = false
      ∧ { withInst (inst .setting) with du := { base.du with sects := [⟨.occupied, 0, 0⟩] } }.heldOccupied 0 = true) := by decide

/-- StaleGrants: a GRANT that does not count, and one past CLAIMING. In ISOLATED each is still answered or counted (R140, R141). -/
theorem witness_stale_grants :
    ((withInst (inst .claiming)).replyCounts (inst .claiming) (some rx5) = false ∧ (inst .setting).state ≠ .claiming
      ∧ (inMode .isolated).pt.mode = .isolated ∧ (ReMsg.passed keyOfInst 1).kind ≠ .grant)
    ∧ (let s := withInst (inst .claiming)
       let t := ({ s with pt := { s.pt with mode := .isolated } }).takeReply (.grant keyOfInst 0) (some rx5)
       t.cnt.staleReplies = 1 ∧ t.fs.queue.map (fun f => (f.kind, f.dest)) = [(.release, 5)]) := by decide

/-- StaleGrants: a GRANT whose key names another node. -/
theorem witness_foreign_grant : { keyOfInst with owner := 2 }.owner ≠ base.pt.node := by decide

/-- SignalReportsReachRe: each report, with an instance in each state and with none. -/
theorem witness_signal_reports :
    (∀ r ∈ [SuReport.proved 0, .clearFail 0, .lampFault 0],
      takeFirst (fun x : SuReport => x.signal == 0) { base.re with reports := [r] }.reports = some (r, []))
    ∧ base.instAt 0 = none
    ∧ (∀ st ∈ [ReState.clearing, .clear, .entered], (withInst (inst st)).instAt 0 = some 0
        ∧ (withInst (inst st)).inst? 0 = some (inst st) ∧ (withInst (inst st)).routeOf (inst st) = yard.routes[0]?) := by decide

/-- PassingAndCancelling. -/
theorem witness_passing :
    ({ inst .clear with passed := [true, true] }.allPassed = true ∧ (inst .cancelling).state = .cancelling
      ∧ (let s := { withInst { inst .cancelling with cause := some .requested } with pending := [.reSectionChange 0] }
         (after' { s with re := { s.re with notices := [notice 0 .clear .occupied] } }).map
           (fun t => (t.inst? 0).map (fun x => (x.state, x.cause))) = some (some (.entered, none))))
    ∧ (takeFirst (fun x : SectNotice => x.sect == 0) [notice 0 .clear .occupied] = some (notice 0 .clear .occupied, [])
      ∧ (withInst (inst .clear)).firstSect (inst .clear) = some 0 ∧ (inst .clear).allPassed = false)
    ∧ (∀ st ∈ [ReState.clear, .entered], (withInst (inst st)).instWithKey keyOfInst = some 0
        ∧ (∀ n ∈ [1, 2], (withInst (inst st)).stepOf (inst st) n ((withInst (inst st)).replySource none) = true
          ∧ (inst st).passed[n - 1]? = some false)
        ∧ (inst st).passed.length = ((withInst (inst st)).routeSteps (inst st)).length)
    ∧ (due { ReTimers.stopped with runThrough := some ⟨300000, 300000⟩ }.runThrough = true
      ∧ due { ReTimers.stopped with approach := some ⟨30000, 30000⟩ }.approach = true
      ∧ due { ReTimers.stopped with delay := some ⟨10000, 10000⟩ }.delay = true)
    ∧ (takeFirst (fun m : CancelMsg => m.inst == 0) [⟨0, 0, 1, .requested⟩] = some (⟨0, 0, 1, .requested⟩, [])
      ∧ (inst .clear).slot = 0 ∧ (inst .clear).serial = 1 ∧ (inst .clear).serial ≠ 2)
    ∧ (base.approachClear 0 = true
      ∧ { base with du := { base.du with sects := List.replicate 4 ⟨.occupied, 0, 0⟩ } }.approachClear 0 = false) := by decide

/-- PASSED in HALTED: the first of two steps goes on, the last ends the route; a repeated one, one in SETTING, and one for no step. -/
theorem witness_halted_passing :
    (let x := { inst .halted with claimLost := true, passed := [true, false] }
     let now : Inst := { x with passed := x.passed.set 1 true, timers := { x.timers with runThrough := some ⟨0, 300000⟩ } }
     let first : Inst := { inst .halted with passed := [true, false] }
     (withInst x).instWithKey keyOfInst = some 0 ∧ (withInst x).stepOf x 2 ((withInst x).replySource none) = true
       ∧ x.passed[2 - 1]? = some false ∧ x.passed[1 - 1]? = some true ∧ x.passed.length = ((withInst x).routeSteps x).length
       ∧ (withInst x).haltedEnds now = true ∧ (withInst x).haltedEnds first = false
       ∧ ((withInst x).takeReply (.passed keyOfInst 2) none).rq.outcomes = [⟨0, 0, 1, .degraded⟩]
       ∧ (withInst x).takeReply (.passed keyOfInst 1) none = withInst x)
    ∧ (inst .setting).state ≠ .clear
    ∧ (withInst (inst .entered)).stepOf (inst .entered) 0 1 = false := by decide

/-- LockReportsCount: a report under the owner's epoch, later than its SET-DONE; its unlocked section counts as passed (R134). -/
theorem witness_lock_reports :
    (let o : OwnerEntry := ⟨5, true, .granted 0, some 9, true, some 0, false, false⟩
     let x := { inst .entered with route := some 1, owners := [o] }
     let t := (withInst x).takeLockReport 5 9 250 0
     (withInst x).inst? 0 = some x ∧ x.owner? 5 = some o ∧ (250 : Time) ≠ 0 ∧ reached 250 0 = true
       ∧ (t.inst? 0).map (·.passed) = some [false, true]) := by decide

/-- LossesHaltRoutes. -/
theorem witness_losses :
    (let o : OwnerEntry := ⟨5, true, .granted 0, some 9, true, some 0, false, false⟩
     let asked : OwnerEntry := ⟨5, true, .none, none, false, none, false, false⟩
     let own : OwnerEntry := ⟨1, true, .granted 0, some 7, true, some 0, false, false⟩
     let x := fun st => { inst st with route := some 1, owners := [own, o] }
     (withInst (x .entered)).inst? 0 = some (x .entered) ∧ (x .entered).owner? 5 = some o
       ∧ hasUnpassed 5 ((withInst (x .entered)).routeSteps (x .entered)) (x .entered).passed = true
       ∧ hasUnpassed 5 ((withInst (x .entered)).routeSteps (x .entered)) [false, true] = false
       ∧ o.epoch = some 9 ∧ (9 : Epoch) ≠ 8 ∧ asked.epoch = none ∧ (x .entered).owner? 6 = none
       ∧ (((withInst (x .entered)).reLost 5 9 false).inst? 0).map (fun y => (y.state, y.owners.map (·.lost))) = some (.halted, [false, true])
       ∧ (((withInst (x .setting)).reLost 5 8 true).inst? 0).map (·.state) = some .setting
       ∧ (((withInst (x .setting)).reLost 5 9 true).inst? 0).map (·.state) = some .backoff
       ∧ (((withInst { x .claiming with owners := [asked] }).reLost 5 8 true).inst? 0).map (·.state) = some .backoff)
    ∧
    (∀ st ∈ [ReState.clearing, .clear, .entered], (withInst (inst st)).instWithKey keyOfInst = some 0
        ∧ (inst st).asked ((withInst (inst st)).replySource none) = true)
    ∧ ((withInst (inst .entered)).haltedEnds { inst .entered with state := .halted, claimLost := true } = false)
    ∧ (∀ n ∈ [PeerNotice.unusable 5 9, .usable 5 9, .epochChange 5 9 10],
        takeFirst (fun x : PeerNotice => x.peer == 5) [n] = some (n, []))
    ∧ (let o : OwnerEntry := ⟨5, true, .granted 0, some 9, true, some 0, true, false⟩
       let x := { inst .halted with owners := [o] }
       x.owner? 5 = some o ∧ o.asked = true ∧ o.epoch = some 9 ∧ o.epoch ≠ some 10
         ∧ x.state = .halted ∧ (x.owner? 5).any (fun o => o.lost && o.epoch == some 9 && !o.changed) = true)
    ∧ { base.re with isolated := true }.isolated = true := by decide

/-- The node with one road. -/
def withRoad (x : RoadRec) : State := { base with yu := { base.yu with roads := [x] } }

/-- An arrival of tram 7 under a call of node 5. -/
def arrival : Arrival := ⟨⟨5, 1⟩, 9, ⟨7, 1, 20⟩, false, none, none, false⟩

/-- BidCallsAreAnswered: the messages of YU, a road with exactly the places asked and with one too few, and a linked arrival. -/
theorem witness_bid_calls :
    ((delivered (withFrame .bidCall (encBidCall ⟨5, 1⟩ ⟨7, 1, 20⟩)) .bidCall).isSome = true
      ∧ (delivered (withFrame .award (encAward ⟨5, 1⟩ 0 ⟨7, 1, 20⟩ false)) .award).isSome = true
      ∧ (delivered (withFrame .awardWithdraw [5, 1]) .awardWithdraw).isSome = true)
    ∧ ((roadOf []).stack = [] ∧ (roadOf [40, 22]).stack.map (·.slot) = [40] ++ [22])
    ∧ (base.bestRoad ⟨7, 1, 20⟩ = some (0, 20 + 32) ∧ base.bestRoad ⟨7, 2, 20⟩ = none)
    ∧ ((withRoad { roadOf [40] with arrivals := [{ arrival with link := some 0 }] }).linkedCall ⟨5, 1⟩ = true
      ∧ base.linkedCall ⟨5, 1⟩ = false) := by decide

/-- AwardsAndWithdrawals: an award that the road takes at its last place, one it does not, and a fourth and a fifth arrival. -/
theorem witness_awards :
    (base.yard.roads[0]? = some ⟨1, 2, 2, 1, 0⟩ ∧ (base.yu.roads.map (RoadRec.dropCall ⟨5, 1⟩ 9 false))[0]? = base.yu.roads[0]?
      ∧ (roadOf [40]).takesAward 2 ⟨5, 1⟩ 9 1 = true ∧ (roadOf [40]).takesAward 2 ⟨5, 1⟩ 9 2 = false
      ∧ base.yard.roads[1]? = none)
    ∧ ((List.replicate 3 arrival).length < 4 ∧ 4 ≤ (List.replicate 4 arrival).length)
    ∧ (base.yu.roads.length = base.yard.roads.length ∧ (inMode .joining).pt.mode ≠ .running) := by decide

/-- RoadsFollowTheTrack: body notices both ways, a push with and without its arrival, and a pop from each place of the stack. -/
theorem witness_tracks :
    (takeFirst (fun n : SectNotice => n.sect == 2) [notice 2 .occupied .clear] = some (notice 2 .occupied .clear, [])
      ∧ firstIndex (fun c : RoadCfg => c.body == 2) base.yard.roads = some 0
      ∧ firstIndex (fun c : RoadCfg => c.body == 3) base.yard.roads = none)
    ∧ (let x := { roadOf [40] with arrivals := [arrival] }
       (withRoad x).yu.roads[0]? = some x
         ∧ x.arrivals.find? (fun a => a.call == ⟨5, 1⟩ && a.call.caller == key5.owner && a.epoch == key5.epoch) = some arrival)
    ∧ ((roadOf [40]).arrivals.find? (fun a => a.call == ⟨5, 1⟩) = none)
    ∧ (let l : List TramRec := [⟨7, 1, 40⟩, ⟨8, 1, 30⟩]
       l = [⟨7, 1, 40⟩] ++ [⟨8, 1, 30⟩] ∧ (∃ d ∈ l, d.tram = 7) ∧ (∀ d ∈ l, d.tram ≠ 9)) := by decide

/-- An UNLINK finds its arrival by the claim alone, on whichever road it is (R152). -/
theorem test_unlink_finds_its_arrival :
    (let s := { base with yu := { base.yu with roads := [roadOf [40], { roadOf [] with arrivals := [{ arrival with link := some 4 }] }] } }
     ((s.unlinkArrival 4).yu.roads.map (fun r => r.arrivals.map (·.link)) = [[], [none]])) := by decide

theorem witness_run_out :
    (base.yu.roads[0]? = some ⟨.known, [⟨2207, 1, 40⟩], [], none⟩ ∧ (withRoad ⟨.doubtful, [], [], none⟩).yu.roads[0]?.isSome)
    ∧ ([(⟨2207, 1, 40⟩ : TramRec)] = [] ++ [⟨2207, 1, 40⟩] ∧ (∀ d ∈ [(⟨2207, 1, 40⟩ : TramRec)], d.tram ≠ 9)) := by decide

/-- OffersHoldsAndCallers: an offer before and at its end, and a hold of 120 s of an unlinked and of a linked arrival. -/
theorem witness_offers :
    (reached 1000 1000 = true ∧ reached 999 1000 = false)
    ∧ (let x := { roadOf [] with arrivals := [{ arrival with hold := some ⟨120000, 120000⟩ },
          { arrival with hold := some ⟨120000, 120000⟩, link := some 0 }], offer := some ⟨⟨5, 1⟩, 9, 1000⟩ }
       (withRoad x).yu.roads[0]? = some x ∧ (∀ a ∈ x.arrivals, due a.hold = true)
         ∧ x.arrivals[0]?.any (fun a => a.link == none) = true ∧ x.arrivals[1]?.any (fun a => a.link != none) = true)
    ∧ { base.yu with isolated := true }.isolated = true := by decide

/-- A memory with a checked image of one section, stored epoch 41, and a blank road area. -/
def imageMem : List Host.Cell :=
  let head : List Byte := bytes2 3 ++ [1, 1, 0, 0, 0, 0, 0]
  let body : List Byte := [0, 0, 0]
  writeBytes (writeBytes (writeBytes [] 0 (head ++ bytes4 (crc32 (head ++ body)).toNat ++ body)) epochAddrA (encEpoch 41)) epochAddrB
    (encEpoch 41)

/-- The node in start-up, with that memory. -/
def starting (u : Startup) : State :=
  { State.reset with pt := { State.reset.pt with node := 1 }, mi := { State.reset.mi with mem := imageMem, startup := u } }

/-- StartUp: the straps at both ends of their range, an image that passes and one that fails, and each state of the epoch area. -/
theorem witness_start_up :
    ((62 < 64 ∧ 62 ≠ 63 ∧ 63 < 64) ∧ State.reset.mi.startup = .held ∧ base.mi.startup ≠ .held)
    ∧ ((starting .image).mi.startup = .image ∧ (checkImage imageMem 1).isSome = true ∧ checkImage imageMem 2 = none)
    ∧ (Memory.wf imageMem = true ∧ storedEpoch imageMem = some 41 ∧ storedEpoch [] = none
      ∧ epochCopy imageMem 7936 = some 41 ∧ epochCopy imageMem 7952 = some 41)
    ∧ EpochWrite.readFailed ≠ .confirmed := by decide +kernel

/-- A road record of one tram. -/
def stored : RoadRec := ⟨.known, [⟨9999, 2, 255⟩], [], none⟩

/-- Restore: a record of a road, and one with each fault. -/
theorem witness_restore :
    (starting .restore).mi.startup = .restore
    ∧ (stored.stack.length ≤ 8 ∧ stored.stack.all TramRec.storable = true ∧ (∀ e ∈ stored.stack, e.slot < 256)
      ∧ ¬ 2 < placesOf stored.stack ∧ 1 < placesOf stored.stack)
    ∧ ((encRoad stored).length = 35 ∧ (List.replicate 35 (255 : Byte))[34]? ≠ some (checkByte ((List.replicate 35 255).take 34)))
    ∧ (recordEntries (encRoad ⟨.known, [⟨10000, 1, 0⟩], [], none⟩)).all TramRec.storable = false := by decide +kernel

/-- The roads that ROAD_RESTORE sets: a stored record, one that did not verify, a repeated tram and an overfull road (R163). -/
theorem witness_restore_roads :
    (let road : RoadCfg := ⟨1, 2, 2, 1, 0⟩
     let other : RoadRec := ⟨.known, [⟨9999, 1, 3⟩], [], none⟩
     let mem := fun r => writeBytes (writeBytes [] 8000 (encRoad stored)) 8040 (encRoad r)
     restoreRoads (mem other) [road] [true] = [⟨stored, none⟩]
       ∧ (restoreRoads (mem other) [road] [false]).map (·.road) = [⟨.doubtful, [], [], none⟩]
       ∧ restoreRoads (mem other) [road, road] [true, true]
          = List.replicate 2 ⟨⟨.doubtful, [], [], none⟩, some (.restoreDuplicate, some 9999)⟩
       ∧ restoreRoads (mem ⟨.known, [⟨8, 1, 3⟩], [], none⟩) [road, road] [true, true]
          = [⟨stored, none⟩, ⟨⟨.known, [⟨8, 1, 3⟩], [], none⟩, none⟩]) := by decide +kernel

/-- ResetsClearTheState: a reset inside an epoch write. -/
theorem witness_resets : MemoryInv (starting .epoch) ∧ (starting .epoch).mi.startup = .epoch
    ∧ epochCopy (starting .epoch).mi.mem 7936 = some 41 ∧ epochCopy (starting .epoch).mi.mem 7952 = some 41 := by
  refine ⟨⟨by decide +kernel, by decide, by decide, by decide, ?_⟩, by decide +kernel, by decide +kernel, by decide +kernel⟩
  intro r l h
  simp [starting, State.reset, MI.reset] at h

/-- SentFramesAreSound: the burst of a frame, and groups that carry it to a receiver. -/
theorem test_burst_symbols : (burst soundFrame).length = soundFrame.length + 4
    ∧ ((burst soundFrame).take 3).map (·.symbol) = [.comma, .comma, .startDelim]
    ∧ ((burst soundFrame).head?).map (·.rd) = some .negative := by
  refine ⟨?_, rfl, rfl⟩
  decide +kernel

/-- CommandsKeepTheRest, SentFramesAreSound and PayloadsReadBack. -/
theorem witness_frames_and_payloads :
    ((Instr.stateTimer).isReset = false ∧ (Instr.stateTimer).clocks = false ∧ (Instr.stateTimer).setsClaims = false)
    ∧ (62 < 63 ∧ 63 < 64 ∧ (List.replicate 48 (0 : Byte)).length ≤ 48)
    ∧ (mouthReq.key.owner < 256 ∧ mouthReq.tram < 65536 ∧ (∀ st ∈ mouthReq.steps, st.number < 16 ∧ st.demandCount = st.demands.length))
    ∧ ((255 : Nat) < 256 ∧ (254 : Nat) < 255 ∧ ((2 : Nat) = 1 ∨ (2 : Nat) = 2)) := by decide

/-- WholeFramesAreFiled: a frame under a new epoch, one from a peer never heard and one from 63; the receive record shows the sender as it
was before the change. -/
theorem witness_filed_frames :
    (let l := frameBytes 5 10 0 ⟨.inspect, 1, [1, 0, 0], 0, false⟩
     frameEpoch l = 10 ∧ base.peer? 5 = some peer5 ∧ peer5.state ≠ .unknown ∧ peer5.epoch = some 9 ∧ (9 : Epoch) ≠ 10
       ∧ ((after' { onLine .inStep (some ⟨[], false⟩) with pending := [.frameReceived (groupsOf l)] }).map
          (fun t => (t.fs.inbox.map (·.rx), (t.peer? 5).map (fun p => (p.state, p.epoch)), t.ct.peerNotices)))
        = some ([⟨0, 5, 10, .other .inStep false, false⟩], some (.joining, some 10), [.epochChange 5 9 10]))
    ∧ ((base.peer? 6).map (·.state) = some .unknown ∧ base.peer? 63 = none) := by decide +kernel

/-- DamagedFramesAreDiscarded: a violation inside a frame, and a frame that is damaged already. -/
theorem witness_damaged_frames :
    (let groups := [group (.data 7) .negative, noWord, group (.data 8) .negative, group .endDelim .negative]
     (onLine .inStep (some ⟨[], false⟩)).receives = true ∧ base.li.violRun ≤ 1 ∧ (∀ g ∈ groups, g.align = base.li.align)
       ∧ readGroups base.li.disparity groups = [some (.data 7), none, some (.data 8), some .endDelim]
       ∧ ((after' { onLine .inStep (some ⟨[], false⟩) with pending := [.frameReceived groups] }).map
          (fun t => (t.cnt.code, t.li.asm, t.li.sync))) = some (1, none, .inStep))
    ∧ ((after' { onLine .inStep (some ⟨soundFrame, true⟩) with pending := [.frameReceived [group .endDelim .negative]] }).map
        (fun t => (t.cnt.code, t.fs.inbox))) = some (1, []) := by decide +kernel

/-- FramesQueueByLevelAndAge and ReplacedStateFrameKeepsItsFlags. -/
theorem test_queue_places_and_flags :
    (let f := fun k a => TxFrame.mk k 63 [] a false
     insertFrame (f .holdOff 9) ([f .state 1] ++ [f .event 2]) = [f .state 1] ++ f .holdOff 9 :: [f .event 2])
    ∧ (mergeStateFlags (List.replicate 36 255) (List.replicate 36 0) = List.replicate 35 0 ++ [6])
    ∧ (mergeStateFlags (List.replicate 36 0) (List.replicate 36 1) = List.replicate 36 1) := by decide

/-- StateFrameTable: each mode code, and one that is not defined. -/
theorem test_peer_modes : ([1, 2, 3, 0, 7].map (fun n => (({ peer5 with mode := none }.takeState [byte n] 0).hear true).mode))
    = [some .joining, some .running, some .isolated, none, none] := by decide

/-- RequestsAreCompared: the matching route of each code. -/
theorem test_matching_routes :
    [(ReqCode.inbound, 1), (.outbound, 2), (.road, 3), (.dest, 4)].map (fun c => base.matchRoute 0 c.1 (telegram c.2))
      = [some 0, some 1, some 0, none] := by decide

/-- SetTable in ISOLATED: a SET that would have its record enter SETTING changes nothing (R72). -/
theorem test_isolated_set :
    (let c := fresh .reserved
     let s := { withClaim c with pt := (inMode .isolated).pt }
     s.claimWithKey key5 = some 0 ∧ s.claim? 0 = some c ∧ c.state = .reserved ∧ c.lost = false ∧ s.faultyPoint c = none
       ∧ s.takeSet key5 = s
       ∧ ({ s with pt := base.pt }.takeSet key5).claim? 0 ≠ some c) := by decide

/-- CallTimersExpire, BidsAndRoadChanges and AttemptsBegin in ISOLATED (R72), and a bid of the own YU (R124). -/
theorem test_isolated_routes :
    (let t := { ReTimers.stopped with bid := some ⟨150, 150⟩, roadWait := some ⟨5000, 5000⟩, awardWait := some ⟨60, 60⟩
                                      retry := some ⟨105, 105⟩ }
     let x := { inst .calling with phase := some .bidding, call := some ⟨1, 1⟩, best := some ⟨1, 0, 40⟩, timers := t }
     let s := { withInst x with pt := (inMode .isolated).pt }
     s.inst? 0 = some x ∧ x.best = some ⟨1, 0, 40⟩ ∧ x.call = some ⟨1, 1⟩
       ∧ (∀ c ∈ [Instr.bidTimerExpiry 0, .roadWaitExpiry 0, .awardWaitExpiry 0, .retryTimerExpiry 0],
          after' { s with pending := [c] } = some s ∧ after' { withInst x with pending := [c] } ≠ some (withInst x))
       ∧ (withInst x).bidding ⟨1, 1⟩ = some 0 ∧ (withInst x).runInRoute 0 1 0 = some 0 ∧ 1 ∉ x.bidders
       ∧ (((withInst { x with best := none }).takeBid ⟨1, 1⟩ 0 40 none).inst? 0).map (fun y => (y.bidders, y.best))
          = some ([1], some ⟨1, 0, 40⟩)
       ∧ (withInst x).takeBid ⟨1, 2⟩ 0 40 none = withInst x) := by decide

/-- CallSequenceSkipsValuesInUse: the value after the counter, and past one in use. -/
theorem test_call_sequence :
    base.nextSeq = 1 ∧ (withInst { inst .calling with call := some ⟨1, 1⟩ }).nextSeq = 2
    ∧ ({ base with re := { base.re with callSeq := 255 } }).nextSeq = 0 := by decide

/-- LostClaimsAndStaleReplies: a CLAIM-LOST that counts, one that does not, and one for no instance. -/
theorem test_lost_claims :
    (let s := withInst (inst .claiming)
     s.instWithKey keyOfInst = some 0 ∧ s.replyCounts (inst .claiming) none = true ∧ s.replyCounts (inst .claiming) (some rx5) = false
       ∧ ((s.takeReply (.claimLost keyOfInst .expired none) none).inst? 0).map (·.state) = some .backoff
       ∧ (s.takeReply (.claimLost keyOfInst .expired none) (some rx5)).cnt.staleReplies = 1
       ∧ s.instWithKey key5 = none ∧ (s.takeReply (.claimLost key5 .expired none) none).cnt.staleReplies = 1) := by decide

/-- OwnerNoticesReachInstances: a return that leads to ENTERED, with the run-through timer running on, one that does not, and the RELEASE
and AWARD-WITHDRAW of isolation. -/
theorem test_returns_and_isolation :
    (let o : OwnerEntry := ⟨5, true, .granted 0, some 9, true, some 0, true, false⟩
     let x := { inst .halted with owners := [o], timers := { ReTimers.stopped with runThrough := some ⟨7, 300000⟩ } }
     let back := fun y : Inst => ((withInst y).reReturned 5 9).inst? 0
     (back x).map (fun y => (y.state, y.timers.runThrough)) = some (.entered, some ⟨7, 300000⟩)
       ∧ (back { x with claimLost := true }).map (fun y => (y.state, y.owners.map (·.lost))) = some (.halted, [false]))
    ∧ (let o : OwnerEntry := ⟨5, true, .none, none, false, none, false, false⟩
       let x := { inst .claiming with owners := [o], award := some ⟨⟨1, 1⟩, 5, 0, false⟩ }
       ((withInst x).reIsolate.fs.queue.map (fun f => (f.kind, f.dest)) = [(.release, 5), (.awardWithdraw, 5)])
         ∧ ((withInst { x with state := .entered }).reIsolate.fs.queue.map (·.kind) = [.release])) := by decide

/-- PushStacksTheArrival and PopTakesTheTram: the offer of a road that becomes DOUBTFUL is cleared (R146). -/
theorem test_doubtful_roads_lose_their_offer :
    (let offer : Option Offer := some ⟨⟨5, 2⟩, 9, 1000⟩
     ((withRoad ⟨.known, [⟨7, 1, 5⟩], [arrival], offer⟩).takePush 0 ⟨5, 1⟩ key5 7).yu.roads = [⟨.doubtful, [⟨7, 1, 20⟩], [], none⟩]
       ∧ ((withRoad ⟨.known, [⟨7, 1, 5⟩, ⟨8, 1, 6⟩], [], offer⟩).takePop 0 7).yu.roads = [⟨.doubtful, [⟨8, 1, 6⟩], [], none⟩]
       ∧ ((withRoad ⟨.doubtful, [⟨7, 1, 5⟩, ⟨8, 1, 6⟩], [], offer⟩).takePop 0 7).yu.roads
          = [⟨.doubtful, [⟨8, 1, 6⟩], [], offer⟩]) := by decide

/-- OffersHoldsAndCallers: a hold that ends, and a caller that restarts, announce the road (R154). -/
theorem test_gains_of_lost_callers :
    (let s := withRoad { roadOf [] with arrivals := [{ arrival with hold := some ⟨120000, 120000⟩ }] }
     ((after' { s with pending := [.holdTimerExpiry 0 0] }).map (fun t => (t.re.fromYu, t.fs.queue.map (·.kind))))
       = some ([.roadChange 0], [.roadChange])
     ∧ ((after' { s with pending := [.yuEpochChange 5], yu := { s.yu with peerNotices := [.epochChange 5 9 10] } }).map
         (fun t => (t.re.fromYu, t.fs.queue.map (·.kind)))) = some ([.roadChange 0], [.roadChange])) := by decide

/-- SoundImagesAreAccepted: an image that the checks accept, with a value that is clamped, and one with a failure of a route row. -/
theorem witness_sound_images :
    (let m : RawImage := (readBody (readBytes imageMem 0 13) (readBytes imageMem 13 3)).1
     m.sects.length = 1 ∧ 13 + wordAt (readBytes imageMem 0 13) 0 ≤ 2048
       ∧ structureOk (readBytes imageMem 0 13) 1 m = true)
    ∧ (let g : SignalCfg := ⟨true, false, false, none, none⟩
       let r : RawRoute := ⟨0, some .runOut, some .line, some .left, 5, 61, [⟨1, 0, false, []⟩]⟩
       let m : RawImage := ⟨[⟨false, .route, []⟩], [], [g], [], [], [r]⟩
       let h : List Byte := [0, 0, 1, 1, 0, 1, 0, 0, 1]
       structureOk h 1 m = true ∧ structureOk h 2 m = false
         ∧ structureOk h 1 { m with routes := [{ r with dir := some .right }] } = false
         ∧ structureOk h 1 { m with routes := [{ r with dest := some (.code 3) }] } = false
         ∧ clampsOf m = [⟨2, 0, 5, 10⟩, ⟨3, 0, 61, 60⟩]) := by decide +kernel

/-- EpochAdvances and ResetsKeepTheMemory: a good copy A beside a bad or an older copy B, and a bad copy A. -/
theorem witness_epoch_copies :
    (let badB := writeBytes imageMem 7952 [0, 0, 0]
     let olderB := writeBytes imageMem 7952 (encEpoch 40)
     let badA := writeBytes imageMem 7936 [0, 0, 0]
     epochCopy badB 7952 = none ∧ storedEpoch badB = some 41 ∧ storedEpoch olderB = some 41 ∧ epochCopy olderB 7952 = some 40
       ∧ epochCopy badA 7936 = none ∧ storedEpoch badA = some 41 ∧ Memory.wf badB = true ∧ Memory.wf badA = true)
    ∧ ((starting .epoch).mi.startup = .epoch ∧ EpochWrite.copyAFailed ≠ .confirmed ∧ EpochWrite.copyBFailed ≠ .confirmed) := by
  decide +kernel

theorem witness_command_answers : ∃ t, exec .stateTimer base = .next t := ⟨_, rfl⟩

end Sys2Proof.Tests
end

