-- ==== Sys2Proof/Proofs/Sections.lean ====
section
/-! PROOF. The readings and the state table of a section (O9, O10), and the idle step (O2). -/

namespace Sys2Proof.Proofs
open Sys2Proof.Machine Sys2Proof.Laws

/-- A single-channel section never reads DISAGREE (R7): only channel A counts. -/
theorem windowReading_single_ne_dis (a b : Bool) : windowReading true a b ≠ .dis := by
  cases a <;> simp [windowReading]

/-- Only a disagreement leads into DISTURBED (R9, R10). -/
theorem evaluate_not_disturbed {r : SectRec} {x : Reading} (hr : r.state ≠ .disturbed) (hx : x ≠ .dis) :
    (r.evaluate x).state ≠ .disturbed := by
  obtain ⟨st, c, d⟩ := r
  cases st with
  | disturbed => exact absurd rfl hr
  | clear => cases x <;> simp_all [SectRec.evaluate]
  | occupied =>
    cases x with
    | dis => exact absurd rfl hx
    | occ => simp [SectRec.evaluate]
    | clr => unfold SectRec.evaluate; split_ifs <;> simp

/-- A run that is below its limit goes on, and one that reaches it gives the change: the two spellings of a threshold. -/
theorem ite_threshold {α : Type} (n limit : Nat) (change goOn : α) :
    (if n ≥ limit then change else goOn) = if n < limit then goOn else change := by
  by_cases h : n < limit
  · rw [if_pos h, if_neg (by omega)]
  · rw [if_neg h, if_pos (by omega)]

/-- Settles O9: each row of R6 is one pair of channel levels. -/
theorem twoChannelReading : Obligations.TwoChannelReading :=
  ⟨rfl, rfl, rfl, rfl⟩

/-- Settles O10: the rows of R9 to R11, with their thresholds. -/
theorem sectionStateTable : Obligations.SectionStateTable := by
  intro c d
  refine ⟨rfl, rfl, ite_threshold _ _ _ _, rfl, ite_threshold _ _ _ _, ite_threshold _ _ _ _, rfl,
    ite_threshold _ _ _ _, rfl, ?_⟩
  intro st a b hst
  exact evaluate_not_disturbed hst (windowReading_single_ne_dis a b)

/-- 1 ms of a signal: a running trial counts toward its limit as any timer does (R37). -/
theorem SignalRec_tick_eq (r : SignalRec) : r.tick = { r with
    clearing := tickTimer r.clearing
    trial := r.trial.map (fun x => (x.1, ⟨min (x.2.elapsed + 1) x.2.limit, x.2.limit⟩)) } := by
  obtain ⟨_, _, _, _, _, _, trial, _⟩ := r
  cases trial <;> rfl

/-- While RESET is held, the millisecond changes nothing (R5, R171). -/
theorem tick_held {s : State} (h : s.mi.startup = .held) : s.tick = s := if_pos h

/-- Otherwise it advances the clocks and every block's timers. -/
theorem tick_running {s : State} (h : s.mi.startup ≠ .held) : s.tick = { s with
    time := s.time + 1
    windowMs := s.windowMs + 1
    fs := { s.fs with poolTimer := tickTimer s.fs.poolTimer }
    pt := { s.pt with listen := tickTimer s.pt.listen, stateMs := tickCount s.pt.stateMs }
    pu := { s.pu with points := s.pu.points.map PointRec.tick }
    su := { s.su with signals := s.su.signals.map SignalRec.tick }
    rq := { s.rq with points := s.rq.points.map ReqPoint.tick }
    re := { s.re with insts := s.re.insts.map (Option.map Inst.tick) }
    ct := { s.ct with records := s.ct.records.map (Option.map Claim.tick) }
    yu := { s.yu with roads := s.yu.roads.map RoadRec.tick } } := if_neg h

/-- On an empty queue a step is the tick (log entry 1). -/
theorem step_idle {s : State} (h : s.pending = []) : step s = .next s.tick := by
  simp only [step, h]

/-- Settles O2: the idle step is the tick, and each record's tick is the one the statement writes out. -/
theorem idleStepIsOneMillisecond : Obligations.IdleStepIsOneMillisecond := by
  intro s hs
  refine ⟨fun h => ?_, fun h => ⟨s.tick, step_idle hs, ?_⟩⟩
  · rw [step_idle hs, tick_held h]
  · have signals : s.su.signals.map SignalRec.tick = s.su.signals.map (fun r => { r with
        clearing := tickTimer r.clearing
        trial := r.trial.map (fun x => (x.1, ⟨min (x.2.elapsed + 1) x.2.limit, x.2.limit⟩)) }) :=
      List.map_congr_left fun r _ => SignalRec_tick_eq r
    rw [tick_running h]
    exact ⟨rfl, rfl, rfl, rfl, rfl, congrArg (fun l => { s.su with signals := l }) signals, rfl, rfl, rfl, rfl, rfl⟩

end Sys2Proof.Proofs
end

