-- ==== Sys2Proof/Proofs/WindowEnd.lean ====
section
/-! PROOF. WINDOW_END (O57): what one section's evaluation does, how the evaluations of all sections combine, and the windows that do not
evaluate. -/

namespace Sys2Proof.Proofs
open Sys2Proof.Machine Sys2Proof.Laws

/-! ### Running an operation for each item -/

/-- What the operation of every item preserves, `forEach` preserves. -/
theorem forEach_preserves {α : Type} {P : State → Prop} {f : α → State → State} {l : List α} (h : ∀ x ∈ l, ∀ s, P s → P (f x s))
    {s : State} (hs : P s) : P (forEach l f s) := by
  induction l generalizing s with
  | nil => exact hs
  | cons x xs ih => exact ih (fun y hy => h y (List.mem_cons_of_mem x hy)) (h x List.mem_cons_self s hs)

/-- Where item `j` comes once, its operation leads from `P` to `Q`, and every other one preserves both, `forEach` leads from `P` to `Q`. -/
theorem forEach_reaches {α : Type} {P Q : State → Prop} {f : α → State → State} {j : α}
    (before : ∀ k s, k ≠ j → P s → P (f k s)) (own : ∀ s, P s → Q (f j s)) (after : ∀ k s, k ≠ j → Q s → Q (f k s))
    {l : List α} (hl : l.Nodup) (hj : j ∈ l) {s : State} (hs : P s) : Q (forEach l f s) := by
  induction l generalizing s with
  | nil => simp at hj
  | cons k ks ih =>
    obtain ⟨hk, hks⟩ := List.nodup_cons.mp hl
    rcases List.mem_cons.mp hj with rfl | hj
    · exact forEach_preserves (fun x hx s => after x s (ne_of_mem_of_not_mem hx hk)) (own s hs)
    · exact ih hks hj (before k s (ne_of_mem_of_not_mem hj hk).symm hs)

/-- Operations that are the same for every item run the same. -/
theorem forEach_congr {α : Type} {l : List α} {f g : α → State → State} (h : ∀ x ∈ l, f x = g x) (s : State) :
    forEach l f s = forEach l g s := by
  induction l generalizing s with
  | nil => rfl
  | cons x xs ih => rw [forEach, forEach, h x List.mem_cons_self, ih fun y hy => h y (List.mem_cons_of_mem x hy)]

/-! ### Events sent by RP -/

/-- The state `u` with the DU, the CT, the PU, the RE and the YU of `v`: the blocks that the evaluation of the sections changes. -/
def withSectBlocks (v u : State) : State :=
  { u with du := v.du, ct := v.ct, pu := v.pu, re := v.re, yu := v.yu }

/-- FS takes a frame into its own block and the counters alone. -/
theorem send_eq (s : State) (kind : Kind) (dest : Nat) (l : List Byte) :
    s.send kind dest l = { s with fs := (s.send kind dest l).fs, cnt := (s.send kind dest l).cnt } := by
  unfold State.send
  (repeat' split) <;> rfl

/-- FS takes a frame whatever those blocks hold. -/
theorem withSectBlocks_send (v u : State) (kind : Kind) (dest : Nat) (l : List Byte) :
    withSectBlocks v (u.send kind dest l) = (withSectBlocks v u).send kind dest l := by
  rw [send_eq u, send_eq (withSectBlocks v u), send_fs_congr (s := withSectBlocks v u) (t := u) rfl rfl,
    send_cnt_congr (s := withSectBlocks v u) (t := u) rfl rfl rfl]
  rfl

/-- So does RP send an EVENT. -/
theorem withSectBlocks_eventSent (v u : State) (kind : Nat) (fields : List Byte) :
    withSectBlocks v (u.eventSent kind fields) = (withSectBlocks v u).eventSent kind fields :=
  withSectBlocks_send v _ _ _ _

/-- RP sends an EVENT with its own serial, through FS and the counters alone. -/
theorem eventSent_eq (s : State) (kind : Nat) (fields : List Byte) : s.eventSent kind fields = { s with
    fs := (s.eventSent kind fields).fs, cnt := (s.eventSent kind fields).cnt, rp := (s.eventSent kind fields).rp } := by
  unfold State.eventSent
  rw [send_eq]

/-! ### One section in a window (R6 to R15) -/

/-- What section `k` holds after the window with the levels `l`. -/
def sectAfter (l : Levels) (k : Nat) (c : SectCfg) (r : SectRec) : SectRec :=
  r.evaluate (windowReading c.single (l.chanA.getLsbD k) (l.chanB.getLsbD k))

/-- The notice of section `k` (R14), where its state changes. -/
def sectNotice (l : Levels) (s : State) (k : Nat) : Option SectNotice :=
  match s.yard.sects[k]?, s.du.sects[k]? with
  | some c, some r =>
    if (sectAfter l k c r).state = r.state then none else some ⟨k, r.state, (sectAfter l k c r).state, s.windowEndTime⟩
  | _, _ => none

/-- DU after section `k` is evaluated (R8 to R11, R13). -/
def sectDu (l : Levels) (s : State) (k : Nat) : DU :=
  match s.yard.sects[k]?, s.du.sects[k]? with
  | some c, some r => ⟨s.du.sects.modify k (fun _ => sectAfter l k c r),
      if (sectAfter l k c r).state = .disturbed ∧ r.state ≠ .disturbed then s.du.disturb.modify k bump else s.du.disturb⟩
  | _, _ => s.du

/-- The report of section `k` (R15) where the window takes it into DISTURBED, offered in the state `u`; `s` is the state that the window
finds. -/
def disturbReport (l : Levels) (s : State) (k : Nat) (u : State) : State :=
  match s.yard.sects[k]?, s.du.sects[k]? with
  | some c, some r =>
    if (sectAfter l k c r).state = .disturbed ∧ r.state ≠ .disturbed then
      u.eventSent 4 ([byte k, byte r.state.code] ++ bytes2 ((s.du.disturb.modify k bump).getD k 0).toNat)
    else u
  | _, _ => u

/-- Section `k` evaluated, without its report: DU's record and counter, and the notice to CT, PU, RE and YU. -/
def sectNoted (l : Levels) (s : State) (k : Nat) : State :=
  { s with
    du := sectDu l s k
    ct := { s.ct with notices := s.ct.notices ++ (sectNotice l s k).toList }
    pu := { s.pu with notices := s.pu.notices ++ (sectNotice l s k).toList }
    re := { s.re with notices := s.re.notices ++ (sectNotice l s k).toList }
    yu := { s.yu with notices := s.yu.notices ++ (sectNotice l s k).toList } }

/-- The evaluation of a section is its change, its notices and its report. -/
theorem evaluateSect_eq (l : Levels) (k : Nat) (s : State) :
    State.evaluateSect l k s = disturbReport l s k (sectNoted l s k) := by
  unfold State.evaluateSect disturbReport sectNoted sectDu sectNotice
  cases hc : s.yard.sects[k]? with
  | none => simp
  | some c =>
    cases hr : s.du.sects[k]? with
    | none => simp
    | some r =>
      dsimp only
      rw [← sectAfter]
      by_cases same : (sectAfter l k c r).state = r.state
      · have hd : ¬ ((sectAfter l k c r).state = .disturbed ∧ r.state ≠ .disturbed) := fun h => h.2 (same ▸ h.1)
        rw [if_pos same, if_neg hd, if_neg hd, if_pos same]
        simp [State.modSect]
      · by_cases dist : (sectAfter l k c r).state = .disturbed
        · have hd : (sectAfter l k c r).state = .disturbed ∧ r.state ≠ .disturbed := ⟨dist, fun h => same (dist.trans h.symm)⟩
          rw [if_neg same, if_pos dist, if_pos hd, if_pos hd, if_neg same]
          rfl
        · have hd : ¬ ((sectAfter l k c r).state = .disturbed ∧ r.state ≠ .disturbed) := fun h => dist h.1
          rw [if_neg same, if_neg dist, if_neg hd, if_neg hd, if_neg same]
          rfl

/-- A report changes FS, the counters and RP alone. -/
theorem disturbReport_eq (l : Levels) (s : State) (k : Nat) (u : State) : disturbReport l s k u = { u with
    fs := (disturbReport l s k u).fs, cnt := (disturbReport l s k u).cnt, rp := (disturbReport l s k u).rp } := by
  unfold disturbReport
  split
  · split
    · rw [eventSent_eq]
    · rfl
  · rfl

/-- A report is the same whatever the blocks hold that the evaluation of the sections changes. -/
theorem withSectBlocks_disturbReport (v : State) (l : Levels) (s : State) (k : Nat) (u : State) :
    withSectBlocks v (disturbReport l s k u) = disturbReport l s k (withSectBlocks v u) := by
  unfold disturbReport
  split
  · split
    · exact withSectBlocks_eventSent v u _ _
    · rfl
  · rfl

/-- What the evaluation of a section makes of the blocks it changes. -/
theorem evaluateSect_blocks (l : Levels) (k : Nat) (s : State) :
    (State.evaluateSect l k s).du = sectDu l s k
    ∧ (State.evaluateSect l k s).ct = { s.ct with notices := s.ct.notices ++ (sectNotice l s k).toList }
    ∧ (State.evaluateSect l k s).pu = { s.pu with notices := s.pu.notices ++ (sectNotice l s k).toList }
    ∧ (State.evaluateSect l k s).re = { s.re with notices := s.re.notices ++ (sectNotice l s k).toList }
    ∧ (State.evaluateSect l k s).yu = { s.yu with notices := s.yu.notices ++ (sectNotice l s k).toList } := by
  rw [evaluateSect_eq, disturbReport_eq]
  exact ⟨rfl, rfl, rfl, rfl, rfl⟩

/-- With the blocks it changes laid aside, the evaluation of a section is its report. -/
theorem withSectBlocks_evaluateSect (v : State) (l : Levels) (k : Nat) (s : State) :
    withSectBlocks v (State.evaluateSect l k s) = disturbReport l s k (withSectBlocks v s) := by
  rw [evaluateSect_eq, withSectBlocks_disturbReport]
  rfl

/-! ### One section among the others -/

/-- The evaluation of a section leaves the record and the counter of every other one. -/
theorem sectDu_other {l : Levels} {s : State} {j k : Nat} (h : j ≠ k) :
    (sectDu l s j).sects[k]? = s.du.sects[k]? ∧ (sectDu l s j).disturb[k]? = s.du.disturb[k]? := by
  unfold sectDu
  split
  · refine ⟨List.getElem?_modify_ne _ _ h, ?_⟩
    split
    · exact List.getElem?_modify_ne _ _ h
    · rfl
  · exact ⟨rfl, rfl⟩

/-- Its own record becomes the evaluated one, and its counter advances on the entry into DISTURBED alone (R13). -/
theorem sectDu_own {l : Levels} {s : State} {k : Nat} {c : SectCfg} {r : SectRec} (hc : s.yard.sects[k]? = some c)
    (hr : s.du.sects[k]? = some r) :
    (sectDu l s k).sects[k]? = some (sectAfter l k c r)
    ∧ (sectDu l s k).disturb[k]? = (if (sectAfter l k c r).state = .disturbed ∧ r.state ≠ .disturbed
        then (s.du.disturb[k]?).map bump else s.du.disturb[k]?) := by
  unfold sectDu
  rw [hc, hr]
  refine ⟨?_, ?_⟩
  · simp [hr]
  · dsimp only
    split
    · simp
    · rfl

/-- A section that is not configured keeps its record and its counter. -/
theorem sectDu_unconfigured {l : Levels} {s : State} {k : Nat} (h : s.yard.sects[k]? = none ∨ s.du.sects[k]? = none) :
    sectDu l s k = s.du := by
  unfold sectDu
  split
  · simp_all
  · rfl

/-- Two states hold the same of section `k`: its configuration, its record, its counter, and the end of the window. -/
structure AgreeAt (k : Nat) (s u : State) : Prop where
  yard : u.yard = s.yard
  sect : u.du.sects[k]? = s.du.sects[k]?
  disturb : u.du.disturb[k]? = s.du.disturb[k]?
  windowEnd : u.windowEndTime = s.windowEndTime

/-- The notice of a section depends on what the state holds of it. -/
theorem sectNotice_congr {k : Nat} {s u : State} (h : AgreeAt k s u) (l : Levels) : sectNotice l u k = sectNotice l s k := by
  unfold sectNotice
  rw [h.yard, h.sect, h.windowEnd]

/-- So does its report. -/
theorem disturbReport_congr {k : Nat} {s u : State} (h : AgreeAt k s u) (l : Levels) : disturbReport l u k = disturbReport l s k := by
  have counter : (u.du.disturb.modify k bump).getD k 0 = (s.du.disturb.modify k bump).getD k 0 := by
    simp [List.getD_eq_getElem?_getD, h.disturb]
  unfold disturbReport
  rw [h.yard, h.sect, counter]

/-- The evaluation of one section leaves what the state holds of every other one. -/
theorem agreeAt_evaluateSect {j k : Nat} (h : j ≠ k) (l : Levels) (s : State) : AgreeAt k s (State.evaluateSect l j s) := by
  obtain ⟨hsect, hdist⟩ := sectDu_other (l := l) (s := s) h
  obtain ⟨hdu, -⟩ := evaluateSect_blocks l j s
  exact ⟨by simp, by rw [hdu, hsect], by rw [hdu, hdist], by simp [State.windowEndTime]⟩

/-! ### All sections in a window -/

/-- The notices of the sections `ks` go to each of CT, PU, RE and YU, in their order (R14). -/
theorem evaluateSects_notices (l : Levels) (ks : List Nat) (hks : ks.Nodup) (s : State) :
    (forEach ks (State.evaluateSect l) s).ct = { s.ct with notices := s.ct.notices ++ ks.filterMap (sectNotice l s) }
    ∧ (forEach ks (State.evaluateSect l) s).pu = { s.pu with notices := s.pu.notices ++ ks.filterMap (sectNotice l s) }
    ∧ (forEach ks (State.evaluateSect l) s).re = { s.re with notices := s.re.notices ++ ks.filterMap (sectNotice l s) }
    ∧ (forEach ks (State.evaluateSect l) s).yu = { s.yu with notices := s.yu.notices ++ ks.filterMap (sectNotice l s) } := by
  induction ks generalizing s with
  | nil => simp [forEach]
  | cons k ks ih =>
    obtain ⟨hk, hks⟩ := List.nodup_cons.mp hks
    have others : ks.filterMap (sectNotice l (State.evaluateSect l k s)) = ks.filterMap (sectNotice l s) :=
      List.filterMap_congr fun j hj => sectNotice_congr (agreeAt_evaluateSect (ne_of_mem_of_not_mem hj hk).symm l s) l
    have append : (sectNotice l s k).toList ++ ks.filterMap (sectNotice l s) = (k :: ks).filterMap (sectNotice l s) := by
      cases h : sectNotice l s k <;> simp [h]
    obtain ⟨-, hct, hpu, hre, hyu⟩ := evaluateSect_blocks l k s
    obtain ⟨ict, ipu, ire, iyu⟩ := ih hks (State.evaluateSect l k s)
    rw [forEach, ict, ipu, ire, iyu, hct, hpu, hre, hyu, others, ← append]
    simp only [List.append_assoc, and_self]

/-- With the blocks that change laid aside, the evaluation of the sections `ks` is their reports, in their order (R15). -/
theorem withSectBlocks_evaluateSects (v : State) (l : Levels) (ks : List Nat) (hks : ks.Nodup) (s : State) :
    withSectBlocks v (forEach ks (State.evaluateSect l) s) = forEach ks (disturbReport l s) (withSectBlocks v s) := by
  induction ks generalizing s with
  | nil => rfl
  | cons k ks ih =>
    obtain ⟨hk, hks⟩ := List.nodup_cons.mp hks
    rw [forEach, ih hks, withSectBlocks_evaluateSect, forEach]
    exact forEach_congr (fun j hj => disturbReport_congr (agreeAt_evaluateSect (ne_of_mem_of_not_mem hj hk).symm l s) l) _

/-- Each configured section of `ks` evaluates its own reading once. -/
theorem evaluateSects_configured {l : Levels} {ks : List Nat} (hks : ks.Nodup) {k : Nat} (hk : k ∈ ks) {s : State} {c : SectCfg}
    {r : SectRec} (hc : s.yard.sects[k]? = some c) (hr : s.du.sects[k]? = some r) :
    (forEach ks (State.evaluateSect l) s).du.sects[k]? = some (sectAfter l k c r)
    ∧ (forEach ks (State.evaluateSect l) s).du.disturb[k]? =
        (if (sectAfter l k c r).state = .disturbed ∧ r.state ≠ .disturbed then (s.du.disturb[k]?).map bump else s.du.disturb[k]?) := by
  refine forEach_reaches (P := AgreeAt k s) (Q := fun u => u.du.sects[k]? = some (sectAfter l k c r) ∧ u.du.disturb[k]? = _)
    (fun j u hj hu => ?_) (fun u hu => ?_) (fun j u hj hu => ?_) hks hk ⟨rfl, rfl, rfl, rfl⟩
  · have := agreeAt_evaluateSect hj l u
    exact ⟨this.yard.trans hu.yard, this.sect.trans hu.sect, this.disturb.trans hu.disturb, this.windowEnd.trans hu.windowEnd⟩
  · rw [(evaluateSect_blocks l k u).1, ← hu.disturb]
    exact sectDu_own (hu.yard ▸ hc) (hu.sect ▸ hr)
  · have := agreeAt_evaluateSect hj l u
    exact ⟨this.sect.trans hu.1, this.disturb.trans hu.2⟩

/-- A section that is not configured keeps its record and its counter. -/
theorem evaluateSects_unconfigured {l : Levels} (ks : List Nat) {k : Nat} {s : State}
    (h : s.yard.sects[k]? = none ∨ s.du.sects[k]? = none) : AgreeAt k s (forEach ks (State.evaluateSect l) s) := by
  refine forEach_preserves (P := AgreeAt k s) (fun j _ u hu => ?_) ⟨rfl, rfl, rfl, rfl⟩
  have step : AgreeAt k u (State.evaluateSect l j u) := by
    by_cases hj : j = k
    · subst hj
      have hdu : (State.evaluateSect l j u).du = u.du := by
        rw [(evaluateSect_blocks l j u).1, sectDu_unconfigured (by rwa [hu.yard, hu.sect])]
      exact ⟨by simp, by rw [hdu], by rw [hdu], by simp [State.windowEndTime]⟩
    · exact agreeAt_evaluateSect hj l u
  exact ⟨step.yard.trans hu.yard, step.sect.trans hu.sect, step.disturb.trans hu.disturb, step.windowEnd.trans hu.windowEnd⟩

/-! ### WINDOW_END -/

/-- WINDOW_END once 20 ms have run, RESET released. -/
theorem exec_windowEnd {l : Levels} {s : State} (hs : s.mi.startup ≠ .held) (hw : 20 ≤ s.windowMs) :
    exec (.windowEnd l) s = .next (s.windowEnds l) := if_pos ⟨hs, hw⟩

/-- Before that, or while RESET is held, it changes nothing. -/
theorem exec_windowEnd_not_due {l : Levels} {s : State} (h : s.mi.startup = .held ∨ s.windowMs < 20) :
    exec (.windowEnd l) s = .next s := if_neg fun ⟨hs, (hw : 20 ≤ s.windowMs)⟩ => h.elim hs (by omega)

/-- A window that evaluates: the exchange, the readings, and then the sections in rising index. -/
theorem windowEnds_evaluating {l : Levels} {s : State} (ha : s.pt.mode.active = true) (ho : s.oldWindows = 0) :
    s.windowEnds l = forEach (List.range s.du.sects.length) (State.evaluateSect l) (s.exchange.giveReadings l) := by
  unfold State.windowEnds
  rw [if_pos (by simpa using ha), if_pos (by simpa using ho)]
  simp

/-- The notices of all sections, in rising index, are the changes that the statement names. -/
theorem sectChanges_eq (l : Levels) (s : State) :
    sectChanges l s = (List.range s.du.sects.length).filterMap (sectNotice l (s.exchange.giveReadings l)) := by
  refine List.filterMap_congr fun k _ => ?_
  unfold sectNotice
  rw [show (s.exchange.giveReadings l).yard.sects[k]? = s.yard.sects[k]? from rfl,
    show (s.exchange.giveReadings l).du.sects[k]? = s.du.sects[k]? from rfl]
  cases s.yard.sects[k]? with
  | none => rfl
  | some c =>
    cases s.du.sects[k]? with
    | none => rfl
    | some r => rfl

/-- What a window that evaluates leaves of the clock, the outputs and the signals, and how its end state follows from its reports. -/
theorem windowEnds_reports {l : Levels} {s : State} (ha : s.pt.mode.active = true) (ho : s.oldWindows = 0) :
    (s.windowEnds l).windowMs = s.exchange.windowMs ∧ (s.windowEnds l).field = s.exchange.field
    ∧ (s.windowEnds l).su = (s.exchange.giveReadings l).su
    ∧ s.windowEnds l = forEach (List.range s.du.sects.length) (disturbReport l s)
        (withSectBlocks (s.windowEnds l) (s.exchange.giveReadings l)) := by
  have reports := withSectBlocks_evaluateSects (s.windowEnds l) l (List.range s.du.sects.length) List.nodup_range
    (s.exchange.giveReadings l)
  rw [← windowEnds_evaluating ha ho] at reports
  refine ⟨?_, ?_, ?_, reports⟩
  · rw [windowEnds_evaluating ha ho]
    exact forEach_windowMs _ _ _ (by simp)
  · rw [windowEnds_evaluating ha ho]
    exact forEach_field _ _ _ (by simp)
  · rw [windowEnds_evaluating ha ho]
    exact forEach_su _ _ _ (by simp)

/-- The window that evaluates, with all it does. -/
theorem windowEndEvaluatesEverySection : Clause.WindowEndEvaluatesEverySection := by
  intro l s hs hw ha ho
  have nodup : (List.range s.du.sects.length).Nodup := List.nodup_range
  obtain ⟨hct, hpu, hre, hyu⟩ := evaluateSects_notices l _ nodup (s.exchange.giveReadings l)
  obtain ⟨hwindow, hfield, hsu, reports⟩ := windowEnds_reports (l := l) ha ho
  have configured := fun k hk c r => evaluateSects_configured (l := l) (k := k) (c := c) (r := r) (s := s.exchange.giveReadings l) nodup hk
  have unconfigured := fun k => evaluateSects_unconfigured (l := l) (k := k) (s := s.exchange.giveReadings l)
    (List.range s.du.sects.length)
  rw [← windowEnds_evaluating ha ho] at hct hpu hre hyu configured unconfigured
  rw [← sectChanges_eq] at hct hpu hre hyu
  have hexec := exec_windowEnd (l := l) hs hw
  generalize s.windowEnds l = t at *
  refine ⟨t, hexec, hwindow, hfield, ?_, ?_, hct, hre, hyu, hpu, hsu, ?_⟩
  · intro k c r hc hr
    exact configured k (List.mem_range.mpr (List.getElem?_eq_some_iff.mp hr).1) c r hc hr
  · intro k hk
    exact ⟨(unconfigured k hk).sect, (unconfigured k hk).disturb⟩
  · have start : withSectBlocks t (s.exchange.giveReadings l) = { s with
        windowMs := t.windowMs, field := t.field, du := t.du, ct := t.ct, re := t.re, yu := t.yu, pu := t.pu, su := t.su } := by
      rw [hwindow, hfield, hsu]
      rfl
    rw [start] at reports
    refine reports.trans (forEach_congr (fun k _ => ?_) _)
    unfold disturbReport
    cases s.yard.sects[k]? with
    | none => rfl
    | some c =>
      cases s.du.sects[k]? with
      | none => rfl
      | some r => rfl

/-- WINDOW_END where no section is evaluated. -/
theorem windowsWithoutEvaluation : Clause.WindowsWithoutEvaluation := by
  intro l s
  refine ⟨exec_windowEnd_not_due, fun hs hw => ⟨fun ha => ?_, fun ha ho => ?_⟩⟩
  · rw [exec_windowEnd hs hw, State.windowEnds, if_neg (by simp [ha])]
    rfl
  · rw [exec_windowEnd hs hw, State.windowEnds, if_pos (by simpa using ha), if_neg (by simp; omega)]
    rfl

/-- Settles O57: the window that evaluates, and those that do not. -/
theorem windowEndTable : Obligations.WindowEndTable :=
  ⟨windowEndEvaluatesEverySection, windowsWithoutEvaluation⟩

end Sys2Proof.Proofs
end

