-- ==== Sys2Proof/Proofs/Memory.lean ====
section
/-! PROOF. Reading back the configuration memory after a write: runs of bytes, epoch copies, and records with a bad check
(R175, R177, R181). -/

namespace Sys2Proof.Proofs
open Sys2Proof.Machine Sys2Proof.Laws

/-! ### Runs of bytes -/

@[simp] theorem readBytes_length (m : List Host.Cell) (a n : Nat) : (readBytes m a n).length = n := by
  induction n generalizing a with
  | zero => rfl
  | succ n ih => rw [readBytes, List.length_cons, ih]

/-- Byte `i` of a run is the byte at its address. -/
theorem readBytes_getElem? (m : List Host.Cell) (a n i : Nat) (h : i < n) : (readBytes m a n)[i]? = some (readByte m (a + i)) := by
  induction n generalizing a i with
  | zero => omega
  | succ n ih =>
    cases i with
    | zero => rfl
    | succ i => rw [readBytes, List.getElem?_cons_succ, ih _ _ (by omega), Nat.add_assoc, Nat.add_comm 1 i]

/-- A run depends on its own bytes alone. -/
theorem readBytes_congr {m m' : List Host.Cell} {a n : Nat} (h : ∀ i < n, readByte m' (a + i) = readByte m (a + i)) :
    readBytes m' a n = readBytes m a n := by
  refine List.ext_getElem? fun i => ?_
  by_cases hi : i < n
  · rw [readBytes_getElem? _ _ _ _ hi, readBytes_getElem? _ _ _ _ hi, h i hi]
  · rw [List.getElem?_eq_none (by simp; omega), List.getElem?_eq_none (by simp; omega)]

/-- A write leaves every byte outside it. -/
theorem readByte_writeBytes_outside {m : List Host.Cell} {a x : Nat} {l : List Byte} (h : Memory.wf m = true)
    (ha : a + l.length ≤ Config.memoryBytes) (hx : x < a ∨ a + l.length ≤ x) : readByte (writeBytes m a l) x = readByte m x := by
  rw [readByte_writeBytes h ha]
  split
  next b hb =>
    exfalso
    split at hb
    · rw [List.getElem?_eq_none (by omega)] at hb
      cases hb
    · cases hb
  next => rfl

/-- A run outside a write reads as before. -/
theorem readBytes_writeBytes_outside {m : List Host.Cell} {a b n : Nat} {l : List Byte} (h : Memory.wf m = true)
    (ha : a + l.length ≤ Config.memoryBytes) (hb : b + n ≤ a ∨ a + l.length ≤ b) :
    readBytes (writeBytes m a l) b n = readBytes m b n :=
  readBytes_congr fun _ _ => readByte_writeBytes_outside h ha (by omega)

/-- What is written reads back. -/
theorem readBytes_writeBytes {m : List Host.Cell} {a : Nat} {l : List Byte} (h : Memory.wf m = true)
    (ha : a + l.length ≤ Config.memoryBytes) : readBytes (writeBytes m a l) a l.length = l := by
  refine List.ext_getElem? fun i => ?_
  by_cases hi : i < l.length
  · rw [readBytes_getElem? _ _ _ _ hi, readByte_writeBytes h ha, if_pos (Nat.le_add_right a i), Nat.add_sub_cancel_left,
      List.getElem?_eq_getElem hi]
  · rw [List.getElem?_eq_none (by simp; omega), List.getElem?_eq_none (by omega)]

/-! ### Records with a bad check -/

@[simp] theorem freeBytes_length (k n : Nat) : (freeBytes k n).length = n := by
  induction n generalizing k with
  | zero => rfl
  | succ n ih => rw [freeBytes, List.length_cons, ih]

@[simp] theorem badRecord_length (k n : Nat) : (badRecord k n).length = n + 1 := by
  simp [badRecord]

/-- The check byte of a bad record is another one than its bytes ask for. -/
theorem badRecord_check (k n : Nat) : (badRecord k n)[n]? ≠ some (checkByte ((badRecord k n).take n)) := by
  have body : (badRecord k n).take n = freeBytes k n := by simp [badRecord]
  have last : (badRecord k n)[n]? = some (checkByte (freeBytes k n) + 1 + BitVec.ofNat 8 (Config.freeChoice (k + n) % 255)) := by
    simp [badRecord]
  rw [body, last, Ne, Option.some.injEq]
  generalize checkByte (freeBytes k n) = c
  have hlt : Config.freeChoice (k + n) % 255 < 255 := Nat.mod_lt _ (by decide)
  generalize Config.freeChoice (k + n) % 255 = d at hlt
  bv_omega

/-! ### Epoch copies (R175, R181) -/

@[simp] theorem encEpoch_length (e : Epoch) : (encEpoch e).length = 3 := rfl

/-- An epoch copy depends on its three bytes alone. -/
theorem epochCopy_congr {m m' : List Host.Cell} {a : Nat} (h : readBytes m' a 3 = readBytes m a 3) : epochCopy m' a = epochCopy m a := by
  unfold epochCopy
  rw [h]

/-- A copy outside a write stays as it was. -/
theorem epochCopy_writeBytes_outside {m : List Host.Cell} {a b : Nat} {l : List Byte} (h : Memory.wf m = true)
    (ha : a + l.length ≤ Config.memoryBytes) (hb : b + 3 ≤ a ∨ a + l.length ≤ b) :
    epochCopy (writeBytes m a l) b = epochCopy m b :=
  epochCopy_congr (readBytes_writeBytes_outside h ha hb)

/-- A copy that is written holds its epoch. -/
theorem epochCopy_encEpoch {m : List Host.Cell} {a : Nat} (e : Epoch) (h : Memory.wf m = true) (ha : a + 3 ≤ Config.memoryBytes) :
    epochCopy (writeBytes m a (encEpoch e)) a = some e := by
  have back : readBytes (writeBytes m a (encEpoch e)) a 3 = encEpoch e := readBytes_writeBytes h (by simpa using ha)
  have check : checkByte ((encEpoch e).take 2) = byte (byteAt (encEpoch e) 2) := by
    simp [encEpoch, bytes2, byteAt, byte]
  have value : wordAt (encEpoch e) 0 = e.toNat := wordAt_bytes2 _ e.isLt _
  unfold epochCopy
  rw [back]
  dsimp only
  rw [if_pos check, value, BitVec.ofNat_toNat, BitVec.setWidth_eq]

/-- A copy with a bad check holds none. -/
theorem epochCopy_badRecord {m : List Host.Cell} {a : Nat} (k : Nat) (h : Memory.wf m = true) (ha : a + 3 ≤ Config.memoryBytes) :
    epochCopy (writeBytes m a (badRecord k 2)) a = none := by
  have back : readBytes (writeBytes m a (badRecord k 2)) a 3 = badRecord k 2 := by
    simpa using readBytes_writeBytes (l := badRecord k 2) h (by simpa using ha)
  have bad := badRecord_check k 2
  have byteBack : (badRecord k 2)[2]? = some (byte (byteAt (badRecord k 2) 2)) := by
    simp [byteAt, byte]
  unfold epochCopy
  rw [back]
  exact if_neg (fun hcheck => bad (byteBack.trans (congrArg some (Eq.symm hcheck))))

/-- The stored epoch is that of copy A where its check is good. -/
theorem storedEpoch_of_copyA {m : List Host.Cell} {e : Epoch} (h : epochCopy m epochAddrA = some e) : storedEpoch m = some e := by
  unfold storedEpoch
  rw [h]

/-- Otherwise it is that of copy B. -/
theorem storedEpoch_of_badA {m : List Host.Cell} (h : epochCopy m epochAddrA = none) : storedEpoch m = epochCopy m epochAddrB := by
  unfold storedEpoch
  rw [h]
  cases epochCopy m epochAddrB <;> rfl

end Sys2Proof.Proofs
end

