-- ==== Sys2Proof/Proofs/Resets.lean ====
section
/-! PROOF. The resets (O54): the values they leave, and what they leave of a memory write in hand (R171, R175, R177). -/

namespace Sys2Proof.Proofs
open Sys2Proof.Machine Sys2Proof.Laws

/-! ### A write that a reset cuts -/

/-- What a reset may leave of a road write (R177). -/
theorem tornRoad_cases (mem : List Host.Cell) (k r : Nat) :
    tornRoad mem k r = mem ∨ tornRoad mem k r = writeBytes mem (roadAddr r) (badRecord (k + 1) 34) := by
  unfold tornRoad
  split
  · exact Or.inl rfl
  · exact Or.inr rfl

/-- What a reset may leave of an epoch write (R175): nothing written, a bad copy A, copy A written, or copy B bad after that. -/
theorem tornEpoch_cases {mem : List Host.Cell} {e : Epoch} (h : storedEpoch mem = some e) (k : Nat) :
    tornEpoch mem k = mem
    ∨ tornEpoch mem k = writeBytes mem epochAddrA (badRecord (k + 1) 2)
    ∨ tornEpoch mem k = writeBytes mem epochAddrA (encEpoch (e + 1))
    ∨ tornEpoch mem k = writeBytes (writeBytes mem epochAddrA (encEpoch (e + 1))) epochAddrB (badRecord (k + 1) 2) := by
  unfold tornEpoch
  rw [h]
  dsimp only
  split
  · exact Or.inl rfl
  · exact Or.inr (Or.inl rfl)
  · exact Or.inr (Or.inr (Or.inl rfl))
  · exact Or.inr (Or.inr (Or.inr rfl))

/-- No stored epoch, no epoch write: the memory stays. -/
theorem tornEpoch_none {mem : List Host.Cell} (h : storedEpoch mem = none) (k : Nat) : tornEpoch mem k = mem := by
  unfold tornEpoch
  rw [h]

/-- A reset inside a road write touches that record alone, and leaves it as it stood or with a bad check. -/
theorem tornRoad_record {mem : List Host.Cell} (hm : Memory.wf mem = true) {r : Nat} (hr : r < 4) (k : Nat) :
    (∀ a, a < roadAddr r ∨ roadAddr r + 35 ≤ a → readByte (tornRoad mem k r) a = readByte mem a)
    ∧ (readBytes (tornRoad mem k r) (roadAddr r) 35 = readBytes mem (roadAddr r) 35
      ∨ (readBytes (tornRoad mem k r) (roadAddr r) 35)[34]?
          ≠ some (checkByte ((readBytes (tornRoad mem k r) (roadAddr r) 35).take 34))) := by
  have fits : roadAddr r + (badRecord (k + 1) 34).length ≤ Config.memoryBytes := by
    simp only [roadAddr, badRecord_length, Config.memoryBytes]
    omega
  rcases tornRoad_cases mem k r with h | h <;> rw [h]
  · exact ⟨fun _ _ => rfl, Or.inl rfl⟩
  · refine ⟨fun a ha => readByte_writeBytes_outside hm fits (by simpa using ha), Or.inr ?_⟩
    have back := readBytes_writeBytes hm fits
    rw [badRecord_length] at back
    rw [back]
    exact badRecord_check _ _

/-- An epoch copy fits the memory. -/
theorem epochCopies_fit : epochAddrA + 3 ≤ Config.memoryBytes ∧ epochAddrB + 3 ≤ Config.memoryBytes := by decide

/-- A reset inside the epoch write leaves the old epoch, the new one, or a bad copy A with copy B as it stood. -/
theorem tornEpoch_epoch {mem : List Host.Cell} (hm : Memory.wf mem = true) {e : Epoch} (he : storedEpoch mem = some e) (k : Nat) :
    storedEpoch (tornEpoch mem k) = some e ∨ storedEpoch (tornEpoch mem k) = some (e + 1)
      ∨ (epochCopy (tornEpoch mem k) epochAddrA = none ∧ epochCopy (tornEpoch mem k) epochAddrB = epochCopy mem epochAddrB
          ∧ storedEpoch (tornEpoch mem k) = epochCopy mem epochAddrB) := by
  obtain ⟨fitA, fitB⟩ := epochCopies_fit
  have newA : epochCopy (writeBytes mem epochAddrA (encEpoch (e + 1))) epochAddrA = some (e + 1) := epochCopy_encEpoch _ hm fitA
  rcases tornEpoch_cases he k with h | h | h | h <;> rw [h]
  · exact Or.inl he
  · have badA : epochCopy (writeBytes mem epochAddrA (badRecord (k + 1) 2)) epochAddrA = none := epochCopy_badRecord _ hm fitA
    have keptB : epochCopy (writeBytes mem epochAddrA (badRecord (k + 1) 2)) epochAddrB = epochCopy mem epochAddrB :=
      epochCopy_writeBytes_outside hm (by simpa using fitA) (by simp [epochAddrA, epochAddrB])
    exact Or.inr (Or.inr ⟨badA, keptB, (storedEpoch_of_badA badA).trans keptB⟩)
  · exact Or.inr (Or.inl (storedEpoch_of_copyA newA))
  · refine Or.inr (Or.inl (storedEpoch_of_copyA ?_))
    rw [epochCopy_writeBytes_outside (writeBytes_wf hm (by simpa using fitA)) (by simpa using fitB)
      (by simp [epochAddrA, epochAddrB]), newA]

/-- It changes no byte outside the copies. -/
theorem tornEpoch_outside {mem : List Host.Cell} (hm : Memory.wf mem = true) {e : Epoch} (he : storedEpoch mem = some e) (k : Nat) {a : Nat}
    (ha : a < epochAddrA ∨ (epochAddrA + 3 ≤ a ∧ a < epochAddrB) ∨ epochAddrB + 3 ≤ a) :
    readByte (tornEpoch mem k) a = readByte mem a := by
  obtain ⟨fitA, fitB⟩ := epochCopies_fit
  have outA : a < epochAddrA ∨ epochAddrA + 3 ≤ a := by
    simp only [epochAddrA, epochAddrB] at *
    omega
  have outB : a < epochAddrB ∨ epochAddrB + 3 ≤ a := by
    simp only [epochAddrA, epochAddrB] at *
    omega
  rcases tornEpoch_cases he k with h | h | h | h <;> rw [h]
  · exact readByte_writeBytes_outside hm (by simpa using fitA) (by simpa using outA)
  · exact readByte_writeBytes_outside hm (by simpa using fitA) (by simpa using outA)
  · rw [readByte_writeBytes_outside (writeBytes_wf hm (by simpa using fitA)) (by simpa using fitB) (by simpa using outB),
      readByte_writeBytes_outside hm (by simpa using fitA) (by simpa using outA)]

/-! ### The memory after a reset -/

/-- Inside the epoch write. -/
theorem memAfterReset_epoch {s : State} (h : s.mi.startup = .epoch) : s.memAfterReset.1 = tornEpoch s.mi.mem s.freeIdx := by
  unfold State.memAfterReset
  rw [h]

/-- Inside a road write. -/
theorem memAfterReset_road {s : State} {r : Nat} {content : List Byte} (h : s.mi.startup ≠ .epoch)
    (hw : s.mi.writing = some (r, content)) : s.memAfterReset.1 = tornRoad s.mi.mem s.freeIdx r := by
  unfold State.memAfterReset
  rw [hw]
  cases hs : s.mi.startup with
  | epoch => exact absurd hs h
  | held | image | restore | ended => rfl

/-- With no write in hand. -/
theorem memAfterReset_idle {s : State} (h : s.mi.startup ≠ .epoch) (hw : s.mi.writing = none) : s.memAfterReset.1 = s.mi.mem := by
  unfold State.memAfterReset
  rw [hw]
  cases hs : s.mi.startup with
  | epoch => exact absurd hs h
  | held | image | restore | ended => rfl

/-! ### The resets -/

/-- Both resets: the state they leave, and the memory in each case of a write in hand. -/
theorem resetsKeepTheMemory : Clause.ResetsKeepTheMemory := by
  intro s
  refine ⟨s.afterReset .powerOn, (s.afterReset s.pinCause).keepGroup1 s, rfl, rfl, rfl, rfl,
    memAfterReset_idle, fun r content hinv hs hw => ?_, fun e hinv hs hA hB => ?_, fun e hinv hs he => ?_, fun hs he => ?_⟩
  · obtain ⟨hwf, -, -, -, hwriting⟩ := hinv
    have torn := tornRoad_record hwf (hwriting r content hw).1 s.freeIdx
    rw [← memAfterReset_road hs hw] at torn
    exact torn
  · obtain ⟨hwf, -⟩ := hinv
    have torn := tornEpoch_epoch hwf (storedEpoch_of_copyA hA) s.freeIdx
    rw [← memAfterReset_epoch hs] at torn
    rcases torn with old | new | ⟨-, -, old⟩
    · exact Or.inl old
    · exact Or.inr new
    · exact Or.inl (old.trans hB)
  · obtain ⟨hwf, -⟩ := hinv
    have torn := tornEpoch_epoch hwf he s.freeIdx
    have outside := fun a => tornEpoch_outside (a := a) hwf he s.freeIdx
    rw [← memAfterReset_epoch hs] at torn outside
    exact ⟨torn, outside⟩
  · exact (memAfterReset_epoch hs).trans (tornEpoch_none he _)

/-- Settles O54: what the resets keep, and the values they leave. -/
theorem resetsClearTheState : Obligations.ResetsClearTheState :=
  ⟨resetsKeepTheMemory, rfl⟩

end Sys2Proof.Proofs
end

