-- ==== Sys2Proof/Proofs/RoadRecords.lean ====
section
/-! PROOF. The road records (R163, R181, R182): a record that is written reads back, and the three passes of restore. -/

namespace Sys2Proof.Proofs
open Sys2Proof.Machine Sys2Proof.Laws

/-! ### A record that is written reads back (R181) -/

@[simp] theorem encEntry_length (t : TramRec) : (encEntry t).length = 4 := rfl

@[simp] theorem entries_length (stack : List TramRec) : (stack.flatMap encEntry).length = 4 * stack.length := by
  induction stack with
  | nil => rfl
  | cons t ts ih => rw [List.flatMap_cons, List.length_append, ih, encEntry_length, List.length_cons]; omega

/-- The 34 bytes that the check byte of a road record covers. -/
def recordBody (x : RoadRec) : List Byte :=
  byte x.cond.code :: byte x.stack.length :: ((x.stack.take 8).flatMap encEntry
    ++ List.replicate (32 - ((x.stack.take 8).flatMap encEntry).length) 0)

/-- A road record is its body and its check byte. -/
theorem encRoad_eq (x : RoadRec) : encRoad x = recordBody x ++ [checkByte (recordBody x)] := rfl

@[simp] theorem recordBody_length (x : RoadRec) : (recordBody x).length = 34 := by
  simp only [recordBody, List.length_cons, List.length_append, entries_length, List.length_replicate, List.length_take]
  omega

@[simp] theorem encRoad_length (x : RoadRec) : (encRoad x).length = 35 := by
  simp [encRoad_eq]

/-- The check byte of a written record is the one its bytes ask for. -/
theorem encRoad_check (x : RoadRec) : checkByte ((encRoad x).take 34) = byte (byteAt (encRoad x) 34) := by
  have body : (encRoad x).take 34 = recordBody x := by
    rw [encRoad_eq]
    exact List.take_left' (recordBody_length x)
  have last : (encRoad x)[34]? = some (checkByte (recordBody x)) := by
    rw [encRoad_eq, List.getElem?_append_right (by simp)]
    simp
  rw [body, byteAt, last]
  simp [byte]

/-- Entry `i` of the entries, byte by byte. -/
theorem byteAt_entries {stack : List TramRec} {i : Nat} {t : TramRec} (h : stack[i]? = some t) {j : Nat} (hj : j < 4) (rest : List Byte) :
    byteAt (stack.flatMap encEntry ++ rest) (4 * i + j) = byteAt (encEntry t) j := by
  induction stack generalizing i with
  | nil => simp at h
  | cons u us ih =>
    rw [List.flatMap_cons, List.append_assoc]
    cases i with
    | zero =>
      rw [List.getElem?_cons_zero, Option.some.injEq] at h
      subst h
      rw [byteAt, byteAt, Nat.mul_zero, Nat.zero_add, List.getElem?_append_left (by simpa using hj)]
    | succ i =>
      rw [← ih (by simpa using h), byteAt, byteAt, List.getElem?_append_right (by simp; omega)]
      rw [encEntry_length, show 4 * (i + 1) + j - 4 = 4 * i + j by omega]

/-- An entry that may be stored reads back from its four bytes. -/
theorem entry_reads_back {t : TramRec} (ht : t.storable = true) (hs : t.slot < 256) :
    TramRec.mk (256 * byteAt (encEntry t) 0 + byteAt (encEntry t) 1) (byteAt (encEntry t) 2) (byteAt (encEntry t) 3) = t := by
  obtain ⟨tram, places, slot⟩ := t
  simp only [TramRec.storable, Bool.and_eq_true, decide_eq_true_eq] at ht hs
  simp only [encEntry, bytes2, byteAt, List.cons_append, List.nil_append, List.getElem?_cons_zero, List.getElem?_cons_succ, byte_toNat,
    TramRec.mk.injEq]
  omega

/-- The entries of a written record are the stack. -/
theorem recordEntries_encRoad {x : RoadRec} (hlen : x.stack.length ≤ 8) (hs : x.stack.all TramRec.storable = true)
    (hslot : ∀ e ∈ x.stack, e.slot < 256) : recordEntries (encRoad x) = x.stack := by
  have stack : x.stack.take 8 = x.stack := List.take_of_length_le hlen
  have count : byteAt (encRoad x) 1 = x.stack.length := by
    rw [encRoad_eq, recordBody]
    simp only [byteAt, List.cons_append, List.getElem?_cons_succ, List.getElem?_cons_zero, byte_toNat]
    omega
  have bytes : ∀ (i : Nat) (t : TramRec), x.stack[i]? = some t → ∀ j < 4,
      byteAt (encRoad x) (2 + (4 * i + j)) = byteAt (encEntry t) j := by
    intro i t ht j hj
    rw [Nat.add_comm 2, encRoad_eq, recordBody, stack, List.cons_append, List.cons_append, List.append_assoc]
    exact byteAt_entries ht hj _
  unfold recordEntries
  rw [count]
  refine List.ext_getElem (by simp) fun i hi hi' => ?_
  have ht : x.stack[i]? = some x.stack[i] := List.getElem?_eq_getElem hi'
  have b0 := bytes i _ ht 0 (by decide)
  have b1 := bytes i _ ht 1 (by decide)
  have b2 := bytes i _ ht 2 (by decide)
  have b3 := bytes i _ ht 3 (by decide)
  have back := entry_reads_back (List.all_eq_true.mp hs _ (List.getElem_mem hi')) (hslot _ (List.getElem_mem hi'))
  rw [← b0, ← b1, ← b2, ← b3] at back
  rw [show 2 + (4 * i + 0) = 2 + 4 * i by omega, show 2 + (4 * i + 1) = 2 + 4 * i + 1 by omega,
    show 2 + (4 * i + 2) = 4 + 4 * i by omega, show 2 + (4 * i + 3) = 5 + 4 * i by omega] at back
  rw [List.getElem_map, List.getElem_range]
  exact back

/-! ### Passes 1 and 2: one record (R163, R182) -/

/-- A record that fails a check is refused as bad. -/
theorem restoreRecord_bad {acked : Bool} {l : List Byte} (c : Nat) (hlen : l.length = 35)
    (h : acked = false ∨ l[34]? ≠ some (checkByte (l.take 34)) ∨ 1 < byteAt l 0 ∨ 8 < byteAt l 1
      ∨ (recordEntries l).all TramRec.storable = false) :
    restoreRecord acked c l = Restored.refused .restoreBad := by
  have check : l[34]? = some (byte (byteAt l 34)) := by
    simp [byteAt, byte, List.getElem?_eq_getElem (show 34 < l.length by omega)]
  unfold restoreRecord
  refine if_pos ?_
  simp only [Bool.or_eq_true, Bool.not_eq_true', bne_iff_ne, decide_eq_true_eq]
  rcases h with h | h | h | h | h
  · simp [h]
  · rw [check] at h
    have : checkByte (l.take 34) ≠ byte (byteAt l 34) := fun e => h (congrArg some e.symm)
    simp [this]
  · simp [h]
  · simp [h]
  · simp [h]

/-- A written record is restored with its condition and its stack, unless it holds more places than the capacity. -/
theorem restoreRecord_encRoad {x : RoadRec} (c : Nat) (hlen : x.stack.length ≤ 8) (hs : x.stack.all TramRec.storable = true)
    (hslot : ∀ e ∈ x.stack, e.slot < 256) :
    restoreRecord true c (encRoad x) = (if c < placesOf x.stack then Restored.refused .restoreOverfill
      else ⟨⟨x.cond, x.stack, [], none⟩, none⟩) := by
  have entries := recordEntries_encRoad hlen hs hslot
  have cond : byteAt (encRoad x) 0 = x.cond.code := by
    rw [encRoad_eq, recordBody]
    cases x.cond <;> rfl
  have count : byteAt (encRoad x) 1 ≤ 8 := by
    have : (recordEntries (encRoad x)).length = byteAt (encRoad x) 1 := by simp [recordEntries]
    rw [← this, entries]
    exact hlen
  have code : x.cond.code ≤ 1 := by cases x.cond <;> decide
  have passes : ¬ (!true || checkByte ((encRoad x).take 34) != byte (byteAt (encRoad x) 34) || decide (1 < byteAt (encRoad x) 0)
      || decide (8 < byteAt (encRoad x) 1) || !(recordEntries (encRoad x)).all TramRec.storable) = true := by
    simp [encRoad_check, entries, hs, cond, count, code]
  have back : (if x.cond.code = 0 then RoadCond.known else .doubtful) = x.cond := by cases x.cond <;> rfl
  unfold restoreRecord
  rw [if_neg passes, entries, cond, back]

/-- What every record gives: no arrival, no offer, and DOUBTFUL where it was refused. -/
theorem restoreRecord_shape (acked : Bool) (c : Nat) (l : List Byte) :
    (restoreRecord acked c l).road.arrivals = [] ∧ (restoreRecord acked c l).road.offer = none
    ∧ ((restoreRecord acked c l).cause.isSome = true → (restoreRecord acked c l).road.cond = .doubtful) := by
  unfold restoreRecord
  split
  · exact ⟨rfl, rfl, fun _ => rfl⟩
  · split
    · exact ⟨rfl, rfl, fun _ => rfl⟩
    · exact ⟨rfl, rfl, nofun⟩

/-! ### Pass 3: trams in more than one place (R163) -/

/-- A stack without a repeated tram stays. -/
theorem dropRepeated_kept {all : List Nat} {x : Restored} (h : ∀ e ∈ x.road.stack, all.count e.tram ≤ 1) : x.dropRepeated all = x := by
  unfold Restored.dropRepeated
  split
  next t ht =>
    have hmem := List.mem_of_find?_eq_some ht
    have hrep := List.find?_some ht
    have := h t hmem
    simp only [repeated, decide_eq_true_eq] at hrep
    omega
  next => rfl

/-- Being repeated is the opposite of being there at most once. -/
theorem not_repeated (all : List Nat) (tram : Nat) : (!repeated all tram) = decide (all.count tram ≤ 1) := by
  rw [Bool.eq_iff_iff, repeated]
  simp only [Bool.not_eq_true', decide_eq_false_iff_not, decide_eq_true_eq]
  omega

/-- A stack with a repeated tram loses every one, its road becomes DOUBTFUL, and the first one is named (log entry 21). -/
theorem dropRepeated_repeated {all : List Nat} {x : Restored} {e : TramRec}
    (h : x.road.stack.find? (fun e => decide (2 ≤ all.count e.tram)) = some e) :
    x.dropRepeated all = ⟨⟨.doubtful, x.road.stack.filter (fun e => decide (all.count e.tram ≤ 1)), x.road.arrivals, x.road.offer⟩,
      some (.restoreDuplicate, some e.tram)⟩ := by
  have found : x.road.stack.find? (fun t => repeated all t.tram) = some e := h
  unfold Restored.dropRepeated
  rw [found]
  simp only [not_repeated]

/-- Either way the stack keeps exactly the trams that are there once. -/
theorem dropRepeated_stack (all : List Nat) (x : Restored) :
    (x.dropRepeated all).road.stack = x.road.stack.filter (fun e => decide (all.count e.tram ≤ 1)) := by
  cases h : x.road.stack.find? (fun e => decide (2 ≤ all.count e.tram)) with
  | some e => rw [dropRepeated_repeated h]
  | none =>
    have once : ∀ e ∈ x.road.stack, all.count e.tram ≤ 1 := by
      intro e he
      have := List.find?_eq_none.mp h e he
      simp only [decide_eq_true_eq] at this
      omega
    rw [dropRepeated_kept once, List.filter_eq_self.mpr (by simpa using once)]

/-- It touches neither arrivals nor offer, and a road that it changes becomes DOUBTFUL. -/
theorem dropRepeated_shape (all : List Nat) {x : Restored} (h : x.cause.isSome = true → x.road.cond = .doubtful) :
    (x.dropRepeated all).road.arrivals = x.road.arrivals ∧ (x.dropRepeated all).road.offer = x.road.offer
    ∧ ((x.dropRepeated all).cause.isSome = true → (x.dropRepeated all).road.cond = .doubtful) := by
  unfold Restored.dropRepeated
  split
  · exact ⟨rfl, rfl, fun _ => rfl⟩
  · exact ⟨rfl, rfl, h⟩

/-- The elements that a list holds at most once are, taken alone, without a repetition. -/
theorem nodup_filter_once (all : List Nat) : (all.filter (fun n => decide (all.count n ≤ 1))).Nodup := by
  refine List.nodup_iff_count_le_one.mpr fun n => ?_
  by_cases h : all.count n ≤ 1
  · exact (List.filter_sublist.count_le n).trans h
  · rw [List.count_eq_zero.mpr (by simp [h])]
    exact Nat.zero_le 1

/-! ### The roads of the description -/

/-- What passes 1 and 2 read for road `k`. -/
def readRoad (mem : List Host.Cell) (roads : List RoadCfg) (acked : List Bool) (k : Nat) : Restored :=
  restoreRecord (acked.getD k false) ((roads[k]?).elim 0 (·.capacity)) (readBytes mem (roadAddr k) 35)

/-- What passes 1 and 2 read has no arrival and no offer, and is DOUBTFUL where it was refused. -/
theorem readRoad_shape (mem : List Host.Cell) (roads : List RoadCfg) (acked : List Bool) (k : Nat) :
    (readRoad mem roads acked k).road.arrivals = [] ∧ (readRoad mem roads acked k).road.offer = none
    ∧ ((readRoad mem roads acked k).cause.isSome = true → (readRoad mem roads acked k).road.cond = .doubtful) :=
  restoreRecord_shape _ _ _

/-- The trams of all the stacks that passes 1 and 2 read. -/
def readTrams (mem : List Host.Cell) (roads : List RoadCfg) (acked : List Bool) : List Nat :=
  ((List.range roads.length).flatMap (fun k => (readRoad mem roads acked k).road.stack)).map (·.tram)

/-- Restore reads each road, and then drops what is repeated among them. -/
theorem restoreRoads_eq (mem : List Host.Cell) (roads : List RoadCfg) (acked : List Bool) :
    restoreRoads mem roads acked = (List.range roads.length).map
      (fun k => (readRoad mem roads acked k).dropRepeated (readTrams mem roads acked)) := by
  have trams : ((List.range roads.length).map (readRoad mem roads acked)).flatMap (fun x => x.road.stack.map (·.tram))
      = readTrams mem roads acked := by
    rw [readTrams, List.map_flatMap, List.flatMap_map]
  rw [← trams]
  exact List.map_map

/-- The road of an index below the number of configured ones. -/
theorem restoreRoads_getElem? (mem : List Host.Cell) (roads : List RoadCfg) (acked : List Bool) {k : Nat} (hk : k < roads.length) :
    (restoreRoads mem roads acked)[k]? = some ((readRoad mem roads acked k).dropRepeated (readTrams mem roads acked)) := by
  rw [restoreRoads_eq]
  simp [hk]

/-- A road whose trams stand nowhere else is restored as it was read. -/
theorem restoreRoads_kept {mem : List Host.Cell} {roads : List RoadCfg} {acked : List Bool} {k : Nat} (hk : k < roads.length)
    (once : ∀ e ∈ (readRoad mem roads acked k).road.stack, (readTrams mem roads acked).count e.tram ≤ 1) :
    (restoreRoads mem roads acked)[k]? = some (readRoad mem roads acked k) := by
  rw [restoreRoads_getElem? mem roads acked hk, dropRepeated_kept once]

/-- A road with a tram that stands elsewhere too is restored without it, DOUBTFUL. -/
theorem restoreRoads_repeated {mem : List Host.Cell} {roads : List RoadCfg} {acked : List Bool} {k : Nat} {e : TramRec}
    (hk : k < roads.length) (found : (readRoad mem roads acked k).road.stack.find?
      (fun e => decide (2 ≤ (readTrams mem roads acked).count e.tram)) = some e) :
    (restoreRoads mem roads acked)[k]? = some ⟨⟨.doubtful, (readRoad mem roads acked k).road.stack.filter
      (fun e => decide ((readTrams mem roads acked).count e.tram ≤ 1)), [], none⟩, some (.restoreDuplicate, some e.tram)⟩ := by
  obtain ⟨arrivals, offer, -⟩ := readRoad_shape mem roads acked k
  rw [restoreRoads_getElem? mem roads acked hk, dropRepeated_repeated found, arrivals, offer]

/-- No tram is left in two places. -/
theorem restoreRoads_nodup (mem : List Host.Cell) (roads : List RoadCfg) (acked : List Bool) :
    (((restoreRoads mem roads acked).flatMap (fun x => x.road.stack)).map (·.tram)).Nodup := by
  have once : ((restoreRoads mem roads acked).flatMap (fun x => x.road.stack)).map (·.tram)
      = (readTrams mem roads acked).filter (fun n => decide ((readTrams mem roads acked).count n ≤ 1)) := by
    generalize hall : readTrams mem roads acked = all
    rw [restoreRoads_eq, hall, List.flatMap_map]
    simp only [dropRepeated_stack]
    rw [← List.filter_flatMap, ← hall, readTrams, List.filter_map]
    rfl
  rw [once]
  exact nodup_filter_once _

/-- Each restored road stands without arrivals and offer, and is DOUBTFUL where it is reported. -/
theorem restoreRoads_shape {mem : List Host.Cell} {roads : List RoadCfg} {acked : List Bool} {x : Restored}
    (hx : x ∈ restoreRoads mem roads acked) :
    x.road.arrivals = [] ∧ x.road.offer = none ∧ (x.cause.isSome = true → x.road.cond = .doubtful) := by
  rw [restoreRoads_eq, List.mem_map] at hx
  obtain ⟨k, -, rfl⟩ := hx
  obtain ⟨arrivals, offer, cond⟩ := readRoad_shape mem roads acked k
  obtain ⟨keptArrivals, keptOffer, cond⟩ := dropRepeated_shape (readTrams mem roads acked) cond
  exact ⟨keptArrivals.trans arrivals, keptOffer.trans offer, cond⟩

/-- Restore, record by record and then across the roads. -/
theorem restoreReadsTheRecords : Clause.RestoreReadsTheRecords := by
  refine ⟨fun acked c l => ⟨fun h hlen => restoreRecord_bad c hlen h, fun x => restoreRecord_encRoad c⟩, fun mem roads acked => ?_,
    fun mem roads acked => ⟨?_, restoreRoads_nodup mem roads acked, fun x hx => ?_⟩⟩
  · refine ⟨fun k hk once => ?_, fun k e hk found => ?_⟩
    · exact restoreRoads_kept hk once
    · exact restoreRoads_repeated hk found
  · simp [restoreRoads_eq]
  · obtain ⟨arrivals, offer, cond⟩ := restoreRoads_shape hx
    exact ⟨arrivals, offer, fun c t h => cond (by simp [h])⟩

end Sys2Proof.Proofs
end

