-- ==== Sys2Proof/Proofs/Restore.lean ====
section
/-! PROOF. ROAD_RESTORE (O56): roads that are queued for writing, and the entry into JOINING (R59, R161, R163, R172). -/

namespace Sys2Proof.Proofs
open Sys2Proof.Machine Sys2Proof.Laws

/-! ### Roads queued for writing (R161) -/

/-- A queue after roads went to its tail, each where it was not yet queued. -/
def queuedRoads (queue rs : List Nat) : List Nat :=
  rs.foldl (fun q r => if r ∈ q then q else q ++ [r]) queue

/-- The model appends so. -/
theorem foldl_addNew (queue rs : List Nat) : rs.foldl addNew queue = queuedRoads queue rs := by
  have step : addNew = fun (q : List Nat) r => if r ∈ q then q else q ++ [r] := by
    funext q r
    simp only [addNew, List.contains_iff_mem]
  rw [step, queuedRoads]

/-- What is queued stays queued. -/
theorem mem_queuedRoads {queue rs : List Nat} {k : Nat} (h : k ∈ queue) : k ∈ queuedRoads queue rs := by
  induction rs generalizing queue with
  | nil => exact h
  | cons r rs ih =>
    refine ih (queue := if r ∈ queue then queue else queue ++ [r]) ?_
    split
    · exact h
    · exact List.mem_append_left _ h

/-- With a write in hand, roads are queued alone. -/
theorem queueRoads_writing {s : State} {w : Nat × List Byte} (hw : s.mi.writing = some w) (rs : List Nat) :
    s.queueRoads rs = { s with yu := { s.yu with queue := queuedRoads s.yu.queue rs } } := by
  rw [State.queueRoads, foldl_addNew]
  simp only [State.serveRoadQueue, hw]

/-- With none, the road at the head is handed to MI. -/
theorem queueRoads_idle {s : State} (hw : s.mi.writing = none) {rs : List Nat} {q : Nat} {rest : List Nat} {x : RoadRec}
    (hq : queuedRoads s.yu.queue rs = q :: rest) (hx : s.yu.roads[q]? = some x) :
    s.queueRoads rs = { s with yu := { s.yu with queue := rest }, mi := { s.mi with writing := some (q, encRoad x) } } := by
  rw [State.queueRoads, foldl_addNew, hq]
  simp only [State.serveRoadQueue, hw, hx]

/-- With none in hand and none queued, nothing changes. -/
theorem queueRoads_nothing {s : State} (hw : s.mi.writing = none) {rs : List Nat} (hq : queuedRoads s.yu.queue rs = []) :
    s.queueRoads rs = s := by
  have empty : s.yu.queue = [] := List.eq_nil_iff_forall_not_mem.mpr fun k hk => by
    have := mem_queuedRoads (rs := rs) hk
    rw [hq] at this
    cases this
  rw [State.queueRoads, foldl_addNew, hq]
  simp only [State.serveRoadQueue, hw]
  rw [← empty]

/-- The roads themselves stay. -/
@[simp] theorem queueRoads_yu_roads (s : State) (rs : List Nat) : (s.queueRoads rs).yu.roads = s.yu.roads := by
  unfold State.queueRoads State.serveRoadQueue
  split
  · split <;> rfl
  · rfl

theorem changedRoadsAreQueued : Clause.ChangedRoadsAreQueued := fun _ _ =>
  ⟨fun _ hw => queueRoads_writing hw _, fun _ _ _ hw hq hx => queueRoads_idle hw hq hx, fun hw hq => queueRoads_nothing hw hq⟩

/-! ### Reports of doubtful roads (R146, R167) -/

theorem doubtReportsNameTheirCause : Clause.DoubtReportsNameTheirCause := by
  intro r cause tram
  cases cause <;> cases tram <;> rfl

/-- A report takes one EVENT serial (R167). -/
theorem reportRoadDoubtful_serial (s : State) (r : Nat) (cause : DoubtCause) (tram : Option Nat) :
    (s.reportRoadDoubtful r cause tram).rp.serial = s.rp.serial + 1 := by
  simp [State.reportRoadDoubtful, State.report]

/-- The report that restore gives of road `r`, where it made it DOUBTFUL. -/
def restoreReport (restored : List Restored) (r : Nat) (s : State) : State :=
  match (restored[r]?).bind (·.cause) with
  | some (cause, tram) => s.reportRoadDoubtful r cause tram
  | none => s

/-- The roads that restore made DOUBTFUL, in rising index. -/
def correctedRoads (restored : List Restored) : List Nat :=
  (List.range restored.length).filter (fun k => (restored[k]?).any (fun x => x.cause.isSome))

/-- A report leaves all but FS, the counters and RP. -/
theorem restoreReport_keeps (restored : List Restored) (r : Nat) (s : State) :
    (restoreReport restored r s).windowMs = s.windowMs ∧ (restoreReport restored r s).oldWindows = s.oldWindows
    ∧ (restoreReport restored r s).yard = s.yard ∧ (restoreReport restored r s).li = s.li ∧ (restoreReport restored r s).pt = s.pt
    ∧ (restoreReport restored r s).du = s.du ∧ (restoreReport restored r s).pu = s.pu ∧ (restoreReport restored r s).su = s.su
    ∧ (restoreReport restored r s).rq = s.rq ∧ (restoreReport restored r s).re = s.re ∧ (restoreReport restored r s).ct = s.ct
    ∧ (restoreReport restored r s).yu = s.yu ∧ (restoreReport restored r s).mi = s.mi := by
  unfold restoreReport
  split <;> simp

/-- A corrected road's report takes one serial. -/
theorem restoreReport_serial {restored : List Restored} {r : Nat} (h : r ∈ correctedRoads restored) (s : State) :
    (restoreReport restored r s).rp.serial = s.rp.serial + 1 := by
  unfold restoreReport
  split
  · exact reportRoadDoubtful_serial _ _ _ _
  next hnone =>
    exfalso
    simp only [correctedRoads, List.mem_filter, Option.any_eq_true] at h
    obtain ⟨-, x, hx, hcause⟩ := h
    rw [hx, Option.bind_some] at hnone
    rw [hnone] at hcause
    cases hcause

/-- Reports that each take one serial take as many as there are. -/
theorem forEach_serial {l : List Nat} {f : Nat → State → State} (h : ∀ r ∈ l, ∀ s, (f r s).rp.serial = s.rp.serial + 1) (s : State) :
    (forEach l f s).rp.serial = s.rp.serial + BitVec.ofNat 16 l.length := by
  induction l generalizing s with
  | nil => simp [forEach]
  | cons r rs ih =>
    rw [forEach, ih (fun k hk => h k (List.mem_cons_of_mem r hk)), h r List.mem_cons_self, List.length_cons]
    rw [BitVec.ofNat_add, BitVec.add_assoc, BitVec.add_comm 1]
    rfl

/-- Counting the indices of the items that `p` accepts counts the items. -/
theorem length_filter_range {α : Type} (p : α → Bool) (l : List α) :
    ((List.range l.length).filter (fun k => (l[k]?).any p)).length = (l.filter p).length := by
  induction l using List.reverseRecOn with
  | nil => rfl
  | append_singleton l x ih =>
    have front : (List.range l.length).filter (fun k => ((l ++ [x])[k]?).any p) = (List.range l.length).filter (fun k => (l[k]?).any p) :=
      List.filter_congr fun k hk => by rw [List.getElem?_append_left (List.mem_range.mp hk)]
    rw [List.length_append, List.length_singleton, List.range_succ, List.filter_append, front, List.filter_append,
      List.length_append, List.length_append, ih]
    cases hp : p x <;> simp [hp]

/-! ### The entry into JOINING -/

/-- The node as it enters JOINING, before anything is sent: the blocks hold their records, the listen timer runs, and the first
ANNOUNCE is counted. -/
def joiningState (s : State) (restored : List Restored) : State :=
  { s with
    yard := s.mi.desc
    oldWindows := s.windowMs / 20 + 1
    pt := { s.pt with mode := .joining, listen := some ⟨0, 1000⟩, announces := 1, stateMs := some 250 }
    du := { s.du with sects := s.mi.desc.sects.map (fun _ => SectRec.reset) }
    pu := { s.pu with points := s.mi.desc.points.map (fun _ => PointRec.reset) }
    su := { s.su with signals := s.mi.desc.signals.map (fun _ => SignalRec.atStop) }
    ct := { s.ct with locks := s.mi.desc.sects.map (fun _ => none) }
    yu := { s.yu with roads := restored.map (·.road) }
    mi := { s.mi with startup := .ended } }

/-- The entry: the records, the first ANNOUNCE, the reports of the corrected roads, and their queueing. -/
theorem enterJoining_eq (s : State) (restored : List Restored) :
    s.enterJoining restored = (forEach (correctedRoads restored) (restoreReport restored)
      ((joiningState s restored).send .announce 63 [byte s.pt.cause.code])).queueRoads (correctedRoads restored) := rfl

/-- What the entry leaves of each block but FS, the counters and YU's queue. -/
theorem enterJoining_blocks (s : State) (restored : List Restored) :
    (s.enterJoining restored).yard = s.mi.desc ∧ (s.enterJoining restored).oldWindows = s.windowMs / 20 + 1
    ∧ (s.enterJoining restored).pt = (joiningState s restored).pt ∧ (s.enterJoining restored).du = (joiningState s restored).du
    ∧ (s.enterJoining restored).pu = (joiningState s restored).pu ∧ (s.enterJoining restored).su = (joiningState s restored).su
    ∧ (s.enterJoining restored).ct = (joiningState s restored).ct ∧ (s.enterJoining restored).yu.roads = restored.map (·.road)
    ∧ (s.enterJoining restored).mi.startup = .ended ∧ (s.enterJoining restored).mi.mem = s.mi.mem
    ∧ (s.enterJoining restored).re = s.re ∧ (s.enterJoining restored).rq = s.rq ∧ (s.enterJoining restored).li = s.li := by
  rw [enterJoining_eq]
  simp [restoreReport_keeps, joiningState]

/-- Each report of the entry takes one serial. -/
theorem enterJoining_serial (s : State) (restored : List Restored) :
    (s.enterJoining restored).rp.serial
      = s.rp.serial + BitVec.ofNat 16 (restored.filter (fun x => x.cause.isSome)).length := by
  have reports := forEach_serial (fun r hr => restoreReport_serial (r := r) (restored := restored) hr)
    ((joiningState s restored).send .announce 63 [byte s.pt.cause.code])
  rw [correctedRoads, length_filter_range, ← correctedRoads] at reports
  rw [enterJoining_eq]
  simpa [joiningState] using reports

/-- ROAD_RESTORE when start-up has come to it. -/
theorem exec_roadRestore {s : State} (hs : s.mi.startup = .restore) (acked : List Bool) :
    exec (.roadRestore acked) s = .next (s.enterJoining (restoreRoads s.mi.mem s.mi.desc.roads acked)) := if_pos hs

/-- The entry into JOINING, with all it does. -/
theorem restoreEntersJoining : Clause.RestoreEntersJoining := by
  intro s acked hs
  have hexec := exec_roadRestore hs acked
  generalize restoreRoads s.mi.mem s.mi.desc.roads acked = restored at *
  obtain ⟨yard, old, pt, du, pu, su, ct, roads, startup, mem, re, rq, li⟩ := enterJoining_blocks s restored
  refine ⟨s.enterJoining restored, hexec, pt, yard, old, du, pu, su, ct, roads, startup, mem, re, rq, li,
    enterJoining_serial s restored, ?_⟩
  have code : ∀ c : ResetCause, [byte c.code] = [byte (match c with | .powerOn => 0 | .pin => 1)] := by
    intro c
    cases c <;> rfl
  dsimp only
  rw [yard, old, pt, du, pu, su, ct, roads]
  refine (enterJoining_eq s restored).trans (congrArg (State.queueRoads · _) ((forEach_congr (fun r _ => ?_) _).trans
    (congrArg (forEach _ _) (congrArg (State.send (joiningState s restored) .announce 63) (code s.pt.cause)))))
  unfold restoreReport
  cases (restored[r]?).bind (·.cause) <;> rfl

/-- Settles O56: the entry into JOINING, the restore of the records, the reports, and the roads queued for writing. -/
theorem restore : Obligations.Restore :=
  ⟨restoreEntersJoining, restoreReadsTheRecords, doubtReportsNameTheirCause, changedRoadsAreQueued⟩

end Sys2Proof.Proofs
end

