-- ==== Sys2Proof/Proofs/PointReadings.lean ====
section
/-! PROOF. What a contact reading does to a point, state by state (O12): the runs of R22, R23, R27 and R28 with their thresholds. -/

namespace Sys2Proof.Proofs
open Sys2Proof.Machine Sys2Proof.Laws

/-! ### The evaluation by state -/

theorem evaluate_moving {r : PointRec} (h : r.state = .moving) (c : Contact) (ms : Nat) : r.evaluate c ms = r.evalMoving c := by
  rw [PointRec.evaluate, h]

theorem evaluate_backing {r : PointRec} (h : r.state = .backing) (c : Contact) (ms : Nat) :
    r.evaluate c ms = r.evalBacking c ms := by
  rw [PointRec.evaluate, h]

theorem evaluate_detected {r : PointRec} {own : Position} (h : r.state = own.detected) (c : Contact) (ms : Nat) :
    r.evaluate c ms = r.evalDetected own c := by
  cases own <;> rw [PointRec.evaluate, h] <;> rfl

theorem evaluate_faulty {r : PointRec} (h : r.state = .noDet ∨ r.state = .bothDet ∨ r.state = .failed) (c : Contact) (ms : Nat) :
    r.evaluate c ms = (r.evalFaulty c, .nothing) := by
  rcases h with h | h | h <;> rw [PointRec.evaluate, h]

/-! ### The seek run (R22, R23) -/

/-- In MOVING the target contact alone advances the run, and every other reading sets it to 0. -/
theorem evalMoving_eq {r : PointRec} {target : Position} (h : r.target = some target) (c : Contact) :
    r.evalMoving c = if c = target.contact then
        if 1 ≤ r.seekRun then (PointRec.rest target.detected, .moveDone) else ({ r with seekRun := r.seekRun + 1 }, .nothing)
      else ({ r with seekRun := 0 }, .nothing) := by
  simp only [PointRec.evalMoving, h, ge_iff_le, Nat.reduceLeDiff]

/-- In BACKING the start contact alone advances it. -/
theorem evalBacking_eq {r : PointRec} {target start : Position} (ht : r.target = some target) (hs : r.start = some start)
    (c : Contact) (ms : Nat) :
    r.evalBacking c ms = if c = start.contact then
        if 1 ≤ r.seekRun then (PointRec.driving .moving target start target true ms, .retry)
        else ({ r with seekRun := r.seekRun + 1 }, .nothing)
      else ({ r with seekRun := 0 }, .nothing) := by
  simp only [PointRec.evalBacking, ht, hs, ge_iff_le, Nat.reduceLeDiff]

theorem movingAndBackingReadings : Clause.MovingAndBackingReadings := by
  intro r c target start ms ht hs
  refine ⟨fun hst hc hrun => ?_, fun hst hc hrun => ?_, fun hst hc => ?_, fun hst hc hrun => ?_, fun hst hc hrun => ?_,
    fun hst hc => ?_⟩
  · rw [evaluate_moving hst, evalMoving_eq ht, if_pos hc, if_pos hrun]
  · rw [evaluate_moving hst, evalMoving_eq ht, if_pos hc, if_neg (by omega), hrun]
  · rw [evaluate_moving hst, evalMoving_eq ht, if_neg hc]
  · rw [evaluate_backing hst, evalBacking_eq ht hs, if_pos hc, if_pos hrun]
  · rw [evaluate_backing hst, evalBacking_eq ht hs, if_pos hc, if_neg (by omega), hrun]
  · rw [evaluate_backing hst, evalBacking_eq ht hs, if_neg hc]

/-! ### The loss run (R27) -/

theorem detectedPointLosesPosition : Clause.DetectedPointLosesPosition := by
  intro r own c ms hst
  rw [evaluate_detected hst]
  unfold PointRec.evalDetected
  refine ⟨fun hc => if_pos hc, fun hc hrun => ?_, fun hc hrun hboth hlast => ?_, fun hc hrun hnot => ?_⟩
  · rw [if_neg hc]
    simp [hrun]
  · rw [if_neg hc]
    simp [hrun, hboth, hlast]
  · have notBoth : (c == .both && (r.lossRun == 0 || r.lossBoth)) = false := by
      have : r.lossRun ≠ 0 := by omega
      rcases hnot with h | h <;> simp [h, this]
    rw [if_neg hc]
    simp [hrun, notBoth]

/-! ### The recovery run and the fault run (R28) -/

/-- A contact alone advances the recovery run of its own position, or begins it. -/
theorem evalFaulty_contact (r : PointRec) (pos : Position) :
    r.evalFaulty pos.contact =
      if 3 ≤ (if r.recContact = some pos then r.recRun + 1 else 1) then PointRec.rest pos.detected
      else { r with recRun := if r.recContact = some pos then r.recRun + 1 else 1, recContact := some pos, faultRun := 0 } := by
  cases pos <;> rfl

/-- The reading that the state counts advances the fault run, which at 2 leads to the other state without a position. -/
theorem evalFaulty_counted {r : PointRec} {c : Contact} (h : r.state.faultReading = some c) :
    r.evalFaulty c =
      if 1 ≤ r.faultRun then PointRec.rest (if r.state = .noDet then .bothDet else .noDet)
      else { r with recRun := 0, recContact := none, faultRun := r.faultRun + 1 } := by
  have noContact : c.position = none := by
    cases hs : r.state <;> rw [hs] at h <;> cases h <;> rfl
  simp only [PointRec.evalFaulty, noContact, if_pos h, ge_iff_le, Nat.reduceLeDiff]

/-- BOTH or NONE that the state does not count sets all runs to 0. -/
theorem evalFaulty_uncounted {r : PointRec} {c : Contact} (hc : c = .both ∨ c = .neither) (h : r.state.faultReading ≠ some c) :
    r.evalFaulty c = { r with recRun := 0, recContact := none, faultRun := 0 } := by
  have noContact : c.position = none := by rcases hc with rfl | rfl <;> rfl
  simp only [PointRec.evalFaulty, noContact, if_neg h]

theorem recoveryAndFaultRuns : Clause.RecoveryAndFaultRuns := by
  intro r ms hst
  have noDetReading : r.state = .noDet → r.state.faultReading = some .both := fun h => by rw [h]; rfl
  have bothDetReading : r.state = .bothDet → r.state.faultReading = some .neither := fun h => by rw [h]; rfl
  have failedReading : r.state = .failed → r.state.faultReading = none := fun h => by rw [h]; rfl
  simp only [evaluate_faulty hst]
  refine ⟨fun pos hpos hrun => ?_, fun pos hpos hrun => ?_, fun pos hpos => ?_, fun h hrun => ?_, fun h hrun => ?_, fun h => ?_,
    fun h => ?_, fun h hrun => ?_, fun h hrun => ?_, fun h c hc => ?_⟩
  · rw [evalFaulty_contact, if_pos hpos, if_pos (by omega)]
  · rw [evalFaulty_contact, if_pos hpos, if_neg (by omega), ← hpos]
  · rw [evalFaulty_contact, if_neg hpos, if_neg (by omega)]
  · rw [evalFaulty_counted (noDetReading h), if_neg (by omega), hrun]
  · rw [evalFaulty_counted (bothDetReading h), if_neg (by omega), hrun]
  · rw [evalFaulty_uncounted (.inr rfl) (by simp [noDetReading h])]
  · rw [evalFaulty_uncounted (.inl rfl) (by simp [bothDetReading h])]
  · rw [evalFaulty_counted (noDetReading h), if_pos hrun, if_pos h]
  · rw [evalFaulty_counted (bothDetReading h), if_pos hrun, if_neg (by simp [h])]
  · rw [evalFaulty_uncounted hc (by simp [failedReading h])]

/-- Settles O12: the seek run, the loss run, and the runs of a point without a position. -/
theorem pointReadingTables : Obligations.PointReadingTables :=
  ⟨movingAndBackingReadings, detectedPointLosesPosition, recoveryAndFaultRuns⟩

end Sys2Proof.Proofs
end

