-- ==== Sys2Proof/Proofs/Points.lean ====
section
/-! PROOF. Move orders (O11), window evaluations (O13), the travel timer (O14) and the notices that stop a point (O15). Each of these
changes records of points and gives CT reports, and nothing else but what RP sends; `pointChanged` says so once. -/

namespace Sys2Proof.Proofs
open Sys2Proof.Machine Sys2Proof.Laws

/-! ### A point that changes, with its report -/

/-- The record of point `p` changes by `f`, and PU gives CT the report, where there is one. -/
def pointChanged (s : State) (p : Nat) (f : PointRec → PointRec) (report : Option PuReport) : State :=
  { s with
    pu := { s.pu with points := s.pu.points.modify p f }
    ct := { s.ct with reports := s.ct.reports ++ report.toList } }

/-- A change that leaves the record it finds, without a report, is none. -/
theorem pointChanged_none {s : State} {p : Nat} {f : PointRec → PointRec} (h : ∀ r, s.pu.points[p]? = some r → f r = r) :
    pointChanged s p f none = s := by
  have points : s.pu.points.modify p f = s.pu.points := by
    refine List.ext_getElem? fun q => ?_
    rw [List.getElem?_modify]
    cases hr : s.pu.points[q]? with
    | none => rfl
    | some r =>
      by_cases hq : p = q
      · subst hq
        simp [h r hr]
      · simp [hq]
  rw [pointChanged, points]
  simp

/-- Of the function that changes a record, its value at that record is all that counts. -/
theorem pointChanged_const {s : State} {p : Nat} {r : PointRec} (hr : s.pu.points[p]? = some r) (f : PointRec → PointRec)
    (report : Option PuReport) : pointChanged s p f report = pointChanged s p (fun _ => f r) report := by
  have points : s.pu.points.modify p f = s.pu.points.modify p (fun _ => f r) := by
    simp [List.modify_eq_set_getElem?, hr]
  rw [pointChanged, points, pointChanged]

/-- The records after a change: the point's own, and every other as it was. -/
theorem pointChanged_points {s : State} {p : Nat} {r : PointRec} (hr : s.pu.points[p]? = some r) (x : PointRec)
    (report : Option PuReport) :
    (pointChanged s p (fun _ => x) report).pu.points[p]? = some x
    ∧ ∀ q : Nat, q ≠ p → (pointChanged s p (fun _ => x) report).pu.points[q]? = s.pu.points[q]? :=
  ⟨by simp [pointChanged, hr], fun _ hq => List.getElem?_modify_ne _ _ hq.symm⟩

/-! ### Stopping a point (R25, R26) -/

/-- A record in MOVING or BACKING, in the words of the statements. -/
theorem inMotion_iff (r : PointRec) : r.inMotion = true ↔ r.state = .moving ∨ r.state = .backing := by
  simp [PointRec.inMotion]

/-- A point in motion comes to rest in NO_DET; any other stays as it is. -/
def stoppedRec (r : PointRec) : PointRec :=
  if r.state = .moving ∨ r.state = .backing then PointRec.rest .noDet else r

/-- The report of point `p` when it is stopped: MOVE_FAIL where it was in motion. -/
def stopReport (s : State) (p : Nat) (cause : MoveCause) : Option PuReport :=
  (s.pu.points[p]?).bind (fun r => if r.state = .moving ∨ r.state = .backing then some (.moveFail p cause) else none)

/-- Stopping a point: one in motion comes to rest, with its MOVE_FAIL. -/
theorem stopPoint_eq (s : State) (p : Nat) (cause : MoveCause) :
    s.stopPoint p cause = pointChanged s p stoppedRec (stopReport s p cause) := by
  unfold State.stopPoint stopReport
  cases hr : s.pu.points[p]? with
  | none => exact (pointChanged_none fun r h => by rw [hr] at h; cases h).symm
  | some r =>
    simp only [inMotion_iff, Option.bind_some]
    split
    next h =>
      rw [pointChanged_const hr, stoppedRec, if_pos h]
      rfl
    next h =>
      refine (pointChanged_none fun x hx => ?_).symm
      rw [hr] at hx
      cases hx
      exact if_neg h

/-- Stopping a point in motion. -/
theorem stopPoint_moving {s : State} {p : Nat} {r : PointRec} (hr : s.pu.points[p]? = some r)
    (h : r.state = .moving ∨ r.state = .backing) (cause : MoveCause) :
    s.stopPoint p cause = pointChanged s p (fun _ => PointRec.rest .noDet) (some (.moveFail p cause)) := by
  simp only [State.stopPoint, hr, (inMotion_iff r).mpr h, if_true]
  rfl

/-- Stopping any other point changes nothing. -/
theorem stopPoint_still {s : State} {p : Nat} {r : PointRec} (hr : s.pu.points[p]? = some r)
    (h : ¬ (r.state = .moving ∨ r.state = .backing)) (cause : MoveCause) : s.stopPoint p cause = s := by
  simp only [State.stopPoint, hr, inMotion_iff, if_neg h]

/-- Where the drive permission stands, the section is not held occupied (R12, R19). -/
theorem heldOccupied_of_permission {s : State} {k : Nat} (h : s.drivePermission k = true) : s.heldOccupied k = false := by
  cases held : s.heldOccupied k with
  | false => rfl
  | true =>
    rw [drivePermission_heldOccupied s k held] at h
    cases h

/-- A drive that would turn on for a move in hand: it does with the permission, and otherwise the move ends (R19). -/
theorem turnDrive_eq {s : State} {p : Nat} {r : PointRec} (hr : s.pu.points[p]? = some r)
    (h : r.state = .moving ∨ r.state = .backing) (k : Nat) (x : PointRec) :
    s.turnDrive p k x = pointChanged s p (fun _ => if s.drivePermission k = false then PointRec.rest .noDet else x)
      (if s.heldOccupied k then some (.moveFail p .occupied) else if s.drivePermission k then none
        else some (.moveFail p .withdrawn)) := by
  rw [turnDrive_cases]
  cases hp : s.drivePermission k with
  | true =>
    simp [heldOccupied_of_permission hp, pointChanged, State.modPoint]
  | false =>
    rw [if_neg (by simp), stopPoint_moving hr h]
    cases s.heldOccupied k <;> rfl

/-! ### Move orders (R20, R21) -/

/-- With no permission-end notice waiting, nothing comes before a move order. -/
theorem settlePermission_nothing {s : State} {p : Nat} (h : s.pu.permEnds.contains p = false) : s.settlePermission p = s := by
  rw [State.settlePermission, h]
  rfl

/-- Notices that are taken before an order change neither the sections nor the locks. -/
theorem settlePermission_section (s : State) (p k : Nat) :
    (s.settlePermission p).heldOccupied k = s.heldOccupied k ∧ (s.settlePermission p).drivePermission k = s.drivePermission k := by
  unfold State.settlePermission
  split
  · rw [stopPoint_eq]
    exact ⟨rfl, rfl⟩
  · exact ⟨rfl, rfl⟩

/-- A move order for a configured point: the section is looked at before the point (R21). -/
theorem moveOrder_eq {s : State} {p : Nat} {c : PointCfg} {r : PointRec} (hc : s.yard.points[p]? = some c)
    (hr : (s.settlePermission p).pu.points[p]? = some r) (t : Position) :
    s.moveOrder p t =
      if s.heldOccupied c.sect then (s.settlePermission p).reportToCt (.moveFail p .occupied)
      else if s.drivePermission c.sect then (s.settlePermission p).orderPermitted p t c r
      else (s.settlePermission p).reportToCt (.moveFail p .withdrawn) := by
  obtain ⟨held, permission⟩ := settlePermission_section s p c.sect
  have yard : (s.settlePermission p).yard.points[p]? = some c := by simpa using hc
  simp only [State.moveOrder, yard, hr, held, permission]
  cases s.drivePermission c.sect <;> rfl

/-- An order for the position where the point is detected is done at once. -/
theorem orderPermitted_there {r : PointRec} {t : Position} (h : r.state = t.detected) (s : State) (p : Nat) (c : PointCfg) :
    s.orderPermitted p t c r = s.reportToCt (.moveDone p) := by
  cases t <;> rw [Position.detected] at h <;> simp only [State.orderPermitted, h, Position.detected, if_true]

/-- An order for the other position begins a move, and counts it. -/
theorem orderPermitted_away {r : PointRec} {t : Position} (h : r.state = t.other.detected) (s : State) (p : Nat) (c : PointCfg) :
    s.orderPermitted p t c r = { s with pu := { s.pu with
      points := s.pu.points.modify p (fun _ => PointRec.driving .moving t t.other t false (1000 * c.travel))
      moves := s.pu.moves.modify p bump } } := by
  cases t <;> rw [Position.other, Position.detected] at h <;> simp only [State.orderPermitted, h] <;> rfl

/-- An order for the target of the move in hand changes nothing, and one for the other position fails. -/
theorem orderPermitted_moving {r : PointRec} (h : r.state = .moving ∨ r.state = .backing) (s : State) (p : Nat) (t : Position)
    (c : PointCfg) :
    s.orderPermitted p t c r = if r.target = some t then s else s.reportToCt (.moveFail p .busy) := by
  rcases h with h | h <;> simp only [State.orderPermitted, h]

/-- An order for a point without a position fails. -/
theorem orderPermitted_faulty {r : PointRec} (h : r.state = .noDet ∨ r.state = .bothDet ∨ r.state = .failed) (s : State) (p : Nat)
    (t : Position) (c : PointCfg) : s.orderPermitted p t c r = s.reportToCt (.moveFail p .fault) := by
  rcases h with h | h | h <;> simp only [State.orderPermitted, h]

/-- Settles O11: the section's rows, then the point's row by its state. -/
theorem moveOrderTable : Obligations.MoveOrderTable := by
  intro p target s c r hc hr
  have order := moveOrder_eq hc hr target
  refine ⟨settlePermission_nothing, fun held => ?_, fun held perm => ?_, fun perm => ?_⟩
  · rw [order, if_pos held]
  · rw [order, held, perm]
    rfl
  · rw [heldOccupied_of_permission perm, perm] at order
    replace order : s.moveOrder p target = (s.settlePermission p).orderPermitted p target c r := order
    rw [order]
    refine ⟨fun h => orderPermitted_there h _ _ _, fun h => ?_, fun h ht => ?_, fun h ht => ?_, fun h => orderPermitted_faulty h _ _ _ _⟩
    · refine ⟨_, orderPermitted_away h _ _ _, ?_, fun q hq => List.getElem?_modify_ne _ _ hq.symm, rfl, rfl⟩
      simp [hr, PointRec.driving, startTimer]
    · rw [orderPermitted_moving h, if_pos ht]
    · rw [orderPermitted_moving h, if_neg ht]

/-! ### The travel timer (R23, R24, R30) -/

/-- The first try that runs out: the drive turns back toward the start position, where it may. -/
theorem travelExpiry_firstTry {s : State} {p : Nat} {c : PointCfg} {r : PointRec} {target start : Position}
    (hc : s.yard.points[p]? = some c) (hr : s.pu.points[p]? = some r) (due : due r.travel = true) (ht : r.target = some target)
    (hs : r.start = some start) (hst : r.state = .moving) (retry : r.retry = false) :
    s.travelExpiry p = s.turnDrive p c.sect (PointRec.driving .backing target start start false (1000 * c.travel)) := by
  simp [State.travelExpiry, hc, hr, due, ht, hs, hst, retry]

/-- The back-drive, or the retry, that runs out fails the point; the phase of the report tells which. -/
theorem travelExpiry_lastTry {s : State} {p : Nat} {c : PointCfg} {r : PointRec} {target start : Position}
    (hc : s.yard.points[p]? = some c) (hr : s.pu.points[p]? = some r) (due : due r.travel = true) (ht : r.target = some target)
    (hs : r.start = some start) (h : r.state = .backing ∨ (r.state = .moving ∧ r.retry = true)) :
    s.travelExpiry p = s.failPoint p target (if r.state = .backing then 1 else 0) := by
  rcases h with hst | ⟨hst, retry⟩
  · simp [State.travelExpiry, hc, hr, due, ht, hs, hst]
  · simp [State.travelExpiry, hc, hr, due, ht, hs, hst, retry]

/-- A point that has failed, before RP reports it: FAILED, with its counter and its MOVE_FAIL. -/
def pointFailed (s : State) (p : Nat) : State :=
  { s with
    pu := { s.pu with points := s.pu.points.modify p (fun _ => PointRec.rest .failed), fails := s.pu.fails.modify p bump }
    ct := { s.ct with reports := s.ct.reports ++ [.moveFail p .timeout] } }

/-- The failure of a point is that, and its EVENT. -/
theorem failPoint_eq (s : State) (p : Nat) (target : Position) (phase : Nat) :
    s.failPoint p target phase = (pointFailed s p).eventSent 2
      ([byte p, byte target.code, byte phase] ++ bytes2 ((s.pu.fails.modify p bump).getD p 0).toNat) := rfl

/-- An EVENT takes one serial, and leaves PU and CT as they are. -/
theorem eventSent_pu_ct_serial (s : State) (kind : Nat) (fields : List Byte) :
    (s.eventSent kind fields).pu = s.pu ∧ (s.eventSent kind fields).ct = s.ct
    ∧ (s.eventSent kind fields).rp.serial = s.rp.serial + 1 := by
  simp [State.eventSent]

/-- Settles O14: the first try by R19 and R23, the later ones by R23, R24 and R30. -/
theorem travelTimerExpiryBacksOrFails : Obligations.TravelTimerExpiryBacksOrFails := by
  intro p s c r target start hc hr due ht hs
  refine ⟨fun hst retry perm => ?_, fun hst retry perm => ?_, fun h => ?_⟩
  · have run := travelExpiry_firstTry hc hr due ht hs hst retry
    rw [turnDrive_eq hr (.inl hst), perm] at run
    obtain ⟨own, others⟩ := pointChanged_points hr (PointRec.rest .noDet)
      (some (.moveFail p (if s.heldOccupied c.sect = true then .occupied else .withdrawn)))
    refine ⟨_, congrArg Host.Outcome.next (run.trans ?_), own, others, rfl⟩
    cases s.heldOccupied c.sect <;> rfl
  · have run := travelExpiry_firstTry hc hr due ht hs hst retry
    rw [turnDrive_cases, if_pos perm] at run
    obtain ⟨own, others⟩ := pointChanged_points hr (PointRec.driving .backing target start start false (1000 * c.travel)) none
    exact ⟨_, congrArg Host.Outcome.next run, own, others, rfl⟩
  · have run := travelExpiry_lastTry hc hr due ht hs h
    rw [failPoint_eq] at run
    obtain ⟨hpu, hct, hserial⟩ := eventSent_pu_ct_serial (pointFailed s p) 2
      ([byte p, byte target.code, byte (if r.state = PointState.backing then 1 else 0)]
        ++ bytes2 ((s.pu.fails.modify p bump).getD p 0).toNat)
    rw [← run] at hpu hct hserial
    refine ⟨s.travelExpiry p, rfl, ?_, fun q hq => ?_, ?_, hct, hserial, ?_⟩
    · simp [hpu, pointFailed, hr]
    · rw [hpu]
      exact List.getElem?_modify_ne _ _ hq.symm
    · rw [hpu]
      rfl
    · rw [hpu, hct]
      exact run

/-! ### Points one after the other -/

/-- Changing each record of a list in turn: every record is changed once, by what stands for its index. -/
theorem foldl_modify_range {α : Type} (f : Nat → α → α) (l : List α) :
    (List.range l.length).foldl (fun m p => m.modify p (f p)) l = l.mapIdx f := by
  have upTo : ∀ n, ∀ q : Nat, ((List.range n).foldl (fun m p => m.modify p (f p)) l)[q]?
      = (l[q]?).map (fun x => if q < n then f q x else x) := by
    intro n
    induction n with
    | zero => simp
    | succ n ih =>
      intro q
      rw [List.range_succ, List.foldl_concat, List.getElem?_modify, ih, ← Option.map_eq_map]
      cases l[q]? with
      | none => rfl
      | some x =>
        by_cases hq : n = q
        · subst hq
          simp
        · have : q < n + 1 ↔ q < n := by omega
          simp [hq, this]
  refine List.ext_getElem? fun q => ?_
  rw [upTo, List.getElem?_mapIdx]
  cases hx : l[q]? with
  | none => rfl
  | some x => simp [(List.getElem?_eq_some_iff.mp hx).1]

/-- Where the operation of each point changes its record and gives CT a report, and neither depends on what the operations of the others
did, running it for every point changes every record once, and the reports go to CT in index order (log entry 33). -/
theorem forEach_pointChanged {op : Nat → State → State} {f : State → Nat → PointRec → PointRec}
    {report : State → Nat → Option PuReport} (change : ∀ p s, op p s = pointChanged s p (f s p) (report s p))
    (apart : ∀ s p q, q ≠ p → ∀ g x, f (pointChanged s q g x) p = f s p ∧ report (pointChanged s q g x) p = report s p) (s : State) :
    forEach (List.range s.pu.points.length) op s = { s with
      pu := { s.pu with points := s.pu.points.mapIdx (f s) }
      ct := { s.ct with reports := s.ct.reports ++ (List.range s.pu.points.length).filterMap (report s) } } := by
  have inTurn : ∀ ps : List Nat, ps.Nodup → ∀ s : State, forEach ps op s = { s with
      pu := { s.pu with points := ps.foldl (fun m p => m.modify p (f s p)) s.pu.points }
      ct := { s.ct with reports := s.ct.reports ++ ps.filterMap (report s) } } := by
    intro ps
    induction ps with
    | nil =>
      intro _ s
      simp [forEach]
    | cons p ps ih =>
      intro hps s
      obtain ⟨hp, hps⟩ := List.nodup_cons.mp hps
      have others : ∀ q ∈ ps, f (pointChanged s p (f s p) (report s p)) q = f s q
          ∧ report (pointChanged s p (f s p) (report s p)) q = report s q :=
        fun q hq => apart s q p (ne_of_mem_of_not_mem hq hp).symm _ _
      have records : ∀ l : List PointRec,
          ps.foldl (fun m q => m.modify q (f (pointChanged s p (f s p) (report s p)) q)) l
            = ps.foldl (fun m q => m.modify q (f s q)) l :=
        fun l => List.foldl_ext _ _ _ fun m q hq => by rw [(others q hq).1]
      rw [forEach, ih hps, change, records, List.filterMap_congr fun q hq => (others q hq).2]
      cases hrep : report s p <;> simp [pointChanged, hrep]
  rw [inTurn _ List.nodup_range, foldl_modify_range]

/-! ### A window (R19, R22, R23, R27) -/

/-- Only a point in BACKING begins a retry. -/
theorem evaluate_retry {r : PointRec} {c : Contact} {ms : Nat} (h : (r.evaluate c ms).2 = .retry) : r.state = .backing := by
  cases hst : r.state with
  | backing => rfl
  | moving =>
    rw [evaluate_moving hst, PointRec.evalMoving] at h
    (repeat' split at h) <;> cases h
  | detN =>
    rw [evaluate_detected (own := .normal) hst, PointRec.evalDetected] at h
    (repeat' split at h) <;> cases h
  | detR =>
    rw [evaluate_detected (own := .reverse) hst, PointRec.evalDetected] at h
    (repeat' split at h) <;> cases h
  | noDet => rw [evaluate_faulty (.inl hst)] at h; cases h
  | bothDet => rw [evaluate_faulty (.inr (.inl hst))] at h; cases h
  | failed => rw [evaluate_faulty (.inr (.inr hst))] at h; cases h

/-- What the window's reading makes of the record `x` of a point that is configured as `c`. -/
def pointEvaluated (n r : BitVec 8) (p : Nat) (c : PointCfg) (x : PointRec) : PointRec × PointEffect :=
  x.evaluate (contactReading (n.getLsbD p) (r.getLsbD p)) (1000 * c.travel)

/-- The record of point `p` after the window; a retry without the permission ends in NO_DET (R19). -/
def pointAfter (n r : BitVec 8) (s : State) (p : Nat) (x : PointRec) : PointRec :=
  match s.yard.points[p]? with
  | some c =>
    if (pointEvaluated n r p c x).2 = .retry ∧ s.drivePermission c.sect = false then PointRec.rest .noDet
    else (pointEvaluated n r p c x).1
  | none => x

/-- The report of point `p` in the window. -/
def pointReport (n r : BitVec 8) (s : State) (p : Nat) : Option PuReport :=
  match s.yard.points[p]?, s.pu.points[p]? with
  | some c, some x =>
    match (pointEvaluated n r p c x).2 with
    | .nothing => none
    | .moveDone => some (.moveDone p)
    | .detectionLost => if (s.lock? c.sect).isSome then some (.detectionLost p) else none
    | .retry =>
      if s.heldOccupied c.sect then some (.moveFail p .occupied)
      else if s.drivePermission c.sect then none
      else some (.moveFail p .withdrawn)
  | _, _ => none

/-- The reports of all points, in rising index, are those that the statement names. -/
theorem pointReports_eq (n r : BitVec 8) (s : State) :
    pointReports n r s = (List.range s.pu.points.length).filterMap (pointReport n r s) := by
  refine List.filterMap_congr fun p _ => ?_
  unfold pointReport
  cases s.yard.points[p]? with
  | none => rfl
  | some c =>
    cases s.pu.points[p]? with
    | none => rfl
    | some x => rfl

/-- What the effect of a configured point's reading leads to. -/
theorem evaluatePoint_configured {n r : BitVec 8} {p : Nat} {s : State} {c : PointCfg} {x : PointRec}
    (hc : s.yard.points[p]? = some c) (hx : s.pu.points[p]? = some x) :
    State.evaluatePoint n r p s =
      match (pointEvaluated n r p c x).2 with
      | .nothing => s.modPoint p (fun _ => (pointEvaluated n r p c x).1)
      | .moveDone => (s.modPoint p (fun _ => (pointEvaluated n r p c x).1)).reportToCt (.moveDone p)
      | .detectionLost =>
        if (s.lock? c.sect).isSome then (s.modPoint p (fun _ => (pointEvaluated n r p c x).1)).reportToCt (.detectionLost p)
        else s.modPoint p (fun _ => (pointEvaluated n r p c x).1)
      | .retry => s.turnDrive p c.sect (pointEvaluated n r p c x).1 := by
  rw [State.evaluatePoint, hc, hx]
  rfl

/-- The evaluation of a point is the change of its record and its report. -/
theorem evaluatePoint_eq (n r : BitVec 8) (p : Nat) (s : State) :
    State.evaluatePoint n r p s = pointChanged s p (pointAfter n r s p) (pointReport n r s p) := by
  cases hc : s.yard.points[p]? with
  | none =>
    have report : pointReport n r s p = none := by simp [pointReport, hc]
    rw [report, pointChanged_none fun x _ => by simp [pointAfter, hc]]
    simp [State.evaluatePoint, hc]
  | some c =>
    cases hx : s.pu.points[p]? with
    | none =>
      have report : pointReport n r s p = none := by simp [pointReport, hc, hx]
      rw [report, pointChanged_none fun x h => by rw [hx] at h; cases h]
      simp [State.evaluatePoint, hc, hx]
    | some x =>
      rw [pointChanged_const hx, evaluatePoint_configured hc hx]
      simp only [pointAfter, pointReport, hc, hx]
      cases he : (pointEvaluated n r p c x).2 with
      | nothing => simp [pointChanged, State.modPoint]
      | moveDone => simp [pointChanged, State.modPoint, State.reportToCt]
      | detectionLost => cases (s.lock? c.sect).isSome <;> simp [pointChanged, State.modPoint, State.reportToCt]
      | retry =>
        dsimp only
        rw [turnDrive_eq hx (.inr (evaluate_retry he))]
        simp

/-- What the evaluation of a point makes of its record, and its report, depend on the point alone. -/
theorem pointChanged_apart (n r : BitVec 8) (s : State) (p q : Nat) (h : q ≠ p) (g : PointRec → PointRec) (x : Option PuReport) :
    pointAfter n r (pointChanged s q g x) p = pointAfter n r s p
    ∧ pointReport n r (pointChanged s q g x) p = pointReport n r s p := by
  have record : (pointChanged s q g x).pu.points[p]? = s.pu.points[p]? := List.getElem?_modify_ne _ _ h
  refine ⟨rfl, ?_⟩
  unfold pointReport
  rw [record]
  rfl

/-- The window's readings, taken. -/
theorem evaluatePoints_eq {s : State} {n r : BitVec 8} (h : s.pu.readings = some (n, r)) :
    evaluatePoints s = { s with
      pu := { s.pu with points := s.pu.points.mapIdx (pointAfter n r s), readings := none }
      ct := { s.ct with reports := s.ct.reports ++ pointReports n r s } } := by
  rw [pointReports_eq]
  simp only [evaluatePoints, h]
  exact forEach_pointChanged (evaluatePoint_eq n r) (pointChanged_apart n r)
    { s with pu := { s.pu with readings := none } }

/-- Settles O13: each point by its own reading, and the reports in rising index. -/
theorem pointWindowEvaluatesEveryPoint : Obligations.PointWindowEvaluatesEveryPoint := by
  intro s n r hread
  refine ⟨_, congrArg Host.Outcome.next (evaluatePoints_eq hread), rfl, fun p c x hc hx => ?_, rfl⟩
  rw [List.getElem?_mapIdx, hx, Option.map_some, pointAfter, hc]
  rfl

/-! ### Notices that stop a point (R25, R26) -/

/-- PU has taken the oldest permission-end notice for point `p` from its list. -/
def permissionTaken (s : State) (p : Nat) : State :=
  { s with pu := { s.pu with permEnds := s.pu.permEnds.erase p } }

/-- PERMISSION_END with a notice waiting. -/
theorem exec_permissionEnd {p : Nat} {s : State} (h : s.pu.permEnds.contains p = true) :
    exec (.permissionEnd p) s = .next ((permissionTaken s p).stopPoint p .withdrawn) :=
  congrArg Host.Outcome.next (if_pos h)

theorem permissionEndStopsAMovingPoint : Clause.PermissionEndStopsAMovingPoint := by
  intro p s r hperm hr
  have run := exec_permissionEnd hperm
  have record : (permissionTaken s p).pu.points[p]? = some r := hr
  by_cases h : r.state = .moving ∨ r.state = .backing
  · rw [stopPoint_moving record h] at run
    obtain ⟨own, others⟩ := pointChanged_points record (PointRec.rest .noDet) (some (.moveFail p .withdrawn))
    exact ⟨_, run, rfl, fun _ => ⟨own, others, rfl⟩, fun hm hb => absurd h (by simp [hm, hb])⟩
  · rw [stopPoint_still record h] at run
    exact ⟨_, run, rfl, fun hm => absurd hm h, fun _ _ => rfl⟩

/-- The operation of point `p` on a notice that section `k` leaves CLEAR. -/
def leaveClear (k p : Nat) (s : State) : State :=
  match s.yard.points[p]? with
  | some c => if c.sect = k then s.stopPoint p .occupied else s
  | none => s

/-- The record of point `p` once section `k` has left CLEAR. -/
def leftClearRec (k : Nat) (s : State) (p : Nat) (r : PointRec) : PointRec :=
  match s.yard.points[p]? with
  | some c => if c.sect = k then stoppedRec r else r
  | none => r

/-- The report of point `p` then. -/
def leftClearReport (k : Nat) (s : State) (p : Nat) : Option PuReport :=
  match s.yard.points[p]? with
  | some c => if c.sect = k then stopReport s p .occupied else none
  | none => none

/-- The operation of a point is the change of its record and its report. -/
theorem leaveClear_eq (k p : Nat) (s : State) :
    leaveClear k p s = pointChanged s p (leftClearRec k s p) (leftClearReport k s p) := by
  unfold leaveClear leftClearReport
  cases hc : s.yard.points[p]? with
  | none => exact (pointChanged_none fun r _ => by rw [leftClearRec, hc]).symm
  | some c =>
    by_cases hk : c.sect = k
    · have record : leftClearRec k s p = stoppedRec := funext fun r => by simp only [leftClearRec, hc, if_pos hk]
      simp only [if_pos hk, record, stopPoint_eq]
    · simp only [if_neg hk]
      exact (pointChanged_none fun r _ => by simp only [leftClearRec, hc, if_neg hk]).symm

/-- Both depend on the point alone. -/
theorem leftClear_apart (k : Nat) (s : State) (p q : Nat) (h : q ≠ p) (g : PointRec → PointRec) (x : Option PuReport) :
    leftClearRec k (pointChanged s q g x) p = leftClearRec k s p
    ∧ leftClearReport k (pointChanged s q g x) p = leftClearReport k s p := by
  have record : (pointChanged s q g x).pu.points[p]? = s.pu.points[p]? := List.getElem?_modify_ne _ _ h
  refine ⟨rfl, ?_⟩
  unfold leftClearReport stopReport
  rw [record]
  rfl

/-- The reports of all points, in rising index, are those that the statement names. -/
theorem stopReports_eq (k : Nat) (s : State) :
    stopReports k s = (List.range s.pu.points.length).filterMap (leftClearReport k s) := by
  refine List.filterMap_congr fun p _ => ?_
  unfold leftClearReport stopReport
  cases s.yard.points[p]? with
  | none => rfl
  | some c =>
    cases s.pu.points[p]? with
    | none => simp
    | some r => by_cases hk : c.sect = k <;> simp [hk]

/-- A notice that a section leaves CLEAR. -/
theorem puNotice_leavesClear {n : SectNotice} (h : n.before = .clear ∧ n.after ≠ .clear) (s : State) :
    s.puNotice n = { s with
      pu := { s.pu with points := s.pu.points.mapIdx (leftClearRec n.sect s) }
      ct := { s.ct with reports := s.ct.reports ++ stopReports n.sect s } } := by
  rw [stopReports_eq]
  exact (if_pos h).trans (forEach_pointChanged (leaveClear_eq n.sect) (leftClear_apart n.sect) s)

/-- PU_SECTION_CHANGE with a notice about the section waiting. -/
theorem exec_puSectionChange {k : Nat} {s : State} {n : SectNotice} {rest : List SectNotice}
    (h : takeFirst (fun x => x.sect == k) s.pu.notices = some (n, rest)) :
    exec (.puSectionChange k) s = .next (({ s with pu := { s.pu with notices := rest } } : State).puNotice n) := by
  change execPuSectionChange k s = _
  rw [execPuSectionChange, h]

theorem sectionLeavingClearStopsItsPoints : Clause.SectionLeavingClearStopsItsPoints := by
  intro k s n rest htake
  have run := exec_puSectionChange htake
  by_cases h : n.before = .clear ∧ n.after ≠ .clear
  · rw [puNotice_leavesClear h] at run
    refine ⟨_, run, fun p c r hc hr => ?_, ?_, rfl⟩
    · by_cases hk : c.sect = n.sect <;> simp [hr, leftClearRec, hc, hk, h, stoppedRec]
    · rw [if_pos h]
      rfl
  · rw [State.puNotice, if_neg h] at run
    refine ⟨_, run, fun p c r _ hr => ?_, ?_, rfl⟩
    · rw [if_neg fun hn => h ⟨hn.1, hn.2.1⟩]
      exact hr
    · rw [if_neg h, List.append_nil]

/-- Settles O15: a permission end, and a section that leaves CLEAR. -/
theorem noticesStopMovingPoints : Obligations.NoticesStopMovingPoints :=
  ⟨permissionEndStopsAMovingPoint, sectionLeavingClearStopsItsPoints⟩

end Sys2Proof.Proofs
end

