-- ==== Sys2Proof/Proofs/Signals.lean ====
section
/-! PROOF. PROCEED and STOP commands (O16, O17) and the two timers of a signal (O17): which record they leave, and what they tell RE. -/

namespace Sys2Proof.Proofs
open Sys2Proof.Machine Sys2Proof.Laws

/-! ### A signal that changes, with its report -/

/-- The record of signal `g` becomes `x`, and SU gives RE the reports. -/
def signalChanged (s : State) (g : Nat) (x : SignalRec) (reports : List SuReport) : State :=
  { s with
    su := { s.su with signals := s.su.signals.set g x }
    re := { s.re with reports := s.re.reports ++ reports } }

/-- One that keeps its record and reports nothing changes nothing. -/
theorem signalChanged_same {s : State} {g : Nat} {r : SignalRec} (hr : s.su.signals[g]? = some r) (reports : List SuReport) :
    signalChanged s g r reports = { s with re := { s.re with reports := s.re.reports ++ reports } } := by
  obtain ⟨hg, rfl⟩ := List.getElem?_eq_some_iff.mp hr
  rw [signalChanged, List.set_getElem_self]

/-- The records after a change: the signal's own, and every other as it was. -/
theorem signalChanged_signals {s : State} {g : Nat} {r : SignalRec} (hr : s.su.signals[g]? = some r) (x : SignalRec)
    (reports : List SuReport) :
    (signalChanged s g x reports).su.signals[g]? = some x
    ∧ ∀ h : Nat, h ≠ g → (signalChanged s g x reports).su.signals[h]? = s.su.signals[h]? :=
  ⟨List.getElem?_set_self (List.getElem?_eq_some_iff.mp hr).1, fun _ hh => List.getElem?_set_ne hh.symm⟩

/-- Changing the record of a signal that has one sets it. -/
theorem modSignal_eq {s : State} {g : Nat} {r : SignalRec} (hr : s.su.signals[g]? = some r) (f : SignalRec → SignalRec) :
    s.modSignal g f = { s with su := { s.su with signals := s.su.signals.set g (f r) } } := by
  simp [State.modSignal, List.modify_eq_set_getElem?, hr]

/-! ### PROCEED (R33) -/

/-- What R33 makes of a signal's record on PROCEED toward `d`, and what it tells RE. -/
def proceedRow (c : SignalCfg) (g : Nat) (d : Direction) (r : SignalRec) : SignalRec × List SuReport :=
  match r.state with
  | .stop => if c.has d then (SignalRec.clearingFor d, []) else (r, [.clearFail g])
  | .clearing | .proceed => if r.dir = some d then (r, []) else (SignalRec.atStop, [.clearFail g])
  | .lampFault => (r, [.clearFail g])

/-- A PROCEED command does what its row says, and no more. -/
theorem takeProceed_eq {s : State} {g : Nat} {c : SignalCfg} {r : SignalRec} (hc : s.yard.signals[g]? = some c)
    (hr : s.su.signals[g]? = some r) (d : Direction) :
    s.takeProceed g d = signalChanged s g (proceedRow c g d r).1 (proceedRow c g d r).2 := by
  have stays : s = signalChanged s g r [] := by rw [signalChanged_same hr, List.append_nil]
  have fails : s.reportToRe (.clearFail g) = signalChanged s g r [.clearFail g] := (signalChanged_same hr _).symm
  have stops : (s.modSignal g (fun _ => SignalRec.atStop)).reportToRe (.clearFail g)
      = signalChanged s g SignalRec.atStop [.clearFail g] := by rw [modSignal_eq hr]; rfl
  have clears : s.modSignal g (fun _ => SignalRec.clearingFor d) = signalChanged s g (SignalRec.clearingFor d) [] := by
    rw [modSignal_eq hr, signalChanged, List.append_nil]
  cases hst : r.state with
  | stop =>
    cases hd : c.has d with
    | true => simp only [State.takeProceed, proceedRow, hc, hr, hst, hd, clears, if_true]
    | false =>
      simp only [State.takeProceed, proceedRow, hc, hr, hst, hd, fails]
      rfl
  | clearing =>
    by_cases hd : r.dir = some d <;> simp only [State.takeProceed, proceedRow, hc, hr, hst, hd, stops, if_true, if_false]
    exact stays
  | proceed =>
    by_cases hd : r.dir = some d <;> simp only [State.takeProceed, proceedRow, hc, hr, hst, hd, stops, if_true, if_false]
    exact stays
  | lampFault => simp only [State.takeProceed, proceedRow, hc, hr, hst, fails]

/-- SU with the oldest command for a signal taken. -/
def commandTaken (s : State) (rest : List SuCommand) : State :=
  { s with su := { s.su with commands := rest } }

/-- PROCEED_COMMAND where the oldest command for the signal is a PROCEED. -/
theorem exec_proceedCommand {g g' : Nat} {d : Direction} {s : State} {rest : List SuCommand}
    (h : takeFirst (fun x => x.signal == g) s.su.commands = some (.proceed g' d, rest)) :
    exec (.proceedCommand g) s = .next ((commandTaken s rest).takeProceed g d) := by
  change execProceedCommand g s = _
  rw [execProceedCommand, h]
  rfl

/-- Settles O16: each state's row of R33. -/
theorem proceedCommandTable : Obligations.ProceedCommandTable := by
  intro g d s c r rest g' hc hr htake
  have record : (commandTaken s rest).su.signals[g]? = some r := hr
  have run := exec_proceedCommand htake
  rw [takeProceed_eq (s := commandTaken s rest) hc record] at run
  obtain ⟨own, others⟩ := signalChanged_signals record (proceedRow c g d r).1 (proceedRow c g d r).2
  have row : ∀ {x reports}, proceedRow c g d r = (x, reports) →
      (signalChanged (commandTaken s rest) g (proceedRow c g d r).1 (proceedRow c g d r).2).su.signals[g]? = some x
      ∧ (signalChanged (commandTaken s rest) g (proceedRow c g d r).1 (proceedRow c g d r).2).re
        = { s.re with reports := s.re.reports ++ reports } := by
    intro x reports h
    rw [own, h]
    exact ⟨rfl, rfl⟩
  have silent : { s.re with reports := s.re.reports ++ [] } = s.re := by rw [List.append_nil]
  refine ⟨_, run, others, fun hst hd => ?_, fun hst hd => ?_, fun hst hd => ?_, fun hst hd => ?_, fun hst => ?_, rfl⟩
  · have := row (x := SignalRec.clearingFor d) (reports := []) (by simp only [proceedRow, hst, hd, if_true])
    rwa [silent] at this
  · exact row (by simp only [proceedRow, hst, hd]; rfl)
  · have := row (x := r) (reports := []) (by rcases hst with hst | hst <;> simp only [proceedRow, hst, hd, if_true])
    rwa [silent] at this
  · exact row (x := SignalRec.atStop) (by rcases hst with hst | hst <;> simp only [proceedRow, hst, hd, if_false])
  · exact row (by simp only [proceedRow, hst])

/-! ### STOP (R35) -/

/-- A STOP command ends CLEARING and PROCEED, and changes no other signal. -/
theorem takeStop_eq {s : State} {g : Nat} {r : SignalRec} (hr : s.su.signals[g]? = some r) :
    s.takeStop g = signalChanged s g (if r.state = .clearing ∨ r.state = .proceed then SignalRec.atStop else r) [] := by
  have stays : s = signalChanged s g r [] := by rw [signalChanged_same hr, List.append_nil]
  have stops : s.modSignal g (fun _ => SignalRec.atStop) = signalChanged s g SignalRec.atStop [] := by
    rw [modSignal_eq hr, signalChanged, List.append_nil]
  cases hst : r.state with
  | stop => simpa [State.takeStop, hr, hst] using stays
  | clearing => simpa [State.takeStop, hr, hst] using stops
  | proceed => simpa [State.takeStop, hr, hst] using stops
  | lampFault => simpa [State.takeStop, hr, hst] using stays

/-- STOP_COMMAND where the oldest command for the signal is a STOP. -/
theorem exec_stopCommand {g g' : Nat} {s : State} {rest : List SuCommand}
    (h : takeFirst (fun x => x.signal == g) s.su.commands = some (.stop g', rest)) :
    exec (.stopCommand g) s = .next ((commandTaken s rest).takeStop g) := by
  change execStopCommand g s = _
  rw [execStopCommand, h]
  rfl

theorem stopCommandShowsStop : Clause.StopCommandShowsStop := by
  intro g g' s r rest hr htake
  have record : (commandTaken s rest).su.signals[g]? = some r := hr
  have run := exec_stopCommand htake
  rw [takeStop_eq record] at run
  obtain ⟨own, others⟩ := signalChanged_signals record
    (if r.state = .clearing ∨ r.state = .proceed then SignalRec.atStop else r) []
  refine ⟨_, run, own, others, ?_⟩
  simp [signalChanged, commandTaken]

/-! ### The clearing timer and the trial timer (R34, R37) -/

/-- The clearing timer at its limit in CLEARING. -/
theorem clearingExpiry_due {s : State} {g : Nat} {r : SignalRec} (hr : s.su.signals[g]? = some r) (hst : r.state = .clearing)
    (hdue : due r.clearing = true) : s.clearingExpiry g = signalChanged s g SignalRec.atStop [.clearFail g] := by
  simp only [State.clearingExpiry, hr, hst, hdue, modSignal_eq hr]
  rfl

/-- The trial timer at the end of phase DARK. -/
theorem trialExpiry_dark {s : State} {g : Nat} {r : SignalRec} {e : Timer} (hr : s.su.signals[g]? = some r)
    (hst : r.state = .lampFault) (ht : r.trial = some (.dark, e)) (hdue : e.limit ≤ e.elapsed) :
    s.trialExpiry g = { s with su := { s.su with
      signals := s.su.signals.set g { r with lit := some .stop, proof := 0, trial := some (.lit, ⟨0, 100⟩), sent := 0 } } } := by
  simp only [State.trialExpiry, hr, hst, ht, if_pos hdue, modSignal_eq hr]
  rfl

/-- The trial timer at the end of phase LIT. -/
theorem trialExpiry_lit {s : State} {g : Nat} {r : SignalRec} {e : Timer} (hr : s.su.signals[g]? = some r)
    (hst : r.state = .lampFault) (ht : r.trial = some (.lit, e)) (hdue : e.limit ≤ e.elapsed) :
    s.trialExpiry g = { s with su := { s.su with
      signals := s.su.signals.set g { r with lit := none, trial := some (.dark, ⟨0, 1000⟩) } } } := by
  simp only [State.trialExpiry, hr, hst, ht, if_pos hdue, modSignal_eq hr]
  rfl

theorem signalTimersExpire : Clause.SignalTimersExpire := by
  intro g s r hr
  refine ⟨fun hst hdue => ?_, fun e hst ht hdue => ?_, fun e hst ht hdue => ?_⟩
  · exact ⟨_, congrArg Host.Outcome.next (clearingExpiry_due hr hst hdue), rfl, rfl⟩
  · exact ⟨_, congrArg Host.Outcome.next (trialExpiry_dark hr hst ht hdue), rfl, rfl⟩
  · exact ⟨_, congrArg Host.Outcome.next (trialExpiry_lit hr hst ht hdue), rfl, rfl⟩

/-- Settles O17: STOP commands, and the two timers. -/
theorem stopCommandsAndSignalTimers : Obligations.StopCommandsAndSignalTimers :=
  ⟨stopCommandShowsStop, signalTimersExpire⟩

end Sys2Proof.Proofs
end

