-- ==== Sys2Proof/Proofs/ScanReports.lean ====
section
/-! PROOF. Of what waits for RE, the reports of SU are given by SU alone: no operation that an activation scan runs (R83, R84) adds to
them, nor does one touch the fault marks of RQ (R82). One lemma per operation, from the handovers up to the scan. -/

namespace Sys2Proof.Proofs
open Sys2Proof.Machine Sys2Proof.Laws

/-- Where no item's operation adds a report of SU, `forEach` adds none. -/
theorem forEach_reports {α : Type} (l : List α) (f : α → State → State) (s : State)
    (h : ∀ x s, (f x s).re.reports = s.re.reports) : (forEach l f s).re.reports = s.re.reports :=
  forEach_keeps (·.re.reports) l f h s

/-! ### YU (R147, R151 to R156) -/

@[simp] theorem tellRe_reports (s : State) (dest : Nat) (m : ReMsg) : (s.tellRe dest m).re.reports = s.re.reports := by
  unfold State.tellRe
  (repeat' split) <;> simp

@[simp] theorem sendRoadChange_reports (s : State) (r : Nat) : (s.sendRoadChange r).re.reports = s.re.reports := by
  unfold State.sendRoadChange
  (repeat' split) <;> simp

@[simp] theorem announceGains_reports (s : State) (old : List RoadRec) : (s.announceGains old).re.reports = s.re.reports := by
  refine forEach_reports _ _ _ fun r s => ?_
  (repeat' split) <;> simp

@[simp] theorem takeBidCall_reports (s : State) (call : CallId) (epoch : Epoch) (t : TramRec) :
    (s.takeBidCall call epoch t).re.reports = s.re.reports := by
  unfold State.takeBidCall State.answerCall
  dsimp only
  (repeat' split) <;> simp

@[simp] theorem takeAward_reports (s : State) (call : CallId) (epoch : Epoch) (road : Nat) (t : TramRec) (direct : Bool) :
    (s.takeAward call epoch road t direct).re.reports = s.re.reports := by
  unfold State.takeAward
  dsimp only
  (repeat' split) <;> simp

@[simp] theorem takeWithdraw_reports (s : State) (call : CallId) (epoch : Epoch) :
    (s.takeWithdraw call epoch).re.reports = s.re.reports := by
  unfold State.takeWithdraw
  simp

@[simp] theorem unlinkArrival_reports (s : State) (id : Nat) : (s.unlinkArrival id).re.reports = s.re.reports := by
  unfold State.unlinkArrival
  simp

@[simp] theorem takePush_reports (s : State) (r : Nat) (call : CallId) (key : RouteKey) (tram : Nat) :
    (s.takePush r call key tram).re.reports = s.re.reports := by
  unfold State.takePush State.pushArrival
  dsimp only
  (repeat' split) <;> simp

@[simp] theorem takePop_reports (s : State) (r tram : Nat) : (s.takePop r tram).re.reports = s.re.reports := by
  unfold State.takePop
  dsimp only
  (repeat' split) <;> simp

@[simp] theorem yuTakes_reports (s : State) (m : YuMsg) : (s.yuTakes m).re.reports = s.re.reports := by
  unfold State.yuTakes
  (repeat' split) <;> simp

@[simp] theorem yuTakesAll_reports (s : State) : s.yuTakesAll.re.reports = s.re.reports :=
  forEach_reports _ _ _ fun m s => yuTakes_reports s m

/-! ### CT (R95 to R105, R113) -/

@[simp] theorem denyTo_reports (s : State) (dest : Nat) (key : RouteKey) (reason : DenyReason) (step : Nat) (detail : Option Nat) :
    (s.denyTo dest key reason step detail).re.reports = s.re.reports := by
  unfold State.denyTo
  split <;> simp

@[simp] theorem mouthRelease_reports (s : State) (id : Nat) (c : Claim) (st : ClaimStep) :
    (s.mouthRelease id c st).re.reports = s.re.reports := by
  unfold State.mouthRelease
  (repeat' split) <;> simp

@[simp] theorem releaseStep_reports (s : State) (id i : Nat) (tell : Bool) :
    (s.releaseStep id i tell).re.reports = s.re.reports := by
  unfold State.releaseStep
  dsimp only
  (repeat' split) <;> simp

@[simp] theorem releaseClear_reports (s : State) (id : Nat) : (s.releaseClear id).re.reports = s.re.reports := by
  refine forEach_reports _ _ _ fun i s => ?_
  split <;> simp

@[simp] theorem windDown_reports (s : State) (id : Nat) : (s.windDown id).re.reports = s.re.reports := by
  unfold State.windDown
  dsimp only
  (repeat' split) <;> simp

@[simp] theorem grantClaim_reports (s : State) (req : ClaimReq) (cls : RouteClass) (id : Nat) (free : List Nat) :
    (s.grantClaim req cls id free).re.reports = s.re.reports := by
  unfold State.grantClaim
  dsimp only
  split <;> simp

@[simp] theorem checkSteps_reports (s : State) (req : ClaimReq) : (s.checkSteps req).re.reports = s.re.reports := by
  unfold State.checkSteps State.finishClaim
  (repeat' split) <;> simp

@[simp] theorem checkEarlier_reports (s : State) (req : ClaimReq) : (s.checkEarlier req).re.reports = s.re.reports := by
  have wound : ∀ l : List Nat, ∀ s : State, (forEach l (fun id s => s.windDown id) s).re.reports = s.re.reports :=
    fun l s => forEach_reports l _ s fun id s => windDown_reports s id
  unfold State.checkEarlier
  dsimp only
  (repeat' split) <;> simp [wound]

@[simp] theorem evaluateClaim_reports (s : State) (req : ClaimReq) (rx : Option RxRec) :
    (s.evaluateClaim req rx).re.reports = s.re.reports := by
  unfold State.evaluateClaim
  (repeat' split) <;> simp

@[simp] theorem sendSetFail_reports (s : State) (key : RouteKey) (point : Option Nat) (cause : SetFailCause) :
    (s.sendSetFail key point cause).re.reports = s.re.reports := by
  unfold State.sendSetFail
  simp

@[simp] theorem leaveSetting_reports (s : State) (id : Nat) : (s.leaveSetting id).re.reports = s.re.reports := by
  unfold State.leaveSetting
  dsimp only
  (repeat' split) <;> simp

@[simp] theorem enterSetting_reports (s : State) (id : Nat) (c : Claim) : (s.enterSetting id c).re.reports = s.re.reports := by
  unfold State.enterSetting
  dsimp only
  split <;> simp

@[simp] theorem takeSet_reports (s : State) (key : RouteKey) : (s.takeSet key).re.reports = s.re.reports := by
  unfold State.takeSet State.setReserved
  (repeat' split) <;> simp

@[simp] theorem takeRelease_reports (s : State) (key : RouteKey) : (s.takeRelease key).re.reports = s.re.reports := by
  unfold State.takeRelease
  split <;> simp

@[simp] theorem ctTakes_reports (s : State) (m : CtMsg) : (s.ctTakes m).re.reports = s.re.reports := by
  unfold State.ctTakes
  split <;> simp

@[simp] theorem ctTakesAll_reports (s : State) : s.ctTakesAll.re.reports = s.re.reports :=
  forEach_reports _ _ _ fun m s => ctTakes_reports s m

/-! ### RE and RQ (R83, R84, R122 to R128) -/

@[simp] theorem startCall_reports (s : State) (i : Nat) : (s.startCall i).re.reports = s.re.reports := by
  unfold State.startCall
  split <;> simp

@[simp] theorem enterBackoff_reports (s : State) (i : Nat) : (s.enterBackoff i).re.reports = s.re.reports := by
  unfold State.enterBackoff
  split <;> simp

@[simp] theorem endInst_reports_fault (s : State) (i : Nat) (x : Inst) (code : OutcomeCode) :
    (s.endInst i x code).re.reports = s.re.reports ∧ (s.endInst i x code).rq.fault = s.rq.fault :=
  ⟨rfl, rfl⟩

@[simp] theorem countFailure_reports_fault (s : State) (slot : Nat) :
    (s.countFailure slot).re.reports = s.re.reports ∧ (s.countFailure slot).rq.fault = s.rq.fault :=
  ⟨rfl, rfl⟩

@[simp] theorem makeAttempt_reports (s : State) (i : Nat) (x : Inst) (rc : RouteCfg) :
    (s.makeAttempt i x rc).re.reports = s.re.reports := by
  unfold State.makeAttempt
  simp

@[simp] theorem beginAttempt_reports_fault (s : State) (i : Nat) :
    (s.beginAttempt i).re.reports = s.re.reports ∧ (s.beginAttempt i).rq.fault = s.rq.fault := by
  unfold State.beginAttempt
  dsimp only
  (repeat' split) <;> simp

@[simp] theorem makeAward_reports_fault (s : State) (i : Nat) (x : Inst) (a : AwardRec) (route : Option Nat) :
    (s.makeAward i x a route).re.reports = s.re.reports ∧ (s.makeAward i x a route).rq.fault = s.rq.fault := by
  unfold State.makeAward
  dsimp only
  split <;> simp

@[simp] theorem directAward_reports_fault (s : State) (i : Nat) :
    (s.directAward i).re.reports = s.re.reports ∧ (s.directAward i).rq.fault = s.rq.fault := by
  unfold State.directAward
  (repeat' split) <;> simp

@[simp] theorem startInst_reports_fault (s : State) (i : Nat) (code : ReqCode) :
    (s.startInst i code).re.reports = s.re.reports ∧ (s.startInst i code).rq.fault = s.rq.fault := by
  unfold State.startInst
  split <;> simp

@[simp] theorem activate_reports_fault (s : State) (g k : Nat) (d : SlotData) (i : Nat) :
    (s.activate g k d i).re.reports = s.re.reports ∧ (s.activate g k d i).rq.fault = s.rq.fault := by
  unfold State.activate
  simp

@[simp] theorem visit_reports_fault (s : State) (n left g : Nat) :
    (s.visit n left g).re.reports = s.re.reports ∧ (s.visit n left g).rq.fault = s.rq.fault := by
  induction n generalizing s left g with
  | zero => simp [State.visit]
  | succ n ih =>
    cases left with
    | zero => simp [State.visit]
    | succ left =>
      rw [State.visit]
      split <;> simp [ih]

/-- The scan leaves the reports of SU and the fault marks as they are. -/
@[simp] theorem scan_reports_fault (s : State) : s.scan.re.reports = s.re.reports ∧ s.scan.rq.fault = s.rq.fault := by
  unfold State.scan
  simp

end Sys2Proof.Proofs
end

