-- ==== Sys2Proof/Proofs/Lamps.lean ====
section
/-! PROOF. The lamps of a signal (O32): what one reading does to a record, which reading counts, and what a window's evaluation gives to
RE, to RQ and to RP. -/

namespace Sys2Proof.Proofs
open Sys2Proof.Machine Sys2Proof.Laws

/-! ### One reading (R34, R36, R37) -/

/-- In CLEARING two proofs in a row lead to PROCEED. -/
theorem evaluate_clearing {r : SignalRec} {lamp : Lamp} (hlit : r.lit = some lamp) (h : r.state = .clearing) (cur : Bool) :
    r.evaluate (some cur) =
      if cur then
        if 1 ≤ r.proof then ({ r with state := .proceed, proof := 0, dark := 0, clearing := none }, .proved)
        else ({ r with proof := r.proof + 1 }, .nothing)
      else ({ r with proof := 0 }, .nothing) := by
  simp only [SignalRec.evaluate, hlit, h, ge_iff_le, Nat.reduceLeDiff]

/-- In STOP and in PROCEED two dark readings in a row fail the lamp. -/
theorem evaluate_shown {r : SignalRec} {lamp : Lamp} (hlit : r.lit = some lamp) (h : r.state = .stop ∨ r.state = .proceed)
    (cur : Bool) :
    r.evaluate (some cur) =
      if cur then ({ r with dark := 0 }, .nothing)
      else if 1 ≤ r.dark then (SignalRec.faulted, .failed r.state lamp)
      else ({ r with dark := r.dark + 1 }, .nothing) := by
  rcases h with h | h <;> simp only [SignalRec.evaluate, hlit, h, ge_iff_le, Nat.reduceLeDiff]

/-- In LAMP_FAULT three proofs in a row lead back to STOP, with the lamp as it is. -/
theorem evaluate_lampFault {r : SignalRec} {lamp : Lamp} (hlit : r.lit = some lamp) (h : r.state = .lampFault) (cur : Bool) :
    r.evaluate (some cur) =
      if cur then
        if 2 ≤ r.proof then ({ SignalRec.atStop with sent := r.sent }, .recovered)
        else ({ r with proof := r.proof + 1 }, .nothing)
      else ({ r with proof := 0 }, .nothing) := by
  simp only [SignalRec.evaluate, hlit, h, ge_iff_le, Nat.reduceLeDiff]

theorem lampReadingTable : Clause.LampReadingTable := by
  intro r lamp hlit
  refine ⟨rfl, fun h hrun => ?_, fun h hrun => ?_, fun h => ?_, fun h => ?_, fun h hrun => ?_, fun h hrun => ?_, fun h hrun => ?_,
    fun h hrun => ?_⟩
  · rw [evaluate_clearing hlit h, if_pos rfl, if_neg (by omega), hrun]
  · rw [evaluate_clearing hlit h, if_pos rfl, if_pos hrun]
  · rcases h with h | h
    · rw [evaluate_clearing hlit h, if_neg Bool.false_ne_true]
    · rw [evaluate_lampFault hlit h, if_neg Bool.false_ne_true]
  · rw [evaluate_shown hlit h, if_pos rfl]
  · rw [evaluate_shown hlit h, if_neg Bool.false_ne_true, if_neg (by omega), hrun]
  · rw [evaluate_shown hlit h, if_neg Bool.false_ne_true, if_pos hrun]
    rfl
  · rw [evaluate_lampFault hlit h, if_pos rfl, if_neg (by omega)]
  · rw [evaluate_lampFault hlit h, if_pos rfl, if_pos hrun]
    rfl

/-! ### The reading that counts (R17) -/

/-- A lit lamp's reading counts once two exchanges have sent it. -/
theorem usable_lit {x : SignalRec} {lamp : Lamp} (h : x.lit = some lamp) (l : LampReadings) (g : Nat) :
    l.usable g x = if 2 ≤ x.sent then some (l.current g lamp) else none := by
  rw [LampReadings.usable, h]

theorem lampReadingsLagTheLighting : Clause.LampReadingsLagTheLighting := by
  intro l g x
  refine ⟨fun h => by rw [LampReadings.usable, h], fun hsent => ?_, fun hsent => ?_⟩
  · cases h : x.lit with
    | none => rw [LampReadings.usable, h]
    | some lamp => rw [usable_lit h, if_neg (by omega)]
  · refine ⟨fun h => ?_, fun h => ?_, fun h => ?_, fun h => ?_⟩ <;> rw [usable_lit h, if_pos hsent] <;> rfl

/-! ### One signal in a window -/

/-- The record of signal `g` becomes `x`. -/
def signalSet (s : State) (g : Nat) (x : SignalRec) : State :=
  { s with su := { s.su with signals := s.su.signals.set g x } }

/-- What the effect of a signal's reading leads to. -/
theorem evaluateSignal_eq {s : State} {g : Nat} {x : SignalRec} (hx : s.su.signals[g]? = some x) (l : LampReadings) :
    State.evaluateSignal l g s =
      match (x.evaluate (l.usable g x)).2 with
      | .nothing => signalSet s g (x.evaluate (l.usable g x)).1
      | .proved => (signalSet s g (x.evaluate (l.usable g x)).1).reportToRe (.proved g)
      | .failed left lamp =>
        ((if left = .proceed then (signalSet s g (x.evaluate (l.usable g x)).1).reportToRe (.lampFault g)
          else signalSet s g (x.evaluate (l.usable g x)).1).lampFaultNotice g).reportLampFault g left lamp
      | .recovered => (signalSet s g (x.evaluate (l.usable g x)).1).lampRecoveredNotice g := by
  simp only [State.evaluateSignal, hx, modSignal_eq hx]
  rfl

/-- A lamp that fails, once its record is set: the fault mark, LAMP_FAULT to RE from PROCEED, and the EVENT. -/
theorem lampFails_eq (u : State) (g : Nat) (left : SignalState) (lamp : Lamp) :
    ((if left = .proceed then u.reportToRe (.lampFault g) else u).lampFaultNotice g).reportLampFault g left lamp
      = ({ u with
          rq := { u.rq with fault := u.rq.fault.set g true }
          re := { u.re with reports := u.re.reports ++ (if left = SignalState.proceed then [SuReport.lampFault g] else []) } } :
          State).eventSent 3 [byte g, byte left.code, byte lamp.enum] := by
  by_cases h : left = .proceed
  · rw [if_pos h, if_pos h]
    rfl
  · rw [if_neg h, if_neg h, List.append_nil]
    rfl

theorem signalEvaluationsAreReported : Clause.SignalEvaluationsAreReported := by
  refine ⟨fun s l hread => ?_, fun s l g x hx => ?_⟩
  · change execSignalWindowEvaluation s = _
    rw [execSignalWindowEvaluation, State.evaluateSignals, hread]
  · have run := evaluateSignal_eq hx l
    dsimp only
    refine ⟨fun he => ?_, fun he => ?_, fun left lamp he => ?_, fun he => ⟨fun p hp => ?_, fun hp => ?_⟩⟩
    · rw [run, he]
      rfl
    · rw [run, he]
      rfl
    · rw [run, he]
      exact lampFails_eq (signalSet s g _) g left lamp
    · rw [run, he]
      simp only [State.lampRecoveredNotice, signalSet, hp]
      rfl
    · rw [run, he]
      simp only [State.lampRecoveredNotice, signalSet, hp]

/-- The fault marks of RQ after the effect of signal `g` (R82). -/
def marksAfter (e : SignalEffect) (g : Nat) (marks : List Bool) : List Bool :=
  match e with
  | .failed _ _ => marks.set g true
  | .recovered => marks.set g false
  | .nothing | .proved => marks

/-- The report to RE that the effect of signal `g` gives (R34, R36). -/
def reportOf (e : SignalEffect) (g : Nat) : Option SuReport :=
  match e with
  | .proved => some (.proved g)
  | .failed .proceed _ => some (.lampFault g)
  | _ => none

/-- The notice of a lamp that recovers clears its mark, and adds no report (R79, R82). -/
theorem lampRecoveredNotice_reports_fault (s : State) (g : Nat) :
    (s.lampRecoveredNotice g).re.reports = s.re.reports ∧ (s.lampRecoveredNotice g).rq.fault = s.rq.fault.set g false := by
  unfold State.lampRecoveredNotice
  dsimp only
  split <;> simp

/-- What the evaluation of a signal with the record `x` leaves of SU, of the fault marks, and of the reports to RE. -/
theorem evaluateSignal_record {s : State} {g : Nat} {x : SignalRec} (hx : s.su.signals[g]? = some x) (l : LampReadings) :
    (State.evaluateSignal l g s).su = { s.su with signals := s.su.signals.set g (x.evaluate (l.usable g x)).1 }
    ∧ (State.evaluateSignal l g s).rq.fault = marksAfter (x.evaluate (l.usable g x)).2 g s.rq.fault
    ∧ (State.evaluateSignal l g s).re.reports = s.re.reports ++ (reportOf (x.evaluate (l.usable g x)).2 g).toList := by
  rw [evaluateSignal_eq hx]
  cases he : (x.evaluate (l.usable g x)).2 with
  | nothing => exact ⟨rfl, rfl, (List.append_nil _).symm⟩
  | proved => exact ⟨rfl, rfl, rfl⟩
  | failed left lamp =>
    dsimp only
    rw [lampFails_eq, eventSent_eq]
    exact ⟨rfl, rfl, by cases left <;> rfl⟩
  | recovered =>
    obtain ⟨reports, fault⟩ := lampRecoveredNotice_reports_fault (signalSet s g (x.evaluate (l.usable g x)).1) g
    exact ⟨by simp [signalSet], fault, reports.trans (List.append_nil _).symm⟩

/-! ### All signals in a window -/

/-- The records of SU after signal `g`, whether it is configured or not. -/
theorem evaluateSignal_su (l : LampReadings) (g : Nat) (s : State) : (State.evaluateSignal l g s).su =
    { s.su with signals := s.su.signals.modify g (fun x => (x.evaluate (l.usable g x)).1) } := by
  cases hx : s.su.signals[g]? with
  | none => simp [State.evaluateSignal, hx, List.modify_eq_set_getElem?]
  | some x => simp [(evaluateSignal_record hx l).1, hx, List.modify_eq_set_getElem?]

/-- The fault marks and the reports after signal `g`, in the same way. -/
theorem evaluateSignal_effect (l : LampReadings) (g : Nat) (s : State) :
    (State.evaluateSignal l g s).rq.fault = marksAfter (signalEffect l s g) g s.rq.fault
    ∧ (State.evaluateSignal l g s).re.reports = s.re.reports ++ (reportOf (signalEffect l s g) g).toList := by
  cases hx : s.su.signals[g]? with
  | none =>
    simp only [State.evaluateSignal, signalEffect, hx]
    exact ⟨rfl, (List.append_nil _).symm⟩
  | some x =>
    simp only [signalEffect, hx]
    exact (evaluateSignal_record hx l).2

/-- The evaluation of a signal leaves the record and the fault mark of every other one. -/
theorem evaluateSignal_other {g h : Nat} (hne : g ≠ h) (l : LampReadings) (s : State) :
    (State.evaluateSignal l g s).su.signals[h]? = s.su.signals[h]?
    ∧ (State.evaluateSignal l g s).rq.fault[h]? = s.rq.fault[h]? := by
  refine ⟨?_, ?_⟩
  · rw [evaluateSignal_su]
    exact List.getElem?_modify_ne _ _ hne
  · rw [(evaluateSignal_effect l g s).1]
    cases signalEffect l s g with
    | nothing => rfl
    | proved => rfl
    | failed left lamp => exact List.getElem?_set_ne hne
    | recovered => exact List.getElem?_set_ne hne

/-- SU after the evaluation of all signals: each record by its own reading. -/
theorem evaluateSignals_su (l : LampReadings) (s : State) :
    (forEach (List.range s.su.signals.length) (State.evaluateSignal l) s).su
      = { s.su with signals := s.su.signals.mapIdx (fun g x => (x.evaluate (l.usable g x)).1) } := by
  have inTurn : ∀ (gs : List Nat) (s : State), (forEach gs (State.evaluateSignal l) s).su = { s.su with
      signals := gs.foldl (fun m g => m.modify g (fun x => (x.evaluate (l.usable g x)).1)) s.su.signals } := by
    intro gs
    induction gs with
    | nil => exact fun _ => rfl
    | cons g gs ih =>
      intro s
      rw [forEach, ih, evaluateSignal_su]
      rfl
  rw [inTurn, foldl_modify_range]

/-- The fault mark of a signal after the evaluation of all: its own effect decides. -/
theorem evaluateSignals_fault {l : LampReadings} {s : State} {g : Nat} {x : SignalRec} (hx : s.su.signals[g]? = some x) :
    (forEach (List.range s.su.signals.length) (State.evaluateSignal l) s).rq.fault[g]?
      = (marksAfter (signalEffect l s g) g s.rq.fault)[g]? := by
  refine forEach_reaches
    (P := fun u => u.su.signals[g]? = s.su.signals[g]? ∧ u.rq.fault[g]? = s.rq.fault[g]?)
    (Q := fun u => u.rq.fault[g]? = (marksAfter (signalEffect l s g) g s.rq.fault)[g]?)
    (fun h u hh hu => ?_) (fun u hu => ?_) (fun h u hh hu => ?_) List.nodup_range
    (List.mem_range.mpr (List.getElem?_eq_some_iff.mp hx).1) ⟨rfl, rfl⟩
  · obtain ⟨record, fault⟩ := evaluateSignal_other hh l u
    exact ⟨record.trans hu.1, fault.trans hu.2⟩
  · have same : signalEffect l u g = signalEffect l s g := by simp only [signalEffect, hu.1]
    rw [(evaluateSignal_effect l g u).1, same]
    cases signalEffect l s g with
    | nothing => exact hu.2
    | proved => exact hu.2
    | failed left lamp => simp only [marksAfter, List.getElem?_set_self', hu.2]
    | recovered => simp only [marksAfter, List.getElem?_set_self', hu.2]
  · exact (evaluateSignal_other hh l u).2.trans hu

/-- The reports to RE of all signals are those that the statement names, in rising index. -/
theorem evaluateSignals_reports (l : LampReadings) (s : State) :
    (forEach (List.range s.su.signals.length) (State.evaluateSignal l) s).re.reports = s.re.reports ++ signalReports l s := by
  have inTurn : ∀ gs : List Nat, gs.Nodup → ∀ s : State, (forEach gs (State.evaluateSignal l) s).re.reports
      = s.re.reports ++ gs.filterMap (fun g => reportOf (signalEffect l s g) g) := by
    intro gs
    induction gs with
    | nil => exact fun _ s => (List.append_nil _).symm
    | cons g gs ih =>
      intro hgs s
      obtain ⟨hg, hgs⟩ := List.nodup_cons.mp hgs
      have others : ∀ h ∈ gs, signalEffect l (State.evaluateSignal l g s) h = signalEffect l s h := fun h hh => by
        simp only [signalEffect, (evaluateSignal_other (ne_of_mem_of_not_mem hh hg).symm l s).1]
      rw [forEach, ih hgs, (evaluateSignal_effect l g s).2, List.filterMap_congr fun h hh => by rw [others h hh]]
      cases hrep : reportOf (signalEffect l s g) g <;> simp [hrep]
  rw [inTurn _ List.nodup_range]
  refine congrArg (s.re.reports ++ ·) (List.filterMap_congr fun g _ => ?_)
  cases signalEffect l s g with
  | nothing => rfl
  | proved => rfl
  | failed left lamp => cases left <;> rfl
  | recovered => rfl

theorem signalWindowEvaluatesEverySignal : Clause.SignalWindowEvaluatesEverySignal := by
  intro s l hread
  have run : s.evaluateSignals = forEach (List.range s.su.signals.length) (State.evaluateSignal l)
      { s with su := { s.su with readings := none } } := by
    rw [State.evaluateSignals, hread]
  have su := evaluateSignals_su l { s with su := { s.su with readings := none } }
  have reports := evaluateSignals_reports l { s with su := { s.su with readings := none } }
  have fault := fun g x => evaluateSignals_fault (l := l) (g := g) (x := x) (s := { s with su := { s.su with readings := none } })
  rw [← run] at su reports fault
  refine ⟨s.evaluateSignals, rfl, by rw [su], by rw [su], fun g x hx => ⟨?_, ?_⟩, reports, ?_⟩
  · rw [su]
    simp [hx]
  · rw [fault g x hx]
    change (marksAfter (signalEffect l s g) g s.rq.fault)[g]? = _
    cases signalEffect l s g with
    | nothing => rfl
    | proved => rfl
    | failed left lamp => exact List.getElem?_set_self'
    | recovered => exact List.getElem?_set_self'
  · simp

/-- Settles O32: one reading, the reading that counts, the window, and its reports. -/
theorem lampReadings : Obligations.LampReadings :=
  ⟨lampReadingTable, lampReadingsLagTheLighting, signalWindowEvaluatesEverySignal, signalEvaluationsAreReported⟩

end Sys2Proof.Proofs
end

