-- ==== Sys2Proof/Proofs/TransmitQueue.lean ====
section
/-! PROOF. The transmit queue (O25): where a frame enters it, what offering a frame does to it, and the queue's law (R51, R52, R56) as a
law of FS alone, which the entry of a frame, its removal and the deferred marks keep. -/

namespace Sys2Proof.Proofs
open Sys2Proof.Machine Sys2Proof.Laws

/-! ### Where a frame enters (R51) -/

/-- A frame enters behind every frame of its level or a lower level number, and before the others (R51). -/
theorem insertFrame_append (f : TxFrame) {front back : List TxFrame} (hfront : ∀ g ∈ front, g.kind.level ≤ f.kind.level)
    (hback : ∀ g, back.head? = some g → f.kind.level < g.kind.level) : insertFrame f (front ++ back) = front ++ f :: back := by
  induction front with
  | nil =>
    cases back with
    | nil => rfl
    | cons g rest => exact if_neg (Nat.not_le.mpr (hback g rfl))
  | cons g rest ih =>
    rw [List.cons_append, insertFrame, if_pos (hfront g List.mem_cons_self), ih fun x hx => hfront x (List.mem_cons_of_mem g hx)]
    rfl

/-- A frame that enters joins the frames of the queue. -/
theorem insertFrame_perm (f : TxFrame) (q : List TxFrame) : (insertFrame f q).Perm (f :: q) := by
  induction q with
  | nil => exact List.Perm.refl _
  | cons g rest ih =>
    rw [insertFrame]
    split
    · exact (ih.cons g).trans (List.Perm.swap f g rest)
    · exact List.Perm.refl _

theorem mem_insertFrame {f g : TxFrame} {q : List TxFrame} : g ∈ insertFrame f q ↔ g = f ∨ g ∈ q := by
  rw [(insertFrame_perm f q).mem_iff, List.mem_cons]

@[simp] theorem insertFrame_length (f : TxFrame) (q : List TxFrame) : (insertFrame f q).length = q.length + 1 :=
  (insertFrame_perm f q).length_eq

/-- A frame that stands before another has its level or a lower level number. -/
theorem level_le_of_before {f g : TxFrame} (h : f.before g) : f.kind.level ≤ g.kind.level := by
  rcases h with hlt | ⟨heq, -⟩
  · exact Nat.le_of_lt hlt
  · exact Nat.le_of_eq heq

/-- An ordered queue stays ordered when a frame enters that is younger than every frame in it (R51). -/
theorem insertFrame_ordered {f : TxFrame} {q : List TxFrame} (h : q.Pairwise TxFrame.before) (hage : ∀ g ∈ q, g.age < f.age) :
    (insertFrame f q).Pairwise TxFrame.before := by
  induction q with
  | nil => exact List.pairwise_singleton _ _
  | cons g rest ih =>
    obtain ⟨hg, hrest⟩ := List.pairwise_cons.mp h
    rw [insertFrame]
    split
    · rename_i hle
      have entered : g.before f := (Nat.lt_or_eq_of_le hle).imp_right fun heq => ⟨heq, hage g List.mem_cons_self⟩
      refine List.pairwise_cons.mpr ⟨fun x hx => ?_, ih hrest fun x hx => hage x (List.mem_cons_of_mem g hx)⟩
      rcases mem_insertFrame.mp hx with rfl | hx
      · exact entered
      · exact hg x hx
    · rename_i hlt
      refine List.pairwise_cons.mpr ⟨fun x hx => Or.inl ?_, h⟩
      rcases List.mem_cons.mp hx with rfl | hx
      · exact Nat.not_le.mp hlt
      · exact Nat.lt_of_lt_of_le (Nat.not_le.mp hlt) (level_le_of_before (hg x hx))

/-! ### What offering a frame does (R51, R52) -/

/-- The frame that is offered, as it would stand in the queue: the next age, and the deferred mark of R56. -/
def offeredFrame (s : State) (k : Kind) (dest : Nat) (l : List Byte) : TxFrame :=
  ⟨k, dest, l, s.fs.nextAge, deferrable k.level dest && s.heldOff dest⟩

/-- A STATE frame is offered while one is queued. -/
def replacesState (s : State) (k : Kind) : Prop :=
  k = .state ∧ ∃ g ∈ s.fs.queue, g.kind = .state

theorem replacesState_iff (s : State) (k : Kind) :
    replacesState s k ↔ k = .state ∧ s.fs.queue.any (fun g => g.kind == .state) = true := by
  simp [replacesState]

/-- In START and CONFIG_FAULT no frame is queued (R57). -/
theorem send_inactive {s : State} (h : s.pt.mode.active = false) (k : Kind) (dest : Nat) (l : List Byte) : s.send k dest l = s := by
  unfold State.send
  rw [h]
  rfl

/-- A STATE frame takes the place and the age of a queued one (R51, R166). -/
theorem send_replaces {s : State} {k : Kind} (h : s.pt.mode.active = true) (hk : replacesState s k) (dest : Nat) (l : List Byte) :
    s.send k dest l = { s with fs := { s.fs with queue := replaceState l s.fs.queue } } := by
  unfold State.send
  rw [h]
  exact if_pos ((replacesState_iff s k).mp hk)

/-- With room the frame enters (R51). -/
theorem send_enters {s : State} {k : Kind} (h : s.pt.mode.active = true) (hk : ¬ replacesState s k) (room : s.fs.queue.length < 16)
    (dest : Nat) (l : List Byte) : s.send k dest l = { s with fs := { s.fs with
      queue := insertFrame (offeredFrame s k dest l) s.fs.queue, nextAge := s.fs.nextAge + 1 } } := by
  unfold State.send
  rw [h]
  exact (if_neg fun hq => hk ((replacesState_iff s k).mpr hq)).trans (if_pos room)

/-- A full queue gives up its last frame where that is of a higher level number (R52). -/
theorem send_displaces {s : State} {k : Kind} (h : s.pt.mode.active = true) (hk : ¬ replacesState s k) (full : 16 ≤ s.fs.queue.length)
    {v : TxFrame} (hv : victim k.level s.fs.queue = some v) (dest : Nat) (l : List Byte) : s.send k dest l = { s with
      fs := { s.fs with
        queue := insertFrame (offeredFrame s k dest l) s.fs.queue.dropLast, nextAge := s.fs.nextAge + 1, txDrop := true }
      cnt := { s.cnt with txDisplaced := bump s.cnt.txDisplaced } } := by
  unfold State.send
  rw [h, hv]
  exact (if_neg fun hq => hk ((replacesState_iff s k).mpr hq)).trans (if_neg (Nat.not_lt.mpr full))

/-- Otherwise a full queue drops the new frame (R52). -/
theorem send_drops {s : State} {k : Kind} (h : s.pt.mode.active = true) (hk : ¬ replacesState s k) (full : 16 ≤ s.fs.queue.length)
    (hv : victim k.level s.fs.queue = none) (dest : Nat) (l : List Byte) : s.send k dest l = { s with
      fs := { s.fs with txDrop := true }, cnt := { s.cnt with txDrop := bump s.cnt.txDrop } } := by
  unfold State.send
  rw [h, hv]
  exact (if_neg fun hq => hk ((replacesState_iff s k).mpr hq)).trans (if_neg (Nat.not_lt.mpr full))

/-- The frame given up is the last of the queue, where its level number is above the new frame's (R52). -/
theorem victim_append (level : Nat) (front : List TxFrame) (last : TxFrame) :
    victim level (front ++ [last]) = if level < last.kind.level then some last else none := by
  simp [victim]

theorem offeredFramesEnterTheQueue : Clause.OfferedFramesEnterTheQueue := by
  intro s k dest l active
  refine ⟨fun hk => send_replaces active hk dest l, fun hk room => send_enters active hk room dest l,
    fun front last hk full hq => ⟨fun above => ?_, fun notAbove => ?_⟩⟩
  · have hv : victim k.level s.fs.queue = some last := by rw [hq, victim_append, if_pos above]
    have given : s.fs.queue.dropLast = front := by rw [hq, List.dropLast_concat]
    rw [send_displaces active hk full hv, given]
    rfl
  · have hv : victim k.level s.fs.queue = none := by rw [hq, victim_append, if_neg (Nat.not_lt.mpr notAbove)]
    rw [send_drops active hk full hv]

/-! ### The flags of a STATE frame that replaces another (R166) -/

/-- Of a byte cut by 6, bits 1 and 2 are left. -/
theorem getLsbD_and_six (b : Byte) (j : Nat) : (b &&& 6).getLsbD j = ((j == 1 || j == 2) && b.getLsbD j) := by
  rw [BitVec.getLsbD_and, Bool.and_comm]
  congr 1
  by_cases hj : j < 8
  · interval_cases j <;> rfl
  · rw [BitVec.getLsbD_of_ge _ _ (by omega)]
    simp
    omega

/-- A byte read as a number and written again is the byte. -/
theorem getLsbD_byte_byteAt (l : List Byte) (k j : Nat) : (byte (byteAt l k)).getLsbD j = (byteAt l k).testBit j := by
  have small : byteAt l k < 256 := by
    unfold byteAt
    split
    · exact BitVec.isLt _
    · decide
  rw [← BitVec.testBit_toNat, byte_toNat, Nat.mod_eq_of_lt small]

theorem replacedStateFrameKeepsItsFlags : Clause.ReplacedStateFrameKeepsItsFlags := by
  intro old new
  refine ⟨List.length_modify _ _ _, fun k hk => ?_, fun b hb => ⟨b ||| (byte (byteAt old 35) &&& 6), ?_, fun j => ?_⟩⟩
  · exact List.getElem?_modify_ne _ _ (Ne.symm hk)
  · unfold mergeStateFlags
    rw [List.getElem?_modify_eq, hb]
    rfl
  · rw [BitVec.getLsbD_or, getLsbD_and_six, getLsbD_byte_byteAt]

/-- Settles O25. -/
theorem transmitQueueTakesFrames : Obligations.TransmitQueueTakesFrames :=
  ⟨offeredFramesEnterTheQueue, fun f _ _ hfront hback => insertFrame_append f hfront hback, replacedStateFrameKeepsItsFlags⟩

/-! ### The law of the queue (R51, R52, R55, R56) -/

/-- The hold-off timer of node `k` runs, among the timers of `l` (R55). -/
def timerRuns (l : List (Option Time)) (k : Nat) : Bool :=
  match l[k]? with
  | some (some _) => true
  | _ => false

/-- The law of the transmit queue, which is about FS alone. -/
structure QueueLaw (fs : FS) : Prop where
  room : fs.queue.length ≤ 16
  order : fs.queue.Pairwise TxFrame.before
  ages : ∀ f ∈ fs.queue, f.age < fs.nextAge
  oneState : (fs.queue.filter (fun f => f.kind == .state)).length ≤ 1
  timers : fs.holdOff.length = 63
  marks : ∀ f ∈ fs.queue, f.deferred = (deferrable f.kind.level f.dest && timerRuns fs.holdOff f.dest)

theorem queueInv_iff (s : State) : QueueInv s ↔ QueueLaw s.fs :=
  ⟨fun ⟨room, order, ages, oneState, timers, marks⟩ => ⟨room, order, ages, oneState, timers, marks⟩,
    fun h => ⟨h.room, h.order, h.ages, h.oneState, h.timers, h.marks⟩⟩

/-- The law reads the queue, the next age and the hold-off timers alone. -/
theorem QueueLaw.of_eq {a b : FS} (h : QueueLaw a) (hq : b.queue = a.queue) (hn : b.nextAge = a.nextAge) (hh : b.holdOff = a.holdOff) :
    QueueLaw b := by
  obtain ⟨room, order, ages, oneState, timers, marks⟩ := h
  constructor <;> simp only [hq, hn, hh] <;> assumption

/-- Frames that leave the queue leave it lawful. -/
theorem QueueLaw.of_sublist {fs : FS} (h : QueueLaw fs) {q : List TxFrame} (hq : q.Sublist fs.queue) :
    QueueLaw { fs with queue := q } where
  room := hq.length_le.trans h.room
  order := h.order.sublist hq
  ages f hf := h.ages f (hq.subset hf)
  oneState := (hq.filter _).length_le.trans h.oneState
  timers := h.timers
  marks f hf := h.marks f (hq.subset hf)

/-- A frame that enters with the next age and the mark of R56 keeps the law, where there is room and no second STATE frame comes. -/
theorem QueueLaw.insert {fs : FS} (h : QueueLaw fs) (room : fs.queue.length < 16) {f : TxFrame} (age : f.age = fs.nextAge)
    (mark : f.deferred = (deferrable f.kind.level f.dest && timerRuns fs.holdOff f.dest))
    (first : f.kind = .state → ∀ g ∈ fs.queue, g.kind ≠ .state) :
    QueueLaw { fs with queue := insertFrame f fs.queue, nextAge := fs.nextAge + 1 } where
  room := by simpa using room
  order := insertFrame_ordered h.order fun g hg => age ▸ h.ages g hg
  ages g hg := by
    rcases mem_insertFrame.mp hg with rfl | hg
    · exact age ▸ Nat.lt_succ_self _
    · exact Nat.lt_succ_of_lt (h.ages g hg)
  oneState := by
    rw [((insertFrame_perm f fs.queue).filter _).length_eq]
    by_cases hf : f.kind = .state
    · have none : fs.queue.filter (fun g => g.kind == .state) = [] :=
        List.filter_eq_nil_iff.mpr fun g hg => by simpa using first hf g hg
      simp [hf, none]
    · simpa [hf] using h.oneState
  timers := h.timers
  marks g hg := by
    rcases mem_insertFrame.mp hg with rfl | hg
    · exact mark
    · exact h.marks g hg

/-- A change of every frame that touches neither kind nor age keeps the law, where it gives the marks of the timers that then run. -/
theorem QueueLaw.map {fs : FS} (h : QueueLaw fs) {g : TxFrame → TxFrame} (kind : ∀ f, (g f).kind = f.kind) (age : ∀ f, (g f).age = f.age)
    {timers : List (Option Time)} (length : timers.length = 63)
    (mark : ∀ f ∈ fs.queue, (g f).deferred = (deferrable f.kind.level (g f).dest && timerRuns timers (g f).dest)) :
    QueueLaw { fs with queue := fs.queue.map g, holdOff := timers } where
  room := by simpa using h.room
  order := List.pairwise_map.mpr (h.order.imp fun hfg => by simpa only [TxFrame.before, kind, age] using hfg)
  ages f hf := by
    obtain ⟨e, he, rfl⟩ := List.mem_map.mp hf
    exact (age e).symm ▸ h.ages e he
  oneState := by
    have same : ((fun f => f.kind == .state) ∘ g) = fun f : TxFrame => f.kind == .state := funext fun f => by simp [kind]
    simpa [List.filter_map, same] using h.oneState
  timers := length
  marks f hf := by
    obtain ⟨e, he, rfl⟩ := List.mem_map.mp hf
    simpa only [kind] using mark e he

/-- A STATE frame that replaces another keeps the law: its place, its age and its mark stay. -/
theorem QueueLaw.replaceState {fs : FS} (h : QueueLaw fs) (l : List Byte) :
    QueueLaw { fs with queue := replaceState l fs.queue } := by
  refine h.map (fun f => ?_) (fun f => ?_) h.timers fun f hf => ?_
  · split <;> rfl
  · split <;> rfl
  · split <;> exact h.marks f hf

/-- Offering a frame keeps the law (R51, R52, R56). -/
@[simp] theorem send_queueLaw (s : State) (k : Kind) (dest : Nat) (l : List Byte) (h : QueueLaw s.fs) :
    QueueLaw (s.send k dest l).fs := by
  by_cases active : s.pt.mode.active = true
  · by_cases hk : replacesState s k
    · rw [send_replaces active hk]
      exact h.replaceState l
    · have first : ∀ q : List TxFrame, q.Sublist s.fs.queue → k = .state → ∀ g ∈ q, g.kind ≠ .state :=
        fun q hq hstate g hg hkind => hk ⟨hstate, g, hq.subset hg, hkind⟩
      rcases Nat.lt_or_ge s.fs.queue.length 16 with room | full
      · rw [send_enters active hk room]
        exact h.insert room rfl rfl (first _ (List.Sublist.refl _))
      · cases hv : victim k.level s.fs.queue with
        | none =>
          rw [send_drops active hk full hv]
          exact h.of_eq rfl rfl rfl
        | some v =>
          have shorter : s.fs.queue.dropLast.Sublist s.fs.queue := List.dropLast_sublist _
          have room : s.fs.queue.dropLast.length < 16 := by
            rw [List.length_dropLast]
            have := h.room
            omega
          rw [send_displaces active hk full hv]
          exact ((h.of_sublist shorter).insert room rfl rfl (first _ shorter)).of_eq rfl rfl rfl
  · rw [send_inactive (Bool.eq_false_iff.mpr active)]
    exact h

end Sys2Proof.Proofs
end

