-- ==== Sys2Proof/Proofs/FrameStore.lean ====
section
/-! PROOF. The frame handler (O23), the pool and the hold-off timers (O24): which frame the handler takes and what it leaves of the
inboxes, the HOLD-OFF of a short pool, and the marks that follow the timers (R47 to R50, R55, R56). -/

namespace Sys2Proof.Proofs
open Sys2Proof.Machine Sys2Proof.Laws

/-! ### The frame handler (R50) -/

/-- The active lists after a frame of kind `k` is taken and `rest` waits: the inbox goes to the tail of its list, or leaves it. -/
def activeAfter (active : List Kind) (k : Kind) (rest : List RxFrame) : List Kind :=
  if rest.any (fun g => g.kind == k) then active.filter (fun j => j != k) ++ [k] else active.filter (fun j => j != k)

/-- A free handler takes the oldest frame of the inbox it chooses. -/
theorem takeFrame_chosen {fs : FS} {k : Kind} {f : RxFrame} {rest : List RxFrame} (free : fs.handler = none)
    (chosen : fs.chosenKind = some k) (first : takeFirst (fun g => g.kind == k) fs.inbox = some (f, rest)) :
    fs.takeFrame k = some (f, { fs with inbox := rest, handler := some f, active := activeAfter fs.active k rest }) := by
  unfold FS.takeFrame
  rw [if_pos ⟨free, chosen⟩, first]
  rfl

/-- It takes nothing of another inbox. -/
theorem takeFrame_other {fs : FS} {j : Kind} (h : fs.chosenKind ≠ some j) : fs.takeFrame j = none := by
  unfold FS.takeFrame
  exact if_neg fun hj => h hj.2

/-- What a frame that is taken says: the handler was free, the frame was the oldest of its inbox, and only inboxes, active lists and
handler have changed. -/
theorem takeFrame_some {fs fs' : FS} {k : Kind} {f : RxFrame} (h : fs.takeFrame k = some (f, fs')) :
    fs.handler = none ∧ ∃ rest, takeFirst (fun g => g.kind == k) fs.inbox = some (f, rest)
      ∧ fs' = { fs with inbox := rest, handler := some f, active := activeAfter fs.active k rest } := by
  by_cases hk : fs.handler = none ∧ fs.chosenKind = some k
  · cases first : takeFirst (fun g => g.kind == k) fs.inbox with
    | none =>
      unfold FS.takeFrame at h
      rw [if_pos hk, first] at h
      cases h
    | some x =>
      rw [takeFrame_chosen hk.1 hk.2 first] at h
      cases h
      exact ⟨hk.1, x.2, rfl, rfl⟩
  · unfold FS.takeFrame at h
    rw [if_neg hk] at h
    cases h

/-- There are four levels (R49). -/
theorem level_lt_four (k : Kind) : k.level < 4 := by
  cases k <;> decide

/-- The handler chooses the head of the active list of the lowest-numbered level that has an inbox (R50). -/
theorem chosenKind_head {fs : FS} {k : Kind} {others : List Kind} (head : fs.active.filter (fun j => j.level == k.level) = k :: others)
    (lowest : ∀ j ∈ fs.active, k.level ≤ j.level) : fs.chosenKind = some k := by
  have here : fs.active.find? (fun j => j.level == k.level) = some k := by rw [← List.head?_filter, head]; rfl
  have below : ∀ l, l < k.level → fs.active.find? (fun j => j.level == l) = none := fun l hl =>
    List.find?_eq_none.mpr fun j hj => by
      have := lowest j hj
      simp only [beq_iff_eq]
      omega
  unfold FS.chosenKind
  have bound := level_lt_four k
  generalize k.level = n at here below bound
  interval_cases n <;> simp [List.findSome?, here, below]

theorem frameHandlerChoosesInTurn : Clause.FrameHandlerChoosesInTurn := by
  intro fs k others f rest free head lowest first
  have chosen := chosenKind_head head lowest
  refine ⟨_, takeFrame_chosen free chosen first, rfl, rfl, ?_, fun j hj => takeFrame_other fun h => hj ?_, rfl⟩
  · have same : fs.active.filter (fun j => j != k) = fs.active.filter (fun j => decide (j ≠ k)) :=
      List.filter_congr fun j _ => by by_cases h : j = k <;> simp [h]
    simp only [activeAfter, same]
    split <;> simp
  · exact (Option.some.inj (chosen.symm.trans h)).symm

/-- A frame that the handler takes goes to its block, and its buffer returns to the pool (R47, R50). -/
theorem withFrame_some {s : State} {k : Kind} {f : RxFrame} {fs' : FS} (h : s.fs.takeFrame k = some (f, fs'))
    (act : RxFrame → State → State) : s.withFrame k act = (act f { s with fs := fs' }).finishFrame := by
  unfold State.withFrame
  rw [h]

theorem reportsOfOthersAreDroppedAtOnce : Clause.ReportsOfOthersAreDroppedAtOnce := fun _ _ _ =>
  ⟨fun h => congrArg Host.Outcome.next (withFrame_some h _), fun h => congrArg Host.Outcome.next (withFrame_some h _)⟩

/-- Settles O23. -/
theorem frameHandlerServesInTurn : Obligations.FrameHandlerServesInTurn :=
  ⟨frameHandlerChoosesInTurn, reportsOfOthersAreDroppedAtOnce⟩

/-! ### The pool (R47, R48) -/

/-- A fall to 5 with the pool-low timer stopped: POOL_LOW is set, the timer starts, and a HOLD-OFF of 40 ms is offered (R48). -/
theorem takeBuffer_stopped {s : State} (h : s.fs.free = 6) (timer : s.fs.poolTimer = none) : s.takeBuffer
    = ({ s with fs := { s.fs with free := 5, poolLow := true, poolTimer := some ⟨0, 40⟩ } }).send .holdOff 63 [40] := by
  unfold State.takeBuffer
  rw [h]
  exact if_pos timer

/-- With the timer running a fall to 5 sets POOL_LOW alone. -/
theorem takeBuffer_running {s : State} (h : s.fs.free = 6) (timer : s.fs.poolTimer ≠ none) :
    s.takeBuffer = { s with fs := { s.fs with free := 5, poolLow := true } } := by
  unfold State.takeBuffer
  rw [h]
  exact if_neg timer

/-- At another count nothing follows. -/
theorem takeBuffer_counted {s : State} (h : s.fs.free ≠ 6) : s.takeBuffer = { s with fs := { s.fs with free := s.fs.free - 1 } } :=
  if_neg fun h5 => h (by simp only at h5; omega)

/-- Offering a frame leaves POOL_LOW. -/
@[simp] theorem send_poolLow (s : State) (k : Kind) (dest : Nat) (l : List Byte) : (s.send k dest l).fs.poolLow = s.fs.poolLow := by
  unfold State.send
  (repeat' split) <;> rfl

@[simp] theorem takeBuffer_free (s : State) : s.takeBuffer.fs.free = s.fs.free - 1 := by
  by_cases h : s.fs.free = 6
  · by_cases timer : s.fs.poolTimer = none
    · rw [takeBuffer_stopped h timer]
      simp [h]
    · rw [takeBuffer_running h timer]
      simp [h]
  · rw [takeBuffer_counted h]

theorem poolLowSendsHoldOff : Clause.PoolLowSendsHoldOff := by
  refine ⟨fun s h => ?_, fun s h => ⟨fun short => ?_, fun long => ?_⟩⟩
  · by_cases timer : s.fs.poolTimer = none
    · rw [takeBuffer_stopped h timer]
      exact ⟨by simp, by simp, fun _ => rfl, fun running => absurd timer running⟩
    · rw [takeBuffer_running h timer]
      exact ⟨rfl, rfl, fun stopped => absurd stopped timer, fun _ => rfl⟩
  · exact congrArg Host.Outcome.next ((if_pos h).trans (if_pos short))
  · exact congrArg Host.Outcome.next ((if_pos h).trans (if_neg (Nat.not_lt.mpr long)))

/-! ### Hold-off (R55, R56) -/

/-- A HOLD-OFF of 0 ms, of the node itself or of source 63 does nothing (R55). -/
theorem takeHoldOff_nothing {f : RxFrame} {s : State} (h : byteAt f.payload 0 = 0 ∨ f.rx.source = s.pt.node ∨ 63 ≤ f.rx.source) :
    takeHoldOff f s = s :=
  if_pos h

/-- Any other from a peer sets its timer to the end, or leaves it stopped where the end has passed (R55). -/
theorem takeHoldOff_peer {f : RxFrame} {s : State} (hn : byteAt f.payload 0 ≠ 0) (peer : f.rx.source < 63)
    (other : f.rx.source ≠ s.pt.node) : takeHoldOff f s = s.setHoldOff f.rx.source
      (if reached s.time (after f.rx.arrival (byteAt f.payload 0)) then none else some (after f.rx.arrival (byteAt f.payload 0))) := by
  unfold takeHoldOff
  have counts : ¬ (byteAt f.payload 0 = 0 ∨ f.rx.source = s.pt.node ∨ 63 ≤ f.rx.source) := by omega
  refine (if_neg counts).trans ?_
  split <;> rfl

theorem holdOffDefersStablingTraffic : Clause.HoldOffDefersStablingTraffic := by
  refine ⟨fun s f fs' taken peer other => ?_, fun s k e runs ended => ?_⟩
  · refine ⟨_, congrArg Host.Outcome.next (withFrame_some taken takeHoldOff), ?_⟩
    obtain ⟨-, rest, -, rfl⟩ := takeFrame_some taken
    by_cases hn : byteAt f.payload 0 = 0
    · rw [takeHoldOff_nothing (Or.inl hn)]
      exact ⟨fun _ => ⟨rfl, rfl⟩, fun h => absurd hn h, fun h => absurd hn h, rfl⟩
    · rw [takeHoldOff_peer hn peer (by exact other)]
      refine ⟨fun h => absurd h hn, fun _ ahead => ?_, fun _ passed => ?_, rfl⟩
      · rw [if_neg (by simpa [after] using ahead)]
        exact ⟨rfl, rfl⟩
      · rw [if_pos (by simpa [after] using passed)]
        exact ⟨rfl, rfl⟩
  · refine congrArg Host.Outcome.next ?_
    unfold State.holdOffEnd
    rw [runs]
    exact if_pos ended

/-- Settles O24. -/
theorem poolLowAndHoldOff : Obligations.PoolLowAndHoldOff :=
  ⟨poolLowSendsHoldOff, holdOffDefersStablingTraffic⟩

/-! ### What these operations leave of the queue's law -/

@[simp] theorem takeBuffer_queueLaw (s : State) (h : QueueLaw s.fs) : QueueLaw s.takeBuffer.fs := by
  by_cases h6 : s.fs.free = 6
  · by_cases timer : s.fs.poolTimer = none
    · rw [takeBuffer_stopped h6 timer]
      exact send_queueLaw _ _ _ _ (h.of_eq rfl rfl rfl)
    · rw [takeBuffer_running h6 timer]
      exact h.of_eq rfl rfl rfl
  · rw [takeBuffer_counted h6]
    exact h.of_eq rfl rfl rfl

@[simp] theorem poolExpiry_queueLaw (s : State) (h : QueueLaw s.fs) : QueueLaw s.poolExpiry.fs := by
  unfold State.poolExpiry State.sendHoldOff
  (repeat' split)
  · exact send_queueLaw _ _ _ _ (h.of_eq rfl rfl rfl)
  · exact h.of_eq rfl rfl rfl
  · exact h

/-- Whether another peer's timer runs does not change with the timer of `k`. -/
theorem timerRuns_set_ne {l : List (Option Time)} {j k : Nat} (h : k ≠ j) (e : Option Time) :
    timerRuns (l.set k e) j = timerRuns l j := by
  unfold timerRuns
  rw [List.getElem?_set_ne h]

/-- The timer of `k` runs exactly where it is set to an end. -/
theorem timerRuns_set_self {l : List (Option Time)} {k : Nat} (h : k < l.length) (e : Option Time) :
    timerRuns (l.set k e) k = e.isSome := by
  unfold timerRuns
  rw [List.getElem?_set_self h]
  cases e <;> rfl

/-- Setting or stopping the timer of a node marks exactly the frames of R56. -/
theorem setHoldOff_queueLaw {s : State} {k : Nat} (hk : k < 63) (e : Option Time) (h : QueueLaw s.fs) :
    QueueLaw (s.setHoldOff k e).fs := by
  refine h.map (fun f => ?_) (fun f => ?_) ((List.length_set ..).trans h.timers) fun f hf => ?_
  · split <;> rfl
  · split <;> rfl
  · have mark := h.marks f hf
    by_cases dest : f.dest = k
    · subst dest
      have runs := timerRuns_set_self (h.timers.symm ▸ hk) e
      by_cases level : 2 ≤ f.kind.level
      · rw [if_pos ⟨rfl, level⟩]
        simp [deferrable, level, hk, runs]
      · rw [if_neg fun c => level c.2]
        simpa [deferrable, level] using mark
    · rw [if_neg fun c => dest c.1, timerRuns_set_ne (Ne.symm dest)]
      exact mark

@[simp] theorem takeHoldOff_queueLaw (f : RxFrame) (s : State) (h : QueueLaw s.fs) : QueueLaw (takeHoldOff f s).fs := by
  by_cases counts : byteAt f.payload 0 = 0 ∨ f.rx.source = s.pt.node ∨ 63 ≤ f.rx.source
  · rw [takeHoldOff_nothing counts]
    exact h
  · obtain ⟨hn, other, peer⟩ : byteAt f.payload 0 ≠ 0 ∧ f.rx.source ≠ s.pt.node ∧ f.rx.source < 63 := by omega
    rw [takeHoldOff_peer hn peer other]
    exact setHoldOff_queueLaw peer _ h

@[simp] theorem holdOffEnd_queueLaw (s : State) (k : Nat) (h : QueueLaw s.fs) : QueueLaw (s.holdOffEnd k).fs := by
  unfold State.holdOffEnd
  split
  · rename_i e runs
    have hk : k < 63 := h.timers ▸ (List.getElem?_eq_some_iff.mp runs).1
    split
    · exact setHoldOff_queueLaw hk none h
    · exact h
  · exact h

/-- Building a STATE frame changes the flags and offers the frame (R48, R52, R165). -/
@[simp] theorem stateMark_queueLaw (s : State) (h : QueueLaw s.fs) : QueueLaw s.stateMark.fs := by
  unfold State.stateMark State.buildState
  (repeat' split)
  · exact send_queueLaw _ _ _ _ (h.of_eq rfl rfl rfl)
  · exact h
  · exact h

end Sys2Proof.Proofs
end

