-- ==== Sys2Proof/Proofs/QueueKept.lean ====
section
/-! PROOF. What the blocks do keeps the law of the transmit queue (R51, R52, R56): each operation reaches the queue by offering frames
alone. One lemma per operation that offers a frame, from the reports up to the deliveries. -/

namespace Sys2Proof.Proofs
open Sys2Proof.Machine Sys2Proof.Laws

/-- What the operation of every item keeps, `forEach` keeps. -/
theorem forEach_queueLaw {α : Type} {l : List α} {f : α → State → State} {s : State}
    (hf : ∀ x s, QueueLaw s.fs → QueueLaw (f x s).fs) (h : QueueLaw s.fs) : QueueLaw (forEach l f s).fs :=
  forEach_preserves (P := fun s => QueueLaw s.fs) (fun x _ s => hf x s) h

/-! ### Reports of RP (R167) -/

@[simp] theorem report_queueLaw (s : State) (kind : Nat) (fields : List Byte) (h : QueueLaw s.fs) :
    QueueLaw (s.report kind fields).fs := by
  unfold State.report
  simp [h]

@[simp] theorem reportOutcome_queueLaw (s : State) (r : OutcomeRec) (h : QueueLaw s.fs) : QueueLaw (s.reportOutcome r).fs := by
  unfold State.reportOutcome
  simp [h]

@[simp] theorem reportPointFailed_queueLaw (s : State) (p : Nat) (target : Position) (phase : Nat) (fails : Counter)
    (h : QueueLaw s.fs) : QueueLaw (s.reportPointFailed p target phase fails).fs := by
  unfold State.reportPointFailed
  simp [h]

@[simp] theorem reportLampFault_queueLaw (s : State) (g : Nat) (left : SignalState) (lamp : Lamp) (h : QueueLaw s.fs) :
    QueueLaw (s.reportLampFault g left lamp).fs := by
  unfold State.reportLampFault
  simp [h]

@[simp] theorem reportDisturbed_queueLaw (s : State) (k : Nat) (left : SectState) (counter : Counter) (h : QueueLaw s.fs) :
    QueueLaw (s.reportDisturbed k left counter).fs := by
  unfold State.reportDisturbed
  simp [h]

@[simp] theorem reportPeerLost_queueLaw (s : State) (k : Nat) (epoch : Epoch) (last : Time) (losses : Counter) (h : QueueLaw s.fs) :
    QueueLaw (s.reportPeerLost k epoch last losses).fs := by
  unfold State.reportPeerLost
  simp [h]

@[simp] theorem reportIsolated_queueLaw (s : State) (own cause : Epoch) (left : Mode) (h : QueueLaw s.fs) :
    QueueLaw (s.reportIsolated own cause left).fs := by
  unfold State.reportIsolated
  simp [h]

@[simp] theorem reportRoadEmptied_queueLaw (s : State) (r entries : Nat) (h : QueueLaw s.fs) :
    QueueLaw (s.reportRoadEmptied r entries).fs := by
  unfold State.reportRoadEmptied
  simp [h]

@[simp] theorem reportRoadDoubtful_queueLaw (s : State) (r : Nat) (cause : DoubtCause) (tram : Option Nat) (h : QueueLaw s.fs) :
    QueueLaw (s.reportRoadDoubtful r cause tram).fs := by
  unfold State.reportRoadDoubtful
  simp [h]

@[simp] theorem reportClamp_queueLaw (s : State) (c : Clamp) (h : QueueLaw s.fs) : QueueLaw (s.reportClamp c).fs := by
  unfold State.reportClamp
  simp [h]

@[simp] theorem tellRe_queueLaw (s : State) (dest : Nat) (m : ReMsg) (h : QueueLaw s.fs) : QueueLaw (s.tellRe dest m).fs := by
  unfold State.tellRe
  (repeat' split) <;> simp [h]

/-! ### PU (R23, R24, R30) -/

@[simp] theorem failPoint_queueLaw (s : State) (p : Nat) (target : Position) (phase : Nat) (h : QueueLaw s.fs) :
    QueueLaw (s.failPoint p target phase).fs := by
  unfold State.failPoint
  simp [h]

@[simp] theorem travelExpiry_queueLaw (s : State) (p : Nat) (h : QueueLaw s.fs) : QueueLaw (s.travelExpiry p).fs := by
  unfold State.travelExpiry
  (repeat' split) <;> simp [h]

/-! ### YU (R146 to R160) -/

@[simp] theorem sendRoadChange_queueLaw (s : State) (r : Nat) (h : QueueLaw s.fs) : QueueLaw (s.sendRoadChange r).fs := by
  unfold State.sendRoadChange
  (repeat' split) <;> simp [h]

@[simp] theorem announceGains_queueLaw (s : State) (old : List RoadRec) (h : QueueLaw s.fs) : QueueLaw (s.announceGains old).fs := by
  refine forEach_queueLaw (fun x u hu => ?_) h
  (repeat' split) <;> simp [hu]

@[simp] theorem markDoubtful_queueLaw (s : State) (r : Nat) (cause : DoubtCause) (tram : Option Nat) (h : QueueLaw s.fs) :
    QueueLaw (s.markDoubtful r cause tram).fs := by
  unfold State.markDoubtful
  (repeat' split) <;> simp [h]

@[simp] theorem answerCall_queueLaw (s : State) (call : CallId) (epoch : Epoch) (t : TramRec) (h : QueueLaw s.fs) :
    QueueLaw (s.answerCall call epoch t).fs := by
  unfold State.answerCall
  dsimp only
  (repeat' split) <;> simp [h]

@[simp] theorem takeBidCall_queueLaw (s : State) (call : CallId) (epoch : Epoch) (t : TramRec) (h : QueueLaw s.fs) :
    QueueLaw (s.takeBidCall call epoch t).fs := by
  unfold State.takeBidCall
  dsimp only
  (repeat' split) <;> simp [h]

@[simp] theorem takeAward_queueLaw (s : State) (call : CallId) (epoch : Epoch) (road : Nat) (t : TramRec) (direct : Bool)
    (h : QueueLaw s.fs) : QueueLaw (s.takeAward call epoch road t direct).fs := by
  unfold State.takeAward
  dsimp only
  (repeat' split) <;> simp [h]

@[simp] theorem takeWithdraw_queueLaw (s : State) (call : CallId) (epoch : Epoch) (h : QueueLaw s.fs) :
    QueueLaw (s.takeWithdraw call epoch).fs := by
  unfold State.takeWithdraw
  simp [h]

@[simp] theorem unlinkArrival_queueLaw (s : State) (id : Nat) (h : QueueLaw s.fs) : QueueLaw (s.unlinkArrival id).fs := by
  unfold State.unlinkArrival
  simp [h]

@[simp] theorem pushArrival_queueLaw (s : State) (r : Nat) (a : Arrival) (h : QueueLaw s.fs) : QueueLaw (s.pushArrival r a).fs := by
  unfold State.pushArrival
  have marked := fun v => forEach_queueLaw (s := v) (l := s.roadsHolding a.tram.tram)
    (f := fun k s => s.markDoubtful k .duplicateTram (some a.tram.tram)) (fun k u hu => markDoubtful_queueLaw u k _ _ hu)
  simp [marked, h]

@[simp] theorem takePush_queueLaw (s : State) (r : Nat) (call : CallId) (key : RouteKey) (tram : Nat) (h : QueueLaw s.fs) :
    QueueLaw (s.takePush r call key tram).fs := by
  unfold State.takePush
  dsimp only
  (repeat' split) <;> simp [h]

@[simp] theorem takePop_queueLaw (s : State) (r tram : Nat) (h : QueueLaw s.fs) : QueueLaw (s.takePop r tram).fs := by
  unfold State.takePop
  (repeat' split) <;> simp [h]

@[simp] theorem runOutMark_queueLaw (s : State) (r tram : Nat) (h : QueueLaw s.fs) : QueueLaw (s.runOutMark r tram).fs := by
  unfold State.runOutMark
  (repeat' split) <;> simp [h]

@[simp] theorem bodyCleared_queueLaw (s : State) (r : Nat) (h : QueueLaw s.fs) : QueueLaw (s.bodyCleared r).fs := by
  unfold State.bodyCleared
  (repeat' split) <;> simp [h]

@[simp] theorem bodyOccupied_queueLaw (s : State) (r : Nat) (h : QueueLaw s.fs) : QueueLaw (s.bodyOccupied r).fs := by
  unfold State.bodyOccupied
  (repeat' split) <;> simp [h]

@[simp] theorem yuNotice_queueLaw (s : State) (n : SectNotice) (h : QueueLaw s.fs) : QueueLaw (s.yuNotice n).fs := by
  unfold State.yuNotice
  (repeat' split) <;> simp [h]

@[simp] theorem yuRestarted_queueLaw (s : State) (peer : Nat) (old : Epoch) (h : QueueLaw s.fs) :
    QueueLaw (s.yuRestarted peer old).fs := by
  unfold State.yuRestarted
  simp [h]

@[simp] theorem holdExpiry_queueLaw (s : State) (r j : Nat) (h : QueueLaw s.fs) : QueueLaw (s.holdExpiry r j).fs := by
  unfold State.holdExpiry
  (repeat' split) <;> simp [h]

@[simp] theorem yuTakes_queueLaw (s : State) (m : YuMsg) (h : QueueLaw s.fs) : QueueLaw (s.yuTakes m).fs := by
  unfold State.yuTakes
  (repeat' split) <;> simp [h]

@[simp] theorem yuTakesAll_queueLaw (s : State) (h : QueueLaw s.fs) : QueueLaw s.yuTakesAll.fs := by
  refine forEach_queueLaw (fun x u hu => ?_) h
  simp [hu]

/-! ### CT (R95 to R118) -/

@[simp] theorem denyTo_queueLaw (s : State) (dest : Nat) (key : RouteKey) (reason : DenyReason) (step : Nat) (detail : Option Nat)
    (h : QueueLaw s.fs) : QueueLaw (s.denyTo dest key reason step detail).fs := by
  unfold State.denyTo
  (repeat' split) <;> simp [h]

@[simp] theorem tellLost_queueLaw (s : State) (id : Nat) (c : Claim) (cause : LostCause) (point : Option Nat) (h : QueueLaw s.fs) :
    QueueLaw (s.tellLost id c cause point).fs := by
  unfold State.tellLost
  simp [h]

@[simp] theorem sendLost_queueLaw (s : State) (id : Nat) (cause : LostCause) (point : Option Nat) (h : QueueLaw s.fs) :
    QueueLaw (s.sendLost id cause point).fs := by
  unfold State.sendLost
  (repeat' split) <;> simp [h]

@[simp] theorem mouthRelease_queueLaw (s : State) (id : Nat) (c : Claim) (st : ClaimStep) (h : QueueLaw s.fs) :
    QueueLaw (s.mouthRelease id c st).fs := by
  unfold State.mouthRelease
  (repeat' split) <;> simp [h]

@[simp] theorem releaseStep_queueLaw (s : State) (id i : Nat) (tell : Bool) (h : QueueLaw s.fs) :
    QueueLaw (s.releaseStep id i tell).fs := by
  unfold State.releaseStep
  dsimp only
  (repeat' split) <;> simp [forEach_endPermission, h]

@[simp] theorem releaseClear_queueLaw (s : State) (id : Nat) (h : QueueLaw s.fs) : QueueLaw (s.releaseClear id).fs := by
  refine forEach_queueLaw (fun x u hu => ?_) h
  (repeat' split) <;> simp [hu]

@[simp] theorem releaseAll_queueLaw (s : State) (id : Nat) (h : QueueLaw s.fs) : QueueLaw (s.releaseAll id).fs := by
  refine forEach_queueLaw (fun x u hu => ?_) h
  simp [hu]

@[simp] theorem windDown_queueLaw (s : State) (id : Nat) (h : QueueLaw s.fs) : QueueLaw (s.windDown id).fs := by
  unfold State.windDown
  (repeat' split) <;> simp [h]

@[simp] theorem examineStep_queueLaw (s : State) (id i : Nat) (h : QueueLaw s.fs) : QueueLaw (s.examineStep id i).fs := by
  unfold State.examineStep
  (repeat' split) <;> simp [h]

@[simp] theorem examineAll_queueLaw (s : State) (id : Nat) (h : QueueLaw s.fs) : QueueLaw (s.examineAll id).fs := by
  refine forEach_queueLaw (fun x u hu => ?_) h
  simp [hu]

@[simp] theorem seenOccupied_queueLaw (s : State) (id i : Nat) (h : QueueLaw s.fs) : QueueLaw (s.seenOccupied id i).fs := by
  unfold State.seenOccupied
  dsimp only
  (repeat' split) <;> simp [h]

@[simp] theorem sectionCleared_queueLaw (s : State) (id i : Nat) (h : QueueLaw s.fs) : QueueLaw (s.sectionCleared id i).fs := by
  unfold State.sectionCleared
  (repeat' split) <;> simp [h]

@[simp] theorem ctNotice_queueLaw (s : State) (n : SectNotice) (h : QueueLaw s.fs) : QueueLaw (s.ctNotice n).fs := by
  unfold State.ctNotice
  (repeat' split) <;> simp [h]

@[simp] theorem grantClaim_queueLaw (s : State) (req : ClaimReq) (cls : RouteClass) (id : Nat) (free : List Nat) (h : QueueLaw s.fs) :
    QueueLaw (s.grantClaim req cls id free).fs := by
  unfold State.grantClaim
  dsimp only
  (repeat' split) <;> simp [h]

@[simp] theorem finishClaim_queueLaw (s : State) (req : ClaimReq) (cls : RouteClass) (h : QueueLaw s.fs) :
    QueueLaw (s.finishClaim req cls).fs := by
  unfold State.finishClaim
  (repeat' split) <;> simp [h]

@[simp] theorem checkSteps_queueLaw (s : State) (req : ClaimReq) (h : QueueLaw s.fs) : QueueLaw (s.checkSteps req).fs := by
  unfold State.checkSteps
  (repeat' split) <;> simp [h]

@[simp] theorem checkEarlier_queueLaw (s : State) (req : ClaimReq) (h : QueueLaw s.fs) : QueueLaw (s.checkEarlier req).fs := by
  have wound := fun (l : List Nat) v => forEach_queueLaw (s := v) (l := l) (f := fun id s => s.windDown id)
    (fun id u hu => windDown_queueLaw u id hu)
  unfold State.checkEarlier
  dsimp only
  (repeat' split) <;> simp [wound, h]

@[simp] theorem evaluateClaim_queueLaw (s : State) (req : ClaimReq) (rx : Option RxRec) (h : QueueLaw s.fs) :
    QueueLaw (s.evaluateClaim req rx).fs := by
  unfold State.evaluateClaim
  (repeat' split) <;> simp [h]

@[simp] theorem sendSetFail_queueLaw (s : State) (key : RouteKey) (point : Option Nat) (cause : SetFailCause) (h : QueueLaw s.fs) :
    QueueLaw (s.sendSetFail key point cause).fs := by
  unfold State.sendSetFail
  simp [h]

@[simp] theorem leaveSetting_queueLaw (s : State) (id : Nat) (h : QueueLaw s.fs) : QueueLaw (s.leaveSetting id).fs := by
  unfold State.leaveSetting
  (repeat' split) <;> simp [h]

@[simp] theorem enterSetting_queueLaw (s : State) (id : Nat) (c : Claim) (h : QueueLaw s.fs) : QueueLaw (s.enterSetting id c).fs := by
  unfold State.enterSetting
  (repeat' split) <;> simp [h]

@[simp] theorem setReserved_queueLaw (s : State) (id : Nat) (c : Claim) (h : QueueLaw s.fs) : QueueLaw (s.setReserved id c).fs := by
  unfold State.setReserved
  (repeat' split) <;> simp [h]

@[simp] theorem takeSet_queueLaw (s : State) (key : RouteKey) (h : QueueLaw s.fs) : QueueLaw (s.takeSet key).fs := by
  unfold State.takeSet
  (repeat' split) <;> simp [h]

@[simp] theorem answerOrder_queueLaw (s : State) (id p : Nat) (h : QueueLaw s.fs) : QueueLaw (s.answerOrder id p).fs := by
  unfold State.answerOrder
  dsimp only
  (repeat' split) <;> simp [h]

@[simp] theorem ctMoveDone_queueLaw (s : State) (p : Nat) (h : QueueLaw s.fs) : QueueLaw (s.ctMoveDone p).fs := by
  unfold State.ctMoveDone
  (repeat' split) <;> simp [h]

@[simp] theorem ctMoveFail_queueLaw (s : State) (p : Nat) (cause : MoveCause) (h : QueueLaw s.fs) :
    QueueLaw (s.ctMoveFail p cause).fs := by
  unfold State.ctMoveFail
  (repeat' split) <;> simp [h]

@[simp] theorem losePoint_queueLaw (s : State) (id p : Nat) (c : Claim) (h : QueueLaw s.fs) : QueueLaw (s.losePoint id p c).fs := by
  unfold State.losePoint
  (repeat' split) <;> simp [h]

@[simp] theorem ctDetectionLost_queueLaw (s : State) (p : Nat) (h : QueueLaw s.fs) : QueueLaw (s.ctDetectionLost p).fs := by
  unfold State.ctDetectionLost
  (repeat' split) <;> simp [h]

@[simp] theorem takeRelease_queueLaw (s : State) (key : RouteKey) (h : QueueLaw s.fs) : QueueLaw (s.takeRelease key).fs := by
  unfold State.takeRelease
  (repeat' split) <;> simp [h]

@[simp] theorem reservedExpiry_queueLaw (s : State) (id : Nat) (h : QueueLaw s.fs) : QueueLaw (s.reservedExpiry id).fs := by
  unfold State.reservedExpiry
  (repeat' split) <;> simp [h]

@[simp] theorem setExpiry_queueLaw (s : State) (id : Nat) (h : QueueLaw s.fs) : QueueLaw (s.setExpiry id).fs := by
  unfold State.setExpiry
  (repeat' split) <;> simp [h]

@[simp] theorem orphanExpiry_queueLaw (s : State) (id i : Nat) (h : QueueLaw s.fs) : QueueLaw (s.orphanExpiry id i).fs := by
  unfold State.orphanExpiry
  (repeat' split) <;> simp [h]

@[simp] theorem returnRecord_queueLaw (s : State) (id : Nat) (c : Claim) (h : QueueLaw s.fs) : QueueLaw (s.returnRecord id c).fs := by
  unfold State.returnRecord
  dsimp only
  (repeat' split) <;> simp [h]

@[simp] theorem unorphanRecord_queueLaw (s : State) (id : Nat) (h : QueueLaw s.fs) : QueueLaw (s.unorphanRecord id).fs := by
  unfold State.unorphanRecord
  (repeat' split) <;> simp [h]

@[simp] theorem ctReturned_queueLaw (s : State) (peer : Nat) (epoch : Epoch) (h : QueueLaw s.fs) :
    QueueLaw (s.ctReturned peer epoch).fs := by
  refine forEach_queueLaw (fun x u hu => ?_) h
  simp [hu]

@[simp] theorem dropRecord_queueLaw (s : State) (id : Nat) (h : QueueLaw s.fs) : QueueLaw (s.dropRecord id).fs := by
  unfold State.dropRecord
  simp [h]

@[simp] theorem ctRestarted_queueLaw (s : State) (peer : Nat) (old : Epoch) (h : QueueLaw s.fs) :
    QueueLaw (s.ctRestarted peer old).fs := by
  refine forEach_queueLaw (fun x u hu => ?_) h
  simp [hu]

@[simp] theorem isolateRecord_queueLaw (s : State) (id : Nat) (h : QueueLaw s.fs) : QueueLaw (s.isolateRecord id).fs := by
  unfold State.isolateRecord
  (repeat' split) <;> simp [h]

@[simp] theorem ctIsolate_queueLaw (s : State) (h : QueueLaw s.fs) : QueueLaw s.ctIsolate.fs := by
  refine forEach_queueLaw (fun x u hu => ?_) h
  simp [hu]

@[simp] theorem ctTakes_queueLaw (s : State) (m : CtMsg) (h : QueueLaw s.fs) : QueueLaw (s.ctTakes m).fs := by
  unfold State.ctTakes
  (repeat' split) <;> simp [h]

@[simp] theorem ctTakesAll_queueLaw (s : State) (h : QueueLaw s.fs) : QueueLaw s.ctTakesAll.fs := by
  refine forEach_queueLaw (fun x u hu => ?_) h
  simp [hu]

/-! ### RE (R122 to R141) -/

@[simp] theorem releaseTo_queueLaw (s : State) (key : RouteKey) (node : Nat) (h : QueueLaw s.fs) :
    QueueLaw (s.releaseTo key node).fs := by
  unfold State.releaseTo
  (repeat' split) <;> simp [h]

@[simp] theorem setTo_queueLaw (s : State) (key : RouteKey) (node : Nat) (h : QueueLaw s.fs) : QueueLaw (s.setTo key node).fs := by
  unfold State.setTo
  (repeat' split) <;> simp [h]

@[simp] theorem releaseAsked_queueLaw (s : State) (x : Inst) (h : QueueLaw s.fs) : QueueLaw (s.releaseAsked x).fs := by
  refine forEach_queueLaw (fun x u hu => ?_) h
  simp [hu]

@[simp] theorem withdrawAward_queueLaw (s : State) (x : Inst) (h : QueueLaw s.fs) : QueueLaw (s.withdrawAward x).fs := by
  unfold State.withdrawAward
  (repeat' split) <;> simp [h]

@[simp] theorem sendClaim_queueLaw (s : State) (x : Inst) (rc : RouteCfg) (node : Nat) (h : QueueLaw s.fs) :
    QueueLaw (s.sendClaim x rc node).fs := by
  unfold State.sendClaim
  (repeat' split) <;> simp [h]

@[simp] theorem startCall_queueLaw (s : State) (i : Nat) (h : QueueLaw s.fs) : QueueLaw (s.startCall i).fs := by
  unfold State.startCall
  (repeat' split) <;> simp [h]

@[simp] theorem makeAttempt_queueLaw (s : State) (i : Nat) (x : Inst) (rc : RouteCfg) (h : QueueLaw s.fs) :
    QueueLaw (s.makeAttempt i x rc).fs := by
  have sent := fun l v => forEach_queueLaw (s := v) (l := l) (f := fun k s => s.sendClaim x rc k)
    (fun k u hu => sendClaim_queueLaw u x rc k hu)
  unfold State.makeAttempt
  simp [sent, h]

@[simp] theorem beginAttempt_queueLaw (s : State) (i : Nat) (h : QueueLaw s.fs) : QueueLaw (s.beginAttempt i).fs := by
  unfold State.beginAttempt
  (repeat' split) <;> simp [h]

@[simp] theorem failAttempt_queueLaw (s : State) (i : Nat) (cause : AttemptCause) (h : QueueLaw s.fs) :
    QueueLaw (s.failAttempt i cause).fs := by
  unfold State.failAttempt
  dsimp only
  split
  · rename_i x hx
    have asked := releaseAsked_queueLaw s x h
    have withdrawn : QueueLaw (((s.releaseAsked x).countFailure x.slot).withdrawAward x).fs := by simp [asked]
    split <;> simp [asked, withdrawn]
  · exact h

@[simp] theorem makeAward_queueLaw (s : State) (i : Nat) (x : Inst) (a : AwardRec) (route : Option Nat) (h : QueueLaw s.fs) :
    QueueLaw (s.makeAward i x a route).fs := by
  unfold State.makeAward
  (repeat' split) <;> simp [h]

@[simp] theorem directAward_queueLaw (s : State) (i : Nat) (h : QueueLaw s.fs) : QueueLaw (s.directAward i).fs := by
  unfold State.directAward
  (repeat' split) <;> simp [h]

@[simp] theorem bidExpiry_queueLaw (s : State) (i : Nat) (h : QueueLaw s.fs) : QueueLaw (s.bidExpiry i).fs := by
  unfold State.bidExpiry
  (repeat' split) <;> simp [h]

@[simp] theorem takeRoadChange_queueLaw (s : State) (h : QueueLaw s.fs) : QueueLaw s.takeRoadChange.fs := by
  unfold State.takeRoadChange
  split
  · refine forEach_queueLaw (fun x u hu => ?_) h
    (repeat' split) <;> simp [hu]
  · exact h

@[simp] theorem enterSettingRoute_queueLaw (s : State) (i : Nat) (h : QueueLaw s.fs) : QueueLaw (s.enterSettingRoute i).fs := by
  unfold State.enterSettingRoute
  split
  · exact forEach_queueLaw (fun o u hu => setTo_queueLaw u _ _ hu) h
  · exact h

@[simp] theorem allSet_queueLaw (s : State) (i : Nat) (x : Inst) (h : QueueLaw s.fs) : QueueLaw (s.allSet i x).fs := by
  unfold State.allSet
  (repeat' split) <;> simp [h]

@[simp] theorem endDegraded_queueLaw (s : State) (i : Nat) (x : Inst) (spareChanged : Bool) (h : QueueLaw s.fs) :
    QueueLaw (s.endDegraded i x spareChanged).fs := by
  unfold State.endDegraded
  have released := fun (l : List OwnerEntry) v => forEach_queueLaw (s := v) (l := l) (f := fun o s => s.releaseTo (s.keyOf x) o.node)
    (fun o u hu => releaseTo_queueLaw u _ _ hu)
  simp [released, h]

@[simp] theorem checkEnd_queueLaw (s : State) (i : Nat) (h : QueueLaw s.fs) : QueueLaw (s.checkEnd i).fs := by
  unfold State.checkEnd
  (repeat' split) <;> simp [h]

@[simp] theorem enterEntered_queueLaw (s : State) (i : Nat) (h : QueueLaw s.fs) : QueueLaw (s.enterEntered i).fs := by
  unfold State.enterEntered
  simp [h]

@[simp] theorem countPassed_queueLaw (s : State) (i : Nat) (x : Inst) (p : Nat → RouteStep → Bool) (h : QueueLaw s.fs) :
    QueueLaw (s.countPassed i x p).fs := by
  unfold State.countPassed
  dsimp only
  (repeat' split) <;> simp [h]

@[simp] theorem letGo_queueLaw (s : State) (i : Nat) (x : Inst) (code : OutcomeCode) (h : QueueLaw s.fs) :
    QueueLaw (s.letGo i x code).fs := by
  unfold State.letGo
  simp [h]

@[simp] theorem enterCancelling_queueLaw (s : State) (i : Nat) (cause : CancelCause) (h : QueueLaw s.fs) :
    QueueLaw (s.enterCancelling i cause).fs := by
  unfold State.enterCancelling
  dsimp only
  (repeat' split) <;> simp [h]

@[simp] theorem takeCancel_queueLaw (s : State) (m : CancelMsg) (h : QueueLaw s.fs) : QueueLaw (s.takeCancel m).fs := by
  unfold State.takeCancel
  (repeat' split) <;> simp [h]

@[simp] theorem answerStaleGrant_queueLaw (s : State) (key : RouteKey) (rx : Option RxRec) (h : QueueLaw s.fs) :
    QueueLaw (s.answerStaleGrant key rx).fs := by
  unfold State.answerStaleGrant
  simp [h]

@[simp] theorem recordGrant_queueLaw (s : State) (i : Nat) (x : Inst) (claimId : Nat) (rx : Option RxRec) (h : QueueLaw s.fs) :
    QueueLaw (s.recordGrant i x claimId rx).fs := by
  unfold State.recordGrant
  dsimp only
  (repeat' split) <;> simp [h]

@[simp] theorem takeGrant_queueLaw (s : State) (key : RouteKey) (claimId : Nat) (rx : Option RxRec) (h : QueueLaw s.fs) :
    QueueLaw (s.takeGrant key claimId rx).fs := by
  unfold State.takeGrant
  (repeat' split) <;> simp [h]

@[simp] theorem takeDeny_queueLaw (s : State) (i : Nat) (x : Inst) (reason : DenyReason) (rx : Option RxRec) (h : QueueLaw s.fs) :
    QueueLaw (s.takeDeny i x reason rx).fs := by
  unfold State.takeDeny
  (repeat' split) <;> simp [h]

@[simp] theorem takeSetDone_queueLaw (s : State) (i : Nat) (x : Inst) (at_ : Time) (rx : Option RxRec) (h : QueueLaw s.fs) :
    QueueLaw (s.takeSetDone i x at_ rx).fs := by
  unfold State.takeSetDone
  dsimp only
  (repeat' split) <;> simp [h]

@[simp] theorem takeSetFail_queueLaw (s : State) (i : Nat) (x : Inst) (rx : Option RxRec) (h : QueueLaw s.fs) :
    QueueLaw (s.takeSetFail i x rx).fs := by
  unfold State.takeSetFail
  (repeat' split) <;> simp [h]

@[simp] theorem takeClaimLost_queueLaw (s : State) (i : Nat) (x : Inst) (rx : Option RxRec) (h : QueueLaw s.fs) :
    QueueLaw (s.takeClaimLost i x rx).fs := by
  unfold State.takeClaimLost
  (repeat' split) <;> simp [h]

@[simp] theorem takePassed_queueLaw (s : State) (i : Nat) (x : Inst) (number : Nat) (rx : Option RxRec) (h : QueueLaw s.fs) :
    QueueLaw (s.takePassed i x number rx).fs := by
  unfold State.takePassed
  (repeat' split) <;> simp [h]

@[simp] theorem takeReply_queueLaw (s : State) (m : ReMsg) (rx : Option RxRec) (h : QueueLaw s.fs) :
    QueueLaw (s.takeReply m rx).fs := by
  unfold State.takeReply
  (repeat' split) <;> simp [h]

@[simp] theorem takeClearFail_queueLaw (s : State) (g : Nat) (h : QueueLaw s.fs) : QueueLaw (s.takeClearFail g).fs := by
  unfold State.takeClearFail
  (repeat' split) <;> simp [h]

@[simp] theorem takeLampFault_queueLaw (s : State) (g : Nat) (h : QueueLaw s.fs) : QueueLaw (s.takeLampFault g).fs := by
  unfold State.takeLampFault
  (repeat' split) <;> simp [h]

@[simp] theorem trampedFirst_queueLaw (s : State) (i : Nat) (x : Inst) (h : QueueLaw s.fs) : QueueLaw (s.trampedFirst i x).fs := by
  unfold State.trampedFirst
  (repeat' split) <;> simp [h]

@[simp] theorem reNotice_queueLaw (s : State) (n : SectNotice) (h : QueueLaw s.fs) : QueueLaw (s.reNotice n).fs := by
  unfold State.reNotice
  split
  · refine forEach_queueLaw (fun x u hu => ?_) h
    (repeat' split) <;> simp [hu]
  · exact h

@[simp] theorem ownerGone_queueLaw (s : State) (peer : Nat) (epoch : Epoch) (changed : Bool) (i : Nat) (x : Inst) (h : QueueLaw s.fs) :
    QueueLaw (s.ownerGone peer epoch changed i x).fs := by
  unfold State.ownerGone
  (repeat' split) <;> simp [h]

@[simp] theorem reLost_queueLaw (s : State) (peer : Nat) (epoch : Epoch) (changed : Bool) (h : QueueLaw s.fs) :
    QueueLaw (s.reLost peer epoch changed).fs := by
  refine forEach_queueLaw (fun x u hu => ?_) h
  (repeat' split) <;> simp [hu]

@[simp] theorem takeLockReport_queueLaw (s : State) (peer : Nat) (epoch : Epoch) (at_ : Time) (map : BitVec 16) (h : QueueLaw s.fs) :
    QueueLaw (s.takeLockReport peer epoch at_ map).fs := by
  refine forEach_queueLaw (fun x u hu => ?_) h
  (repeat' split) <;> simp [hu]

@[simp] theorem isolateInst_queueLaw (s : State) (i : Nat) (x : Inst) (h : QueueLaw s.fs) : QueueLaw (s.isolateInst i x).fs := by
  unfold State.isolateInst
  have released := fun (l : List OwnerEntry) v => forEach_queueLaw (s := v) (l := l) (f := fun o s => s.releaseTo (s.keyOf x) o.node)
    (fun o u hu => releaseTo_queueLaw u _ _ hu)
  dsimp only
  split <;> simp [released, h]

@[simp] theorem reIsolate_queueLaw (s : State) (h : QueueLaw s.fs) : QueueLaw s.reIsolate.fs := by
  refine forEach_queueLaw (fun x u hu => ?_) h
  (repeat' split) <;> simp [hu]

@[simp] theorem retry_queueLaw (s : State) (i : Nat) (x : Inst) (h : QueueLaw s.fs) : QueueLaw (s.retry i x).fs := by
  unfold State.retry
  (repeat' split) <;> simp [h]

/-! ### RQ and SU (R34 to R37, R77 to R90) -/

@[simp] theorem writeOutcome_queueLaw (s : State) (r : OutcomeRec) (h : QueueLaw s.fs) : QueueLaw (s.writeOutcome r).fs := by
  unfold State.writeOutcome
  simp [h]

@[simp] theorem slotOutcome_queueLaw (s : State) (d : SlotData) (code : OutcomeCode) (h : QueueLaw s.fs) :
    QueueLaw (s.slotOutcome d code).fs := by
  unfold State.slotOutcome
  simp [h]

@[simp] theorem endQueued_queueLaw (s : State) (i : Nat) (d : SlotData) (code : OutcomeCode) (h : QueueLaw s.fs) :
    QueueLaw (s.endQueued i d code).fs := by
  unfold State.endQueued
  simp [h]

@[simp] theorem startInst_queueLaw (s : State) (i : Nat) (code : ReqCode) (h : QueueLaw s.fs) : QueueLaw (s.startInst i code).fs := by
  unfold State.startInst
  (repeat' split) <;> simp [h]

@[simp] theorem activate_queueLaw (s : State) (g k : Nat) (d : SlotData) (i : Nat) (h : QueueLaw s.fs) :
    QueueLaw (s.activate g k d i).fs := by
  unfold State.activate
  simp [h]

@[simp] theorem visit_queueLaw (s : State) (n left g : Nat) (h : QueueLaw s.fs) : QueueLaw (s.visit n left g).fs := by
  induction n generalizing s left g with
  | zero => simpa [State.visit] using h
  | succ n ih =>
    cases left with
    | zero => simpa [State.visit] using h
    | succ left =>
      rw [State.visit]
      split <;> simp [ih, h]

@[simp] theorem scan_queueLaw (s : State) (h : QueueLaw s.fs) : QueueLaw s.scan.fs := by
  unfold State.scan
  simp [h]

@[simp] theorem refuse_queueLaw (s : State) (t : Telegram) (d : RefusalDetail) (h : QueueLaw s.fs) : QueueLaw (s.refuse t d).fs := by
  unfold State.refuse
  simp [h]

@[simp] theorem takeSlot_queueLaw (s : State) (t : Telegram) (c : ReqCode) (k : Nat) (h : QueueLaw s.fs) :
    QueueLaw (s.takeSlot t c k).fs := by
  unfold State.takeSlot
  simp [h]

@[simp] theorem fileRequest_queueLaw (s : State) (t : Telegram) (c : ReqCode) (h : QueueLaw s.fs) :
    QueueLaw (s.fileRequest t c).fs := by
  unfold State.fileRequest
  dsimp only
  (repeat' split) <;> simp [h]

@[simp] theorem newRequest_queueLaw (c : Option ReqCode) (t : Telegram) (s : State) (h : QueueLaw s.fs) :
    QueueLaw (State.newRequest c t s).fs := by
  unfold State.newRequest
  (repeat' split) <;> simp [h]

@[simp] theorem withdrawSlot_queueLaw (s : State) (i : Nat) (cause : CancelMark) (code : OutcomeCode) (h : QueueLaw s.fs) :
    QueueLaw (s.withdrawSlot i cause code).fs := by
  unfold State.withdrawSlot
  (repeat' split) <;> simp [h]

@[simp] theorem takeCancelTelegram_queueLaw (t : Telegram) (s : State) (h : QueueLaw s.fs) :
    QueueLaw (State.takeCancelTelegram t s).fs := by
  unfold State.takeCancelTelegram
  split
  · refine forEach_queueLaw (fun x u hu => ?_) h
    (repeat' split) <;> simp [hu]
  · exact h

@[simp] theorem lifetimeExpiry_queueLaw (s : State) (i : Nat) (h : QueueLaw s.fs) : QueueLaw (s.lifetimeExpiry i).fs := by
  unfold State.lifetimeExpiry
  (repeat' split) <;> simp [h]

@[simp] theorem takeOutcome_queueLaw (s : State) (m : OutcomeMsg) (h : QueueLaw s.fs) : QueueLaw (s.takeOutcome m).fs := by
  unfold State.takeOutcome
  (repeat' split) <;> simp [h]

@[simp] theorem rqIsolate_queueLaw (s : State) (h : QueueLaw s.fs) : QueueLaw s.rqIsolate.fs := by
  unfold State.rqIsolate
  simp only [setLamps_keeps]
  refine forEach_queueLaw (fun i u hu => ?_) h
  split <;> simp [hu]

@[simp] theorem lampRecoveredNotice_queueLaw (s : State) (g : Nat) (h : QueueLaw s.fs) : QueueLaw (s.lampRecoveredNotice g).fs := by
  unfold State.lampRecoveredNotice
  dsimp only
  (repeat' split) <;> simp [h]

@[simp] theorem evaluateSignal_queueLaw (r : LampReadings) (g : Nat) (s : State) (h : QueueLaw s.fs) :
    QueueLaw (State.evaluateSignal r g s).fs := by
  unfold State.evaluateSignal
  (repeat' split) <;> simp [h]

@[simp] theorem evaluateSignals_queueLaw (s : State) (h : QueueLaw s.fs) : QueueLaw s.evaluateSignals.fs := by
  unfold State.evaluateSignals
  split
  · exact forEach_queueLaw (fun g u hu => evaluateSignal_queueLaw _ g u hu) h
  · exact h

/-! ### PT (R59 to R72) -/

@[simp] theorem takeStateFrame_queueLaw (f : RxFrame) (s : State) (h : QueueLaw s.fs) : QueueLaw (takeStateFrame f s).fs := by
  unfold takeStateFrame
  dsimp only
  (repeat' split) <;> simp [h]

@[simp] theorem peerLoss_queueLaw (s : State) (k : Nat) (h : QueueLaw s.fs) : QueueLaw (s.peerLoss k).fs := by
  unfold State.peerLoss
  (repeat' split) <;> simp [h]

@[simp] theorem enterIsolated_queueLaw (s : State) (epoch : Epoch) (h : QueueLaw s.fs) : QueueLaw (s.enterIsolated epoch).fs := by
  unfold State.enterIsolated
  simp [h]

@[simp] theorem examineOwn_queueLaw (s : State) (r : RxRec) (h : QueueLaw s.fs) : QueueLaw (s.examineOwn r).fs := by
  unfold State.examineOwn
  dsimp only
  (repeat' split) <;> simp [h]

@[simp] theorem offerAnnounce_queueLaw (s : State) (h : QueueLaw s.fs) : QueueLaw s.offerAnnounce.fs := by
  unfold State.offerAnnounce
  simp [h]

@[simp] theorem enterRunning_queueLaw (s : State) (h : QueueLaw s.fs) : QueueLaw s.enterRunning.fs := by
  unfold State.enterRunning
  refine forEach_queueLaw (fun r u hu => ?_) (forEach_queueLaw (fun c u hu => reportClamp_queueLaw u c hu) h)
  split <;> simp [hu]

@[simp] theorem listenMark_queueLaw (s : State) (h : QueueLaw s.fs) : QueueLaw s.listenMark.fs := by
  unfold State.listenMark
  (repeat' split) <;> simp [h]

/-! ### Deliveries (R50, R103) -/

@[simp] theorem withCtHandover_queueLaw (s : State) (p : CtMsg → Bool) (h : QueueLaw s.fs) : QueueLaw (s.withCtHandover p).fs := by
  unfold State.withCtHandover
  (repeat' split) <;> simp [h]

@[simp] theorem withReHandover_queueLaw (s : State) (k : Kind) (h : QueueLaw s.fs) : QueueLaw (s.withReHandover k).fs := by
  unfold State.withReHandover
  (repeat' split) <;> simp [h]

@[simp] theorem withYuHandover_queueLaw (s : State) (p : YuMsg → Bool) (h : QueueLaw s.fs) : QueueLaw (s.withYuHandover p).fs := by
  unfold State.withYuHandover
  (repeat' split) <;> simp [h]

@[simp] theorem withChangeHandover_queueLaw (s : State) (h : QueueLaw s.fs) : QueueLaw s.withChangeHandover.fs := by
  unfold State.withChangeHandover
  (repeat' split) <;> simp [h]

@[simp] theorem claimFrame_queueLaw (f : RxFrame) (s : State) (h : QueueLaw s.fs) : QueueLaw (claimFrame f s).fs := by
  unfold claimFrame
  simp [h]

@[simp] theorem setFrame_queueLaw (f : RxFrame) (s : State) (h : QueueLaw s.fs) : QueueLaw (setFrame f s).fs := by
  unfold setFrame
  dsimp only
  (repeat' split) <;> simp [h]

@[simp] theorem releaseFrame_queueLaw (f : RxFrame) (s : State) (h : QueueLaw s.fs) : QueueLaw (releaseFrame f s).fs := by
  unfold releaseFrame
  dsimp only
  (repeat' split) <;> simp [h]

@[simp] theorem replyFrame_queueLaw (f : RxFrame) (s : State) (h : QueueLaw s.fs) : QueueLaw (replyFrame f s).fs := by
  unfold replyFrame
  (repeat' split) <;> simp [h]

@[simp] theorem bidCallFrame_queueLaw (f : RxFrame) (s : State) (h : QueueLaw s.fs) : QueueLaw (bidCallFrame f s).fs := by
  unfold bidCallFrame
  dsimp only
  (repeat' split) <;> simp [h]

@[simp] theorem awardFrame_queueLaw (f : RxFrame) (s : State) (h : QueueLaw s.fs) : QueueLaw (awardFrame f s).fs := by
  unfold awardFrame
  dsimp only
  (repeat' split) <;> simp [h]

@[simp] theorem withdrawFrame_queueLaw (f : RxFrame) (s : State) (h : QueueLaw s.fs) : QueueLaw (withdrawFrame f s).fs := by
  unfold withdrawFrame
  dsimp only
  (repeat' split) <;> simp [h]

/-! ### RP and DU (R15, R168) -/

@[simp] theorem inspectFrame_queueLaw (f : RxFrame) (s : State) (h : QueueLaw s.fs) : QueueLaw (inspectFrame f s).fs := by
  unfold inspectFrame
  (repeat' split) <;> simp [h]

@[simp] theorem evaluateSect_queueLaw (l : Levels) (k : Nat) (s : State) (h : QueueLaw s.fs) :
    QueueLaw (State.evaluateSect l k s).fs := by
  unfold State.evaluateSect
  dsimp only
  (repeat' split) <;> simp [h]

end Sys2Proof.Proofs
end

