-- ==== Sys2Proof/Proofs/Line.lean ====
section
/-! PROOF. The line interface group by group: what one group does in each synchronisation state, and what the operations on a frame in
assembly leave (R40 to R43, R47). With it start delimiters and commas (O18), the checks of a frame (O19), and access to the line (O22). -/

namespace Sys2Proof.Proofs
open Sys2Proof.Machine Sys2Proof.Laws

/-! ### Counting symbols (R42) -/

theorem countSymbol_closes {li : LI} (h : 1023 ≤ li.symCount) (violation : Bool) : li.countSymbol violation
    = { li with symCount := 0, violCount := 0, linePoor := decide (64 ≤ li.violCount + (if violation then 1 else 0)) } :=
  if_pos (by omega)

theorem countSymbol_counts {li : LI} (h : li.symCount < 1023) (violation : Bool) : li.countSymbol violation
    = { li with symCount := li.symCount + 1, violCount := li.violCount + (if violation then 1 else 0) } :=
  if_neg (by omega)

/-- Counting touches the two counts and LINE_POOR alone. -/
@[simp] theorem countSymbol_keeps (li : LI) (violation : Bool) :
    (li.countSymbol violation).sync = li.sync ∧ (li.countSymbol violation).align = li.align
      ∧ (li.countSymbol violation).disparity = li.disparity ∧ (li.countSymbol violation).violRun = li.violRun
      ∧ (li.countSymbol violation).asm = li.asm ∧ (li.countSymbol violation).access = li.access
      ∧ (li.countSymbol violation).sending = li.sending ∧ (li.countSymbol violation).seq = li.seq := by
  rcases Nat.lt_or_ge li.symCount 1023 with h | h
  · rw [countSymbol_counts h]
    simp
  · rw [countSymbol_closes h]
    simp

/-- Counting does not read the access to the line. -/
theorem countSymbol_access (li : LI) (a : Access) (violation : Bool) :
    ({ li with access := a } : LI).countSymbol violation = { li.countSymbol violation with access := a } := by
  rcases Nat.lt_or_ge li.symCount 1023 with h | h
  · rw [countSymbol_counts h, countSymbol_counts (by exact h)]
  · rw [countSymbol_closes h, countSymbol_closes (by exact h)]

/-! ### What LI is once a group has been counted (R40, R42, R54) -/

/-- LI once a group is heard and counted: the station has lost its round, and the running disparity has followed the group. -/
def heardLI (li : LI) (g : LineGroup) : LI :=
  ({ li with access := .waiting } : LI).takeGroup g

theorem heardLI_eq (li : LI) (g : LineGroup) : heardLI li g = { li.countSymbol (groupSymbol li.disparity g).isNone with
    access := .waiting, disparity := disparityAfter li.disparity g } := by
  unfold heardLI LI.takeGroup
  rw [countSymbol_access]

@[simp] theorem heardLI_keeps (li : LI) (g : LineGroup) :
    (heardLI li g).sync = li.sync ∧ (heardLI li g).align = li.align ∧ (heardLI li g).violRun = li.violRun
      ∧ (heardLI li g).asm = li.asm ∧ (heardLI li g).sending = li.sending ∧ (heardLI li g).access = .waiting
      ∧ (heardLI li g).disparity = disparityAfter li.disparity g := by
  simp [heardLI_eq]

/-! ### One group by the synchronisation state (R41) -/

theorem decode_hunt {s : State} (h : s.li.sync = .hunt) (g : LineGroup) : s.decode g = { s with li := s.li.hunt g } := by
  unfold State.decode
  rw [h]

/-- A group at another alignment is none of the groups decoded (log entry 34). -/
theorem decode_misaligned {s : State} {g : LineGroup} (h : s.li.sync ≠ .hunt) (ha : g.align ≠ s.li.align) : s.decode g = s := by
  unfold State.decode
  cases hs : s.li.sync with
  | hunt => exact absurd hs h
  | check => exact if_neg ha
  | inStep => exact if_neg ha

theorem decode_check {s : State} {g : LineGroup} (h : s.li.sync = .check) (ha : g.align = s.li.align) :
    s.decode g = ({ s with li := s.li.takeGroup g }).inCheck (groupSymbol s.li.disparity g) := by
  unfold State.decode
  rw [h]
  exact if_pos ha

theorem decode_inStep {s : State} {g : LineGroup} (h : s.li.sync = .inStep) (ha : g.align = s.li.align) :
    s.decode g = ({ s with li := s.li.takeGroup g }).inStep (groupSymbol s.li.disparity g) := by
  unfold State.decode
  rw [h]
  exact if_pos ha

/-- A station that receives has lost its round with the group it hears (R54). -/
theorem hearGroup_receives {s : State} (hr : s.receives = true) (g : LineGroup) :
    s.hearGroup g = ({ s with li := { s.li with access := .waiting } }).decode g :=
  if_pos hr

theorem hearGroup_hunt {s : State} (hr : s.receives = true) (h : s.li.sync = .hunt) (g : LineGroup) :
    s.hearGroup g = { s with li := ({ s.li with access := .waiting } : LI).hunt g } :=
  (hearGroup_receives hr g).trans (decode_hunt (by exact h) g)

theorem hearGroup_misaligned {s : State} {g : LineGroup} (hr : s.receives = true) (h : s.li.sync ≠ .hunt)
    (ha : g.align ≠ s.li.align) : s.hearGroup g = { s with li := { s.li with access := .waiting } } :=
  (hearGroup_receives hr g).trans (decode_misaligned h ha)

theorem hearGroup_check {s : State} {g : LineGroup} (hr : s.receives = true) (h : s.li.sync = .check) (ha : g.align = s.li.align) :
    s.hearGroup g = ({ s with li := heardLI s.li g }).inCheck (groupSymbol s.li.disparity g) :=
  (hearGroup_receives hr g).trans (decode_check h ha)

theorem hearGroup_inStep {s : State} {g : LineGroup} (hr : s.receives = true) (h : s.li.sync = .inStep) (ha : g.align = s.li.align) :
    s.hearGroup g = ({ s with li := heardLI s.li g }).inStep (groupSymbol s.li.disparity g) :=
  (hearGroup_receives hr g).trans (decode_inStep h ha)

/-! ### Frames in assembly (R43, R47) -/

/-- A frame in assembly is given up with cause CODE, and its buffer returns to the pool; with none in assembly nothing happens. -/
theorem abandon_eq (s : State) : s.abandon = { s with
    li := { s.li with asm := none }, fs := { s.fs with free := s.fs.free + s.li.buffers }
    cnt := if s.li.asm.isSome then { s.cnt with code := bump s.cnt.code } else s.cnt } := by
  unfold State.abandon LI.buffers
  cases h : s.li.asm with
  | none =>
    have same : { s.li with asm := none } = s.li := by rw [← h]
    simp [same]
  | some a => simp [State.discard, State.giveBuffer, State.count, Discard.count]

@[simp] theorem abandon_li (s : State) : s.abandon.li = { s.li with asm := none } := by rw [abandon_eq]

@[simp] theorem abandon_fs (s : State) : s.abandon.fs = { s.fs with free := s.fs.free + s.li.buffers } := by rw [abandon_eq]

@[simp] theorem abandon_code (s : State) :
    s.abandon.cnt.code = if s.li.asm.isSome then bump s.cnt.code else s.cnt.code := by
  rw [abandon_eq]
  dsimp only
  split <;> rfl

/-- With no frame in assembly nothing is given up. -/
theorem abandon_none {s : State} (h : s.li.asm = none) : s.abandon = s := by
  unfold State.abandon
  rw [h]
  rfl

/-- A start delimiter that finds no buffer (R47). -/
theorem beginFrame_empty {s : State} (h : s.fs.free = 0) : s.beginFrame = { s with
    fs := { s.fs with lastStart := some false }
    cnt := { s.cnt with
      noBuffer := bump s.cnt.noBuffer
      noBufferBursts := if s.fs.lastStart = some false then s.cnt.noBufferBursts else bump s.cnt.noBufferBursts } } := by
  unfold State.beginFrame
  rw [if_pos h]
  by_cases first : s.fs.lastStart = some false
  · simp [State.count, first]
  · simp [State.count, first]

/-- A start delimiter that takes a buffer (R43, R47). -/
theorem beginFrame_buffer {s : State} (h : 0 < s.fs.free) : s.beginFrame = ({ s with
    fs := { s.fs with lastStart := some true }, li := { s.li with asm := some ⟨[], false⟩ } }).takeBuffer :=
  if_neg (Nat.ne_of_gt h)

/-- A data symbol adds its byte, up to the 57th. -/
theorem addByte_room {s : State} {a : Assembly} (h : s.li.asm = some a) (room : a.bytes.length < 57) (b : Byte) :
    s.addByte b = { s with li := { s.li with asm := some { a with bytes := a.bytes ++ [b] } } } := by
  unfold State.addByte
  rw [h]
  exact if_neg (by omega)

/-- The 58th byte discards the frame (R43). -/
theorem addByte_full {s : State} {a : Assembly} (h : s.li.asm = some a) (full : 57 ≤ a.bytes.length) (b : Byte) :
    s.addByte b = s.discard (if a.damaged then .code else .oversize) := by
  unfold State.addByte
  rw [h]
  exact if_pos (by omega)

/-- Between frames a data symbol does nothing. -/
theorem addByte_none {s : State} (h : s.li.asm = none) (b : Byte) : s.addByte b = s := by
  unfold State.addByte
  rw [h]

/-- The third violation in a row loses synchronisation (R41). -/
theorem violate_third {s : State} (h : 2 ≤ s.li.violRun) :
    s.violate = ({ s with li := { s.li with sync := .hunt, violRun := 0 } }).abandon :=
  if_pos (by omega)

/-- An earlier one marks a frame in assembly damaged (R43). -/
theorem violate_earlier {s : State} (h : s.li.violRun ≤ 1) : s.violate = { s with li := { s.li with
    violRun := s.li.violRun + 1, asm := s.li.asm.map (fun a => { a with damaged := true }) } } :=
  if_neg (by omega)

/-! ### Frames that are filed (R45, R46, R49) -/

/-- Whatever a sound frame turns out to be, it leaves the assembly, and nothing else of LI changes. -/
@[simp] theorem examine_li (s : State) (l : List Byte) : (s.examine l).li = { s.li with asm := none } := by
  unfold State.examine State.accept
  dsimp only
  (repeat' split) <;> simp [State.discard]

/-- So does every frame at its end delimiter. -/
@[simp] theorem endFrame_li (s : State) : s.endFrame.li = { s.li with asm := none } := by
  unfold State.endFrame
  split
  · split <;> simp [State.discard]
  · rename_i h
    rw [← h]

/-! ### What a group leaves of LI -/

/-- From `a` to `b` only the synchronisation state, the violations in a row and the frame in assembly have changed. -/
def SameLine (a b : LI) : Prop :=
  b = { a with sync := b.sync, violRun := b.violRun, asm := b.asm }

theorem SameLine.of_eq {a : LI} (sync : Sync) (violRun : Nat) (asm : Option Assembly) :
    SameLine a { a with sync := sync, violRun := violRun, asm := asm } := rfl

theorem SameLine.trans {a b c : LI} (h : SameLine a b) (h' : SameLine b c) : SameLine a c :=
  Eq.trans h' (congrArg (fun v : LI => { v with sync := c.sync, violRun := c.violRun, asm := c.asm }) h)

theorem abandon_sameLine (s : State) : SameLine s.li s.abandon.li := by
  rw [abandon_eq]
  exact SameLine.of_eq _ _ _

theorem beginFrame_sameLine (s : State) : SameLine s.li s.beginFrame.li := by
  rcases Nat.eq_zero_or_pos s.fs.free with h | h
  · rw [beginFrame_empty h]
    exact SameLine.of_eq _ _ _
  · rw [beginFrame_buffer h]
    simp only [takeBuffer_keeps]
    exact SameLine.of_eq _ _ _

theorem addByte_sameLine (s : State) (b : Byte) : SameLine s.li (s.addByte b).li := by
  unfold State.addByte
  (repeat' split) <;> exact SameLine.of_eq _ _ _

theorem useSymbol_sameLine (s : State) (x : LineSymbol) : SameLine s.li (s.useSymbol x).li := by
  cases x with
  | comma => exact abandon_sameLine s
  | startDelim => exact (abandon_sameLine s).trans (beginFrame_sameLine _)
  | endDelim =>
    rw [State.useSymbol, endFrame_li]
    exact SameLine.of_eq _ _ _
  | data b => exact addByte_sameLine s b

theorem violate_sameLine (s : State) : SameLine s.li s.violate.li := by
  rcases Nat.lt_or_ge s.li.violRun 2 with h | h
  · rw [violate_earlier (by omega)]
    exact SameLine.of_eq _ _ _
  · rw [violate_third h]
    exact (SameLine.of_eq _ _ _).trans (abandon_sameLine _)

theorem inCheck_sameLine (s : State) (x : Option LineSymbol) : SameLine s.li (s.inCheck x).li := by
  unfold State.inCheck
  split
  · exact (SameLine.of_eq _ _ _).trans (beginFrame_sameLine _)
  · exact SameLine.of_eq _ _ _
  all_goals exact SameLine.of_eq _ _ _

theorem inStep_sameLine (s : State) (x : Option LineSymbol) : SameLine s.li (s.inStep x).li := by
  cases x with
  | none => exact violate_sameLine s
  | some x => exact (SameLine.of_eq _ _ _).trans (useSymbol_sameLine _ x)

/-! ### What changes on the line alone -/

/-- From `s` to `t` only LI, FS and the counters have changed. -/
def LineOnly (s t : State) : Prop :=
  t = { s with li := t.li, fs := t.fs, cnt := t.cnt }

theorem LineOnly.of_eq {s : State} (li : LI) (fs : FS) (cnt : Counters) : LineOnly s { s with li := li, fs := fs, cnt := cnt } := rfl

theorem LineOnly.trans {s t u : State} (h : LineOnly s t) (h' : LineOnly t u) : LineOnly s u :=
  Eq.trans h' (congrArg (fun v : State => { v with li := u.li, fs := u.fs, cnt := u.cnt }) h)

theorem send_lineOnly (s : State) (k : Kind) (dest : Nat) (l : List Byte) : LineOnly s (s.send k dest l) := by
  unfold LineOnly
  rw [send_eq]

theorem takeBuffer_lineOnly (s : State) : LineOnly s s.takeBuffer := by
  by_cases h : s.fs.free = 6
  · by_cases timer : s.fs.poolTimer = none
    · rw [takeBuffer_stopped h timer]
      exact LineOnly.trans (LineOnly.of_eq s.li _ s.cnt) (send_lineOnly _ _ _ _)
    · rw [takeBuffer_running h timer]
      exact LineOnly.of_eq s.li _ s.cnt
  · rw [takeBuffer_counted h]
    exact LineOnly.of_eq s.li _ s.cnt

theorem beginFrame_lineOnly (s : State) : LineOnly s s.beginFrame := by
  rcases Nat.eq_zero_or_pos s.fs.free with h | h
  · rw [beginFrame_empty h]
    exact LineOnly.of_eq s.li _ _
  · rw [beginFrame_buffer h]
    exact LineOnly.trans (LineOnly.of_eq _ _ s.cnt) (takeBuffer_lineOnly _)

theorem abandon_lineOnly (s : State) : LineOnly s s.abandon := by
  rw [abandon_eq]
  exact LineOnly.of_eq _ _ _

theorem addByte_lineOnly (s : State) (b : Byte) : LineOnly s (s.addByte b) := by
  unfold State.addByte
  (repeat' split) <;> exact LineOnly.of_eq _ _ _

theorem violate_lineOnly (s : State) : LineOnly s s.violate := by
  unfold State.violate
  split
  · exact LineOnly.trans (LineOnly.of_eq _ s.fs s.cnt) (abandon_lineOnly _)
  · exact LineOnly.of_eq _ s.fs s.cnt

theorem inCheck_lineOnly (s : State) (x : Option LineSymbol) : LineOnly s (s.inCheck x) := by
  unfold State.inCheck
  split
  · exact LineOnly.trans (LineOnly.of_eq _ s.fs s.cnt) (beginFrame_lineOnly _)
  · exact LineOnly.of_eq _ s.fs s.cnt
  all_goals exact LineOnly.of_eq s.li s.fs s.cnt

/-- Every symbol but an end delimiter touches LI, FS and the counters alone. -/
theorem inStep_lineOnly (s : State) {x : Option LineSymbol} (h : x ≠ some .endDelim) : LineOnly s (s.inStep x) := by
  cases x with
  | none => exact violate_lineOnly s
  | some x =>
    refine LineOnly.trans (LineOnly.of_eq { s.li with violRun := 0 } s.fs s.cnt) ?_
    cases x with
    | comma => exact abandon_lineOnly _
    | startDelim => exact (abandon_lineOnly _).trans (beginFrame_lineOnly _)
    | endDelim => exact absurd rfl h
    | data b => exact addByte_lineOnly _ b

/-- A group that is no end delimiter changes LI, FS and the counters alone, and the station that hears it has lost its round. -/
theorem hearGroup_lineOnly {s : State} {g : LineGroup} (hr : s.receives = true) (h : groupSymbol s.li.disparity g ≠ some .endDelim) :
    LineOnly s (s.hearGroup g) ∧ (s.hearGroup g).li.access = .waiting := by
  have waits : ∀ t : LI, SameLine (heardLI s.li g) t → t.access = .waiting := fun t ht => by rw [ht]; simp
  cases hs : s.li.sync with
  | hunt =>
    rw [hearGroup_hunt hr hs]
    refine ⟨LineOnly.of_eq _ s.fs s.cnt, ?_⟩
    unfold LI.hunt
    split <;> rfl
  | check =>
    by_cases ha : g.align = s.li.align
    · rw [hearGroup_check hr hs ha]
      exact ⟨LineOnly.trans (LineOnly.of_eq _ s.fs s.cnt) (inCheck_lineOnly _ _), waits _ (inCheck_sameLine _ _)⟩
    · rw [hearGroup_misaligned hr (by rw [hs]; decide) ha]
      exact ⟨LineOnly.of_eq _ s.fs s.cnt, rfl⟩
  | inStep =>
    by_cases ha : g.align = s.li.align
    · rw [hearGroup_inStep hr hs ha]
      exact ⟨LineOnly.trans (LineOnly.of_eq _ s.fs s.cnt) (inStep_lineOnly _ h), waits _ (inStep_sameLine _ _)⟩
    · rw [hearGroup_misaligned hr (by rw [hs]; decide) ha]
      exact ⟨LineOnly.of_eq _ s.fs s.cnt, rfl⟩

/-! ### Start delimiters (R41, R43, R47) -/

/-- With no frame in assembly, a start delimiter that is read leads to IN_STEP and asks for a buffer, in CHECK and in IN_STEP alike. -/
theorem hearGroup_startDelim {s : State} {g : LineGroup} (hr : s.receives = true) (hs : s.li.sync ≠ .hunt) (ha : g.align = s.li.align)
    (hg : groupSymbol s.li.disparity g = some .startDelim) (hn : s.li.asm = none) :
    s.hearGroup g = ({ s with li := { heardLI s.li g with sync := .inStep, violRun := 0 } }).beginFrame := by
  cases hsync : s.li.sync with
  | hunt => exact absurd hsync hs
  | check =>
    rw [hearGroup_check hr hsync ha, hg]
    rfl
  | inStep =>
    rw [hearGroup_inStep hr hsync ha, hg]
    have stays : { heardLI s.li g with sync := .inStep, violRun := 0 } = { heardLI s.li g with violRun := 0 } := by
      rw [← hsync, ← (heardLI_keeps s.li g).1]
    rw [stays]
    exact congrArg State.beginFrame (abandon_none (s := { s with li := { heardLI s.li g with violRun := 0 } }) (by simpa using hn))

/-- Offering a frame does not touch the memory of the last start delimiter. -/
@[simp] theorem send_lastStart (s : State) (k : Kind) (dest : Nat) (l : List Byte) :
    (s.send k dest l).fs.lastStart = s.fs.lastStart := by
  unfold State.send
  (repeat' split) <;> rfl

@[simp] theorem takeBuffer_lastStart (s : State) : s.takeBuffer.fs.lastStart = s.fs.lastStart := by
  by_cases h : s.fs.free = 6
  · by_cases timer : s.fs.poolTimer = none
    · rw [takeBuffer_stopped h timer, send_lastStart]
    · rw [takeBuffer_running h timer]
  · rw [takeBuffer_counted h]

/-- The code word of the other disparity is a code violation. -/
theorem groupSymbol_wrong {rd expected : Disparity} (h : rd ≠ expected) (align : Fin 10) (x : LineSymbol) (b : Balance) :
    groupSymbol expected ⟨align, .word x rd, b⟩ = none :=
  if_neg h

/-- A group is read as the symbol of its code word or as a violation. -/
theorem groupSymbol_word_ne {x y : LineSymbol} (h : x ≠ y) (expected rd : Disparity) (align : Fin 10) (b : Balance) :
    groupSymbol expected ⟨align, .word x rd, b⟩ ≠ some y := by
  rw [groupSymbol_word]
  split
  · exact fun hx => h (Option.some.inj hx)
  · exact fun hx => by cases hx

theorem startDelimiterAsksForABuffer : Clause.StartDelimiterAsksForABuffer := by
  intro s align rd b hr hn g read
  have hearing : read → s.hearGroup g
      = ({ s with li := { heardLI s.li g with sync := .inStep, violRun := 0 } }).beginFrame := fun ⟨hs, ha, hd⟩ =>
    hearGroup_startDelim hr hs ha (if_pos hd) hn
  have turned : read → (heardLI s.li g).disparity = disparityAfter rd g := fun ⟨_, _, hd⟩ => by simp [hd]
  have alone := hearGroup_lineOnly (g := g) hr (groupSymbol_word_ne (by decide) _ _ _ _)
  refine ⟨s.hearGroup g, rfl, alone.2, ?_, ?_, fun hread free => ?_, fun hread empty => ?_, alone.1⟩
  · rintro (hunt | other)
    · rw [hearGroup_hunt hr hunt]
      rfl
    · by_cases hunt : s.li.sync = .hunt
      · rw [hearGroup_hunt hr hunt]
        rfl
      · rw [hearGroup_misaligned hr hunt other]
  · intro check ha hd
    rw [hearGroup_check hr check ha, groupSymbol_wrong hd, heardLI_eq, groupSymbol_wrong hd]
    rfl
  · rw [hearing hread, beginFrame_buffer (by exact free)]
    refine ⟨by simp, by simp, by simp, by simpa using turned hread, by simp, by simp, fun h6 => ?_⟩
    rw [takeBuffer_counted (by exact h6)]
    exact ⟨rfl, rfl, rfl⟩
  · rw [hearing hread, beginFrame_empty (by exact empty)]
    exact ⟨rfl, rfl, by simpa using hn, turned hread, rfl, rfl, rfl⟩

/-! ### Commas (R41, R43) -/

theorem commaResynchronisesOrDiscards : Clause.CommaResynchronisesOrDiscards := by
  intro s align rd b hr g
  have alone := hearGroup_lineOnly (g := g) hr (groupSymbol_word_ne (by decide) _ _ _ _)
  refine ⟨s.hearGroup g, rfl, fun hunt => hearGroup_hunt hr hunt g, fun other ha => hearGroup_misaligned hr other ha,
    fun check ha => ?_, fun step ha hd => ?_, alone.1⟩
  · by_cases hd : rd = s.li.disparity
    · have word : groupSymbol s.li.disparity g = some .comma := if_pos hd
      have stays : (s.li.countSymbol false).sync = .check := by simpa using check
      rw [hearGroup_check hr check ha, word, heardLI_eq, word, if_pos hd, decide_eq_false (not_not_intro hd), ← stays]
      rfl
    · rw [hearGroup_check hr check ha, heardLI_eq, groupSymbol_wrong hd, if_neg hd, decide_eq_true hd]
      rfl
  · have word : groupSymbol s.li.disparity g = some .comma := if_pos hd
    have given : s.hearGroup g = ({ s with li := { heardLI s.li g with violRun := 0 } }).abandon := by
      rw [hearGroup_inStep hr step ha, word]
      rfl
    rw [given]
    simp [LI.buffers, step]

/-- Settles O18. -/
theorem delimitersAndCommas : Obligations.DelimitersAndCommas :=
  ⟨startDelimiterAsksForABuffer, commaResynchronisesOrDiscards⟩

/-! ### The checks of a frame (R44) -/

/-- The checks of an undamaged frame. -/
theorem fault_undamaged (l : List Byte) : (Assembly.mk l false).fault = if l.length < 9 then some .undersize
    else if (crc16 (l.take (l.length - 2))).toNat ≠ wordAt l (l.length - 2) then some .crc
    else if 48 < byteAt l 6 ∨ byteAt l 6 ≠ l.length - 9 then some .length else none :=
  rfl

/-- Settles O19: the checks are tried one after the other. -/
theorem frameCheckOrder : Obligations.FrameCheckOrder := by
  intro l damaged cause n
  refine ⟨fun hd => if_pos hd, fun hd short => ?_, fun hd long crc => ?_, fun hd long crc wrong => ?_, fun hd long crc fits exact => ?_⟩
  all_goals
    subst hd
    refine (fault_undamaged l).trans ?_
  · exact if_pos short
  · rw [if_neg (Nat.not_lt.mpr long), if_pos crc]
  · rw [if_neg (Nat.not_lt.mpr long), if_neg (not_not_intro crc), if_pos (by omega)]
  · rw [if_neg (Nat.not_lt.mpr long), if_neg (not_not_intro crc), if_neg (by omega)]

/-! ### Access to the line (R53, R54) -/

/-- At the step of its rank the station sends the frame it contends with (R53, R54). -/
theorem startSending_rank {s : State} {c : Candidate} {f : TxFrame} {rest : List TxFrame} (hr : s.receives = true)
    (round : s.li.access = .round (some c)) (queued : takeFirst (fun f : TxFrame => f.age == c.age) s.fs.queue = some (f, rest)) :
    s.startSending c.rank = s.sendFrame f rest := by
  unfold State.startSending
  rw [round, hr]
  dsimp only
  rw [if_pos rfl, queued]

theorem idlePointsStartARound : Clause.IdlePointsStartARound := by
  intro s round
  refine ⟨fun f first => ?_, fun none => ?_, fun sending => ?_, fun c hr hround => ?_, fun hr unaligned => ?_⟩
  · unfold State.candidate
    rw [first]
    rfl
  · unfold State.candidate
    rw [none]
    rfl
  · obtain ⟨burst, hburst⟩ := Option.isSome_iff_exists.mp sending
    change execTransmissionEnd s = _
    unfold execTransmissionEnd
    rw [hburst]
    rfl
  · change execAccessRoundTimeout s = _
    unfold execAccessRoundTimeout
    rw [hround, hr]
    rfl
  · change execFirstIdlePoint s = _
    unfold execFirstIdlePoint
    rw [unaligned, hr]
    rfl

/-- Settles O22. -/
theorem lineAccessRounds : Obligations.LineAccessRounds :=
  ⟨fun s c _ _ hr round queued => ⟨congrArg Host.Outcome.next (startSending_rank hr round queued),
    fun step other => congrArg Host.Outcome.next (startSending_other_step s c step round other)⟩, idlePointsStartARound⟩

end Sys2Proof.Proofs
end

