-- ==== Sys2Proof/Proofs/Reception.lean ====
section
/-! PROOF. Frames as they are received (O20), oversize frames, violations in a row and the line-quality window (O21): what groups that
read as given symbols do, one after the other, and where the frame goes at its end delimiter (R40 to R46, R49, R65). -/

namespace Sys2Proof.Proofs
open Sys2Proof.Machine Sys2Proof.Laws

/-! ### Groups one after the other (R40, R41) -/

theorem readsAs_nil {li : LI} {groups : List LineGroup} (h : readsAs li groups []) : groups = [] := by
  obtain ⟨-, h⟩ := h
  cases groups with
  | nil => rfl
  | cons g gs => cases h

/-- The first group reads as the first symbol, and the others from the disparity that it leaves. -/
theorem readsAs_cons {li : LI} {groups : List LineGroup} {x : Option LineSymbol} {xs : List (Option LineSymbol)}
    (h : readsAs li groups (x :: xs)) : ∃ g gs, groups = g :: gs ∧ g.align = li.align ∧ groupSymbol li.disparity g = x
      ∧ readsAs (heardLI li g) gs xs := by
  obtain ⟨aligned, h⟩ := h
  cases groups with
  | nil => cases h
  | cons g gs =>
    obtain ⟨hx, hxs⟩ := List.cons.inj h
    refine ⟨g, gs, rfl, aligned g List.mem_cons_self, hx, fun g' hg' => ?_, ?_⟩
    · simpa using aligned g' (List.mem_cons_of_mem g hg')
    · simpa using hxs

/-- How groups are read depends on alignment and running disparity alone. -/
theorem readsAs_sameLine {a b : LI} (h : SameLine a b) {groups : List LineGroup} {l : List (Option LineSymbol)} (hl : readsAs a groups l) :
    readsAs b groups l := by
  rw [h]
  exact hl

/-- What a station in step reads does not change whether it receives. -/
theorem inStep_receives (s : State) (x : Option LineSymbol) : (s.inStep x).receives = s.receives := by
  have sending : (s.inStep x).li.sending = s.li.sending := by rw [inStep_sameLine s x]
  simp [State.receives, sending]

/-- A station in step takes the first group of those it hears as the symbol that it reads. -/
theorem hear_cons {s : State} {groups : List LineGroup} {x : Option LineSymbol} {xs : List (Option LineSymbol)}
    (hr : s.receives = true) (hs : s.li.sync = .inStep) (h : readsAs s.li groups (x :: xs)) :
    ∃ g gs, groupSymbol s.li.disparity g = x ∧ s.hear groups = (({ s with li := heardLI s.li g }).inStep x).hear gs
      ∧ readsAs (({ s with li := heardLI s.li g }).inStep x).li gs xs := by
  obtain ⟨g, gs, rfl, aligned, symbol, rest⟩ := readsAs_cons h
  refine ⟨g, gs, symbol, ?_, readsAs_sameLine (inStep_sameLine { s with li := heardLI s.li g } x) rest⟩
  rw [← symbol, ← hearGroup_inStep hr hs aligned]
  rfl

/-- LI `b` is still in step as LI `a` was, with no more violations in a row. -/
def StaysInStep (a b : LI) : Prop :=
  b.sync = .inStep ∧ b.sending = a.sending ∧ b.violRun ≤ a.violRun

theorem StaysInStep.receives {s : State} {li : LI} (h : StaysInStep s.li li) (hr : s.receives = true) :
    ({ s with li := li } : State).receives = true := by
  unfold State.receives at hr ⊢
  rw [← h.2.1] at hr
  exact hr

/-- Data symbols add their bytes to the frame in assembly (R43). -/
theorem hear_bytes {l : List Byte} {s : State} {groups : List LineGroup} {ys : List (Option LineSymbol)} {held : List Byte} {damaged : Bool}
    (hr : s.receives = true) (hs : s.li.sync = .inStep) (ha : s.li.asm = some ⟨held, damaged⟩) (room : held.length + l.length ≤ 57)
    (h : readsAs s.li groups (l.map (fun b => some (.data b)) ++ ys)) :
    ∃ li gs, s.hear groups = ({ s with li := li }).hear gs ∧ readsAs li gs ys ∧ li.asm = some ⟨held ++ l, damaged⟩
      ∧ StaysInStep s.li li := by
  induction l generalizing s groups held with
  | nil => exact ⟨s.li, groups, rfl, h, by simpa using ha, hs, rfl, Nat.le_refl _⟩
  | cons b l ih =>
    obtain ⟨g, gs, -, heard, rest⟩ := hear_cons hr hs h
    have added : ({ s with li := heardLI s.li g }).inStep (some (.data b)) = { s with
        li := { heardLI s.li g with violRun := 0, asm := some ⟨held ++ [b], damaged⟩ } } :=
      addByte_room (a := ⟨held, damaged⟩) (s := { s with li := { heardLI s.li g with violRun := 0 } }) (by simpa using ha)
        (by simp only [List.length_cons] at room; dsimp only; omega) b
    rw [added] at heard rest
    have stays : StaysInStep s.li { heardLI s.li g with violRun := 0, asm := some ⟨held ++ [b], damaged⟩ } :=
      ⟨by simpa using hs, by simp, Nat.zero_le _⟩
    obtain ⟨li, gs', heard', rest', hasm, hsync, hsending, hviol⟩ :=
      ih (stays.receives hr) stays.1 rfl (by simp only [List.length_append, List.length_cons, List.length_nil] at room ⊢; omega) rest
    exact ⟨li, gs', heard.trans heard', rest', by simpa using hasm, hsync, hsending.trans stays.2.1, hviol.trans stays.2.2⟩

/-- A violation that is at most the second in a row marks the frame in assembly damaged (R41, R43). -/
theorem hear_violation {s : State} {groups : List LineGroup} {ys : List (Option LineSymbol)} (hr : s.receives = true)
    (hs : s.li.sync = .inStep) (hv : s.li.violRun ≤ 1) (h : readsAs s.li groups (none :: ys)) :
    ∃ li gs, s.hear groups = ({ s with li := li }).hear gs ∧ readsAs li gs ys
      ∧ li.asm = s.li.asm.map (fun a => { a with damaged := true }) ∧ li.sync = .inStep ∧ li.sending = s.li.sending
      ∧ li.violRun = s.li.violRun + 1 := by
  obtain ⟨g, gs, -, heard, rest⟩ := hear_cons hr hs h
  have marked := violate_earlier (s := { s with li := heardLI s.li g }) (by simpa using hv)
  rw [State.inStep, marked] at heard rest
  exact ⟨_, gs, heard, rest, by simp, by simpa using hs, by simp, by simp⟩

/-- The end delimiter ends the frame (R43). -/
theorem hear_end {s : State} {groups : List LineGroup} (hr : s.receives = true) (hs : s.li.sync = .inStep)
    (h : readsAs s.li groups [some .endDelim]) :
    ∃ li, s.hear groups = ({ s with li := li }).endFrame ∧ li.asm = s.li.asm ∧ li.sync = .inStep ∧ li.violRun = 0 := by
  obtain ⟨g, gs, -, heard, rest⟩ := hear_cons hr hs h
  rw [readsAs_nil rest] at heard
  exact ⟨{ heardLI s.li g with violRun := 0 }, heard, by simp, by simpa using hs, rfl⟩

/-! ### At the end delimiter (R44 to R46) -/

theorem endFrame_faulty {s : State} {a : Assembly} {d : Discard} (ha : s.li.asm = some a) (hd : a.fault = some d) :
    s.endFrame = s.discard d := by
  unfold State.endFrame
  rw [ha]
  dsimp only
  rw [hd]

theorem endFrame_sound {s : State} {a : Assembly} (ha : s.li.asm = some a) (hd : a.fault = none) : s.endFrame = s.examine a.bytes := by
  unfold State.endFrame
  rw [ha]
  dsimp only
  rw [hd]

/-- A frame of the node's own source goes to PT (R45). -/
theorem examine_own {s : State} {l : List Byte} (h : frameSource l = s.pt.node) : s.examine l = { s with
    li := { s.li with asm := none }
    fs := { s.fs with ownFrames := s.fs.ownFrames ++ [⟨s.time, s.pt.node, frameEpoch l, .own, frameEpoch l == s.pt.epoch⟩] } } := by
  have record : s.rxRecord (frameSource l) (frameEpoch l)
      = ⟨s.time, s.pt.node, frameEpoch l, .own, frameEpoch l == s.pt.epoch⟩ := by rw [h]; exact if_pos rfl
  refine (if_pos h).trans ?_
  rw [record]

/-- A frame for another destination is dropped (R45). -/
theorem examine_other {s : State} {l : List Byte} (h : frameSource l ≠ s.pt.node) (hd : frameDest l ≠ s.pt.node) (hb : frameDest l ≠ 63) :
    s.examine l = ({ s with li := { s.li with asm := none } }).giveBuffer :=
  (if_neg h).trans (if_pos ⟨hd, hb⟩)

/-- A frame for the node is discarded where its kind is unknown or its payload too short, and accepted otherwise (R45). -/
theorem examine_addressed {s : State} {l : List Byte} (h : frameSource l ≠ s.pt.node) (hd : frameDest l = s.pt.node ∨ frameDest l = 63) :
    s.examine l = match Kind.ofCode (byteAt l 0) with
      | none => s.discard .unknownKind
      | some k => if (framePayload l).length < k.minPayload (framePayload l) then s.discard .length else s.accept l k :=
  (if_neg h).trans (if_neg fun hn => hd.elim hn.1 hn.2)

/-! ### The receive record and the epoch of the sender (R46, R65) -/

theorem peer?_other {s : State} {k : Nat} (h : k ≠ s.pt.node) : s.peer? k = s.pt.peers[k]? :=
  if_neg h

/-- The receive record of a frame from a node with a peer record. -/
theorem rxRecord_known {s : State} {k : Nat} {p : PeerRec} (h : k ≠ s.pt.node) (hp : s.peer? k = some p) (e : Epoch) :
    s.rxRecord k e = ⟨s.time, k, e, .other p.state p.notHearing, decide (p.state ≠ .unknown ∧ p.epoch = some e)⟩ := by
  have test : (p.state != .unknown && p.epoch == some e) = decide (p.state ≠ .unknown ∧ p.epoch = some e) := by
    rw [Bool.decide_and]
    congr 1
    · by_cases hu : p.state = .unknown <;> simp [hu]
    · by_cases he : p.epoch = some e <;> simp [he]
  unfold State.rxRecord
  rw [if_neg h, (peer?_other h).symm.trans hp]
  dsimp only
  rw [test]

/-- The receive record of a frame from a node without one. -/
theorem rxRecord_unknown {s : State} {k : Nat} (h : k ≠ s.pt.node) (hp : s.peer? k = none) (e : Epoch) :
    s.rxRecord k e = ⟨s.time, k, e, .other .unknown false, false⟩ := by
  unfold State.rxRecord
  rw [if_neg h, (peer?_other h).symm.trans hp]

theorem noteEpoch_none {s : State} {k : Nat} (h : s.peer? k = none) (e : Epoch) : s.noteEpoch k e = s := by
  unfold State.noteEpoch
  rw [h]

/-- A peer in UNKNOWN, or under the epoch that its record holds, changes nothing (R65). -/
theorem noteEpoch_same {s : State} {k : Nat} {p : PeerRec} {e : Epoch} (h : s.peer? k = some p) (hp : p.state = .unknown ∨ p.epoch = some e) :
    s.noteEpoch k e = s := by
  unfold State.noteEpoch
  rw [h]
  dsimp only
  split
  · rfl
  · rename_i old held unknown
    rcases hp with hp | hp
    · exact absurd hp unknown
    · exact if_pos (Option.some.inj (held.symm.trans hp))
  · rfl

/-- Another epoch restarts the record, with a notice to CT, RE and YU (R65). -/
theorem noteEpoch_changed {s : State} {k : Nat} {p : PeerRec} {e old : Epoch} (h : s.peer? k = some p) (hu : p.state ≠ .unknown)
    (held : p.epoch = some old) (hne : old ≠ e) :
    s.noteEpoch k e = (s.modPeer k (fun p => p.restarted e)).givePeerNotice (.epochChange k old e) := by
  unfold State.noteEpoch
  rw [h]
  dsimp only
  rw [held]
  split
  · rename_i hp
    exact absurd hp hu
  · rename_i same _
    cases same
    exact if_neg hne
  · rename_i same _
    cases same

/-- The epoch of a sender is noted in PT and in the notices of CT, RE and YU, whatever LI, FS and the counters hold. -/
theorem noteEpoch_lineOnly (s : State) (li : LI) (fs : FS) (cnt : Counters) (k : Nat) (e : Epoch) :
    ({ s with li := li, fs := fs, cnt := cnt }).noteEpoch k e = { s with
      li := li, fs := fs, cnt := cnt, pt := (s.noteEpoch k e).pt, ct := (s.noteEpoch k e).ct, re := (s.noteEpoch k e).re
      yu := (s.noteEpoch k e).yu } := by
  have same : ({ s with li := li, fs := fs, cnt := cnt } : State).peer? k = s.peer? k := rfl
  unfold State.noteEpoch
  rw [same]
  cases s.peer? k with
  | none => rfl
  | some p =>
    dsimp only
    split
    · rfl
    · split <;> rfl
    · rfl

/-! ### Frames that are accepted (R45, R46, R49) -/

/-- An accepted frame joins its inbox with its receive record, a wrong level is counted, and the sender's epoch is noted. -/
theorem accept_eq (s : State) (l : List Byte) (k : Kind) : s.accept l k = { s with
    li := { s.li with asm := none }
    fs := { s.fs with
      active := if s.fs.inbox.any (fun g => g.kind == k) then s.fs.active else s.fs.active ++ [k]
      inbox := s.fs.inbox ++ [⟨k, s.rxRecord (frameSource l) (frameEpoch l), framePayload l⟩] }
    cnt := if frameLevel l = k.level then s.cnt else { s.cnt with levelMismatch := bump s.cnt.levelMismatch }
    pt := (s.noteEpoch (frameSource l) (frameEpoch l)).pt, ct := (s.noteEpoch (frameSource l) (frameEpoch l)).ct
    re := (s.noteEpoch (frameSource l) (frameEpoch l)).re, yu := (s.noteEpoch (frameSource l) (frameEpoch l)).yu } := by
  rw [← noteEpoch_lineOnly]
  unfold State.accept
  by_cases level : frameLevel l = k.level
  · simp only [if_pos level]
    rfl
  · simp only [if_neg level]
    rfl

/-! ### FRAME_RECEIVED (R43 to R46) -/

/-- The groups of a whole frame: its bytes are assembled, and its end delimiter ends it. -/
theorem hear_whole {s : State} {l : List Byte} {groups : List LineGroup} (hr : s.receives = true) (hs : s.li.sync = .inStep)
    (ha : s.li.asm = some ⟨[], false⟩) (room : l.length ≤ 57)
    (h : readsAs s.li groups (l.map (fun b => some (.data b)) ++ [some .endDelim])) :
    ∃ li, s.hear groups = ({ s with li := li }).endFrame ∧ li.asm = some ⟨l, false⟩ ∧ li.sync = .inStep ∧ li.violRun = 0 := by
  obtain ⟨li, gs, heard, rest, hasm, stays⟩ := hear_bytes hr hs ha (by simpa using room) h
  obtain ⟨li', ended, hasm', hsync, hviol⟩ := hear_end (stays.receives hr) stays.1 rest
  exact ⟨li', heard.trans ended, hasm'.trans hasm, hsync, hviol⟩

/-- What the peer records become when a sender's epoch changes (R65). -/
theorem noteEpoch_changed_blocks {s : State} {k : Nat} {p : PeerRec} {e old : Epoch} (hp : s.peer? k = some p) (hu : p.state ≠ .unknown)
    (held : p.epoch = some old) (hne : old ≠ e) :
    (s.noteEpoch k e).pt = { s.pt with peers := s.pt.peers.set k (p.restarted e) }
      ∧ (s.noteEpoch k e).ct = { s.ct with peerNotices := s.ct.peerNotices ++ [.epochChange k old e] }
      ∧ (s.noteEpoch k e).re = { s.re with peerNotices := s.re.peerNotices ++ [.epochChange k old e] }
      ∧ (s.noteEpoch k e).yu = { s.yu with peerNotices := s.yu.peerNotices ++ [.epochChange k old e] } := by
  have there : s.pt.peers[k]? = some p := by
    unfold State.peer? at hp
    split at hp
    · cases hp
    · exact hp
  have record : s.pt.peers.modify k (fun p => p.restarted e) = s.pt.peers.set k (p.restarted e) := by
    rw [List.modify_eq_set_getElem?, there]
    rfl
  rw [noteEpoch_changed hp hu held hne]
  exact ⟨congrArg (fun l => { s.pt with peers := l }) record, rfl, rfl, rfl⟩

theorem wholeFramesAreFiled : Clause.WholeFramesAreFiled := by
  intro s l groups hr hs ha room reads
  obtain ⟨li, heard, hasm, hsync, hviol⟩ := hear_whole hr hs ha room reads
  refine ⟨({ s with li := li }).endFrame, congrArg Host.Outcome.next heard, by simp, by simpa using hsync, by simpa using hviol,
    fun d hd => ?_, fun sound own => ?_, fun sound source hd hb => ?_, fun sound source hd => ⟨fun unknown => ?_, fun k hk short => ?_,
    fun k hk long => ?_⟩⟩
  · rw [endFrame_faulty hasm hd]
    exact ⟨rfl, rfl⟩
  · rw [endFrame_sound hasm sound, examine_own (by exact own)]
    exact ⟨rfl, rfl⟩
  · rw [endFrame_sound hasm sound, examine_other (by exact source) (by exact hd) hb]
    exact ⟨rfl, rfl⟩
  · rw [endFrame_sound hasm sound, examine_addressed (by exact source) (by exact hd), unknown]
    exact ⟨rfl, rfl⟩
  · rw [endFrame_sound hasm sound, examine_addressed (by exact source) (by exact hd), hk]
    dsimp only
    rw [if_pos short]
    exact ⟨rfl, rfl⟩
  · rw [endFrame_sound hasm sound, examine_addressed (by exact source) (by exact hd), hk]
    dsimp only
    rw [if_neg (Nat.not_lt.mpr long), accept_eq]
    have noted := noteEpoch_lineOnly s li s.fs s.cnt (frameSource l) (frameEpoch l)
    rw [noted]
    refine ⟨fun p hp => ?_, fun hp => ?_, rfl, rfl, rfl, rfl, fun hp => noteEpoch_none hp _, fun p hp same => noteEpoch_same hp same,
      fun p old hp hu held hne => ?_⟩
    · exact congrArg (fun r => s.fs.inbox ++ [RxFrame.mk k r (framePayload l)]) (rxRecord_known (s := { s with li := li }) source hp _)
    · exact congrArg (fun r => s.fs.inbox ++ [RxFrame.mk k r (framePayload l)]) (rxRecord_unknown (s := { s with li := li }) source hp _)
    · obtain ⟨hpt, hct, hre, hyu⟩ := noteEpoch_changed_blocks hp hu held hne
      exact ⟨congrArg PT.peers hpt, hpt.trans (by rw [hpt]), hct, hre, hyu⟩

/-- A frame that is marked damaged is discarded with cause CODE at its end delimiter (R43, R44). -/
theorem endFrame_damaged {s : State} {held : List Byte} (h : s.li.asm = some ⟨held, true⟩) : s.endFrame = s.discard .code :=
  endFrame_faulty h rfl

theorem damagedFramesAreDiscarded : Clause.DamagedFramesAreDiscarded := by
  intro s held before rest damaged violations groups hr hs ha room cause reads
  rw [List.append_assoc, List.append_assoc] at reads
  obtain ⟨li₁, gs₁, heard₁, reads₁, hasm₁, stays₁⟩ := hear_bytes hr hs ha (by omega) reads
  have marked : ∃ li gs, s.hear groups = ({ s with li := li }).hear gs
      ∧ readsAs li gs (rest.map (fun b => some (.data b)) ++ [some .endDelim])
      ∧ li.asm = some ⟨held ++ before, true⟩ ∧ li.sync = .inStep ∧ ({ s with li := li } : State).receives = true := by
    rcases cause with ⟨rfl, rfl⟩ | ⟨rfl, hv⟩
    · exact ⟨li₁, gs₁, heard₁, reads₁, hasm₁, stays₁.1, stays₁.receives hr⟩
    · obtain ⟨li₂, gs₂, heard₂, reads₂, hasm₂, hsync₂, hsending₂, -⟩ :=
        hear_violation (stays₁.receives hr) stays₁.1 (stays₁.2.2.trans hv) reads₁
      refine ⟨li₂, gs₂, heard₁.trans heard₂, reads₂, by simp [hasm₂, hasm₁], hsync₂, ?_⟩
      have receives := stays₁.receives hr
      unfold State.receives at receives ⊢
      rw [hsending₂]
      exact receives
  obtain ⟨li₂, gs₂, heard₂, reads₂, hasm₂, hsync₂, receives₂⟩ := marked
  obtain ⟨li₃, gs₃, heard₃, reads₃, hasm₃, stays₃⟩ :=
    hear_bytes receives₂ hsync₂ hasm₂ (by simp only [List.length_append]; omega) reads₂
  obtain ⟨li₄, heard₄, hasm₄, hsync₄, hviol₄⟩ := hear_end (stays₃.receives receives₂) stays₃.1 reads₃
  refine ⟨_, congrArg Host.Outcome.next (heard₂.trans (heard₃.trans heard₄)), ?_⟩
  rw [endFrame_damaged (hasm₄.trans hasm₃)]
  exact ⟨rfl, hsync₄, hviol₄, rfl, rfl, rfl⟩

/-- Settles O20. -/
theorem frameReceivedIsCheckedAndFiled : Obligations.FrameReceivedIsCheckedAndFiled :=
  ⟨wholeFramesAreFiled, damagedFramesAreDiscarded⟩

/-! ### Oversize frames and loss of synchronisation (R41, R43) -/

/-- The data symbols that bring an undamaged frame to its 58th byte discard it (R43). -/
theorem hear_oversize {l : List Byte} {s : State} {groups : List LineGroup} {held : List Byte} (hr : s.receives = true)
    (hs : s.li.sync = .inStep) (ha : s.li.asm = some ⟨held, false⟩) (short : held.length < 58) (full : held.length + l.length = 58)
    (h : readsAs s.li groups (l.map (fun b => some (.data b)))) : ∃ li, s.hear groups = ({ s with li := li }).discard .oversize := by
  obtain ⟨front, last, rfl⟩ : ∃ front last, l = front ++ [last] := by
    refine (List.eq_nil_or_concat l).elim (fun hl => ?_) fun ⟨front, last, hl⟩ => ⟨front, last, by simpa using hl⟩
    rw [hl, List.length_nil] at full
    omega
  rw [List.map_append] at h
  rw [List.length_append, List.length_singleton] at full
  obtain ⟨li, gs, heard, rest, hasm, stays⟩ := hear_bytes hr hs ha (by omega) h
  obtain ⟨g, gs', -, heard', rest'⟩ := hear_cons (stays.receives hr) stays.1 rest
  rw [readsAs_nil rest'] at heard'
  refine ⟨{ heardLI li g with violRun := 0 }, heard.trans (heard'.trans ?_)⟩
  exact addByte_full (a := ⟨held ++ front, false⟩) (s := { s with li := { heardLI li g with violRun := 0 } }) (by simpa using hasm)
    (by simp only [List.length_append]; omega) last

/-- Violations up to the third in a row lose synchronisation, and a frame in assembly is given up (R41, R43). -/
theorem hear_loss {n : Nat} {s : State} {groups : List LineGroup} (hr : s.receives = true) (hs : s.li.sync = .inStep)
    (hv : s.li.violRun ≤ 2) (hn : s.li.violRun + n = 3) (h : readsAs s.li groups (List.replicate n none)) :
    ∃ li, s.hear groups = ({ s with li := li }).abandon ∧ li.sync = .hunt ∧ li.violRun = 0
      ∧ li.asm.isSome = s.li.asm.isSome := by
  induction n generalizing s groups with
  | zero => omega
  | succ n ih =>
    rcases Nat.lt_or_ge s.li.violRun 2 with more | third
    · obtain ⟨li, gs, heard, rest, hasm, hsync, hsending, hviol⟩ := hear_violation hr hs (by omega) h
      have receives : ({ s with li := li } : State).receives = true := by
        unfold State.receives at hr ⊢
        rw [← hsending] at hr
        exact hr
      obtain ⟨li', heard', hunt, run, asm⟩ := ih receives hsync (by dsimp only; omega) (by dsimp only; omega) rest
      exact ⟨li', heard.trans heard', hunt, run, asm.trans (by simp [hasm])⟩
    · obtain rfl : n = 0 := by omega
      obtain ⟨g, gs, -, heard, rest⟩ := hear_cons hr hs h
      rw [readsAs_nil rest] at heard
      have lost := violate_third (s := { s with li := heardLI s.li g }) (by simpa using third)
      exact ⟨{ heardLI s.li g with sync := .hunt, violRun := 0 }, heard.trans lost, rfl, rfl, by simp⟩

theorem oversizeAndLossOfSync : Clause.OversizeAndLossOfSync := by
  refine ⟨fun s a l groups hr hs ha undamaged short full reads => ?_, fun s hr => ?_, fun s groups hr hs hv reads => ?_⟩
  · obtain ⟨held, damaged⟩ := a
    subst undamaged
    obtain ⟨li, heard⟩ := hear_oversize hr hs ha short full reads
    exact ⟨_, congrArg Host.Outcome.next heard, rfl, rfl, rfl, rfl⟩
  · have quiet : exec (.lossOfSync [] true) s = .next s.lineQuiet := rfl
    refine ⟨s.lineQuiet, quiet, ?_⟩
    unfold State.lineQuiet
    rw [if_pos hr]
    dsimp only
    split
    · simp [State.idlePoint, State.candidate, LI.buffers]
    · rename_i waiting
      refine ⟨by simp, by simp, by simp, by simp [LI.buffers], by simp, fun h => absurd ?_ waiting⟩
      simpa using h
  · obtain ⟨li, heard, hunt, run, asm⟩ := hear_loss hr hs hv (by omega) reads
    refine ⟨_, congrArg Host.Outcome.next heard, ?_⟩
    simp [hunt, run, asm, LI.buffers]

/-! ### The line-quality window (R42) -/

/-- Data symbols between frames are counted, and the 1024th closes the window. -/
theorem hear_window {l : List Byte} {s : State} {groups : List LineGroup} (hr : s.receives = true) (hs : s.li.sync = .inStep)
    (ha : s.li.asm = none) (open_ : s.li.symCount < 1024) (full : s.li.symCount + l.length = 1024)
    (h : readsAs s.li groups (l.map (fun b => some (.data b)))) :
    ∃ li, s.hear groups = { s with li := li } ∧ li.symCount = 0 ∧ li.violCount = 0 ∧ li.linePoor = decide (64 ≤ s.li.violCount) := by
  induction l generalizing s groups with
  | nil => simp only [List.length_nil] at full; omega
  | cons b l ih =>
    obtain ⟨g, gs, symbol, heard, rest⟩ := hear_cons hr hs h
    have ignored : ({ s with li := heardLI s.li g }).inStep (some (.data b)) = { s with li := { heardLI s.li g with violRun := 0 } } :=
      addByte_none (s := { s with li := { heardLI s.li g with violRun := 0 } }) (by simpa using ha) b
    rw [ignored] at heard rest
    rw [List.length_cons] at full
    rcases Nat.lt_or_ge s.li.symCount 1023 with more | last
    · have counts : heardLI s.li g = { s.li with
          symCount := s.li.symCount + 1, access := .waiting, disparity := disparityAfter s.li.disparity g } := by
        rw [heardLI_eq, symbol, countSymbol_counts more]
        rfl
      rw [counts] at heard rest
      obtain ⟨li, heard', closed⟩ :=
        ih (by exact hr) (by exact hs) (by exact ha) (by dsimp only; omega) (by dsimp only; omega) rest
      exact ⟨li, heard.trans heard', closed⟩
    · obtain rfl : l = [] := List.length_eq_zero_iff.mp (by omega)
      rw [readsAs_nil rest] at heard
      refine ⟨_, heard, ?_⟩
      rw [heardLI_eq, symbol, countSymbol_closes last]
      exact ⟨rfl, rfl, rfl⟩

theorem qualityWindowSetsLinePoor : Clause.QualityWindowSetsLinePoor := by
  refine ⟨fun s l groups hr hs ha open_ full reads => ?_, fun li violation =>
    ⟨fun h => countSymbol_closes (by omega) violation, fun h => countSymbol_counts h violation⟩⟩
  obtain ⟨li, heard, symbols, violations, poor⟩ := hear_window hr hs ha open_ full reads
  exact ⟨_, congrArg Host.Outcome.next heard, symbols, violations, poor, rfl⟩

/-- Settles O21. -/
theorem oversizeQualityAndLossOfSync : Obligations.OversizeQualityAndLossOfSync :=
  ⟨oversizeAndLossOfSync, qualityWindowSetsLinePoor⟩

end Sys2Proof.Proofs
end

