-- ==== Sys2Proof/Proofs/FrameBuffers.lean ====
section
/-! PROOF. What groups of the line do to the frame buffers: no operation of LI loses or doubles a buffer (R43, R47), and what holds of FS
through taking, returning and filing a buffer holds through every group (R41 to R45). -/

namespace Sys2Proof.Proofs
open Sys2Proof.Machine Sys2Proof.Laws

/-! ### Counting the buffers (R47) -/

/-- The buffers in the pool, in assembly, in an inbox and in handling by PT. -/
def bufferCount (s : State) : Nat :=
  s.fs.free + s.li.buffers + s.fs.inbox.length + s.fs.ownFrames.length

theorem discard_count {s : State} (h : s.li.asm.isSome = true) (d : Discard) : bufferCount (s.discard d) = bufferCount s := by
  simp only [bufferCount, State.discard, State.giveBuffer, State.count, LI.buffers, h, if_true, Option.isSome_none,
    Bool.false_eq_true, if_false]

@[simp] theorem abandon_count (s : State) : bufferCount s.abandon = bufferCount s := by
  simp [bufferCount, LI.buffers]

/-- A start delimiter moves a buffer from the pool to the assembly, or none. -/
theorem beginFrame_count {s : State} (h : s.li.asm = none) : bufferCount s.beginFrame = bufferCount s := by
  rcases Nat.eq_zero_or_pos s.fs.free with empty | buffer
  · rw [beginFrame_empty empty]
    rfl
  · rw [beginFrame_buffer buffer]
    simp only [bufferCount, LI.buffers, takeBuffer_free, takeBuffer_keeps, h, Option.isSome_some, Option.isSome_none, if_true,
      Bool.false_eq_true, if_false]
    omega

/-- A data symbol leaves the buffer in assembly, or returns it with the 58th byte. -/
@[simp] theorem addByte_count (s : State) (b : Byte) : bufferCount (s.addByte b) = bufferCount s := by
  cases ha : s.li.asm with
  | none => rw [addByte_none ha]
  | some a =>
    rcases Nat.lt_or_ge a.bytes.length 57 with room | full
    · rw [addByte_room ha room]
      simp [bufferCount, LI.buffers, ha]
    · rw [addByte_full ha full, discard_count (by rw [ha]; rfl)]

/-- A sound frame goes to PT, to an inbox or back to the pool. -/
theorem examine_count {s : State} (h : s.li.asm.isSome = true) (l : List Byte) : bufferCount (s.examine l) = bufferCount s := by
  by_cases own : frameSource l = s.pt.node
  · rw [examine_own own]
    simp only [bufferCount, LI.buffers, h, Option.isSome_none, if_true, Bool.false_eq_true, if_false, List.length_append,
      List.length_singleton]
    omega
  · by_cases addressed : frameDest l = s.pt.node ∨ frameDest l = 63
    · rw [examine_addressed own addressed]
      split
      · exact discard_count h _
      · split
        · exact discard_count h _
        · rw [accept_eq]
          simp only [bufferCount, LI.buffers, h, Option.isSome_none, if_true, Bool.false_eq_true, if_false, List.length_append,
            List.length_singleton]
          omega
    · rw [examine_other own (fun hd => addressed (Or.inl hd)) (fun hb => addressed (Or.inr hb))]
      simp only [bufferCount, State.giveBuffer, LI.buffers, h, Option.isSome_none, if_true, Bool.false_eq_true, if_false]

@[simp] theorem endFrame_count (s : State) : bufferCount s.endFrame = bufferCount s := by
  cases ha : s.li.asm with
  | none =>
    unfold State.endFrame
    rw [ha]
  | some a =>
    have held : s.li.asm.isSome = true := by rw [ha]; rfl
    cases hf : a.fault with
    | none => rw [endFrame_sound ha hf, examine_count held]
    | some d => rw [endFrame_faulty ha hf, discard_count held]

@[simp] theorem useSymbol_count (s : State) (x : LineSymbol) : bufferCount (s.useSymbol x) = bufferCount s := by
  cases x with
  | comma => exact abandon_count s
  | startDelim => exact (beginFrame_count (by simp)).trans (abandon_count s)
  | endDelim => exact endFrame_count s
  | data b => exact addByte_count s b

@[simp] theorem violate_count (s : State) : bufferCount s.violate = bufferCount s := by
  rcases Nat.lt_or_ge s.li.violRun 2 with earlier | third
  · rw [violate_earlier (by omega)]
    simp [bufferCount, LI.buffers]
  · rw [violate_third third, abandon_count]
    rfl

theorem inStep_count (s : State) (x : Option LineSymbol) : bufferCount (s.inStep x) = bufferCount s := by
  cases x with
  | none => exact violate_count s
  | some x => exact useSymbol_count _ x

theorem inCheck_count {s : State} (h : s.li.asm = none) (x : Option LineSymbol) : bufferCount (s.inCheck x) = bufferCount s := by
  unfold State.inCheck
  split
  · exact beginFrame_count h
  all_goals rfl

/-! ### A frame is in assembly only in step (R41, R43) -/

/-- A frame is in assembly only in IN_STEP. -/
def AssemblyInStep (li : LI) : Prop :=
  li.asm.isSome = true → li.sync = .inStep

theorem AssemblyInStep.of_none {li : LI} (h : li.asm = none) : AssemblyInStep li := fun ha => by
  rw [h] at ha
  cases ha

theorem beginFrame_sync (s : State) : s.beginFrame.li.sync = s.li.sync := by
  rcases Nat.eq_zero_or_pos s.fs.free with empty | buffer
  · rw [beginFrame_empty empty]
  · rw [beginFrame_buffer buffer]
    simp

theorem useSymbol_sync (s : State) (x : LineSymbol) : (s.useSymbol x).li.sync = s.li.sync := by
  cases x with
  | comma => simp [State.useSymbol]
  | startDelim => simp [State.useSymbol, beginFrame_sync]
  | endDelim => simp [State.useSymbol]
  | data b =>
    simp only [State.useSymbol, State.addByte]
    (repeat' split) <;> rfl

theorem inStep_assembly {s : State} (h : s.li.sync = .inStep) (x : Option LineSymbol) : AssemblyInStep (s.inStep x).li := by
  cases x with
  | none =>
    rcases Nat.lt_or_ge s.li.violRun 2 with earlier | third
    · rw [State.inStep, violate_earlier (by omega)]
      exact fun _ => h
    · rw [State.inStep, violate_third third]
      exact .of_none (by simp)
  | some x => exact fun _ => (useSymbol_sync _ x).trans h

theorem inCheck_assembly {s : State} (h : s.li.asm = none) (x : Option LineSymbol) : AssemblyInStep (s.inCheck x).li := by
  unfold State.inCheck
  split
  · exact fun _ => beginFrame_sync _
  all_goals exact .of_none h

/-! ### Groups keep the law of the buffers -/

/-- The law of the buffers for one group: none is lost or doubled, and a frame stays in assembly only in step. -/
theorem hearGroup_buffers {s : State} (g : LineGroup) (h : AssemblyInStep s.li) :
    bufferCount (s.hearGroup g) = bufferCount s ∧ AssemblyInStep (s.hearGroup g).li := by
  by_cases hr : s.receives = true
  · cases hs : s.li.sync with
    | hunt =>
      have none : s.li.asm = none := by
        cases ha : s.li.asm with
        | none => rfl
        | some a => exact absurd (hs.symm.trans (h (by rw [ha]; rfl))) (by decide)
      have kept : (({ s.li with access := .waiting } : LI).hunt g).asm = s.li.asm := by
        unfold LI.hunt
        split <;> rfl
      rw [hearGroup_hunt hr hs]
      exact ⟨by simp [bufferCount, LI.buffers, kept], .of_none (kept.trans none)⟩
    | check =>
      have none : (heardLI s.li g).asm = none := by
        simp only [heardLI_keeps]
        cases ha : s.li.asm with
        | none => rfl
        | some a => exact absurd (hs.symm.trans (h (by rw [ha]; rfl))) (by decide)
      by_cases ha : g.align = s.li.align
      · rw [hearGroup_check hr hs ha, inCheck_count none]
        exact ⟨by simp [bufferCount, LI.buffers], inCheck_assembly none _⟩
      · rw [hearGroup_misaligned hr (by rw [hs]; decide) ha]
        exact ⟨rfl, h⟩
    | inStep =>
      by_cases ha : g.align = s.li.align
      · rw [hearGroup_inStep hr hs ha, inStep_count]
        exact ⟨by simp [bufferCount, LI.buffers], inStep_assembly (by simpa using hs) _⟩
      · rw [hearGroup_misaligned hr (by rw [hs]; decide) ha]
        exact ⟨rfl, h⟩
  · have deaf : s.hearGroup g = s := if_neg hr
    rw [deaf]
    exact ⟨rfl, h⟩

theorem hear_pool {s : State} (groups : List LineGroup) (h : PoolInv s) : PoolInv (s.hear groups) := by
  refine forEach_preserves (P := PoolInv) (fun g _ u hu => ?_) h
  obtain ⟨count, handler, assembly⟩ := hu
  obtain ⟨count', assembly'⟩ := hearGroup_buffers g assembly
  exact ⟨count'.trans count, by simpa using handler, assembly'⟩

/-- A line that becomes quiet returns the buffer in assembly (R41). -/
theorem lineQuiet_pool {s : State} (h : PoolInv s) : PoolInv s.lineQuiet := by
  obtain ⟨count, handler, assembly⟩ := h
  have given : bufferCount ({ s with li := { s.li with sync := .hunt, violRun := 0 } }).abandon = 32 := (abandon_count _).trans count
  have none : ({ s with li := { s.li with sync := .hunt, violRun := 0 } }).abandon.li.asm = none := by simp
  unfold State.lineQuiet
  dsimp only
  split
  · split
    · exact ⟨given, by simpa using handler, AssemblyInStep.of_none none⟩
    · exact ⟨given, by simpa using handler, AssemblyInStep.of_none none⟩
  · exact ⟨count, handler, assembly⟩

/-! ### What groups do to FS -/

/-- What LI does with buffers keeps `P`: taking one, returning one, handing a frame to PT, filing one in an inbox. -/
structure LineKeeps (P : FS → Prop) : Prop where
  free : ∀ fs n, P fs → P { fs with free := n }
  lastStart : ∀ fs x, P fs → P { fs with lastStart := x }
  ownFrames : ∀ fs l, P fs → P { fs with ownFrames := l }
  take : ∀ s : State, P s.fs → P s.takeBuffer.fs
  file : ∀ (s : State) f, P s.fs → P (s.fileFrame f).fs

section
variable {P : FS → Prop} (hP : LineKeeps P)
include hP

theorem LineKeeps.abandon {s : State} (h : P s.fs) : P s.abandon.fs := by
  rw [abandon_fs]
  exact hP.free _ _ h

theorem LineKeeps.beginFrame {s : State} (h : P s.fs) : P s.beginFrame.fs := by
  rcases Nat.eq_zero_or_pos s.fs.free with empty | buffer
  · rw [beginFrame_empty empty]
    exact hP.lastStart _ _ h
  · rw [beginFrame_buffer buffer]
    exact hP.take _ (hP.lastStart _ _ h)

theorem LineKeeps.examine {s : State} (l : List Byte) (h : P s.fs) : P (s.examine l).fs := by
  by_cases own : frameSource l = s.pt.node
  · rw [examine_own own]
    exact hP.ownFrames _ _ h
  · by_cases addressed : frameDest l = s.pt.node ∨ frameDest l = 63
    · rw [examine_addressed own addressed]
      split
      · exact hP.free _ _ h
      · split
        · exact hP.free _ _ h
        · rw [accept_eq]
          exact hP.file s ⟨_, _, _⟩ h
    · rw [examine_other own (fun hd => addressed (Or.inl hd)) (fun hb => addressed (Or.inr hb))]
      exact hP.free _ _ h

theorem LineKeeps.useSymbol {s : State} (x : LineSymbol) (h : P s.fs) : P (s.useSymbol x).fs := by
  cases x with
  | comma => exact hP.abandon h
  | startDelim => exact hP.beginFrame (hP.abandon h)
  | endDelim =>
    rw [State.useSymbol, State.endFrame]
    split
    · split
      · exact hP.free _ _ h
      · exact hP.examine _ h
    · exact h
  | data b =>
    cases ha : s.li.asm with
    | none =>
      rw [State.useSymbol, addByte_none ha]
      exact h
    | some a =>
      rcases Nat.lt_or_ge a.bytes.length 57 with room | full
      · rw [State.useSymbol, addByte_room ha room]
        exact h
      · rw [State.useSymbol, addByte_full ha full]
        exact hP.free _ _ h

theorem LineKeeps.violate {s : State} (h : P s.fs) : P s.violate.fs := by
  rcases Nat.lt_or_ge s.li.violRun 2 with earlier | third
  · rw [violate_earlier (by omega)]
    exact h
  · rw [violate_third third]
    exact hP.abandon h

theorem LineKeeps.decode {s : State} (g : LineGroup) (h : P s.fs) : P (s.decode g).fs := by
  unfold State.decode
  split
  · exact h
  · split
    · unfold State.inCheck
      split
      · exact hP.beginFrame h
      all_goals exact h
    · exact h
  · split
    · unfold State.inStep
      split
      · exact hP.violate h
      · exact hP.useSymbol _ h
    · exact h

/-- What LI keeps with every buffer it keeps through all groups. -/
theorem LineKeeps.hear {s : State} (groups : List LineGroup) (h : P s.fs) : P (s.hear groups).fs := by
  refine forEach_preserves (P := fun s => P s.fs) (fun g _ u hu => ?_) h
  unfold State.hearGroup
  split
  · exact hP.decode g hu
  · exact hu

theorem LineKeeps.lineQuiet {s : State} (h : P s.fs) : P s.lineQuiet.fs := by
  unfold State.lineQuiet
  dsimp only
  split
  · split <;> exact hP.abandon h
  · exact h

end

/-- The active lists are true: they name each inbox that holds a frame exactly once, and no other (R49). -/
def ActiveLaw (fs : FS) : Prop :=
  fs.active.Nodup ∧ ∀ k, k ∈ fs.active ↔ ∃ f ∈ fs.inbox, f.kind = k

theorem activeInv_iff (s : State) : ActiveInv s ↔ ActiveLaw s.fs := Iff.rfl

/-- A frame that is filed brings its inbox into the active list, where it was empty (R49). -/
theorem fileFrame_active {s : State} (f : RxFrame) (h : ActiveLaw s.fs) : ActiveLaw (s.fileFrame f).fs := by
  obtain ⟨nodup, named⟩ := h
  have waits : s.fs.inbox.any (fun g => g.kind == f.kind) = true ↔ f.kind ∈ s.fs.active := by simp [named]
  by_cases there : f.kind ∈ s.fs.active
  · have same : (s.fileFrame f).fs = { s.fs with active := s.fs.active, inbox := s.fs.inbox ++ [f] } := by
      unfold State.fileFrame
      rw [if_pos (waits.mpr there)]
    rw [same]
    refine ⟨nodup, fun k => ?_⟩
    simp only [List.mem_append, List.mem_singleton, named]
    constructor
    · rintro ⟨g, hg, rfl⟩
      exact ⟨g, Or.inl hg, rfl⟩
    · rintro ⟨g, hg | rfl, rfl⟩
      · exact ⟨g, hg, rfl⟩
      · exact (named _).mp there
  · have joined : (s.fileFrame f).fs = { s.fs with active := s.fs.active ++ [f.kind], inbox := s.fs.inbox ++ [f] } := by
      unfold State.fileFrame
      rw [if_neg (mt waits.mp there)]
    rw [joined]
    refine ⟨List.nodup_append.mpr ⟨nodup, List.nodup_singleton _, fun a ha b hb => ?_⟩, fun k => ?_⟩
    · rw [List.mem_singleton.mp hb]
      exact ne_of_mem_of_not_mem ha there
    · simp only [List.mem_append, List.mem_singleton, named]
      constructor
      · rintro (⟨g, hg, rfl⟩ | rfl)
        · exact ⟨g, Or.inl hg, rfl⟩
        · exact ⟨f, Or.inr rfl, rfl⟩
      · rintro ⟨g, hg | rfl, rfl⟩
        · exact Or.inl ⟨g, hg, rfl⟩
        · exact Or.inr rfl

/-- LI keeps the active lists. -/
theorem lineKeeps_activeLaw : LineKeeps ActiveLaw where
  free _ _ h := h
  lastStart _ _ h := h
  ownFrames _ _ h := h
  take s h := by simpa [ActiveLaw] using h
  file s f h := fileFrame_active f h

/-- LI keeps the law of the transmit queue. -/
theorem lineKeeps_queueLaw : LineKeeps QueueLaw where
  free _ _ h := h.of_eq rfl rfl rfl
  lastStart _ _ h := h.of_eq rfl rfl rfl
  ownFrames _ _ h := h.of_eq rfl rfl rfl
  take s h := takeBuffer_queueLaw s h
  file _ _ h := h.of_eq rfl rfl rfl

end Sys2Proof.Proofs
end

