-- ==== Sys2Proof/Proofs/StoreSteps.lean ====
section
/-! PROOF. What one step does to the frame buffers, the active lists and the transmit queue: nine cases (`StoreStep`), from which every
step keeps their laws (O6, O7; R43, R47, R49 to R53, R56). -/

namespace Sys2Proof.Proofs
open Sys2Proof.Machine Sys2Proof.Laws

/-! ### The cases of a step -/

/-- `t` has LI, the buffers, the inboxes and the active lists of `s`, and a queue for which the queue's law still holds: a step that at
most offers frames. -/
structure StoreKept (s t : State) : Prop where
  li : t.li = s.li
  free : t.fs.free = s.fs.free
  inbox : t.fs.inbox = s.fs.inbox
  active : t.fs.active = s.fs.active
  handler : t.fs.handler = s.fs.handler
  ownFrames : t.fs.ownFrames = s.fs.ownFrames
  queue : QueueLaw s.fs → QueueLaw t.fs

/-- What one step makes of LI and FS. -/
inductive StoreStep (s : State) : State → Prop
  /-- Nothing but frames offered. -/
  | kept {t} (kept : StoreKept s t) : StoreStep s t
  /-- A frame goes through the frame handler to its block (R50). -/
  | delivered {t} (k : Kind) {act : RxFrame → State → State} (kept : ∀ f u, StoreKept u (act f u)) (eq : t = s.withFrame k act) :
    StoreStep s t
  /-- PT finishes with a frame of the node's own source (R71). -/
  | ownTaken {t u} {r : RxRec} {rest : List RxRec} (own : s.fs.ownFrames = r :: rest)
    (kept : StoreKept { s with fs := { s.fs with ownFrames := rest } } u) (eq : t = u.giveBuffer) : StoreStep s t
  /-- Groups are heard (R41, R43). -/
  | heard {t} (groups : List LineGroup) (eq : t = s.hear groups) : StoreStep s t
  /-- Groups are heard, and then the line is quiet (R41). -/
  | quiet {t} (groups : List LineGroup) (eq : t = (s.hear groups).lineQuiet) : StoreStep s t
  /-- Line access: a frame may leave the queue (R53, R54). -/
  | accessed {t} {q : List TxFrame} (sync : t.li.sync = s.li.sync) (asm : t.li.asm = s.li.asm) (sub : q.Sublist s.fs.queue)
    (fs : t.fs = { s.fs with queue := q }) : StoreStep s t
  /-- A reset (R171). -/
  | reset {t} (li : t.li = LI.reset) (fs : t.fs = FS.reset) : StoreStep s t

/-! ### Which case a command is -/

theorem StoreKept.of_eq {s t : State} (hli : t.li = s.li) (hfs : t.fs = s.fs) : StoreKept s t := by
  constructor <;> simp [hli, hfs]

theorem StoreKept.refl (s : State) : StoreKept s s := .of_eq rfl rfl

theorem StoreKept.trans {s t u : State} (h : StoreKept s t) (g : StoreKept t u) : StoreKept s u :=
  ⟨g.li.trans h.li, g.free.trans h.free, g.inbox.trans h.inbox, g.active.trans h.active, g.handler.trans h.handler,
    g.ownFrames.trans h.ownFrames, g.queue ∘ h.queue⟩

theorem StoreKept.forEach {α : Type} {f : α → State → State} (hf : ∀ x u, StoreKept u (f x u)) (l : List α) (s : State) :
    StoreKept s (forEach l f s) :=
  forEach_preserves (P := StoreKept s) (fun x _ u hu => hu.trans (hf x u)) (.refl s)

/-- A telegram goes to RQ, which at most offers frames. -/
theorem withTelegram_storeKept {act : Telegram → State → State} (kept : ∀ x u, StoreKept u (act x u)) (s : State) (p : Nat)
    (cls : TelClass) : StoreKept s (s.withTelegram p cls act) := by
  unfold State.withTelegram
  split
  · split
    · dsimp only
      split
      · constructor <;> simp +contextual
      · refine StoreKept.trans ?_ (kept _ _)
        exact .of_eq rfl rfl
    · exact .refl s
  · exact .refl s

theorem newRequest_storeKept (c : Option ReqCode) (x : Telegram) (s : State) : StoreKept s (State.newRequest c x s) := by
  constructor <;> simp +contextual

theorem restoreReport_storeKept (restored : List Restored) (r : Nat) (s : State) : StoreKept s (restoreReport restored r s) := by
  unfold restoreReport
  split
  · constructor <;> simp +contextual
  · exact .refl s

/-- The end of restore offers the ANNOUNCE and the reports of the doubtful roads (R59, R163). -/
theorem enterJoining_storeKept (s : State) (restored : List Restored) : StoreKept s (s.enterJoining restored) := by
  have announced : StoreKept s ((joiningState s restored).send .announce 63 [byte s.pt.cause.code]) := by
    constructor <;> simp +contextual [joiningState]
  have reported := fun u => StoreKept.forEach (restoreReport_storeKept restored) (correctedRoads restored) u
  rw [enterJoining_eq]
  exact (announced.trans (reported _)).trans (.of_eq (by simp) (by simp))

/-- The end of a window offers the reports of the sections that are newly disturbed (R15). -/
theorem windowEnds_storeKept (s : State) (l : Levels) : StoreKept s (s.windowEnds l) := by
  have evaluated := fun u => StoreKept.forEach (f := State.evaluateSect l)
    (fun k u => by constructor <;> simp +contextual) (List.range s.du.sects.length) u
  by_cases active : s.pt.mode.active = true
  · by_cases fresh : s.oldWindows = 0
    · rw [windowEnds_evaluating active fresh]
      refine StoreKept.trans ?_ (evaluated _)
      exact .of_eq rfl rfl
    · have old : s.windowEnds l = { s.exchange with oldWindows := s.oldWindows - 1 } :=
        (if_pos active).trans (if_neg fresh)
      rw [old]
      exact .of_eq rfl rfl
  · have inactive : s.windowEnds l = s.exchange := if_neg active
    rw [inactive]
    exact .of_eq rfl rfl

/-- LINE_ACCESS takes the frame it sends from the queue, or nothing (R53, R54). -/
theorem startSending_storeStep (s : State) (step : Nat) : StoreStep s (s.startSending step) := by
  unfold State.startSending
  split
  · split
    · split
      · obtain ⟨before, after, same, rest, -⟩ := takeFirst_split ‹_›
        exact .accessed rfl rfl (by simp [same, rest]) rfl
      · exact .kept (.refl s)
    · exact .kept (.refl s)
  · exact .kept (.refl s)

/-- An answer of an owner goes to RE. -/
theorem deliverReply_storeStep (s : State) (v : Via) (k : Kind) : StoreStep s (s.deliverReply v k) := by
  cases v with
  | frame => exact .delivered k (fun f u => by constructor <;> simp +contextual) rfl
  | handover => exact .kept (by constructor <;> simp +contextual [State.deliverReply])

/-- Which case of `StoreStep` a command is: the resets, the line's groups and accesses, the deliveries of frames and OWN_SOURCE_FRAME
stand each in a case of their own; every other command at most offers frames, by the `_keeps` laws and the queue laws of the operation
that it names. -/
theorem exec_storeStep {c : Instr} {s t : State} (h : exec c s = .next t) : StoreStep s t := by
  cases c with
  | powerOnReset | pinReset =>
    cases h
    exact .reset rfl rfl
  | roadRestore acked =>
    simp only [exec, execRoadRestore] at h
    split at h <;> cases h
    · exact .kept (enterJoining_storeKept s _)
    · exact .kept (.refl s)
  | windowEnd levels =>
    simp only [exec, execWindowEnd] at h
    split at h <;> cases h
    · exact .kept (windowEnds_storeKept s levels)
    · exact .kept (.refl s)
  | startDelimiter align rd balance | commaReceived align rd balance =>
    cases h
    exact .heard [_] rfl
  | oversizeDiscard groups | lineQualityWindow groups | frameReceived groups =>
    cases h
    exact .heard groups rfl
  | lossOfSync groups quiet =>
    cases quiet <;> cases h
    · exact .heard groups rfl
    · exact .quiet groups rfl
  | ownSourceFrame =>
    simp only [exec, execOwnSourceFrame] at h
    split at h <;> cases h
    · exact .ownTaken ‹_› (by constructor <;> simp +contextual) rfl
    · exact .kept (.refl s)
  | lineAccess step =>
    cases h
    exact startSending_storeStep s step
  | transmissionEnd | accessRoundTimeout | firstIdlePoint =>
    simp only [exec, execTransmissionEnd, execAccessRoundTimeout, execFirstIdlePoint] at h
    split at h <;> cases h <;> exact .accessed rfl rfl (.refl _) rfl
  | holdOff | announce | state | inspect | inspectReply | event =>
    cases h
    exact .delivered _ (fun f u => by constructor <;> simp +contextual) rfl
  | inRequest p | outRequest p | roadRequest p | destRequest p | unknownCodeTelegram p =>
    cases h
    exact .kept (withTelegram_storeKept (newRequest_storeKept _) s p _)
  | cancel p =>
    cases h
    exact .kept (withTelegram_storeKept (fun x u => by constructor <;> simp +contextual) s p _)
  | grant v | deny v | setDone v | setFail v | claimLost v | passed v =>
    cases h
    exact deliverReply_storeStep s v _
  | claim v | set v | release v | bidCall v | bid v | award v | awardWithdraw v =>
    cases v <;> cases h
    · exact .delivered _ (fun f u => by constructor <;> simp +contextual) rfl
    · exact .kept (by constructor <;> simp +contextual)
  | roadChange v =>
    cases v <;> cases h
    · exact .delivered _ (fun f u => by constructor <;> simp +contextual [roadChangeFrame]) rfl
    · exact .kept (by constructor <;> simp +contextual)
  | resetRelease _ | imageReadDone _ | epochWriteDone _ | pointWindowEvaluation | signalWindowEvaluation | puSectionChange _
  | ctSectionChange _ | reSectionChange _ | yuSectionChange _ | travelTimerExpiry _ | permissionEnd _ | proceedCommand _ | stopCommand _
  | clearingTimerExpiry _ | trialTimerExpiry _ | proved _ | clearFail _ | lampFault _ | poolLowTimerExpiry | holdOffTimerExpiry _
  | listenTimer | stateTimer | peerSilent _ | peerLost _ | ctUnusable _ | ctUsable _ | ctEpochChange _ | reUnusable _ | reUsable _
  | reEpochChange _ | yuUnusable _ | yuUsable _ | yuEpochChange _ | ctIsolation | reIsolation | rqIsolation | yuIsolation
  | telegramGapTimeout _ | refusalHoldExpiry _ | slotLifetimeExpiry _ | outcome | cancelInstance _ | moveDone _ | moveFail _
  | detectionLost _ | reservedTimerExpiry _ | setTimerExpiry _ | orphanClearExpiry _ _ | offerExpiry _ | holdTimerExpiry _ _
  | roadWriteDone | roadWriteFail | bidTimerExpiry _ | roadWaitExpiry _ | awardWaitExpiry _ | claimWindowExpiry _ | setWindowExpiry _
  | approachTimerExpiry _ | releaseDelayExpiry _ | runThroughExpiry _ | retryTimerExpiry _ | readerInputByte _ _ _ =>
    simp only [exec, execResetRelease, execImageReadDone, execEpochWriteDone, execPointWindowEvaluation,
      execSignalWindowEvaluation, execPuSectionChange, execCtSectionChange, execReSectionChange, execYuSectionChange,
      execTravelTimerExpiry, execPermissionEnd, execProceedCommand, execStopCommand, execClearingTimerExpiry,
      execTrialTimerExpiry, execProved, execClearFail, execLampFault, execPoolLowTimerExpiry, execHoldOffTimerExpiry,
      execListenTimer, execStateTimer, execPeerSilent, execPeerLost, execCtUnusable, execCtUsable, execCtEpochChange,
      execReUnusable, execReUsable, execReEpochChange, execYuUnusable, execYuUsable, execYuEpochChange, execCtIsolation,
      execReIsolation, execRqIsolation, execYuIsolation, execTelegramGapTimeout, execRefusalHoldExpiry,
      execSlotLifetimeExpiry, execOutcome, execCancelInstance, execMoveDone, execMoveFail, execDetectionLost,
      execReservedTimerExpiry, execSetTimerExpiry, execOrphanClearExpiry, execOfferExpiry, execHoldTimerExpiry,
      execRoadWriteDone, execRoadWriteFail, execBidTimerExpiry, execRoadWaitExpiry, execAwardWaitExpiry,
      execClaimWindowExpiry, execSetWindowExpiry, execApproachTimerExpiry, execReleaseDelayExpiry, execRunThroughExpiry,
      execRetryTimerExpiry, execReaderInputByte] at h
    (repeat' split at h) <;> (cases h; exact .kept (by constructor <;> simp +contextual))

/-- A millisecond changes nothing of LI, and of FS the pool-low timer alone (R48). -/
theorem tick_storeKept (s : State) : StoreKept s s.tick := by
  by_cases held : s.mi.startup = .held
  · rw [tick_held held]
    exact .refl s
  · rw [tick_running held]
    exact ⟨rfl, rfl, rfl, rfl, rfl, rfl, fun h => h.of_eq rfl rfl rfl⟩

/-- One step is a case of `StoreStep`, from the state whose next command has been taken. -/
theorem step_storeStep {s t : State} (h : step s = .next t) : ∃ u, u.li = s.li ∧ u.fs = s.fs ∧ StoreStep u t := by
  cases hp : s.pending with
  | nil =>
    rw [step_idle hp] at h
    cases h
    exact ⟨s, rfl, rfl, .kept (tick_storeKept s)⟩
  | cons c rest =>
    simp only [step, hp] at h
    exact ⟨{ s with pending := rest }, rfl, rfl, exec_storeStep h⟩

/-! ### The frame buffers (R43, R47) -/

/-- The law of the buffers speaks of LI and of four lists of FS. -/
theorem poolInv_iff (s : State) : PoolInv s ↔ bufferCount s = 32 ∧ s.fs.handler = none ∧ AssemblyInStep s.li := Iff.rfl

theorem poolInv_of_eq {s t : State} (li : t.li = s.li) (fs : t.fs = s.fs) (h : PoolInv s) : PoolInv t := by
  simpa only [PoolInv, li, fs] using h

/-- A frame that the handler takes has its buffer returned (R47, R50). -/
theorem withFrame_pool {s : State} {act : RxFrame → State → State} (kept : ∀ f u, StoreKept u (act f u)) (k : Kind) (h : PoolInv s) :
    PoolInv (s.withFrame k act) := by
  obtain ⟨count, handler, assembly⟩ := h
  cases taken : s.fs.takeFrame k with
  | none =>
    have nothing : s.withFrame k act = s := by
      unfold State.withFrame
      rw [taken]
    rw [nothing]
    exact ⟨count, handler, assembly⟩
  | some x =>
    obtain ⟨f, fs'⟩ := x
    obtain ⟨-, rest, first, rfl⟩ := takeFrame_some taken
    obtain ⟨li, free, inbox, -, -, ownFrames, -⟩ := kept f { s with fs := { s.fs with
      inbox := rest, handler := some f, active := activeAfter s.fs.active k rest } }
    have length := takeFirst_length first
    rw [withFrame_some taken, poolInv_iff]
    refine ⟨?_, rfl, ?_⟩
    · simp only [bufferCount, State.finishFrame, State.giveBuffer, li, free, inbox, ownFrames]
      omega
    · simpa only [AssemblyInStep, State.finishFrame, State.giveBuffer, li] using assembly

/-- Each case keeps the law of the buffers. -/
theorem StoreStep.pool {s t : State} (h : StoreStep s t) (inv : PoolInv s) : PoolInv t := by
  cases h with
  | kept kept =>
    obtain ⟨li, free, inbox, -, handler, ownFrames, -⟩ := kept
    simpa only [PoolInv, li, free, inbox, handler, ownFrames] using inv
  | delivered k kept eq =>
    rw [eq]
    exact withFrame_pool kept k inv
  | ownTaken own kept eq =>
    obtain ⟨count, handler, assembly⟩ := inv
    obtain ⟨li, free, inbox, -, handler', ownFrames, -⟩ := kept
    rw [eq, poolInv_iff]
    refine ⟨?_, handler'.trans handler, fun ha => ?_⟩
    · rw [own, List.length_cons] at count
      simp only [bufferCount, State.giveBuffer, li, free, inbox, ownFrames]
      omega
    · exact (congrArg LI.sync li).trans (assembly ((congrArg (·.asm.isSome) li).symm.trans ha))
  | heard groups eq =>
    rw [eq]
    exact hear_pool groups inv
  | quiet groups eq =>
    rw [eq]
    exact lineQuiet_pool (hear_pool groups inv)
  | accessed sync asm sub fs =>
    simpa only [PoolInv, LI.buffers, sync, asm, fs] using inv
  | reset li fs =>
    rw [poolInv_iff, bufferCount, li, fs]
    exact ⟨rfl, rfl, .of_none rfl⟩

/-! ### The active lists (R49, R50) -/

/-- A frame that the handler takes moves its inbox to the tail of its list, or out of it where it was the last (R50). -/
theorem takeFirst_activeLaw {fs : FS} {k : Kind} {f : RxFrame} {rest : List RxFrame} (h : ActiveLaw fs)
    (first : takeFirst (fun g => g.kind == k) fs.inbox = some (f, rest)) :
    ActiveLaw { fs with inbox := rest, handler := some f, active := activeAfter fs.active k rest } := by
  obtain ⟨nodup, named⟩ := h
  obtain ⟨front, back, inbox, same, -⟩ := takeFirst_split first
  have kind : f.kind = k := by simpa using takeFirst_accepts first
  have others : ∀ j, j ≠ k → (j ∈ fs.active ↔ ∃ g ∈ rest, g.kind = j) := by
    intro j hj
    rw [named, inbox, same]
    constructor
    · rintro ⟨g, hg, rfl⟩
      refine ⟨g, ?_, rfl⟩
      rcases List.mem_append.mp hg with hg | hg
      · exact List.mem_append_left _ hg
      · rcases List.mem_cons.mp hg with rfl | hg
        · exact absurd kind hj
        · exact List.mem_append_right _ hg
    · rintro ⟨g, hg, rfl⟩
      exact ⟨g, by simp only [List.mem_append, List.mem_cons] at hg ⊢; tauto, rfl⟩
  have filtered : ∀ j, j ∈ fs.active.filter (fun j => j != k) ↔ j ≠ k ∧ ∃ g ∈ rest, g.kind = j := by
    intro j
    rw [List.mem_filter, bne_iff_ne, and_comm]
    exact and_congr_right (others j)
  unfold activeAfter
  split
  · rename_i waits
    refine ⟨?_, fun j => ?_⟩
    · refine List.nodup_append.mpr ⟨nodup.filter _, List.nodup_singleton k, fun a ha b hb => ?_⟩
      rw [List.mem_singleton.mp hb]
      exact ((filtered a).mp ha).1
    · rw [List.mem_append, List.mem_singleton, filtered]
      by_cases hj : j = k
      · subst hj
        simpa using waits
      · simp [hj]
  · rename_i empty
    refine ⟨nodup.filter _, fun j => ?_⟩
    rw [filtered]
    by_cases hj : j = k
    · subst hj
      simpa using empty
    · simp [hj]

/-- What a frame through the handler keeps of FS. -/
theorem withFrame_fs {P : FS → Prop} {s : State} {act : RxFrame → State → State} {k : Kind}
    (taken : ∀ f rest, takeFirst (fun g => g.kind == k) s.fs.inbox = some (f, rest) →
      P { s.fs with inbox := rest, handler := some f, active := activeAfter s.fs.active k rest })
    (kept : ∀ f u, P u.fs → P (act f u).finishFrame.fs) (h : P s.fs) : P (s.withFrame k act).fs := by
  cases hf : s.fs.takeFrame k with
  | none =>
    unfold State.withFrame
    rw [hf]
    exact h
  | some x =>
    obtain ⟨f, fs'⟩ := x
    obtain ⟨-, rest, first, rfl⟩ := takeFrame_some hf
    rw [withFrame_some hf]
    exact kept f _ (taken f rest first)

theorem activeLaw_reset : ActiveLaw FS.reset :=
  ⟨List.nodup_nil, fun k => by simp [FS.reset]⟩

/-- Each case keeps the active lists. -/
theorem StoreStep.active {s t : State} (h : StoreStep s t) (inv : ActiveLaw s.fs) : ActiveLaw t.fs := by
  cases h with
  | kept kept => simpa only [ActiveLaw, kept.active, kept.inbox] using inv
  | delivered k kept eq =>
    rw [eq]
    refine withFrame_fs (fun f rest first => takeFirst_activeLaw inv first) (fun f u hu => ?_) inv
    simpa only [ActiveLaw, State.finishFrame, State.giveBuffer, (kept f u).active, (kept f u).inbox] using hu
  | ownTaken own kept eq =>
    rw [eq]
    simpa only [ActiveLaw, State.giveBuffer, kept.active, kept.inbox] using inv
  | heard groups eq =>
    rw [eq]
    exact lineKeeps_activeLaw.hear groups inv
  | quiet groups eq =>
    rw [eq]
    exact lineKeeps_activeLaw.lineQuiet (lineKeeps_activeLaw.hear groups inv)
  | accessed sync asm sub fs =>
    rw [fs]
    exact inv
  | reset li fs =>
    rw [fs]
    exact activeLaw_reset

/-- Settles O6: by the cases of a step, of which each keeps the buffers and the active lists. -/
theorem stepKeepsFrameStoreLaws : Obligations.StepKeepsFrameStoreLaws := by
  refine ⟨fun s t inv h => ?_, fun s t inv h => ?_⟩
  · obtain ⟨u, li, fs, case⟩ := step_storeStep h
    exact case.pool (poolInv_of_eq li fs inv)
  · obtain ⟨u, -, fs, case⟩ := step_storeStep h
    exact case.active (fs.symm ▸ inv)

/-! ### The transmit queue (R51 to R53, R56) -/

theorem queueLaw_reset : QueueLaw FS.reset := by
  constructor <;> simp [FS.reset]

/-- Each case keeps the queue's law. -/
theorem StoreStep.queue {s t : State} (h : StoreStep s t) (inv : QueueLaw s.fs) : QueueLaw t.fs := by
  cases h with
  | kept kept => exact kept.queue inv
  | delivered k kept eq =>
    rw [eq]
    exact withFrame_fs (fun f rest _ => inv.of_eq rfl rfl rfl) (fun f u hu => ((kept f u).queue hu).of_eq rfl rfl rfl) inv
  | ownTaken own kept eq =>
    rw [eq]
    exact (kept.queue (inv.of_eq rfl rfl rfl)).of_eq rfl rfl rfl
  | heard groups eq =>
    rw [eq]
    exact lineKeeps_queueLaw.hear groups inv
  | quiet groups eq =>
    rw [eq]
    exact lineKeeps_queueLaw.lineQuiet (lineKeeps_queueLaw.hear groups inv)
  | accessed sync asm sub fs =>
    rw [fs]
    exact inv.of_sublist sub
  | reset li fs =>
    rw [fs]
    exact queueLaw_reset

/-- Settles O7: by the cases of a step. -/
theorem stepKeepsTransmitQueueLaw : Obligations.StepKeepsTransmitQueueLaw := by
  intro s t inv h
  obtain ⟨u, -, fs, case⟩ := step_storeStep h
  exact (queueInv_iff t).mpr (case.queue (fs.symm ▸ (queueInv_iff s).mp inv))

/-! ### The reset state -/

theorem memoryInv_reset : MemoryInv State.reset :=
  ⟨reset_memory_wf, by decide, by decide, by simp [State.reset, YU.reset], by simp [State.reset, MI.reset]⟩

/-- At reset no claim record is in use. -/
theorem claim?_reset (id : Nat) : State.reset.claim? id = none := by
  unfold State.claim?
  split
  · rename_i c used
    have := (List.mem_replicate.mp (List.mem_of_getElem? used)).2
    cases this
  · rfl

/-- At reset no section is locked. -/
theorem lock?_reset (k : Nat) : State.reset.lock? k = none := rfl

theorem claimInv_reset : ClaimInv State.reset := by
  refine ⟨rfl, rfl, List.nodup_range, fun id => ?_, fun k id => ?_, fun id c used => ?_, fun _ => ⟨rfl, claim?_reset⟩⟩
  · have free : id ∈ State.reset.ct.free ↔ id < 32 := List.mem_range
    have record : State.reset.ct.records[id]? = if id < 32 then some none else none := List.getElem?_replicate
    rw [free, record]
    simp
  · simp [claim?_reset, lock?_reset]
  · rw [claim?_reset] at used
    cases used

/-- Settles O4. -/
theorem invariantsHoldAtReset : Obligations.InvariantsHoldAtReset :=
  ⟨memoryInv_reset, ⟨rfl, rfl, by decide⟩, activeLaw_reset, (queueInv_iff _).mpr queueLaw_reset, claimInv_reset⟩

end Sys2Proof.Proofs
end

