-- ==== Sys2Proof/Proofs/StateFrames.lean ====
section
/-! PROOF. The STATE frame (O30): where each block's state stands in the 36 bytes of the payload, and the mark of the STATE timer (R52,
R60, R66, R165, R179). -/

namespace Sys2Proof.Proofs
open Sys2Proof.Machine Sys2Proof.Laws

/-! ### Fields inside a byte -/

/-- The number that a bit map spells, its first element the most significant bit. -/
def mapValue (f : Nat → Bool) (n : Nat) : Nat :=
  (List.range n).foldl (fun acc i => 2 * acc + (if f i then 1 else 0)) 0

theorem mapValue_succ (f : Nat → Bool) (n : Nat) : mapValue f (n + 1) = 2 * mapValue f n + (if f n then 1 else 0) := by
  simp [mapValue, List.range_succ]

theorem mapValue_lt (f : Nat → Bool) (n : Nat) : mapValue f n < 2 ^ n := by
  induction n with
  | zero => exact Nat.one_pos
  | succ n ih =>
    rw [mapValue_succ, pow_succ]
    split <;> omega

/-- Element `i` of a map of `n` is bit `n - 1 - i` of its number. -/
theorem mapValue_testBit (f : Nat → Bool) {n i : Nat} (h : i < n) : (mapValue f n).testBit (n - 1 - i) = f i := by
  induction n with
  | zero => omega
  | succ n ih =>
    rw [mapValue_succ]
    rcases Nat.lt_succ_iff_lt_or_eq.mp h with earlier | rfl
    · rw [show n + 1 - 1 - i = (n - 1 - i) + 1 by omega, Nat.testBit_succ]
      have half : (2 * mapValue f n + (if f n then 1 else 0)) / 2 = mapValue f n := by split <;> omega
      rw [half, ih earlier]
    · rw [show i + 1 - 1 - i = 0 by omega, Nat.testBit_zero]
      cases f i <;> simp

/-- Bit `k` of a bit map stands in byte `k / 8`, the most significant bit first (R179). -/
theorem mapByte_testBit (f : Nat → Bool) (k : Nat) : (mapByte f (k / 8)).toNat.testBit (7 - k % 8) = f k := by
  have byteValue : (mapByte f (k / 8)).toNat = mapValue (fun i => f (8 * (k / 8) + i)) 8 := by
    rw [mapByte, byte_toNat]
    exact Nat.mod_eq_of_lt (mapValue_lt _ 8)
  have bit := mapValue_testBit (fun i => f (8 * (k / 8) + i)) (Nat.mod_lt k (by decide : 0 < 8))
  rw [byteValue, bit, Nat.div_add_mod]

theorem sectCode_lt (s : State) (k : Nat) : s.sectCode k < 4 := by
  unfold State.sectCode
  split
  · rename_i st _
    cases st <;> decide
  · decide

/-- Section `k` has two bits in byte `k / 4`. -/
theorem sectByte_field (s : State) (k : Nat) : (s.sectByte (k / 4)).toNat / 4 ^ (3 - k % 4) % 4 = s.sectCode k := by
  have h0 := sectCode_lt s (4 * (k / 4))
  have h1 := sectCode_lt s (4 * (k / 4) + 1)
  have h2 := sectCode_lt s (4 * (k / 4) + 2)
  have h3 := sectCode_lt s (4 * (k / 4) + 3)
  have place := Nat.div_add_mod k 4
  have four : k % 4 < 4 := Nat.mod_lt k (by decide)
  rw [State.sectByte, byte_toNat]
  conv_rhs => rw [← place]
  generalize k % 4 = i at four ⊢
  interval_cases i <;> norm_num <;> omega

theorem pointCode_lt (s : State) (p : Nat) : s.pointCode p < 16 := by
  unfold State.pointCode
  split
  · rename_i st _
    cases st <;> decide
  · decide

/-- The two points of byte `j` of the STATE frame (R179). -/
def pointByte (s : State) (j : Nat) : Byte :=
  byte (16 * s.pointCode (2 * j) + s.pointCode (2 * j + 1))

/-- Point `p` has four bits in byte `p / 2`. -/
theorem pointByte_field (s : State) (p : Nat) : (pointByte s (p / 2)).toNat / 16 ^ (1 - p % 2) % 16 = s.pointCode p := by
  have h0 := pointCode_lt s (2 * (p / 2))
  have h1 := pointCode_lt s (2 * (p / 2) + 1)
  have place := Nat.div_add_mod p 2
  have two : p % 2 < 2 := Nat.mod_lt p (by decide)
  rw [pointByte, byte_toNat]
  conv_rhs => rw [← place]
  generalize p % 2 = i at two ⊢
  interval_cases i <;> norm_num <;> omega

/-! ### The layout of the payload (R165, R179) -/

theorem byteAt_of_getElem? {l : List Byte} {k : Nat} {b : Byte} (h : l[k]? = some b) : byteAt l k = b.toNat := by
  unfold byteAt
  rw [h]

theorem roadBytes_length (s : State) (r : Nat) : (s.roadBytes r).length = 2 := by
  unfold State.roadBytes
  split <;> rfl

/-- The bytes before the roads. -/
def stateHead (s : State) : List Byte :=
  [byte (s.pt.mode.stateCode + 16 * s.pt.cause.code)] ++ (List.range 8).map (mapByte s.heard) ++ (List.range 4).map s.sectByte
    ++ (List.range 2).map (mapByte (fun k => (s.lock? k).isSome)) ++ (List.range 4).map (pointByte s)
    ++ (List.range 8).map s.signalByte

theorem statePayload_eq (s : State) : s.statePayload = stateHead s ++ ((List.range 4).flatMap s.roadBytes
    ++ [stateFlags s.li.linePoor s.fs.poolLow s.fs.txDrop]) := by
  simp only [State.statePayload, stateHead, List.append_assoc]
  rfl

theorem stateHead_length (s : State) : (stateHead s).length = 27 := rfl

theorem length_flatMap_range {f : Nat → List Byte} {w : Nat} (hf : ∀ r, (f r).length = w) (n : Nat) :
    ((List.range n).flatMap f).length = w * n := by
  induction n with
  | zero => rfl
  | succ n ih => simp [List.range_succ, ih, hf, Nat.mul_succ]

/-- Items of one width stand side by side. -/
theorem getElem?_flatMap_range {f : Nat → List Byte} {w : Nat} (hf : ∀ r, (f r).length = w) {n r j : Nat} (hr : r < n) (hj : j < w) :
    ((List.range n).flatMap f)[w * r + j]? = (f r)[j]? := by
  induction n with
  | zero => omega
  | succ n ih =>
    have width := length_flatMap_range hf n
    rw [List.range_succ, List.flatMap_append]
    rcases Nat.lt_succ_iff_lt_or_eq.mp hr with earlier | rfl
    · have inside : w * r + j < w * n := calc
        w * r + j < w * (r + 1) := by rw [Nat.mul_succ]; omega
        _ ≤ w * n := Nat.mul_le_mul_left w earlier
      rw [List.getElem?_append_left (by rwa [width]), ih earlier]
    · rw [List.getElem?_append_right (by omega), width, Nat.add_sub_cancel_left, List.flatMap_singleton]

theorem roads_length (s : State) : ((List.range 4).flatMap s.roadBytes).length = 8 :=
  length_flatMap_range (roadBytes_length s) 4

/-- The bytes before the roads stand at their own places. -/
theorem statePayload_head (s : State) {k : Nat} (h : k < 27) : s.statePayload[k]? = (stateHead s)[k]? := by
  rw [statePayload_eq, List.getElem?_append_left (by rwa [stateHead_length])]

/-- Byte `j` of road `r`. -/
theorem statePayload_road (s : State) {r j : Nat} (hr : r < 4) (hj : j < 2) : s.statePayload[27 + 2 * r + j]? = (s.roadBytes r)[j]? := by
  rw [statePayload_eq, List.getElem?_append_right (by rw [stateHead_length]; omega), stateHead_length,
    List.getElem?_append_left (by rw [roads_length]; omega), show 27 + 2 * r + j - 27 = 2 * r + j by omega]
  exact getElem?_flatMap_range (roadBytes_length s) hr hj

theorem statePayload_flags (s : State) : s.statePayload[35]? = some (stateFlags s.li.linePoor s.fs.poolLow s.fs.txDrop) := by
  rw [statePayload_eq, List.getElem?_append_right (by rw [stateHead_length]; decide), stateHead_length,
    List.getElem?_append_right (by rw [roads_length]), roads_length]
  rfl

theorem statePayload_length (s : State) : s.statePayload.length = 36 := by
  rw [statePayload_eq, List.length_append, List.length_append, stateHead_length, roads_length]
  rfl

theorem statePayload_heard (s : State) {j : Nat} (h : j < 8) : s.statePayload[1 + j]? = some (mapByte s.heard j) := by
  rw [statePayload_head s (by omega)]
  interval_cases j <;> rfl

theorem statePayload_sect (s : State) {j : Nat} (h : j < 4) : s.statePayload[9 + j]? = some (s.sectByte j) := by
  rw [statePayload_head s (by omega)]
  interval_cases j <;> rfl

theorem statePayload_lock (s : State) {j : Nat} (h : j < 2) :
    s.statePayload[13 + j]? = some (mapByte (fun k => (s.lock? k).isSome) j) := by
  rw [statePayload_head s (by omega)]
  interval_cases j <;> rfl

theorem statePayload_point (s : State) {j : Nat} (h : j < 4) : s.statePayload[15 + j]? = some (pointByte s j) := by
  rw [statePayload_head s (by omega)]
  interval_cases j <;> rfl

theorem statePayload_signal (s : State) {g : Nat} (h : g < 8) : s.statePayload[19 + g]? = some (s.signalByte g) := by
  rw [statePayload_head s (by omega)]
  interval_cases g <;> rfl

theorem heard_iff (s : State) (k : Nat) :
    s.heard k = true ↔ ∃ p, s.peer? k = some p ∧ (p.state = .inStep ∨ p.state = .silent) := by
  unfold State.heard
  cases s.peer? k with
  | none => simp
  | some p => simp

theorem statePayloadCarriesTheNode : Clause.StatePayloadCarriesTheNode := by
  intro s
  refine ⟨statePayload_length s, rfl, statePayload_flags s, by decide, fun k hk => ?_, heard_iff s, fun k hk => ?_, fun k hk => ?_,
    fun p hp => ?_, fun g hg => ?_, fun r hr => ?_⟩
  · rw [byteAt_of_getElem? (statePayload_heard s (by omega)), mapByte_testBit]
  · rw [byteAt_of_getElem? (statePayload_sect s (by omega)), sectByte_field, State.sectCode]
    cases s.sectState k with
    | none => rfl
    | some st => cases st <;> rfl
  · rw [byteAt_of_getElem? (statePayload_lock s (by omega)), mapByte_testBit]
  · rw [byteAt_of_getElem? (statePayload_point s (by omega))]
    exact pointByte_field s p
  · exact statePayload_signal s hg
  · have first : s.statePayload[27 + 2 * r]? = (s.roadBytes r)[0]? := statePayload_road s hr (j := 0) (by decide)
    have second : s.statePayload[28 + 2 * r]? = (s.roadBytes r)[1]? := by
      rw [show 28 + 2 * r = 27 + 2 * r + 1 by omega]
      exact statePayload_road s hr (by decide)
    rw [first, second, State.roadBytes]
    constructor
    · intro x hx
      rw [hx]
      exact ⟨rfl, rfl⟩
    · intro hx
      rw [hx]
      exact ⟨rfl, rfl⟩

/-! ### The STATE timer (R52, R60) -/

theorem stateTimerBuildsAStateFrame : Clause.StateTimerBuildsAStateFrame := by
  intro s m running due
  have mark : s.stateMark = ({ s with pt := { s.pt with stateMs := some (m - 250) } }).buildState := by
    unfold State.stateMark
    rw [running]
    exact if_pos due
  exact congrArg Host.Outcome.next mark

/-- Settles O30. -/
theorem stateFramesAreBuilt : Obligations.StateFramesAreBuilt :=
  ⟨statePayloadCarriesTheNode, stateTimerBuildsAStateFrame⟩

end Sys2Proof.Proofs
end

