-- ==== Sys2Proof/Proofs/SentFrames.lean ====
section
/-! PROOF. What is sent reads back (O59): the fields of a frame as a receiver examines them (R43 to R45, R178, R179), and the code words
of its burst (R40). -/

namespace Sys2Proof.Proofs
open Sys2Proof.Machine Sys2Proof.Laws

/-! ### The bytes of a frame (R53, R178, R179) -/

/-- The seven bytes of the header. -/
def frameHeader (node : Nat) (epoch : Epoch) (seq : Byte) (f : TxFrame) : List Byte :=
  [byte f.kind.code, byte (64 * f.kind.level + f.dest), byte node, byte (epoch.toNat / 256), byte epoch.toNat, seq,
    byte f.payload.length]

/-- The bytes that the CRC covers. -/
def frameBody (node : Nat) (epoch : Epoch) (seq : Byte) (f : TxFrame) : List Byte :=
  frameHeader node epoch seq f ++ f.payload

theorem frameBytes_eq (node : Nat) (epoch : Epoch) (seq : Byte) (f : TxFrame) : frameBytes node epoch seq f
    = frameBody node epoch seq f ++ bytes2 (crc16 (frameBody node epoch seq f)).toNat := rfl

theorem frameBody_length (node : Nat) (epoch : Epoch) (seq : Byte) (f : TxFrame) :
    (frameBody node epoch seq f).length = f.payload.length + 7 := by
  rw [frameBody, List.length_append, Nat.add_comm]
  rfl

theorem frameBytes_length (node : Nat) (epoch : Epoch) (seq : Byte) (f : TxFrame) :
    (frameBytes node epoch seq f).length = f.payload.length + 9 := by
  rw [frameBytes_eq, List.length_append, frameBody_length, bytes2_length]

/-- A header byte stands at its own place. -/
theorem byteAt_header (node : Nat) (epoch : Epoch) (seq : Byte) (f : TxFrame) {k : Nat} (h : k < 7) :
    byteAt (frameBytes node epoch seq f) k = byteAt (frameHeader node epoch seq f) k := by
  unfold byteAt
  rw [frameBytes_eq, frameBody, List.append_assoc, List.getElem?_append_left h]

/-- A 2-byte field after `l` reads back. -/
theorem wordAt_after (l : List Byte) {n : Nat} (h : n < 65536) : wordAt (l ++ bytes2 n) l.length = n := by
  have high : byteAt (l ++ bytes2 n) l.length = n / 256 % 256 := by simp [byteAt, bytes2]
  have low : byteAt (l ++ bytes2 n) (l.length + 1) = n % 256 := by simp [byteAt, bytes2]
  rw [wordAt, high, low]
  omega

/-- A receiver finds no fault in what was sent (R43, R44). -/
theorem frameBytes_fault (node : Nat) (epoch : Epoch) (seq : Byte) {f : TxFrame} (h : f.payload.length ≤ 48) :
    (Assembly.mk (frameBytes node epoch seq f) false).fault = none := by
  have length := frameBytes_length node epoch seq f
  have body := frameBody_length node epoch seq f
  have check : (crc16 ((frameBytes node epoch seq f).take (f.payload.length + 7))).toNat
      = wordAt (frameBytes node epoch seq f) (f.payload.length + 7) := by
    rw [frameBytes_eq, ← body, List.take_left, wordAt_after _ (BitVec.isLt _)]
  have stated : byteAt (frameBytes node epoch seq f) 6 = f.payload.length :=
    (byteAt_header node epoch seq f (by decide)).trans ((byte_toNat _).trans (Nat.mod_eq_of_lt (by omega)))
  unfold Assembly.fault
  simp only [length, stated, Nat.add_sub_cancel, show f.payload.length + 9 - 2 = f.payload.length + 7 from rfl, check]
  simpa using h

theorem framesAreSound : Clause.FramesAreSound := by
  intro node epoch seq f hnode hdest hlen
  have header := fun k (h : k < 7) => byteAt_header node epoch seq f h
  have level := level_lt_four f.kind
  have addressed : byteAt (frameBytes node epoch seq f) 1 = 64 * f.kind.level + f.dest :=
    (header 1 (by decide)).trans ((byte_toNat _).trans (Nat.mod_eq_of_lt (by omega)))
  have source : byteAt (frameBytes node epoch seq f) 2 = node :=
    (header 2 (by decide)).trans ((byte_toNat _).trans (Nat.mod_eq_of_lt (by omega)))
  have stated : byteAt (frameBytes node epoch seq f) 6 = f.payload.length :=
    (header 6 (by decide)).trans ((byte_toNat _).trans (Nat.mod_eq_of_lt (by omega)))
  refine ⟨frameBytes_length node epoch seq f, frameBytes_fault node epoch seq hlen, ?_, ?_, ?_, ?_, ?_, ?_⟩
  · rw [frameSource, source]
    omega
  · rw [frameDest, addressed]
    omega
  · rw [frameLevel, addressed]
    omega
  · have word : wordAt (frameBytes node epoch seq f) 3 = epoch.toNat := by
      have small := epoch.isLt
      have high : byteAt (frameBytes node epoch seq f) 3 = epoch.toNat / 256 % 256 := (header 3 (by decide)).trans (byte_toNat _)
      have low : byteAt (frameBytes node epoch seq f) 4 = epoch.toNat % 256 := (header 4 (by decide)).trans (byte_toNat _)
      rw [wordAt, high, low]
      omega
    rw [frameEpoch, word, BitVec.ofNat_toNat, BitVec.setWidth_eq]
  · rw [header 0 (by decide)]
    show Kind.ofCode (byte f.kind.code).toNat = some f.kind
    cases f.kind <;> rfl
  · rw [framePayload, stated, frameBytes_eq, frameBody, List.append_assoc]
    exact List.take_left

/-! ### The code words of a burst (R40) -/

/-- The running disparity that a code word leaves. -/
def CodeWord.leaves (a : CodeWord) : Disparity :=
  if Config.wordTurns a.symbol a.rd then otherDisparity a.rd else a.rd

/-- Each code word is sent at the disparity that the one before it leaves. -/
theorem codeWords_next (rd : Disparity) (l : List LineSymbol) {k : Nat} {a b : CodeWord} (ha : (codeWords rd l)[k]? = some a)
    (hb : (codeWords rd l)[k + 1]? = some b) : b.rd = CodeWord.leaves a := by
  induction l generalizing rd k with
  | nil => cases ha
  | cons x xs ih =>
    cases k with
    | succ k => exact ih _ ha hb
    | zero =>
      cases ha
      cases xs with
      | nil => cases hb
      | cons y ys =>
        cases hb
        rfl

/-- The groups turn a receiver's disparity as their code words turned the sender's. -/
def TurnsAlike (groups : List LineGroup) : Prop :=
  ∀ g ∈ groups, ∀ x rd, g.code = .word x rd → disparityAfter rd g = if Config.wordTurns x rd then otherDisparity rd else rd

/-- A receiver that starts at the sender's disparity reads the symbols that were sent. -/
theorem readGroups_codeWords (rd : Disparity) (l : List LineSymbol) {groups : List LineGroup} (alike : TurnsAlike groups)
    (sent : groups.map (·.code) = (codeWords rd l).map (fun a => GroupCode.word a.symbol a.rd)) :
    readGroups rd groups = l.map some := by
  induction l generalizing rd groups with
  | nil =>
    rw [List.map_eq_nil_iff.mp sent]
    rfl
  | cons x xs ih =>
    cases groups with
    | nil => cases sent
    | cons g gs =>
      obtain ⟨first, later⟩ := List.cons.inj sent
      have code : g.code = .word x rd := first
      have turned := alike g List.mem_cons_self x rd code
      have read : groupSymbol rd g = some x := by
        unfold groupSymbol
        rw [code]
        exact if_pos rfl
      rw [readGroups, read, turned, ih _ (fun g hg => alike g (List.mem_cons_of_mem _ hg)) later]
      rfl

theorem burstsCarryFrames : Clause.BurstsCarryFrames := fun _ =>
  ⟨codeWords_symbols _ _, rfl, fun _ _ _ ha hb => codeWords_next _ _ ha hb, fun _ sent alike => readGroups_codeWords _ _ alike sent⟩

/-- Settles O59. -/
theorem sentFramesAreSound : Obligations.SentFramesAreSound :=
  ⟨framesAreSound, burstsCarryFrames⟩

end Sys2Proof.Proofs
end

