-- ==== Sys2Proof/Proofs/Instances.lean ====
section
/-! PROOF. Rules about the route instances: reading one after an update, what an operation on one `Inst` leaves of the others, and a sweep
over all of them. -/

namespace Sys2Proof.Proofs
open Sys2Proof.Machine Sys2Proof.Laws

/-! ### Reading one `Inst` -/

theorem inst?_eq_some {s : State} {i : Nat} {x : Inst} : s.inst? i = some x ↔ s.re.insts[i]? = some (some x) := by
  unfold State.inst?
  split
  · simp_all
  · rename_i none
    exact iff_of_false (fun h => nomatch h) (none x)

theorem inst?_congr {s t : State} {i : Nat} (h : t.re.insts[i]? = s.re.insts[i]?) : t.inst? i = s.inst? i := by
  unfold State.inst?
  rw [h]

theorem inst?_of_insts {s t : State} (h : t.re.insts = s.re.insts) (i : Nat) : t.inst? i = s.inst? i :=
  inst?_congr (by rw [h])

/-- An `Inst` in use has an index of RE's table. -/
theorem inst?_lt {s : State} {i : Nat} {x : Inst} (h : s.inst? i = some x) : i < s.re.insts.length :=
  (List.getElem?_eq_some_iff.mp (inst?_eq_some.mp h)).1

theorem inst?_mem_range {s : State} {i : Nat} {x : Inst} (h : s.inst? i = some x) : i ∈ List.range s.re.insts.length :=
  List.mem_range.mpr (inst?_lt h)

theorem setInst_inst?_self {s : State} {i : Nat} {x : Inst} (h : s.inst? i = some x) (y : Option Inst) : (s.setInst i y).inst? i = y := by
  have set : (s.setInst i y).re.insts[i]? = some y := List.getElem?_set_self (inst?_lt h)
  unfold State.inst?
  rw [set]
  cases y <;> rfl

/-- An `Inst` that is freed is not in use, whatever stood there. -/
theorem setInst_inst?_none (s : State) (i : Nat) : (s.setInst i none).inst? i = none := by
  have set : (s.setInst i none).re.insts[i]? = (s.re.insts.set i none)[i]? := rfl
  unfold State.inst?
  rw [set, List.getElem?_set]
  by_cases h : i < s.re.insts.length <;> simp [h]

theorem setInst_inst?_ne {i j : Nat} (h : j ≠ i) (s : State) (y : Option Inst) : (s.setInst i y).inst? j = s.inst? j :=
  inst?_congr (List.getElem?_set_ne h.symm)

theorem setInst_setInst (s : State) (i : Nat) (x y : Option Inst) : (s.setInst i x).setInst i y = s.setInst i y := by
  simp [State.setInst]

/-- Changing an `Inst` in use is setting it to what the change makes of it. -/
theorem modInst_eq {s : State} {i : Nat} {x : Inst} (h : s.inst? i = some x) (f : Inst → Inst) :
    s.modInst i f = s.setInst i (some (f x)) := by
  have same : s.re.insts.modify i (Option.map f) = s.re.insts.set i (some (f x)) := by
    rw [List.modify_eq_set_getElem?, inst?_eq_some.mp h]
    rfl
  unfold State.modInst State.setInst
  rw [same]

/-- Setting an `Inst` to what it holds changes nothing. -/
theorem setInst_same {s : State} {i : Nat} {x : Inst} (h : s.inst? i = some x) : s.setInst i (some x) = s := by
  have same : s.re.insts.set i (some x) = s.re.insts := by
    obtain ⟨hi, hx⟩ := List.getElem?_eq_some_iff.mp (inst?_eq_some.mp h)
    rw [← hx, List.set_getElem_self]
  unfold State.setInst
  rw [same]

theorem endInst_inst?_self (s : State) (i : Nat) (x : Inst) (code : OutcomeCode) : (s.endInst i x code).inst? i = none :=
  (inst?_of_insts rfl i).trans (setInst_inst?_none s i)

theorem endInst_inst?_ne {i j : Nat} (h : j ≠ i) (s : State) (x : Inst) (code : OutcomeCode) : (s.endInst i x code).inst? j = s.inst? j :=
  (inst?_of_insts rfl j).trans (setInst_inst?_ne h s none)

@[simp] theorem endInst_outcomes (s : State) (i : Nat) (x : Inst) (code : OutcomeCode) :
    (s.endInst i x code).rq = { s.rq with outcomes := s.rq.outcomes ++ [⟨i, x.slot, x.serial, code⟩] } := rfl

/-! ### Runs over a list -/

/-- Operations that are the same wherever `P` holds, and keep `P`, run the same. -/
theorem forEach_congr_on {α : Type} {P : State → Prop} {l : List α} {f g : α → State → State}
    (keeps : ∀ a ∈ l, ∀ u, P u → P (g a u)) (same : ∀ a ∈ l, ∀ u, P u → f a u = g a u) {s : State} (hs : P s) :
    forEach l f s = forEach l g s := by
  induction l generalizing s with
  | nil => rfl
  | cons a as ih =>
    rw [forEach, forEach, same a List.mem_cons_self s hs]
    exact ih (fun b hb => keeps b (List.mem_cons_of_mem a hb)) (fun b hb => same b (List.mem_cons_of_mem a hb))
      (keeps a List.mem_cons_self s hs)

/-- Operations that change nothing at the state they meet change nothing. -/
theorem forEach_id {α : Type} {l : List α} {f : α → State → State} {s : State} (h : ∀ a ∈ l, f a s = s) : forEach l f s = s := by
  induction l with
  | nil => rfl
  | cons a as ih =>
    rw [forEach, h a List.mem_cons_self]
    exact ih fun b hb => h b (List.mem_cons_of_mem a hb)

/-- A route key depends on the node and its epoch, and on the `Inst`. -/
theorem keyOf_congr {s t : State} (h : t.pt = s.pt) (x : Inst) : t.keyOf x = s.keyOf x := by
  unfold State.keyOf
  rw [h]

theorem routeOf_congr {s t : State} (h : t.yard = s.yard) (x : Inst) : t.routeOf x = s.routeOf x := by
  unfold State.routeOf
  rw [h]

theorem routeSteps_congr {s t : State} (h : t.yard = s.yard) (x : Inst) : t.routeSteps x = s.routeSteps x := by
  unfold State.routeSteps
  rw [routeOf_congr h]

theorem firstSect_congr {s t : State} (h : t.yard = s.yard) (x : Inst) : t.firstSect x = s.firstSect x := by
  unfold State.firstSect
  rw [routeSteps_congr h]

theorem haltedEnds_congr {s t : State} (h : t.yard = s.yard) (x : Inst) : t.haltedEnds x = s.haltedEnds x := by
  unfold State.haltedEnds
  rw [routeSteps_congr h]

theorem approachClear_congr {s t : State} (hy : t.yard = s.yard) (hd : t.du = s.du) (g : Nat) : t.approachClear g = s.approachClear g := by
  unfold State.approachClear State.sectClear State.sectState
  rw [hy, hd]

/-- The RELEASEs of several owners all name the key that the `Inst` has before the first of them (R128). -/
theorem forEach_releaseTo_keyOf (l : List OwnerEntry) (x : Inst) (s : State) :
    forEach l (fun o u => u.releaseTo (u.keyOf x) o.node) s = forEach l (fun o u => u.releaseTo (s.keyOf x) o.node) s :=
  forEach_congr_on (P := fun u => u.pt = s.pt) (fun o _ u hu => by simpa using hu)
    (fun o _ u hu => by rw [keyOf_congr hu]) rfl

theorem releaseAsked_eq (s : State) (x : Inst) :
    s.releaseAsked x = forEach (x.owners.filter (·.asked)) (fun o u => u.releaseTo (s.keyOf x) o.node) s :=
  forEach_releaseTo_keyOf _ x s

/-- The end of a route with unpassed steps (R135, R136): RELEASEs in owner-list order, then the outcome. -/
theorem endDegraded_eq (s : State) (i : Nat) (x : Inst) (spare : Bool) : s.endDegraded i x spare =
    (forEach (x.owners.filter (fun o => hasUnpassed o.node (s.routeSteps x) x.passed && !(spare && o.changed)))
      (fun o u => u.releaseTo (s.keyOf x) o.node) s).endInst i x .degraded :=
  congrArg (fun u : State => u.endInst i x .degraded) (forEach_releaseTo_keyOf _ x s)

theorem letGo_eq (s : State) (i : Nat) (x : Inst) (code : OutcomeCode) : s.letGo i x code =
    ((forEach (x.owners.filter (·.asked)) (fun o u => u.releaseTo (s.keyOf x) o.node) s).withdrawAward x).endInst i x code := by
  unfold State.letGo
  rw [releaseAsked_eq]

/-- The `Inst` in a new bid call (R123). -/
def callingInst (x : Inst) (call : CallId) : Inst :=
  { x with
    state := .calling, phase := some .bidding, call := some call, best := none, bidders := [], award := none, owners := []
    route := if x.code = .inbound then none else x.route, timers := { ReTimers.stopped with bid := some ⟨0, 150⟩ } }

/-- A new bid call (R123): the sequence value, the `Inst`, the broadcast, the count and the handover. -/
theorem startCall_eq {s : State} {i : Nat} {x : Inst} (h : s.inst? i = some x) : s.startCall i =
    (((({ s with re := { s.re with callSeq := s.nextSeq } }).setInst i (some (callingInst x ⟨s.pt.node, s.nextSeq⟩))).send .bidCall 63
      (encBidCall ⟨s.pt.node, s.nextSeq⟩ x.tramRec)).count (fun c => { c with bidCalls := bump c.bidCalls })).handYu
        (.bidCall ⟨s.pt.node, s.nextSeq⟩ x.tramRec) := by
  unfold State.startCall
  rw [h]
  rfl

theorem startCall_none {s : State} {i : Nat} (h : s.inst? i = none) : s.startCall i = s := by
  unfold State.startCall
  rw [h]

/-! ### What RE does to an `Inst` that has come to its end -/

theorem checkEnd_entered {s : State} {i : Nat} {x : Inst} (h : s.inst? i = some x) (hx : x.state = .entered) :
    s.checkEnd i = if x.allPassed = true then s.endInst i x .done else s := by
  unfold State.checkEnd
  rw [h]
  dsimp only
  rw [hx]

theorem checkEnd_halted {s : State} {i : Nat} {x : Inst} (h : s.inst? i = some x) (hx : x.state = .halted) :
    s.checkEnd i = if s.haltedEnds x = true then s.endDegraded i x true else s := by
  unfold State.checkEnd
  rw [h]
  dsimp only
  rw [hx]

/-- An `Inst` put into ENTERED stays, or ends DONE with its last step passed (R133). -/
theorem setInst_checkEnd_entered {s : State} {i : Nat} {x y : Inst} (h : s.inst? i = some x) (hy : y.state = .entered) :
    (s.setInst i (some y)).checkEnd i = if y.allPassed = true then s.endInst i y .done else s.setInst i (some y) := by
  rw [checkEnd_entered (setInst_inst?_self h _) hy, State.endInst, setInst_setInst]
  rfl

/-- An `Inst` put into HALTED stays, or ends DEGRADED where its end condition holds (R136). -/
theorem setInst_checkEnd_halted {s : State} {i : Nat} {x y : Inst} (h : s.inst? i = some x) (hy : y.state = .halted) :
    (s.setInst i (some y)).checkEnd i
      = if s.haltedEnds y = true then (s.setInst i (some y)).endDegraded i y true else s.setInst i (some y) := by
  rw [checkEnd_halted (setInst_inst?_self h _) hy, haltedEnds_congr (s := s) (t := s.setInst i (some y)) rfl]

theorem endDegraded_inst?_self (s : State) (i : Nat) (x : Inst) (spare : Bool) : (s.endDegraded i x spare).inst? i = none :=
  endInst_inst?_self _ i x _

theorem endDegraded_outcomes (s : State) (i : Nat) (x : Inst) (spare : Bool) :
    (s.endDegraded i x spare).rq = { s.rq with outcomes := s.rq.outcomes ++ [⟨i, x.slot, x.serial, .degraded⟩] } := by
  simp [endDegraded_eq]

/-! ### What an operation on one `Inst` leaves of another -/

/-- Number `i` of RE's table, and what RE's rules read beside it, are the same in `t` as in `s`; and nothing that RE has told RQ or commanded SU is taken
back. -/
structure Apart (i : Nat) (s t : State) : Prop where
  yard : t.yard = s.yard
  pt : t.pt = s.pt
  du : t.du = s.du
  inst : t.inst? i = s.inst? i
  outcomes : s.rq.outcomes <+: t.rq.outcomes
  commands : s.su.commands <+: t.su.commands

theorem Apart.refl (i : Nat) (s : State) : Apart i s s :=
  ⟨rfl, rfl, rfl, rfl, List.prefix_refl _, List.prefix_refl _⟩

theorem Apart.trans {i : Nat} {s t u : State} (h : Apart i s t) (g : Apart i t u) : Apart i s u :=
  ⟨g.yard.trans h.yard, g.pt.trans h.pt, g.du.trans h.du, g.inst.trans h.inst, h.outcomes.trans g.outcomes, h.commands.trans g.commands⟩

theorem Apart.forEach {α : Type} {i : Nat} {f : α → State → State} {l : List α} (h : ∀ a ∈ l, ∀ u, Apart i u (f a u)) (s : State) :
    Apart i s (forEach l f s) :=
  forEach_preserves (P := Apart i s) (fun a ha u hu => hu.trans (h a ha u)) (.refl i s)

/-- An operation that leaves RE's table, the outcomes and the commands of SU as they are leaves every `Inst`. -/
theorem Apart.of_eq {i : Nat} {s t : State} (yard : t.yard = s.yard) (pt : t.pt = s.pt) (du : t.du = s.du)
    (insts : t.re.insts = s.re.insts) (outcomes : t.rq.outcomes = s.rq.outcomes) (su : t.su = s.su) : Apart i s t :=
  ⟨yard, pt, du, inst?_of_insts insts i, outcomes ▸ List.prefix_refl _, su ▸ List.prefix_refl _⟩

theorem setInst_apart {i j : Nat} (h : j ≠ i) (s : State) (y : Option Inst) : Apart i s (s.setInst j y) :=
  ⟨rfl, rfl, rfl, setInst_inst?_ne h.symm s y, List.prefix_refl _, List.prefix_refl _⟩

theorem commandSu_apart (i : Nat) (s : State) (c : SuCommand) : Apart i s (s.commandSu c) :=
  ⟨rfl, rfl, rfl, rfl, List.prefix_refl _, List.prefix_append _ _⟩

theorem releaseTo_apart (i : Nat) (s : State) (key : RouteKey) (node : Nat) : Apart i s (s.releaseTo key node) :=
  .of_eq (by simp) (by simp) (by simp) (by simp) (by simp) (by simp)

theorem withdrawAward_apart (i : Nat) (s : State) (x : Inst) : Apart i s (s.withdrawAward x) :=
  .of_eq (by simp) (by simp) (by simp) (by simp) (by simp) (by simp)

theorem releaseAsked_apart (i : Nat) (s : State) (x : Inst) : Apart i s (s.releaseAsked x) :=
  .forEach (fun _ _ _ => releaseTo_apart i _ _ _) s

theorem countFailure_apart (i : Nat) (s : State) (slot : Nat) : Apart i s (s.countFailure slot) :=
  .of_eq (by simp) (by simp) (by simp) rfl rfl (by simp)

theorem endInst_apart {i j : Nat} (h : j ≠ i) (s : State) (x : Inst) (code : OutcomeCode) : Apart i s (s.endInst j x code) :=
  ⟨rfl, rfl, rfl, endInst_inst?_ne h.symm s x code, List.prefix_append _ _, List.prefix_refl _⟩

theorem endDegraded_apart {i j : Nat} (h : j ≠ i) (s : State) (x : Inst) (spare : Bool) : Apart i s (s.endDegraded j x spare) :=
  (Apart.forEach (fun _ _ _ => releaseTo_apart i _ _ _) s).trans (endInst_apart h _ x _)

theorem checkEnd_apart {i j : Nat} (h : j ≠ i) (s : State) : Apart i s (s.checkEnd j) := by
  unfold State.checkEnd
  split
  · rename_i x _
    split
    · split
      · exact endInst_apart h s x _
      · exact .refl i s
    · split
      · exact endDegraded_apart h s x _
      · exact .refl i s
    · exact .refl i s
  · exact .refl i s

theorem letGo_apart {i j : Nat} (h : j ≠ i) (s : State) (x : Inst) (code : OutcomeCode) : Apart i s (s.letGo j x code) :=
  ((releaseAsked_apart i s x).trans (withdrawAward_apart i _ x)).trans (endInst_apart h _ x code)

theorem enterCancelling_apart {i j : Nat} (h : j ≠ i) (s : State) (c : CancelCause) : Apart i s (s.enterCancelling j c) := by
  unfold State.enterCancelling
  split
  · dsimp only
    split
    · exact (commandSu_apart i s _).trans (letGo_apart h _ _ _)
    · exact (commandSu_apart i s _).trans (setInst_apart h _ _)
  · exact .refl i s

theorem enterBackoff_apart {i j : Nat} (h : j ≠ i) (s : State) : Apart i s (s.enterBackoff j) := by
  unfold State.enterBackoff
  split
  · exact setInst_apart h s _
  · exact .refl i s

theorem startCall_apart {i j : Nat} (h : j ≠ i) (s : State) : Apart i s (s.startCall j) := by
  cases hx : s.inst? j with
  | none =>
    rw [startCall_none hx]
    exact .refl i s
  | some x =>
    rw [startCall_eq hx]
    have numbered : Apart i s { s with re := { s.re with callSeq := s.nextSeq } } := .of_eq rfl rfl rfl rfl rfl rfl
    exact (numbered.trans (setInst_apart h _ (some (callingInst x ⟨s.pt.node, s.nextSeq⟩)))).trans
      (.of_eq (by simp) (by simp) (by simp) (by simp) (by simp) (by simp))

theorem failAttempt_apart {i j : Nat} (h : j ≠ i) (s : State) (cause : AttemptCause) : Apart i s (s.failAttempt j cause) := by
  unfold State.failAttempt
  split
  · rename_i x _
    have counted := (releaseAsked_apart i s x).trans (countFailure_apart i _ x.slot)
    have given := (counted.trans (withdrawAward_apart i _ x)).trans (setInst_apart h _ (some x.dropAward))
    dsimp only
    split
    · exact given.trans (startCall_apart h _)
    · exact given.trans (enterBackoff_apart h _)
    · exact counted.trans (enterBackoff_apart h _)
  · exact .refl i s

/-! ### A sweep over the instances -/

/-- In a sweep over distinct indices the operation on `i` meets `Inst` `i` as it stood, and what it makes of it stays. -/
theorem sweep_meets {i : Nat} {f : Nat → State → State} (apart : ∀ j u, j ≠ i → Apart i u (f j u)) {l : List Nat} (distinct : l.Nodup)
    (hi : i ∈ l) (s : State) : ∃ u, Apart i s u ∧ Apart i (f i u) (forEach l f s) :=
  forEach_reaches (P := Apart i s) (Q := fun t => ∃ u, Apart i s u ∧ Apart i (f i u) t)
    (fun j u hj hu => hu.trans (apart j u hj)) (fun u hu => ⟨u, hu, .refl i _⟩)
    (fun j t hj ⟨u, hu, ht⟩ => ⟨u, hu, ht.trans (apart j t hj)⟩) distinct hi (.refl i s)

/-- A sweep takes each `Inst` in use by the operation `act`. -/
def sweep (act : Nat → Inst → State → State) (s : State) : State :=
  forEach (List.range s.re.insts.length) (fun i u => match u.inst? i with
    | some x => act i x u
    | none => u) s

/-- In a sweep, an `Inst` in use is met as it stood by the operation on it, and what that operation makes of it stays. -/
theorem sweep_inst {act : Nat → Inst → State → State} {i : Nat} {s : State} {x : Inst} (hx : s.inst? i = some x)
    (apart : ∀ j y u, j ≠ i → Apart i u (act j y u)) : ∃ u, Apart i s u ∧ Apart i (act i x u) (sweep act s) := by
  have each : ∀ j u, j ≠ i → Apart i u (match u.inst? j with | some y => act j y u | none => u) := fun j u hj => by
    split
    · exact apart j _ u hj
    · exact .refl i u
  obtain ⟨u, before, after⟩ := sweep_meets each List.nodup_range (inst?_mem_range hx) s
  rw [before.inst, hx] at after
  exact ⟨u, before, after⟩

end Sys2Proof.Proofs
end

