-- ==== Sys2Proof/Proofs/Passing.lean ====
section
/-! PROOF. A route is entered, passed and ended (O46): section changes, PASSED, the run-through timer, cancelling, and lock reports. -/

namespace Sys2Proof.Proofs
open Sys2Proof.Machine Sys2Proof.Laws

/-! ### Passed flags (R133, R134) -/

/-- A flag after a count: it was set, or its step is counted now. -/
theorem markPassed_getElem? (p : Nat → RouteStep → Bool) {steps : List RouteStep} {flags : List Bool} {j : Nat} {st : RouteStep} {b : Bool}
    (hst : steps[j]? = some st) (hb : flags[j]? = some b) (k : Nat) :
    (markPassed p k steps flags)[j]? = some (b || p (k + j) st) := by
  induction steps generalizing flags j k with
  | nil => simp at hst
  | cons s ss ih =>
    cases flags with
    | nil => simp at hb
    | cons c cs =>
      cases j with
      | zero =>
        cases hst
        cases hb
        rfl
      | succ j =>
        have step := ih (j := j) (by simpa using hst) (by simpa using hb) (k + 1)
        rwa [show k + 1 + j = k + (j + 1) by omega] at step

/-- A count that accepts only steps already passed changes no flag. -/
theorem markPassed_same {p : Nat → RouteStep → Bool} {steps : List RouteStep} {flags : List Bool} {k : Nat}
    (h : ∀ j st b, steps[j]? = some st → flags[j]? = some b → p (k + j) st = true → b = true) : markPassed p k steps flags = flags := by
  induction steps generalizing flags k with
  | nil => cases flags <;> rfl
  | cons s ss ih =>
    cases flags with
    | nil => rfl
    | cons c cs =>
      have first : (c || p k s) = c := by
        cases hp : p k s with
        | false => simp
        | true => simp [h 0 s c rfl rfl hp]
      have later : markPassed p (k + 1) ss cs = cs := ih fun j st b hst hb hp =>
        h (j + 1) st b hst hb (by rwa [show k + (j + 1) = k + 1 + j by omega])
      rw [markPassed, first, later]

@[simp] theorem markPassed_length (p : Nat → RouteStep → Bool) (k : Nat) (steps : List RouteStep) (flags : List Bool) :
    (markPassed p k steps flags).length = flags.length := by
  induction steps generalizing flags k with
  | nil => cases flags <;> rfl
  | cons s ss ih =>
    cases flags with
    | nil => rfl
    | cons c cs => simp [markPassed, ih]

/-- PASSED of step `n + 1` sets the flag of that step alone (R133). -/
theorem markPassed_number {steps : List RouteStep} {flags : List Bool} {n : Nat} (h : flags.length = steps.length) :
    markPassed (fun k _ => k == n + 1) 1 steps flags = flags.set n true := by
  apply List.ext_getElem?
  intro j
  by_cases hj : j < flags.length
  · have hst : steps[j]? = some steps[j] := List.getElem?_eq_getElem (h ▸ hj)
    have hb : flags[j]? = some flags[j] := List.getElem?_eq_getElem hj
    rw [markPassed_getElem? _ hst hb, List.getElem?_set]
    by_cases hn : n = j
    · simp [hn, hj, Nat.add_comm]
    · have other : (1 + j == n + 1) = false := by simp; omega
      simp [hn, other, hb]
  · rw [List.getElem?_eq_none (by simpa using hj), List.getElem?_eq_none (by simpa using hj)]

/-! ### Counting steps passed (R133, R136) -/

/-- The `Inst` with new passed flags: a step newly passed starts the run-through timer again (R133). -/
def passedInst (x : Inst) (flags : List Bool) : Inst :=
  { x with passed := flags, timers := { x.timers with runThrough := some ⟨0, 300000⟩ } }

theorem countPassed_same {s : State} {x : Inst} {p : Nat → RouteStep → Bool} (h : markPassed p 1 (s.routeSteps x) x.passed = x.passed)
    (i : Nat) : s.countPassed i x p = s :=
  if_pos h

theorem countPassed_new {s : State} {x : Inst} {p : Nat → RouteStep → Bool} {flags : List Bool}
    (hf : markPassed p 1 (s.routeSteps x) x.passed = flags) (h : flags ≠ x.passed) (i : Nat) :
    s.countPassed i x p = (s.setInst i (some (passedInst x flags))).checkEnd i := by
  subst hf
  exact if_neg h

theorem countPassed_apart {i j : Nat} (h : j ≠ i) (s : State) (x : Inst) (p : Nat → RouteStep → Bool) :
    Apart i s (s.countPassed j x p) := by
  by_cases hf : markPassed p 1 (s.routeSteps x) x.passed = x.passed
  · rw [countPassed_same hf]
    exact .refl i s
  · rw [countPassed_new rfl hf]
    exact (setInst_apart h s _).trans (checkEnd_apart h _)

/-! ### Entering (R131, R132, R139) -/

/-- The `Inst` as it is entered (R133). -/
def enteredInst (x : Inst) : Inst :=
  { x with
    state := .entered, cause := none, claimLost := false, timers := { ReTimers.stopped with runThrough := some ⟨0, 300000⟩ } }

/-- A route is entered, and ends at once where every step has passed already (log entry 27). -/
theorem enterEntered_eq {s : State} {i : Nat} {x : Inst} (h : s.inst? i = some x) :
    s.enterEntered i = if x.allPassed = true then s.endInst i (enteredInst x) .done else s.setInst i (some (enteredInst x)) := by
  unfold State.enterEntered
  rw [modInst_eq h]
  exact setInst_checkEnd_entered h rfl

theorem enterEntered_apart {i j : Nat} (h : j ≠ i) (s : State) : Apart i s (s.enterEntered j) := by
  have changed : Apart i s (s.modInst j enteredInst) := by
    cases hx : s.inst? j with
    | some x =>
      rw [modInst_eq hx]
      exact setInst_apart h s _
    | none => exact ⟨rfl, rfl, rfl, inst?_congr (List.getElem?_modify_ne _ _ h), List.prefix_refl _, List.prefix_refl _⟩
  exact changed.trans (checkEnd_apart h _)

theorem trampedFirst_apart {i j : Nat} (h : j ≠ i) (s : State) (x : Inst) : Apart i s (s.trampedFirst j x) := by
  unfold State.trampedFirst
  split
  · exact (commandSu_apart i s _).trans (enterEntered_apart h _)
  · exact (commandSu_apart i s _).trans (enterEntered_apart h _)
  · exact enterEntered_apart h s
  · exact .refl i s

/-- The tram treads on the first section of a cleared route: STOP, and the route is entered (R131, R132). -/
theorem trampedFirst_cleared {x : Inst} (hx : x.state = .clearing ∨ x.state = .clear) (s : State) (i : Nat) :
    s.trampedFirst i x = (s.commandSu (.stop x.signal)).enterEntered i := by
  unfold State.trampedFirst
  rcases hx with hx | hx <;> rw [hx]

theorem trampedFirst_cancelling {x : Inst} (hx : x.state = .cancelling) (s : State) (i : Nat) :
    s.trampedFirst i x = s.enterEntered i := by
  unfold State.trampedFirst
  rw [hx]

theorem trampedFirst_other {x : Inst} (h1 : x.state ≠ .clearing) (h2 : x.state ≠ .clear) (h3 : x.state ≠ .cancelling) (s : State) (i : Nat) :
    s.trampedFirst i x = s := by
  unfold State.trampedFirst
  split
  · exact absurd ‹_› h1
  · exact absurd ‹_› h2
  · exact absurd ‹_› h3
  · rfl

/-- What a route that may be entered becomes when its first section leaves CLEAR. -/
theorem trampedFirst_enters {s : State} {i : Nat} {x : Inst} (h : s.inst? i = some x)
    (hx : x.state = .clearing ∨ x.state = .clear ∨ x.state = .cancelling) :
    (x.allPassed = false → (s.trampedFirst i x).inst? i = some (enteredInst x))
    ∧ (x.allPassed = true → (s.trampedFirst i x).inst? i = none
        ∧ (s.trampedFirst i x).rq.outcomes = s.rq.outcomes ++ [⟨i, x.slot, x.serial, .done⟩]) := by
  have entered : ∀ u : State, u.inst? i = some x → u.rq = s.rq → (x.allPassed = false → (u.enterEntered i).inst? i = some (enteredInst x))
      ∧ (x.allPassed = true → (u.enterEntered i).inst? i = none
          ∧ (u.enterEntered i).rq.outcomes = s.rq.outcomes ++ [⟨i, x.slot, x.serial, .done⟩]) := by
    intro u hu hrq
    rw [enterEntered_eq hu]
    constructor
    · intro hp
      rw [hp, if_neg Bool.false_ne_true]
      exact setInst_inst?_self hu _
    · intro hp
      rw [if_pos hp]
      exact ⟨endInst_inst?_self u i _ _, by rw [endInst_outcomes, hrq]; rfl⟩
  rcases hx with hx | hx | hx
  · rw [trampedFirst_cleared (.inl hx)]
    exact entered _ h rfl
  · rw [trampedFirst_cleared (.inr hx)]
    exact entered _ h rfl
  · rw [trampedFirst_cancelling hx]
    exact entered s h rfl

/-- What RE does with a section that leaves CLEAR, for one `Inst` (R131, R132, R139). -/
def leavesClear (k : Nat) (i : Nat) (x : Inst) (s : State) : State :=
  if s.firstSect x = some k then s.trampedFirst i x else s

theorem leavesClear_apart (k : Nat) {i j : Nat} (h : j ≠ i) (x : Inst) (s : State) : Apart i s (leavesClear k j x s) := by
  unfold leavesClear
  split
  · exact trampedFirst_apart h s x
  · exact .refl i s

theorem reNotice_leavesClear {n : SectNotice} (h : n.before = .clear ∧ n.after ≠ .clear) (s : State) :
    s.reNotice n = sweep (leavesClear n.sect) s :=
  if_pos h

theorem exec_reSectionChange {s : State} {k : Nat} {n : SectNotice} {rest : List SectNotice}
    (h : takeFirst (fun x => x.sect == k) s.re.notices = some (n, rest)) :
    exec (.reSectionChange k) s = .next ({ s with re := { s.re with notices := rest } }.reNotice n) := by
  unfold exec execReSectionChange
  dsimp only
  rw [h]

/-- What RE_SECTION_CHANGE does to the instances whose first section leaves CLEAR, and to the others. -/
theorem sectionChangeEntersRoutes (s : State) (k : Nat) (n : SectNotice) (rest : List SectNotice)
    (h : takeFirst (fun x => x.sect == k) s.re.notices = some (n, rest)) :
    ∃ t : State, exec (.reSectionChange k) s = .next t
      ∧ (n.before ≠ .clear ∨ n.after = .clear → t = { s with re := { s.re with notices := rest } })
      ∧ (∀ i x, n.before = .clear → n.after ≠ .clear → s.inst? i = some x →
          (s.firstSect x ≠ some n.sect → t.inst? i = some x)
          ∧ (s.firstSect x = some n.sect → x.state = .clearing ∨ x.state = .clear → .stop x.signal ∈ t.su.commands)
          ∧ (s.firstSect x = some n.sect → x.state = .clearing ∨ x.state = .clear ∨ x.state = .cancelling →
              (x.allPassed = false → t.inst? i = some (enteredInst x))
              ∧ (x.allPassed = true → t.inst? i = none ∧ ⟨i, x.slot, x.serial, .done⟩ ∈ t.rq.outcomes))
          ∧ (x.state ≠ .clearing → x.state ≠ .clear → x.state ≠ .cancelling → t.inst? i = some x)) := by
  refine ⟨_, exec_reSectionChange h, fun other => ?_, fun i x before after hx => ?_⟩
  · exact if_neg fun ⟨hb, ha⟩ => other.elim (fun f => f hb) ha
  · rw [reNotice_leavesClear ⟨before, after⟩]
    obtain ⟨u, met, left⟩ := sweep_inst (s := { s with re := { s.re with notices := rest } }) hx
      (fun _ y v hj => leavesClear_apart n.sect hj y v)
    have hu : u.inst? i = some x := met.inst.trans hx
    have sect : u.firstSect x = s.firstSect x := firstSect_congr met.yard x
    have tread : s.firstSect x = some n.sect → leavesClear n.sect i x u = u.trampedFirst i x := fun hs => if_pos (sect.trans hs)
    refine ⟨fun hs => ?_, fun hs hst => ?_, fun hs hst => ⟨fun hp => ?_, fun hp => ?_⟩, fun h1 h2 h3 => ?_⟩
    · rw [left.inst, leavesClear, sect, if_neg hs, hu]
    · apply left.commands.subset
      rw [tread hs, trampedFirst_cleared hst]
      simp
    · rw [left.inst, tread hs]
      exact (trampedFirst_enters hu hst).1 hp
    · obtain ⟨gone, told⟩ := (trampedFirst_enters hu hst).2 hp
      refine ⟨by rw [left.inst, tread hs, gone], left.outcomes.subset ?_⟩
      rw [tread hs, told]
      simp
    · rw [left.inst, leavesClear, trampedFirst_other h1 h2 h3, ite_self, hu]

/-! ### PASSED (R133, R136, R140) -/

/-- A reply but GRANT reaches the `Inst` that its key names, in a mode other than ISOLATED (R140, R141). -/
theorem takeReply_passed {s : State} {key : RouteKey} {i : Nat} {x : Inst} (mode : s.pt.mode ≠ .isolated)
    (keyed : s.instWithKey key = some i) (hx : s.inst? i = some x) (number : Nat) (rx : Option RxRec) :
    s.takeReply (.passed key number) rx = s.takePassed i x number rx := by
  simp only [State.takeReply, if_neg mode, ReMsg.key, keyed, hx]

/-- A PASSED that no step of its source answers to is stale (R140). -/
theorem takePassed_stale {s : State} {x : Inst} {number : Nat} {rx : Option RxRec} (own : s.stepOf x number (s.replySource rx) = false)
    (i : Nat) : s.takePassed i x number rx = s.stale := by
  unfold State.takePassed
  rw [own]
  rfl

/-- A PASSED from the owner of its step, state by state (R132, R133, R136, R140). -/
theorem takePassed_own {s : State} {x : Inst} {number : Nat} {rx : Option RxRec} (own : s.stepOf x number (s.replySource rx) = true) (i : Nat) :
    s.takePassed i x number rx = match x.state with
      | .clear => s.setInst i (some { x with passed := x.passed.set (number - 1) true })
      | .entered | .halted => s.countPassed i x (fun k _ => k == number)
      | _ => s.stale :=
  if_pos own

theorem stepOf_pos {s : State} {x : Inst} {number node : Nat} (h : s.stepOf x number node = true) : 0 < number := by
  unfold State.stepOf at h
  simp only [Bool.and_eq_true, bne_iff_ne] at h
  omega

/-- The flags after PASSED of a step not passed yet: its flag is set, and that is a change. -/
theorem passed_flags {steps : List RouteStep} {flags : List Bool} {number : Nat} (pos : 0 < number) (hb : flags[number - 1]? = some false)
    (len : flags.length = steps.length) : markPassed (fun k _ => k == number) 1 steps flags = flags.set (number - 1) true
      ∧ flags.set (number - 1) true ≠ flags := by
  obtain ⟨n, rfl⟩ : ∃ n, number = n + 1 := ⟨number - 1, by omega⟩
  simp only [Nat.add_sub_cancel] at hb ⊢
  refine ⟨markPassed_number len, fun same => ?_⟩
  have hn : n < flags.length := (List.getElem?_eq_some_iff.mp hb).1
  have set : (flags.set n true)[n]? = some true := List.getElem?_set_self hn
  rw [same] at set
  exact absurd (hb.symm.trans set) (by simp)

/-- PASSED of a step that has passed already changes nothing. -/
theorem countPassed_again {s : State} {x : Inst} {number : Nat} (pos : 0 < number) (hb : x.passed[number - 1]? = some true) (i : Nat) :
    s.countPassed i x (fun k _ => k == number) = s := by
  refine countPassed_same (markPassed_same fun j st b _ hj hk => ?_) i
  have at_ : j = number - 1 := by
    simp only [beq_iff_eq] at hk
    omega
  rw [at_, hb] at hj
  exact (Option.some.inj hj).symm

theorem passedReachesItsStep (s : State) (key : RouteKey) (rx : Option RxRec) (i number : Nat) (x : Inst) (mode : s.pt.mode ≠ .isolated)
    (keyed : s.instWithKey key = some i) (hx : s.inst? i = some x) (own : s.stepOf x number (s.replySource rx) = true) :
    (x.state = .clear → s.takeReply (.passed key number) rx = s.setInst i (some { x with passed := x.passed.set (number - 1) true }))
    ∧ (x.state = .entered → x.passed[number - 1]? = some false → x.passed.length = (s.routeSteps x).length →
        let flags := x.passed.set (number - 1) true
        (flags.all (fun p => p) = false → s.takeReply (.passed key number) rx = s.setInst i (some (passedInst x flags)))
        ∧ (flags.all (fun p => p) = true → (s.takeReply (.passed key number) rx).inst? i = none
            ∧ (s.takeReply (.passed key number) rx).rq.outcomes = s.rq.outcomes ++ [⟨i, x.slot, x.serial, .done⟩]))
    ∧ (x.state = .halted → x.passed[number - 1]? = some false → x.passed.length = (s.routeSteps x).length →
        let now := passedInst x (x.passed.set (number - 1) true)
        (s.haltedEnds now = false → s.takeReply (.passed key number) rx = s.setInst i (some now))
        ∧ (s.haltedEnds now = true → s.takeReply (.passed key number) rx
            = (forEach (x.owners.filter (fun o => hasUnpassed o.node (s.routeSteps x) now.passed && !o.changed))
                (fun o u => u.releaseTo (s.keyOf x) o.node) (s.setInst i (some now))).endInst i now .degraded))
    ∧ (x.state = .entered ∨ x.state = .halted → x.passed[number - 1]? = some true → s.takeReply (.passed key number) rx = s)
    ∧ (x.state ≠ .clear → x.state ≠ .entered → x.state ≠ .halted → s.takeReply (.passed key number) rx
        = s.count (fun c => { c with staleReplies := bump c.staleReplies })) := by
  have pos := stepOf_pos own
  rw [takeReply_passed mode keyed hx, takePassed_own own]
  refine ⟨fun hst => ?_, fun hst hb len => ?_, fun hst hb len => ?_, fun hst hb => ?_, fun h1 h2 h3 => ?_⟩
  · rw [hst]
  · obtain ⟨marked, new⟩ := passed_flags pos hb len
    rw [hst]
    dsimp only
    rw [countPassed_new marked new, setInst_checkEnd_entered hx (y := passedInst x _) hst]
    exact ⟨fun ends => if_neg (by rw [show (passedInst x _).allPassed = _ from ends]; decide),
      fun ends => by rw [if_pos (show (passedInst x _).allPassed = true from ends)]; exact ⟨endInst_inst?_self s i _ _, rfl⟩⟩
  · obtain ⟨marked, new⟩ := passed_flags pos hb len
    rw [hst]
    dsimp only
    rw [countPassed_new marked new, setInst_checkEnd_halted hx (y := passedInst x _) hst]
    refine ⟨fun ends => by rw [ends, if_neg Bool.false_ne_true], fun ends => ?_⟩
    rw [if_pos ends, endDegraded_eq]
    simp only [Bool.true_and]
    rfl
  · rcases hst with hst | hst <;> rw [hst] <;> exact countPassed_again pos hb i
  · split
    · exact absurd ‹_› h1
    · exact absurd ‹_› h2
    · exact absurd ‹_› h3
    · rfl

theorem exec_runThroughExpiry {s : State} {i : Nat} {x : Inst} (hx : s.inst? i = some x) (h : due x.timers.runThrough = true) :
    exec (.runThroughExpiry i) s = .next (s.endDegraded i x false) := by
  unfold exec execRunThroughExpiry
  dsimp only
  rw [hx]
  exact if_pos h

theorem routeIsEnteredAndPassed : Clause.RouteIsEnteredAndPassed := by
  refine ⟨fun s k n rest h => sectionChangeEntersRoutes s k n rest h,
    fun s key rx i number x mode keyed hx own => passedReachesItsStep s key rx i number x mode keyed hx own,
    fun s key rx i number x mode keyed hx own => ?_, fun s i x hx h => ?_⟩
  · rw [takeReply_passed mode keyed hx]
    exact takePassed_stale own i
  · refine ⟨_, exec_runThroughExpiry hx h, endDegraded_inst?_self s i x false, endDegraded_outcomes s i x false, ?_⟩
    rw [endDegraded_eq]
    simp only [Bool.false_and, Bool.not_false, Bool.and_true]

/-! ### Cancelling (R132, R138, R139) -/

theorem letGo_ends (s : State) (i : Nat) (x : Inst) (code : OutcomeCode) : (s.letGo i x code).inst? i = none
    ∧ (s.letGo i x code).rq.outcomes = s.rq.outcomes ++ [⟨i, x.slot, x.serial, code⟩] := by
  refine ⟨endInst_inst?_self _ i x code, ?_⟩
  simp [State.letGo]

/-- STOP is commanded; with the approach section CLEAR the route is let go at once, otherwise its release delay runs (R139). -/
theorem enterCancelling_eq {s : State} {i : Nat} {x : Inst} (hx : s.inst? i = some x) (c : CancelCause) :
    s.enterCancelling i c = if s.approachClear x.signal = true then (s.commandSu (.stop x.signal)).letGo i x c.outcome
      else (s.commandSu (.stop x.signal)).setInst i (some { x with
        state := .cancelling, cause := some c, timers := { ReTimers.stopped with delay := some ⟨0, s.releaseDelay x⟩ } }) := by
  unfold State.enterCancelling
  rw [hx]
  rfl

theorem exec_cancelInstance {s : State} {i : Nat} {m : CancelMsg} {rest : List CancelMsg}
    (h : takeFirst (fun m : CancelMsg => m.inst == i) s.re.cancels = some (m, rest)) :
    exec (.cancelInstance i) s = .next ({ s with re := { s.re with cancels := rest } }.takeCancel m) := by
  unfold exec execCancelInstance
  dsimp only
  rw [h]

/-- A cancel for another request than the one that the `Inst` serves finds nothing (log entry 24). -/
theorem takeCancel_other {s : State} {m : CancelMsg} {x : Inst} (hx : s.inst? m.inst = some x)
    (h : x.slot ≠ m.slot ∨ x.serial ≠ m.serial) : s.takeCancel m = s := by
  unfold State.takeCancel
  rw [hx]
  exact if_neg fun ⟨h1, h2⟩ => h.elim (fun f => f h1) (fun f => f h2)

/-- A cancel of the request that the `Inst` serves, by its state (R138). -/
theorem takeCancel_served {s : State} {m : CancelMsg} {x : Inst} (hx : s.inst? m.inst = some x) (h1 : x.slot = m.slot)
    (h2 : x.serial = m.serial) : s.takeCancel m = match x.state with
      | .calling | .backoff => (s.withdrawAward x).endInst m.inst x m.cause.cause.outcome
      | .claiming | .setting => s.letGo m.inst x m.cause.cause.outcome
      | .clearing | .clear => s.enterCancelling m.inst m.cause.cause
      | .entered | .halted | .cancelling => s := by
  unfold State.takeCancel
  rw [hx]
  exact if_pos ⟨h1, h2⟩

theorem cancellingARoute : Clause.CancellingARoute := by
  intro s i x hx
  refine ⟨fun m rest first hm => ?_, fun h => ?_, fun c h hc => ?_, fun c clear => ?_, fun c rc away hrc => ?_,
    fun code => letGo_eq s i x code, fun code => letGo_ends s i x code⟩
  · subst hm
    have hx' : ({ s with re := { s.re with cancels := rest } } : State).inst? m.inst = some x := hx
    rw [exec_cancelInstance first]
    refine ⟨fun other => by rw [takeCancel_other hx' other], fun h1 h2 => ?_⟩
    rw [takeCancel_served hx' h1 h2]
    refine ⟨?_, ?_, ?_, ?_⟩
    · rintro (hst | hst) <;> rw [hst]
    · rintro (hst | hst) <;> rw [hst]
    · rintro (hst | hst) <;> rw [hst]
    · rintro (hst | hst | hst) <;> rw [hst]
  · unfold exec execApproachTimerExpiry
    dsimp only
    rw [hx]
    exact if_pos h
  · unfold exec execReleaseDelayExpiry
    dsimp only
    rw [hx]
    dsimp only
    rw [h, hc]
  · rw [enterCancelling_eq hx, if_pos clear]
  · rw [enterCancelling_eq hx, away, if_neg Bool.false_ne_true, State.releaseDelay, hrc]

/-! ### Lock reports (R70, R134) -/

/-- The steps that a lock report of `peer` shows unlocked. -/
def unlockedBy (peer : Nat) (map : BitVec 16) (st : RouteStep) : Bool :=
  st.owner == peer && !lockedIn map st.sect

/-- What a lock report does to one `Inst` (R134). -/
def reportToInst (peer : Nat) (epoch : Epoch) (at_ : Time) (map : BitVec 16) (i : Nat) (x : Inst) (s : State) : State :=
  if (x.state = .entered ∨ x.state = .halted) ∧ (x.owner? peer).any (fun o => o.reportCounts epoch at_) = true then
    s.countPassed i x (fun _ st => unlockedBy peer map st)
  else s

theorem takeLockReport_eq (s : State) (peer : Nat) (epoch : Epoch) (at_ : Time) (map : BitVec 16) :
    s.takeLockReport peer epoch at_ map = sweep (reportToInst peer epoch at_ map) s := rfl

theorem reportToInst_apart (peer : Nat) (epoch : Epoch) (at_ : Time) (map : BitVec 16) {i j : Nat} (h : j ≠ i) (x : Inst) (s : State) :
    Apart i s (reportToInst peer epoch at_ map j x s) := by
  unfold reportToInst
  split
  · exact countPassed_apart h s x _
  · exact .refl i s

/-- Which owners a lock report counts for (R134). -/
theorem any_reportCounts_iff (o? : Option OwnerEntry) (epoch : Epoch) (at_ : Time) :
    o?.any (fun o => o.reportCounts epoch at_) = true ↔ ∃ o t0, o? = some o ∧ o.epoch = some epoch ∧ o.changed = false
      ∧ o.setDoneTime = some t0 ∧ at_ ≠ t0 ∧ reached at_ t0 = true := by
  simp only [Option.any_eq_true, OwnerEntry.reportCounts, later, Bool.and_eq_true, beq_iff_eq, Bool.not_eq_true', bne_iff_ne]
  constructor
  · rintro ⟨o, ho, ⟨epoch, same⟩, t0, set, later⟩
    exact ⟨o, t0, ho, epoch, same, set, later⟩
  · rintro ⟨o, t0, ho, epoch, same, set, later⟩
    exact ⟨o, ho, ⟨epoch, same⟩, t0, set, later⟩

theorem lockReportsCount : Clause.LockReportsCount := by
  intro s peer epoch at_ map i x hx
  dsimp only
  rw [← any_reportCounts_iff, takeLockReport_eq]
  obtain ⟨u, met, left⟩ := sweep_inst hx fun _ y v hj => reportToInst_apart peer epoch at_ map hj y v
  have hu : u.inst? i = some x := met.inst.trans hx
  have steps : u.routeSteps x = s.routeSteps x := routeSteps_congr met.yard x
  generalize hf : markPassed (fun _ st => st.owner == peer && !lockedIn map st.sect) 1 (s.routeSteps x) x.passed = flags
  have marked : markPassed (fun _ st => unlockedBy peer map st) 1 (u.routeSteps x) x.passed = flags := steps ▸ hf
  have counted : ∀ _ : (x.state = .entered ∨ x.state = .halted) ∧ (x.owner? peer).any (fun o => o.reportCounts epoch at_) = true,
      flags ≠ x.passed → reportToInst peer epoch at_ map i x u = (u.setInst i (some (passedInst x flags))).checkEnd i :=
    fun counts new => (if_pos counts).trans (countPassed_new marked new i)
  refine ⟨fun k st b hst hb => ?_, fun idle => ?_, fun counts new hst => ⟨fun ends => ?_, fun ends => ?_⟩,
    fun counts new hst => ⟨fun ends => ?_, fun ends => ?_⟩⟩
  · exact hf ▸ markPassed_getElem? _ hst hb 1
  · rw [left.inst, reportToInst]
    split
    · rename_i counts
      rw [countPassed_same (marked.trans (idle.resolve_left (not_not_intro counts))), hu]
    · exact hu
  · rw [left.inst, counted counts new, setInst_checkEnd_entered hu (y := passedInst x flags) hst,
      show (passedInst x flags).allPassed = false from ends, if_neg Bool.false_ne_true, setInst_inst?_self hu]
    rfl
  · have done : reportToInst peer epoch at_ map i x u = u.endInst i (passedInst x flags) .done := by
      rw [counted counts new, setInst_checkEnd_entered hu (y := passedInst x flags) hst]
      exact if_pos ends
    refine ⟨by rw [left.inst, done, endInst_inst?_self], left.outcomes.subset ?_⟩
    rw [done, endInst_outcomes]
    exact List.mem_append_right _ List.mem_cons_self
  · have stays : u.haltedEnds (passedInst x flags) = false := (haltedEnds_congr met.yard _).trans ends
    rw [left.inst, counted counts new, setInst_checkEnd_halted hu (y := passedInst x flags) hst, stays, if_neg Bool.false_ne_true,
      setInst_inst?_self hu]
    rfl
  · have finished : u.haltedEnds (passedInst x flags) = true := (haltedEnds_congr met.yard _).trans ends
    have degraded : reportToInst peer epoch at_ map i x u
        = (u.setInst i (some (passedInst x flags))).endDegraded i (passedInst x flags) true := by
      rw [counted counts new, setInst_checkEnd_halted hu (y := passedInst x flags) hst, if_pos finished]
    refine ⟨by rw [left.inst, degraded, endDegraded_inst?_self], left.outcomes.subset ?_⟩
    rw [degraded, endDegraded_outcomes]
    exact List.mem_append_right _ List.mem_cons_self

/-- Settles O46. -/
theorem passingAndCancelling : Obligations.PassingAndCancelling :=
  ⟨routeIsEnteredAndPassed, cancellingARoute, lockReportsCount⟩

end Sys2Proof.Proofs
end

