-- ==== Sys2Proof/Proofs/Losses.lean ====
section
/-! PROOF. What halts and ends a route (O47): lost claims, lost and returned owners, and isolation. -/

namespace Sys2Proof.Proofs
open Sys2Proof.Machine Sys2Proof.Laws

/-! ### CLAIM-LOST (R131, R132, R136) -/

theorem takeReply_claimLost {s : State} {key : RouteKey} {i : Nat} {x : Inst} (mode : s.pt.mode ≠ .isolated)
    (keyed : s.instWithKey key = some i) (hx : s.inst? i = some x) (cause : LostCause) (p : Option Nat) (rx : Option RxRec) :
    s.takeReply (.claimLost key cause p) rx = s.takeClaimLost i x rx := by
  simp only [State.takeReply, if_neg mode, ReMsg.key, keyed, hx]

theorem claimLostHaltsRoutes : Clause.ClaimLostHaltsRoutes := by
  intro s key rx i x mode keyed hx asked cause p
  rw [takeReply_claimLost mode keyed hx, State.takeClaimLost]
  constructor
  · rintro (hst | hst) <;> rw [hst] <;> exact if_pos asked
  · rintro (hst | hst) <;> rw [hst] <;>
      exact (if_pos asked).trans (setInst_checkEnd_halted hx (y := { x with state := .halted, claimLost := true }) rfl)

/-! ### The end of a halted route (R136) -/

theorem hasUnpassed_iff (node : Nat) (steps : List RouteStep) (flags : List Bool) : hasUnpassed node steps flags = true ↔
    ∃ (j : Nat) (st : RouteStep), steps[j]? = some st ∧ st.owner = node ∧ flags[j]? = some false := by
  induction steps generalizing flags with
  | nil => simp [hasUnpassed]
  | cons s ss ih =>
    cases flags with
    | nil => simp [hasUnpassed]
    | cons b bs =>
      rw [hasUnpassed, Bool.or_eq_true, ih]
      constructor
      · rintro (first | ⟨j, st, hst, own, flag⟩)
        · exact ⟨0, s, rfl, by simpa using first⟩
        · exact ⟨j + 1, st, hst, own, flag⟩
      · rintro ⟨j, st, hst, own, flag⟩
        cases j with
        | zero =>
          cases hst
          exact .inl (by simpa [own] using flag)
        | succ j => exact .inr ⟨j, st, hst, own, flag⟩

theorem haltedRoutesEnd : Clause.HaltedRoutesEnd := by
  intro s i x
  refine ⟨fun node => hasUnpassed_iff node _ _, ?_, ?_⟩
  · simp [State.haltedEnds]
  · rw [endDegraded_eq]
    simp only [Bool.true_and]

/-! ### A lost owner (R129 to R132, R136) -/

/-- The `Inst` that a lost owner halts: its entry is marked, for good where its epoch has changed (R136). -/
def haltedBy (peer : Nat) (changed : Bool) (x : Inst) : Inst :=
  { x with state := .halted, owners := x.owners.map (fun o =>
      if o.node = peer then { o with lost := true, changed := o.changed || changed } else o) }

section OwnerGone

variable {s : State} {peer : Nat} {e : Epoch} {changed : Bool} {i : Nat} {x : Inst} {o : OwnerEntry}

theorem ownerGone_noOwner (h : x.owner? peer = none) : s.ownerGone peer e changed i x = s := by
  unfold State.ownerGone
  rw [h]

/-- A lost owner, by the state of the `Inst`. -/
theorem ownerGone_owner (h : x.owner? peer = some o) : s.ownerGone peer e changed i x = match x.state with
    | .claiming | .setting => if o.asked && o.epoch.all (fun f => f == e) then s.failAttempt i .other else s
    | .clearing | .clear => if o.epoch = some e then s.enterCancelling i .halt else s
    | .entered | .halted => if o.epoch = some e ∧ hasUnpassed peer (s.routeSteps x) x.passed = true
        then (s.setInst i (some (haltedBy peer changed x))).checkEnd i else s
    | .calling | .backoff | .cancelling => s := by
  unfold State.ownerGone
  rw [h]
  rfl

theorem ownerGone_asking (h : x.owner? peer = some o) (hst : x.state = .claiming ∨ x.state = .setting) :
    s.ownerGone peer e changed i x = if o.asked && o.epoch.all (fun f => f == e) then s.failAttempt i .other else s := by
  rw [ownerGone_owner h]
  rcases hst with hst | hst <;> rw [hst]

theorem ownerGone_cleared (h : x.owner? peer = some o) (hst : x.state = .clearing ∨ x.state = .clear) :
    s.ownerGone peer e changed i x = if o.epoch = some e then s.enterCancelling i .halt else s := by
  rw [ownerGone_owner h]
  rcases hst with hst | hst <;> rw [hst]

theorem ownerGone_entered (h : x.owner? peer = some o) (hst : x.state = .entered ∨ x.state = .halted) :
    s.ownerGone peer e changed i x = if o.epoch = some e ∧ hasUnpassed peer (s.routeSteps x) x.passed = true
      then (s.setInst i (some (haltedBy peer changed x))).checkEnd i else s := by
  rw [ownerGone_owner h]
  rcases hst with hst | hst <;> rw [hst]

theorem ownerGone_idle (h : x.owner? peer = some o) (hst : x.state = .calling ∨ x.state = .backoff ∨ x.state = .cancelling) :
    s.ownerGone peer e changed i x = s := by
  rw [ownerGone_owner h]
  rcases hst with hst | hst | hst <;> rw [hst]

end OwnerGone

theorem epoch_all_iff (epoch : Option Epoch) (e : Epoch) :
    epoch.all (fun f => f == e) = true ↔ epoch = none ∨ epoch = some e := by
  cases epoch <;> simp

theorem lostOwnerHaltsARoute : Clause.LostOwnerHaltsARoute := by
  intro s peer e changed i x hx
  refine ⟨ownerGone_noOwner, fun o ho => ⟨fun hst => ⟨fun asked held => ?_, fun spared => ?_⟩, fun hst held => ?_,
    fun hst held => ⟨fun passed => ?_, fun unpassed => ?_⟩, fun hst => ownerGone_idle ho hst, fun other h1 h2 => ?_⟩⟩
  · rw [ownerGone_asking ho hst, asked, (epoch_all_iff o.epoch e).mpr held]
    rfl
  · rw [ownerGone_asking ho hst]
    apply if_neg
    rw [Bool.and_eq_true, epoch_all_iff]
    rintro ⟨asked, held⟩
    rcases spared with unasked | ⟨e', newer, differs⟩
    · exact absurd (asked.symm.trans unasked) (by decide)
    · rcases held with none | same
      · exact absurd (none.symm.trans newer) (by simp)
      · exact differs (Option.some.inj (newer.symm.trans same))
  · rw [ownerGone_cleared ho hst, if_pos held]
  · rw [ownerGone_entered ho hst, passed]
    exact if_neg fun h => absurd h.2 Bool.false_ne_true
  · rw [ownerGone_entered ho hst, if_pos ⟨held, unpassed⟩]
    exact setInst_checkEnd_halted hx rfl
  · cases hst : x.state with
    | claiming => exact absurd hst h1
    | setting => exact absurd hst h2
    | clearing => exact (ownerGone_cleared ho (.inl hst)).trans (if_neg other)
    | clear => exact (ownerGone_cleared ho (.inr hst)).trans (if_neg other)
    | entered => exact (ownerGone_entered ho (.inl hst)).trans (if_neg fun h => other h.1)
    | halted => exact (ownerGone_entered ho (.inr hst)).trans (if_neg fun h => other h.1)
    | calling => exact ownerGone_idle ho (.inl hst)
    | backoff => exact ownerGone_idle ho (.inr (.inl hst))
    | cancelling => exact ownerGone_idle ho (.inr (.inr hst))

/-! ### A lost owner, on every `Inst` (R69) -/

theorem ownerGone_apart {i j : Nat} (h : j ≠ i) (s : State) (peer : Nat) (e : Epoch) (changed : Bool) (x : Inst) :
    Apart i s (s.ownerGone peer e changed j x) := by
  unfold State.ownerGone
  split
  · split
    · split
      · exact failAttempt_apart h s _
      · exact .refl i s
    · split
      · exact failAttempt_apart h s _
      · exact .refl i s
    · split
      · exact enterCancelling_apart h s _
      · exact .refl i s
    · split
      · exact enterCancelling_apart h s _
      · exact .refl i s
    · split
      · exact (setInst_apart h s _).trans (checkEnd_apart h _)
      · exact .refl i s
    · split
      · exact (setInst_apart h s _).trans (checkEnd_apart h _)
      · exact .refl i s
    all_goals exact .refl i s
  · exact .refl i s

/-- What becomes of an `Inst` that is cancelled is told by the `Inst` and by what stands apart from the others. -/
theorem enterCancelling_inst? {i : Nat} {s u : State} (met : Apart i s u) {x : Inst} (hx : s.inst? i = some x) (c : CancelCause) :
    (u.enterCancelling i c).inst? i = (s.enterCancelling i c).inst? i := by
  have hu : u.inst? i = some x := met.inst.trans hx
  have delay : u.releaseDelay x = s.releaseDelay x := by
    unfold State.releaseDelay
    rw [routeOf_congr met.yard]
  rw [enterCancelling_eq hu, enterCancelling_eq hx, approachClear_congr met.yard met.du, delay]
  split
  · rw [(letGo_ends _ i x _).1, (letGo_ends _ i x _).1]
  · rw [setInst_inst?_self (show (u.commandSu _).inst? i = some x from hu), setInst_inst?_self (show (s.commandSu _).inst? i = some x from hx)]

/-- So is what becomes of an `Inst` put into HALTED. -/
theorem setInst_checkEnd_inst? {i : Nat} {s u : State} (met : Apart i s u) {x y : Inst} (hx : s.inst? i = some x) (hy : y.state = .halted) :
    ((u.setInst i (some y)).checkEnd i).inst? i = ((s.setInst i (some y)).checkEnd i).inst? i := by
  have hu : u.inst? i = some x := met.inst.trans hx
  rw [setInst_checkEnd_halted hu hy, setInst_checkEnd_halted hx hy, haltedEnds_congr met.yard]
  split
  · rw [endDegraded_inst?_self, endDegraded_inst?_self]
  · rw [setInst_inst?_self hu, setInst_inst?_self hx]

/-- So is what a lost owner makes of an `Inst` that asks for no grant and no SET-DONE. -/
theorem ownerGone_inst? {i : Nat} {s u : State} (met : Apart i s u) {x : Inst} (hx : s.inst? i = some x) (h1 : x.state ≠ .claiming)
    (h2 : x.state ≠ .setting) (peer : Nat) (e : Epoch) (changed : Bool) :
    (u.ownerGone peer e changed i x).inst? i = (s.ownerGone peer e changed i x).inst? i := by
  cases ho : x.owner? peer with
  | none => rw [ownerGone_noOwner ho, ownerGone_noOwner ho, met.inst]
  | some o =>
    rw [ownerGone_owner ho, ownerGone_owner ho, routeSteps_congr met.yard]
    split
    · exact absurd ‹_› h1
    · exact absurd ‹_› h2
    · split
      · exact enterCancelling_inst? met hx _
      · exact met.inst
    · split
      · exact enterCancelling_inst? met hx _
      · exact met.inst
    · split
      · exact setInst_checkEnd_inst? met hx rfl
      · exact met.inst
    · split
      · exact setInst_checkEnd_inst? met hx rfl
      · exact met.inst
    all_goals exact met.inst

theorem enterBackoff_state {s : State} {i : Nat} {x : Inst} (hx : s.inst? i = some x) :
    ∃ y, (s.enterBackoff i).inst? i = some y ∧ y.state = .backoff := by
  unfold State.enterBackoff
  rw [hx]
  exact ⟨_, setInst_inst?_self hx _, rfl⟩

/-- A failed attempt without an award to give up is counted, released and backs off (R128). -/
theorem failAttempt_other {s : State} {i : Nat} {x : Inst} (hx : s.inst? i = some x) :
    s.failAttempt i .other = ((s.releaseAsked x).countFailure x.slot).enterBackoff i := by
  unfold State.failAttempt
  rw [hx]

theorem failAttempt_other_state {s : State} {i : Nat} {x : Inst} (hx : s.inst? i = some x) :
    ∃ y, (s.failAttempt i .other).inst? i = some y ∧ y.state = .backoff := by
  rw [failAttempt_other hx]
  exact enterBackoff_state (x := x) (((releaseAsked_apart i s x).trans (countFailure_apart i _ _)).inst.trans hx)

theorem reLost_eq (s : State) (peer : Nat) (e : Epoch) (changed : Bool) :
    s.reLost peer e changed = sweep (fun i x u => u.ownerGone peer e changed i x) s := rfl

/-- What UNUSABLE and EPOCH_CHANGE leave of each `Inst` is what they do to it alone; an attempt fails. -/
theorem reLost_inst? (s : State) (peer : Nat) (e : Epoch) (changed : Bool) {i : Nat} {x : Inst} (hx : s.inst? i = some x) :
    (x.state ≠ .claiming → x.state ≠ .setting → (s.reLost peer e changed).inst? i = (s.ownerGone peer e changed i x).inst? i)
    ∧ (∀ o, x.owner? peer = some o → x.state = .claiming ∨ x.state = .setting → o.asked = true → o.epoch = none ∨ o.epoch = some e →
        ∃ y, (s.reLost peer e changed).inst? i = some y ∧ y.state = .backoff) := by
  obtain ⟨u, met, left⟩ := sweep_inst hx fun j y v hj => ownerGone_apart hj v peer e changed y
  rw [reLost_eq, left.inst]
  refine ⟨fun h1 h2 => ownerGone_inst? met hx h1 h2 peer e changed, fun o ho hst asked held => ?_⟩
  rw [ownerGone_asking ho hst, asked, (epoch_all_iff o.epoch e).mpr held]
  exact failAttempt_other_state (met.inst.trans hx)

theorem exec_reUnusable {s : State} {k k' : Nat} {e : Epoch} {rest : List PeerNotice}
    (h : takeFirst (fun n => n.peer == k) s.re.peerNotices = some (.unusable k' e, rest)) :
    exec (.reUnusable k) s = .next ({ s with re := { s.re with peerNotices := rest } }.reLost k e false) := by
  unfold exec execReUnusable
  dsimp only
  rw [h]

theorem exec_reEpochChange {s : State} {k k' : Nat} {e new : Epoch} {rest : List PeerNotice}
    (h : takeFirst (fun n => n.peer == k) s.re.peerNotices = some (.epochChange k' e new, rest)) :
    exec (.reEpochChange k) s = .next ({ s with re := { s.re with peerNotices := rest } }.reLost k e true) := by
  unfold exec execReEpochChange
  dsimp only
  rw [h]

theorem exec_reUsable {s : State} {k k' : Nat} {e : Epoch} {rest : List PeerNotice}
    (h : takeFirst (fun n => n.peer == k) s.re.peerNotices = some (.usable k' e, rest)) :
    exec (.reUsable k) s = .next ({ s with re := { s.re with peerNotices := rest } }.reReturned k e) := by
  unfold exec execReUsable
  dsimp only
  rw [h]

/-! ### A returned owner (R136) -/

/-- The return of an owner concerns the `Inst`: it is HALTED, and the owner's entry is lost under the same epoch, not for good. -/
def returnsTo (peer : Nat) (e : Epoch) (x : Inst) : Prop :=
  x.state = .halted ∧ (x.owner? peer).any (fun o => o.lost && o.epoch == some e && !o.changed) = true

theorem returnsTo_iff (peer : Nat) (e : Epoch) (x : Inst) : returnsTo peer e x ↔
    x.state = .halted ∧ ∃ o, x.owner? peer = some o ∧ o.lost = true ∧ o.epoch = some e ∧ o.changed = false := by
  simp only [returnsTo, Option.any_eq_true, Bool.and_eq_true, beq_iff_eq, Bool.not_eq_true', and_assoc]

/-- The owner entries after the return: the owner is no longer lost under its epoch. -/
def ownersBack (peer : Nat) (e : Epoch) (l : List OwnerEntry) : List OwnerEntry :=
  l.map (fun o => if o.node = peer ∧ o.epoch = some e ∧ o.changed = false then { o with lost := false } else o)

theorem ownerBack_eq (peer : Nat) (e : Epoch) (x : Inst) : x.ownerBack peer e =
    if x.claimLost = true ∨ ∃ o ∈ ownersBack peer e x.owners, o.lost = true then { x with owners := ownersBack peer e x.owners }
    else { x with state := .entered, owners := ownersBack peer e x.owners } := by
  have owners : (x.modOwner peer (fun o => if o.epoch = some e ∧ o.changed = false then { o with lost := false } else o)).owners
      = ownersBack peer e x.owners := by
    refine List.map_congr_left fun o _ => ?_
    by_cases node : o.node = peer <;> simp [node]
  have whole : x.modOwner peer (fun o => if o.epoch = some e ∧ o.changed = false then { o with lost := false } else o)
      = { x with owners := ownersBack peer e x.owners } := by rw [← owners]; rfl
  unfold Inst.ownerBack
  dsimp only
  rw [whole]
  simp only [Bool.or_eq_true, List.any_eq_true]

theorem reReturned_inst? {s : State} {i : Nat} {x : Inst} (hx : s.inst? i = some x) (peer : Nat) (e : Epoch) :
    (returnsTo peer e x → (s.reReturned peer e).inst? i = some (x.ownerBack peer e))
    ∧ (¬ returnsTo peer e x → (s.reReturned peer e).inst? i = some x) := by
  have mapped : (s.reReturned peer e).re.insts[i]? = some (some (if x.state = .halted
      ∧ (x.owner? peer).any (fun o => o.lost && o.epoch == some e && !o.changed) = true then x.ownerBack peer e else x)) := by
    simp only [State.reReturned, List.getElem?_map, inst?_eq_some.mp hx]
    rfl
  exact ⟨fun h => inst?_eq_some.mpr (mapped.trans (congrArg (fun y => some (some y)) (if_pos h))),
    fun h => inst?_eq_some.mpr (mapped.trans (congrArg (fun y => some (some y)) (if_neg h)))⟩

/-! ### Isolation (R141) -/

/-- One `Inst` on isolation (R141): its RELEASEs to the other owners asked, and its AWARD-WITHDRAW before it is entered. -/
theorem isolateInst_eq (s : State) (i : Nat) (x : Inst) : s.isolateInst i x =
    let released := forEach (x.owners.filter (fun o => o.asked && o.node != s.pt.node)) (fun o v =>
      if o.node < 63 then v.send .release o.node (encKey (s.keyOf x)) else v) s
    let withdrawn := if x.state = .entered ∨ x.state = .halted then released else released.withdrawAward x
    { withdrawn with re := { withdrawn.re with insts := withdrawn.re.insts.set i none } } := by
  have frames : forEach (x.owners.filter (fun o => o.asked && o.node != s.pt.node)) (fun o v => v.releaseTo (v.keyOf x) o.node) s
      = forEach (x.owners.filter (fun o => o.asked && o.node != s.pt.node)) (fun o v =>
          if o.node < 63 then v.send .release o.node (encKey (s.keyOf x)) else v) s := by
    refine forEach_congr_on (P := fun u => u.pt = s.pt) (fun o _ u hu => ?_) (fun o ho u hu => ?_) rfl
    · split
      · simpa using hu
      · exact hu
    · have remote : o.node ≠ u.pt.node := by
        have := (List.mem_filter.mp ho).2
        simp only [Bool.and_eq_true, bne_iff_ne] at this
        rw [hu]
        exact this.2
      rw [keyOf_congr hu, State.releaseTo, if_neg remote]
  unfold State.isolateInst
  rw [frames]
  dsimp only
  cases x.state <;> rfl

theorem isolateInst_apart {i j : Nat} (h : j ≠ i) (s : State) (x : Inst) : Apart i s (s.isolateInst j x) := by
  have released : Apart i s _ := .forEach
    (l := x.owners.filter (fun o => o.asked && o.node != s.pt.node)) (f := fun o u => u.releaseTo (u.keyOf x) o.node)
    (fun _ _ _ => releaseTo_apart i _ _ _) s
  unfold State.isolateInst
  dsimp only
  split
  · exact released.trans (setInst_apart h _ _)
  · exact released.trans (setInst_apart h _ _)
  · exact (released.trans (withdrawAward_apart i _ x)).trans (setInst_apart h _ _)

theorem reIsolate_eq (s : State) : s.reIsolate = sweep (fun i x u => u.isolateInst i x) s := rfl

/-- A sweep whose operation on one `Inst` leaves every other meets each `Inst` as it stood at the start. -/
theorem forEach_meets_start {act : Nat → Inst → State → State} (apart : ∀ i j x u, j ≠ i → Apart i u (act j x u)) {l : List Nat}
    (distinct : l.Nodup) {s u : State} (start : ∀ i ∈ l, u.inst? i = s.inst? i) :
    forEach l (fun i v => match v.inst? i with | some x => act i x v | none => v) u
      = forEach l (fun i v => match s.inst? i with | some x => act i x v | none => v) u := by
  induction l generalizing u with
  | nil => rfl
  | cons j js ih =>
    obtain ⟨fresh, distinct⟩ := List.nodup_cons.mp distinct
    rw [forEach, forEach, start j List.mem_cons_self]
    refine ih distinct fun i hi => ?_
    have other : j ≠ i := (ne_of_mem_of_not_mem hi fresh).symm
    rw [← start i (List.mem_cons_of_mem j hi)]
    split
    · exact (apart i j _ u other).inst
    · rfl

theorem isolateInst_inst?_self (s : State) (i : Nat) (x : Inst) : (s.isolateInst i x).inst? i = none :=
  setInst_inst?_none _ i

/-- The isolation notice ends every `Inst` (R141). -/
theorem reIsolate_inst? (s : State) (i : Nat) : s.reIsolate.inst? i = none := by
  rw [reIsolate_eq]
  cases hx : s.inst? i with
  | some x =>
    obtain ⟨u, _, left⟩ := sweep_inst hx fun j y v hj => isolateInst_apart (i := i) hj v y
    rw [left.inst, isolateInst_inst?_self]
  | none =>
    refine forEach_preserves (P := fun u => u.inst? i = none) (fun j _ u hu => ?_) hx
    split
    · rename_i y hy
      by_cases hj : j = i
      · exact hj ▸ isolateInst_inst?_self u j y
      · exact (isolateInst_apart hj u y).inst.trans hu
    · exact hu

theorem isolateInst_isolated (s : State) (i : Nat) (x : Inst) : (s.isolateInst i x).re.isolated = s.re.isolated := by
  rw [isolateInst_eq]
  dsimp only
  have released : ∀ l : List OwnerEntry, (forEach l (fun o v =>
      if o.node < 63 then v.send .release o.node (encKey (s.keyOf x)) else v) s).re = s.re := fun l =>
    forEach_re l _ s fun o v => by split <;> simp
  split <;> simp [released]

theorem reIsolate_isolated (s : State) : s.reIsolate.re.isolated = s.re.isolated := by
  refine forEach_keeps (fun u => u.re.isolated) _ _ (fun i u => ?_) s
  split
  · exact isolateInst_isolated u i _
  · rfl

/-- The instances as they stood at the start, each ended in turn: the releases name the node and the epoch of the start. -/
theorem isolateStart_eq (s : State) {l : List Nat} {u : State} (hu : u.pt = s.pt) :
    forEach l (fun i v => match s.inst? i with | some x => v.isolateInst i x | none => v) u
      = forEach l (fun i v => match s.inst? i with
          | some x =>
            let released := forEach (x.owners.filter (fun o => o.asked && o.node != s.pt.node)) (fun o v =>
              if o.node < 63 then v.send .release o.node (encKey (s.keyOf x)) else v) v
            let withdrawn := if x.state = .entered ∨ x.state = .halted then released else released.withdrawAward x
            { withdrawn with re := { withdrawn.re with insts := withdrawn.re.insts.set i none } }
          | none => v) u := by
  induction l generalizing u with
  | nil => rfl
  | cons i is ih =>
    rw [forEach, forEach]
    cases s.inst? i with
    | none => exact ih hu
    | some x =>
      dsimp only
      rw [← hu, ← keyOf_congr hu, ← isolateInst_eq, hu]
      exact ih (by simpa using hu)

theorem ownerNoticesReachInstances : Clause.OwnerNoticesReachInstances := by
  refine ⟨fun k k' s e rest => ⟨fun h => exec_reUnusable h, fun new h => exec_reEpochChange h, fun changed i x hx => ?_,
    fun h => ⟨_, exec_reUsable h, fun i x hx => ?_, rfl⟩⟩, fun s h => ?_⟩
  · exact reLost_inst? { s with re := { s.re with peerNotices := rest } } k e changed hx
  · dsimp only
    obtain ⟨back, stays⟩ := reReturned_inst? (s := { s with re := { s.re with peerNotices := rest } }) hx k e
    rw [← returnsTo_iff]
    refine ⟨stays, fun returns found sound => ?_, fun returns lost => ?_⟩
    · rw [back returns, ownerBack_eq, if_neg]
      · rfl
      · rintro (lost | ⟨o, ho, lost⟩)
        · exact absurd (lost.symm.trans found) (by decide)
        · exact absurd (lost.symm.trans (sound o ho)) (by decide)
    · rw [back returns, ownerBack_eq]
      exact congrArg some (if_pos lost)
  · refine ⟨_, if_pos h, reIsolate_isolated _, reIsolate_inst? _, by simp, by simp, ?_⟩
    exact (forEach_meets_start (fun i j x u hj => isolateInst_apart hj u x) List.nodup_range fun _ _ => rfl).trans
      (isolateStart_eq s rfl)

/-- Settles O47. -/
theorem lossesHaltRoutes : Obligations.LossesHaltRoutes :=
  ⟨claimLostHaltsRoutes, haltedRoutesEnd, lostOwnerHaltsARoute, ownerNoticesReachInstances⟩

end Sys2Proof.Proofs
end

