-- ==== Sys2Proof/Proofs/Peers.lean ====
section
/-! PROOF. The peer table (O26, O27), the duplicate node ID (O28) and the listen timer (O29). -/

namespace Sys2Proof.Proofs
open Sys2Proof.Machine Sys2Proof.Laws

/-! ### Usability and its notices (R68) -/

theorem settle_same {p q : PeerRec} (h : p.usable = q.usable) : p.settle q = q :=
  if_pos h

theorem settle_changed {p q : PeerRec} (h : p.usable ≠ q.usable) : p.settle q = { q with owed := p.usable } :=
  if_neg h

theorem notice_same {p q : PeerRec} (h : p.usable = q.usable) (k : Nat) : PeerRec.notice k p q = none := by
  unfold PeerRec.notice
  rw [h]
  cases q.usable <;> rfl

theorem notice_lost {p q : PeerRec} {e : Epoch} (hp : p.usable = true) (hq : q.usable = false) (he : q.epoch = some e) (k : Nat) :
    PeerRec.notice k p q = some (.unusable k e) := by
  rw [PeerRec.notice, hp, hq, he]

theorem notice_back {p q : PeerRec} {e : Epoch} (hp : p.usable = false) (hq : q.usable = true) (he : q.epoch = some e) (k : Nat) :
    PeerRec.notice k p q = if q.owed = true then some (.usable k e) else none := by
  rw [PeerRec.notice, hp, hq, he]

theorem usabilityNoticeTable : Clause.UsabilityNoticeTable := by
  intro k p q e he
  refine ⟨fun hp hq => ⟨notice_lost hp hq he k, ?_⟩, fun hp hq owed => ⟨?_, ?_⟩, fun hp hq owed => ⟨?_, ?_⟩,
    fun h => ⟨notice_same h k, settle_same h⟩⟩
  · rw [settle_changed (by simp [hp, hq])]
    exact hp
  · rw [notice_back hp hq he, if_pos owed]
  · rw [settle_changed (by simp [hp, hq])]
    exact hp
  · rw [notice_back hp hq he, owed, if_neg Bool.false_ne_true]
  · rw [settle_changed (by simp [hp, hq])]
    exact hp

theorem modPeer_const (s : State) (k : Nat) (p : PeerRec) :
    s.modPeer k (fun _ => p) = { s with pt := { s.pt with peers := s.pt.peers.set k p } } := by
  have same : s.pt.peers.modify k (fun _ => p) = s.pt.peers.set k p := by
    rw [List.modify_eq_set_getElem?]
    cases h : s.pt.peers[k]? with
    | some q => rfl
    | none => exact (List.set_eq_of_length_le (List.getElem?_eq_none_iff.mp h)).symm
  unfold State.modPeer
  rw [same]

/-- A new record in place of `p` (R68): the record, and its notice to CT, RE and YU. -/
theorem changePeer_eq (s : State) (k : Nat) (p q : PeerRec) : s.changePeer k p q = { s with
    pt := { s.pt with peers := s.pt.peers.set k (p.settle q) }
    ct := { s.ct with peerNotices := s.ct.peerNotices ++ (PeerRec.notice k p q).toList }
    re := { s.re with peerNotices := s.re.peerNotices ++ (PeerRec.notice k p q).toList }
    yu := { s.yu with peerNotices := s.yu.peerNotices ++ (PeerRec.notice k p q).toList } } := by
  unfold State.changePeer
  rw [modPeer_const]
  cases PeerRec.notice k p q with
  | some n => rfl
  | none => simp

/-! ### ANNOUNCE and epoch changes (R63, R65) -/

theorem meet_unknown {p : PeerRec} (h : p.state = .unknown) (e : Epoch) :
    p.meet e = { p with state := .joining, epoch := some e } :=
  if_pos h

theorem meet_known {p : PeerRec} (h : p.state ≠ .unknown) (e : Epoch) : p.meet e = p :=
  if_neg h

/-- An ANNOUNCE under the epoch of the record as it meets the frame sets the reset cause (R63). -/
theorem takeAnnounce_met {s : State} {f : RxFrame} {p : PeerRec} (hp : s.peer? f.rx.source = some p)
    (h : (p.meet f.rx.epoch).epoch = some f.rx.epoch) : takeAnnounce f s = { s with pt := { s.pt with
      peers := s.pt.peers.set f.rx.source { p.meet f.rx.epoch with cause := some (ResetCause.ofBit (byteAt f.payload 0)) } } } := by
  rw [← modPeer_const]
  unfold takeAnnounce
  rw [hp]
  exact if_pos h

theorem takeAnnounce_stale {s : State} {f : RxFrame} {p : PeerRec} (hp : s.peer? f.rx.source = some p)
    (h : (p.meet f.rx.epoch).epoch ≠ some f.rx.epoch) : takeAnnounce f s = s := by
  unfold takeAnnounce
  rw [hp]
  exact if_neg h

theorem exec_announce {s : State} {f : RxFrame} {fs' : FS} (h : s.fs.takeFrame .announce = some (f, fs')) :
    exec .announce s = .next (takeAnnounce f { s with fs := fs' }).finishFrame :=
  congrArg Host.Outcome.next (withFrame_some h _)

theorem announceMeetsThePeer : Clause.AnnounceMeetsThePeer := by
  intro s f fs' p taken hp
  have hp' : ({ s with fs := fs' } : State).peer? f.rx.source = some p := hp
  refine ⟨_, exec_announce taken, fun new => ?_, fun known same => ?_, fun known stale => ?_, ?_⟩
  · rw [takeAnnounce_met hp' (by rw [meet_unknown new]), meet_unknown new]
    rfl
  · rw [takeAnnounce_met hp' (by rwa [meet_known known]), meet_known known]
    rfl
  · rw [takeAnnounce_stale hp' (by rwa [meet_known known])]
    rfl
  · by_cases h : (p.meet f.rx.epoch).epoch = some f.rx.epoch
    · rw [takeAnnounce_met hp' h]
      rfl
    · rw [takeAnnounce_stale hp' h]
      rfl

theorem epochChangeRestartsThePeer : Clause.EpochChangeRestartsThePeer := by
  intro s k p old new hp known held
  refine ⟨fun same => noteEpoch_same hp (.inr (same ▸ held)), fun other => ?_⟩
  obtain ⟨pt, ct, re, yu⟩ := noteEpoch_changed_blocks hp known held other
  exact ⟨by rw [pt]; rfl, ct, re, yu⟩

/-! ### Supervision (R64) -/

theorem exec_peerSilent_due {s : State} {k : Nat} {p : PeerRec} {last : Time} (hp : s.peer? k = some p) (hl : p.lastState = some last)
    (hst : p.state = .inStep) (due : 500 ≤ (s.time - last).toNat) :
    exec (.peerSilent k) s = .next (s.changePeer k p { p with state := .silent }) := by
  have passed : p.silence s.time = (s.time - last).toNat := by rw [PeerRec.silence, hl]; rfl
  have silent : s.peerSilence k = s.changePeer k p { p with state := .silent } := by
    unfold State.peerSilence
    rw [hp]
    exact if_pos ⟨hst, passed ▸ due⟩
  exact congrArg Host.Outcome.next silent

theorem exec_peerLost_due {s : State} {k : Nat} {p : PeerRec} {e : Epoch} {last : Time} (hp : s.peer? k = some p) (he : p.epoch = some e)
    (hl : p.lastState = some last) (hst : p.state = .silent) (due : 1000 ≤ (s.time - last).toNat) :
    exec (.peerLost k) s = .next ((s.changePeer k p { p with state := .lost, losses := bump p.losses }).reportPeerLost k e last
      (bump p.losses)) := by
  have passed : p.silence s.time = (s.time - last).toNat := by rw [PeerRec.silence, hl]; rfl
  have lost : s.peerLoss k = (s.changePeer k p { p with state := .lost, losses := bump p.losses }).reportPeerLost k e last
      (bump p.losses) := by
    unfold State.peerLoss
    rw [hp]
    dsimp only
    rw [he, hl]
    exact if_pos ⟨hst, passed ▸ due⟩
  exact congrArg Host.Outcome.next lost

/-- SILENT keeps usability (R68). -/
theorem usable_silent {p : PeerRec} (h : p.state = .inStep) : p.usable = ({ p with state := .silent } : PeerRec).usable := by
  simp [PeerRec.usable, h]

/-- A loss takes usability from a peer that is heard to hear this node (R68). -/
theorem usable_of_silent {p : PeerRec} (h : p.state = .silent) : p.usable = !p.notHearing := by
  simp [PeerRec.usable, h]

theorem usable_lost (p : PeerRec) (losses : Counter) : ({ p with state := .lost, losses := losses } : PeerRec).usable = false := by
  simp [PeerRec.usable]

/-- The record and the notice of a peer that is lost (R64, R68). -/
theorem lost_settled {p : PeerRec} {e : Epoch} (hst : p.state = .silent) (he : p.epoch = some e) (k : Nat) (losses : Counter) :
    p.settle { p with state := .lost, losses := losses }
      = { p with state := .lost, losses := losses, owed := (if p.notHearing then p.owed else true) }
    ∧ (PeerRec.notice k p { p with state := .lost, losses := losses }).toList = if p.notHearing then [] else [.unusable k e] := by
  by_cases hn : p.notHearing = true
  · have same : p.usable = ({ p with state := .lost, losses := losses } : PeerRec).usable := by
      rw [usable_of_silent hst, usable_lost, hn]
      rfl
    rw [settle_same same, notice_same same, if_pos hn, if_pos hn]
    exact ⟨rfl, rfl⟩
  · have usable : p.usable = true := by
      rw [usable_of_silent hst]
      simpa using hn
    rw [notice_lost usable (usable_lost p losses) he, settle_changed (by rw [usable, usable_lost]; decide), usable, if_neg hn, if_neg hn]
    exact ⟨rfl, rfl⟩

theorem supervisionExpiries : Clause.SupervisionExpiries := by
  intro k s p e last hp he hl
  refine ⟨fun hst due => ⟨_, exec_peerSilent_due hp hl hst due, ?_⟩, fun hst due => ⟨_, exec_peerLost_due hp he hl hst due, ?_⟩⟩
  · rw [changePeer_eq, settle_same (usable_silent hst), notice_same (usable_silent hst)]
    simp
  · obtain ⟨record, notice⟩ := lost_settled hst he k (bump p.losses)
    rw [changePeer_eq, record, notice]
    refine ⟨by simp, by simp, by simp, by simp, by simp [State.reportPeerLost, State.report], ?_⟩
    simp only [reportPeerLost_keeps]
    rfl

/-- Settles O27. -/
theorem peersComeAndGo : Obligations.PeersComeAndGo :=
  ⟨usabilityNoticeTable, announceMeetsThePeer, epochChangeRestartsThePeer, supervisionExpiries⟩

/-! ### STATE frames (R63, R67, R70) -/

/-- The state that a STATE frame leaves, by the one it meets (R63). -/
theorem nextState_cases (p : PeerRec) (arrival : Time) :
    (p.state = .joining → p.lastState = none → p.nextState arrival = .joining)
    ∧ (∀ t, p.state = .joining → p.lastState = some t → 600 < (arrival - t).toNat → p.nextState arrival = .joining)
    ∧ (∀ t, p.state = .joining → p.lastState = some t → (arrival - t).toNat ≤ 600 → p.nextState arrival = .inStep)
    ∧ (p.state = .inStep ∨ p.state = .silent ∨ p.state = .lost → p.nextState arrival = .inStep) := by
  refine ⟨fun hst hl => ?_, fun t hst hl late => ?_, fun t hst hl soon => ?_, ?_⟩
  · rw [PeerRec.nextState, hst, hl]
  · rw [PeerRec.nextState, hst, hl]
    exact if_neg (Nat.not_le.mpr late)
  · rw [PeerRec.nextState, hst, hl]
    exact if_pos soon
  · rintro (hst | hst | hst) <;> rw [PeerRec.nextState, hst]

theorem hear_state (p : PeerRec) (shown : Bool) : (p.hear shown).state = p.state := by
  unfold PeerRec.hear
  (repeat' split) <;> rfl

/-- What the heard map does to the miss run and to NOT_HEARING, in IN_STEP and outside it (R67). -/
theorem hear_run (p : PeerRec) (shown : Bool) :
    (p.state ≠ .inStep → p.hear shown = p)
    ∧ (p.state = .inStep → shown = true → p.hear shown = { p with missRun := 0, notHearing := false })
    ∧ (p.state = .inStep → shown = false → p.hear shown = { p with
        missRun := min (p.missRun + 1) 2, notHearing := p.notHearing || decide (1 ≤ p.missRun) }) := by
  refine ⟨fun h => if_neg h, fun h hs => (if_pos h).trans (if_pos hs), fun h hs => (if_pos h).trans ?_⟩
  rw [hs, if_neg Bool.false_ne_true]
  simp only [Nat.succ_le_succ_iff]

theorem hear_keeps_record (p : PeerRec) (shown : Bool) : p.hear shown = { p with
    missRun := (p.hear shown).missRun, notHearing := (p.hear shown).notHearing } := by
  unfold PeerRec.hear
  (repeat' split) <;> rfl

theorem stateFrameTable : Clause.StateFrameTable := by
  intro p l arrival shown
  obtain ⟨first, late, soon, again⟩ := nextState_cases p arrival
  obtain ⟨outside, heard, missed⟩ := hear_run (p.takeState l arrival) shown
  have state : ((p.takeState l arrival).hear shown).state = p.nextState arrival := hear_state _ _
  have record := hear_keeps_record (p.takeState l arrival) shown
  dsimp only
  refine ⟨by rw [record]; rfl, by rw [record]; rfl, by rw [record]; rfl, by rw [record]; rfl, by rw [record]; rfl, by rw [record]; rfl,
    by rw [record]; rfl, ?_, fun h hl => state.trans (first h hl), fun t h hl ht => state.trans (late t h hl ht),
    fun t h hl ht => state.trans (soon t h hl ht), fun h => state.trans (again h), fun h => ?_, fun h hs => ?_, fun h hs => ?_⟩
  · have small : byteAt l 0 % 8 < 8 := Nat.mod_lt _ (by decide)
    rw [record]
    simp only [PeerRec.takeState]
    generalize byteAt l 0 % 8 = code at small
    interval_cases code <;> rfl
  · rw [outside (by rw [show (p.takeState l arrival).state = .joining from state.symm.trans h]; decide)]
    exact ⟨rfl, rfl⟩
  · rw [heard (state.symm.trans h) hs]
    exact ⟨rfl, rfl⟩
  · rw [missed (state.symm.trans h) hs]
    exact ⟨rfl, rfl⟩

/-! ### What a lock report reaches (R70, R134) -/

/-- What RE's handling of a lock report may change: the handovers to CT, the instances, the outcomes, and FS with the counters. -/
def LockReportReaches (s t : State) : Prop :=
  t = { s with
    ct := { s.ct with fromRe := t.ct.fromRe }, re := { s.re with insts := t.re.insts }, rq := { s.rq with outcomes := t.rq.outcomes }
    fs := t.fs, cnt := t.cnt }

theorem LockReportReaches.refl (s : State) : LockReportReaches s s := rfl

theorem LockReportReaches.trans {s t u : State} (h : LockReportReaches s t) (g : LockReportReaches t u) : LockReportReaches s u := by
  refine Eq.trans g ?_
  rw [h]

theorem LockReportReaches.forEach {α : Type} {l : List α} {f : α → State → State} (h : ∀ a u, LockReportReaches u (f a u)) (s : State) :
    LockReportReaches s (forEach l f s) :=
  forEach_preserves (P := LockReportReaches s) (fun a _ u hu => hu.trans (h a u)) (.refl s)

theorem releaseTo_reached (s : State) (key : RouteKey) (node : Nat) : LockReportReaches s (s.releaseTo key node) := by
  unfold State.releaseTo
  split
  · rfl
  · split
    · rw [send_eq]
      rfl
    · rfl

theorem endDegraded_reached (s : State) (i : Nat) (x : Inst) (spare : Bool) : LockReportReaches s (s.endDegraded i x spare) :=
  (LockReportReaches.forEach (fun _ _ => releaseTo_reached _ _ _) s).trans rfl

theorem checkEnd_reached (s : State) (i : Nat) : LockReportReaches s (s.checkEnd i) := by
  unfold State.checkEnd
  split
  · split
    · split <;> rfl
    · split
      · exact endDegraded_reached s i _ true
      · rfl
    · rfl
  · rfl

theorem countPassed_reached (s : State) (i : Nat) (x : Inst) (p : Nat → RouteStep → Bool) :
    LockReportReaches s (s.countPassed i x p) := by
  by_cases same : markPassed p 1 (s.routeSteps x) x.passed = x.passed
  · rw [countPassed_same same]
    exact .refl s
  · rw [countPassed_new rfl same]
    exact LockReportReaches.trans (t := s.setInst i (some (passedInst x _))) rfl (checkEnd_reached _ i)

theorem takeLockReport_reached (s : State) (peer : Nat) (epoch : Epoch) (at_ : Time) (map : BitVec 16) :
    LockReportReaches s (s.takeLockReport peer epoch at_ map) := by
  refine LockReportReaches.forEach (fun i u => ?_) s
  split
  · split
    · exact countPassed_reached u i _ _
    · rfl
  · rfl

/-! ### A STATE frame of a peer (R63, R67 to R70) -/

theorem exec_state {s : State} {f : RxFrame} {fs' : FS} (h : s.fs.takeFrame .state = some (f, fs')) :
    exec .state s = .next (takeStateFrame f { s with fs := fs' }).finishFrame :=
  congrArg Host.Outcome.next (withFrame_some h _)

theorem takeStateFrame_met {s : State} {f : RxFrame} {p : PeerRec} (hp : s.peer? f.rx.source = some p)
    (h : (p.meet f.rx.epoch).epoch = some f.rx.epoch) : takeStateFrame f s =
      (s.changePeer f.rx.source p (((p.meet f.rx.epoch).takeState f.payload f.rx.arrival).hear (heardBit f.payload s.pt.node))).takeLockReport
        f.rx.source f.rx.epoch f.rx.arrival (decLockMap f.payload) := by
  unfold takeStateFrame
  rw [hp]
  exact if_pos h

theorem takeStateFrame_stale {s : State} {f : RxFrame} {p : PeerRec} (hp : s.peer? f.rx.source = some p)
    (h : (p.meet f.rx.epoch).epoch ≠ some f.rx.epoch) : takeStateFrame f s = s := by
  unfold takeStateFrame
  rw [hp]
  exact if_neg h

/-- A peer that was UNKNOWN is in JOINING after its first STATE frame, under the frame's epoch (R63). -/
theorem first_state_joins {p : PeerRec} (unknown : p.state = .unknown) (never : p.lastState = none) (e : Epoch) (l : List Byte)
    (arrival : Time) (shown : Bool) :
    (((p.meet e).takeState l arrival).hear shown).state = .joining ∧ (((p.meet e).takeState l arrival).hear shown).epoch = some e := by
  rw [meet_unknown unknown]
  constructor
  · rw [hear_state]
    exact (nextState_cases { p with state := .joining, epoch := some e } arrival).1 rfl never
  · rw [hear_keeps_record]
    rfl

/-- The state after a STATE frame under the recorded epoch, block by block: the record, the notices, and what the lock report reaches. -/
theorem stateFrame_blocks {s t : State} {fs' : FS} {k : Nat} {p q : PeerRec}
    (h : LockReportReaches ({ s with fs := fs' }.changePeer k p q) t) :
    t.finishFrame.pt = { s.pt with peers := s.pt.peers.set k (p.settle q) }
    ∧ t.finishFrame.yu = { s.yu with peerNotices := s.yu.peerNotices ++ (PeerRec.notice k p q).toList }
    ∧ t.finishFrame.ct.peerNotices = s.ct.peerNotices ++ (PeerRec.notice k p q).toList
    ∧ t.finishFrame.re.peerNotices = s.re.peerNotices ++ (PeerRec.notice k p q).toList
    ∧ t.finishFrame = { s with
        pt := t.finishFrame.pt, yu := t.finishFrame.yu
        ct := { s.ct with peerNotices := t.finishFrame.ct.peerNotices, fromRe := t.finishFrame.ct.fromRe }
        re := { s.re with peerNotices := t.finishFrame.re.peerNotices, insts := t.finishFrame.re.insts }
        rq := { s.rq with outcomes := t.finishFrame.rq.outcomes }, fs := t.finishFrame.fs, cnt := t.finishFrame.cnt } := by
  rw [changePeer_eq] at h
  rw [h]
  exact ⟨rfl, rfl, rfl, rfl, rfl⟩

theorem stateFrameMovesItsPeer : Clause.StateFrameMovesItsPeer := by
  intro s f fs' p taken hp
  obtain ⟨-, rest, -, held⟩ := takeFrame_some taken
  have free : fs'.free = s.fs.free := by rw [held]
  refine ⟨_, exec_state taken, ?_, ?_, ?_, fun stale => ?_, fun unknown never => ?_, fun same => ?_, fun same => ?_⟩
  · exact congrArg (· + 1) (by simp only [takeStateFrame_keeps]; exact free)
  · rfl
  · simp only [finishFrame_keeps, takeStateFrame_keeps]
  · rw [takeStateFrame_stale (s := { s with fs := fs' }) hp stale]
    rfl
  · exact first_state_joins unknown never _ _ _ _
  · rw [takeStateFrame_met (s := { s with fs := fs' }) hp same]
    rfl
  · rw [takeStateFrame_met (s := { s with fs := fs' }) hp same]
    exact stateFrame_blocks (takeLockReport_reached _ _ _ _ _)

/-- Settles O26. -/
theorem stateFramesMovePeers : Obligations.StateFramesMovePeers :=
  ⟨stateFrameTable, stateFrameMovesItsPeer⟩

/-! ### Duplicate node IDs (R71, R72) -/

theorem stopAll_eq (s : State) : s.stopAll = { s with su := { s.su with
    commands := s.su.commands ++ (List.range s.yard.signals.length).map SuCommand.stop } } := by
  unfold State.stopAll
  generalize List.range s.yard.signals.length = l
  induction l generalizing s with
  | nil => simp [forEach]
  | cons g gs ih =>
    rw [forEach, ih]
    simp [State.commandSu]

/-- The state in which the node has entered ISOLATED, before its report: the mode, STOP to every signal, and the isolation notices (R72). -/
def isolatedState (s : State) : State :=
  { s with
    pt := { s.pt with mode := .isolated, listen := none }
    su := { s.su with commands := s.su.commands ++ (List.range s.yard.signals.length).map SuCommand.stop }
    ct := { s.ct with isolated := true }, re := { s.re with isolated := true }
    rq := { s.rq with isolated := true }, yu := { s.yu with isolated := true } }

theorem enterIsolated_eq (s : State) (e : Epoch) : s.enterIsolated e = (isolatedState s).eventSent 6
    (bytes2 s.pt.epoch.toNat ++ bytes2 e.toNat ++ [byte s.pt.mode.enum]) := by
  unfold State.enterIsolated
  dsimp only
  rw [stopAll_eq]
  rfl

theorem examineOwn_same {r : RxRec} (h : r.epochMatch = true) (s : State) :
    s.examineOwn r = { s with cnt := { s.cnt with ownIdSameEpoch := bump s.cnt.ownIdSameEpoch } } :=
  if_pos h

/-- The state in which a frame of a duplicate has been counted (R71). -/
def duplicateCounted (s : State) : State :=
  { s with cnt := { s.cnt with duplicateId := bump s.cnt.duplicateId } }

theorem examineOwn_duplicate {r : RxRec} (h : r.epochMatch = false) (s : State) (mode : s.pt.mode = .joining ∨ s.pt.mode = .running) :
    s.examineOwn r = (isolatedState (duplicateCounted s)).eventSent 6
      (bytes2 s.pt.epoch.toNat ++ bytes2 r.epoch.toNat ++ [byte s.pt.mode.enum]) := by
  have entered : s.examineOwn r = (duplicateCounted s).enterIsolated r.epoch := by
    unfold State.examineOwn
    rw [h, if_neg Bool.false_ne_true]
    rcases mode with mode | mode <;> simp only [count_pt, mode] <;> rfl
  exact entered.trans (enterIsolated_eq _ _)

theorem examineOwn_counted {r : RxRec} (h : r.epochMatch = false) (s : State) (h1 : s.pt.mode ≠ .joining) (h2 : s.pt.mode ≠ .running) :
    s.examineOwn r = duplicateCounted s := by
  unfold State.examineOwn
  rw [h, if_neg Bool.false_ne_true]
  dsimp only [count_pt]
  split
  · exact absurd ‹_› h1
  · exact absurd ‹_› h2
  all_goals rfl

theorem send_duplicateId (s : State) (k : Kind) (dest : Nat) (l : List Byte) :
    (s.send k dest l).cnt.duplicateId = s.cnt.duplicateId := by
  unfold State.send
  (repeat' split) <;> rfl

/-- The state in which PT has taken the oldest frame with the own source. -/
def ownFrameTaken (s : State) (rest : List RxRec) : State :=
  { s with fs := { s.fs with ownFrames := rest } }

theorem exec_ownSourceFrame {s : State} {r : RxRec} {rest : List RxRec} (h : s.fs.ownFrames = r :: rest) :
    exec .ownSourceFrame s = .next ((ownFrameTaken s rest).examineOwn r).giveBuffer := by
  unfold exec execOwnSourceFrame
  dsimp only
  rw [h]
  rfl

/-- A report that is sent leaves every block but FS, RP and the counters, and counts its serial. -/
theorem eventSent_blocks (s : State) (kind : Nat) (fields : List Byte) :
    (s.eventSent kind fields).pt = s.pt ∧ (s.eventSent kind fields).su = s.su ∧ (s.eventSent kind fields).ct = s.ct
    ∧ (s.eventSent kind fields).re = s.re ∧ (s.eventSent kind fields).rq = s.rq ∧ (s.eventSent kind fields).yu = s.yu
    ∧ (s.eventSent kind fields).rp.serial = s.rp.serial + 1 := by
  unfold State.eventSent
  simp only [send_keeps, and_self]

/-- Settles O28. -/
theorem duplicateIdIsolates : Obligations.DuplicateIdIsolates := by
  intro s r rest h
  refine ⟨_, exec_ownSourceFrame h, ?_, ?_, fun same => ?_, fun other => ?_, fun other mode => ?_, fun idle => ?_,
    fun other isolated => ?_, ?_⟩
  · simp only [giveBuffer_keeps, examineOwn_keeps]
    rfl
  · exact congrArg (· + 1) (by simp only [examineOwn_keeps]; rfl)
  · rw [examineOwn_same same]
    exact ⟨rfl, rfl⟩
  · by_cases mode : s.pt.mode = .joining ∨ s.pt.mode = .running
    · rw [examineOwn_duplicate other (ownFrameTaken s rest) mode]
      exact send_duplicateId _ _ _ _
    · rw [examineOwn_counted other (ownFrameTaken s rest) (fun h => mode (.inl h)) (fun h => mode (.inr h))]
      rfl
  · rw [examineOwn_duplicate other (ownFrameTaken s rest) mode]
    obtain ⟨pt, su, ct, re, rq, yu, serial⟩ := eventSent_blocks (isolatedState (duplicateCounted (ownFrameTaken s rest))) 6
      (bytes2 (ownFrameTaken s rest).pt.epoch.toNat ++ bytes2 r.epoch.toNat ++ [byte (ownFrameTaken s rest).pt.mode.enum])
    simp only [giveBuffer_keeps]
    refine ⟨pt, su, ct, re, rq, yu, serial, ?_⟩
    rw [pt, su, ct, re, rq, yu]
    rfl
  · rcases idle with same | ⟨h1, h2⟩
    · rw [examineOwn_same same]
      rfl
    · cases hm : r.epochMatch with
      | true => rw [examineOwn_same hm]; rfl
      | false => rw [examineOwn_counted hm (ownFrameTaken s rest) h1 h2]; rfl
  · rw [examineOwn_counted other (ownFrameTaken s rest) (fun h => absurd (isolated.symm.trans h) (by decide))
      (fun h => absurd (isolated.symm.trans h) (by decide))]
    exact ⟨rfl, rfl, rfl, rfl⟩
  · simp only [giveBuffer_keeps, examineOwn_keeps]
    exact ⟨rfl, rfl, rfl, rfl, rfl⟩

/-! ### The listen timer (R59, R79, R154, R174) -/

/-- In JOINING the timer has its three marks: an ANNOUNCE at 250 and 500 ms, and RUNNING at 1000 ms. -/
theorem listenMark_joining {s : State} {e : Timer} (mode : s.pt.mode = .joining) (listen : s.pt.listen = some e) :
    s.listenMark = if s.pt.announces < 3 then if s.pt.announces * 250 ≤ e.elapsed then s.offerAnnounce else s
      else if 1000 ≤ e.elapsed then s.enterRunning else s := by
  unfold State.listenMark
  rw [mode, listen]
  rfl

/-- The state in which the node has entered RUNNING, before its reports: the mode, and every refusal hold cleared. -/
def runningState (s : State) : State :=
  { s with
    pt := { s.pt with mode := .running, listen := none }
    rq := { s.rq with points := s.rq.points.map (fun r : ReqPoint => { r with hold := none }) } }

/-- The report of one road at the entry into RUNNING: ROAD-CHANGE where it is KNOWN and has a free place. -/
def roadAnnounced (yard : Yard) (roads : List RoadRec) (r : Nat) (u : State) : State :=
  match yard.roads[r]?, roads[r]? with
  | some c, some x =>
    if x.cond = .known ∧ 1 ≤ c.capacity - x.used then
      let sent := u.send .roadChange 63 (encRoadChange r x.cond (c.capacity - x.used))
      { sent with re := { sent.re with fromYu := sent.re.fromYu ++ [.roadChange r] } }
    else u
  | _, _ => u

theorem sendRoadChange_where_room {u : State} (running : u.pt.mode = .running) (r : Nat) :
    (if u.hasRoom r then u.sendRoadChange r else u) = roadAnnounced u.yard u.yu.roads r u := by
  unfold State.hasRoom State.sendRoadChange roadAnnounced
  rw [if_pos running]
  cases u.yard.roads[r]? with
  | none => exact if_neg Bool.false_ne_true
  | some c =>
    cases u.yu.roads[r]? with
    | none => exact if_neg Bool.false_ne_true
    | some x => simp only [Bool.and_eq_true, beq_iff_eq, decide_eq_true_eq]; rfl

/-- The blocks that the reports at the entry into RUNNING leave. -/
def ReportsLeave (s t : State) : Prop :=
  t.pt = s.pt ∧ t.rq = s.rq ∧ t.ct = s.ct ∧ t.yu = s.yu ∧ t.du = s.du ∧ t.pu = s.pu ∧ t.su = s.su ∧ t.mi = s.mi ∧ t.yard = s.yard

theorem reportClamp_leaves {s u : State} (h : ReportsLeave s u) (c : Clamp) : ReportsLeave s (u.reportClamp c) := by
  unfold ReportsLeave at h ⊢
  unfold State.reportClamp
  simpa using h

theorem roadAnnounced_leaves {s u : State} (h : ReportsLeave s u) (yard : Yard) (roads : List RoadRec) (r : Nat) :
    ReportsLeave s (roadAnnounced yard roads r u) := by
  unfold ReportsLeave at h ⊢
  unfold roadAnnounced
  split
  · split
    · simpa using h
    · exact h
  · exact h

/-- The reports at the entry into RUNNING: the clamps, then the roads. -/
theorem enterRunning_eq (s : State) : s.enterRunning =
    forEach (List.range s.yu.roads.length) (roadAnnounced s.yard s.yu.roads)
      (forEach s.mi.clamps (fun c u => u.reportClamp c) (runningState s)) := by
  have clamped : ReportsLeave (runningState s) (forEach s.mi.clamps (fun c u => u.reportClamp c) (runningState s)) :=
    forEach_preserves (P := ReportsLeave (runningState s)) (fun c _ u hu => reportClamp_leaves hu c)
      ⟨rfl, rfl, rfl, rfl, rfl, rfl, rfl, rfl, rfl⟩
  have roads : (forEach s.mi.clamps (fun c u => u.reportClamp c) (runningState s)).yu.roads = s.yu.roads :=
    by
    obtain ⟨-, -, -, yu, -⟩ := clamped
    exact congrArg YU.roads yu
  unfold State.enterRunning
  refine (congrArg (fun l => forEach l _ _) (congrArg (fun l => List.range (List.length l)) roads)).trans ?_
  refine forEach_congr_on (P := ReportsLeave (runningState s)) (fun r _ u hu => roadAnnounced_leaves hu _ _ _)
    (fun r _ u hu => ?_) clamped
  obtain ⟨pt, -, -, yu, -, -, -, -, yard⟩ := hu
  rw [sendRoadChange_where_room (congrArg PT.mode pt), yard, yu]
  rfl

theorem enterRunning_leaves (s : State) : ReportsLeave (runningState s) s.enterRunning := by
  rw [enterRunning_eq]
  exact forEach_preserves (P := ReportsLeave (runningState s)) (fun r _ u hu => roadAnnounced_leaves hu _ _ r)
    (forEach_preserves (P := ReportsLeave (runningState s)) (fun c _ u hu => reportClamp_leaves hu c)
      ⟨rfl, rfl, rfl, rfl, rfl, rfl, rfl, rfl, rfl⟩)

/-- Settles O29. -/
theorem listenTimerLeadsToRunning : Obligations.ListenTimerLeadsToRunning := by
  intro s e mode listen
  have mark : exec .listenTimer s = .next s.listenMark := rfl
  rw [mark, listenMark_joining mode listen]
  refine ⟨fun few due => ?_, fun three due => ⟨s.enterRunning, ?_, ?_⟩⟩
  · rw [if_pos few, if_pos due]
    rfl
  · rw [if_neg (by omega), if_pos due]
  · obtain ⟨pt, rq, ct, yu, du, pu, su, mi, -⟩ := enterRunning_leaves s
    refine ⟨pt, rq, ct, yu, du, pu, su, mi, ?_⟩
    rw [enterRunning_eq]
    rfl

end Sys2Proof.Proofs
end

