-- ==== Sys2Proof/Proofs/Setting.lean ====
section
/-! PROOF. SET, and the reports of PU that answer its move orders (O39): how a record enters and leaves SETTING. -/

namespace Sys2Proof.Proofs
open Sys2Proof.Machine Sys2Proof.Laws

/-! ### A claim record (R94) -/

theorem claim?_eq_some {s : State} {id : Nat} {c : Claim} : s.claim? id = some c ↔ s.ct.records[id]? = some (some c) := by
  unfold State.claim?
  rcases s.ct.records[id]? with _ | _ | _ <;> simp

theorem claim?_congr {s t : State} (h : t.ct.records = s.ct.records) (id : Nat) : t.claim? id = s.claim? id := by
  unfold State.claim?
  rw [h]

theorem claim?_tellRe (s : State) (dest : Nat) (m : ReMsg) (id : Nat) : (s.tellRe dest m).claim? id = s.claim? id :=
  claim?_congr (by simp only [tellRe_keeps]) id

theorem claim?_modClaim {s : State} {id : Nat} {c : Claim} (h : s.claim? id = some c) (f : Claim → Claim) :
    (s.modClaim id f).claim? id = some (f c) := by
  rw [claim?_eq_some] at h ⊢
  exact (List.getElem?_modify_eq _ _ _).trans (congrArg (Option.map (Option.map f)) h)

theorem moveOrder_records (s : State) (p : Nat) (t : Position) : (s.moveOrder p t).ct.records = s.ct.records := by
  unfold State.moveOrder State.settlePermission State.orderPermitted State.stopPoint
  dsimp only
  (repeat' split) <;> rfl

/-! ### SET (R104) -/

theorem takeSet_of_record {s : State} {key : RouteKey} {id : Nat} {c : Claim} (hid : s.claimWithKey key = some id)
    (hc : s.claim? id = some c) : s.takeSet key =
      if c.releaseMark = true ∨ c.state = .orphaned ∨ c.state = .setting then s
      else if c.state = .set then s.tellRe key.owner (.setDone key s.time)
      else s.setReserved id c := by
  unfold State.takeSet
  rw [hid]
  dsimp only
  rw [hc]
  dsimp only
  by_cases mark : c.releaseMark = true
  · rw [if_pos mark, if_pos (.inl mark)]
  · rw [if_neg mark]
    cases c.state <;> simp [mark]

theorem takeSet_reserved {s : State} {key : RouteKey} {id : Nat} {c : Claim} (hid : s.claimWithKey key = some id)
    (hc : s.claim? id = some c) (mark : c.releaseMark = false) (reserved : c.state = .reserved) :
    s.takeSet key = s.setReserved id c := by
  rw [takeSet_of_record hid hc, if_neg (by simp [mark, reserved]), if_neg (by simp [reserved])]

/-- The steps of the record that forbid SETTING: a locked one that is occupied, or one that has been seen. -/
theorem steps_occupied_iff (s : State) (c : Claim) :
    c.steps.any (fun st => (st.locked && s.heldOccupied st.sect) || st.seen) = true
      ↔ ∃ st ∈ c.steps, (st.locked = true ∧ s.heldOccupied st.sect = true) ∨ st.seen = true := by
  simp only [List.any_eq_true, Bool.or_eq_true, Bool.and_eq_true]

theorem setReserved_lost {c : Claim} (lost : c.lost = true) (s : State) (id : Nat) :
    s.setReserved id c = s.tellRe c.key.owner (.setFail c.key c.lostPoint .detectionLost) :=
  if_pos lost

theorem setReserved_occupied {s : State} {c : Claim} (lost : c.lost = false)
    (occupied : ∃ st ∈ c.steps, (st.locked = true ∧ s.heldOccupied st.sect = true) ∨ st.seen = true) (id : Nat) :
    s.setReserved id c = s.tellRe c.key.owner (.setFail c.key none .occupied) := by
  unfold State.setReserved
  rw [lost, if_neg Bool.false_ne_true, if_pos ((steps_occupied_iff s c).mpr occupied)]
  rfl

/-- With no lost point and no occupied step the points decide, then the mode. -/
theorem setReserved_clear {s : State} {c : Claim} (lost : c.lost = false)
    (clear : ∀ st ∈ c.steps, ¬ (st.locked = true ∧ s.heldOccupied st.sect = true) ∧ st.seen = false) (id : Nat) :
    (∀ p, s.faultyPoint c = some p → s.setReserved id c = s.tellRe c.key.owner (.setFail c.key (some p) .fault))
    ∧ (s.faultyPoint c = none → s.setReserved id c = if s.pt.mode = .isolated then s else s.enterSetting id c) := by
  have unoccupied : ¬ c.steps.any (fun st => (st.locked && s.heldOccupied st.sect) || st.seen) = true := by
    rw [steps_occupied_iff]
    rintro ⟨st, hst, occupied | seen⟩
    · exact (clear st hst).1 occupied
    · exact absurd ((clear st hst).2.symm.trans seen) Bool.false_ne_true
  unfold State.setReserved
  rw [lost, if_neg Bool.false_ne_true, if_neg unoccupied]
  constructor
  · intro p hp
    rw [hp]
    rfl
  · intro hp
    rw [hp]

theorem setTable : Clause.SetTable := by
  intro s key
  refine ⟨fun unknown => ?_, fun id c hid hc => ⟨fun silent => ?_, fun mark set => ?_, fun mark reserved => ?_⟩⟩
  · unfold State.takeSet
    rw [unknown]
    rfl
  · rw [takeSet_of_record hid hc, if_pos silent]
  · rw [takeSet_of_record hid hc, if_neg (by simp [mark, set]), if_pos set]
  · rw [takeSet_reserved hid hc mark reserved]
    refine ⟨fun lost => setReserved_lost lost s id, fun lost occupied => setReserved_occupied lost occupied id,
      fun lost clear => ?_⟩
    obtain ⟨faulty, sound⟩ := setReserved_clear lost clear id
    exact ⟨faulty, fun none mode => (sound none).trans (if_neg mode), fun none mode => (sound none).trans (if_pos mode)⟩

/-! ### A record enters SETTING (R104) -/

/-- The record as it enters SETTING: the reserved timer stopped, every demanded point an outstanding order. -/
def inSetting (c : Claim) : Claim :=
  { c with state := .setting, reservedT := none, setFail := false, orders := (c.steps.flatMap (·.demands)).map (·.point) }

theorem enterSetting_eq {s : State} {id : Nat} {c : Claim} (h : s.claim? id = some c) : s.enterSetting id c =
    if c.demands = [] then (s.modClaim id (fun _ => inSetting c)).leaveSetting id
    else forEach c.demands (fun d u => u.moveOrder d.point d.pos) (s.modClaim id (fun _ => inSetting c)) := by
  unfold State.enterSetting
  rw [modClaim_const s id c _ h]
  dsimp only
  by_cases none : c.demands = []
  · have nothing (u : State) : forEach c.demands (fun d u => u.moveOrder d.point d.pos) u = u := by
      rw [none]
      rfl
    rw [if_pos none, if_pos (List.isEmpty_iff.mpr none), nothing]
    rfl
  · rw [if_neg none, if_neg (by rwa [List.isEmpty_iff])]
    rfl

theorem recordEntersSetting : Clause.RecordEntersSetting := by
  intro s id c h
  refine ⟨fun some => ?_, fun none => (enterSetting_eq h).trans (if_pos none)⟩
  have begun : s.enterSetting id c = _ := (enterSetting_eq h).trans (if_neg some)
  refine ⟨begun, ?_⟩
  have ordered : (forEach c.demands (fun d u => u.moveOrder d.point d.pos) (s.modClaim id (fun _ => inSetting c))).ct.records
      = (s.modClaim id (fun _ => inSetting c)).ct.records :=
    forEach_keeps (·.ct.records) _ _ (fun (d : Demand) u => moveOrder_records u d.point d.pos) _
  rw [begun, claim?_congr ordered]
  exact claim?_modClaim h _

/-! ### A record leaves SETTING (R94, R105, R114) -/

/-- The permission-end notices of the record's locked sections have gone to PU. -/
def permissionsEnded (s : State) (c : Claim) : State :=
  { s with pu := { s.pu with
      permEnds := s.pu.permEnds ++ (c.steps.filter (fun st : ClaimStep => st.locked)).flatMap (fun st : ClaimStep => s.containedPoints st.sect) } }

/-- The record back in RESERVED. -/
def backToReserved (c : Claim) : Claim :=
  { c with state := .reserved, reservedT := some ⟨0, 10000⟩ }

/-- What a record without release mark becomes on leaving SETTING, and what its owner is told. -/
def settingLeft (s : State) (id : Nat) (c : Claim) : State :=
  if c.setFail = true then (permissionsEnded s c).modClaim id (fun _ => { backToReserved c with setFail := false })
  else if ∃ st ∈ c.steps, st.seen = true then
    ((permissionsEnded s c).modClaim id (fun _ => backToReserved c)).tellRe c.key.owner (.setFail c.key none .occupied)
  else ((permissionsEnded s c).modClaim id (fun _ => { c with state := .set, setT := some ⟨0, 1000 * c.approach + 15000⟩ })).tellRe
    c.key.owner (.setDone c.key s.time)

theorem anySeen_iff (c : Claim) : c.anySeen = true ↔ ∃ st ∈ c.steps, st.seen = true :=
  List.any_eq_true

theorem leaveSetting_marked {s : State} {id : Nat} {c : Claim} (h : s.claim? id = some c) (mark : c.releaseMark = true) :
    s.leaveSetting id = ((permissionsEnded s c).modClaim id (fun _ => { c with state := .reserved })).releaseClear id := by
  unfold State.leaveSetting
  rw [h]
  dsimp only
  rw [endPermissions_eq, if_pos mark]
  exact congrArg (State.releaseClear · id) (modClaim_const (permissionsEnded s c) id c _ h)

theorem leaveSetting_unmarked {s : State} {id : Nat} {c : Claim} (h : s.claim? id = some c) (mark : c.releaseMark = false) :
    s.leaveSetting id = if c.orphanPending then (settingLeft s id c).enterOrphaned id else settingLeft s id c := by
  have ended (f : Claim → Claim) : (permissionsEnded s c).modClaim id f = (permissionsEnded s c).modClaim id (fun _ => f c) :=
    modClaim_const (permissionsEnded s c) id c f h
  have left : (if c.setFail then (permissionsEnded s c).modClaim id (fun c =>
        { c with state := .reserved, setFail := false, reservedT := startTimer Config.reservedMs })
      else if c.anySeen then ((permissionsEnded s c).modClaim id (fun c =>
        { c with state := .reserved, reservedT := startTimer Config.reservedMs })).sendSetFail c.key none .occupied
      else ((permissionsEnded s c).modClaim id (fun c => { c with state := .set, setT := setTimerOf c.approach })).tellRe c.key.owner
        (.setDone c.key s.time)) = settingLeft s id c := by
    unfold settingLeft
    simp only [ended, anySeen_iff]
    rfl
  unfold State.leaveSetting
  rw [h]
  dsimp only
  rw [endPermissions_eq, mark, if_neg Bool.false_ne_true]
  exact congrArg (fun u : State => if c.orphanPending then u.enterOrphaned id else u) left

theorem recordLeavesSetting : Clause.RecordLeavesSetting := by
  intro s id c h
  refine ⟨fun mark => leaveSetting_marked h mark, fun mark pending => ?_, fun mark pending => ?_⟩
  · exact (leaveSetting_unmarked h mark).trans (if_neg (by rw [pending]; exact Bool.false_ne_true))
  · exact (leaveSetting_unmarked h mark).trans (if_pos pending)

/-- The record on leaving SETTING. -/
theorem settingLeft_claim? {s : State} {id : Nat} {c : Claim} (h : s.claim? id = some c) : (settingLeft s id c).claim? id =
    some (if c.setFail = true then { backToReserved c with setFail := false } else if c.anySeen = true then backToReserved c
      else { c with state := .set, setT := some ⟨0, 1000 * c.approach + 15000⟩ }) := by
  have h' : (permissionsEnded s c).claim? id = some c := h
  unfold settingLeft
  simp only [anySeen_iff]
  by_cases failed : c.setFail = true
  · rw [if_pos failed, if_pos failed]
    exact claim?_modClaim h' _
  · rw [if_neg failed, if_neg failed]
    by_cases seen : ∃ st ∈ c.steps, st.seen = true
    · rw [if_pos seen, if_pos seen, claim?_tellRe]
      exact claim?_modClaim h' _
    · rw [if_neg seen, if_neg seen, claim?_tellRe]
      exact claim?_modClaim h' _

/-! ### The reports of PU (R105, R107) -/

/-- CT has taken a report of PU. -/
def reportTaken (s : State) (rest : List PuReport) : State :=
  { s with ct := { s.ct with reports := rest } }

theorem exec_moveDone {s : State} {p p' : Nat} {rest : List PuReport}
    (h : takeFirst (fun r => r.point == p) s.ct.reports = some (.moveDone p', rest)) :
    exec (.moveDone p) s = .next ((reportTaken s rest).ctMoveDone p) := by
  unfold exec execMoveDone
  dsimp only
  rw [h]
  rfl

theorem exec_moveFail {s : State} {p p' : Nat} {cause : MoveCause} {rest : List PuReport}
    (h : takeFirst (fun r => r.point == p) s.ct.reports = some (.moveFail p' cause, rest)) :
    exec (.moveFail p) s = .next ((reportTaken s rest).ctMoveFail p cause) := by
  unfold exec execMoveFail
  dsimp only
  rw [h]
  rfl

theorem exec_detectionLost {s : State} {p p' : Nat} {rest : List PuReport}
    (h : takeFirst (fun r => r.point == p) s.ct.reports = some (.detectionLost p', rest)) :
    exec (.detectionLost p) s = .next ((reportTaken s rest).ctDetectionLost p) := by
  unfold exec execDetectionLost
  dsimp only
  rw [h]
  rfl

/-- The order for a point is answered. -/
def orderAnswered (p : Nat) (c : Claim) : Claim :=
  { c with orders := c.orders.erase p }

theorem answerOrder_eq {s : State} {id : Nat} {c : Claim} (h : s.claim? id = some c) (p : Nat) : s.answerOrder id p =
    if c.orders.erase p = [] then (s.modClaim id (orderAnswered p)).leaveSetting id else s.modClaim id (orderAnswered p) := by
  have answered : (s.modClaim id (orderAnswered p)).claim? id = some (orderAnswered p c) := claim?_modClaim h _
  unfold State.answerOrder
  change (match (s.modClaim id (orderAnswered p)).claim? id with
    | some c => if c.orders.isEmpty then _ else _
    | none => _) = _
  rw [answered]
  simp only [List.isEmpty_iff, orderAnswered]
  rfl

/-- The last order of a record without release mark and orphan pending mark. -/
theorem answerOrder_last {s : State} {id : Nat} {c : Claim} (h : s.claim? id = some c) {p : Nat} (last : c.orders.erase p = [])
    (mark : c.releaseMark = false) (pending : c.orphanPending = false) :
    (s.answerOrder id p).claim? id =
      some (if c.setFail = true then { backToReserved { c with orders := [] } with setFail := false }
        else if c.anySeen = true then backToReserved { c with orders := [] }
        else { c with orders := [], state := .set, setT := some ⟨0, 1000 * c.approach + 15000⟩ }) := by
  have answered : (s.modClaim id (orderAnswered p)).claim? id = some (orderAnswered p c) := claim?_modClaim h _
  have left := leaveSetting_unmarked answered mark
  rw [answerOrder_eq h, if_pos last, left, if_neg (by simp [orderAnswered, pending]), settingLeft_claim? answered]
  simp only [orderAnswered, last]
  rfl

theorem ctMoveDone_some {s : State} {p id : Nat} (h : s.recordOrdering p = some id) : s.ctMoveDone p = s.answerOrder id p := by
  unfold State.ctMoveDone
  rw [h]

theorem ctMoveDone_none {s : State} {p : Nat} (h : s.recordOrdering p = none) : s.ctMoveDone p = s := by
  unfold State.ctMoveDone
  rw [h]

theorem ctMoveFail_none {s : State} {p : Nat} (h : s.recordOrdering p = none) (cause : MoveCause) : s.ctMoveFail p cause = s := by
  unfold State.ctMoveFail
  rw [h]

theorem ctMoveFail_some {s : State} {p id : Nat} {c : Claim} (h : s.recordOrdering p = some id) (hc : s.claim? id = some c)
    (cause : MoveCause) : s.ctMoveFail p cause =
      if c.setFail = false ∧ c.releaseMark = false then
        ((s.tellRe c.key.owner (.setFail c.key (some p) cause.toSetFail)).modClaim id (fun c => { c with setFail := true })).answerOrder id p
      else s.answerOrder id p := by
  unfold State.ctMoveFail
  rw [h]
  dsimp only
  rw [hc]
  dsimp only
  by_cases first : c.setFail = false ∧ c.releaseMark = false
  · rw [if_pos first, if_pos (by simp [first])]
    rfl
  · rw [if_neg first, if_neg (by simpa using first)]

theorem ctDetectionLost_eq {s : State} {p : Nat} {cfg : PointCfg} (hcfg : s.yard.points[p]? = some cfg) :
    (s.lock? cfg.sect = none → s.ctDetectionLost p = s)
    ∧ (∀ id c, s.lock? cfg.sect = some id → s.claim? id = some c → s.ctDetectionLost p = s.losePoint id p c) := by
  unfold State.ctDetectionLost
  rw [hcfg, Option.bind_some]
  constructor
  · intro unlocked
    rw [unlocked]
  · intro id c locked hc
    rw [locked]
    dsimp only
    rw [hc]

/-! ### The loss of a point (R107) -/

theorem send_lostSent (s : State) (k : Kind) (dest : Nat) (l : List Byte) : (s.send k dest l).cnt.lostSent = s.cnt.lostSent := by
  unfold State.send
  (repeat' split) <;> rfl

theorem tellRe_lostSent (s : State) (dest : Nat) (m : ReMsg) : (s.tellRe dest m).cnt.lostSent = s.cnt.lostSent := by
  unfold State.tellRe
  split
  · rfl
  · split
    · exact send_lostSent _ _ _ _
    · rfl

/-- The CLAIM-LOST of a record goes out once: the mark is set afterwards, and its setting is counted. -/
theorem sendLost_record {s : State} {id : Nat} {c : Claim} (h : s.claim? id = some c) (cause : LostCause) (point : Option Nat) :
    (s.sendLost id cause point).claim? id = some { c with lostSent := true }
    ∧ (c.lostSent = false → (s.sendLost id cause point).cnt.lostSent = bump s.cnt.lostSent) := by
  unfold State.sendLost
  rw [h]
  dsimp only
  by_cases told : c.lostSent = true
  · rw [if_pos told, h]
    exact ⟨by rw [← told], fun untold => absurd (untold.symm.trans told) Bool.false_ne_true⟩
  · rw [if_neg told]
    refine ⟨?_, fun _ => ?_⟩
    · exact (claim?_tellRe _ _ _ id).trans (claim?_modClaim h _)
    · exact congrArg bump (tellRe_lostSent _ _ _)

/-- The record that has lost a point: the first point lost is the one it names. -/
def pointLost (p : Nat) (c : Claim) : Claim :=
  { c with lost := true, lostPoint := if c.lost then c.lostPoint else some p }

theorem losePoint_unmarked {s : State} {id : Nat} {c : Claim} (h : s.claim? id = some c) (mark : c.releaseMark = false) (p : Nat) :
    s.losePoint id p c = match c.state with
      | .reserved | .set => (s.modClaim id (fun _ => pointLost p c)).sendLost id .pointLost (some p)
      | .setting => if c.setFail then s.modClaim id (fun _ => pointLost p c)
        else ((s.modClaim id (fun _ => pointLost p c)).tellRe c.key.owner (.setFail c.key (some p) .detectionLost)).modClaim id
          (fun c => { c with setFail := true })
      | .orphaned => s.modClaim id (fun _ => pointLost p c) := by
  have marked : s.modClaim id (pointLost p) = s.modClaim id (fun _ => pointLost p c) := modClaim_const s id c _ h
  unfold State.losePoint
  rw [mark, if_neg Bool.false_ne_true, ← marked]
  rfl

/-- The record after the loss of one of its points, where the release mark does not stand. -/
theorem losePoint_record {s : State} {id : Nat} {c : Claim} (h : s.claim? id = some c) (mark : c.releaseMark = false) (p : Nat) :
    ∃ c', (s.losePoint id p c).claim? id = some c' ∧ c'.lost = true ∧ c'.state = c.state ∧ c'.steps = c.steps
      ∧ (c.state = .reserved ∨ c.state = .set → c'.lostSent = true
          ∧ (c.lostSent = false → (s.losePoint id p c).cnt.lostSent = bump s.cnt.lostSent))
      ∧ (c.state = .setting → c'.setFail = true) := by
  have marked : (s.modClaim id (fun _ => pointLost p c)).claim? id = some (pointLost p c) := claim?_modClaim h _
  rw [losePoint_unmarked h mark]
  cases state : c.state with
  | reserved | set =>
    obtain ⟨told, counted⟩ := sendLost_record marked .pointLost (some p)
    exact ⟨_, told, rfl, state, rfl, fun _ => ⟨rfl, counted⟩, nofun⟩
  | setting =>
    by_cases failed : c.setFail = true
    · refine ⟨pointLost p c, ?_, rfl, state, rfl, fun other => by simp at other, fun _ => failed⟩
      exact (congrArg (State.claim? · id) (if_pos failed)).trans marked
    · refine ⟨{ pointLost p c with setFail := true }, ?_, rfl, state, rfl, fun other => by simp at other, fun _ => rfl⟩
      exact (congrArg (State.claim? · id) (if_neg failed)).trans (claim?_modClaim ((claim?_tellRe _ _ _ id).trans marked) _)
  | orphaned => exact ⟨_, marked, rfl, state, rfl, fun other => by simp at other, nofun⟩

theorem losePoint_marked {c : Claim} (mark : c.releaseMark = true) (s : State) (id p : Nat) : s.losePoint id p c = s :=
  if_pos mark

theorem pointReportsAnswerOrders : Clause.PointReportsAnswerOrders := by
  intro s p p' rest
  refine ⟨fun done => ⟨fun none => ?_, fun id c hid hc => ?_⟩, fun cause fail => ⟨fun none => ?_, fun id c hid hc set mark => ?_,
    fun id c hid hc quiet => ?_⟩, fun lost => ⟨fun cfg hcfg unlocked => ?_, fun cfg id c hcfg locked hc => ⟨fun mark => ?_,
    fun mark => ?_⟩⟩⟩
  · rw [exec_moveDone done, ctMoveDone_none (s := reportTaken s rest) none]
    rfl
  · have taken : (reportTaken s rest).claim? id = some c := hc
    refine ⟨(reportTaken s rest).answerOrder id p, ?_, fun more => ?_, fun last => ?_, rfl, fun last mark pending => ?_⟩
    · rw [exec_moveDone done, ctMoveDone_some (s := reportTaken s rest) hid]
    · exact (answerOrder_eq taken p).trans (if_neg more)
    · exact (answerOrder_eq taken p).trans (if_pos last)
    · have record := answerOrder_last taken last mark pending
      refine ⟨fun set seen => ?_, fun failed => ?_, fun set seen => ?_⟩
      · rw [record, if_neg (by simp [set]), if_neg (by simp [seen])]
      · rw [record, if_pos failed]
        rfl
      · rw [record, if_neg (by simp [set]), if_pos seen]
        rfl
  · rw [exec_moveFail fail, ctMoveFail_none (s := reportTaken s rest) none]
    rfl
  · rw [exec_moveFail fail, ctMoveFail_some (s := reportTaken s rest) hid hc, if_pos ⟨set, mark⟩]
    rfl
  · rw [exec_moveFail fail, ctMoveFail_some (s := reportTaken s rest) hid hc, if_neg (by rcases quiet with h | h <;> simp [h])]
    rfl
  · rw [exec_detectionLost lost, (ctDetectionLost_eq (s := reportTaken s rest) hcfg).1 unlocked]
    rfl
  · rw [exec_detectionLost lost, (ctDetectionLost_eq (s := reportTaken s rest) hcfg).2 id c locked hc, losePoint_marked mark]
    rfl
  · have taken : (reportTaken s rest).claim? id = some c := hc
    refine ⟨_, exec_detectionLost lost, ?_⟩
    rw [(ctDetectionLost_eq (s := reportTaken s rest) hcfg).2 id c locked hc]
    exact losePoint_record taken mark p

/-- Settles O39. -/
theorem settingARoute : Obligations.SettingARoute :=
  ⟨setTable, recordEntersSetting, recordLeavesSetting, pointReportsAnswerOrders⟩

end Sys2Proof.Proofs
end

