-- ==== Sys2Proof/Proofs/ReHandovers.lean ====
section
/-! PROOF. What the own YU and the own CT do to RE when they take its handovers in its own event (R123 to R128, log entry 5): the
instances stay as they are, and nothing joins the handovers that are being taken. One lemma per operation, as for the reports of SU in
`ScanReports`. -/

namespace Sys2Proof.Proofs
open Sys2Proof.Machine Sys2Proof.Laws

/-! ### YU (R147, R151 to R156) -/

@[simp] theorem tellRe_insts (s : State) (dest : Nat) (m : ReMsg) :
    (s.tellRe dest m).re.insts = s.re.insts := by
  unfold State.tellRe
  (repeat' split) <;> simp

@[simp] theorem sendRoadChange_insts_fromRe (s : State) (r : Nat) :
    (s.sendRoadChange r).re.insts = s.re.insts ∧ (s.sendRoadChange r).yu.fromRe = s.yu.fromRe := by
  unfold State.sendRoadChange
  (repeat' split) <;> simp

@[simp] theorem announceGains_insts_fromRe (s : State) (old : List RoadRec) :
    (s.announceGains old).re.insts = s.re.insts ∧ (s.announceGains old).yu.fromRe = s.yu.fromRe := by
  refine ⟨forEach_keeps (·.re.insts) _ _ (fun r s => ?_) s, by simp⟩
  (repeat' split) <;> simp

@[simp] theorem takeBidCall_insts_fromRe (s : State) (call : CallId) (epoch : Epoch) (t : TramRec) :
    (s.takeBidCall call epoch t).re.insts = s.re.insts ∧ (s.takeBidCall call epoch t).yu.fromRe = s.yu.fromRe := by
  unfold State.takeBidCall State.answerCall
  dsimp only
  (repeat' split) <;> simp

@[simp] theorem takeAward_insts_fromRe (s : State) (call : CallId) (epoch : Epoch) (road : Nat) (t : TramRec) (direct : Bool) :
    (s.takeAward call epoch road t direct).re.insts = s.re.insts ∧ (s.takeAward call epoch road t direct).yu.fromRe = s.yu.fromRe := by
  unfold State.takeAward
  dsimp only
  (repeat' split) <;> simp

@[simp] theorem takeWithdraw_insts_fromRe (s : State) (call : CallId) (epoch : Epoch) :
    (s.takeWithdraw call epoch).re.insts = s.re.insts ∧ (s.takeWithdraw call epoch).yu.fromRe = s.yu.fromRe := by
  unfold State.takeWithdraw
  simp

@[simp] theorem unlinkArrival_insts (s : State) (id : Nat) :
    (s.unlinkArrival id).re.insts = s.re.insts := by
  unfold State.unlinkArrival
  simp

@[simp] theorem takePush_insts (s : State) (r : Nat) (call : CallId) (key : RouteKey) (tram : Nat) :
    (s.takePush r call key tram).re.insts = s.re.insts := by
  unfold State.takePush State.pushArrival
  dsimp only
  (repeat' split) <;> simp

@[simp] theorem takePop_insts (s : State) (r tram : Nat) :
    (s.takePop r tram).re.insts = s.re.insts := by
  unfold State.takePop
  dsimp only
  (repeat' split) <;> simp

@[simp] theorem yuTakes_insts_fromRe (s : State) (m : YuMsg) :
    (s.yuTakes m).re.insts = s.re.insts ∧ (s.yuTakes m).yu.fromRe = s.yu.fromRe := by
  unfold State.yuTakes
  (repeat' split) <;> simp

@[simp] theorem yuTakesAll_insts_fromRe (s : State) :
    s.yuTakesAll.re.insts = s.re.insts ∧ s.yuTakesAll.yu.fromRe = [] :=
  ⟨forEach_keeps (·.re.insts) _ _ (fun m s => (yuTakes_insts_fromRe s m).1) _,
    forEach_keeps (·.yu.fromRe) _ _ (fun m s => (yuTakes_insts_fromRe s m).2) _⟩

/-! ### CT (R95 to R105, R113) -/

theorem forEach_insts_fromRe {α : Type} (l : List α) (f : α → State → State) (s : State)
    (h : ∀ x s, (f x s).re.insts = s.re.insts ∧ (f x s).ct.fromRe = s.ct.fromRe) :
    (forEach l f s).re.insts = s.re.insts ∧ (forEach l f s).ct.fromRe = s.ct.fromRe :=
  ⟨forEach_keeps (·.re.insts) l f (fun x s => (h x s).1) s, forEach_keeps (·.ct.fromRe) l f (fun x s => (h x s).2) s⟩

@[simp] theorem denyTo_insts_fromRe (s : State) (dest : Nat) (key : RouteKey) (reason : DenyReason) (step : Nat) (detail : Option Nat) :
    (s.denyTo dest key reason step detail).re.insts = s.re.insts ∧ (s.denyTo dest key reason step detail).ct.fromRe = s.ct.fromRe := by
  unfold State.denyTo
  split <;> simp

@[simp] theorem mouthRelease_insts_fromRe (s : State) (id : Nat) (c : Claim) (st : ClaimStep) :
    (s.mouthRelease id c st).re.insts = s.re.insts ∧ (s.mouthRelease id c st).ct.fromRe = s.ct.fromRe := by
  unfold State.mouthRelease
  (repeat' split) <;> simp

@[simp] theorem freeIfEmpty_insts_fromRe (s : State) (id : Nat) :
    (s.freeIfEmpty id).re.insts = s.re.insts ∧ (s.freeIfEmpty id).ct.fromRe = s.ct.fromRe := by
  unfold State.freeIfEmpty
  (repeat' split) <;> simp

@[simp] theorem releaseStep_insts_fromRe (s : State) (id i : Nat) (tell : Bool) :
    (s.releaseStep id i tell).re.insts = s.re.insts ∧ (s.releaseStep id i tell).ct.fromRe = s.ct.fromRe := by
  unfold State.releaseStep
  dsimp only
  (repeat' split) <;> simp

@[simp] theorem releaseClear_insts_fromRe (s : State) (id : Nat) :
    (s.releaseClear id).re.insts = s.re.insts ∧ (s.releaseClear id).ct.fromRe = s.ct.fromRe := by
  refine forEach_insts_fromRe _ _ _ fun i s => ?_
  split <;> simp

@[simp] theorem windDown_insts_fromRe (s : State) (id : Nat) :
    (s.windDown id).re.insts = s.re.insts ∧ (s.windDown id).ct.fromRe = s.ct.fromRe := by
  unfold State.windDown
  dsimp only
  (repeat' split) <;> simp

@[simp] theorem grantClaim_insts_fromRe (s : State) (req : ClaimReq) (cls : RouteClass) (id : Nat) (free : List Nat) :
    (s.grantClaim req cls id free).re.insts = s.re.insts ∧ (s.grantClaim req cls id free).ct.fromRe = s.ct.fromRe := by
  unfold State.grantClaim
  dsimp only
  split <;> simp

@[simp] theorem checkSteps_insts_fromRe (s : State) (req : ClaimReq) :
    (s.checkSteps req).re.insts = s.re.insts ∧ (s.checkSteps req).ct.fromRe = s.ct.fromRe := by
  unfold State.checkSteps State.finishClaim
  (repeat' split) <;> simp

@[simp] theorem checkEarlier_insts_fromRe (s : State) (req : ClaimReq) :
    (s.checkEarlier req).re.insts = s.re.insts ∧ (s.checkEarlier req).ct.fromRe = s.ct.fromRe := by
  have wound : ∀ l : List Nat, ∀ s : State, (forEach l (fun id s => s.windDown id) s).re.insts = s.re.insts
      ∧ (forEach l (fun id s => s.windDown id) s).ct.fromRe = s.ct.fromRe :=
    fun l s => forEach_insts_fromRe l _ s fun id s => windDown_insts_fromRe s id
  unfold State.checkEarlier
  dsimp only
  (repeat' split) <;> simp [wound]

@[simp] theorem evaluateClaim_insts_fromRe (s : State) (req : ClaimReq) (rx : Option RxRec) :
    (s.evaluateClaim req rx).re.insts = s.re.insts ∧ (s.evaluateClaim req rx).ct.fromRe = s.ct.fromRe := by
  unfold State.evaluateClaim
  (repeat' split) <;> simp

@[simp] theorem sendSetFail_insts_fromRe (s : State) (key : RouteKey) (point : Option Nat) (cause : SetFailCause) :
    (s.sendSetFail key point cause).re.insts = s.re.insts ∧ (s.sendSetFail key point cause).ct.fromRe = s.ct.fromRe := by
  unfold State.sendSetFail
  simp

@[simp] theorem enterOrphaned_fromRe (s : State) (id : Nat) : (s.enterOrphaned id).ct.fromRe = s.ct.fromRe := by
  unfold State.enterOrphaned
  split <;> rfl

@[simp] theorem leaveSetting_insts_fromRe (s : State) (id : Nat) :
    (s.leaveSetting id).re.insts = s.re.insts ∧ (s.leaveSetting id).ct.fromRe = s.ct.fromRe := by
  unfold State.leaveSetting
  dsimp only
  (repeat' split) <;> simp

@[simp] theorem moveOrder_fromRe (s : State) (p : Nat) (t : Position) : (s.moveOrder p t).ct.fromRe = s.ct.fromRe := by
  unfold State.moveOrder State.settlePermission State.orderPermitted State.stopPoint
  dsimp only
  (repeat' split) <;> rfl

@[simp] theorem enterSetting_insts_fromRe (s : State) (id : Nat) (c : Claim) :
    (s.enterSetting id c).re.insts = s.re.insts ∧ (s.enterSetting id c).ct.fromRe = s.ct.fromRe := by
  have ordered : ∀ (l : List Demand) (s : State), (forEach l (fun d s => s.moveOrder d.point d.pos) s).ct.fromRe = s.ct.fromRe :=
    fun l s => forEach_keeps (·.ct.fromRe) l _ (fun d s => moveOrder_fromRe s d.point d.pos) s
  unfold State.enterSetting
  dsimp only
  split <;> simp [ordered]

@[simp] theorem takeSet_insts_fromRe (s : State) (key : RouteKey) :
    (s.takeSet key).re.insts = s.re.insts ∧ (s.takeSet key).ct.fromRe = s.ct.fromRe := by
  unfold State.takeSet State.setReserved
  (repeat' split) <;> simp

@[simp] theorem takeRelease_insts_fromRe (s : State) (key : RouteKey) :
    (s.takeRelease key).re.insts = s.re.insts ∧ (s.takeRelease key).ct.fromRe = s.ct.fromRe := by
  unfold State.takeRelease
  split <;> simp

@[simp] theorem ctTakes_insts_fromRe (s : State) (m : CtMsg) :
    (s.ctTakes m).re.insts = s.re.insts ∧ (s.ctTakes m).ct.fromRe = s.ct.fromRe := by
  unfold State.ctTakes
  split <;> simp

@[simp] theorem ctTakesAll_insts_fromRe (s : State) :
    s.ctTakesAll.re.insts = s.re.insts ∧ s.ctTakesAll.ct.fromRe = [] :=
  ⟨forEach_keeps (·.re.insts) _ _ (fun m s => (ctTakes_insts_fromRe s m).1) _,
    forEach_keeps (·.ct.fromRe) _ _ (fun m s => (ctTakes_insts_fromRe s m).2) _⟩

end Sys2Proof.Proofs
end

