-- ==== Sys2Proof/Proofs/Calls.lean ====
section
/-! PROOF. Bid calls, bids, awards and the timers of a call (O42). -/

namespace Sys2Proof.Proofs
open Sys2Proof.Machine Sys2Proof.Laws

/-! ### A new bid call (R123) -/

theorem send_bidCalls (s : State) (k : Kind) (dest : Nat) (l : List Byte) : (s.send k dest l).cnt.bidCalls = s.cnt.bidCalls := by
  unfold State.send
  (repeat' split) <;> rfl

theorem send_inst? (s : State) (k : Kind) (dest : Nat) (l : List Byte) (i : Nat) : (s.send k dest l).inst? i = s.inst? i :=
  inst?_of_insts (by simp only [send_keeps]) i

/-- The state of a new bid call before its broadcast: the counter and the `Inst`. -/
def callEntered (s : State) (i : Nat) (x : Inst) : State :=
  ({ s with re := { s.re with callSeq := s.nextSeq } }).setInst i (some (callingInst x ⟨s.pt.node, s.nextSeq⟩))

/-- A new bid call, block by block. -/
theorem startCall_blocks {s : State} {i : Nat} {x : Inst} (h : s.inst? i = some x) :
    let sent := s.send .bidCall 63 (encBidCall ⟨s.pt.node, s.nextSeq⟩ x.tramRec)
    s.startCall i = { s with
      re := (callEntered s i x).re, fs := sent.fs, cnt := { sent.cnt with bidCalls := bump s.cnt.bidCalls }
      yu := { s.yu with fromRe := s.yu.fromRe ++ [.bidCall ⟨s.pt.node, s.nextSeq⟩ x.tramRec] } } := by
  intro sent
  have fs : ((callEntered s i x).send .bidCall 63 (encBidCall ⟨s.pt.node, s.nextSeq⟩ x.tramRec)).fs = sent.fs :=
    send_fs_congr (s := callEntered s i x) (t := s) rfl rfl _ _ _
  have cnt : ((callEntered s i x).send .bidCall 63 (encBidCall ⟨s.pt.node, s.nextSeq⟩ x.tramRec)).cnt = sent.cnt :=
    send_cnt_congr (s := callEntered s i x) (t := s) rfl rfl rfl _ _ _
  have count : sent.cnt.bidCalls = s.cnt.bidCalls := send_bidCalls _ _ _ _
  rw [startCall_eq h, ← count, ← fs, ← cnt]
  change (((callEntered s i x).send _ _ _).count _).handYu _ = _
  rw [send_eq]
  rfl

theorem startCall_inst? {s : State} {i : Nat} {x : Inst} (h : s.inst? i = some x) :
    (s.startCall i).inst? i = some (callingInst x ⟨s.pt.node, s.nextSeq⟩) := by
  rw [startCall_blocks h]
  exact setInst_inst?_self (s := { s with re := { s.re with callSeq := s.nextSeq } }) h _

theorem startCall_insts_ne {s : State} {i j : Nat} {x : Inst} (h : s.inst? i = some x) (hj : j ≠ i) :
    (s.startCall i).re.insts[j]? = s.re.insts[j]? := by
  rw [startCall_blocks h]
  exact List.getElem?_set_ne (Ne.symm hj)

theorem newBidCall : Clause.NewBidCall := by
  intro s i x h
  have self := startCall_inst? h
  have others : ∀ j, j ≠ i → (s.startCall i).inst? j = s.inst? j := fun j hj => (startCall_apart (Ne.symm hj) s).inst
  have insts : ∀ j, j ≠ i → (s.startCall i).re.insts[j]? = s.re.insts[j]? := fun j hj => startCall_insts_ne h hj
  dsimp only
  rw [startCall_blocks h] at self others insts ⊢
  exact ⟨self, others, rfl, rfl, rfl, rfl, insts, rfl, rfl, rfl⟩

/-! ### The call sequence (R121) -/

/-- An `Inst` in use holds `q` as its call ID or as that of its award. -/
theorem seqInUse_iff (s : State) (q : Nat) : s.seqInUse q = true ↔ ∃ i x, s.inst? i = some x
    ∧ ((∃ c, x.call = some c ∧ c.seq = q) ∨ ∃ a, x.award = some a ∧ a.call.seq = q) := by
  have held (x : Inst) : (x.call.map (·.seq) == some q || x.award.map (fun a => a.call.seq) == some q) = true
      ↔ (∃ c, x.call = some c ∧ c.seq = q) ∨ ∃ a, x.award = some a ∧ a.call.seq = q := by
    simp only [Bool.or_eq_true, beq_iff_eq, Option.map_eq_some_iff]
  unfold State.seqInUse
  rw [List.any_eq_true]
  constructor
  · rintro ⟨_ | x, mem, holds⟩
    · exact absurd holds Bool.false_ne_true
    · obtain ⟨i, hi⟩ := List.mem_iff_getElem?.mp mem
      exact ⟨i, x, inst?_eq_some.mpr hi, (held x).mp holds⟩
  · rintro ⟨i, x, hx, holds⟩
    exact ⟨some x, List.mem_iff_getElem?.mpr ⟨i, inst?_eq_some.mp hx⟩, (held x).mpr holds⟩

/-- The search from `q` on finds the first value not in use, where it lies within reach. -/
theorem freeSeqFrom_first {s : State} {n : Nat} {k q : Nat} (reach : n ≤ k) (used : ∀ m, m < n → s.seqInUse ((q + m) % 256) = true)
    (free : s.seqInUse ((q + n) % 256) = false) : s.freeSeqFrom k (q % 256) = (q + n) % 256 := by
  induction n generalizing k q with
  | zero =>
    cases k with
    | zero => rfl
    | succ k => exact if_neg (by rw [show q % 256 = (q + 0) % 256 from rfl, free]; exact Bool.false_ne_true)
  | succ n ih =>
    obtain ⟨k, rfl⟩ : ∃ k', k = k' + 1 := ⟨k - 1, by omega⟩
    have next : s.freeSeqFrom (k + 1) (q % 256) = s.freeSeqFrom k ((q % 256 + 1) % 256) := if_pos (used 0 (Nat.succ_pos n))
    have shift (m : Nat) : q + 1 + m = q + (m + 1) := by omega
    rw [next, Nat.mod_add_mod, ih (q := q + 1) (by omega) (fun m hm => by rw [shift]; exact used (m + 1) (by omega)) (by rwa [shift]), shift]

theorem callSequenceSkipsValuesInUse : Clause.CallSequenceSkipsValuesInUse := by
  intro s n value held reach used free
  have inUse (q : Nat) : s.seqInUse q = true ↔ held q := seqInUse_iff s q
  exact freeSeqFrom_first reach (fun m hm => (inUse _).mpr (used m hm))
    (Bool.eq_false_iff.mpr fun h => free ((inUse _).mp h))

/-! ### Bids (R124) -/

/-- The call ID of a bid names no `Inst` in BIDDING. -/
theorem bidding_none {s : State} {call : CallId}
    (h : ∀ i x, s.inst? i = some x → ¬ (x.state = .calling ∧ x.phase = some .bidding ∧ x.call = some call)) : s.bidding call = none := by
  unfold State.bidding
  rw [firstIndex_eq_none_iff]
  rintro (_ | x) mem
  · rfl
  · obtain ⟨i, hi⟩ := List.mem_iff_getElem?.mp mem
    have other := h i x (inst?_eq_some.mpr hi)
    rw [Bool.eq_false_iff]
    simpa only [ne_eq, Bool.and_eq_true, beq_iff_eq, and_assoc] using other

/-- The node a bid comes from: the source of its frame, or the node itself. -/
def bidder (s : State) (rx : Option RxRec) : Nat :=
  match rx with
  | some r => r.source
  | none => s.pt.node

/-- The conditions under which a bid counts (R124). -/
def BidCounts (s : State) (x : Inst) (road score : Nat) (rx : Option RxRec) : Prop :=
  (∀ r, rx = some r → r.usable = true ∧ r.epochMatch = true) ∧ score ≤ 4095 ∧ s.runInRoute x.signal (bidder s rx) road ≠ none
    ∧ bidder s rx ∉ x.bidders

/-- The `Inst` after a bid that counts. -/
def afterBid (x : Inst) (b : BestBid) : Inst :=
  { x with bidders := x.bidders ++ [b.node], best := if b.beats x.best then some b else x.best }

/-- A bid for an `Inst` in BIDDING, as its conditions decide. -/
theorem takeBid_eq {s : State} {call : CallId} {i : Nat} {x : Inst} (hc : s.bidding call = some i) (hx : s.inst? i = some x)
    (mode : s.pt.mode ≠ .isolated) (road score : Nat) (rx : Option RxRec) :
    (BidCounts s x road score rx → s.takeBid call road score rx = s.setInst i (some (afterBid x ⟨bidder s rx, road, score⟩)))
    ∧ (¬ BidCounts s x road score rx → s.takeBid call road score rx = s) := by
  have mode' : (s.pt.mode != .isolated) = true := by simpa using mode
  unfold State.takeBid BidCounts
  rw [hc]
  dsimp only
  rw [hx]
  dsimp only
  rw [modInst_eq hx, mode']
  have isSome (o : Option Nat) : o.isSome = true ↔ o ≠ none := Option.isSome_iff_ne_none
  cases rx with
  | none =>
    simp only [isSome, Bool.and_eq_true, decide_eq_true_eq, Bool.not_eq_true', List.contains_eq_mem, decide_eq_false_iff_not, true_and,
      and_assoc, reduceCtorEq, false_implies, implies_true]
    exact ⟨fun counts => if_pos counts, fun ignored => if_neg ignored⟩
  | some r =>
    simp only [isSome, Bool.and_eq_true, decide_eq_true_eq, Bool.not_eq_true', List.contains_eq_mem, decide_eq_false_iff_not, true_and,
      and_assoc, Option.some.injEq, forall_eq']
    exact ⟨fun counts => if_pos counts, fun ignored => if_neg ignored⟩

theorem takeBid_idle {s : State} {call : CallId} (h : s.pt.mode = .isolated
      ∨ ∀ i x, s.inst? i = some x → ¬ (x.state = .calling ∧ x.phase = some .bidding ∧ x.call = some call))
    (road score : Nat) (rx : Option RxRec) : s.takeBid call road score rx = s := by
  unfold State.takeBid
  rcases h with isolated | idle
  · rw [isolated]
    dsimp only
    split
    · split
      · exact if_neg (by simp)
      · rfl
    · rfl
  · rw [bidding_none idle]

/-- The lower score wins, and of equal scores the lower node ID. -/
theorem bestAfter_eq (best : Option BestBid) (node road score : Nat) :
    (if BestBid.beats ⟨node, road, score⟩ best then some ⟨node, road, score⟩ else best) = match best with
    | none => some ⟨node, road, score⟩
    | some b => if score < b.score ∨ (score = b.score ∧ node < b.node) then some ⟨node, road, score⟩ else some b := by
  cases best with
  | none => rfl
  | some b => simp only [BestBid.beats, Bool.or_eq_true, Bool.and_eq_true, decide_eq_true_eq, beq_iff_eq]

/-! ### Road changes (R125) -/

/-- What a road change makes of an `Inst`: one in WAITING calls again. -/
def callsAgain (i : Nat) (x : Inst) (s : State) : State :=
  if x.state = .calling ∧ x.phase = some .waiting then s.startCall i else s

theorem takeRoadChange_eq (s : State) : s.takeRoadChange = if s.pt.mode ≠ .isolated then sweep callsAgain s else s := by
  unfold State.takeRoadChange State.originates
  by_cases isolated : s.pt.mode = .isolated
  · rw [if_neg (by simp [isolated]), if_neg (by simp [isolated])]
  · rw [if_pos (by simp [isolated]), if_pos isolated]
    rfl

theorem callsAgain_apart {i j : Nat} (h : j ≠ i) (x : Inst) (s : State) : Apart i s (callsAgain j x s) := by
  unfold callsAgain
  split
  · exact startCall_apart h s
  · exact .refl i s

theorem takeRoadChange_idle {s : State} (h : s.pt.mode = .isolated
      ∨ ∀ i x, s.inst? i = some x → ¬ (x.state = .calling ∧ x.phase = some .waiting)) : s.takeRoadChange = s := by
  rw [takeRoadChange_eq]
  rcases h with isolated | idle
  · exact if_neg (not_not.mpr isolated)
  · have swept : sweep callsAgain s = s := forEach_id fun i _ => by
      split
      · exact if_neg (idle i _ ‹_›)
      · rfl
    rw [swept, ite_self]

theorem takeRoadChange_waiting {s : State} {i : Nat} {x : Inst} (mode : s.pt.mode ≠ .isolated) (hx : s.inst? i = some x)
    (calling : x.state = .calling) (waiting : x.phase = some .waiting) : ∃ y, s.takeRoadChange.inst? i = some y
      ∧ y.state = .calling ∧ y.phase = some .bidding ∧ y.timers.bid = some ⟨0, 150⟩ := by
  obtain ⟨u, met, left⟩ := sweep_inst hx fun j y v hj => callsAgain_apart (i := i) hj y v
  have again : callsAgain i x u = u.startCall i := if_pos ⟨calling, waiting⟩
  rw [again] at left
  refine ⟨callingInst x ⟨u.pt.node, u.nextSeq⟩, ?_, rfl, rfl, rfl⟩
  rw [takeRoadChange_eq, if_pos mode, left.inst]
  exact startCall_inst? (met.inst.trans hx)

theorem bidsAndRoadChanges : Clause.BidsAndRoadChanges := by
  refine ⟨fun s f fs' taken => congrArg Host.Outcome.next (withFrame_some taken _), fun s call road score rest waits => ?_,
    fun s f fs' taken => congrArg Host.Outcome.next (withFrame_some taken _), fun s road rest waits => ?_,
    fun s call road score i x rx hc hx mode => ?_, fun s call road score rx idle => takeBid_idle idle road score rx,
    fun s idle => takeRoadChange_idle idle, fun s i x mode hx calling waiting => takeRoadChange_waiting mode hx calling waiting⟩
  · exact congrArg Host.Outcome.next (by unfold State.withBidHandover; rw [waits])
  · exact congrArg Host.Outcome.next (by unfold State.withChangeHandover; rw [waits])
  · obtain ⟨counts, ignored⟩ := takeBid_eq hc hx mode road score rx
    refine ⟨fun trusted low route new => ?_, fun bad => ignored ?_⟩
    · exact (counts ⟨trusted, low, route, new⟩).trans (congrArg (fun best => s.setInst i (some { x with
        bidders := x.bidders ++ [bidder s rx], best := best })) (bestAfter_eq x.best (bidder s rx) road score))
    · rintro ⟨trusted, low, route, new⟩
      rcases bad with ⟨r, hr, untrusted⟩ | high | none | again
      · obtain ⟨usable, same⟩ := trusted r hr
        rcases untrusted with unusable | other
        · exact absurd (unusable.symm.trans usable) Bool.false_ne_true
        · exact absurd (other.symm.trans same) Bool.false_ne_true
      · omega
      · exact route none
      · exact new again

/-! ### Awards (R124, R126) -/

/-- The `Inst` in AWARDING with its award. -/
def awardingInst (x : Inst) (a : AwardRec) (route : Option Nat) : Inst :=
  { x with
    state := .calling, phase := some .awarding, call := some a.call, best := none, bidders := [], award := some a
    route := route, timers := ReTimers.stopped }

/-- The `Inst` whose award to another node has gone out, and settles. -/
def settlingInst (x : Inst) (a : AwardRec) (route : Option Nat) : Inst :=
  { awardingInst x a route with timers := { ReTimers.stopped with awardWait := some ⟨0, 60⟩ } }

theorem makeAward_other {s : State} {a : AwardRec} (h : a.node ≠ s.pt.node) (i : Nat) (x : Inst) (route : Option Nat) :
    s.makeAward i x a route = (s.setInst i (some (settlingInst x a route))).send .award a.node
      (encAward a.call a.road x.tramRec a.direct) :=
  if_neg h

theorem makeAward_own {s : State} {a : AwardRec} (h : a.node = s.pt.node) (i : Nat) (x : Inst) (route : Option Nat) :
    s.makeAward i x a route = (((s.setInst i (some (awardingInst x a route))).handYu
      (.award a.call a.road x.tramRec a.direct)).yuTakesAll).beginAttempt i :=
  if_pos h

theorem awardsAreMade : Clause.AwardsAreMade := by
  refine ⟨fun s i x a route => ⟨fun other => makeAward_other other i x route, fun own => makeAward_own own i x route⟩,
    fun s i x d node road hx hd hroad => ?_, fun s => ⟨rfl, (yuTakesAll_insts_fromRe s).2, fun call t => rfl,
      fun call road t direct => rfl, fun call => rfl⟩⟩
  have slot : s.slotRoad x.slot = some (node, road) := by
    unfold State.slotRoad
    rw [hd]
    exact hroad
  unfold State.directAward
  rw [hx]
  dsimp only
  rw [slot]

/-! ### The timers of a call (R124, R125) -/

theorem originates_iff (s : State) : s.originates = true ↔ s.pt.mode ≠ .isolated := by
  unfold State.originates
  rw [bne_iff_ne]

theorem bidExpiry_award {s : State} {i : Nat} {x : Inst} (hx : s.inst? i = some x) (expired : due x.timers.bid = true) {b : BestBid}
    {call : CallId} (best : x.best = some b) (named : x.call = some call) : s.bidExpiry i =
      if s.pt.mode ≠ .isolated then s.makeAward i x ⟨call, b.node, b.road, false⟩ (s.runInRoute x.signal b.node b.road) else s := by
  unfold State.bidExpiry
  rw [hx]
  dsimp only
  rw [if_pos expired, best, named]
  simp only [originates_iff]

theorem bidExpiry_noBid {s : State} {i : Nat} {x : Inst} (hx : s.inst? i = some x) (expired : due x.timers.bid = true)
    (best : x.best = none) : s.bidExpiry i = s.setInst i (some { x with
      phase := some .waiting, best := none, bidders := [], timers := { ReTimers.stopped with roadWait := some ⟨0, 5000⟩ } }) := by
  unfold State.bidExpiry
  rw [hx]
  dsimp only
  rw [if_pos expired, best]
  rfl

theorem bidExpiry_running {s : State} {i : Nat} {x : Inst} (hx : s.inst? i = some x) (running : due x.timers.bid ≠ true) :
    s.bidExpiry i = s := by
  unfold State.bidExpiry
  rw [hx]
  exact if_neg running

theorem exec_roadWaitExpiry {s : State} {i : Nat} {x : Inst} (hx : s.inst? i = some x) : exec (.roadWaitExpiry i) s =
    if due x.timers.roadWait = true ∧ s.pt.mode ≠ .isolated then .next (s.startCall i) else .next s := by
  unfold exec execRoadWaitExpiry
  dsimp only
  rw [hx]
  simp only [Bool.and_eq_true, originates_iff]

theorem exec_awardWaitExpiry {s : State} {i : Nat} {x : Inst} (hx : s.inst? i = some x) : exec (.awardWaitExpiry i) s =
    if due x.timers.awardWait = true ∧ s.pt.mode ≠ .isolated then .next (s.beginAttempt i) else .next s := by
  unfold exec execAwardWaitExpiry
  dsimp only
  rw [hx]
  simp only [Bool.and_eq_true, originates_iff]

theorem callTimersExpire : Clause.CallTimersExpire := by
  intro s i x hx
  refine ⟨fun b call expired mode best named other => ?_, fun b call expired mode best named => ?_, fun expired none => ?_,
    fun expired mode => ?_, fun expired mode => ?_, fun isolated => ⟨fun b call best named => ?_, ?_, ?_⟩⟩
  · have made := (bidExpiry_award hx expired best named).trans ((if_pos mode).trans
      (makeAward_other (a := ⟨call, b.node, b.road, false⟩) other i x (s.runInRoute x.signal b.node b.road)))
    refine ⟨_, congrArg Host.Outcome.next made, ?_, send_fs_congr (s := s.setInst i _) (t := s) rfl rfl _ _ _,
      send_cnt_congr (s := s.setInst i _) (t := s) rfl rfl rfl _ _ _, by rw [send_eq]; rfl⟩
    rw [send_inst?, setInst_inst?_self hx, named]
    rfl
  · exact congrArg Host.Outcome.next ((bidExpiry_award hx expired best named).trans (if_pos mode))
  · exact congrArg Host.Outcome.next (bidExpiry_noBid hx expired none)
  · exact (exec_roadWaitExpiry hx).trans (if_pos ⟨expired, mode⟩)
  · exact (exec_awardWaitExpiry hx).trans (if_pos ⟨expired, mode⟩)
  · by_cases expired : due x.timers.bid = true
    · exact congrArg Host.Outcome.next ((bidExpiry_award hx expired best named).trans (if_neg (not_not.mpr isolated)))
    · exact congrArg Host.Outcome.next (bidExpiry_running hx expired)
  · exact (exec_roadWaitExpiry hx).trans (if_neg fun h => h.2 isolated)
  · exact (exec_awardWaitExpiry hx).trans (if_neg fun h => h.2 isolated)

/-- Settles O42. -/
theorem callingForARoad : Obligations.CallingForARoad :=
  ⟨newBidCall, callSequenceSkipsValuesInUse, bidsAndRoadChanges, callTimersExpire, awardsAreMade⟩

end Sys2Proof.Proofs
end

