-- ==== Sys2Proof/Proofs/Attempts.lean ====
section
/-! PROOF. Attempts: how they begin, how they fail, what RE lets go, and what the own CT takes (O43). -/

namespace Sys2Proof.Proofs
open Sys2Proof.Machine Sys2Proof.Laws

/-! ### A failed attempt is counted (R127, R128) -/

theorem attemptsFailed_send (s : State) (k : Kind) (dest : Nat) (l : List Byte) :
    (s.send k dest l).cnt.attemptsFailed = s.cnt.attemptsFailed := by
  unfold State.send
  (repeat' split) <;> rfl

theorem attemptsFailed_releaseTo (s : State) (key : RouteKey) (node : Nat) :
    (s.releaseTo key node).cnt.attemptsFailed = s.cnt.attemptsFailed := by
  unfold State.releaseTo
  split
  · rfl
  · split
    · exact attemptsFailed_send _ _ _ _
    · rfl

/-- What the slot of a failed attempt holds afterwards: its attempts are one more, 255 at most. -/
theorem countFailure_slot {s : State} {slot : Nat} {d : SlotData} (hd : (s.rq.slots[slot]?).bind Slot.data? = some d) :
    ((s.countFailure slot).rq.slots[slot]?).bind Slot.data? = some { d with attempts := min (d.attempts + 1) 255 } := by
  have modified : (s.countFailure slot).rq.slots[slot]? = (s.rq.slots[slot]?).map
      (Slot.mapData (fun d => { d with attempts := min (d.attempts + 1) 255 })) := List.getElem?_modify_eq _ _ _
  rw [modified]
  obtain ⟨held, hslot, data⟩ := Option.bind_eq_some_iff.mp hd
  rw [hslot]
  cases held with
  | free => exact absurd data nofun
  | queued e | active e _ _ =>
    obtain rfl : e = d := Option.some.inj data
    rfl

theorem slotAttempts_eq {s : State} {slot : Nat} {d : SlotData} (hd : (s.rq.slots[slot]?).bind Slot.data? = some d) :
    s.slotAttempts slot = d.attempts := by
  unfold State.slotAttempts
  rw [hd]

/-! ### Back-off (R137) -/

/-- The `Inst` in BACKOFF until `limit`. -/
def backoffInst (x : Inst) (limit : Nat) : Inst :=
  { x with
    state := .backoff, phase := none, best := none, bidders := []
    timers := { ReTimers.stopped with retry := some ⟨0, limit⟩ } }

theorem enterBackoff_eq {s : State} {i : Nat} {x : Inst} {rc : RouteCfg} (hx : s.inst? i = some x) (hrc : s.routeOf x = some rc) :
    s.enterBackoff i = s.setInst i (some (backoffInst x (retryDelay rc.cls (s.slotAttempts x.slot) s.pt.node))) := by
  unfold State.enterBackoff
  rw [hx]
  dsimp only
  rw [hrc]
  rfl

theorem retryDelay_eq (cls : RouteClass) (n node : Nat) :
    retryDelay cls n node = (match cls with | .runIn => 100 | .runOut => 200 | .shunt => 400) * min n 8 + 5 * node := by
  cases cls <;> rfl

/-! ### What RE lets go (R127, R128, R138) -/

theorem releaseTo_own {s : State} {node : Nat} (h : node = s.pt.node) (key : RouteKey) :
    s.releaseTo key node = { s with ct := { s.ct with fromRe := s.ct.fromRe ++ [.release key] } } :=
  if_pos h

theorem releaseTo_other {s : State} {node : Nat} (h : node ≠ s.pt.node) (addressable : node < 63) (key : RouteKey) :
    s.releaseTo key node = s.send .release node (encKey key) :=
  (if_neg h).trans (if_pos addressable)

/-- What waits for the own CT keeps waiting while RELEASEs go out. -/
theorem mem_fromRe_releaseTo {s : State} {m : CtMsg} (h : m ∈ s.ct.fromRe) (key : RouteKey) (node : Nat) :
    m ∈ (s.releaseTo key node).ct.fromRe := by
  by_cases own : node = s.pt.node
  · rw [releaseTo_own own]
    exact List.mem_append_left _ h
  · unfold State.releaseTo
    rw [if_neg own]
    split
    · simpa only [send_keeps] using h
    · exact h

/-- The RELEASE of an owner list that names the node waits for its own CT. -/
theorem release_mem_fromRe {l : List OwnerEntry} {s : State} (own : ∃ o ∈ l, o.node = s.pt.node) (key : RouteKey) :
    .release key ∈ (forEach l (fun o u => u.releaseTo key o.node) s).ct.fromRe := by
  induction l generalizing s with
  | nil => simp at own
  | cons o os ih =>
    by_cases first : o.node = s.pt.node
    · have waits : .release key ∈ (s.releaseTo key o.node).ct.fromRe := by
        rw [releaseTo_own first]
        exact List.mem_append_right _ List.mem_cons_self
      exact forEach_preserves (P := fun u => .release key ∈ u.ct.fromRe) (l := os)
        (fun p _ u hu => mem_fromRe_releaseTo hu key p.node) waits
    · have later : ∃ p ∈ os, p.node = s.pt.node := by simpa [first] using own
      exact ih (s := s.releaseTo key o.node) (by simpa only [releaseTo_keeps] using later)

theorem withdrawAward_own {s : State} {x : Inst} {a : AwardRec} (ha : x.award = some a) (own : a.node = s.pt.node) :
    s.withdrawAward x = { s with yu := { s.yu with fromRe := s.yu.fromRe ++ [.withdraw a.call] } } := by
  unfold State.withdrawAward
  rw [ha]
  exact if_pos own

theorem withdrawAward_other {s : State} {x : Inst} {a : AwardRec} (ha : x.award = some a) (other : a.node ≠ s.pt.node) :
    s.withdrawAward x = s.send .awardWithdraw a.node [byte a.call.caller, byte a.call.seq] := by
  unfold State.withdrawAward
  rw [ha]
  exact if_neg other

theorem withdrawAward_none {x : Inst} (ha : x.award = none) (s : State) : s.withdrawAward x = s := by
  unfold State.withdrawAward
  rw [ha]

theorem failAttempt_award {s : State} {i : Nat} {x : Inst} {a : AwardRec} (hx : s.inst? i = some x) (ha : x.award = some a) :
    s.failAttempt i .noAward = ((((s.releaseAsked x).countFailure x.slot).withdrawAward x).setInst i (some x.dropAward)).startCall i
    ∧ s.failAttempt i .noRoom
      = ((((s.releaseAsked x).countFailure x.slot).withdrawAward x).setInst i (some x.dropAward)).enterBackoff i := by
  unfold State.failAttempt
  rw [hx]
  dsimp only
  rw [ha]
  exact ⟨rfl, rfl⟩

theorem reLetsGo : Clause.ReLetsGo := by
  intro s key node i x
  refine ⟨fun own => releaseTo_own own key, fun other addressable => releaseTo_other other addressable key,
    fun a ha => ⟨withdrawAward_own ha, withdrawAward_other ha⟩, fun none => withdrawAward_none none s, fun a hx ha => ?_⟩
  dsimp only
  rw [← releaseAsked_eq]
  exact failAttempt_award hx ha

theorem ctTakesItsHandovers : Clause.CtTakesItsHandovers := fun s =>
  ⟨rfl, (ctTakesAll_insts_fromRe s).2, fun _ => rfl, fun _ => rfl, fun _ => rfl⟩

/-! ### An attempt fails (R128, R129, R130, R137) -/

/-- What of a failing attempt precedes the back-off: the RELEASEs, and the count. -/
def failureCounted (s : State) (x : Inst) : State :=
  (s.releaseAsked x).countFailure x.slot

theorem failureCounted_inst? {s : State} {i : Nat} {x : Inst} (hx : s.inst? i = some x) : (failureCounted s x).inst? i = some x :=
  ((releaseAsked_apart i s x).trans (countFailure_apart i _ _)).inst.trans hx

theorem failureCounted_counts (s : State) (x : Inst) : (failureCounted s x).cnt.attemptsFailed = bump s.cnt.attemptsFailed := by
  have released : (s.releaseAsked x).cnt.attemptsFailed = s.cnt.attemptsFailed :=
    forEach_keeps (·.cnt.attemptsFailed) _ _ (fun (o : OwnerEntry) u => attemptsFailed_releaseTo u (u.keyOf x) o.node) s
  exact congrArg bump released

theorem failureCounted_slot {s : State} {x : Inst} {d : SlotData} (hd : (s.rq.slots[x.slot]?).bind Slot.data? = some d) :
    ((failureCounted s x).rq.slots[x.slot]?).bind Slot.data? = some { d with attempts := min (d.attempts + 1) 255 } :=
  countFailure_slot (by simpa only [releaseAsked_keeps] using hd)

/-- A failed attempt of an `Inst` with a route. -/
theorem failAttempt_eq {s : State} {i : Nat} {x : Inst} {rc : RouteCfg} {d : SlotData} (hx : s.inst? i = some x)
    (hrc : s.routeOf x = some rc) (hd : (s.rq.slots[x.slot]?).bind Slot.data? = some d) : s.failAttempt i .other =
      (failureCounted s x).setInst i (some (backoffInst x (retryDelay rc.cls (min (d.attempts + 1) 255) s.pt.node))) := by
  have node : (failureCounted s x).pt = s.pt := by simp [failureCounted]
  have route : (failureCounted s x).routeOf x = some rc := (routeOf_congr (by simp [failureCounted]) x).trans hrc
  rw [failAttempt_other hx]
  change (failureCounted s x).enterBackoff i = _
  rw [enterBackoff_eq (failureCounted_inst? hx) route, slotAttempts_eq (failureCounted_slot hd), node]

theorem exec_claimWindowExpiry {s : State} {i : Nat} {x : Inst} (hx : s.inst? i = some x) (expired : due x.timers.claim = true) :
    exec (.claimWindowExpiry i) s = .next (s.failAttempt i .other) := by
  unfold exec execClaimWindowExpiry
  dsimp only
  rw [hx]
  exact if_pos expired

theorem exec_setWindowExpiry {s : State} {i : Nat} {x : Inst} (hx : s.inst? i = some x) (expired : due x.timers.set = true) :
    exec (.setWindowExpiry i) s = .next (s.failAttempt i .other) := by
  unfold exec execSetWindowExpiry
  dsimp only
  rw [hx]
  exact if_pos expired

theorem attemptsFail : Clause.AttemptsFail := by
  intro s i x rc d hx hrc hd
  have failed := failAttempt_eq hx hrc hd
  have blocks : (s.failAttempt i .other).fs = (s.releaseAsked x).fs ∧ (s.failAttempt i .other).ct = (s.releaseAsked x).ct := by
    rw [failed]
    exact ⟨rfl, rfl⟩
  refine ⟨?_, ?_, ?_, fun own => ?_, ?_, exec_claimWindowExpiry hx, exec_setWindowExpiry hx⟩
  · rw [failed, setInst_inst?_self (failureCounted_inst? hx), retryDelay_eq]
    rfl
  · rw [failed]
    exact failureCounted_counts s x
  · rw [failed]
    exact congrArg (Option.map (·.attempts)) (failureCounted_slot hd)
  · rw [blocks.2, releaseAsked_eq]
    obtain ⟨o, mem, named⟩ := List.any_eq_true.mp own
    obtain ⟨node, isAsked⟩ := Bool.and_eq_true_iff.mp named
    exact release_mem_fromRe ⟨o, List.mem_filter.mpr ⟨mem, isAsked⟩, beq_iff_eq.mp node⟩ _
  · rw [← releaseAsked_eq]
    exact blocks

/-! ### An attempt begins (R127) -/

/-- The `Inst` at its next attempt, before anything goes out. -/
def nextAttemptInst (x : Inst) (rc : RouteCfg) : Inst :=
  { x with
    attempt := some x.nextAttempt, phase := none, best := none, bidders := [], timers := ReTimers.stopped
    owners := rc.owners.map (OwnerEntry.fresh false) }

/-- The `Inst` that asks every owner of its route. -/
def askingInst (x : Inst) (rc : RouteCfg) : Inst :=
  { nextAttemptInst x rc with
    state := .claiming, owners := rc.owners.map (OwnerEntry.fresh true)
    timers := { ReTimers.stopped with claim := some ⟨0, 400⟩ } }

theorem anyUnusable_iff (s : State) (l : List Nat) : l.any (fun k => k != s.pt.node && !s.peerUsable k) = true
    ↔ ∃ k ∈ l, k ≠ s.pt.node ∧ s.peerUsable k = false := by
  simp only [List.any_eq_true, Bool.and_eq_true, bne_iff_ne, Bool.not_eq_true']

theorem beginAttempt_eq {s : State} {i : Nat} {x : Inst} {rc : RouteCfg} (hx : s.inst? i = some x) (hrc : s.routeOf x = some rc) :
    s.beginAttempt i = if 255 < x.nextAttempt then (s.withdrawAward x).endInst i x .expired
      else if ∃ k ∈ rc.owners, k ≠ s.pt.node ∧ s.peerUsable k = false then
        ((s.setInst i (some (nextAttemptInst x rc))).countFailure x.slot).enterBackoff i
      else s.makeAttempt i (nextAttemptInst x rc) rc := by
  unfold State.beginAttempt
  rw [hx]
  dsimp only
  rw [hrc]
  simp only [anyUnusable_iff]
  rfl

theorem makeAttempt_inst? {s : State} {i : Nat} {x : Inst} (hx : s.inst? i = some x) (rc : RouteCfg) :
    (s.makeAttempt i (nextAttemptInst x rc) rc).inst? i = some (askingInst x rc) := by
  have kept : (s.makeAttempt i (nextAttemptInst x rc) rc).re.insts = (s.setInst i (some (askingInst x rc))).re.insts :=
    (ctTakesAll_insts_fromRe _).1.trans (forEach_keeps (·.re.insts) _ _ (fun k u => by simp) _)
  rw [inst?_of_insts kept, setInst_inst?_self hx]

/-- The CLAIMs of an attempt, one for each owner, under the key the attempt has. -/
theorem makeAttempt_eq (s : State) (i : Nat) (x : Inst) (rc : RouteCfg) : s.makeAttempt i (nextAttemptInst x rc) rc =
    (forEach rc.owners (fun k u => if k = s.pt.node then u.handCt (.claim (s.claimFor (nextAttemptInst x rc) rc k))
      else u.send .claim k (encClaim (s.claimFor (nextAttemptInst x rc) rc k))) (s.setInst i (some (askingInst x rc)))).ctTakesAll := by
  refine congrArg State.ctTakesAll (forEach_congr_on (P := fun u => u.pt = s.pt) (fun k _ u hu => ?_) (fun k _ u hu => ?_) rfl)
  · split
    · exact hu
    · simpa only [send_keeps] using hu
  · have claim : u.claimFor (nextAttemptInst x rc) rc k = s.claimFor (nextAttemptInst x rc) rc k := by
      unfold State.claimFor
      rw [keyOf_congr hu]
    unfold State.sendClaim
    rw [claim, hu]

/-- With an owner that is not usable the attempt backs off at once, and nothing goes out. -/
theorem unusableOwner_backsOff {s : State} {i : Nat} {x : Inst} {rc : RouteCfg} (hx : s.inst? i = some x) (hrc : s.routeOf x = some rc)
    (within : x.nextAttempt ≤ 255) (unusable : ∃ k ∈ rc.owners, k ≠ s.pt.node ∧ s.peerUsable k = false) :
    ∃ y, (s.beginAttempt i).inst? i = some y ∧ y.state = .backoff ∧ y.attempt = some x.nextAttempt
      ∧ (s.beginAttempt i).cnt.attemptsFailed = bump s.cnt.attemptsFailed
      ∧ (s.beginAttempt i).fs = s.fs ∧ (s.beginAttempt i).ct = s.ct := by
  have entered : ((s.setInst i (some (nextAttemptInst x rc))).countFailure x.slot).inst? i = some (nextAttemptInst x rc) :=
    setInst_inst?_self hx _
  have backed : s.beginAttempt i = _ := (beginAttempt_eq hx hrc).trans ((if_neg (by omega)).trans
    ((if_pos unusable).trans (enterBackoff_eq (rc := rc) entered hrc)))
  rw [backed]
  exact ⟨_, setInst_inst?_self entered _, rfl, rfl, rfl, rfl, rfl⟩

/-! ### The end of a back-off (R137) -/

theorem exec_retryTimerExpiry {s : State} {i : Nat} {x : Inst} (hx : s.inst? i = some x) : exec (.retryTimerExpiry i) s =
    if due x.timers.retry = true ∧ s.pt.mode ≠ .isolated then .next (s.retry i x) else .next s := by
  unfold exec execRetryTimerExpiry
  dsimp only
  rw [hx]
  simp only [Bool.and_eq_true, originates_iff]

theorem retry_award {s : State} {x : Inst} {a : AwardRec} (ha : x.award = some a) (i : Nat) : s.retry i x =
    if a.direct = true ∨ a.node = s.pt.node ∨ s.peerUsable a.node = true then s.beginAttempt i
    else ((s.withdrawAward x).setInst i (some x.dropAward)).startCall i := by
  unfold State.retry
  rw [ha]
  simp only [Bool.or_eq_true, beq_iff_eq, or_assoc]

theorem retry_noAward {s : State} {x : Inst} (ha : x.award = none) (i : Nat) : s.retry i x = match x.code with
    | .road => s.directAward i
    | .inbound => s.startCall i
    | .outbound => s.beginAttempt i
    | .dest => s.beginAttempt i := by
  cases code : x.code <;>
    (unfold State.retry
     simp only [ha, code])

theorem attemptsBegin : Clause.AttemptsBegin := by
  intro s i x hx
  refine ⟨fun rc hrc => ?_, fun isolated => (exec_retryTimerExpiry hx).trans (if_neg fun h => h.2 isolated), fun expired mode => ?_⟩
  · have began := beginAttempt_eq hx hrc
    have asked (within : x.nextAttempt ≤ 255) (usable : ∀ k ∈ rc.owners, k = s.pt.node ∨ s.peerUsable k = true) :
        s.beginAttempt i = s.makeAttempt i (nextAttemptInst x rc) rc := by
      have none : ¬ ∃ k ∈ rc.owners, k ≠ s.pt.node ∧ s.peerUsable k = false := by
        rintro ⟨k, hk, other, unusable⟩
        rcases usable k hk with own | used
        · exact other own
        · exact absurd (unusable.symm.trans used) Bool.false_ne_true
      exact began.trans ((if_neg (by omega)).trans (if_neg none))
    refine ⟨fun spent => began.trans (if_pos spent), fun within => unusableOwner_backsOff hx hrc within,
      fun within usable => ?_, fun within usable => ?_⟩
    · rw [asked within usable]
      exact makeAttempt_inst? hx rc
    · rw [asked within usable, makeAttempt_eq]
      rfl
  · have retried : exec (.retryTimerExpiry i) s = .next (s.retry i x) := (exec_retryTimerExpiry hx).trans (if_pos ⟨expired, mode⟩)
    rw [retried]
    refine ⟨fun a ha kept => congrArg Host.Outcome.next ((retry_award ha i).trans (if_pos kept)), fun a ha bid other lost => ?_,
      fun none => congrArg Host.Outcome.next (retry_noAward none i)⟩
    exact congrArg Host.Outcome.next ((retry_award ha i).trans (if_neg (by simp [bid, other, lost])))

/-- Settles O43. -/
theorem attempts : Obligations.Attempts :=
  ⟨attemptsBegin, attemptsFail, reLetsGo, ctTakesItsHandovers⟩

end Sys2Proof.Proofs
end

