-- ==== Sys2Proof/Proofs/Readers.lean ====
section
/-! PROOF. Reader inputs (O33): one byte at a reader input by what follows the telegram before it, the checks of a telegram, and the
timers of a request point. -/

namespace Sys2Proof.Proofs
open Sys2Proof.Machine Sys2Proof.Laws

/-! ### A request point's record -/

/-- A change of the record `r` of point `p` sets it. -/
theorem modReqPoint_eq {s : State} {p : Nat} {r : ReqPoint} (hr : s.rq.points[p]? = some r) (f : ReqPoint → ReqPoint) :
    s.modReqPoint p f = { s with rq := { s.rq with points := s.rq.points.set p (f r) } } := by
  simp [State.modReqPoint, List.modify_eq_set_getElem?, hr]

/-- The changed record reads back. -/
theorem modReqPoint_same {s : State} {p : Nat} {r : ReqPoint} (hr : s.rq.points[p]? = some r) (f : ReqPoint → ReqPoint) :
    (s.modReqPoint p f).rq.points[p]? = some (f r) := by
  simp [hr]

/-! ### A byte on a reader input (R75) -/

/-- Before the 3 ms have passed no byte is discarded. -/
theorem gapPassed_running {s : State} {p : Nat} {r : ReqPoint} (hr : s.rq.points[p]? = some r) (running : due r.gap = false) :
    s.gapPassed p = s := by
  simp [State.gapPassed, hr, running]

/-- A byte at an input that is read, with no 3 ms gap passed, is assembled. -/
theorem readerByte_assembles {s : State} {p : Nat} {r : ReqPoint} (reads : s.readsPoint p = true) (hr : s.rq.points[p]? = some r)
    (running : due r.gap = false) (value : Byte) (framed : Bool) :
    s.readerByte p value framed = s.assembleByte p value framed := by
  rw [State.readerByte, if_pos reads, gapPassed_running hr running]

section
variable {s : State} {p : Nat} {r : ReqPoint} (hr : s.rq.points[p]? = some r) (value : Byte) (framed : Bool)
include hr

/-- Up to seven bytes are held. -/
theorem assembleByte_holds (fresh : r.overrun = .none) (room : r.bytes.length < 7) : s.assembleByte p value framed
    = s.modReqPoint p (fun r' =>
        { r' with bytes := r.bytes ++ [value], damaged := r.damaged || !framed, gap := startTimer Config.gapMs }) := by
  simp [State.assembleByte, hr, fresh, room]

/-- The eighth byte completes the telegram. -/
theorem assembleByte_completes (fresh : r.overrun = .none) (full : 7 ≤ r.bytes.length) : s.assembleByte p value framed
    = s.completeTelegram p (r.bytes ++ [value]) (r.damaged || !framed) := by
  simp [State.assembleByte, hr, fresh, full]

/-- The first byte after a telegram is counted. -/
theorem assembleByte_counts (armed : r.overrun = .armed) : s.assembleByte p value framed
    = (s.modReqPoint p (fun r => { r with gap := startTimer Config.gapMs, overrun := .counted })).badTelegram := by
  simp [State.assembleByte, hr, armed]

/-- Further bytes after it are ignored. -/
theorem assembleByte_ignores (counted : r.overrun = .counted) : s.assembleByte p value framed
    = s.modReqPoint p (fun r => { r with gap := startTimer Config.gapMs }) := by
  simp [State.assembleByte, hr, counted]

end

/-- The point's record once its telegram is complete: its input is idle, and a byte within 3 ms is an overrun. -/
def completedPoint (r : ReqPoint) : ReqPoint :=
  { r with bytes := [], damaged := false, gap := startTimer Config.gapMs, overrun := .armed }

/-- What becomes of a completed telegram: counted where it is damaged or fails a check, waiting for its request otherwise. -/
theorem completeTelegram_eq (s : State) (p : Nat) (l : List Byte) (damaged : Bool) : s.completeTelegram p l damaged =
    if damaged then (s.modReqPoint p completedPoint).badTelegram
    else match telegramFault l with
      | some f => (s.modReqPoint p completedPoint).countTelegramFault f
      | none => { s.modReqPoint p completedPoint with rq := { (s.modReqPoint p completedPoint).rq with
          telegrams := s.rq.telegrams ++ [⟨p, l, s.time⟩] } } := by
  unfold State.completeTelegram
  rfl

/-- A telegram's fault changes the counters alone. -/
theorem countTelegramFault_eq (s : State) (f : TelegramFault) :
    s.countTelegramFault f = { s with cnt := (s.countTelegramFault f).cnt } := by
  cases f <;> rfl

/-- Completing a telegram changes its point's record, the telegrams that wait, and the counters. -/
theorem completeTelegram_frame (s : State) (p : Nat) (l : List Byte) (damaged : Bool) : s.completeTelegram p l damaged =
    { s with
      rq := { s.rq with points := s.rq.points.modify p completedPoint, telegrams := (s.completeTelegram p l damaged).rq.telegrams }
      cnt := (s.completeTelegram p l damaged).cnt } := by
  rw [completeTelegram_eq]
  split
  · rfl
  · split
    · rw [countTelegramFault_eq]
      rfl
    · rfl

/-- What a byte can change of the state. -/
theorem assembleByte_frame (s : State) (p : Nat) (value : Byte) (framed : Bool) : s.assembleByte p value framed =
    { s with
      rq := { s.rq with
        points := (s.assembleByte p value framed).rq.points, telegrams := (s.assembleByte p value framed).rq.telegrams }
      cnt := (s.assembleByte p value framed).cnt } := by
  cases hr : s.rq.points[p]? with
  | none => simp [State.assembleByte, hr]
  | some r =>
    cases ho : r.overrun with
    | none =>
      by_cases room : r.bytes.length < 7
      · rw [assembleByte_holds hr value framed ho room]
        rfl
      · rw [assembleByte_completes hr value framed ho (by omega), completeTelegram_frame]
    | armed =>
      rw [assembleByte_counts hr value framed ho]
      rfl
    | counted =>
      rw [assembleByte_ignores hr value framed ho]
      rfl

theorem readerBytesFormTelegrams : Clause.ReaderBytesFormTelegrams := by
  intro p value framed s r reads hr running
  refine ⟨s.assembleByte p value framed, congrArg Host.Outcome.next (readerByte_assembles reads hr running value framed),
    fun fresh room => ?_, fun fresh full => ?_, fun armed => ?_, fun counted => ?_, assembleByte_frame s p value framed⟩
  · rw [assembleByte_holds hr value framed fresh room]
    exact ⟨modReqPoint_same hr _, rfl, rfl⟩
  · rw [assembleByte_completes hr value framed fresh full]
    refine ⟨?_, fun bad => ?_, fun whole stop fault => ?_, fun whole stop fault => ?_, fun whole stop good => ?_⟩
    · rw [completeTelegram_frame, List.getElem?_modify, hr]
      simp [completedPoint, startTimer, Config.gapMs]
    · have damaged : (r.damaged || !framed) = true := by simpa using bad
      rw [completeTelegram_eq, if_pos damaged]
      exact ⟨rfl, rfl⟩
    all_goals
      have sound : ¬ (r.damaged || !framed) = true := by simp [whole, stop]
      rw [completeTelegram_eq, if_neg sound]
    · rw [fault]
      exact ⟨rfl, rfl⟩
    · rw [fault]
      exact ⟨rfl, rfl⟩
    · rw [good]
      exact ⟨rfl, rfl⟩
  · rw [assembleByte_counts hr value framed armed]
    exact ⟨modReqPoint_same hr _, rfl, rfl⟩
  · rw [assembleByte_ignores hr value framed counted]
    exact ⟨modReqPoint_same hr _, rfl, rfl⟩

/-! ### The checks of a telegram (R76, R180) -/

/-- The check byte of seven bytes is FFh less their sum modulo 256. -/
theorem telGood_iff (b0 b1 b2 b3 b4 b5 b6 b7 : Byte) : telGood [b0, b1, b2, b3, b4, b5, b6, b7] = true
    ↔ b7.toNat = 255 - (b0.toNat + b1.toNat + b2.toNat + b3.toNat + b4.toNat + b5.toNat + b6.toNat) % 256 := by
  have read : telGood [b0, b1, b2, b3, b4, b5, b6, b7] = true ↔ checkByte [b0, b1, b2, b3, b4, b5, b6] = b7 := by
    simp [telGood, byteAt, byte]
  rw [read, ← BitVec.toNat_inj]
  simp only [checkByte, byteSum]
  bv_omega

/-- Check 1 before check 2. -/
theorem telegramFault_eq (l : List Byte) : telegramFault l =
    if telGood l = true then if 1 ≤ wordAt l 0 ∧ wordAt l 0 ≤ 9999 then none else some .badTram else some .badCheck := by
  cases h : telGood l <;> simp [telegramFault, h]

theorem telegramsAreValidated : Clause.TelegramsAreValidated := by
  intro b0 b1 b2 b3 b4 b5 b6 b7
  dsimp only
  have word : wordAt [b0, b1, b2, b3, b4, b5, b6, b7] 0 = 256 * b0.toNat + b1.toNat := rfl
  rw [telegramFault_eq, word, Ne, ← telGood_iff]
  refine ⟨fun bad => if_neg bad, fun good tram => ?_, fun good low high => ?_⟩
  · rw [if_pos good, if_neg (by omega)]
  · rw [if_pos good, if_pos ⟨low, high⟩]

/-! ### The timers of a request point (R75, R79) -/

/-- Once the 3 ms have passed the bytes held are discarded, and counted where there are any. -/
theorem gapPassed_due {s : State} {p : Nat} {r : ReqPoint} (hr : s.rq.points[p]? = some r) (expired : due r.gap = true) :
    s.gapPassed p = { s with
      rq := { s.rq with points := s.rq.points.set p { r with bytes := [], damaged := false, gap := none, overrun := .none } }
      cnt := if r.bytes = [] then s.cnt else { s.cnt with badTelegram := bump s.cnt.badTelegram } } := by
  simp only [State.gapPassed, hr, expired, if_true, modReqPoint_eq hr, List.isEmpty_iff]
  split <;> rfl

/-- A hold ends at its end time. -/
theorem holdEnd_reached {s : State} {p : Nat} {r : ReqPoint} {h : Hold} (hr : s.rq.points[p]? = some r) (hh : r.hold = some h)
    (expired : reached s.time h.endTime = true) :
    s.holdEnd p = { s with rq := { s.rq with points := s.rq.points.set p { r with hold := none } } } := by
  simp only [State.holdEnd, modReqPoint_eq hr, hh, expired, if_true]

theorem requestPointTimersExpire : Clause.RequestPointTimersExpire := by
  intro p s r hr
  refine ⟨fun expired => ⟨_, congrArg Host.Outcome.next (gapPassed_due hr expired), rfl, rfl, rfl⟩,
    fun h hh expired => ⟨_, congrArg Host.Outcome.next (holdEnd_reached hr hh expired), rfl, rfl⟩⟩

/-- Settles O33: the bytes of a telegram, its checks, and the two timers. -/
theorem readerInputs : Obligations.ReaderInputs :=
  ⟨readerBytesFormTelegrams, telegramsAreValidated, requestPointTimersExpire⟩

end Sys2Proof.Proofs
end

