-- ==== Sys2Proof/Proofs/Outcomes.lean ====
section
/-! PROOF. Outcome records (R88, R90, R167): what writing one changes, and that their reports follow one another whatever the blocks RQ and
RE hold. -/

namespace Sys2Proof.Proofs
open Sys2Proof.Machine Sys2Proof.Laws

/-! ### Reports of outcomes (R88, R167) -/

theorem outcomesAreReported : Clause.OutcomesAreReported := by
  intro s r
  unfold State.reportOutcome
  cases r.serial <;> cases r.code.detail <;> rfl

/-- Reporting an outcome changes RP's serial, FS and the counters alone. -/
theorem reportOutcome_eq (s : State) (r : OutcomeRec) : s.reportOutcome r = { s with
    rp := (s.reportOutcome r).rp, fs := (s.reportOutcome r).fs, cnt := (s.reportOutcome r).cnt } := by
  rw [outcomesAreReported, eventSent_eq]

/-- So do several reports. -/
theorem reported_eq (s : State) (l : List OutcomeRec) : s.reported l = { s with
    rp := (s.reported l).rp, fs := (s.reported l).fs, cnt := (s.reported l).cnt } := by
  induction l generalizing s with
  | nil => rfl
  | cons r l ih => rw [reported_cons, ih, reportOutcome_eq]

/-- Records are reported one after the other. -/
theorem reported_append (s : State) (l : List OutcomeRec) (r : OutcomeRec) :
    s.reported (l ++ [r]) = (s.reported l).reportOutcome r := by
  induction l generalizing s with
  | nil => rfl
  | cons x l ih => exact ih (s.reportOutcome x)

/-! ### Reports beside RQ and RE -/

/-- The state `u` with the given RQ and RE, the two blocks that cancels and outcomes change. -/
def withRequests (rq : RQ) (re : RE) (u : State) : State :=
  { u with rq := rq, re := re }

/-- FS takes a frame whatever RQ and RE hold. -/
theorem withRequests_send (rq : RQ) (re : RE) (u : State) (kind : Kind) (dest : Nat) (l : List Byte) :
    (withRequests rq re u).send kind dest l = withRequests rq re (u.send kind dest l) := by
  rw [send_eq u, send_eq (withRequests rq re u), send_fs_congr (s := withRequests rq re u) (t := u) rfl rfl,
    send_cnt_congr (s := withRequests rq re u) (t := u) rfl rfl rfl]
  rfl

/-- So are outcomes reported. -/
theorem withRequests_reportOutcome (rq : RQ) (re : RE) (u : State) (r : OutcomeRec) :
    (withRequests rq re u).reportOutcome r = withRequests rq re (u.reportOutcome r) :=
  withRequests_send rq re { u with rp := { u.rp with serial := u.rp.serial + 1 } } _ _ _

/-- Records are reported whatever RQ and RE hold. -/
theorem withRequests_reported (rq : RQ) (re : RE) (u : State) (l : List OutcomeRec) :
    (withRequests rq re u).reported l = withRequests rq re (u.reported l) := by
  induction l generalizing u with
  | nil => rfl
  | cons r l ih => rw [reported_cons, reported_cons, withRequests_reportOutcome, ih]

/-! ### Writing a record (R88, R90) -/

/-- An outcome record is written at the front of the ring, and reported. -/
theorem writeOutcome_eq (s : State) (r : OutcomeRec) : s.writeOutcome r
    = withRequests { s.rq with ring := (r :: s.rq.ring).take 16 } s.re (s.reportOutcome r) :=
  withRequests_reportOutcome { s.rq with ring := (r :: s.rq.ring).take 16 } s.re s r

/-- A slot's outcome, in a state with the given RQ and RE. -/
theorem withRequests_slotOutcome (rq : RQ) (re : RE) (u : State) (d : SlotData) (code : OutcomeCode) :
    (withRequests rq re u).slotOutcome d code
      = withRequests { rq with ring := (u.outcomeOf d code :: rq.ring).take 16 } re (u.reportOutcome (u.outcomeOf d code)) := by
  rw [State.slotOutcome, writeOutcome_eq, withRequests_reportOutcome]
  rfl

/-- The ring after one more record. -/
theorem ringAfter_append (ring l : List OutcomeRec) (r : OutcomeRec) :
    ringAfter ring (l ++ [r]) = (r :: ringAfter ring l).take 16 := by
  simp [ringAfter]

end Sys2Proof.Proofs
end

