-- ==== Sys2Proof/Proofs/Requests.lean ====
section
/-! PROOF. Requests (O34): the refusal conditions, what a request is compared with, and what a request that is ignored, refused or taken
leaves (R77 to R81, R157). -/

namespace Sys2Proof.Proofs
open Sys2Proof.Machine Sys2Proof.Laws

/-! ### The refusal conditions (R78) -/

theorem refusalConditionsInOrder : Clause.RefusalConditionsInOrder := by
  intro s t c
  dsimp only
  refine ⟨rfl, fun mode => ?_, fun mode fault => ?_, fun mode sound route => ?_, fun mode sound route full => ?_,
    fun mode sound route room => ?_⟩ <;> unfold State.refusalOf
  · exact if_pos mode
  · simp only [mode, fault, ne_eq, not_true_eq_false, if_false, if_true]
  · simp only [mode, sound, route, ne_eq, not_true_eq_false, Bool.false_eq_true, if_false, if_true]
  · simp only [mode, sound, route, full, ne_eq, not_true_eq_false, Bool.false_eq_true, if_false, if_true]
  · simp only [mode, sound, route, room, ne_eq, not_true_eq_false, Bool.false_eq_true, if_false]

/-! ### What a request is compared with (R77 to R81) -/

/-- What a slot in use holds. -/
theorem data?_eq_some_iff {x : Slot} {d : SlotData} : x.data? = some d ↔ x = .queued d ∨ ∃ i mark, x = .active d i mark := by
  cases x <;> simp [Slot.data?]

/-- The first item with a property is missing exactly where no item has it. -/
theorem firstIndex_none_iff_forall {α : Type} {p : α → Bool} {P : α → Prop} (h : ∀ x, p x = true ↔ P x) (l : List α) :
    firstIndex p l = none ↔ ∀ x ∈ l, ¬ P x := by
  simp only [firstIndex_eq_none_iff, ← h, Bool.not_eq_true]

/-- The first item with a property stands where it has it and no earlier one does. -/
theorem firstIndex_some_iff_first {α : Type} {p : α → Bool} {P : α → Prop} (h : ∀ x, p x = true ↔ P x) (l : List α) (k : Nat) :
    firstIndex p l = some k ↔ (∃ x, l[k]? = some x ∧ P x) ∧ ∀ j x, j < k → l[j]? = some x → ¬ P x := by
  simp only [firstIndex_eq_some_iff, ← h, Bool.not_eq_true]

/-- A route is one that a request at signal `g` names: its entry signal, its class and its destination (R78). -/
def RouteFits (c : ReqCode) (l : List Byte) (g : Nat) (rc : RouteCfg) : Prop :=
  rc.signal = g ∧ (match c with
    | .inbound => rc.cls = .runIn
    | .outbound => rc.cls = .runOut ∧ rc.dest = .line
    | .road => rc.cls = .runIn ∧ rc.dest = .road (byteAt l 5) (byteAt l 6)
    | .dest => rc.cls = .shunt ∧ rc.dest = .code (byteAt l 5))

/-- The model's comparison of a route with a request, class by class. -/
theorem matchRoute_accepts_iff (g : Nat) (c : ReqCode) (l : List Byte) (rc : RouteCfg) :
    (rc.signal == g && rc.cls == c.cls && (match wantedDest c l with | some d => rc.dest == d | none => true)) = true
      ↔ RouteFits c l g rc := by
  cases c <;> simp [RouteFits, ReqCode.cls, wantedDest, and_assoc]

theorem holdStands_iff (s : State) (m : Telegram) : s.holdStands m = true ↔ ∃ r h, s.rq.points[m.point]? = some r
    ∧ r.hold = some h ∧ h.tram = wordAt m.bytes 0 ∧ h.code = byteAt m.bytes 4 := by
  cases hr : s.rq.points[m.point]? with
  | none => simp [State.holdStands, hr]
  | some r => simp [State.holdStands, hr, Option.any_eq_true, telCode]

theorem duplicate_iff (s : State) (m : Telegram) (c : ReqCode) : s.duplicate m c = true ↔
    ∃ d, (Slot.queued d ∈ s.rq.slots ∨ ∃ i mark, Slot.active d i mark ∈ s.rq.slots)
      ∧ d.point = m.point ∧ d.tram = wordAt m.bytes 0 ∧ d.code = c := by
  have held : ∀ d, (Slot.queued d ∈ s.rq.slots ∨ ∃ i mark, Slot.active d i mark ∈ s.rq.slots)
      ↔ ∃ x ∈ s.rq.slots, x.data? = some d := by
    intro d
    simp only [data?_eq_some_iff]
    constructor
    · rintro (h | ⟨i, mark, h⟩)
      · exact ⟨_, h, .inl rfl⟩
      · exact ⟨_, h, .inr ⟨i, mark, rfl⟩⟩
    · rintro ⟨x, h, rfl | ⟨i, mark, rfl⟩⟩
      · exact .inl h
      · exact .inr ⟨i, mark, h⟩
  simp only [held, State.duplicate, List.any_eq_true, Option.any_eq_true, Bool.and_eq_true, beq_iff_eq, and_assoc]
  constructor
  · rintro ⟨x, hx, d, hd, same⟩
    exact ⟨d, ⟨x, hx, hd⟩, same⟩
  · rintro ⟨d, ⟨x, hx, hd⟩, same⟩
    exact ⟨x, hx, d, hd, same⟩

theorem requestsAreCompared : Clause.RequestsAreCompared := by
  intro s m c
  have free : ∀ x : Slot, (x == Slot.free) = true ↔ x = .free := fun x => beq_iff_eq
  refine ⟨holdStands_iff s m, duplicate_iff s m c, fun g => firstIndex_none_iff_forall (matchRoute_accepts_iff g c m.bytes) _,
    fun g k => firstIndex_some_iff_first (matchRoute_accepts_iff g c m.bytes) _ k, ?_, fun k => ?_, fun serial => rfl⟩
  · refine (firstIndex_none_iff_forall free s.rq.slots).trans ⟨fun h mem => h _ mem rfl, ?_⟩
    rintro h x mem rfl
    exact h mem
  · refine (firstIndex_some_iff_first free s.rq.slots k).trans (and_congr ?_ (forall_congr' fun j => ?_))
    · simp
    · exact ⟨fun h hj hx => h _ hj hx rfl, fun h x hj hx hfree => h hj (hx.trans (congrArg some hfree))⟩

/-! ### Taking a telegram (R76) -/

/-- The state in which a telegram has been taken, and `rest` waits. -/
def telegramTaken (s : State) (rest : List Telegram) : State :=
  { s with rq := { s.rq with telegrams := rest } }

/-- A good telegram of the sort asked for is taken, and its request examined. -/
theorem withTelegram_good {s : State} {p : Nat} {cls : TelClass} {m : Telegram} {rest : List Telegram}
    (h : s.hasTelegram p cls m rest) (f : Telegram → State → State) :
    s.withTelegram p cls f = f m (telegramTaken s rest) := by
  obtain ⟨oldest, sort, good⟩ := h
  simp only [State.withTelegram, oldest, sort, good, if_true]
  rfl

/-- A request command takes the oldest telegram of its point as a request of its code. -/
theorem exec_requestCommand {c : ReqCode} {p : Nat} {s : State} {m : Telegram} {rest : List Telegram}
    (h : s.hasTelegram p (.request c) m rest) :
    exec (requestCommand c p) s = .next (State.newRequest (some c) m (telegramTaken s rest)) := by
  rw [← withTelegram_good h (State.newRequest (some c))]
  cases c <;> rfl

/-! ### A request by its fate (R77 to R80) -/

/-- A refusal: its outcome record, and the refusal hold of its point. -/
theorem refuse_eq (s : State) (m : Telegram) (d : RefusalDetail) : s.refuse m d = withRequests
    { s.rq with
      ring := (⟨none, wordAt m.bytes 0, s.entrySignal m.point, .refused d, s.time⟩ :: s.rq.ring).take 16
      points := s.rq.points.modify m.point (fun r => { r with
        hold := some ⟨wordAt m.bytes 0, telCode m.bytes, m.arrival + BitVec.ofNat 32 30000⟩ }) }
    s.re (s.reportOutcome ⟨none, wordAt m.bytes 0, s.entrySignal m.point, .refused d, s.time⟩) := by
  unfold State.refuse
  rw [writeOutcome_eq]
  rfl

/-- Each outcome report takes the next EVENT serial. -/
theorem reportOutcome_serial (s : State) (r : OutcomeRec) : (s.reportOutcome r).rp.serial = s.rp.serial + 1 := by
  rw [outcomesAreReported, State.eventSent, send_eq]

/-- A held request is ignored. -/
theorem newRequest_held {s : State} {m : Telegram} (held : s.holdStands m = true) (c : Option ReqCode) :
    State.newRequest c m s = s :=
  if_pos held

/-- A repeated request is ignored. -/
theorem newRequest_repeated {s : State} {m : Telegram} {c : ReqCode} (repeated : s.duplicate m c = true) :
    State.newRequest (some c) m s = s := by
  simp [State.newRequest, repeated]

/-- A request that is neither, with a condition of R78 that holds, is refused. -/
theorem newRequest_refused {s : State} {m : Telegram} {c : Option ReqCode} {d : RefusalDetail} (unheld : s.holdStands m = false)
    (fresh : c.any (fun c => s.duplicate m c) = false) (refused : s.refusalOf m c = some d) :
    State.newRequest c m s = s.refuse m d := by
  simp [State.newRequest, unheld, fresh, refused]

/-- A request that meets none is filed. -/
theorem newRequest_passed {s : State} {m : Telegram} {c : ReqCode} (unheld : s.holdStands m = false)
    (fresh : s.duplicate m c = false) (passed : s.refusalOf m (some c) = none) :
    State.newRequest (some c) m s = s.fileRequest m c := by
  simp [State.newRequest, unheld, fresh, passed]

/-- Away from the mouth of a road a request that passed takes its slot. -/
theorem fileRequest_takesSlot {s : State} {m : Telegram} {c : ReqCode} {k : Nat} (away : c = .outbound → s.mouthRoad m.point = none)
    (room : s.freeSlot = some k) : s.fileRequest m c = s.takeSlot m c k := by
  by_cases h : c = .outbound
  · simp only [State.fileRequest, h, away h, room, if_true]
  · simp only [State.fileRequest, h, room, if_false]

theorem requestsAreTakenOrRefused : Clause.RequestsAreTakenOrRefused := by
  intro c p s m rest has
  refine ⟨_, exec_requestCommand has, fun ignored => ?_, fun d unheld fresh refused => ?_, fun k unheld fresh passed room away => ?_⟩
  · rcases ignored with held | repeated
    · exact newRequest_held (s := telegramTaken s rest) held _
    · exact newRequest_repeated (s := telegramTaken s rest) repeated
  · rw [newRequest_refused (s := telegramTaken s rest) (c := some c) unheld fresh refused, refuse_eq, reportOutcome_eq]
    refine ⟨rfl, fun r hr => ?_, reportOutcome_serial _ _, rfl⟩
    simp [withRequests, telegramTaken, hr]
  · rw [newRequest_passed (s := telegramTaken s rest) unheld fresh passed]
    exact fileRequest_takesSlot away room

/-! ### The run-out check (R78, R157) -/

/-- The run-out check leaves the slots. -/
theorem runOutMark_freeSlot (s : State) (road tram : Nat) : (s.runOutMark road tram).freeSlot = s.freeSlot := by
  simp [State.freeSlot]

/-- At the mouth of a road whose check does not accept the tram, the request is refused. -/
theorem fileRequest_blocked {s : State} {m : Telegram} {road : Nat} (mouth : s.mouthRoad m.point = some road)
    (blocked : s.runOutAccepts road (wordAt m.bytes 0) = false) :
    s.fileRequest m .outbound = (s.runOutMark road (wordAt m.bytes 0)).refuse m .blocked := by
  simp [State.fileRequest, mouth, blocked]

/-- Where it accepts the tram, the request takes its slot. -/
theorem fileRequest_accepted {s : State} {m : Telegram} {road k : Nat} (mouth : s.mouthRoad m.point = some road)
    (accepted : s.runOutAccepts road (wordAt m.bytes 0) = true) (room : s.freeSlot = some k) :
    s.fileRequest m .outbound = (s.runOutMark road (wordAt m.bytes 0)).takeSlot m .outbound k := by
  simp [State.fileRequest, mouth, accepted, runOutMark_freeSlot, room]

theorem runOutCheckBlocksRequests : Clause.RunOutCheckBlocksRequests := by
  intro p road s m rest has unheld fresh passed mouth
  have filed : exec (.outRequest p) s = .next ((telegramTaken s rest).fileRequest m .outbound) :=
    (exec_requestCommand has).trans (congrArg Host.Outcome.next
      (newRequest_passed (s := telegramTaken s rest) unheld fresh passed))
  exact ⟨fun blocked => filed.trans (congrArg Host.Outcome.next (fileRequest_blocked (s := telegramTaken s rest) mouth blocked)),
    fun k room accepted => filed.trans
      (congrArg Host.Outcome.next (fileRequest_accepted (s := telegramTaken s rest) mouth accepted room))⟩

/-- Settles O34. -/
theorem requestsTable : Obligations.RequestsTable :=
  ⟨refusalConditionsInOrder, requestsAreCompared, requestsAreTakenOrRefused, runOutCheckBlocksRequests⟩

end Sys2Proof.Proofs
end

