-- ==== Sys2Proof/Proofs/Cancels.lean ====
section
/-! PROOF. Unknown codes, cancels and lifetimes (O35): what withdrawing one slot does, and the slots of a CANCEL one after the other. -/

namespace Sys2Proof.Proofs
open Sys2Proof.Machine Sys2Proof.Laws

/-! ### Unknown codes (R78, R79) -/

theorem unknownCodesAreRefused : Clause.UnknownCodesAreRefused := by
  intro p s m rest has
  have taken : exec (.unknownCodeTelegram p) s = .next (State.newRequest none m (telegramTaken s rest)) :=
    congrArg Host.Outcome.next (withTelegram_good has _)
  refine ⟨taken.trans (congrArg Host.Outcome.next ?_), ?_⟩
  · split
    next held => exact newRequest_held (s := telegramTaken s rest) held _
    next free =>
      exact newRequest_refused (s := telegramTaken s rest) (c := none) (Bool.eq_false_iff.mpr free) rfl rfl
  · have report := withRequests_reportOutcome { s.rq with telegrams := rest } s.re s
      ⟨none, wordAt m.bytes 0, s.entrySignal m.point, .refused .badCode, s.time⟩
    rw [reportOutcome_eq s] at report
    exact (refuse_eq (telegramTaken s rest) m .badCode).trans (congrArg (withRequests _ s.re) report)

/-! ### The lamps (R85) -/

/-- The request lamps that the given slots light. -/
def lampsOf (slots : List Slot) : List Bool :=
  (List.range 8).map (fun p => slots.any (fun x => x.data?.any (fun d => d.point == p)))

/-- `setLamps` lights these. -/
theorem setLamps_eq (s : State) : s.setLamps = { s with rq := { s.rq with lamps := lampsOf s.rq.slots } } :=
  rfl

/-- A slot that holds the same as before lights the same lamps. -/
theorem lampsOf_set {slots : List Slot} {i : Nat} {x y : Slot} (hx : slots[i]? = some x) (same : y.data? = x.data?) :
    lampsOf (slots.set i y) = lampsOf slots := by
  have held : (slots.set i y).map Slot.data? = slots.map Slot.data? := by
    refine List.ext_getElem? fun j => ?_
    by_cases hj : i = j
    · subst hj
      simp [List.getElem?_set_self', hx, same]
    · simp [List.getElem?_set_ne hj]
  have byData : ∀ l : List Slot, lampsOf l
      = (List.range 8).map (fun p => (l.map Slot.data?).any (fun o => o.any (fun d => d.point == p))) := by
    intro l
    simp [lampsOf, Function.comp_def]
  rw [byData, byData, held]

/-! ### Withdrawing one slot (R86, R87) -/

/-- A QUEUED slot that ends, in a state with the given RQ and RE: it leaves its queue, its record is written, and the lamps follow. -/
theorem withRequests_endQueued (rq : RQ) (re : RE) (u : State) (i : Nat) (d : SlotData) (code : OutcomeCode) :
    (withRequests rq re u).endQueued i d code = withRequests
      { rq with
        slots := rq.slots.set i .free
        queues := rq.queues.modify d.signal (fun q => q.filter (fun k => k != i))
        ring := (u.outcomeOf d code :: rq.ring).take 16
        lamps := lampsOf (rq.slots.set i .free) }
      re (u.reportOutcome (u.outcomeOf d code)) := by
  have written := withRequests_slotOutcome { rq with
    slots := rq.slots.set i .free
    queues := rq.queues.modify d.signal (fun q => q.filter (fun k => k != i)) } re u d code
  exact (congrArg State.setLamps written).trans (setLamps_eq _)

/-- An ACTIVE slot that gets its mark, in a state with the given RQ and RE: the cancel goes to RE. -/
theorem withRequests_passCancel (rq : RQ) (re : RE) (u : State) (i : Nat) (d : SlotData) (inst : Nat) (cause : CancelMark) :
    (withRequests rq re u).passCancel i d inst cause = withRequests { rq with slots := rq.slots.set i (.active d inst (some cause)) }
      { re with cancels := re.cancels ++ [⟨inst, i, d.serial, cause⟩] } u :=
  rfl

section
variable {s : State} {i : Nat} {d : SlotData} (cause : CancelMark) (code : OutcomeCode)

/-- A QUEUED slot is ended. -/
theorem withdrawSlot_queued (hx : s.rq.slots[i]? = some (.queued d)) : s.withdrawSlot i cause code = s.endQueued i d code := by
  simp [State.withdrawSlot, hx]

/-- An ACTIVE slot without a mark gets it. -/
theorem withdrawSlot_unmarked {inst : Nat} (hx : s.rq.slots[i]? = some (.active d inst none)) :
    s.withdrawSlot i cause code = s.passCancel i d inst cause := by
  simp [State.withdrawSlot, hx]

/-- An ACTIVE slot with a mark stays as it is. -/
theorem withdrawSlot_marked {inst : Nat} {mark : CancelMark} (hx : s.rq.slots[i]? = some (.active d inst (some mark))) :
    s.withdrawSlot i cause code = s := by
  simp [State.withdrawSlot, hx]

end

/-! ### Lifetimes (R87) -/

/-- A slot in use whose lifetime has ended is withdrawn. -/
theorem lifetimeExpiry_reached {s : State} {i : Nat} {x : Slot} {d : SlotData} (hx : s.rq.slots[i]? = some x) (hd : x.data? = some d)
    (ended : reached s.time (d.arrival + BitVec.ofNat 32 600000) = true) :
    s.lifetimeExpiry i = s.withdrawSlot i .lifetime .expired := by
  have ended' : reached s.time (after d.arrival Config.lifetimeMs) = true := ended
  simp only [State.lifetimeExpiry, hx, Option.bind_some, hd, ended', if_true]

theorem lifetimeEndsTheSlot : Clause.LifetimeEndsTheSlot := by
  intro i s d ended
  refine ⟨fun queued => ?_, fun inst active => ?_, fun inst mark marked => ?_⟩
  · have ends : s.lifetimeExpiry i = (withRequests s.rq s.re s).endQueued i d .expired :=
      (lifetimeExpiry_reached queued rfl ended).trans (withdrawSlot_queued _ _ queued)
    rw [withRequests_endQueued, reportOutcome_eq] at ends
    exact ⟨_, congrArg Host.Outcome.next ends, rfl, rfl, rfl, rfl, rfl, rfl, rfl, rfl, rfl⟩
  · exact ⟨_, congrArg Host.Outcome.next ((lifetimeExpiry_reached active rfl ended).trans (withdrawSlot_unmarked _ _ active)), rfl⟩
  · exact congrArg Host.Outcome.next ((lifetimeExpiry_reached marked rfl ended).trans (withdrawSlot_marked _ _ marked))

/-! ### Slots one after the other -/

/-- An operation that leads from each state of a sequence to the next leads through it in a sweep over the indexes. -/
theorem forEach_range_follows {f : Nat → State → State} (state : Nat → State) (N : Nat)
    (step : ∀ n, n < N → f n (state n) = state (n + 1)) : forEach (List.range N) f (state 0) = state N := by
  have append : ∀ (l : List Nat) (n : Nat) (s : State), forEach (l ++ [n]) f s = f n (forEach l f s) := by
    intro l n
    induction l with
    | nil => exact fun s => rfl
    | cons x xs ih => exact fun s => ih (f x s)
  induction N with
  | zero => rfl
  | succ N ih => rw [List.range_succ, append, ih fun n hn => step n (by omega), step N (by omega)]

/-- A list whose first `n` items have been changed by `f`. -/
def changedUpTo {α : Type} (f : α → α) (n : Nat) (l : List α) : List α :=
  l.mapIdx (fun i x => if i < n then f x else x)

@[simp] theorem changedUpTo_zero {α : Type} (f : α → α) (l : List α) : changedUpTo f 0 l = l := by
  refine List.ext_getElem? fun j => ?_
  simp [changedUpTo]

@[simp] theorem changedUpTo_length {α : Type} (f : α → α) (l : List α) : changedUpTo f l.length l = l.map f := by
  refine List.ext_getElem? fun j => ?_
  cases hj : l[j]? with
  | none => simp [changedUpTo, hj]
  | some x => simp [changedUpTo, (List.getElem?_eq_some_iff.mp hj).1]

/-- The next item is still as it was. -/
theorem changedUpTo_next {α : Type} {f : α → α} {n : Nat} {l : List α} {x : α} (hx : l[n]? = some x) :
    (changedUpTo f n l)[n]? = some x := by
  simp [changedUpTo, hx]

/-- One item more is changed by setting it. -/
theorem changedUpTo_succ {α : Type} {f : α → α} {n : Nat} {l : List α} {x : α} (hx : l[n]? = some x) :
    changedUpTo f (n + 1) l = (changedUpTo f n l).set n (f x) := by
  refine List.ext_getElem? fun j => ?_
  by_cases hj : n = j
  · subst hj
    simp [changedUpTo, List.getElem?_set_self', hx]
  · have : j ≤ n ↔ j < n := by omega
    simp [changedUpTo, List.getElem?_set_ne hj, this]

/-- Setting an item to what it is changes nothing. -/
theorem set_same {α : Type} {n : Nat} {l : List α} {x : α} (hx : l[n]? = some x) : l.set n x = l := by
  obtain ⟨hn, rfl⟩ := List.getElem?_eq_some_iff.mp hx
  exact List.set_getElem_self hn

/-- What a list gives item by item, with one item more. -/
theorem filterMap_take_succ {α β : Type} (f : α → Option β) {n : Nat} {l : List α} {x : α} (hx : l[n]? = some x) :
    (l.take (n + 1)).filterMap f = (l.take n).filterMap f ++ (f x).toList := by
  rw [List.take_add_one, hx, List.filterMap_append]
  cases h : f x <;> simp [h]

/-- What the indexes give, with one index more. -/
theorem filterMap_range_succ {β : Type} (f : Nat → Option β) (n : Nat) :
    (List.range (n + 1)).filterMap f = (List.range n).filterMap f ++ (f n).toList := by
  rw [List.range_succ, List.filterMap_append]
  cases h : f n <;> simp [h]

/-! ### One slot of a CANCEL (R86) -/

theorem concerns_iff (m : Telegram) (d : SlotData) :
    m.concerns d = true ↔ d.point = m.point ∧ d.tram = wordAt m.bytes 0 := by
  simp [Telegram.concerns]

/-- What a CANCEL makes of a slot. -/
def cancelledSlot (m : Telegram) (x : Slot) : Slot :=
  match x with
  | .queued d => if m.concerns d = true then .free else .queued d
  | .active d inst none => if m.concerns d = true then .active d inst (some .requested) else .active d inst none
  | x => x

/-- The outcome record that a CANCEL writes for a slot. -/
def cancelRecordOf (s : State) (m : Telegram) (x : Slot) : Option OutcomeRec :=
  match x with
  | .queued d => if m.concerns d = true then some (s.outcomeOf d (.cancelled .requested)) else none
  | .free | .active _ _ _ => none

/-- The cancel that it passes to RE for slot `i`. -/
def cancelMessageOf (m : Telegram) (slots : List Slot) (i : Nat) : Option CancelMsg :=
  match slots[i]? with
  | some (.active d inst none) => if m.concerns d = true then some ⟨inst, i, d.serial, .requested⟩ else none
  | _ => none

/-- Slot `k` stays in the queue of signal `g`, where it stands there. -/
def staysQueued (m : Telegram) (slots : List Slot) (g k : Nat) : Bool :=
  match slots[k]? with
  | some (.queued d) => !(m.concerns d && d.signal == g)
  | _ => true

/-- A CANCEL leaves the slot as it is: it is free, has its mark, or belongs to another point or tram. -/
def Untouched (m : Telegram) (x : Slot) : Prop :=
  ∀ d, x = .queued d ∨ (∃ inst, x = .active d inst none) → m.concerns d = false

/-- A CANCEL ends a slot, marks it, or leaves it. -/
theorem cancel_cases (m : Telegram) (x : Slot) : (∃ d, x = .queued d ∧ m.concerns d = true)
    ∨ (∃ d inst, x = .active d inst none ∧ m.concerns d = true) ∨ Untouched m x := by
  by_cases untouched : Untouched m x
  · exact .inr (.inr untouched)
  · simp only [Untouched, not_forall, Bool.not_eq_false] at untouched
    obtain ⟨d, hx | ⟨inst, hx⟩, concerned⟩ := untouched
    · exact .inl ⟨d, hx, concerned⟩
    · exact .inr (.inl ⟨d, inst, hx, concerned⟩)

/-- What an untouched slot gives: itself, no record, no cancel, and no queue loses it. -/
theorem untouched_gives {m : Telegram} {x : Slot} (untouched : Untouched m x) (s : State) {slots : List Slot} {i : Nat}
    (hx : slots[i]? = some x) : cancelledSlot m x = x ∧ cancelRecordOf s m x = none ∧ cancelMessageOf m slots i = none
      ∧ ∀ g, staysQueued m slots g i = true := by
  cases x with
  | free => simp [cancelledSlot, cancelRecordOf, cancelMessageOf, staysQueued, hx]
  | queued d =>
    have other := untouched d (.inl rfl)
    simp [cancelledSlot, cancelRecordOf, cancelMessageOf, staysQueued, hx, other]
  | active d inst mark =>
    cases mark with
    | some mark => simp [cancelledSlot, cancelRecordOf, cancelMessageOf, staysQueued, hx]
    | none =>
      have other := untouched d (.inr ⟨inst, rfl⟩)
      simp [cancelledSlot, cancelRecordOf, cancelMessageOf, staysQueued, hx, other]

/-- One slot takes a CANCEL. -/
def cancelVisit (m : Telegram) (i : Nat) (s : State) : State :=
  match (s.rq.slots[i]?).bind Slot.data? with
  | some d =>
    if d.point = m.point ∧ d.tram = wordAt m.bytes 0 then s.withdrawSlot i .requested (.cancelled .requested) else s
  | none => s

/-- In RUNNING a CANCEL goes to every slot; otherwise it is ignored. -/
theorem takeCancelTelegram_eq_visits (m : Telegram) (s : State) : State.takeCancelTelegram m s =
    if s.pt.mode = .running then forEach (List.range s.rq.slots.length) (cancelVisit m) s else s :=
  rfl

/-- A slot that is concerned is withdrawn. -/
theorem cancelVisit_concerned {m : Telegram} {i : Nat} {s : State} {x : Slot} {d : SlotData} (hx : s.rq.slots[i]? = some x)
    (hd : x.data? = some d) (concerned : m.concerns d = true) :
    cancelVisit m i s = s.withdrawSlot i .requested (.cancelled .requested) := by
  simp only [cancelVisit, hx, Option.bind_some, hd, ← concerns_iff, concerned, if_true]

/-- A slot that is untouched changes nothing. -/
theorem cancelVisit_untouched {m : Telegram} {i : Nat} {s : State} {x : Slot} (hx : s.rq.slots[i]? = some x)
    (untouched : Untouched m x) : cancelVisit m i s = s := by
  cases x with
  | free => simp [cancelVisit, hx, Slot.data?]
  | queued d =>
    have other := untouched d (.inl rfl)
    simp [cancelVisit, hx, Slot.data?, ← concerns_iff, other]
  | active d inst mark =>
    cases mark with
    | none =>
      have other := untouched d (.inr ⟨inst, rfl⟩)
      simp [cancelVisit, hx, Slot.data?, ← concerns_iff, other]
    | some mark => simp [cancelVisit, hx, Slot.data?, withdrawSlot_marked _ _ hx]

/-! ### The slots of a CANCEL one after the other (R86, log entry 33) -/

/-- The records of the first `n` slots. -/
def cancelRecordsUpTo (s : State) (m : Telegram) (n : Nat) : List OutcomeRec :=
  (s.rq.slots.take n).filterMap (cancelRecordOf s m)

/-- The queues without the slots below `n` that have left them. -/
def queuesUpTo (s : State) (m : Telegram) (n : Nat) : List (List Nat) :=
  s.rq.queues.mapIdx (fun g q => q.filter (fun k => decide (n ≤ k) || staysQueued m s.rq.slots g k))

/-- The state in which the first `n` slots have taken a CANCEL. -/
def cancelledUpTo (s : State) (m : Telegram) (n : Nat) : State :=
  withRequests
    { s.rq with
      slots := changedUpTo (cancelledSlot m) n s.rq.slots
      queues := queuesUpTo s m n
      ring := ringAfter s.rq.ring (cancelRecordsUpTo s m n)
      lamps := if cancelRecordsUpTo s m n = [] then s.rq.lamps else lampsOf (changedUpTo (cancelledSlot m) n s.rq.slots) }
    { s.re with cancels := s.re.cancels ++ (List.range n).filterMap (cancelMessageOf m s.rq.slots) }
    (s.reported (cancelRecordsUpTo s m n))

/-- Before the first slot the queues are as they were. -/
@[simp] theorem queuesUpTo_zero (s : State) (m : Telegram) : queuesUpTo s m 0 = s.rq.queues := by
  refine List.ext_getElem? fun g => ?_
  simp [queuesUpTo]

/-- Past one index more, that index alone is decided anew. -/
theorem keeps_succ (stays : Nat → Bool) (n k : Nat) :
    (decide (n + 1 ≤ k) || stays k) = ((k != n || stays n) && (decide (n ≤ k) || stays k)) := by
  by_cases hk : k = n
  · subst hk
    simp
  · have : n + 1 ≤ k ↔ n ≤ k := by omega
    simp [this, hk]

/-- A slot that stays in every queue changes none. -/
theorem queuesUpTo_stays {s : State} {m : Telegram} {n : Nat} (stays : ∀ g, staysQueued m s.rq.slots g n = true) :
    queuesUpTo s m (n + 1) = queuesUpTo s m n := by
  simp only [queuesUpTo, keeps_succ (staysQueued m s.rq.slots _), stays, Bool.or_true, Bool.true_and]

/-- A slot that is ended leaves the queue of its signal. -/
theorem queuesUpTo_leaves {s : State} {m : Telegram} {n : Nat} {d : SlotData} (hx : s.rq.slots[n]? = some (.queued d))
    (concerned : m.concerns d = true) :
    queuesUpTo s m (n + 1) = (queuesUpTo s m n).modify d.signal (fun q => q.filter (fun k => k != n)) := by
  have own : ∀ g, staysQueued m s.rq.slots g n = !(d.signal == g) := fun g => by simp [staysQueued, hx, concerned]
  refine List.ext_getElem? fun g => ?_
  simp only [queuesUpTo, keeps_succ (staysQueued m s.rq.slots _), own, List.getElem?_modify, List.getElem?_mapIdx,
    Option.map_eq_map, Option.map_map, Function.comp_def]
  by_cases hg : d.signal = g
  · simp [hg, List.filter_filter]
  · simp [hg, beq_false_of_ne hg]

/-- The next slot takes the CANCEL. -/
theorem cancelVisit_follows {s : State} {m : Telegram} {n : Nat} (hn : n < s.rq.slots.length) :
    cancelVisit m n (cancelledUpTo s m n) = cancelledUpTo s m (n + 1) := by
  obtain ⟨x, hx⟩ : ∃ x, s.rq.slots[n]? = some x := ⟨_, List.getElem?_eq_getElem hn⟩
  have next : (cancelledUpTo s m n).rq.slots[n]? = some x := changedUpTo_next hx
  have records : cancelRecordsUpTo s m (n + 1) = cancelRecordsUpTo s m n ++ (cancelRecordOf s m x).toList :=
    filterMap_take_succ _ hx
  have messages := filterMap_range_succ (cancelMessageOf m s.rq.slots) n
  have slots := changedUpTo_succ (f := cancelledSlot m) hx
  rcases cancel_cases m x with ⟨d, rfl, concerned⟩ | ⟨d, inst, rfl, concerned⟩ | untouched
  · have record : cancelRecordOf s m (.queued d) = some (s.outcomeOf d (.cancelled .requested)) := if_pos concerned
    have freed : cancelledSlot m (.queued d) = .free := if_pos concerned
    have message : cancelMessageOf m s.rq.slots n = none := by simp [cancelMessageOf, hx]
    have time : (s.reported (cancelRecordsUpTo s m n)).outcomeOf d (.cancelled .requested)
        = s.outcomeOf d (.cancelled .requested) := by rw [reported_eq]; rfl
    rw [record, Option.toList_some] at records
    rw [message, Option.toList_none, List.append_nil] at messages
    rw [freed] at slots
    rw [cancelVisit_concerned next rfl concerned, withdrawSlot_queued _ _ next]
    simp only [cancelledUpTo, withRequests_endQueued, time, records, messages, slots, queuesUpTo_leaves hx concerned,
      reported_append, ringAfter_append, List.append_eq_nil_iff, List.cons_ne_nil, and_false, if_false]
  · have record : cancelRecordOf s m (.active d inst none) = none := rfl
    have marked : cancelledSlot m (.active d inst none) = .active d inst (some .requested) := if_pos concerned
    have message : cancelMessageOf m s.rq.slots n = some ⟨inst, n, d.serial, .requested⟩ := by
      simp [cancelMessageOf, hx, concerned]
    have stays : ∀ g, staysQueued m s.rq.slots g n = true := fun g => by simp [staysQueued, hx]
    rw [record, Option.toList_none, List.append_nil] at records
    rw [message, Option.toList_some] at messages
    rw [marked] at slots
    rw [cancelVisit_concerned next rfl concerned, withdrawSlot_unmarked _ _ next]
    have lamps := lampsOf_set (y := .active d inst (some .requested)) next rfl
    change lampsOf ((changedUpTo (cancelledSlot m) n s.rq.slots).set n _) = lampsOf (changedUpTo _ n s.rq.slots) at lamps
    simp only [cancelledUpTo, withRequests_passCancel, records, messages, slots, queuesUpTo_stays stays, lamps, List.append_assoc]
  · obtain ⟨same, record, message, stays⟩ := untouched_gives untouched s hx
    rw [record, Option.toList_none, List.append_nil] at records
    rw [message, Option.toList_none, List.append_nil] at messages
    rw [same, set_same (changedUpTo_next hx)] at slots
    rw [cancelVisit_untouched next untouched]
    simp only [cancelledUpTo, records, messages, slots, queuesUpTo_stays stays]

/-- A CANCEL in RUNNING: every slot has taken it. -/
theorem takeCancelTelegram_running {s : State} (m : Telegram) (running : s.pt.mode = .running) : State.takeCancelTelegram m s =
    withRequests
      { s.rq with
        slots := s.rq.slots.map (cancelledSlot m)
        queues := s.rq.queues.mapIdx (fun g q => q.filter (staysQueued m s.rq.slots g))
        ring := ringAfter s.rq.ring (s.cancelRecords m)
        lamps := if s.cancelRecords m = [] then s.rq.lamps else lampsOf (s.rq.slots.map (cancelledSlot m)) }
      { s.re with cancels := s.re.cancels ++ s.cancelMessages m }
      (s.reported (s.cancelRecords m)) := by
  have start : cancelledUpTo s m 0 = s := by
    simp [cancelledUpTo, cancelRecordsUpTo, withRequests]
  have records : cancelRecordsUpTo s m s.rq.slots.length = s.cancelRecords m := by
    rw [cancelRecordsUpTo, List.take_length]
    rfl
  have queues : queuesUpTo s m s.rq.slots.length = s.rq.queues.mapIdx (fun g q => q.filter (staysQueued m s.rq.slots g)) := by
    refine congrArg (fun f => s.rq.queues.mapIdx f) (funext fun g => funext fun q => congrArg (fun p => q.filter p) (funext fun k => ?_))
    by_cases hk : s.rq.slots.length ≤ k
    · simp [staysQueued, hk]
    · simp [hk]
  have run := forEach_range_follows (cancelledUpTo s m) s.rq.slots.length fun n hn => cancelVisit_follows hn
  rw [start] at run
  rw [takeCancelTelegram_eq_visits, if_pos running, run, cancelledUpTo, records, queues, changedUpTo_length]
  rfl

theorem cancelEndsTheSlotsOfItsTram : Clause.CancelEndsTheSlotsOfItsTram := by
  intro p s m rest has
  have taken : exec (.cancel p) s = .next (State.takeCancelTelegram m (telegramTaken s rest)) :=
    congrArg Host.Outcome.next (withTelegram_good has _)
  refine ⟨fun other => taken.trans (congrArg Host.Outcome.next (if_neg other)), fun running => ?_⟩
  have reported := withRequests_reported { s.rq with telegrams := rest } s.re s (s.cancelRecords m)
  rw [reported_eq s] at reported
  have run := (takeCancelTelegram_running (s := telegramTaken s rest) m running).trans
    (congrArg (withRequests _ _) reported)
  refine ⟨_, taken.trans (congrArg Host.Outcome.next run), fun i x hx => ?_, ?_, fun g q hq => ?_, ?_,
    rfl, rfl, rfl, rfl, rfl, rfl, rfl⟩
  · change (s.rq.slots.map (cancelledSlot m))[i]? = _
    rw [List.getElem?_map, hx, Option.map_some]
    cases x with
    | free => rfl
    | queued d => simp only [cancelledSlot, concerns_iff]
    | active d inst mark =>
      cases mark with
      | none => simp only [cancelledSlot, concerns_iff]
      | some mark => rfl
  · exact List.length_map ..
  · change (s.rq.queues.mapIdx _)[g]? = _
    rw [List.getElem?_mapIdx, hq]
    rfl
  · exact List.length_mapIdx ..

/-- Settles O35. -/
theorem cancelAndLifetimeEndSlots : Obligations.CancelAndLifetimeEndSlots :=
  ⟨unknownCodesAreRefused, cancelEndsTheSlotsOfItsTram, lifetimeEndsTheSlot, outcomesAreReported⟩

end Sys2Proof.Proofs
end

