-- ==== Sys2Proof/Proofs/Activation.lean ====
section
/-! PROOF. Outcomes, isolation and the activation scan (O36): how slots end for RE and for PT, and which signals a scan serves. -/

namespace Sys2Proof.Proofs
open Sys2Proof.Machine Sys2Proof.Laws

/-! ### Outcomes (R88) -/

/-- An outcome that matches its slot frees it, and a scan follows. -/
theorem takeOutcome_matching {s : State} {m : OutcomeMsg} {d : SlotData} {mark : Option CancelMark}
    (hx : s.rq.slots[m.slot]? = some (.active d m.inst mark)) (serial : d.serial = m.serial) :
    s.takeOutcome m = ((s.setSlot m.slot .free).slotOutcome d m.code).setLamps.scan := by
  simp only [State.takeOutcome, hx, serial, and_self, if_true]

/-- An outcome that does not, because its slot is another request's by now, changes no slot. -/
theorem takeOutcome_stale {s : State} {m : OutcomeMsg} (stale : ∀ d inst mark, s.rq.slots[m.slot]? = some (.active d inst mark) →
    d.serial ≠ m.serial ∨ inst ≠ m.inst) : s.takeOutcome m = s.scan := by
  unfold State.takeOutcome
  dsimp only
  split
  next d inst mark hx => rw [if_neg (not_and_or.mpr (stale d inst mark hx))]
  next => rfl

/-! ### Isolation (R89) -/

/-- Only a free slot holds nothing. -/
theorem data?_eq_none_iff {x : Slot} : x.data? = none ↔ x = .free := by
  cases x <;> simp [Slot.data?]

/-- The outcome record that isolation writes for a slot. -/
def isolationRecordOf (s : State) (x : Slot) : Option OutcomeRec :=
  x.data?.map (fun d => s.outcomeOf d (.cancelled .isolation))

/-- One slot ends by isolation. -/
def isolationVisit (i : Nat) (s : State) : State :=
  match (s.rq.slots[i]?).bind Slot.data? with
  | some d => (s.setSlot i .free).slotOutcome d (.cancelled .isolation)
  | none => s

/-- The records of the first `n` slots. -/
def isolationRecordsUpTo (s : State) (n : Nat) : List OutcomeRec :=
  (s.rq.slots.take n).filterMap (isolationRecordOf s)

/-- The state in which the first `n` slots have ended. -/
def isolatedUpTo (s : State) (n : Nat) : State :=
  withRequests
    { s.rq with slots := changedUpTo (fun _ => Slot.free) n s.rq.slots, ring := ringAfter s.rq.ring (isolationRecordsUpTo s n) }
    s.re (s.reported (isolationRecordsUpTo s n))

/-- A slot in use, in a state with the given RQ and RE: it is freed, and its record is written. -/
theorem withRequests_free (rq : RQ) (re : RE) (u : State) (i : Nat) (d : SlotData) (code : OutcomeCode) :
    ((withRequests rq re u).setSlot i .free).slotOutcome d code = withRequests
      { rq with slots := rq.slots.set i .free, ring := (u.outcomeOf d code :: rq.ring).take 16 } re
      (u.reportOutcome (u.outcomeOf d code)) :=
  withRequests_slotOutcome { rq with slots := rq.slots.set i .free } re u d code

/-- The next slot ends. -/
theorem isolationVisit_follows {s : State} {n : Nat} (hn : n < s.rq.slots.length) :
    isolationVisit n (isolatedUpTo s n) = isolatedUpTo s (n + 1) := by
  obtain ⟨x, hx⟩ : ∃ x, s.rq.slots[n]? = some x := ⟨_, List.getElem?_eq_getElem hn⟩
  have next : (isolatedUpTo s n).rq.slots[n]? = some x := changedUpTo_next hx
  have records : isolationRecordsUpTo s (n + 1) = isolationRecordsUpTo s n ++ (isolationRecordOf s x).toList :=
    filterMap_take_succ _ hx
  have slots := changedUpTo_succ (f := fun _ => Slot.free) hx
  have same : ∀ d, (s.reported (isolationRecordsUpTo s n)).outcomeOf d (.cancelled .isolation)
      = s.outcomeOf d (.cancelled .isolation) := fun d => by rw [reported_eq]; rfl
  cases hd : x.data? with
  | none =>
    obtain rfl := data?_eq_none_iff.mp hd
    have record : isolationRecordOf s .free = none := rfl
    rw [record, Option.toList_none, List.append_nil] at records
    rw [set_same (changedUpTo_next hx)] at slots
    simp only [isolationVisit, next, Option.bind_some, hd]
    simp only [isolatedUpTo, records, slots]
  | some d =>
    have record : isolationRecordOf s x = some (s.outcomeOf d (.cancelled .isolation)) := by simp [isolationRecordOf, hd]
    rw [record, Option.toList_some] at records
    simp only [isolationVisit, next, Option.bind_some, hd]
    simp only [isolatedUpTo, withRequests_free, same, records, slots, reported_append, ringAfter_append]

/-- Free slots light no lamp. -/
theorem lampsOf_free (l : List Slot) : lampsOf (l.map (fun _ => Slot.free)) = (List.range 8).map (fun _ => false) := by
  simp [lampsOf, Slot.data?]

/-- Isolation ends every slot. -/
theorem rqIsolate_eq (s : State) : s.rqIsolate = withRequests
    { s.rq with
      slots := s.rq.slots.map (fun _ => Slot.free)
      queues := s.rq.queues.map (fun _ => [])
      ring := ringAfter s.rq.ring s.isolationRecords
      lamps := (List.range 8).map (fun _ => false) }
    s.re (s.reported s.isolationRecords) := by
  have start : isolatedUpTo s 0 = s := by
    simp [isolatedUpTo, isolationRecordsUpTo, withRequests]
  have records : isolationRecordsUpTo s s.rq.slots.length = s.isolationRecords := by
    rw [isolationRecordsUpTo, List.take_length]
    rfl
  have run := forEach_range_follows (isolatedUpTo s) s.rq.slots.length fun n hn => isolationVisit_follows hn
  rw [start] at run
  have visits : s.rqIsolate = State.setLamps (
      let u := forEach (List.range s.rq.slots.length) isolationVisit s
      { u with rq := { u.rq with queues := u.rq.queues.map (fun _ => []) } }) := rfl
  rw [visits, run, isolatedUpTo, records, changedUpTo_length, setLamps_eq, ← lampsOf_free s.rq.slots]
  rfl

theorem outcomesAndIsolationFreeSlots : Clause.OutcomesAndIsolationFreeSlots := by
  refine ⟨fun s m rest waiting => ?_, fun s isolated => ?_⟩
  · have taken : exec .outcome s = .next ({ s with rq := { s.rq with outcomes := rest } }.takeOutcome m) := by
      change execOutcome s = _
      rw [execOutcome, waiting]
    exact ⟨fun d mark hx serial => taken.trans (congrArg Host.Outcome.next (takeOutcome_matching hx serial)),
      fun stale => taken.trans (congrArg Host.Outcome.next (takeOutcome_stale stale))⟩
  · have taken : exec .rqIsolation s = .next (State.rqIsolate { s with rq := { s.rq with isolated := false } }) := if_pos isolated
    have reported := withRequests_reported { s.rq with isolated := false } s.re s s.isolationRecords
    rw [reported_eq s] at reported
    have run := (rqIsolate_eq { s with rq := { s.rq with isolated := false } }).trans (congrArg (withRequests _ _) reported)
    refine ⟨_, taken.trans (congrArg Host.Outcome.next run), rfl, fun x hx => ?_, List.length_map .., fun q hq => ?_, fun b hb => ?_,
      rfl, rfl, rfl, rfl, rfl, rfl, rfl, rfl, rfl⟩
    · exact List.eq_of_mem_map_const hx
    · exact List.eq_of_mem_map_const hq
    · exact List.eq_of_mem_map_const hb

/-! ### The activation scan (R83, R84, R122) -/

/-- A scan that has no visit left ends. -/
theorem visit_done (s : State) (n g : Nat) : s.visit n 0 g = s := by
  cases n <;> rfl

/-- A visit that activates nothing goes on to the next signal. -/
theorem visit_passes {s : State} {g : Nat} (idle : s.activable g = none) (n left : Nat) :
    s.visit (n + 1) (left + 1) g = s.visit n left ((g + 1) % 8) := by
  rw [State.visit, idle]

/-- A visit that activates a slot has eight more after it. -/
theorem visit_activates {s : State} {g k i : Nat} {d : SlotData} (found : s.activable g = some (k, d, i)) (n left : Nat) :
    s.visit (n + 1) (left + 1) g = (s.activate g k d i).visit n 8 ((g + 1) % 8) := by
  rw [State.visit, found]

/-- Visits that activate nothing pass over their signals. -/
theorem visit_passes_many {s : State} {g j : Nat} (idle : ∀ n, n < j → s.activable ((g + n) % 8) = none) (n left : Nat) :
    s.visit (n + j) (left + j) (g % 8) = s.visit n left ((g + j) % 8) := by
  induction j generalizing g with
  | zero => rfl
  | succ j ih =>
    have rest : ∀ n, n < j → s.activable ((g + 1 + n) % 8) = none := fun n hn => by
      rw [Nat.add_right_comm]
      exact idle (n + 1) (by omega)
    rw [← Nat.add_assoc, ← Nat.add_assoc, visit_passes (g := g % 8) (idle 0 (by omega)),
      Nat.mod_add_mod, ih rest, Nat.add_right_comm, Nat.add_assoc]

/-- A slot that can be activated stands at the head of its signal's queue, and everything R83 asks for holds. -/
theorem activable_some {s : State} {g k i : Nat} {d : SlotData} (found : s.activable g = some (k, d, i)) :
    s.pt.mode = .running ∧ s.rq.fault.getD g false = false ∧ s.instAt g = none ∧ s.freeInst = some i
      ∧ (s.rq.queues[g]?).bind List.head? = some k ∧ s.rq.slots[k]? = some (.queued d) := by
  unfold State.activable at found
  split at found
  next may =>
    obtain ⟨mode, -, sound, idle⟩ := may
    split at found
    next head free =>
      split at found
      next slot =>
        obtain ⟨rfl, rfl, rfl⟩ : _ ∧ _ ∧ _ := by simpa using found
        exact ⟨mode, sound, idle, free, head, slot⟩
      next => simp at found
    next => simp at found
  next => simp at found

/-- The `Inst` that an activation takes is free, and no lower one is. -/
theorem freeInst_some {s : State} {i : Nat} (h : s.freeInst = some i) : s.inst? i = none ∧ ∀ j, j < i → s.inst? j ≠ none := by
  obtain ⟨⟨o, ho, free⟩, lower⟩ := firstIndex_spec h
  have empty : o = none := Option.isNone_iff_eq_none.mp free
  refine ⟨by simp [State.inst?, ho, empty], fun j hj => ?_⟩
  have within : j < s.re.insts.length := hj.trans (List.getElem?_eq_some_iff.mp ho).1
  have used := lower j hj _ (List.getElem?_eq_getElem within)
  obtain ⟨x, hx⟩ : ∃ x, s.re.insts[j] = some x := Option.isSome_iff_exists.mp (by simpa using used)
  simp [State.inst?, List.getElem?_eq_getElem within, hx]

theorem scanActivatesQueueHeads : Clause.ScanActivatesQueueHeads := by
  refine ⟨fun s idle => ?_, fun s j k d i hj => ?_, fun s n left g => ⟨visit_done s n g, fun idle => visit_passes idle n left,
    fun k d i found => visit_activates found n left⟩, fun s g k d i found => ?_⟩
  · have passed := visit_passes_many (s := s) (g := s.rq.lastServed + 1) (j := 8) (fun n _ => idle _ (Nat.mod_lt _ (by omega))) 64 0
    exact passed.trans (visit_done s 64 _)
  · dsimp only
    intro idle found
    have passed := visit_passes_many (g := s.rq.lastServed + 1) idle (72 - j) (8 - j)
    rw [Nat.sub_add_cancel (by omega), Nat.sub_add_cancel (by omega)] at passed
    have visits : 72 - j = 71 - j + 1 := by omega
    have left : 8 - j = 7 - j + 1 := by omega
    rw [State.scan, passed, visits, left, visit_activates found]
  · obtain ⟨mode, sound, idle, free, head, slot⟩ := activable_some found
    obtain ⟨own, lower⟩ := freeInst_some free
    exact ⟨mode, sound, idle, own, lower, head, slot, rfl⟩

/-- Settles O36. -/
theorem slotsEndAndActivate : Obligations.SlotsEndAndActivate :=
  ⟨outcomesAndIsolationFreeSlots, scanActivatesQueueHeads⟩

end Sys2Proof.Proofs
end

