-- ==== Sys2Proof/Proofs/ClaimTable.lean ====
section
/-! PROOF. Rules about the Claim Table: reading records and locks after an update, the release of a step and what follows it for the
record (R93 to R95), and the release of several steps of one record. -/

namespace Sys2Proof.Proofs
open Sys2Proof.Machine Sys2Proof.Laws

/-! ### Records and locks (R93, R94) -/

theorem lock?_eq_some {s : State} {k id : Nat} : s.lock? k = some id ↔ s.ct.locks[k]? = some (some id) := by
  unfold State.lock?
  rcases s.ct.locks[k]? with _ | _ | _ <;> simp

theorem lock?_eq_none {s : State} {k : Nat} : s.lock? k = none ↔ ∀ id, s.ct.locks[k]? ≠ some (some id) := by
  unfold State.lock?
  rcases s.ct.locks[k]? with _ | _ | _ <;> simp

theorem lock?_congr {s t : State} (h : t.ct.locks = s.ct.locks) (k : Nat) : t.lock? k = s.lock? k := by
  unfold State.lock?
  rw [h]

/-- A section that is unlocked, or gets unlocked, is not locked afterwards. -/
theorem lock?_of_set_none {s t : State} {j k : Nat} (h : t.ct.locks = s.ct.locks.set j none) (free : k = j ∨ s.lock? k = none) :
    t.lock? k = none := by
  rw [lock?_eq_none]
  intro id
  rw [h, List.getElem?_set]
  rcases free with rfl | free
  · split
    · split <;> simp
    · contradiction
  · split
    · split <;> simp
    · exact lock?_eq_none.mp free id

theorem claim?_eq_none {s : State} {id : Nat} : s.claim? id = none ↔ ∀ c, s.ct.records[id]? ≠ some (some c) := by
  unfold State.claim?
  rcases s.ct.records[id]? with _ | _ | _ <;> simp

theorem claim?_modClaim_ne {id j : Nat} (h : j ≠ id) (s : State) (f : Claim → Claim) : (s.modClaim id f).claim? j = s.claim? j := by
  have same : (s.modClaim id f).ct.records[j]? = s.ct.records[j]? := by simp [h.symm]
  unfold State.claim?
  rw [same]

/-- Changing a record of an ID that is not in use changes nothing. -/
theorem modClaim_unused {s : State} {id : Nat} (h : s.claim? id = none) (f : Claim → Claim) : (s.modClaim id f).claim? id = none := by
  rw [claim?_eq_none] at h ⊢
  intro c
  simp only [modClaim_ct, List.getElem?_modify_eq]
  rcases hr : s.ct.records[id]? with _ | _ | d
  · simp
  · simp
  · exact absurd hr (h d)

/-- Whether a section is CLEAR is DU's to say. -/
theorem sectClear_congr {s t : State} (h : t.du = s.du) (k : Nat) : t.sectClear k = s.sectClear k := by
  unfold State.sectClear State.sectState
  rw [h]

/-! ### A record that may be freed (R95) -/

theorem freeIfEmpty_held {s : State} {id : Nat} {c : Claim} (h : s.claim? id = some c) (held : c.holdsStep = true) :
    s.freeIfEmpty id = s := by
  unfold State.freeIfEmpty
  rw [h]
  exact if_pos held

theorem freeIfEmpty_empty {s : State} {id : Nat} {c : Claim} (h : s.claim? id = some c) (empty : c.holdsStep = false) :
    s.freeIfEmpty id = { s with ct := { s.ct with records := s.ct.records.set id none, free := s.ct.free ++ [id] } } := by
  unfold State.freeIfEmpty
  rw [h]
  exact if_neg (by simp [empty])

/-- What freeing does to CT depends on CT alone. -/
theorem freeIfEmpty_ct_congr {s t : State} (h : t.ct = s.ct) (id : Nat) : (t.freeIfEmpty id).ct = (s.freeIfEmpty id).ct := by
  have same : t.claim? id = s.claim? id := claim?_congr (by rw [h]) id
  unfold State.freeIfEmpty
  rw [same]
  split
  · split
    · exact h
    · simp only [h]
  · exact h

theorem freeIfEmpty_claim?_ne {id j : Nat} (h : j ≠ id) (s : State) : (s.freeIfEmpty id).claim? j = s.claim? j := by
  unfold State.freeIfEmpty
  split
  · split
    · rfl
    · have same : (s.ct.records.set id none)[j]? = s.ct.records[j]? := List.getElem?_set_ne h.symm
      unfold State.claim?
      rw [same]
  · rfl

@[simp] theorem freeIfEmpty_locks (s : State) (id : Nat) : (s.freeIfEmpty id).ct.locks = s.ct.locks := by
  unfold State.freeIfEmpty
  split
  · split <;> rfl
  · rfl

theorem freeIfEmpty_claim? {s : State} {id : Nat} {c : Claim} (h : s.claim? id = some c) :
    (s.freeIfEmpty id).claim? id = if c.holdsStep = true then some c else none := by
  by_cases held : c.holdsStep = true
  · rw [freeIfEmpty_held h held, if_pos held, h]
  · rw [freeIfEmpty_empty h (by simpa using held), if_neg held, claim?_eq_none]
    intro d
    simp only [List.getElem?_set_self']
    rcases s.ct.records[id]? with _ | _ <;> simp

/-! ### The release of a step (R95) -/

/-- The record with step `i` released. -/
def stepLetGo (i : Nat) (c : Claim) : Claim :=
  { c with steps := c.steps.modify i (fun x => { x with locked := false, orphan := none }) }

/-- A step of a record has been released: its section unlocked, its points' permission-end notices with PU, the step marked. -/
def stepReleased (s : State) (id i : Nat) (st : ClaimStep) : State :=
  State.modClaim { s with
    ct := { s.ct with locks := s.ct.locks.set st.sect none }
    pu := { s.pu with permEnds := s.pu.permEnds ++ s.containedPoints st.sect } } id (stepLetGo i)

/-- The PASSED of a release, where it has one (R110). -/
def stepTold (s : State) (id i : Nat) (tell : Bool) (c : Claim) (st : ClaimStep) : State :=
  if tell = true then (stepReleased s id i st).tellRe c.key.owner (.passed c.key st.number) else stepReleased s id i st

theorem releaseStep_locked {s : State} {id i : Nat} {c : Claim} {st : ClaimStep} (h : s.claim? id = some c) (hi : c.steps[i]? = some st)
    (locked : st.locked = true) (tell : Bool) :
    s.releaseStep id i tell = ((stepTold s id i tell c st).mouthRelease id c st).freeIfEmpty id := by
  unfold State.releaseStep
  rw [h]
  dsimp only
  rw [hi]
  dsimp only
  rw [if_pos locked, forEach_endPermission]
  rfl

/-- Only a locked step is released. -/
theorem releaseStep_idle {s : State} {id i : Nat}
    (h : ∀ c st, s.claim? id = some c → c.steps[i]? = some st → st.locked = false) (tell : Bool) : s.releaseStep id i tell = s := by
  unfold State.releaseStep
  split
  · split
    · rename_i c hc _ st hi
      exact if_neg (by simp [h c st hc hi])
    · rfl
  · rfl

theorem releaseStep_unused {s : State} {id : Nat} (h : s.claim? id = none) (i : Nat) (tell : Bool) : s.releaseStep id i tell = s :=
  releaseStep_idle (fun c _ hc => by simp [h] at hc) tell

@[simp] theorem mouthRelease_ct (s : State) (id : Nat) (c : Claim) (st : ClaimStep) : (s.mouthRelease id c st).ct = s.ct := by
  simp

theorem stepTold_ct (s : State) (id i : Nat) (tell : Bool) (c : Claim) (st : ClaimStep) :
    (stepTold s id i tell c st).ct = (stepReleased s id i st).ct := by
  unfold stepTold
  split <;> simp

/-- Neither PASSED nor the mouth release reaches the table. -/
theorem releaseStep_ct {s : State} {id i : Nat} {c : Claim} {st : ClaimStep} (h : s.claim? id = some c) (hi : c.steps[i]? = some st)
    (locked : st.locked = true) (tell : Bool) : (s.releaseStep id i tell).ct = ((stepReleased s id i st).freeIfEmpty id).ct := by
  rw [releaseStep_locked h hi locked]
  exact freeIfEmpty_ct_congr (by rw [mouthRelease_ct, stepTold_ct]) id

theorem stepReleased_claim? {s : State} {id : Nat} {c : Claim} (h : s.claim? id = some c) (i : Nat) (st : ClaimStep) :
    (stepReleased s id i st).claim? id = some (stepLetGo i c) :=
  claim?_modClaim (s := { s with ct := { s.ct with locks := _ }, pu := _ }) h _

theorem releaseStep_claim? {s : State} {id i : Nat} {c : Claim} {st : ClaimStep} (h : s.claim? id = some c) (hi : c.steps[i]? = some st)
    (locked : st.locked = true) (tell : Bool) :
    (s.releaseStep id i tell).claim? id = if (stepLetGo i c).holdsStep = true then some (stepLetGo i c) else none :=
  (claim?_congr (by rw [releaseStep_ct h hi locked]) id).trans (freeIfEmpty_claim? (stepReleased_claim? h i st))

theorem releaseStep_locks {s : State} {id i : Nat} {c : Claim} {st : ClaimStep} (h : s.claim? id = some c) (hi : c.steps[i]? = some st)
    (locked : st.locked = true) (tell : Bool) : (s.releaseStep id i tell).ct.locks = s.ct.locks.set st.sect none := by
  rw [releaseStep_ct h hi locked, freeIfEmpty_locks]
  rfl

/-- The release of a step either finds no locked step, or unlocks one. -/
theorem releaseStep_cases (s : State) (id i : Nat) (tell : Bool) : s.releaseStep id i tell = s
    ∨ ∃ c st, s.claim? id = some c ∧ c.steps[i]? = some st ∧ st.locked = true := by
  by_cases h : ∃ c st, s.claim? id = some c ∧ c.steps[i]? = some st ∧ st.locked = true
  · exact .inr h
  · refine .inl (releaseStep_idle (fun c st hc hi => ?_) tell)
    simpa using fun locked => h ⟨c, st, hc, hi, locked⟩

theorem releaseStep_claim?_ne {id j : Nat} (hj : j ≠ id) (s : State) (i : Nat) (tell : Bool) :
    (s.releaseStep id i tell).claim? j = s.claim? j := by
  rcases releaseStep_cases s id i tell with same | ⟨c, st, h, hi, locked⟩
  · rw [same]
  · rw [claim?_congr (congrArg CT.records (releaseStep_ct h hi locked tell)), freeIfEmpty_claim?_ne hj]
    exact (claim?_modClaim_ne hj _ _).trans rfl

/-- A release locks no section. -/
theorem releaseStep_unlocked {s : State} {k : Nat} (h : s.lock? k = none) (id i : Nat) (tell : Bool) :
    (s.releaseStep id i tell).lock? k = none := by
  rcases releaseStep_cases s id i tell with same | ⟨c, st, hc, hi, locked⟩
  · rw [same, h]
  · exact lock?_of_set_none (releaseStep_locks hc hi locked tell) (.inr h)

/-! ### The steps that a record keeps -/

theorem holdsStep_iff (c : Claim) : c.holdsStep = true ↔ ∃ (i : Nat) (st : ClaimStep), c.steps[i]? = some st ∧ st.locked = true := by
  unfold Claim.holdsStep
  rw [List.any_eq_true]
  constructor
  · rintro ⟨st, hst, locked⟩
    obtain ⟨i, hi⟩ := List.mem_iff_getElem?.mp hst
    exact ⟨i, st, hi, locked⟩
  · rintro ⟨i, st, hi, locked⟩
    exact ⟨st, List.mem_of_getElem? hi, locked⟩

theorem stepLetGo_steps (i j : Nat) (c : Claim) : (stepLetGo i c).steps[j]? =
    (c.steps[j]?).map (fun x => if i = j then { x with locked := false, orphan := none } else x) := by
  rw [stepLetGo, List.getElem?_modify]
  split <;> rename_i h
  · simp
  · simp

theorem stepLetGo_steps_ne {i j : Nat} (h : j ≠ i) (c : Claim) : (stepLetGo i c).steps[j]? = c.steps[j]? := by
  rw [stepLetGo_steps]
  simp [h.symm]

/-- The record holds a step after a release where another one is locked. -/
theorem stepLetGo_holdsStep (i : Nat) (c : Claim) :
    (stepLetGo i c).holdsStep = true ↔ ∃ (j : Nat) (x : ClaimStep), j ≠ i ∧ c.steps[j]? = some x ∧ x.locked = true := by
  rw [holdsStep_iff]
  constructor
  · rintro ⟨j, x, hx, locked⟩
    by_cases hj : j = i
    · subst hj
      rw [stepLetGo_steps, Option.map_eq_some_iff] at hx
      obtain ⟨y, -, rfl⟩ := hx
      simp at locked
    · exact ⟨j, x, hj, by rwa [stepLetGo_steps_ne hj] at hx, locked⟩
  · rintro ⟨j, x, hj, hx, locked⟩
    exact ⟨j, x, by rwa [stepLetGo_steps_ne hj], locked⟩

/-- The record with the steps of several indices released. -/
def stepsLetGo (l : List Nat) (c : Claim) : Claim :=
  { c with steps := c.steps.mapIdx (fun j st => if j ∈ l then { st with locked := false, orphan := none } else st) }

theorem stepsLetGo_nil (c : Claim) : stepsLetGo [] c = c := by
  have same : c.steps.mapIdx (fun _ st => st) = c.steps := by
    apply List.ext_getElem?
    simp
  simp [stepsLetGo, same]

theorem stepsLetGo_cons (i : Nat) (l : List Nat) (c : Claim) : stepsLetGo (i :: l) c = stepsLetGo l (stepLetGo i c) := by
  unfold stepsLetGo stepLetGo
  congr 1
  apply List.ext_getElem?
  intro j
  rw [List.getElem?_mapIdx, List.getElem?_mapIdx, List.getElem?_modify]
  rcases c.steps[j]? with _ | st
  · rfl
  · by_cases hi : i = j <;> by_cases hl : j ∈ l <;> simp [hi, hl, eq_comm (a := j)]

/-- Every index of the list is that of a locked step. -/
def AllLocked (l : List Nat) (c : Claim) : Prop :=
  ∀ i ∈ l, ∃ st, c.steps[i]? = some st ∧ st.locked = true

theorem AllLocked.tail {i : Nat} {l : List Nat} {c : Claim} (h : AllLocked (i :: l) c) (hi : i ∉ l) : AllLocked l (stepLetGo i c) := by
  intro j hj
  have apart : j ≠ i := fun same => hi (same ▸ hj)
  rw [stepLetGo_steps_ne apart]
  exact h j (List.mem_cons_of_mem i hj)

theorem AllLocked.eq_nil {l : List Nat} {c : Claim} (h : AllLocked l c) (empty : c.holdsStep ≠ true) : l = [] :=
  List.eq_nil_iff_forall_not_mem.mpr fun i hi => empty ((holdsStep_iff c).mpr ⟨i, h i hi⟩)

/-- The release of several locked steps of one record: the record that is left, or none. -/
theorem forEach_releaseStep_claim? {s : State} {id : Nat} {c : Claim} (h : s.claim? id = some c) (held : c.holdsStep = true)
    {l : List Nat} (nodup : l.Nodup) (locked : AllLocked l c) (tell : Bool) :
    (forEach l (fun i u => u.releaseStep id i tell) s).claim? id
      = if (stepsLetGo l c).holdsStep = true then some (stepsLetGo l c) else none := by
  induction l generalizing s c with
  | nil => simpa [forEach, stepsLetGo_nil, held] using h
  | cons i l ih =>
    obtain ⟨hi, nodup⟩ := List.nodup_cons.mp nodup
    obtain ⟨st, hst, own⟩ := locked i List.mem_cons_self
    have released := releaseStep_claim? h hst own tell
    have rest := locked.tail hi
    rw [forEach, stepsLetGo_cons]
    by_cases more : (stepLetGo i c).holdsStep = true
    · rw [if_pos more] at released
      exact ih released more nodup rest
    · rw [if_neg more] at released
      rw [rest.eq_nil more, stepsLetGo_nil, if_neg more]
      exact released

/-- The sections of several released steps are unlocked. -/
theorem forEach_releaseStep_lock? {s : State} {id : Nat} {c : Claim} (h : s.claim? id = some c)
    {l : List Nat} (nodup : l.Nodup) (locked : AllLocked l c) (tell : Bool) {k : Nat}
    (hk : s.lock? k = none ∨ ∃ i ∈ l, ∃ st, c.steps[i]? = some st ∧ st.sect = k) :
    (forEach l (fun i u => u.releaseStep id i tell) s).lock? k = none := by
  induction l generalizing s c with
  | nil => simpa [forEach] using hk
  | cons i l ih =>
    obtain ⟨hi, nodup⟩ := List.nodup_cons.mp nodup
    obtain ⟨st, hst, own⟩ := locked i List.mem_cons_self
    have released := releaseStep_claim? h hst own tell
    have rest := locked.tail hi
    have unlocked : (s.releaseStep id i tell).lock? k = none ∨ ∃ j ∈ l, ∃ x, (stepLetGo i c).steps[j]? = some x ∧ x.sect = k := by
      rcases hk with hk | ⟨j, hj, x, hx, hk⟩
      · exact .inl (releaseStep_unlocked hk id i tell)
      · rcases List.mem_cons.mp hj with rfl | hj
        · rw [hst] at hx
          cases hx
          exact .inl (lock?_of_set_none (releaseStep_locks h hst own tell) (.inl hk.symm))
        · have apart : j ≠ i := fun same => hi (same ▸ hj)
          exact .inr ⟨j, hj, x, by rwa [stepLetGo_steps_ne apart], hk⟩
    rw [forEach]
    by_cases more : (stepLetGo i c).holdsStep = true
    · rw [if_pos more] at released
      exact ih released nodup rest unlocked
    · cases rest.eq_nil more
      simpa [forEach] using unlocked

/-! ### The releases of winding down, and of the expiry of the set timer (R95, R112) -/

/-- Running an operation where `p` accepts the item is running it over the items accepted. -/
theorem forEach_filter {α : Type} (p : α → Bool) (f : α → State → State) (l : List α) (s : State) :
    forEach l (fun a u => if p a = true then f a u else u) s = forEach (l.filter p) f s := by
  induction l generalizing s with
  | nil => rfl
  | cons a as ih =>
    rw [forEach, ih]
    by_cases h : p a = true
    · rw [if_pos h, List.filter_cons_of_pos h, forEach]
    · rw [if_neg h, List.filter_cons_of_neg h]

/-- Between the releases of the steps of record `id`, which read `c` at first, the record has the sections of `c` and locks no step that
`c` does not lock, if it is still in use. -/
structure Releasing (s : State) (id : Nat) (c : Claim) (u : State) : Prop where
  du : u.du = s.du
  step : ∀ (d : Claim) (i : Nat) (st : ClaimStep), u.claim? id = some d → d.steps[i]? = some st →
    ∃ x : ClaimStep, c.steps[i]? = some x ∧ st.sect = x.sect ∧ (st.locked = true → x.locked = true)

theorem Releasing.refl {s : State} {id : Nat} {c : Claim} (h : s.claim? id = some c) : Releasing s id c s :=
  ⟨rfl, fun d i st hd hi => by
    rw [h] at hd
    cases hd
    exact ⟨st, hi, rfl, fun locked => locked⟩⟩

theorem Releasing.releaseStep {s u : State} {id : Nat} {c : Claim} (h : Releasing s id c u) (i : Nat) (tell : Bool) :
    Releasing s id c (u.releaseStep id i tell) := by
  rcases releaseStep_cases u id i tell with same | ⟨d, st, hd, hi, locked⟩
  · rwa [same]
  · refine ⟨by simp [h.du], fun e j x he hx => ?_⟩
    rw [releaseStep_claim? hd hi locked] at he
    split at he
    · cases he
      rw [stepLetGo_steps, Option.map_eq_some_iff] at hx
      obtain ⟨y, hy, rfl⟩ := hx
      obtain ⟨z, hz, sect, was⟩ := h.step d j y hd hy
      refine ⟨z, hz, ?_, ?_⟩
      · split <;> exact sect
      · split
        · nofun
        · exact was
    · cases he

/-- The indices of the locked steps of a record. -/
def lockedSteps (c : Claim) : List Nat :=
  (List.range c.steps.length).filter (fun i => (c.steps[i]?).any (·.locked))

theorem releaseAll_eq {s : State} {id : Nat} {c : Claim} (h : s.claim? id = some c) :
    s.releaseAll id = forEach (List.range c.steps.length) (fun i u => u.releaseStep id i false) s := by
  have indices : s.stepIndices id = List.range c.steps.length := by
    unfold State.stepIndices
    rw [h]
  unfold State.releaseAll
  rw [indices]

/-- The steps that are not locked are passed over (R112). -/
theorem releaseAll_lockedSteps {s : State} {id : Nat} {c : Claim} (h : s.claim? id = some c) :
    s.releaseAll id = forEach (lockedSteps c) (fun i u => u.releaseStep id i false) s := by
  rw [releaseAll_eq h, lockedSteps, ← forEach_filter]
  refine (forEach_congr_on (P := Releasing s id c) (fun i _ u hu => ?_) (fun i _ u hu => ?_) (.refl h))
  · split
    · exact hu.releaseStep i false
    · exact hu
  · by_cases locked : (c.steps[i]?).any (·.locked) = true
    · rw [if_pos locked]
    · rw [if_neg locked]
      refine releaseStep_idle (fun d st hd hi => ?_) false
      obtain ⟨x, hx, -, was⟩ := hu.step d i st hd hi
      exact Bool.eq_false_iff.mpr fun own => locked (by simp [hx, was own])

/-- Winding down releases the locked steps whose sections are CLEAR (R95). -/
theorem releaseClear_eq {s : State} {id : Nat} {c : Claim} (h : s.claim? id = some c) :
    s.releaseClear id = forEach (s.clearSteps c) (fun i u => u.releaseStep id i false) s := by
  have indices : s.stepIndices id = List.range c.steps.length := by
    unfold State.stepIndices
    rw [h]
  rw [State.releaseClear, indices, State.clearSteps, ← forEach_filter]
  refine (forEach_congr_on (P := Releasing s id c) (fun i _ u hu => ?_) (fun i _ u hu => ?_) (.refl h))
  · split
    · exact hu.releaseStep i false
    · exact hu
  · rcases hd : u.claim? id with _ | d
    · rw [releaseStep_unused hd, ite_self, ite_self]
    · rcases hi : d.steps[i]? with _ | st
      · rw [releaseStep_idle (fun e x he hx => by simp_all), ite_self, ite_self]
      · obtain ⟨x, hx, sect, was⟩ := hu.step d i st hd hi
        have clear : u.stepClear id i = s.sectClear x.sect := by
          simp [State.stepClear, hd, hi, sectClear_congr hu.du, sect]
        by_cases own : st.locked = true
        · simp [clear, hx, was own]
        · rw [releaseStep_idle (fun e y he hy => by simp_all), ite_self, ite_self]

theorem lockedSteps_nodup (c : Claim) : (lockedSteps c).Nodup :=
  List.nodup_range.filter _

theorem clearSteps_nodup (s : State) (c : Claim) : (s.clearSteps c).Nodup :=
  List.nodup_range.filter _

theorem mem_clearSteps {s : State} {c : Claim} {i : Nat} :
    i ∈ s.clearSteps c ↔ ∃ st, c.steps[i]? = some st ∧ st.locked = true ∧ s.sectClear st.sect = true := by
  unfold State.clearSteps
  rw [List.mem_filter, List.mem_range]
  constructor
  · rintro ⟨-, h⟩
    simpa [Option.any_eq_true] using h
  · rintro ⟨st, hi, locked, clear⟩
    exact ⟨(List.getElem?_eq_some_iff.mp hi).1, by simp [hi, locked, clear]⟩

theorem mem_lockedSteps {c : Claim} {i : Nat} : i ∈ lockedSteps c ↔ ∃ st, c.steps[i]? = some st ∧ st.locked = true := by
  unfold lockedSteps
  rw [List.mem_filter, List.mem_range]
  constructor
  · rintro ⟨-, h⟩
    simpa [Option.any_eq_true] using h
  · rintro ⟨st, hi, locked⟩
    exact ⟨(List.getElem?_eq_some_iff.mp hi).1, by simp [hi, locked]⟩

theorem clearSteps_locked (s : State) (c : Claim) : AllLocked (s.clearSteps c) c := by
  intro i hi
  obtain ⟨st, hst, locked, -⟩ := mem_clearSteps.mp hi
  exact ⟨st, hst, locked⟩

theorem lockedSteps_locked (c : Claim) : AllLocked (lockedSteps c) c :=
  fun _ => mem_lockedSteps.mp

/-- The record with every locked step released whose section is CLEAR. -/
def clearLetGo (s : State) (c : Claim) : Claim :=
  { c with steps := c.steps.map (fun st =>
      if st.locked = true ∧ s.sectClear st.sect = true then { st with locked := false, orphan := none } else st) }

theorem stepsLetGo_clearSteps (s : State) (c : Claim) : stepsLetGo (s.clearSteps c) c = clearLetGo s c := by
  unfold stepsLetGo clearLetGo
  congr 1
  apply List.ext_getElem?
  intro j
  rw [List.getElem?_mapIdx, List.getElem?_map]
  rcases hj : c.steps[j]? with _ | st
  · rfl
  · simp [mem_clearSteps, hj]

theorem clearLetGo_holdsStep (s : State) (c : Claim) :
    (clearLetGo s c).holdsStep = true ↔ ∃ st ∈ c.steps, st.locked = true ∧ s.sectClear st.sect = false := by
  unfold Claim.holdsStep clearLetGo
  simp only [List.any_map, List.any_eq_true, Function.comp]
  refine exists_congr fun st => and_congr_right fun _ => ?_
  split <;> simp_all

theorem allClear_iff (s : State) (c : Claim) : s.allClear c = true ↔ c.holdsStep = true ∧ (clearLetGo s c).holdsStep = false := by
  unfold State.allClear
  rw [Bool.and_eq_true, ← Bool.not_eq_true, clearLetGo_holdsStep, List.all_eq_true]
  refine and_congr_right fun _ => ?_
  simp only [not_exists, not_and, Bool.not_eq_false, Bool.or_eq_true, Bool.not_eq_eq_eq_not, Bool.not_true]
  refine forall₂_congr fun st _ => ?_
  cases st.locked <;> simp

/-- The record after winding down (R95): freed where each of its locked steps was CLEAR, and it had one. -/
theorem releaseClear_claim? {s : State} {id : Nat} {c : Claim} (h : s.claim? id = some c) :
    (s.releaseClear id).claim? id = if s.allClear c = true then none else some (clearLetGo s c) := by
  rw [releaseClear_eq h]
  by_cases held : c.holdsStep = true
  · rw [forEach_releaseStep_claim? h held (clearSteps_nodup s c) (clearSteps_locked s c), stepsLetGo_clearSteps]
    by_cases left : (clearLetGo s c).holdsStep = true
    · rw [if_pos left, if_neg (by simp [allClear_iff, left])]
    · rw [if_neg left, if_pos (by simp [allClear_iff, left, held])]
  · have none : s.clearSteps c = [] := (clearSteps_locked s c).eq_nil held
    rw [← stepsLetGo_clearSteps, none, stepsLetGo_nil, if_neg (by simp [allClear_iff, held])]
    exact h

theorem releaseClear_lock? {s : State} {id : Nat} {c : Claim} (h : s.claim? id = some c) {st : ClaimStep} (hst : st ∈ c.steps)
    (locked : st.locked = true) (clear : s.sectClear st.sect = true) : (s.releaseClear id).lock? st.sect = none := by
  obtain ⟨i, hi⟩ := List.mem_iff_getElem?.mp hst
  rw [releaseClear_eq h]
  exact forEach_releaseStep_lock? h (clearSteps_nodup s c) (clearSteps_locked s c) false
    (.inr ⟨i, mem_clearSteps.mpr ⟨st, hi, locked, clear⟩, st, hi, rfl⟩)

/-- The record after the release of every step (R112). -/
theorem releaseAll_claim? {s : State} {id : Nat} {c : Claim} (h : s.claim? id = some c) (held : c.holdsStep = true) :
    (s.releaseAll id).claim? id = none := by
  rw [releaseAll_lockedSteps h, forEach_releaseStep_claim? h held (lockedSteps_nodup c) (lockedSteps_locked c), if_neg]
  rw [holdsStep_iff]
  rintro ⟨i, st, hi, locked⟩
  simp only [stepsLetGo, List.getElem?_mapIdx, Option.map_eq_some_iff] at hi
  obtain ⟨x, hx, rfl⟩ := hi
  by_cases own : i ∈ lockedSteps c
  · simp [own] at locked
  · rw [if_neg own] at locked
    exact own (mem_lockedSteps.mpr ⟨x, hx, locked⟩)

theorem releaseAll_lock? {s : State} {id : Nat} {c : Claim} (h : s.claim? id = some c) {st : ClaimStep} (hst : st ∈ c.steps)
    (locked : st.locked = true) : (s.releaseAll id).lock? st.sect = none := by
  obtain ⟨i, hi⟩ := List.mem_iff_getElem?.mp hst
  rw [releaseAll_lockedSteps h]
  exact forEach_releaseStep_lock? h (lockedSteps_nodup c) (lockedSteps_locked c) false
    (.inr ⟨i, mem_lockedSteps.mpr ⟨st, hi, locked⟩, st, hi, rfl⟩)

end Sys2Proof.Proofs
end

