-- ==== Sys2Proof/Proofs/ClaimChecks.lean ====
section
/-! PROOF. What reaches CT, the checks of a CLAIM in their order, the denial and the grant (O37, O38; R96 to R103). -/

namespace Sys2Proof.Proofs
open Sys2Proof.Machine Sys2Proof.Laws

/-! ### CLAIM, SET and RELEASE reach CT (R96, R103, R104, R113) -/

/-- The oldest handover of the own RE goes to CT where it is one that was asked for. -/
theorem withCtHandover_accepted {s : State} {m : CtMsg} {rest : List CtMsg} (h : s.ct.fromRe = m :: rest) {p : CtMsg → Bool}
    (accepted : p m = true) : s.withCtHandover p = ({ s with ct := { s.ct with fromRe := rest } }).ctTakes m := by
  unfold State.withCtHandover
  rw [h]
  exact if_pos accepted

/-- A frame that counts only from the owner that its key names. -/
theorem finishFrame_ite {s t : State} {p : Prop} [Decidable p] :
    (if p then t else s).finishFrame = if p then t.finishFrame else s.finishFrame :=
  apply_ite _ _ _ _

theorem claimTrafficReachesCt : Clause.ClaimTrafficReachesCt := by
  intro s
  refine ⟨fun f fs' h => ?_, fun f fs' h => ?_, fun f fs' h => ?_, fun req rest h => ?_, fun key rest h => ?_, fun key rest h => ?_⟩
  · exact congrArg Host.Outcome.next (withFrame_some h claimFrame)
  · exact congrArg Host.Outcome.next ((withFrame_some h setFrame).trans finishFrame_ite)
  · exact congrArg Host.Outcome.next ((withFrame_some h releaseFrame).trans finishFrame_ite)
  · exact congrArg Host.Outcome.next (withCtHandover_accepted h rfl)
  · exact congrArg Host.Outcome.next (withCtHandover_accepted h rfl)
  · exact congrArg Host.Outcome.next (withCtHandover_accepted h rfl)

/-! ### The records of a search -/

theorem mem_claimsWhere {s : State} {p : Claim → Bool} {id : Nat} :
    id ∈ s.claimsWhere p ↔ ∃ c, s.claim? id = some c ∧ p c = true := by
  unfold State.claimsWhere
  rw [List.mem_filter, List.mem_range]
  constructor
  · rintro ⟨-, h⟩
    rcases hc : s.claim? id with _ | c
    · simp [hc] at h
    · exact ⟨c, rfl, by simpa [hc] using h⟩
  · rintro ⟨c, hc, h⟩
    exact ⟨(List.getElem?_eq_some_iff.mp (claim?_eq_some.mp hc)).1, by simpa [hc] using h⟩

theorem claimsWhere_nodup (s : State) (p : Claim → Bool) : (s.claimsWhere p).Nodup :=
  List.nodup_range.filter _

theorem mem_earlier {s : State} {key : RouteKey} {id : Nat} : id ∈ s.claimsWhere (fun c => c.earlierOf key) ↔ ∃ c, s.claim? id = some c
    ∧ c.key.owner = key.owner ∧ c.key.epoch = key.epoch ∧ c.key.route = key.route ∧ c.key ≠ key := by
  rw [mem_claimsWhere]
  simp only [Claim.earlierOf, Bool.and_eq_true, beq_iff_eq, bne_iff_ne, and_assoc]

/-! ### The checks before the steps (R97, R98) -/

/-- A record has been seen occupied. -/
def seenRecord (s : State) (id : Nat) : Bool :=
  match s.claim? id with
  | some c => c.anySeen
  | none => false

theorem seenRecord_some {s : State} {id : Nat} {c : Claim} (h : s.claim? id = some c) : seenRecord s id = c.anySeen := by
  unfold seenRecord
  rw [h]

/-- A record in use none of whose steps has been seen. -/
theorem seenRecord_false {s : State} {id : Nat} (unseen : ∀ c, s.claim? id = some c → ∀ st ∈ c.steps, st.seen = false) :
    seenRecord s id = false := by
  rcases hc : s.claim? id with _ | c
  · simp [seenRecord, hc]
  · rw [seenRecord_some hc, ← Bool.not_eq_true, anySeen_iff]
    rintro ⟨st, hst, seen⟩
    exact absurd ((unseen c hc st hst).symm.trans seen) Bool.false_ne_true

/-- A CLAIM of a trusted requester in RUNNING goes on to checks 3 and 4. -/
theorem evaluateClaim_trusted {s : State} {req : ClaimReq} {rx : Option RxRec} (somebody : fromNobody rx = false)
    (running : s.pt.mode = .running) (trusted : requesterTrusted rx req.key = true) : s.evaluateClaim req rx = s.checkEarlier req := by
  unfold State.evaluateClaim
  rw [somebody, running]
  exact if_pos trusted

theorem checkEarlier_repeat {s : State} {req : ClaimReq} {id : Nat} {c : Claim} (hid : s.claimWithKey req.key = some id)
    (hc : s.claim? id = some c) : s.checkEarlier req = if c.releaseMark then s.denyTo req.key.owner req.key .held 0 (some c.cls.code)
      else s.tellRe req.key.owner (.grant req.key id) := by
  unfold State.checkEarlier
  rw [hid]
  dsimp only
  rw [hc]

/-- The first earlier attempt that has been seen denies the CLAIM. -/
theorem checkEarlier_seen {s : State} {req : ClaimReq} {front others : List Nat} {id : Nat} {c : Claim}
    (new : s.claimWithKey req.key = none) (earlier : s.claimsWhere (fun c => c.earlierOf req.key) = front ++ id :: others)
    (unseen : ∀ j ∈ front, seenRecord s j = false) (hc : s.claim? id = some c) (seen : c.anySeen = true) :
    s.checkEarlier req = s.denyTo req.key.owner req.key .held 0 (some c.cls.code) := by
  have found : (s.claimsWhere (fun c => c.earlierOf req.key)).find? (seenRecord s) = some id := by
    rw [earlier, List.find?_append, List.find?_eq_none.mpr (fun j hj => by simp [unseen j hj]), Option.none_or,
      List.find?_cons_of_pos (by rw [seenRecord_some hc, seen])]
  unfold State.checkEarlier
  rw [new]
  change (match (s.claimsWhere (fun c => c.earlierOf req.key)).find? (seenRecord s) with
    | some id => _
    | none => _) = _
  rw [found]
  dsimp only
  rw [hc]
  rfl

/-- Earlier attempts that have not been seen are wound down, and the step checks follow. -/
theorem checkEarlier_unseen {s : State} {req : ClaimReq} (new : s.claimWithKey req.key = none)
    (unseen : ∀ id ∈ s.claimsWhere (fun c => c.earlierOf req.key), seenRecord s id = false) : s.checkEarlier req
      = (forEach (s.claimsWhere (fun c => c.earlierOf req.key)) (fun id u => u.windDown id) s).checkSteps req := by
  have found : (s.claimsWhere (fun c => c.earlierOf req.key)).find? (seenRecord s) = none :=
    List.find?_eq_none.mpr (fun id hid => by simp [unseen id hid])
  unfold State.checkEarlier
  rw [new]
  change (match (s.claimsWhere (fun c => c.earlierOf req.key)).find? (seenRecord s) with
    | some id => _
    | none => _) = _
  rw [found]

theorem claimChecksBeforeItsSteps : Clause.ClaimChecksBeforeItsSteps := by
  intro s req rx somebody
  refine ⟨fun r nobody => ?_, fun mode => ?_, fun mode => ?_, fun mode distrusted => ?_, fun mode trusted => ?_, fun id => mem_earlier⟩
  · exact if_pos (by simp [fromNobody, nobody])
  · simp [State.evaluateClaim, somebody, mode]
  · simp [State.evaluateClaim, somebody, mode]
  · simp [State.evaluateClaim, somebody, mode, distrusted]
  · rw [evaluateClaim_trusted somebody mode trusted]
    refine ⟨fun id c hid hc => checkEarlier_repeat hid hc, fun new none => ?_, fun id c others new earlier hc seen => ?_,
      fun front id c others new earlier unseen hc seen => ?_, fun new unseen => ?_⟩
    · rw [checkEarlier_unseen new (by simp [none]), none]
      rfl
    · exact checkEarlier_seen (front := []) new earlier (by simp) hc seen
    · exact checkEarlier_seen new earlier (fun j hj => seenRecord_false (unseen j hj)) hc ((anySeen_iff c).mpr seen)
    · exact checkEarlier_unseen new (fun id hid => seenRecord_false (unseen id hid))

/-- Settles O37. -/
theorem claimsAreChecked : Obligations.ClaimsAreChecked :=
  ⟨claimTrafficReachesCt, claimChecksBeforeItsSteps⟩

/-! ### Steps that are not well formed (R99, R182) -/

/-- Step `st` of a CLAIM, after `front` and before `back`, is not well formed. -/
def Offends (s : State) (req : ClaimReq) (front : List ReqStep) (st : ReqStep) (back : List ReqStep) : Prop :=
  st.number = 0 ∨ 12 < st.number ∨ (∃ e, front.getLast? = some e ∧ st.number ≤ e.number)
  ∨ st.demandCount = 3
  ∨ 16 ≤ st.sect ∨ s.yard.sects[st.sect]? = none ∨ (∃ e ∈ front, e.sect = st.sect)
  ∨ (∃ c, s.yard.sects[st.sect]? = some c ∧ (c.role = .approach ∨ c.role = .roadBody ∨ (∃ d ∈ st.demands, d.point ∉ c.points)
      ∨ (st.mouth = true ∧ c.role ≠ .roadMouth)))
  ∨ ¬ (st.demands.map (·.point)).Nodup
  ∨ (st.mouth = true ∧ (back ≠ [] ∨ req.award = none ∨ req.cls ≠ some .runIn))

/-- The section of the step is not configured, or one that the step may not name in this way. -/
def sectionBad (s : State) (st : ReqStep) : Bool :=
  match s.yard.sects[st.sect]? with
  | none => true
  | some c => c.role == .approach || c.role == .roadBody || st.demands.any (fun d => !c.points.contains d.point)
      || (st.mouth && c.role != .roadMouth)

/-- The number of the step does not rise above that of the step before it. -/
def numberFalls (front : List ReqStep) (st : ReqStep) : Bool :=
  match front.getLast? with
  | some e => decide (st.number ≤ e.number)
  | none => false

theorem sectionBad_iff (s : State) (st : ReqStep) : sectionBad s st = true ↔ s.yard.sects[st.sect]? = none
    ∨ ∃ c, s.yard.sects[st.sect]? = some c ∧ (c.role = .approach ∨ c.role = .roadBody ∨ (∃ d ∈ st.demands, d.point ∉ c.points)
      ∨ (st.mouth = true ∧ c.role ≠ .roadMouth)) := by
  unfold sectionBad
  rcases s.yard.sects[st.sect]? with _ | c
  · simp
  · simp [or_assoc]

theorem numberFalls_iff (front : List ReqStep) (st : ReqStep) :
    numberFalls front st = true ↔ ∃ e, front.getLast? = some e ∧ st.number ≤ e.number := by
  unfold numberFalls
  rcases front.getLast? with _ | e <;> simp

theorem badStep_eq (s : State) (req : ClaimReq) (front : List ReqStep) (st : ReqStep) (last : Bool) : s.badStep req front st last =
    (st.number == 0 || decide (12 < st.number) || st.demandCount == 3 || decide (16 ≤ st.sect) || sectionBad s st
      || front.any (fun e => e.sect == st.sect) || hasTwice (st.demands.map (·.point))
      || (st.mouth && (!last || req.award == none || req.cls != some .runIn)) || numberFalls front st) := rfl

/-- The order of the conditions does not matter for their disjunction. -/
theorem or_regrouped {zero big falls three far none taken bad twice mouth : Prop} :
    ((((((((zero ∨ big) ∨ three) ∨ far) ∨ (none ∨ bad)) ∨ taken) ∨ twice) ∨ mouth) ∨ falls)
      ↔ (zero ∨ big ∨ falls ∨ three ∨ far ∨ none ∨ taken ∨ bad ∨ twice ∨ mouth) := by
  tauto

theorem badStep_iff (s : State) (req : ClaimReq) (front : List ReqStep) (st : ReqStep) (back : List ReqStep) :
    s.badStep req front st back.isEmpty = true ↔ Offends s req front st back := by
  have twice : hasTwice (st.demands.map (·.point)) = true ↔ ¬ (st.demands.map (·.point)).Nodup := by
    rw [← hasTwice_eq_false_iff, Bool.not_eq_false]
  have last : (!back.isEmpty) = true ↔ back ≠ [] := by
    cases back <;> simp
  rw [badStep_eq, Offends, ← or_regrouped]
  simp only [Bool.or_eq_true, sectionBad_iff, numberFalls_iff, twice, Bool.and_eq_true, last, beq_iff_eq, bne_iff_ne,
    decide_eq_true_eq, List.any_eq_true, or_assoc]

theorem firstBadStep_offends {s : State} {req : ClaimReq} {front : List ReqStep} {st : ReqStep} {back : List ReqStep} :
    ∀ {earlier : List ReqStep}, Offends s req (earlier ++ front) st back →
      (∀ a x b, front = a ++ x :: b → ¬ Offends s req (earlier ++ a) x (b ++ st :: back)) →
      s.firstBadStep req earlier (front ++ st :: back) = some st.number := by
  induction front with
  | nil =>
    intro earlier bad _
    rw [List.append_nil] at bad
    exact if_pos ((badStep_iff s req earlier st back).mpr bad)
  | cons y front ih =>
    intro earlier bad good
    have fine : ¬ s.badStep req earlier y (front ++ st :: back).isEmpty = true := by
      rw [badStep_iff]
      simpa using good [] y front rfl
    refine (if_neg fine).trans (ih (by simpa using bad) fun a x b split => ?_)
    have := good (y :: a) x b (by rw [split]; rfl)
    simpa using this

theorem firstBadStep_none {s : State} {req : ClaimReq} {l : List ReqStep} : ∀ {earlier : List ReqStep},
    (s.firstBadStep req earlier l = none ↔ ∀ front st back, l = front ++ st :: back → ¬ Offends s req (earlier ++ front) st back) := by
  induction l with
  | nil =>
    intro earlier
    exact iff_of_true rfl (fun front st back h => by simp at h)
  | cons y l ih =>
    intro earlier
    rw [State.firstBadStep]
    by_cases bad : s.badStep req earlier y l.isEmpty = true
    · rw [if_pos bad]
      refine iff_of_false nofun fun good => good [] y l rfl ?_
      rw [List.append_nil]
      exact (badStep_iff s req earlier y l).mp bad
    · rw [if_neg bad, ih]
      constructor
      · intro good front st back split
        cases front with
        | nil =>
          cases split
          rw [List.append_nil]
          exact fun offends => bad ((badStep_iff s req earlier y l).mpr offends)
        | cons z front =>
          cases split
          simpa using good front st back rfl
      · intro good front st back split
        simpa using good (y :: front) st back (by rw [split]; rfl)

theorem badClaim_malformed {s : State} {req : ClaimReq} (h : req.cls = none ∨ req.steps = [] ∨ 12 < req.steps.length) :
    s.badClaim req = some 0 :=
  if_pos h

theorem badClaim_formed {s : State} {req : ClaimReq} (cls : req.cls ≠ none) (some : req.steps ≠ []) (short : req.steps.length ≤ 12) :
    s.badClaim req = s.firstBadStep req [] req.steps :=
  if_neg (by simp only [cls, some, false_or]; omega)

/-- A CLAIM that passes check 5 has no step that offends. -/
theorem badClaim_eq_none {s : State} {req : ClaimReq} (h : s.badClaim req = none) :
    ∀ front st back, req.steps = front ++ st :: back → ¬ Offends s req front st back := by
  unfold State.badClaim at h
  split at h
  · cases h
  · exact firstBadStep_none.mp h

theorem ofCode_eq_none (b : Nat) : RouteClass.ofCode (b % 4) = none ↔ b % 4 = 3 := by
  have four : b % 4 < 4 := Nat.mod_lt _ (by omega)
  generalize b % 4 = k at four
  match k with
  | 0 | 1 | 2 => simp [RouteClass.ofCode]
  | 3 => simp [RouteClass.ofCode]
  | k + 4 => omega

theorem badStepConditions : Clause.BadStepConditions := by
  refine ⟨fun l => ofCode_eq_none _, fun s req => ⟨badClaim_malformed, fun front st back cls short split bad good => ?_,
    fun cls some short good => ?_⟩⟩
  · rw [badClaim_formed cls (by simp [split]) short, split]
    exact firstBadStep_offends (earlier := []) bad good
  · rw [badClaim_formed cls some short]
    exact firstBadStep_none.mpr good

/-! ### The denial of a step (R100, R101) -/

theorem stepDenial_held {s : State} {st : ReqStep} {id : Nat} {c : Claim} (locked : s.lock? st.sect = some id)
    (h : s.claim? id = some c) (req : ClaimReq) : s.stepDenial req st = some (.held, some c.cls.code) := by
  unfold State.stepDenial
  rw [locked]
  dsimp only
  rw [h]
  rfl

/-- The award check of a step (R101). -/
def awardDenial (s : State) (req : ClaimReq) (st : ReqStep) : Option (DenyReason × Option Nat) :=
  match st.mouth, req.award with
  | true, some a =>
    let held := match s.roadOfMouth st.sect with
      | some r => s.awardHeld r a.call req.key
      | none => false
    if held then none else some (if a.direct then .noRoom else .noAward, none)
  | _, _ => none

/-- With a free and CLEAR section a faulty point denies the step. -/
theorem stepDenial_fault {s : State} {st : ReqStep} (free : s.lock? st.sect = none) (clear : s.sectState st.sect = some .clear) {p : Nat}
    (fault : (s.containedPoints st.sect).find? (fun p => (s.pointState p).any PointState.faulty) = some p) (req : ClaimReq) :
    s.stepDenial req st = some (.pointFault, some p) := by
  unfold State.stepDenial
  rw [free]
  dsimp only
  rw [clear]
  dsimp only
  rw [fault]

/-- With sound points too the award decides. -/
theorem stepDenial_sound {s : State} {st : ReqStep} (free : s.lock? st.sect = none) (clear : s.sectState st.sect = some .clear)
    (sound : (s.containedPoints st.sect).find? (fun p => (s.pointState p).any PointState.faulty) = none) (req : ClaimReq) :
    s.stepDenial req st = awardDenial s req st := by
  unfold State.stepDenial
  rw [free]
  dsimp only
  rw [clear]
  dsimp only
  rw [sound]
  rfl

theorem awardDenial_none {req : ClaimReq} {st : ReqStep} (h : st.mouth = false ∨ req.award = none) (s : State) :
    awardDenial s req st = none := by
  unfold awardDenial
  rcases h with mouth | award
  · rw [mouth]
  · rw [award]
    cases st.mouth <;> rfl

theorem awardDenial_mouth {s : State} {req : ClaimReq} {st : ReqStep} {a : AwardRef} {r : Nat} (mouth : st.mouth = true)
    (award : req.award = some a) (road : s.roadOfMouth st.sect = some r) : awardDenial s req st =
      if s.awardHeld r a.call req.key then none else some (if a.direct then .noRoom else .noAward, none) := by
  unfold awardDenial
  rw [mouth, award]
  dsimp only
  rw [road]

theorem stepDenialsInOrder : Clause.StepDenialsInOrder := by
  intro s req st
  refine ⟨fun id c locked h => stepDenial_held locked h req, fun free occupied => ?_, fun free disturbed => ?_, fun free clear => ?_⟩
  · simp [State.stepDenial, free, occupied]
  · simp [State.stepDenial, free, disturbed]
  · refine ⟨fun p fault => stepDenial_fault free clear fault req, fun sound => ?_⟩
    rw [stepDenial_sound free clear sound]
    exact ⟨fun none => awardDenial_none none s, fun a r mouth award road => awardDenial_mouth mouth award road⟩

theorem firstDenial_none {s : State} {req : ClaimReq} {l : List ReqStep} (h : ∀ x ∈ l, s.stepDenial req x = none) :
    s.firstDenial req l = none := by
  induction l with
  | nil => rfl
  | cons x l ih =>
    rw [State.firstDenial, h x List.mem_cons_self]
    exact ih fun y hy => h y (List.mem_cons_of_mem x hy)

theorem firstDenial_append {s : State} {req : ClaimReq} {front back : List ReqStep} (h : ∀ x ∈ front, s.stepDenial req x = none) :
    s.firstDenial req (front ++ back) = s.firstDenial req back := by
  induction front with
  | nil => rfl
  | cons x front ih =>
    rw [List.cons_append, State.firstDenial, h x List.mem_cons_self]
    exact ih fun y hy => h y (List.mem_cons_of_mem x hy)

/-- A CLAIM that no step check denies finds every section unlocked. -/
theorem firstDenial_unlocked {s : State} {req : ClaimReq} {l : List ReqStep} (h : s.firstDenial req l = none) :
    ∀ st ∈ l, s.lock? st.sect = none := by
  induction l with
  | nil => simp
  | cons x l ih =>
    rw [State.firstDenial] at h
    split at h
    · cases h
    · rename_i passed
      intro st hst
      rcases List.mem_cons.mp hst with rfl | hst
      · rcases locked : s.lock? st.sect with _ | id
        · rfl
        · simp [State.stepDenial, locked] at passed
      · exact ih h st hst

/-! ### The grant (R102) -/

theorem send_claimCounters (s : State) (k : Kind) (dest : Nat) (l : List Byte) :
    (s.send k dest l).cnt.granted = s.cnt.granted ∧ (s.send k dest l).cnt.denied = s.cnt.denied := by
  unfold State.send
  constructor <;> ((repeat' split) <;> rfl)

theorem tellRe_claimCounters (s : State) (dest : Nat) (m : ReMsg) :
    (s.tellRe dest m).cnt.granted = s.cnt.granted ∧ (s.tellRe dest m).cnt.denied = s.cnt.denied := by
  unfold State.tellRe
  split
  · exact ⟨rfl, rfl⟩
  · split
    · exact send_claimCounters _ _ _ _
    · exact ⟨rfl, rfl⟩

theorem tellRe_own {s : State} {dest : Nat} (own : dest = s.pt.node) (m : ReMsg) : s.tellRe dest m = s.handRe m :=
  if_pos own

theorem tellRe_other {s : State} {dest : Nat} (other : dest ≠ s.pt.node) (node : dest < 63) (m : ReMsg) :
    s.tellRe dest m = s.send m.kind dest (encReMsg m) :=
  (if_neg other).trans (if_pos node)

theorem checkSteps_bad {s : State} {req : ClaimReq} {n : Nat} (h : s.badClaim req = some n) :
    s.checkSteps req = s.denyTo req.key.owner req.key .badStep n none := by
  unfold State.checkSteps
  rw [h]

theorem checkSteps_finish {s : State} {req : ClaimReq} {cls : RouteClass} (hcls : req.cls = some cls) (h : s.badClaim req = none) :
    s.checkSteps req = s.finishClaim req cls := by
  unfold State.checkSteps
  rw [h, hcls]

theorem finishClaim_full {s : State} (free : s.ct.free = []) (req : ClaimReq) (cls : RouteClass) :
    s.finishClaim req cls = s.denyTo req.key.owner req.key .tableFull 0 none := by
  unfold State.finishClaim
  rw [free]

theorem finishClaim_denied {s : State} {req : ClaimReq} {id : Nat} {rest : List Nat} (free : s.ct.free = id :: rest) {n : Nat}
    {r : DenyReason} {d : Option Nat} (denied : s.firstDenial req req.steps = some (n, r, d)) (cls : RouteClass) :
    s.finishClaim req cls = s.denyTo req.key.owner req.key r n d := by
  unfold State.finishClaim
  rw [free]
  dsimp only
  rw [denied]

theorem finishClaim_granted {s : State} {req : ClaimReq} {id : Nat} {rest : List Nat} (free : s.ct.free = id :: rest)
    (passed : s.firstDenial req req.steps = none) (cls : RouteClass) : s.finishClaim req cls = s.grantClaim req cls id rest := by
  unfold State.finishClaim
  rw [free]
  dsimp only
  rw [passed]

/-- The locks with a section of each step locked by `id`. -/
def locksGranted (locks : List (Option Nat)) (id : Nat) (steps : List ReqStep) : List (Option Nat) :=
  steps.foldl (fun l (st : ReqStep) => l.set st.sect (some id)) locks

theorem locksGranted_length (id : Nat) (steps : List ReqStep) : ∀ locks, (locksGranted locks id steps).length = locks.length := by
  induction steps with
  | nil => exact fun _ => rfl
  | cons st steps ih => exact fun locks => (ih _).trans List.length_set

theorem locksGranted_ne {id k : Nat} {steps : List ReqStep} (h : ∀ st ∈ steps, st.sect ≠ k) :
    ∀ locks, (locksGranted locks id steps)[k]? = locks[k]? := by
  induction steps with
  | nil => exact fun _ => rfl
  | cons st steps ih =>
    exact fun locks => (ih (fun x hx => h x (List.mem_cons_of_mem st hx)) _).trans
      (List.getElem?_set_ne (h st List.mem_cons_self))

theorem locksGranted_mem {id k : Nat} {steps : List ReqStep} (h : ∃ st ∈ steps, st.sect = k) :
    ∀ locks : List (Option Nat), k < locks.length → (locksGranted locks id steps)[k]? = some (some id) := by
  induction steps with
  | nil => simp at h
  | cons x steps ih =>
    intro locks inside
    by_cases later : ∃ st ∈ steps, st.sect = k
    · exact ih later _ (by simpa using inside)
    · have own : x.sect = k := by simpa [later] using h
      refine (locksGranted_ne (fun y hy same => later ⟨y, hy, same⟩) _).trans ?_
      change (locks.set x.sect (some id))[k]? = some (some id)
      rw [own]
      exact List.getElem?_set_self inside

/-- The table of CT with the record granted. -/
def claimGranted (s : State) (req : ClaimReq) (cls : RouteClass) (id : Nat) (free : List Nat) : State :=
  { s with
    ct := { s.ct with
      records := s.ct.records.set id (some (s.grantedRecord req cls)), free := free, locks := locksGranted s.ct.locks id req.steps }
    cnt := { s.cnt with granted := bump s.cnt.granted } }

theorem grantClaim_eq (s : State) (req : ClaimReq) (cls : RouteClass) (id : Nat) (free : List Nat) : s.grantClaim req cls id free =
    match s.linkOf req with
    | some (r, call) => ((claimGranted s req cls id free).tellRe req.key.owner (.grant req.key id)).linkArrival r call req.key id
    | none => (claimGranted s req cls id free).tellRe req.key.owner (.grant req.key id) := by
  have same : (claimGranted s req cls id free).linkOf req = s.linkOf req := rfl
  have told : ∀ u : State, (u.tellRe req.key.owner (.grant req.key id)).linkOf req = u.linkOf req := by
    intro u
    simp only [State.linkOf, State.roadOfMouth, tellRe_keeps]
  change (match ((claimGranted s req cls id free).tellRe req.key.owner (.grant req.key id)).linkOf req with
    | some (r, call) => _
    | none => _) = _
  rw [told, same]
  rfl

/-- The link notice reaches YU alone. -/
theorem grantClaim_keeps_told (s : State) (req : ClaimReq) (cls : RouteClass) (id : Nat) (free : List Nat) :
    (s.grantClaim req cls id free).ct = (claimGranted s req cls id free).ct
    ∧ (s.grantClaim req cls id free).cnt = ((claimGranted s req cls id free).tellRe req.key.owner (.grant req.key id)).cnt
    ∧ (s.grantClaim req cls id free).re = ((claimGranted s req cls id free).tellRe req.key.owner (.grant req.key id)).re
    ∧ (s.grantClaim req cls id free).fs = ((claimGranted s req cls id free).tellRe req.key.owner (.grant req.key id)).fs := by
  rw [grantClaim_eq]
  split <;> simp

theorem linkOf_mouth {s : State} {req : ClaimReq} {st : ReqStep} {a : AwardRef} {r : Nat} (mouth : req.steps.find? (·.mouth) = some st)
    (award : req.award = some a) (road : s.roadOfMouth st.sect = some r) : s.linkOf req = some (r, a.call) := by
  unfold State.linkOf
  rw [mouth, award]
  dsimp only
  rw [road]
  rfl

theorem linkOf_none {s : State} {req : ClaimReq} (h : req.steps.find? (·.mouth) = none ∨ req.award = none) : s.linkOf req = none := by
  unfold State.linkOf
  rcases h with h | h
  · rw [h]
  · rw [h]
    cases req.steps.find? (·.mouth) <;> rfl

theorem isFor_iff (a : Arrival) (call : CallId) (key : RouteKey) :
    a.isFor call key = true ↔ a.call = call ∧ a.call.caller = key.owner ∧ a.epoch = key.epoch := by
  simp [Arrival.isFor, and_assoc]

/-- A CLAIM whose steps are well formed names configured sections. -/
theorem badClaim_configured {s : State} {req : ClaimReq} (h : s.badClaim req = none) {st : ReqStep} (hst : st ∈ req.steps) :
    st.sect < s.yard.sects.length := by
  obtain ⟨front, back, split⟩ := List.append_of_mem hst
  by_contra beyond
  refine badClaim_eq_none h front st back split ?_
  simp only [Offends, List.getElem?_eq_none_iff.mpr (Nat.le_of_not_lt beyond)]
  tauto

/-- A CLAIM whose steps are well formed names each section once. -/
theorem badClaim_sects_nodup {s : State} {req : ClaimReq} (h : s.badClaim req = none) : (req.steps.map (·.sect)).Nodup := by
  rw [List.nodup_iff_pairwise_ne, List.pairwise_map]
  suffices apart : ∀ front back, req.steps = front ++ back → front.Pairwise (fun a b => a.sect ≠ b.sect) from
    apart req.steps [] (by simp)
  intro front
  induction front using List.reverseRecOn with
  | nil => exact fun _ _ => List.Pairwise.nil
  | append_singleton front st ih =>
    intro back split
    refine List.pairwise_append.mpr ⟨ih (st :: back) (by simpa using split), List.pairwise_singleton _ _, fun a ha b hb same => ?_⟩
    rw [List.mem_singleton] at hb
    subst hb
    refine badClaim_eq_none h front b back (by simpa using split) ?_
    have taken : ∃ e ∈ front, e.sect = b.sect := ⟨a, ha, same⟩
    simp only [Offends, taken, true_or, or_true]

theorem grantLocks {s : State} {req : ClaimReq} {id : Nat} {cls : RouteClass} {rest : List Nat} (h : s.badClaim req = none)
    (locks : s.ct.locks.length = s.yard.sects.length) :
    (∀ st ∈ req.steps, (s.grantClaim req cls id rest).lock? st.sect = some id)
    ∧ (∀ k, (∀ st ∈ req.steps, st.sect ≠ k) → (s.grantClaim req cls id rest).lock? k = s.lock? k) := by
  obtain ⟨ct, -⟩ := grantClaim_keeps_told s req cls id rest
  refine ⟨fun st hst => ?_, fun k apart => ?_⟩
  · rw [lock?_eq_some, ct]
    exact locksGranted_mem ⟨st, hst, rfl⟩ _ (by rw [locks]; exact badClaim_configured h hst)
  · have same : (s.grantClaim req cls id rest).ct.locks[k]? = s.ct.locks[k]? := by
      rw [ct]
      exact locksGranted_ne apart _
    unfold State.lock?
    rw [same]

theorem grantedRecord_steps (s : State) (req : ClaimReq) (cls : RouteClass) :
    (s.grantedRecord req cls).steps = req.steps.map s.grantedStep := rfl

theorem grantClaim_claim? {s : State} {id : Nat} (inside : id < s.ct.records.length) (req : ClaimReq) (cls : RouteClass)
    (rest : List Nat) : (s.grantClaim req cls id rest).claim? id = some (s.grantedRecord req cls) := by
  rw [claim?_eq_some, (grantClaim_keeps_told s req cls id rest).1]
  exact List.getElem?_set_self inside

/-- The answer of the grant to the owner, and the link notice. -/
theorem grantClaim_answer (s : State) (req : ClaimReq) (cls : RouteClass) (id : Nat) (rest : List Nat) :
    (s.grantClaim req cls id rest).cnt.granted = bump s.cnt.granted
    ∧ (req.key.owner = s.pt.node → (s.grantClaim req cls id rest).re.fromCt = s.re.fromCt ++ [.grant req.key id]
        ∧ (s.grantClaim req cls id rest).fs = s.fs)
    ∧ (req.key.owner ≠ s.pt.node → req.key.owner < 63 →
        (s.grantClaim req cls id rest).fs = (s.send .grant req.key.owner (encKey req.key ++ [byte id])).fs
        ∧ (s.grantClaim req cls id rest).re = s.re) := by
  obtain ⟨-, cnt, re, fs⟩ := grantClaim_keeps_told s req cls id rest
  rw [cnt, re, fs]
  refine ⟨(tellRe_claimCounters _ _ _).1, fun own => ?_, fun other node => ?_⟩
  · rw [tellRe_own (s := claimGranted s req cls id rest) own]
    exact ⟨rfl, rfl⟩
  · rw [tellRe_other (s := claimGranted s req cls id rest) other node]
    exact ⟨send_fs_congr (s := claimGranted s req cls id rest) (t := s) rfl rfl _ _ _, by simp [claimGranted]⟩

theorem grantClaim_yu (s : State) (req : ClaimReq) (cls : RouteClass) (id : Nat) (rest : List Nat) :
    (∀ st a r, req.steps.find? (·.mouth) = some st → req.award = some a → s.roadOfMouth st.sect = some r →
      (s.grantClaim req cls id rest).yu = { s.yu with roads := s.yu.roads.modify r (fun x => { x with arrivals := x.arrivals.map (fun y =>
        if y.call = a.call ∧ y.call.caller = req.key.owner ∧ y.epoch = req.key.epoch then { y with link := some id } else y) }) })
    ∧ (req.steps.find? (·.mouth) = none ∨ req.award = none → (s.grantClaim req cls id rest).yu = s.yu) := by
  rw [grantClaim_eq]
  refine ⟨fun st a r mouth award road => ?_, fun none => ?_⟩
  · rw [linkOf_mouth mouth award road]
    simp only [linkArrival_yu, tellRe_keeps, isFor_iff]
    rfl
  · rw [linkOf_none none]
    simp only [tellRe_keeps]
    rfl

theorem denyTo_other {dest : Nat} (beyond : ¬ dest < 63) (s : State) (key : RouteKey) (r : DenyReason) (st : Nat) (d : Option Nat) :
    s.denyTo dest key r st d = s :=
  if_neg beyond

theorem denyTo_node {dest : Nat} (node : dest < 63) (s : State) (key : RouteKey) (r : DenyReason) (st : Nat) (d : Option Nat) :
    s.denyTo dest key r st d = (s.tellRe dest (.deny key r st d)).count (fun c => { c with denied := bump c.denied }) :=
  if_pos node

/-- A DENY changes no record and no lock. -/
theorem denyTo_answer (s : State) (dest : Nat) (key : RouteKey) (r : DenyReason) (st : Nat) (d : Option Nat) :
    (s.denyTo dest key r st d).ct = s.ct ∧ (s.denyTo dest key r st d).cnt.denied = (if dest < 63 then bump s.cnt.denied else s.cnt.denied)
    ∧ (dest < 63 → dest = s.pt.node → (s.denyTo dest key r st d).re = { s.re with fromCt := s.re.fromCt ++ [.deny key r st d] }
        ∧ (s.denyTo dest key r st d).fs = s.fs)
    ∧ (dest < 63 → dest ≠ s.pt.node → (s.denyTo dest key r st d).re = s.re
        ∧ (s.denyTo dest key r st d).fs = (s.send .deny dest (encReMsg (.deny key r st d))).fs) := by
  refine ⟨by simp, ?_, fun node own => ?_, fun node other => ?_⟩
  · by_cases node : dest < 63
    · rw [denyTo_node node, if_pos node]
      exact congrArg bump (tellRe_claimCounters _ _ _).2
    · rw [denyTo_other node, if_neg node]
  · rw [denyTo_node node, tellRe_own own]
    exact ⟨rfl, rfl⟩
  · rw [denyTo_node node, tellRe_other other node]
    exact ⟨by simp, rfl⟩

theorem grantLocksEveryStep : Clause.GrantLocksEveryStep := by
  refine ⟨fun s req cls id rest hcls formed free inside locks passed => ?_, fun s req n bad => checkSteps_bad bad,
    fun s req cls hcls formed full => ?_, fun s req cls id free front back st r d hcls formed some split fine denied => ?_,
    fun s req fine => firstDenial_none fine, denyTo_answer⟩
  · rw [checkSteps_finish hcls formed, finishClaim_granted free passed]
    obtain ⟨own, others⟩ := grantLocks (cls := cls) (rest := rest) formed locks
    obtain ⟨counted, handed, framed⟩ := grantClaim_answer s req cls id rest
    obtain ⟨linked, unlinked⟩ := grantClaim_yu s req cls id rest
    exact ⟨grantClaim_claim? inside req cls rest, by rw [(grantClaim_keeps_told s req cls id rest).1]; rfl, own, others, counted, handed,
      framed, linked, unlinked, rfl, rfl, List.length_map _⟩
  · rw [checkSteps_finish hcls formed, finishClaim_full full]
  · have first : s.firstDenial req req.steps = Option.some (st.number, r, d) := by
      rw [split, firstDenial_append fine, State.firstDenial, denied]
    exact ⟨first, by rw [checkSteps_finish hcls formed, finishClaim_denied some first]⟩

/-! ### The record of a granted CLAIM (R92, R99, R102) -/

theorem grantedRecordHoldsTheClaim : Clause.GrantedRecordHoldsTheClaim := by
  intro s req cls
  have kept (st : ReqStep) : (fun p : Nat => !st.demands.any (fun d => d.point == p)) =
      fun p => decide (∀ d ∈ st.demands, d.point ≠ p) := by
    funext p
    rw [Bool.eq_iff_iff]
    simp
  have awarded : req.steps.any (·.mouth) = true ↔ ∃ st ∈ req.steps, st.mouth = true := List.any_eq_true
  have steps : s.grantedStep = fun st =>
      { number := st.number, sect := st.sect, demands := st.demands, nextLocal := st.nextLocal, mouth := st.mouth
        locked := true, seen := false, orphan := none
        kept := (s.containedPoints st.sect).filter (fun p => decide (∀ d ∈ st.demands, d.point ≠ p)) } := by
    funext st
    rw [State.grantedStep, kept]
  unfold State.grantedRecord
  rw [steps]
  simp only [awarded]
  rfl

/-- Settles O38. -/
theorem claimsAreGrantedOrDenied : Obligations.ClaimsAreGrantedOrDenied :=
  ⟨badStepConditions, stepDenialsInOrder, grantLocksEveryStep, grantedRecordHoldsTheClaim⟩

end Sys2Proof.Proofs
end

