-- ==== Sys2Proof/Proofs/ClaimLaw.lean ====
section
/-! PROOF. Every step keeps the claim records, the locks and the free list in agreement (O8; R93 to R95): the law of the table, what each
update of the table makes of it, one lemma per operation that reaches the table, and the cases of a command. -/

namespace Sys2Proof.Proofs
open Sys2Proof.Machine Sys2Proof.Laws

/-! ### The law of the table (R93, R94) -/

/-- The sections of the locked steps of a record. -/
def lockedSects (c : Claim) : List Nat :=
  (c.steps.filter (·.locked)).map (·.sect)

/-- Records, locks and free list agree, for `n` sections; no record is in use before start-up has ended. -/
structure TableLaw (n : Nat) (mode : Mode) (startup : Startup) (records : List (Option Claim)) (locks : List (Option Nat)) (free : List Nat) :
    Prop where
  count : records.length = 32
  sections : locks.length = n
  nodup : free.Nodup
  mem_free : ∀ id : Nat, id ∈ free ↔ records[id]? = some none
  locked : ∀ k id : Nat, locks[k]? = some (some id) ↔ ∃ c, records[id]? = some (some c) ∧ k ∈ lockedSects c
  once : ∀ (id : Nat) (c : Claim), records[id]? = some (some c) → (lockedSects c).Nodup
  holds : ∀ (id : Nat) (c : Claim), records[id]? = some (some c) → startup = .ended
  idle : startup ≠ .ended → mode = .start

/-- The law of CT's table. -/
abbrev CtLaw (n : Nat) (mode : Mode) (startup : Startup) (ct : CT) : Prop :=
  TableLaw n mode startup ct.records ct.locks ct.free

@[simp] theorem ctLaw_iff (n : Nat) (mode : Mode) (startup : Startup) (ct : CT) :
    CtLaw n mode startup ct ↔ TableLaw n mode startup ct.records ct.locks ct.free := Iff.rfl

theorem mem_lockedSects {c : Claim} {k : Nat} : k ∈ lockedSects c ↔ ∃ st ∈ c.steps, st.sect = k ∧ st.locked = true := by
  unfold lockedSects
  simp only [List.mem_map, List.mem_filter]
  exact exists_congr fun st => by tauto

/-- The invariant of a state is the law of its table. -/
theorem claimInv_iff (s : State) : ClaimInv s ↔ CtLaw s.yard.sects.length s.pt.mode s.mi.startup s.ct := by
  have locked : (∀ k id, s.lock? k = some id ↔ ∃ c, s.claim? id = some c ∧ ∃ st ∈ c.steps, st.sect = k ∧ st.locked = true)
      ↔ ∀ k id, s.ct.locks[k]? = some (some id) ↔ ∃ c, s.ct.records[id]? = some (some c) ∧ k ∈ lockedSects c := by
    simp only [lock?_eq_some, claim?_eq_some, mem_lockedSects]
  unfold ClaimInv
  rw [locked]
  simp only [claim?_eq_some]
  constructor
  · rintro ⟨records, locks, nodup, free, locked, once, idle⟩
    refine ⟨records, locks, nodup, free, locked, once, fun id c used => ?_, fun going => (idle going).1⟩
    by_contra going
    exact claim?_eq_none.mp ((idle going).2 id) c used
  · rintro ⟨records, locks, nodup, free, locked, once, holds, idle⟩
    exact ⟨records, locks, nodup, free, locked, once, fun going =>
      ⟨idle going, fun id => claim?_eq_none.mpr fun c used => going (holds id c used)⟩⟩

/-! ### A change of one record -/

theorem getElem?_modify_none {l : List (Option Claim)} {f : Claim → Claim} {id j : Nat} :
    (l.modify id (Option.map f))[j]? = some none ↔ l[j]? = some none := by
  rw [List.getElem?_modify]
  by_cases own : id = j <;> rcases l[j]? with _ | _ | c <;> simp [own]

theorem getElem?_modify_some {l : List (Option Claim)} {f : Claim → Claim} {id j : Nat} {d : Claim} :
    (l.modify id (Option.map f))[j]? = some (some d) ↔ ∃ c, l[j]? = some (some c) ∧ d = if id = j then f c else c := by
  rw [List.getElem?_modify]
  by_cases own : id = j <;> rcases l[j]? with _ | _ | c <;> simp [own, eq_comm]

/-- Two places of a table with the same sections locked: free, or in use, alike. -/
theorem sameSects {x y : Option (Option Claim)} (h : x.map (Option.map lockedSects) = y.map (Option.map lockedSects)) :
    (x = some none ↔ y = some none)
    ∧ ∀ l, (∃ d, x = some (some d) ∧ lockedSects d = l) ↔ ∃ c, y = some (some c) ∧ lockedSects c = l := by
  rcases x with _ | _ | d <;> rcases y with _ | _ | c <;> simp_all

/-- Records in use at the same places, with the same sections locked: the law does not see the difference. -/
theorem TableLaw.of_lockedSects {n : Nat} {mode : Mode} {startup : Startup} {records records' : List (Option Claim)}
    {locks : List (Option Nat)} {free : List Nat} (h : TableLaw n mode startup records locks free)
    (same : records'.map (Option.map lockedSects) = records.map (Option.map lockedSects)) :
    TableLaw n mode startup records' locks free := by
  have at_ (j : Nat) : (records'[j]?).map (Option.map lockedSects) = (records[j]?).map (Option.map lockedSects) := by
    rw [← List.getElem?_map, ← List.getElem?_map, same]
  have empty (j : Nat) := (sameSects (at_ j)).1
  have used (j : Nat) := (sameSects (at_ j)).2
  have back (j : Nat) (d : Claim) (hd : records'[j]? = some (some d)) : ∃ c, records[j]? = some (some c) ∧ lockedSects c = lockedSects d :=
    (used j _).mp ⟨d, hd, rfl⟩
  refine ⟨?_, h.sections, h.nodup, fun j => (h.mem_free j).trans (empty j).symm, fun k j => (h.locked k j).trans ⟨?_, ?_⟩,
    fun j d hd => ?_, fun j d hd => ?_, h.idle⟩
  · have length := congrArg List.length same
    rw [List.length_map, List.length_map] at length
    rw [length, h.count]
  · rintro ⟨c, hc, hk⟩
    obtain ⟨d, hd, sects⟩ := (used j _).mpr ⟨c, hc, rfl⟩
    exact ⟨d, hd, sects ▸ hk⟩
  · rintro ⟨d, hd, hk⟩
    obtain ⟨c, hc, sects⟩ := back j d hd
    exact ⟨c, hc, sects ▸ hk⟩
  · obtain ⟨c, hc, sects⟩ := back j d hd
    exact sects ▸ h.once j c hc
  · obtain ⟨c, hc, -⟩ := back j d hd
    exact h.holds j c hc

/-- A change of a record that leaves the sections of its locked steps. -/
theorem TableLaw.modify_of {n : Nat} {mode : Mode} {startup : Startup} {records : List (Option Claim)} {locks : List (Option Nat)}
    {free : List Nat} {id : Nat} {f : Claim → Claim} (h : TableLaw n mode startup records locks free)
    (same : ∀ c, records[id]? = some (some c) → lockedSects (f c) = lockedSects c) :
    TableLaw n mode startup (records.modify id (Option.map f)) locks free := by
  refine h.of_lockedSects (List.ext_getElem? fun j => ?_)
  rw [List.getElem?_map, List.getElem?_map, List.getElem?_modify]
  by_cases own : id = j
  · subst own
    rcases hc : records[id]? with _ | _ | c
    · rfl
    · simp
    · simp [same c hc]
  · simp [own]

/-- A change of every record that leaves the sections of its locked steps. -/
theorem TableLaw.map {n : Nat} {mode : Mode} {startup : Startup} {records : List (Option Claim)} {locks : List (Option Nat)}
    {free : List Nat} {f : Claim → Claim} (h : TableLaw n mode startup records locks free)
    (same : ∀ c, lockedSects (f c) = lockedSects c) : TableLaw n mode startup (records.map (Option.map f)) locks free := by
  refine h.of_lockedSects ?_
  rw [List.map_map, Option.map_comp_map]
  exact congrArg (fun g => records.map (Option.map g)) (funext same)

@[simp] theorem TableLaw.modify {n : Nat} {mode : Mode} {startup : Startup} {records : List (Option Claim)} {locks : List (Option Nat)}
    {free : List Nat}
    {id : Nat} {f : Claim → Claim} (h : TableLaw n mode startup records locks free)
    (same : ∀ c, ((f c).steps.filter (·.locked)).map (·.sect) = (c.steps.filter (·.locked)).map (·.sect)) :
    TableLaw n mode startup (records.modify id (Option.map f)) locks free :=
  h.modify_of fun c _ => same c

/-! ### The release of a step -/

theorem modify_append_cons {α : Type} (a : List α) (x : α) (b : List α) (f : α → α) :
    (a ++ x :: b).modify a.length f = a ++ f x :: b := by
  induction a with
  | nil => rfl
  | cons y a ih => simp [ih]

theorem split_at {α : Type} {l : List α} {i : Nat} {x : α} (h : l[i]? = some x) : ∃ a b, l = a ++ x :: b ∧ a.length = i := by
  obtain ⟨hi, rfl⟩ := List.getElem?_eq_some_iff.mp h
  exact ⟨l.take i, l.drop (i + 1), by simp, by simp; omega⟩

/-- The released step's section leaves the list of the locked ones. -/
theorem lockedSects_stepLetGo {c : Claim} {i : Nat} {st : ClaimStep} (hi : c.steps[i]? = some st) (locked : st.locked = true)
    (once : (lockedSects c).Nodup) :
    (lockedSects (stepLetGo i c)).Nodup ∧ ∀ k, k ∈ lockedSects (stepLetGo i c) ↔ k ∈ lockedSects c ∧ k ≠ st.sect := by
  obtain ⟨a, b, split, rfl⟩ := split_at hi
  have before : lockedSects c = (a.filter (·.locked)).map (·.sect) ++ st.sect :: (b.filter (·.locked)).map (·.sect) := by
    simp [lockedSects, split, locked]
  have after : lockedSects (stepLetGo a.length c) = (a.filter (·.locked)).map (·.sect) ++ (b.filter (·.locked)).map (·.sect) := by
    unfold lockedSects stepLetGo
    dsimp only
    rw [split, modify_append_cons]
    simp
  rw [before] at once ⊢
  rw [after]
  generalize (a.filter (·.locked)).map (·.sect) = front at *
  generalize (b.filter (·.locked)).map (·.sect) = back at *
  rw [List.nodup_middle, List.nodup_cons] at once
  obtain ⟨apart, nodup⟩ := once
  refine ⟨nodup, fun k => ?_⟩
  simp only [List.mem_append, List.mem_cons] at apart ⊢
  constructor
  · intro hk
    exact ⟨by tauto, fun same => apart (same ▸ hk)⟩
  · tauto

theorem TableLaw.stepLetGo {n : Nat} {mode : Mode} {startup : Startup} {records : List (Option Claim)} {locks : List (Option Nat)}
    {free : List Nat}
    {id i : Nat} {c : Claim} {st : ClaimStep} (h : TableLaw n mode startup records locks free) (hc : records[id]? = some (some c))
    (hi : c.steps[i]? = some st) (locked : st.locked = true) :
    TableLaw n mode startup (records.modify id (Option.map (stepLetGo i))) (locks.set st.sect none) free := by
  obtain ⟨once, sects⟩ := lockedSects_stepLetGo hi locked (h.once id c hc)
  have own : locks[st.sect]? = some (some id) :=
    (h.locked _ _).mpr ⟨c, hc, mem_lockedSects.mpr ⟨st, List.mem_of_getElem? hi, rfl, locked⟩⟩
  have unlocked : ∀ k j, (locks.set st.sect none)[k]? = some (some j) ↔ locks[k]? = some (some j) ∧ k ≠ st.sect := by
    intro k j
    rw [List.getElem?_set]
    by_cases same : st.sect = k
    · simp only [same, if_true]
      split <;> simp
    · simp [same, Ne.symm same]
  refine ⟨by simpa using h.count, by simpa using h.sections, h.nodup, fun j => by rw [getElem?_modify_none, h.mem_free], fun k j => ?_,
    fun j d hd => ?_, fun j d hd => ?_, h.idle⟩
  · rw [unlocked, h.locked]
    constructor
    · rintro ⟨⟨d, hd, hk⟩, apart⟩
      refine ⟨_, getElem?_modify_some.mpr ⟨d, hd, rfl⟩, ?_⟩
      split
      · rename_i same
        subst same
        cases hc.symm.trans hd
        exact (sects k).mpr ⟨hk, apart⟩
      · exact hk
    · rintro ⟨d, hd, hk⟩
      obtain ⟨e, he, rfl⟩ := getElem?_modify_some.mp hd
      split at hk
      · rename_i same
        subst same
        cases hc.symm.trans he
        obtain ⟨hk, apart⟩ := (sects k).mp hk
        exact ⟨⟨c, he, hk⟩, apart⟩
      · rename_i other
        refine ⟨⟨e, he, hk⟩, fun same => other ?_⟩
        have lock := (h.locked k j).mpr ⟨e, he, hk⟩
        rw [same, own] at lock
        simpa using lock
  · obtain ⟨e, he, rfl⟩ := getElem?_modify_some.mp hd
    split
    · rename_i same
      subst same
      cases hc.symm.trans he
      exact once
    · exact h.once j e he
  · obtain ⟨e, he, -⟩ := getElem?_modify_some.mp hd
    exact h.holds j e he

/-! ### A record freed, and a record granted -/

theorem TableLaw.freed {n : Nat} {mode : Mode} {startup : Startup} {records : List (Option Claim)} {locks : List (Option Nat)}
    {free : List Nat}
    {id : Nat} {c : Claim} (h : TableLaw n mode startup records locks free) (hc : records[id]? = some (some c)) (empty : lockedSects c = []) :
    TableLaw n mode startup (records.set id none) locks (free ++ [id]) := by
  have inside : id < records.length := (List.getElem?_eq_some_iff.mp hc).1
  have used : id ∉ free := fun mem => by simpa [hc] using (h.mem_free id).mp mem
  have others : ∀ j d, (records.set id none)[j]? = some (some d) ↔ j ≠ id ∧ records[j]? = some (some d) := by
    intro j d
    rw [List.getElem?_set]
    by_cases same : id = j
    · simp [same]
    · simp [same, Ne.symm same, eq_comm]
  refine ⟨by simpa using h.count, h.sections, ?_, fun j => ?_, fun k j => ?_, fun j d hd => h.once j d ((others j d).mp hd).2,
    fun j d hd => h.holds j d ((others j d).mp hd).2, h.idle⟩
  · exact List.nodup_append.mpr ⟨h.nodup, List.nodup_singleton id, fun a ha b hb same => used (by simp_all)⟩
  · rw [List.mem_append, List.mem_singleton, h.mem_free, List.getElem?_set]
    by_cases same : id = j
    · subst same
      simp [inside]
    · simp [same, Ne.symm same]
  · rw [h.locked]
    refine exists_congr fun d => ?_
    rw [others]
    constructor
    · rintro ⟨hd, hk⟩
      refine ⟨⟨fun same => ?_, hd⟩, hk⟩
      subst same
      cases hc.symm.trans hd
      simp [empty] at hk
    · rintro ⟨⟨-, hd⟩, hk⟩
      exact ⟨hd, hk⟩

theorem TableLaw.granted {n : Nat} {mode : Mode} {startup : Startup} {records : List (Option Claim)} {locks : List (Option Nat)}
    {id : Nat} {rest : List Nat}
    {c : Claim} {steps : List ReqStep} (h : TableLaw n mode startup records locks (id :: rest)) (ended : startup = .ended)
    (own : lockedSects c = steps.map (·.sect)) (once : (steps.map (·.sect)).Nodup) (inside : ∀ st ∈ steps, st.sect < n)
    (unlocked : ∀ st ∈ steps, ∀ j, locks[st.sect]? ≠ some (some j)) :
    TableLaw n mode startup (records.set id (some c)) (locksGranted locks id steps) rest := by
  have new : records[id]? = some none := (h.mem_free id).mp List.mem_cons_self
  have index : id < records.length := (List.getElem?_eq_some_iff.mp new).1
  obtain ⟨fresh, nodup⟩ := List.nodup_cons.mp h.nodup
  have self : (records.set id (some c))[id]? = some (some c) := List.getElem?_set_self index
  have others : ∀ {j}, j ≠ id → (records.set id (some c))[j]? = records[j]? := fun apart => List.getElem?_set_ne apart.symm
  refine ⟨by simpa using h.count, (locksGranted_length _ _ _).trans h.sections, nodup, fun j => ?_, fun k j => ?_, fun j d hd => ?_,
    fun _ _ _ => ended, h.idle⟩
  · by_cases same : j = id
    · subst same
      simp [self, fresh]
    · rw [others same, ← h.mem_free, List.mem_cons]
      simp [same]
  · by_cases mine : ∃ st ∈ steps, st.sect = k
    · rw [locksGranted_mem mine _ (by obtain ⟨st, hst, rfl⟩ := mine; rw [h.sections]; exact inside st hst)]
      constructor
      · intro same
        cases same
        exact ⟨c, self, by rw [own, List.mem_map]; exact mine⟩
      · rintro ⟨d, hd, hk⟩
        by_cases same : j = id
        · rw [same]
        · rw [others same] at hd
          obtain ⟨st, hst, rfl⟩ := mine
          exact absurd ((h.locked _ j).mpr ⟨d, hd, hk⟩) (unlocked st hst j)
    · rw [locksGranted_ne (fun st hst same => mine ⟨st, hst, same⟩), h.locked]
      by_cases same : j = id
      · subst same
        simp [self, new, own]
        exact fun st hst hk => mine ⟨st, hst, hk⟩
      · rw [others same]
  · by_cases same : j = id
    · subst same
      cases self.symm.trans hd
      rwa [own]
    · rw [others same] at hd
      exact h.once j d hd

end Sys2Proof.Proofs
end

