-- ==== Sys2Proof/Proofs/ClaimKept.lean ====
section
/-! PROOF. Every operation that reaches the Claim Table keeps its law (R93 to R118): one lemma per operation, from the release of a step up
to the award of a road; and the operations of the other blocks that leave the table (O8). -/

namespace Sys2Proof.Proofs
open Sys2Proof.Machine Sys2Proof.Laws

/-- What the operation of every item keeps, `forEach` keeps. -/
theorem forEach_ctLaw {α : Type} {n : Nat} {mode : Mode} {startup : Startup} {l : List α} {f : α → State → State} {s : State}
    (hf : ∀ x s, CtLaw n mode startup s.ct → CtLaw n mode startup (f x s).ct) (h : CtLaw n mode startup s.ct) : CtLaw n mode startup (forEach l f s).ct :=
  forEach_preserves (P := fun s => CtLaw n mode startup s.ct) (fun x _ s => hf x s) h

section
variable {n : Nat} {mode : Mode} {startup : Startup} {s : State}

/-! ### Changes of a record that lock and unlock nothing -/

/-- Changes of steps that leave their sections and their locks. -/
@[simp] theorem lockedSects_modify {l : List ClaimStep} {i : Nat} {f : ClaimStep → ClaimStep} (sect : ∀ st, (f st).sect = st.sect)
    (locked : ∀ st, (f st).locked = st.locked) :
    ((l.modify i f).filter (·.locked)).map (·.sect) = (l.filter (·.locked)).map (·.sect) := by
  induction l generalizing i with
  | nil => simp
  | cons x l ih =>
    cases i with
    | zero => by_cases own : x.locked = true <;> simp [locked, own, sect]
    | succ i => by_cases own : x.locked = true <;> simp [own, ih]

theorem lockedSects_map {l : List ClaimStep} {f : ClaimStep → ClaimStep} (sect : ∀ st, (f st).sect = st.sect)
    (locked : ∀ st, (f st).locked = st.locked) : ((l.map f).filter (·.locked)).map (·.sect) = (l.filter (·.locked)).map (·.sect) := by
  simp [List.filter_map, Function.comp_def, sect, locked]

@[simp] theorem lockedSects_stopOrphanTimers (l : List ClaimStep) :
    ((stopOrphanTimers l).filter (·.locked)).map (·.sect) = (l.filter (·.locked)).map (·.sect) :=
  lockedSects_map (fun _ => rfl) (fun _ => rfl)

/-! ### Releases (R95, R110 to R113) -/

@[simp] theorem freeIfEmpty_ctLaw (id : Nat) (h : CtLaw n mode startup s.ct) : CtLaw n mode startup (s.freeIfEmpty id).ct := by
  rcases hc : s.claim? id with _ | c
  · have same : s.freeIfEmpty id = s := by
      unfold State.freeIfEmpty
      rw [hc]
    rwa [same]
  · by_cases held : c.holdsStep = true
    · rwa [freeIfEmpty_held hc held]
    · rw [freeIfEmpty_empty hc (by simpa using held)]
      refine h.freed (claim?_eq_some.mp hc) ?_
      simpa [lockedSects, Claim.holdsStep] using held

@[simp] theorem releaseStep_ctLaw (id i : Nat) (tell : Bool) (h : CtLaw n mode startup s.ct) :
    CtLaw n mode startup (s.releaseStep id i tell).ct := by
  rcases releaseStep_cases s id i tell with same | ⟨c, st, hc, hi, locked⟩
  · rwa [same]
  · rw [releaseStep_ct hc hi locked]
    exact freeIfEmpty_ctLaw id (h.stepLetGo (claim?_eq_some.mp hc) hi locked)

@[simp] theorem releaseClear_ctLaw (id : Nat) (h : CtLaw n mode startup s.ct) : CtLaw n mode startup (s.releaseClear id).ct := by
  refine forEach_ctLaw (fun i u hu => ?_) h
  split <;> simp [hu]

@[simp] theorem releaseAll_ctLaw (id : Nat) (h : CtLaw n mode startup s.ct) : CtLaw n mode startup (s.releaseAll id).ct :=
  forEach_ctLaw (fun i _ hu => releaseStep_ctLaw id i false hu) h

@[simp] theorem windDown_ctLaw (id : Nat) (h : CtLaw n mode startup s.ct) : CtLaw n mode startup (s.windDown id).ct := by
  unfold State.windDown
  (repeat' split) <;> simp (maxDischargeDepth := 5) [h]

@[simp] theorem examineStep_ctLaw (id i : Nat) (h : CtLaw n mode startup s.ct) : CtLaw n mode startup (s.examineStep id i).ct := by
  unfold State.examineStep
  (repeat' split) <;> simp (maxDischargeDepth := 5) [h]

@[simp] theorem examineAll_ctLaw (id : Nat) (h : CtLaw n mode startup s.ct) : CtLaw n mode startup (s.examineAll id).ct :=
  forEach_ctLaw (fun i _ hu => examineStep_ctLaw id i hu) h

@[simp] theorem seenOccupied_ctLaw (id i : Nat) (h : CtLaw n mode startup s.ct) : CtLaw n mode startup (s.seenOccupied id i).ct := by
  unfold State.seenOccupied
  dsimp only
  (repeat' split) <;> simp (maxDischargeDepth := 5) [h]

@[simp] theorem sectionCleared_ctLaw (id i : Nat) (h : CtLaw n mode startup s.ct) : CtLaw n mode startup (s.sectionCleared id i).ct := by
  unfold State.sectionCleared
  (repeat' split) <;> simp (maxDischargeDepth := 5) [h]

@[simp] theorem ctNotice_ctLaw (x : SectNotice) (h : CtLaw n mode startup s.ct) : CtLaw n mode startup (s.ctNotice x).ct := by
  unfold State.ctNotice
  (repeat' split) <;> simp (maxDischargeDepth := 5) [h]

@[simp] theorem tellLost_ctLaw (id : Nat) (c : Claim) (cause : LostCause) (point : Option Nat) (h : CtLaw n mode startup s.ct) :
    CtLaw n mode startup (s.tellLost id c cause point).ct := by
  unfold State.tellLost
  simp (maxDischargeDepth := 5) [h]

@[simp] theorem sendLost_ctLaw (id : Nat) (cause : LostCause) (point : Option Nat) (h : CtLaw n mode startup s.ct) :
    CtLaw n mode startup (s.sendLost id cause point).ct := by
  unfold State.sendLost
  (repeat' split) <;> simp (maxDischargeDepth := 5) [h]

@[simp] theorem takeRelease_ctLaw (key : RouteKey) (h : CtLaw n mode startup s.ct) : CtLaw n mode startup (s.takeRelease key).ct := by
  unfold State.takeRelease
  split <;> simp (maxDischargeDepth := 5) [h]

@[simp] theorem reservedExpiry_ctLaw (id : Nat) (h : CtLaw n mode startup s.ct) : CtLaw n mode startup (s.reservedExpiry id).ct := by
  unfold State.reservedExpiry
  (repeat' split) <;> simp (maxDischargeDepth := 5) [h]

@[simp] theorem setExpiry_ctLaw (id : Nat) (h : CtLaw n mode startup s.ct) : CtLaw n mode startup (s.setExpiry id).ct := by
  unfold State.setExpiry
  (repeat' split) <;> simp (maxDischargeDepth := 5) [h]

@[simp] theorem orphanExpiry_ctLaw (id i : Nat) (h : CtLaw n mode startup s.ct) : CtLaw n mode startup (s.orphanExpiry id i).ct := by
  unfold State.orphanExpiry
  (repeat' split) <;> simp (maxDischargeDepth := 5) [h]

/-! ### SETTING (R104, R105, R107) -/

@[simp] theorem sendSetFail_ct (key : RouteKey) (point : Option Nat) (cause : SetFailCause) :
    (s.sendSetFail key point cause).ct = s.ct := by
  unfold State.sendSetFail
  simp

@[simp] theorem endPermissions_ct (c : Claim) : (s.endPermissions c).ct = s.ct := by
  rw [endPermissions_eq]

@[simp] theorem enterOrphaned_ctLaw (id : Nat) (h : CtLaw n mode startup s.ct) : CtLaw n mode startup (s.enterOrphaned id).ct := by
  unfold State.enterOrphaned
  split
  · rename_i c hc
    refine h.modify_of fun d hd => ?_
    cases (claim?_eq_some.mp hc).symm.trans hd
    exact lockedSects_map (fun _ => rfl) (fun _ => rfl)
  · exact h

@[simp] theorem leaveSetting_ctLaw (id : Nat) (h : CtLaw n mode startup s.ct) : CtLaw n mode startup (s.leaveSetting id).ct := by
  unfold State.leaveSetting
  (repeat' split) <;> simp (maxDischargeDepth := 5) [h]

/-- A move order reaches CT's reports alone. -/
@[simp] theorem moveOrder_table (p : Nat) (t : Position) : (s.moveOrder p t).ct.records = s.ct.records
    ∧ (s.moveOrder p t).ct.locks = s.ct.locks ∧ (s.moveOrder p t).ct.free = s.ct.free := by
  unfold State.moveOrder State.settlePermission State.orderPermitted State.stopPoint
  dsimp only
  refine ⟨?_, ?_, ?_⟩ <;> ((repeat' split) <;> rfl)

@[simp] theorem enterSetting_ctLaw (id : Nat) (c : Claim) (h : CtLaw n mode startup s.ct) :
    CtLaw n mode startup (s.enterSetting id c).ct := by
  have ordered := fun u => forEach_ctLaw (n := n) (mode := mode) (startup := startup) (s := u) (l := c.demands) (f := fun d s => s.moveOrder d.point d.pos)
    (fun d v hv => by simpa using hv)
  unfold State.enterSetting
  dsimp only
  split <;> simp (maxDischargeDepth := 5) [ordered, h]

@[simp] theorem setReserved_ctLaw (id : Nat) (c : Claim) (h : CtLaw n mode startup s.ct) : CtLaw n mode startup (s.setReserved id c).ct := by
  unfold State.setReserved
  (repeat' split) <;> simp (maxDischargeDepth := 5) [h]

@[simp] theorem takeSet_ctLaw (key : RouteKey) (h : CtLaw n mode startup s.ct) : CtLaw n mode startup (s.takeSet key).ct := by
  unfold State.takeSet
  (repeat' split) <;> simp (maxDischargeDepth := 5) [h]

@[simp] theorem answerOrder_ctLaw (id p : Nat) (h : CtLaw n mode startup s.ct) : CtLaw n mode startup (s.answerOrder id p).ct := by
  unfold State.answerOrder
  dsimp only
  (repeat' split) <;> simp (maxDischargeDepth := 5) [h]

@[simp] theorem ctMoveDone_ctLaw (p : Nat) (h : CtLaw n mode startup s.ct) : CtLaw n mode startup (s.ctMoveDone p).ct := by
  unfold State.ctMoveDone
  split <;> simp (maxDischargeDepth := 5) [h]

@[simp] theorem ctMoveFail_ctLaw (p : Nat) (cause : MoveCause) (h : CtLaw n mode startup s.ct) :
    CtLaw n mode startup (s.ctMoveFail p cause).ct := by
  unfold State.ctMoveFail
  (repeat' split) <;> simp (maxDischargeDepth := 5) [h]

@[simp] theorem losePoint_ctLaw (id p : Nat) (c : Claim) (h : CtLaw n mode startup s.ct) : CtLaw n mode startup (s.losePoint id p c).ct := by
  unfold State.losePoint
  (repeat' split) <;> simp (maxDischargeDepth := 5) [h]

@[simp] theorem ctDetectionLost_ctLaw (p : Nat) (h : CtLaw n mode startup s.ct) : CtLaw n mode startup (s.ctDetectionLost p).ct := by
  unfold State.ctDetectionLost
  (repeat' split) <;> simp (maxDischargeDepth := 5) [h]

/-! ### Requesters and isolation (R114 to R118) -/

@[simp] theorem orphanRecord_ctLaw (id : Nat) (h : CtLaw n mode startup s.ct) : CtLaw n mode startup (s.orphanRecord id).ct := by
  unfold State.orphanRecord
  (repeat' split) <;> simp (maxDischargeDepth := 5) [h]

@[simp] theorem ctLost_ctLaw (peer : Nat) (epoch : Epoch) (h : CtLaw n mode startup s.ct) : CtLaw n mode startup (s.ctLost peer epoch).ct :=
  forEach_ctLaw (fun id _ hu => orphanRecord_ctLaw id hu) h

@[simp] theorem returnRecord_ctLaw (id : Nat) (c : Claim) (h : CtLaw n mode startup s.ct) :
    CtLaw n mode startup (s.returnRecord id c).ct := by
  unfold State.returnRecord
  dsimp only
  (repeat' split) <;> simp (maxDischargeDepth := 5) [h]

@[simp] theorem unorphanRecord_ctLaw (id : Nat) (h : CtLaw n mode startup s.ct) : CtLaw n mode startup (s.unorphanRecord id).ct := by
  unfold State.unorphanRecord
  (repeat' split) <;> simp (maxDischargeDepth := 5) [h]

@[simp] theorem ctReturned_ctLaw (peer : Nat) (epoch : Epoch) (h : CtLaw n mode startup s.ct) :
    CtLaw n mode startup (s.ctReturned peer epoch).ct :=
  forEach_ctLaw (fun id _ hu => unorphanRecord_ctLaw id hu) h

theorem dropMarks_ctLaw (id : Nat) (h : CtLaw n mode startup s.ct) : CtLaw n mode startup (s.dropMarks id).ct := by
  unfold State.dropMarks
  simp (maxDischargeDepth := 5) [h]

@[simp] theorem dropRecord_ctLaw (id : Nat) (h : CtLaw n mode startup s.ct) : CtLaw n mode startup (s.dropRecord id).ct := by
  exact windDown_ctLaw id (dropMarks_ctLaw id h)

@[simp] theorem ctRestarted_ctLaw (peer : Nat) (old : Epoch) (h : CtLaw n mode startup s.ct) :
    CtLaw n mode startup (s.ctRestarted peer old).ct :=
  forEach_ctLaw (fun id _ hu => dropRecord_ctLaw id hu) h

@[simp] theorem isolateRecord_ctLaw (id : Nat) (h : CtLaw n mode startup s.ct) : CtLaw n mode startup (s.isolateRecord id).ct := by
  unfold State.isolateRecord State.dropRecord State.dropMarks
  (repeat' split) <;> simp (maxDischargeDepth := 5) [h]

@[simp] theorem ctIsolate_ctLaw (h : CtLaw n mode startup s.ct) : CtLaw n mode startup s.ctIsolate.ct :=
  forEach_ctLaw (fun id _ hu => isolateRecord_ctLaw id hu) h

/-! ### The grant, and what reaches it (R96 to R103) -/

/-- A CLAIM that passes every check is granted to sections that are configured, unlocked, and each named once. -/
theorem grantClaim_ctLaw {req : ClaimReq} {id : Nat} {rest : List Nat} (sects : s.yard.sects.length = n) (ended : startup = .ended)
    (formed : s.badClaim req = none) (free : s.ct.free = id :: rest) (passed : s.firstDenial req req.steps = none) (cls : RouteClass)
    (h : CtLaw n mode startup s.ct) : CtLaw n mode startup (s.grantClaim req cls id rest).ct := by
  rw [(grantClaim_keeps_told s req cls id rest).1]
  have locked : lockedSects (s.grantedRecord req cls) = req.steps.map (·.sect) := by
    simp [lockedSects, grantedRecord_steps, List.filter_map, Function.comp_def, State.grantedStep]
  have table : TableLaw n mode startup s.ct.records s.ct.locks (id :: rest) := free ▸ h
  exact table.granted ended locked (badClaim_sects_nodup formed) (fun st hst => sects ▸ badClaim_configured formed hst)
    (fun st hst => lock?_eq_none.mp (firstDenial_unlocked passed st hst))

theorem checkSteps_ctLaw (req : ClaimReq) (sects : s.yard.sects.length = n) (ended : startup = .ended) (h : CtLaw n mode startup s.ct) :
    CtLaw n mode startup (s.checkSteps req).ct := by
  rcases formed : s.badClaim req with _ | k
  · rcases hcls : req.cls with _ | cls
    · unfold State.checkSteps
      rw [formed, hcls]
      simp (maxDischargeDepth := 5) [h]
    · rw [checkSteps_finish hcls formed]
      rcases free : s.ct.free with _ | ⟨id, rest⟩
      · rw [finishClaim_full free]
        simp (maxDischargeDepth := 5) [h]
      · rcases passed : s.firstDenial req req.steps with _ | ⟨k, r, d⟩
        · rw [finishClaim_granted free passed]
          exact grantClaim_ctLaw sects ended formed free passed cls h
        · rw [finishClaim_denied free passed]
          simp (maxDischargeDepth := 5) [h]
  · rw [checkSteps_bad formed]
    simp (maxDischargeDepth := 5) [h]

theorem checkEarlier_ctLaw (req : ClaimReq) (sects : s.yard.sects.length = n) (ended : startup = .ended) (h : CtLaw n mode startup s.ct) :
    CtLaw n mode startup (s.checkEarlier req).ct := by
  have wound := fun (l : List Nat) => forEach_ctLaw (n := n) (mode := mode) (startup := startup) (s := s) (l := l)
    (f := fun id s => s.windDown id) (fun id v hv => windDown_ctLaw id hv) h
  unfold State.checkEarlier
  dsimp only
  split
  · (repeat' split) <;> simp (maxDischargeDepth := 5) [h]
  · split
    · simp (maxDischargeDepth := 5) [h]
    · exact checkSteps_ctLaw req (by simp [sects]) ended (wound _)

@[simp] theorem evaluateClaim_ctLaw (req : ClaimReq) (rx : Option RxRec) (sects : s.yard.sects.length = n)
    (hmode : s.pt.mode = mode) (h : CtLaw n mode startup s.ct) : CtLaw n mode startup (s.evaluateClaim req rx).ct := by
  unfold State.evaluateClaim
  split
  · exact h
  · split
    · simp (maxDischargeDepth := 5) [h]
    · simp (maxDischargeDepth := 5) [h]
    · exact h
    · exact h
    · rename_i running
      have ended : startup = .ended := by
        by_contra going
        exact absurd (running.symm.trans (hmode.trans (h.idle going))) (by decide)
      split
      · exact checkEarlier_ctLaw req sects ended h
      · simp (maxDischargeDepth := 5) [h]

@[simp] theorem ctTakes_ctLaw (m : CtMsg) (sects : s.yard.sects.length = n) (hmode : s.pt.mode = mode)
    (h : CtLaw n mode startup s.ct) : CtLaw n mode startup (s.ctTakes m).ct := by
  unfold State.ctTakes
  split <;> simp [sects, hmode, h]

/-- So does a run of operations that may grant a CLAIM each: the sections and the mode stand. -/
theorem forEach_granting {α : Type} {l : List α} {f : α → State → State}
    (kept : ∀ x u, (f x u).yard = u.yard ∧ (f x u).pt = u.pt)
    (hf : ∀ x (u : State), u.yard.sects.length = n → u.pt.mode = mode → CtLaw n mode startup u.ct → CtLaw n mode startup (f x u).ct)
    (sects : s.yard.sects.length = n) (hmode : s.pt.mode = mode) (h : CtLaw n mode startup s.ct) :
    CtLaw n mode startup (forEach l f s).ct := by
  obtain ⟨-, -, law⟩ := forEach_preserves (l := l) (f := f) (s := s)
    (P := fun u => u.yard.sects.length = n ∧ u.pt.mode = mode ∧ CtLaw n mode startup u.ct) (fun x _ u hu => by
      obtain ⟨sects, hmode, h⟩ := hu
      obtain ⟨yard, pt⟩ := kept x u
      exact ⟨by rw [yard, sects], by rw [pt, hmode], hf x u sects hmode h⟩) ⟨sects, hmode, h⟩
  exact law

@[simp] theorem ctTakesAll_ctLaw (sects : s.yard.sects.length = n) (hmode : s.pt.mode = mode)
    (h : CtLaw n mode startup s.ct) : CtLaw n mode startup s.ctTakesAll.ct :=
  forEach_granting (s := { s with ct := { s.ct with fromRe := [] } }) (fun m u => by simp) (fun m u => ctTakes_ctLaw m) sects hmode h

end

/-! ### Operations that leave the table: PU, RE, PT, DU and the line -/

/-- What every item's operation leaves of the table, `forEach` leaves. -/
theorem forEach_table {α : Type} {f : α → State → State} (hf : ∀ x u, (f x u).ct.records = u.ct.records
      ∧ (f x u).ct.locks = u.ct.locks ∧ (f x u).ct.free = u.ct.free) (l : List α) (s : State) :
    (forEach l f s).ct.records = s.ct.records ∧ (forEach l f s).ct.locks = s.ct.locks ∧ (forEach l f s).ct.free = s.ct.free :=
  ⟨forEach_keeps (·.ct.records) l f (fun x u => (hf x u).1) s, forEach_keeps (·.ct.locks) l f (fun x u => (hf x u).2.1) s,
    forEach_keeps (·.ct.free) l f (fun x u => (hf x u).2.2) s⟩

@[simp] theorem forEach_records {α : Type} (l : List α) (f : α → State → State) (s : State)
    (h : ∀ x s, (f x s).ct.records = s.ct.records) : (forEach l f s).ct.records = s.ct.records := forEach_keeps (·.ct.records) l f h s

@[simp] theorem forEach_locks {α : Type} (l : List α) (f : α → State → State) (s : State)
    (h : ∀ x s, (f x s).ct.locks = s.ct.locks) : (forEach l f s).ct.locks = s.ct.locks := forEach_keeps (·.ct.locks) l f h s

@[simp] theorem forEach_free {α : Type} (l : List α) (f : α → State → State) (s : State)
    (h : ∀ x s, (f x s).ct.free = s.ct.free) : (forEach l f s).ct.free = s.ct.free := forEach_keeps (·.ct.free) l f h s

/-! ### PU (R19 to R30) -/

@[simp] theorem stopPoint_table (s : State) (p : Nat) (cause : MoveCause) : (s.stopPoint p cause).ct.records = s.ct.records
    ∧ (s.stopPoint p cause).ct.locks = s.ct.locks ∧ (s.stopPoint p cause).ct.free = s.ct.free := by
  unfold State.stopPoint
  (repeat' split) <;> simp

@[simp] theorem turnDrive_table (s : State) (p k : Nat) (r : PointRec) : (s.turnDrive p k r).ct.records = s.ct.records
    ∧ (s.turnDrive p k r).ct.locks = s.ct.locks ∧ (s.turnDrive p k r).ct.free = s.ct.free := by
  unfold State.turnDrive
  (repeat' split) <;> simp

@[simp] theorem takePermissionEnd_table (s : State) (p : Nat) : (s.takePermissionEnd p).ct.records = s.ct.records
    ∧ (s.takePermissionEnd p).ct.locks = s.ct.locks ∧ (s.takePermissionEnd p).ct.free = s.ct.free := by
  unfold State.takePermissionEnd
  (repeat' split) <;> simp

@[simp] theorem settlePermission_table (s : State) (p : Nat) : (s.settlePermission p).ct.records = s.ct.records
    ∧ (s.settlePermission p).ct.locks = s.ct.locks ∧ (s.settlePermission p).ct.free = s.ct.free := by
  unfold State.settlePermission
  (repeat' split) <;> simp

@[simp] theorem orderPermitted_table (s : State) (p : Nat) (t : Position) (c : PointCfg) (r : PointRec) :
    (s.orderPermitted p t c r).ct.records = s.ct.records
    ∧ (s.orderPermitted p t c r).ct.locks = s.ct.locks ∧ (s.orderPermitted p t c r).ct.free = s.ct.free := by
  unfold State.orderPermitted
  (repeat' split) <;> simp

@[simp] theorem evaluatePoint_table (n r : BitVec 8) (p : Nat) (s : State) : (State.evaluatePoint n r p s).ct.records = s.ct.records
    ∧ (State.evaluatePoint n r p s).ct.locks = s.ct.locks ∧ (State.evaluatePoint n r p s).ct.free = s.ct.free := by
  unfold State.evaluatePoint
  (repeat' split) <;> simp

@[simp] theorem evaluatePoints_table (s : State) : (evaluatePoints s).ct.records = s.ct.records
    ∧ (evaluatePoints s).ct.locks = s.ct.locks ∧ (evaluatePoints s).ct.free = s.ct.free := by
  unfold evaluatePoints
  (repeat' split) <;> simp

@[simp] theorem failPoint_table (s : State) (p : Nat) (target : Position) (phase : Nat) :
    (s.failPoint p target phase).ct.records = s.ct.records
    ∧ (s.failPoint p target phase).ct.locks = s.ct.locks ∧ (s.failPoint p target phase).ct.free = s.ct.free := by
  unfold State.failPoint
  simp

@[simp] theorem travelExpiry_table (s : State) (p : Nat) : (s.travelExpiry p).ct.records = s.ct.records
    ∧ (s.travelExpiry p).ct.locks = s.ct.locks ∧ (s.travelExpiry p).ct.free = s.ct.free := by
  unfold State.travelExpiry
  (repeat' split) <;> simp

@[simp] theorem puNotice_table (s : State) (n : SectNotice) : (s.puNotice n).ct.records = s.ct.records
    ∧ (s.puNotice n).ct.locks = s.ct.locks ∧ (s.puNotice n).ct.free = s.ct.free := by
  unfold State.puNotice
  split
  · refine forEach_table (fun p u => ?_) _ _
    (repeat' split) <;> simp
  · simp

/-! ### RE (R122 to R141) -/

@[simp] theorem releaseTo_table (s : State) (key : RouteKey) (node : Nat) : (s.releaseTo key node).ct.records = s.ct.records
    ∧ (s.releaseTo key node).ct.locks = s.ct.locks ∧ (s.releaseTo key node).ct.free = s.ct.free := by
  unfold State.releaseTo
  (repeat' split) <;> simp

@[simp] theorem setTo_table (s : State) (key : RouteKey) (node : Nat) : (s.setTo key node).ct.records = s.ct.records
    ∧ (s.setTo key node).ct.locks = s.ct.locks ∧ (s.setTo key node).ct.free = s.ct.free := by
  unfold State.setTo
  (repeat' split) <;> simp

@[simp] theorem releaseAsked_table (s : State) (x : Inst) : (s.releaseAsked x).ct.records = s.ct.records
    ∧ (s.releaseAsked x).ct.locks = s.ct.locks ∧ (s.releaseAsked x).ct.free = s.ct.free := by
  unfold State.releaseAsked
  simp

@[simp] theorem sendClaim_table (s : State) (x : Inst) (rc : RouteCfg) (node : Nat) : (s.sendClaim x rc node).ct.records = s.ct.records
    ∧ (s.sendClaim x rc node).ct.locks = s.ct.locks ∧ (s.sendClaim x rc node).ct.free = s.ct.free := by
  unfold State.sendClaim
  (repeat' split) <;> simp

@[simp] theorem failAttempt_table (s : State) (i : Nat) (cause : AttemptCause) : (s.failAttempt i cause).ct.records = s.ct.records
    ∧ (s.failAttempt i cause).ct.locks = s.ct.locks ∧ (s.failAttempt i cause).ct.free = s.ct.free := by
  unfold State.failAttempt
  (repeat' split) <;> simp

@[simp] theorem enterSettingRoute_table (s : State) (i : Nat) : (s.enterSettingRoute i).ct.records = s.ct.records
    ∧ (s.enterSettingRoute i).ct.locks = s.ct.locks ∧ (s.enterSettingRoute i).ct.free = s.ct.free := by
  unfold State.enterSettingRoute
  (repeat' split) <;> simp

@[simp] theorem allSet_table (s : State) (i : Nat) (x : Inst) : (s.allSet i x).ct.records = s.ct.records
    ∧ (s.allSet i x).ct.locks = s.ct.locks ∧ (s.allSet i x).ct.free = s.ct.free := by
  unfold State.allSet
  (repeat' split) <;> simp

@[simp] theorem endDegraded_table (s : State) (i : Nat) (x : Inst) (spareChanged : Bool) :
    (s.endDegraded i x spareChanged).ct.records = s.ct.records
    ∧ (s.endDegraded i x spareChanged).ct.locks = s.ct.locks ∧ (s.endDegraded i x spareChanged).ct.free = s.ct.free := by
  unfold State.endDegraded
  simp

@[simp] theorem checkEnd_table (s : State) (i : Nat) : (s.checkEnd i).ct.records = s.ct.records
    ∧ (s.checkEnd i).ct.locks = s.ct.locks ∧ (s.checkEnd i).ct.free = s.ct.free := by
  unfold State.checkEnd
  (repeat' split) <;> simp

@[simp] theorem enterEntered_table (s : State) (i : Nat) : (s.enterEntered i).ct.records = s.ct.records
    ∧ (s.enterEntered i).ct.locks = s.ct.locks ∧ (s.enterEntered i).ct.free = s.ct.free := by
  unfold State.enterEntered
  simp

@[simp] theorem countPassed_table (s : State) (i : Nat) (x : Inst) (p : Nat → RouteStep → Bool) :
    (s.countPassed i x p).ct.records = s.ct.records
    ∧ (s.countPassed i x p).ct.locks = s.ct.locks ∧ (s.countPassed i x p).ct.free = s.ct.free := by
  unfold State.countPassed
  dsimp only
  (repeat' split) <;> simp

@[simp] theorem letGo_table (s : State) (i : Nat) (x : Inst) (code : OutcomeCode) : (s.letGo i x code).ct.records = s.ct.records
    ∧ (s.letGo i x code).ct.locks = s.ct.locks ∧ (s.letGo i x code).ct.free = s.ct.free := by
  unfold State.letGo
  simp

@[simp] theorem enterCancelling_table (s : State) (i : Nat) (cause : CancelCause) : (s.enterCancelling i cause).ct.records = s.ct.records
    ∧ (s.enterCancelling i cause).ct.locks = s.ct.locks ∧ (s.enterCancelling i cause).ct.free = s.ct.free := by
  unfold State.enterCancelling
  dsimp only
  (repeat' split) <;> simp

@[simp] theorem takeCancel_table (s : State) (m : CancelMsg) : (s.takeCancel m).ct.records = s.ct.records
    ∧ (s.takeCancel m).ct.locks = s.ct.locks ∧ (s.takeCancel m).ct.free = s.ct.free := by
  unfold State.takeCancel
  (repeat' split) <;> simp

@[simp] theorem answerStaleGrant_table (s : State) (key : RouteKey) (rx : Option RxRec) :
    (s.answerStaleGrant key rx).ct.records = s.ct.records
    ∧ (s.answerStaleGrant key rx).ct.locks = s.ct.locks ∧ (s.answerStaleGrant key rx).ct.free = s.ct.free := by
  unfold State.answerStaleGrant
  simp

@[simp] theorem recordGrant_table (s : State) (i : Nat) (x : Inst) (claimId : Nat) (rx : Option RxRec) :
    (s.recordGrant i x claimId rx).ct.records = s.ct.records
    ∧ (s.recordGrant i x claimId rx).ct.locks = s.ct.locks ∧ (s.recordGrant i x claimId rx).ct.free = s.ct.free := by
  unfold State.recordGrant
  dsimp only
  (repeat' split) <;> simp

@[simp] theorem takeGrant_table (s : State) (key : RouteKey) (claimId : Nat) (rx : Option RxRec) :
    (s.takeGrant key claimId rx).ct.records = s.ct.records
    ∧ (s.takeGrant key claimId rx).ct.locks = s.ct.locks ∧ (s.takeGrant key claimId rx).ct.free = s.ct.free := by
  unfold State.takeGrant
  (repeat' split) <;> simp

@[simp] theorem takeDeny_table (s : State) (i : Nat) (x : Inst) (reason : DenyReason) (rx : Option RxRec) :
    (s.takeDeny i x reason rx).ct.records = s.ct.records
    ∧ (s.takeDeny i x reason rx).ct.locks = s.ct.locks ∧ (s.takeDeny i x reason rx).ct.free = s.ct.free := by
  unfold State.takeDeny
  (repeat' split) <;> simp

@[simp] theorem takeSetDone_table (s : State) (i : Nat) (x : Inst) (at_ : Time) (rx : Option RxRec) :
    (s.takeSetDone i x at_ rx).ct.records = s.ct.records
    ∧ (s.takeSetDone i x at_ rx).ct.locks = s.ct.locks ∧ (s.takeSetDone i x at_ rx).ct.free = s.ct.free := by
  unfold State.takeSetDone
  dsimp only
  (repeat' split) <;> simp

@[simp] theorem takeSetFail_table (s : State) (i : Nat) (x : Inst) (rx : Option RxRec) : (s.takeSetFail i x rx).ct.records = s.ct.records
    ∧ (s.takeSetFail i x rx).ct.locks = s.ct.locks ∧ (s.takeSetFail i x rx).ct.free = s.ct.free := by
  unfold State.takeSetFail
  (repeat' split) <;> simp

@[simp] theorem takeClaimLost_table (s : State) (i : Nat) (x : Inst) (rx : Option RxRec) : (s.takeClaimLost i x rx).ct.records = s.ct.records
    ∧ (s.takeClaimLost i x rx).ct.locks = s.ct.locks ∧ (s.takeClaimLost i x rx).ct.free = s.ct.free := by
  unfold State.takeClaimLost
  (repeat' split) <;> simp

@[simp] theorem takePassed_table (s : State) (i : Nat) (x : Inst) (number : Nat) (rx : Option RxRec) :
    (s.takePassed i x number rx).ct.records = s.ct.records
    ∧ (s.takePassed i x number rx).ct.locks = s.ct.locks ∧ (s.takePassed i x number rx).ct.free = s.ct.free := by
  unfold State.takePassed
  (repeat' split) <;> simp

@[simp] theorem takeReply_table (s : State) (m : ReMsg) (rx : Option RxRec) : (s.takeReply m rx).ct.records = s.ct.records
    ∧ (s.takeReply m rx).ct.locks = s.ct.locks ∧ (s.takeReply m rx).ct.free = s.ct.free := by
  unfold State.takeReply
  (repeat' split) <;> simp

@[simp] theorem takeClearFail_table (s : State) (g : Nat) : (s.takeClearFail g).ct.records = s.ct.records
    ∧ (s.takeClearFail g).ct.locks = s.ct.locks ∧ (s.takeClearFail g).ct.free = s.ct.free := by
  unfold State.takeClearFail
  (repeat' split) <;> simp

@[simp] theorem takeLampFault_table (s : State) (g : Nat) : (s.takeLampFault g).ct.records = s.ct.records
    ∧ (s.takeLampFault g).ct.locks = s.ct.locks ∧ (s.takeLampFault g).ct.free = s.ct.free := by
  unfold State.takeLampFault
  (repeat' split) <;> simp

@[simp] theorem trampedFirst_table (s : State) (i : Nat) (x : Inst) : (s.trampedFirst i x).ct.records = s.ct.records
    ∧ (s.trampedFirst i x).ct.locks = s.ct.locks ∧ (s.trampedFirst i x).ct.free = s.ct.free := by
  unfold State.trampedFirst
  (repeat' split) <;> simp

@[simp] theorem reNotice_table (s : State) (n : SectNotice) : (s.reNotice n).ct.records = s.ct.records
    ∧ (s.reNotice n).ct.locks = s.ct.locks ∧ (s.reNotice n).ct.free = s.ct.free := by
  unfold State.reNotice
  split
  · refine forEach_table (fun i u => ?_) _ _
    (repeat' split) <;> simp
  · simp

@[simp] theorem ownerGone_table (s : State) (peer : Nat) (epoch : Epoch) (changed : Bool) (i : Nat) (x : Inst) :
    (s.ownerGone peer epoch changed i x).ct.records = s.ct.records
    ∧ (s.ownerGone peer epoch changed i x).ct.locks = s.ct.locks ∧ (s.ownerGone peer epoch changed i x).ct.free = s.ct.free := by
  unfold State.ownerGone
  (repeat' split) <;> simp

@[simp] theorem reLost_table (s : State) (peer : Nat) (epoch : Epoch) (changed : Bool) :
    (s.reLost peer epoch changed).ct.records = s.ct.records
    ∧ (s.reLost peer epoch changed).ct.locks = s.ct.locks ∧ (s.reLost peer epoch changed).ct.free = s.ct.free := by
  unfold State.reLost
  refine forEach_table (fun i u => ?_) _ _
  (repeat' split) <;> simp

@[simp] theorem takeLockReport_table (s : State) (peer : Nat) (epoch : Epoch) (at_ : Time) (map : BitVec 16) :
    (s.takeLockReport peer epoch at_ map).ct.records = s.ct.records
    ∧ (s.takeLockReport peer epoch at_ map).ct.locks = s.ct.locks ∧ (s.takeLockReport peer epoch at_ map).ct.free = s.ct.free := by
  unfold State.takeLockReport
  refine forEach_table (fun i u => ?_) _ _
  (repeat' split) <;> simp

@[simp] theorem isolateInst_table (s : State) (i : Nat) (x : Inst) : (s.isolateInst i x).ct.records = s.ct.records
    ∧ (s.isolateInst i x).ct.locks = s.ct.locks ∧ (s.isolateInst i x).ct.free = s.ct.free := by
  unfold State.isolateInst
  (repeat' split) <;> simp

@[simp] theorem reIsolate_table (s : State) : s.reIsolate.ct.records = s.ct.records
    ∧ s.reIsolate.ct.locks = s.ct.locks ∧ s.reIsolate.ct.free = s.ct.free := by
  unfold State.reIsolate
  refine forEach_table (fun i u => ?_) _ _
  (repeat' split) <;> simp

@[simp] theorem withReHandover_table (s : State) (k : Kind) : (s.withReHandover k).ct.records = s.ct.records
    ∧ (s.withReHandover k).ct.locks = s.ct.locks ∧ (s.withReHandover k).ct.free = s.ct.free := by
  unfold State.withReHandover
  (repeat' split) <;> simp

@[simp] theorem replyFrame_table (f : RxFrame) (s : State) : (replyFrame f s).ct.records = s.ct.records
    ∧ (replyFrame f s).ct.locks = s.ct.locks ∧ (replyFrame f s).ct.free = s.ct.free := by
  unfold replyFrame
  (repeat' split) <;> simp

/-! ### PT, DU and the line (R14, R63 to R72) -/

@[simp] theorem changePeer_table (s : State) (k : Nat) (before new : PeerRec) : (s.changePeer k before new).ct.records = s.ct.records
    ∧ (s.changePeer k before new).ct.locks = s.ct.locks ∧ (s.changePeer k before new).ct.free = s.ct.free := by
  unfold State.changePeer
  (repeat' split) <;> simp

@[simp] theorem noteEpoch_table (s : State) (k : Nat) (epoch : Epoch) : (s.noteEpoch k epoch).ct.records = s.ct.records
    ∧ (s.noteEpoch k epoch).ct.locks = s.ct.locks ∧ (s.noteEpoch k epoch).ct.free = s.ct.free := by
  unfold State.noteEpoch
  (repeat' split) <;> simp

@[simp] theorem takeStateFrame_table (f : RxFrame) (s : State) : (takeStateFrame f s).ct.records = s.ct.records
    ∧ (takeStateFrame f s).ct.locks = s.ct.locks ∧ (takeStateFrame f s).ct.free = s.ct.free := by
  unfold takeStateFrame
  dsimp only
  (repeat' split) <;> simp

@[simp] theorem peerSilence_table (s : State) (k : Nat) : (s.peerSilence k).ct.records = s.ct.records
    ∧ (s.peerSilence k).ct.locks = s.ct.locks ∧ (s.peerSilence k).ct.free = s.ct.free := by
  unfold State.peerSilence
  (repeat' split) <;> simp

@[simp] theorem peerLoss_table (s : State) (k : Nat) : (s.peerLoss k).ct.records = s.ct.records
    ∧ (s.peerLoss k).ct.locks = s.ct.locks ∧ (s.peerLoss k).ct.free = s.ct.free := by
  unfold State.peerLoss
  (repeat' split) <;> simp

@[simp] theorem giveIsolation_table (s : State) : s.giveIsolation.ct.records = s.ct.records
    ∧ s.giveIsolation.ct.locks = s.ct.locks ∧ s.giveIsolation.ct.free = s.ct.free := by
  unfold State.giveIsolation
  simp

@[simp] theorem enterIsolated_table (s : State) (epoch : Epoch) : (s.enterIsolated epoch).ct.records = s.ct.records
    ∧ (s.enterIsolated epoch).ct.locks = s.ct.locks ∧ (s.enterIsolated epoch).ct.free = s.ct.free := by
  unfold State.enterIsolated
  simp

@[simp] theorem examineOwn_table (s : State) (r : RxRec) : (s.examineOwn r).ct.records = s.ct.records
    ∧ (s.examineOwn r).ct.locks = s.ct.locks ∧ (s.examineOwn r).ct.free = s.ct.free := by
  unfold State.examineOwn
  dsimp only
  (repeat' split) <;> simp

@[simp] theorem evaluateSect_table (l : Levels) (k : Nat) (s : State) : (State.evaluateSect l k s).ct.records = s.ct.records
    ∧ (State.evaluateSect l k s).ct.locks = s.ct.locks ∧ (State.evaluateSect l k s).ct.free = s.ct.free := by
  unfold State.evaluateSect
  dsimp only
  (repeat' split) <;> simp
@[simp] theorem accept_table (s : State) (l : List Byte) (k : Kind) : (s.accept l k).ct.records = s.ct.records
    ∧ (s.accept l k).ct.locks = s.ct.locks ∧ (s.accept l k).ct.free = s.ct.free := by
  unfold State.accept
  dsimp only
  (repeat' split) <;> simp

@[simp] theorem examine_table (s : State) (l : List Byte) : (s.examine l).ct.records = s.ct.records
    ∧ (s.examine l).ct.locks = s.ct.locks ∧ (s.examine l).ct.free = s.ct.free := by
  unfold State.examine
  dsimp only
  (repeat' split) <;> simp

@[simp] theorem endFrame_table (s : State) : s.endFrame.ct.records = s.ct.records
    ∧ s.endFrame.ct.locks = s.ct.locks ∧ s.endFrame.ct.free = s.ct.free := by
  unfold State.endFrame
  (repeat' split) <;> simp

@[simp] theorem useSymbol_table (s : State) (x : LineSymbol) : (s.useSymbol x).ct.records = s.ct.records
    ∧ (s.useSymbol x).ct.locks = s.ct.locks ∧ (s.useSymbol x).ct.free = s.ct.free := by
  unfold State.useSymbol
  (repeat' split) <;> simp

@[simp] theorem inCheck_table (s : State) (x : Option LineSymbol) : (s.inCheck x).ct.records = s.ct.records
    ∧ (s.inCheck x).ct.locks = s.ct.locks ∧ (s.inCheck x).ct.free = s.ct.free := by
  unfold State.inCheck
  dsimp only
  (repeat' split) <;> simp

@[simp] theorem inStep_table (s : State) (x : Option LineSymbol) : (s.inStep x).ct.records = s.ct.records
    ∧ (s.inStep x).ct.locks = s.ct.locks ∧ (s.inStep x).ct.free = s.ct.free := by
  unfold State.inStep
  dsimp only
  (repeat' split) <;> simp

@[simp] theorem decode_table (s : State) (g : LineGroup) : (s.decode g).ct.records = s.ct.records
    ∧ (s.decode g).ct.locks = s.ct.locks ∧ (s.decode g).ct.free = s.ct.free := by
  unfold State.decode
  (repeat' split) <;> simp

@[simp] theorem hearGroup_table (s : State) (g : LineGroup) : (s.hearGroup g).ct.records = s.ct.records
    ∧ (s.hearGroup g).ct.locks = s.ct.locks ∧ (s.hearGroup g).ct.free = s.ct.free := by
  unfold State.hearGroup
  dsimp only
  (repeat' split) <;> simp

@[simp] theorem hear_table (s : State) (l : List LineGroup) : (s.hear l).ct.records = s.ct.records
    ∧ (s.hear l).ct.locks = s.ct.locks ∧ (s.hear l).ct.free = s.ct.free := by
  unfold State.hear
  simp

section
variable {n : Nat} {mode : Mode} {startup : Startup} {s : State}

/-! ### What hands a CLAIM to the own CT and has it taken (R103, R122 to R128, R137) -/

@[simp] theorem makeAttempt_ctLaw (i : Nat) (x : Inst) (rc : RouteCfg) (sects : s.yard.sects.length = n) (hmode : s.pt.mode = mode)
    (h : CtLaw n mode startup s.ct) : CtLaw n mode startup (s.makeAttempt i x rc).ct := by
  unfold State.makeAttempt
  dsimp only
  simp (maxDischargeDepth := 5) [sects, hmode, h]

@[simp] theorem beginAttempt_ctLaw (i : Nat) (sects : s.yard.sects.length = n) (hmode : s.pt.mode = mode)
    (h : CtLaw n mode startup s.ct) : CtLaw n mode startup (s.beginAttempt i).ct := by
  unfold State.beginAttempt
  dsimp only
  (repeat' split) <;> simp (maxDischargeDepth := 5) [sects, hmode, h]

@[simp] theorem makeAward_ctLaw (i : Nat) (x : Inst) (a : AwardRec) (route : Option Nat) (sects : s.yard.sects.length = n)
    (hmode : s.pt.mode = mode)
    (h : CtLaw n mode startup s.ct) : CtLaw n mode startup (s.makeAward i x a route).ct := by
  unfold State.makeAward
  dsimp only
  (repeat' split) <;> simp (maxDischargeDepth := 5) [sects, hmode, h]

@[simp] theorem directAward_ctLaw (i : Nat) (sects : s.yard.sects.length = n) (hmode : s.pt.mode = mode)
    (h : CtLaw n mode startup s.ct) : CtLaw n mode startup (s.directAward i).ct := by
  unfold State.directAward
  dsimp only
  (repeat' split) <;> simp (maxDischargeDepth := 5) [sects, hmode, h]

@[simp] theorem bidExpiry_ctLaw (i : Nat) (sects : s.yard.sects.length = n) (hmode : s.pt.mode = mode)
    (h : CtLaw n mode startup s.ct) : CtLaw n mode startup (s.bidExpiry i).ct := by
  unfold State.bidExpiry
  dsimp only
  (repeat' split) <;> simp (maxDischargeDepth := 5) [sects, hmode, h]

@[simp] theorem retry_ctLaw (i : Nat) (x : Inst) (sects : s.yard.sects.length = n) (hmode : s.pt.mode = mode)
    (h : CtLaw n mode startup s.ct) : CtLaw n mode startup (s.retry i x).ct := by
  unfold State.retry
  (repeat' split) <;> simp (maxDischargeDepth := 5) [sects, hmode, h]

@[simp] theorem startInst_ctLaw (i : Nat) (code : ReqCode) (sects : s.yard.sects.length = n) (hmode : s.pt.mode = mode)
    (h : CtLaw n mode startup s.ct) : CtLaw n mode startup (s.startInst i code).ct := by
  unfold State.startInst
  (repeat' split) <;> simp (maxDischargeDepth := 5) [sects, hmode, h]

@[simp] theorem activate_ctLaw (g k : Nat) (d : SlotData) (i : Nat) (sects : s.yard.sects.length = n) (hmode : s.pt.mode = mode)
    (h : CtLaw n mode startup s.ct) : CtLaw n mode startup (s.activate g k d i).ct := by
  unfold State.activate
  dsimp only
  simp (maxDischargeDepth := 5) [sects, hmode, h]

@[simp] theorem visit_ctLaw (k left g : Nat) (sects : s.yard.sects.length = n) (hmode : s.pt.mode = mode)
    (h : CtLaw n mode startup s.ct) : CtLaw n mode startup (s.visit k left g).ct := by
  induction k generalizing s left g with
  | zero => simpa [State.visit] using h
  | succ k ih =>
    cases left with
    | zero => simpa [State.visit] using h
    | succ left =>
      rw [State.visit]
      split
      · exact ih _ _ (by simp [sects]) (by simp [hmode]) (activate_ctLaw _ _ _ _ sects hmode h)
      · exact ih _ _ sects hmode h

@[simp] theorem scan_ctLaw (sects : s.yard.sects.length = n) (hmode : s.pt.mode = mode) (h : CtLaw n mode startup s.ct) :
    CtLaw n mode startup s.scan.ct :=
  visit_ctLaw _ _ _ sects hmode h

@[simp] theorem takeSlot_ctLaw (t : Telegram) (c : ReqCode) (k : Nat) (sects : s.yard.sects.length = n) (hmode : s.pt.mode = mode)
    (h : CtLaw n mode startup s.ct) : CtLaw n mode startup (s.takeSlot t c k).ct := by
  unfold State.takeSlot
  dsimp only
  simp (maxDischargeDepth := 5) [sects, hmode, h]

@[simp] theorem fileRequest_ctLaw (t : Telegram) (c : ReqCode) (sects : s.yard.sects.length = n) (hmode : s.pt.mode = mode)
    (h : CtLaw n mode startup s.ct) : CtLaw n mode startup (s.fileRequest t c).ct := by
  unfold State.fileRequest
  dsimp only
  (repeat' split) <;> simp (maxDischargeDepth := 5) [sects, hmode, h]

@[simp] theorem newRequest_ctLaw (c : Option ReqCode) (t : Telegram) (sects : s.yard.sects.length = n) (hmode : s.pt.mode = mode)
    (h : CtLaw n mode startup s.ct) : CtLaw n mode startup (State.newRequest c t s).ct := by
  unfold State.newRequest
  (repeat' split) <;> simp (maxDischargeDepth := 5) [sects, hmode, h]

@[simp] theorem takeOutcome_ctLaw (m : OutcomeMsg) (sects : s.yard.sects.length = n) (hmode : s.pt.mode = mode)
    (h : CtLaw n mode startup s.ct) : CtLaw n mode startup (s.takeOutcome m).ct := by
  unfold State.takeOutcome
  dsimp only
  (repeat' split) <;> simp (maxDischargeDepth := 5) [sects, hmode, h]

@[simp] theorem lampRecoveredNotice_ctLaw (g : Nat) (sects : s.yard.sects.length = n) (hmode : s.pt.mode = mode)
    (h : CtLaw n mode startup s.ct) : CtLaw n mode startup (s.lampRecoveredNotice g).ct := by
  unfold State.lampRecoveredNotice
  dsimp only
  (repeat' split) <;> simp (maxDischargeDepth := 5) [sects, hmode, h]

@[simp] theorem evaluateSignal_ctLaw (r : LampReadings) (g : Nat) (sects : s.yard.sects.length = n) (hmode : s.pt.mode = mode)
    (h : CtLaw n mode startup s.ct) : CtLaw n mode startup (State.evaluateSignal r g s).ct := by
  unfold State.evaluateSignal
  dsimp only
  (repeat' split) <;> simp (maxDischargeDepth := 5) [sects, hmode, h]

@[simp] theorem evaluateSignals_ctLaw (sects : s.yard.sects.length = n) (hmode : s.pt.mode = mode)
    (h : CtLaw n mode startup s.ct) : CtLaw n mode startup s.evaluateSignals.ct := by
  unfold State.evaluateSignals
  split
  · exact forEach_granting (fun g u => by simp) (fun g u => evaluateSignal_ctLaw _ g) sects hmode h
  · exact h

end

end Sys2Proof.Proofs
end

