-- ==== Sys2Proof/Proofs/ClaimSteps.lean ====
section
/-! PROOF. Every step keeps the claim records, the locks and the free list in agreement (O8): the deliveries, start-up, and the cases of a
command. -/

namespace Sys2Proof.Proofs
open Sys2Proof.Machine Sys2Proof.Laws

/-! ### Deliveries (R50, R75, R103) -/

section
variable {n : Nat} {mode : Mode} {startup : Startup} {s : State}

@[simp] theorem withCtHandover_ctLaw (p : CtMsg → Bool) (sects : s.yard.sects.length = n) (hmode : s.pt.mode = mode)
    (h : CtLaw n mode startup s.ct) : CtLaw n mode startup (s.withCtHandover p).ct := by
  unfold State.withCtHandover
  (repeat' split) <;> simp [sects, hmode, h]

@[simp] theorem claimFrame_ctLaw (f : RxFrame) (sects : s.yard.sects.length = n) (hmode : s.pt.mode = mode)
    (h : CtLaw n mode startup s.ct) : CtLaw n mode startup (claimFrame f s).ct :=
  evaluateClaim_ctLaw _ _ sects hmode h

@[simp] theorem setFrame_ctLaw (f : RxFrame) (h : CtLaw n mode startup s.ct) : CtLaw n mode startup (setFrame f s).ct := by
  unfold setFrame
  dsimp only
  split <;> simp [h]

@[simp] theorem releaseFrame_ctLaw (f : RxFrame) (h : CtLaw n mode startup s.ct) : CtLaw n mode startup (releaseFrame f s).ct := by
  unfold releaseFrame
  dsimp only
  split <;> simp [h]

end

/-! ### One step -/

/-- `t` stands at the stage of start-up of `s`, with its sections, not in another mode before start-up has ended, and keeps the law of the
table. -/
structure ClaimsKept (s t : State) : Prop where
  yard : t.yard = s.yard
  startup : t.mi.startup = s.mi.startup
  mode : s.pt.mode = .start → t.pt.mode = .start
  law : CtLaw s.yard.sects.length s.pt.mode s.mi.startup s.ct → CtLaw s.yard.sects.length s.pt.mode s.mi.startup t.ct

theorem ClaimsKept.refl (s : State) : ClaimsKept s s := ⟨rfl, rfl, id, id⟩

theorem ClaimsKept.claimInv {s t : State} (h : ClaimsKept s t) (inv : ClaimInv s) : ClaimInv t := by
  rw [claimInv_iff] at inv ⊢
  rw [h.yard, h.startup]
  exact { h.law inv with idle := fun going => h.mode (inv.idle going) }

theorem ClaimsKept.withFrame {act : RxFrame → State → State} (kept : ∀ f u, ClaimsKept u (act f u)) (s : State) (k : Kind) :
    ClaimsKept s (s.withFrame k act) := by
  unfold State.withFrame
  split
  · rename_i f fs _
    obtain ⟨yard, startup, mode, law⟩ := kept f { s with fs := fs }
    exact ⟨by simpa using yard, by simpa using startup, by simpa using mode, by simpa using law⟩
  · exact .refl s

theorem ClaimsKept.withTelegram {act : Telegram → State → State} (kept : ∀ x u, ClaimsKept u (act x u)) (s : State) (p : Nat)
    (cls : TelClass) : ClaimsKept s (s.withTelegram p cls act) := by
  unfold State.withTelegram
  split
  · split
    · dsimp only
      split
      · constructor <;> simp
      · obtain ⟨yard, startup, mode, law⟩ := kept _ { s with rq := { s.rq with telegrams := _ } }
        exact ⟨yard, startup, mode, law⟩
    · exact .refl s
  · exact .refl s

/-- A start-up that has not ended goes on: start-up and mode may change, the table not. -/
theorem claimInv_startup {s t : State} (ct : t.ct = s.ct) (yard : t.yard = s.yard) (going : s.mi.startup ≠ .ended)
    (mode : t.mi.startup ≠ .ended → t.pt.mode = s.pt.mode) (inv : ClaimInv s) : ClaimInv t := by
  rw [claimInv_iff] at inv ⊢
  rw [ct, yard]
  exact { inv with holds := fun id c used => absurd (inv.holds id c used) going, idle := fun on => (mode on).trans (inv.idle going) }

/-- The entry into JOINING gives one unlocked lock to each section of the description; no record is in use (R94, R172). -/
theorem enterJoining_claimInv {s : State} (going : s.mi.startup ≠ .ended) (inv : ClaimInv s) (restored : List Restored) :
    ClaimInv (s.enterJoining restored) := by
  obtain ⟨yard, -, -, -, -, -, ct, -, ended, -⟩ := enterJoining_blocks s restored
  rw [claimInv_iff] at inv ⊢
  rw [ct, yard, ended]
  have unused : ∀ id c, s.ct.records[id]? ≠ some (some c) := fun id c used => going (inv.holds id c used)
  refine ⟨inv.count, by simp [joiningState], inv.nodup, inv.mem_free, fun k id => ?_, inv.once, fun _ _ _ => rfl, fun on => absurd rfl on⟩
  refine iff_of_false (fun locked => ?_) fun ⟨c, used, _⟩ => unused id c used
  obtain ⟨x, -, same⟩ := List.mem_map.mp (List.mem_of_getElem? locked)
  cases same

/-- A reset leaves the table at its reset values (R171). -/
theorem afterReset_claimInv (s : State) (cause : ResetCause) : ClaimInv (s.afterReset cause) :=
  (claimInv_iff _).mpr ((claimInv_iff _).mp claimInv_reset)

theorem keepGroup1_claimInv {s : State} (inv : ClaimInv s) (old : State) : ClaimInv (s.keepGroup1 old) :=
  (claimInv_iff _).mpr ((claimInv_iff _).mp inv)

theorem release_claimInv {s : State} (held : s.mi.startup = .held) (inv : ClaimInv s) (straps : Nat) : ClaimInv (s.release straps) := by
  refine claimInv_startup (by simp) (by simp) (by simp [held]) (fun on => ?_) inv
  unfold State.release at on ⊢
  dsimp only at on ⊢
  split
  · rw [if_pos ‹_›] at on
    exact absurd rfl on
  · rfl

theorem takeImage_claimInv {s : State} (image : s.mi.startup = .image) (inv : ClaimInv s) (acked : Bool) :
    ClaimInv (s.takeImage acked) := by
  refine claimInv_startup (by simp) (by simp) (by simp [image]) ?_ inv
  unfold State.takeImage
  split
  · split
    · exact fun _ => rfl
    · exact fun on => absurd rfl on
  · exact fun on => absurd rfl on

theorem takeEpoch_claimInv {s : State} (epoch : s.mi.startup = .epoch) (inv : ClaimInv s) (result : EpochWrite) :
    ClaimInv (s.takeEpoch result) := by
  refine claimInv_startup (by simp) (by simp) (by simp [epoch]) ?_ inv
  unfold State.takeEpoch
  split
  · exact fun on => absurd rfl on
  · dsimp only
    split
    · exact fun on => absurd rfl on
    · exact fun on => absurd rfl on
    · exact fun on => absurd rfl on
    · exact fun _ => rfl

/-- The listen timer runs in JOINING alone, which is after start-up (R59). -/
theorem listenMark_claimsKept (s : State) : ClaimsKept s s.listenMark := by
  refine ⟨by simp, by simp, fun start => ?_, fun h => by simpa using h⟩
  unfold State.listenMark
  simp only [start]

@[simp] theorem examineOwn_start {s : State} (h : s.pt.mode = .start) (r : RxRec) : (s.examineOwn r).pt.mode = .start := by
  unfold State.examineOwn
  split
  · exact h
  · dsimp only
    have counted : (s.count (fun c => { c with duplicateId := bump c.duplicateId })).pt.mode = .start := h
    rw [counted]
    exact h

theorem windowEnds_claimsKept (s : State) (l : Levels) : ClaimsKept s (s.windowEnds l) := by
  unfold State.windowEnds
  dsimp only
  split
  · split <;> constructor <;> simp +contextual [State.giveReadings]
  · constructor <;> simp +contextual

theorem exec_claimInv {c : Instr} {s t : State} (inv : ClaimInv s) (h : exec c s = .next t) : ClaimInv t := by
  cases c with
  | powerOnReset =>
    cases h
    exact afterReset_claimInv s _
  | pinReset =>
    cases h
    exact keepGroup1_claimInv (afterReset_claimInv s _) s
  | roadRestore acked =>
    simp only [exec, execRoadRestore] at h
    split at h <;> cases h
    · rename_i stage
      exact enterJoining_claimInv (by simp [stage]) inv _
    · exact inv
  | resetRelease straps =>
    simp only [exec, execResetRelease] at h
    split at h <;> cases h
    · exact release_claimInv ‹_› inv straps
    · exact inv
  | imageReadDone acked =>
    simp only [exec, execImageReadDone] at h
    split at h <;> cases h
    · exact takeImage_claimInv ‹_› inv acked
    · exact inv
  | epochWriteDone result =>
    simp only [exec, execEpochWriteDone] at h
    split at h <;> cases h
    · exact takeEpoch_claimInv ‹_› inv result
    · exact inv
  | listenTimer =>
    cases h
    exact (listenMark_claimsKept s).claimInv inv
  | windowEnd levels =>
    simp only [exec, execWindowEnd] at h
    split at h <;> cases h
    · exact (windowEnds_claimsKept s levels).claimInv inv
    · exact inv
  | startDelimiter align rd balance | commaReceived align rd balance =>
    cases h
    exact ClaimsKept.claimInv (by constructor <;> simp +contextual) inv
  | oversizeDiscard groups | lineQualityWindow groups | frameReceived groups =>
    cases h
    exact ClaimsKept.claimInv (by constructor <;> simp +contextual) inv
  | lossOfSync groups quiet =>
    cases quiet <;> cases h <;>
    exact ClaimsKept.claimInv (by constructor <;> simp +contextual) inv
  | holdOff | announce | state | inspect | inspectReply | event =>
    cases h
    exact (ClaimsKept.withFrame (fun f u => by constructor <;> simp +contextual) s _).claimInv inv
  | inRequest p | outRequest p | roadRequest p | destRequest p | unknownCodeTelegram p | cancel p =>
    cases h
    exact (ClaimsKept.withTelegram (fun x u => by constructor <;> simp +contextual) s p _).claimInv inv
  | grant v | deny v | setDone v | setFail v | claimLost v | passed v =>
    cases v <;> cases h
    · exact (ClaimsKept.withFrame (fun f u => by constructor <;> simp +contextual) s _).claimInv inv
    · exact ClaimsKept.claimInv (by constructor <;> simp +contextual [State.deliverReply]) inv
  | claim v | set v | release v | bidCall v | bid v | award v | awardWithdraw v =>
    cases v <;> cases h
    · exact (ClaimsKept.withFrame (fun f u => by constructor <;> simp +contextual) s _).claimInv inv
    · exact ClaimsKept.claimInv (by constructor <;> simp +contextual) inv
  | roadChange v =>
    cases v <;> cases h
    · exact (ClaimsKept.withFrame (fun f u => by constructor <;> simp +contextual [roadChangeFrame]) s _).claimInv inv
    · exact ClaimsKept.claimInv (by constructor <;> simp +contextual) inv
  | ownSourceFrame | lineAccess _ | transmissionEnd | accessRoundTimeout | firstIdlePoint |
    pointWindowEvaluation | signalWindowEvaluation | puSectionChange _
  | ctSectionChange _ | reSectionChange _ | yuSectionChange _ | travelTimerExpiry _ | permissionEnd _ | proceedCommand _ | stopCommand _
  | clearingTimerExpiry _ | trialTimerExpiry _ | proved _ | clearFail _ | lampFault _ | poolLowTimerExpiry | holdOffTimerExpiry _
  | stateTimer | peerSilent _ | peerLost _ | ctUnusable _ | ctUsable _ | ctEpochChange _ | reUnusable _ | reUsable _
  | reEpochChange _ | yuUnusable _ | yuUsable _ | yuEpochChange _ | ctIsolation | reIsolation | rqIsolation | yuIsolation
  | telegramGapTimeout _ | refusalHoldExpiry _ | slotLifetimeExpiry _ | outcome | cancelInstance _ | moveDone _ | moveFail _
  | detectionLost _ | reservedTimerExpiry _ | setTimerExpiry _ | orphanClearExpiry _ _ | offerExpiry _ | holdTimerExpiry _ _
  | roadWriteDone | roadWriteFail | bidTimerExpiry _ | roadWaitExpiry _ | awardWaitExpiry _ | claimWindowExpiry _ | setWindowExpiry _
  | approachTimerExpiry _ | releaseDelayExpiry _ | runThroughExpiry _ | retryTimerExpiry _ | readerInputByte _ _ _ =>
    refine ClaimsKept.claimInv ?_ inv
    simp only [exec, execOwnSourceFrame, execLineAccess, execTransmissionEnd, execAccessRoundTimeout, execFirstIdlePoint, execPointWindowEvaluation,
      execSignalWindowEvaluation, execPuSectionChange, execCtSectionChange, execReSectionChange, execYuSectionChange,
      execTravelTimerExpiry, execPermissionEnd, execProceedCommand, execStopCommand, execClearingTimerExpiry,
      execTrialTimerExpiry, execProved, execClearFail, execLampFault, execPoolLowTimerExpiry, execHoldOffTimerExpiry,
      execStateTimer, execPeerSilent, execPeerLost, execCtUnusable, execCtUsable, execCtEpochChange,
      execReUnusable, execReUsable, execReEpochChange, execYuUnusable, execYuUsable, execYuEpochChange, execCtIsolation,
      execReIsolation, execRqIsolation, execYuIsolation, execTelegramGapTimeout, execRefusalHoldExpiry,
      execSlotLifetimeExpiry, execOutcome, execCancelInstance, execMoveDone, execMoveFail, execDetectionLost,
      execReservedTimerExpiry, execSetTimerExpiry, execOrphanClearExpiry, execOfferExpiry, execHoldTimerExpiry,
      execRoadWriteDone, execRoadWriteFail, execBidTimerExpiry, execRoadWaitExpiry, execAwardWaitExpiry,
      execClaimWindowExpiry, execSetWindowExpiry, execApproachTimerExpiry, execReleaseDelayExpiry, execRunThroughExpiry,
      execRetryTimerExpiry, execReaderInputByte] at h
    (repeat' split at h) <;> (cases h; constructor <;> simp +contextual)

/-- A millisecond lets the timers of the records run, and locks and unlocks nothing. -/
theorem tick_claimsKept (s : State) : ClaimsKept s s.tick := by
  by_cases held : s.mi.startup = .held
  · rw [tick_held held]
    exact .refl s
  · rw [tick_running held]
    exact ⟨rfl, rfl, id, fun h => h.map fun c => lockedSects_map (fun _ => rfl) (fun _ => rfl)⟩

/-- Settles O8: by the cases of a command, of which each keeps the law of the table. -/
theorem stepKeepsClaimTable : Obligations.StepKeepsClaimTable := by
  intro s t inv h
  cases hp : s.pending with
  | nil =>
    rw [step_idle hp] at h
    cases h
    exact (tick_claimsKept s).claimInv inv
  | cons c rest =>
    simp only [step, hp] at h
    exact exec_claimInv (s := { s with pending := rest }) ((claimInv_iff _).mpr ((claimInv_iff _).mp inv)) h

end Sys2Proof.Proofs
end

