-- ==== Sys2Proof/Proofs/Releases.lean ====
section
/-! PROOF. The release of a step, its mouth release, and winding down (R95, R111, R113). -/

namespace Sys2Proof.Proofs
open Sys2Proof.Machine Sys2Proof.Laws

/-! ### YU leaves alone what CT has told RE (R95, R111) -/

@[simp] theorem sendRoadChange_fromCt (s : State) (r : Nat) : (s.sendRoadChange r).re.fromCt = s.re.fromCt := by
  unfold State.sendRoadChange
  (repeat' split) <;> simp

@[simp] theorem announceGains_fromCt (s : State) (old : List RoadRec) : (s.announceGains old).re.fromCt = s.re.fromCt := by
  refine forEach_keeps (·.re.fromCt) _ _ (fun r s => ?_) s
  (repeat' split) <;> simp

@[simp] theorem takePush_fromCt (s : State) (r : Nat) (call : CallId) (key : RouteKey) (tram : Nat) :
    (s.takePush r call key tram).re.fromCt = s.re.fromCt := by
  unfold State.takePush State.pushArrival
  dsimp only
  (repeat' split) <;> simp

@[simp] theorem takePop_fromCt (s : State) (r tram : Nat) : (s.takePop r tram).re.fromCt = s.re.fromCt := by
  unfold State.takePop
  dsimp only
  (repeat' split) <;> simp

@[simp] theorem unlinkArrival_fromCt (s : State) (id : Nat) : (s.unlinkArrival id).re.fromCt = s.re.fromCt := by
  unfold State.unlinkArrival
  simp

@[simp] theorem mouthRelease_fromCt (s : State) (id : Nat) (c : Claim) (st : ClaimStep) :
    (s.mouthRelease id c st).re.fromCt = s.re.fromCt := by
  unfold State.mouthRelease
  (repeat' split) <;> simp

/-- The release of a step tells RE nothing but its PASSED. -/
theorem releaseStep_fromCt {s : State} {id i : Nat} {c : Claim} {st : ClaimStep} (h : s.claim? id = some c) (hi : c.steps[i]? = some st)
    (locked : st.locked = true) (tell : Bool) : (s.releaseStep id i tell).re.fromCt = (stepTold s id i tell c st).re.fromCt := by
  rw [releaseStep_locked h hi locked]
  simp

theorem releaseStep_permEnds {s : State} {id i : Nat} {c : Claim} {st : ClaimStep} (h : s.claim? id = some c)
    (hi : c.steps[i]? = some st) (locked : st.locked = true) (tell : Bool) :
    (s.releaseStep id i tell).pu.permEnds = s.pu.permEnds ++ s.containedPoints st.sect := by
  rw [releaseStep_locked h hi locked, stepTold]
  split <;> simp [stepReleased]

theorem modify_of_getElem? {α : Type} {l : List α} {i : Nat} {x : α} (h : l[i]? = some x) (f : α → α) : l.modify i f = l.set i (f x) := by
  rw [List.modify_eq_set_getElem?, h]
  rfl

theorem stepLetGo_eq_set {c : Claim} {i : Nat} {st : ClaimStep} (hi : c.steps[i]? = some st) :
    stepLetGo i c = { c with steps := c.steps.set i { st with locked := false, orphan := none } } := by
  rw [stepLetGo, modify_of_getElem? hi]

theorem releaseStep_free {s : State} {id i : Nat} {c : Claim} {st : ClaimStep} (h : s.claim? id = some c) (hi : c.steps[i]? = some st)
    (locked : st.locked = true) (tell : Bool) :
    (s.releaseStep id i tell).ct.free = if (stepLetGo i c).holdsStep = true then s.ct.free else s.ct.free ++ [id] := by
  have own := stepReleased_claim? h i st
  rw [releaseStep_ct h hi locked]
  split
  next held =>
    rw [freeIfEmpty_held own held]
    rfl
  next empty =>
    rw [freeIfEmpty_empty own (by simpa using empty)]
    rfl

theorem releaseOfAStep : Clause.ReleaseOfAStep := by
  intro s id i tell c st h hi locked
  have record := releaseStep_claim? h hi locked tell
  have free := releaseStep_free h hi locked tell
  refine ⟨releaseStep_locks h hi locked tell, releaseStep_permEnds h hi locked tell, fun more => ?_, fun last => ?_, fun told own => ?_⟩
  · have held := (stepLetGo_holdsStep i c).mpr more
    rw [if_pos held] at record free
    exact ⟨stepLetGo_eq_set hi ▸ record, free⟩
  · have empty : ¬ (stepLetGo i c).holdsStep = true := by
      rw [stepLetGo_holdsStep]
      rintro ⟨j, x, apart, hj, own⟩
      simp [last j x apart hj] at own
    rw [if_neg empty] at record free
    exact ⟨record, free⟩
  · rw [releaseStep_fromCt h hi locked, stepTold, if_pos told, tellRe_own (s := stepReleased s id i st) own]
    simp

/-! ### The mouth release (R95, R111) -/

theorem leavesRoad_iff (s : State) (r i : Nat) :
    s.leavesRoad r i = true ↔ ∃ rc rt, s.yard.roads[r]? = some rc ∧ s.yard.routes[i]? = some rt ∧ rc.runOut = rt.signal := by
  unfold State.leavesRoad
  rcases s.yard.roads[r]? with _ | rc <;> rcases s.yard.routes[i]? with _ | rt <;> simp

theorem mouthRelease_elsewhere {s : State} {st : ClaimStep}
    (h : s.sectRole st.sect ≠ some .roadMouth ∨ s.roadOfMouth st.sect = none) (id : Nat) (c : Claim) : s.mouthRelease id c st = s := by
  unfold State.mouthRelease
  split
  next role =>
    rcases h with h | h
    · exact absurd role h
    · rw [h]
  · rfl

/-- What the release of a mouth step gives YU (R111). -/
def mouthReleased (s : State) (id r : Nat) (c : Claim) : Option MouthRelease → State
  | some (.push call) => s.takePush r call c.key c.tram
  | some .pop => s.takePop r c.tram
  | some .unlink => s.unlinkArrival id
  | none => s

theorem mouthRelease_mouth {s : State} {st : ClaimStep} {r : Nat} (role : s.sectRole st.sect = some .roadMouth)
    (road : s.roadOfMouth st.sect = some r) (id : Nat) (c : Claim) :
    s.mouthRelease id c st = mouthReleased s id r c (s.mouthKind c st r) := by
  unfold State.mouthRelease
  rw [if_pos role, road]
  dsimp only
  rcases s.mouthKind c st r with _ | _ | _ | _ <;> rfl

theorem mouthKind_push {st : ClaimStep} {c : Claim} {a : AwardRef} (seen : st.seen = true) (mouth : st.mouth = true)
    (award : c.award = some a) (s : State) (r : Nat) : s.mouthKind c st r = some (.push a.call) := by
  unfold State.mouthKind
  simp [seen, mouth, award]

theorem mouthKind_passed {st : ClaimStep} {c : Claim} (seen : st.seen = true) (other : st.mouth = false ∨ c.award = none) (s : State)
    (r : Nat) : s.mouthKind c st r
      = if c.cls = .runOut ∧ c.key.owner = s.pt.node ∧ s.leavesRoad r c.key.route = true then some .pop else none := by
  unfold State.mouthKind
  rw [if_pos seen]
  rcases other with other | other <;> simp [other]

theorem mouthKind_unseen {st : ClaimStep} {c : Claim} (unseen : st.seen = false) (s : State) (r : Nat) :
    s.mouthKind c st r = if c.award.isSome = true then some .unlink else none := by
  unfold State.mouthKind
  rw [if_neg (by simp [unseen])]

/-- The unlocking and the PASSED leave what the mouth release reads. -/
theorem stepTold_reads (s : State) (id i : Nat) (tell : Bool) (c : Claim) (st : ClaimStep) :
    (stepTold s id i tell c st).yard = s.yard ∧ (stepTold s id i tell c st).pt = s.pt := by
  unfold stepTold
  split <;> simp [stepReleased]

theorem sectRole_congr {s t : State} (h : t.yard = s.yard) (k : Nat) : t.sectRole k = s.sectRole k := by
  unfold State.sectRole
  rw [h]

theorem roadOfMouth_congr {s t : State} (h : t.yard = s.yard) (k : Nat) : t.roadOfMouth k = s.roadOfMouth k := by
  unfold State.roadOfMouth
  rw [h]

theorem leavesRoad_congr {s t : State} (h : t.yard = s.yard) (r i : Nat) : t.leavesRoad r i = s.leavesRoad r i := by
  unfold State.leavesRoad
  rw [h]

theorem releaseStep_mouth {s : State} {id i : Nat} {c : Claim} {st : ClaimStep} (h : s.claim? id = some c) (hi : c.steps[i]? = some st)
    (locked : st.locked = true) {r : Nat} (role : s.sectRole st.sect = some .roadMouth) (road : s.roadOfMouth st.sect = some r)
    (tell : Bool) {k : Option MouthRelease} (kind : ∀ t : State, t.yard = s.yard → t.pt = s.pt → t.mouthKind c st r = k) :
    s.releaseStep id i tell = (mouthReleased (stepTold s id i tell c st) id r c k).freeIfEmpty id := by
  obtain ⟨yard, pt⟩ := stepTold_reads s id i tell c st
  rw [releaseStep_locked h hi locked, mouthRelease_mouth (by rw [sectRole_congr yard, role]) (by rw [roadOfMouth_congr yard, road]),
    kind _ yard pt]

theorem mouthReleasesReachYu : Clause.MouthReleasesReachYu := by
  intro s id i tell c st h hi locked
  obtain ⟨yard, pt⟩ := stepTold_reads s id i tell c st
  refine ⟨fun elsewhere => ?_, fun r role road => ?_⟩
  · rw [releaseStep_locked h hi locked, mouthRelease_elsewhere]
    · rfl
    · rwa [sectRole_congr yard, roadOfMouth_congr yard]
  · have through := @releaseStep_mouth s id i c st h hi locked r role road tell
    refine ⟨fun a seen mouth award => ?_, fun seen other pops => ?_, fun seen other stays => ?_, fun unseen award => ?_,
      fun unseen award => ?_⟩
    · exact through fun t _ _ => mouthKind_push seen mouth award t r
    · exact through (k := some .pop) fun t hy hp => by
        rw [mouthKind_passed seen other, if_pos]
        rwa [hp, leavesRoad_iff, hy]
    · exact through (k := none) fun t hy hp => by
        rw [mouthKind_passed seen other, if_neg]
        rwa [hp, leavesRoad_iff, hy]
    · exact through (k := some .unlink) fun t _ _ => by
        rw [mouthKind_unseen unseen, if_pos (Option.isSome_iff_ne_none.mpr award)]
    · exact through (k := none) fun t _ _ => by
        rw [mouthKind_unseen unseen, if_neg (by simp [award])]

/-! ### Winding down (R95, R113) -/

/-- The record with the release mark: its timers stopped. -/
def releaseMarked (c : Claim) : Claim :=
  { c with releaseMark := true, reservedT := none, setT := none, steps := c.steps.map (fun st => { st with orphan := none }) }

theorem windDown_eq {s : State} {id : Nat} {c : Claim} (h : s.claim? id = some c) : s.windDown id =
    if c.releaseMark = true then s
    else if c.state = .setting ∧ c.orders ≠ [] then s.modClaim id releaseMarked
    else (s.modClaim id releaseMarked).releaseClear id := by
  unfold State.windDown
  rw [h]
  rfl

theorem windDown_unused {s : State} {id : Nat} (h : s.claim? id = none) : s.windDown id = s := by
  unfold State.windDown
  rw [h]

theorem releaseClear_none {s : State} {id : Nat} {c : Claim} (h : s.claim? id = some c)
    (held : ∀ st ∈ c.steps, s.sectClear st.sect = false) : s.releaseClear id = s := by
  have nothing : s.clearSteps c = [] := by
    rw [List.eq_nil_iff_forall_not_mem]
    intro i hi
    obtain ⟨st, hst, -, clear⟩ := mem_clearSteps.mp hi
    simp [held st (List.mem_of_getElem? hst)] at clear
  rw [releaseClear_eq h, nothing]
  rfl

theorem windingDown : Clause.WindingDown := by
  intro s key
  refine ⟨fun unknown => ?_, fun id c h => ?_, fun id c known h => ?_⟩
  · unfold State.takeRelease
    rw [unknown]
  · exact ⟨releaseClear_eq h, releaseClear_claim? h, fun st hst locked clear => releaseClear_lock? h hst locked clear⟩
  · have down : s.takeRelease key = s.windDown id := by
      unfold State.takeRelease
      rw [known]
    have marked : (s.modClaim id releaseMarked).claim? id = some (releaseMarked c) := claim?_modClaim h _
    rw [down, windDown_eq h]
    refine ⟨fun mark => if_pos mark, fun unmarked => ?_⟩
    rw [if_neg (by simp [unmarked])]
    refine ⟨fun setting orders => if_pos ⟨setting, orders⟩, fun free => ?_, fun other held => ?_⟩
    · refine if_neg fun ⟨setting, orders⟩ => ?_
      exact free.elim (· setting) (fun none => orders none)
    · rw [if_neg fun both => other both.1]
      refine releaseClear_none marked fun x hx => ?_
      obtain ⟨st, hst, rfl⟩ := List.mem_map.mp hx
      exact held st hst

/-- Settles O40. -/
theorem releasesAndWindingDown : Obligations.ReleasesAndWindingDown :=
  ⟨releaseOfAStep, mouthReleasesReachYu, windingDown⟩

end Sys2Proof.Proofs
end

