-- ==== Sys2Proof/Proofs/SectionNotices.lean ====
section
/-! PROOF. Section notices and sectional release, the timers of a claim record, and what an operation on one record leaves of the others
(R106, R108 to R112, R115). -/

namespace Sys2Proof.Proofs
open Sys2Proof.Machine Sys2Proof.Laws

/-! ### Sectional release (R108 to R110, R115) -/

/-- The condition of sectional release for step `i` of a record (R109). -/
def ReadyToPass (s : State) (c : Claim) (i : Nat) : Prop :=
  c.state = .set ∧ c.releaseMark = false ∧ ∃ st, c.steps[i]? = some st ∧ st.locked = true ∧ st.seen = true
    ∧ s.sectClear st.sect = true ∧ ∀ next, c.steps[i + 1]? = some next → st.nextLocal = false ∨ next.seen = true

theorem stepClear_eq {s : State} {id i : Nat} {c : Claim} {st : ClaimStep} (h : s.claim? id = some c) (hi : c.steps[i]? = some st) :
    s.stepClear id i = s.sectClear st.sect := by
  unfold State.stepClear
  rw [h, Option.bind_some, hi]

theorem readyToPass_iff {s : State} {id : Nat} {c : Claim} (h : s.claim? id = some c) (i : Nat) :
    (c.passedOver i && s.stepClear id i) = true ↔ ReadyToPass s c i := by
  unfold Claim.passedOver ReadyToPass
  rcases hi : c.steps[i]? with _ | st
  · simp
  · rw [stepClear_eq h hi]
    rcases c.steps[i + 1]? with _ | next
    · simp [and_assoc]
    · simp only [Bool.and_eq_true, beq_iff_eq, Bool.not_eq_true', Bool.or_eq_true, Option.some.injEq, exists_eq_left', forall_eq']
      tauto

theorem examineStep_ready {s : State} {id i : Nat} {c : Claim} (h : s.claim? id = some c) (ready : ReadyToPass s c i) :
    s.examineStep id i = s.releaseStep id i true := by
  unfold State.examineStep
  rw [h]
  exact if_pos ((readyToPass_iff h i).mpr ready)

theorem examineStep_waits {s : State} {id i : Nat} {c : Claim} (h : s.claim? id = some c) (waits : ¬ ReadyToPass s c i) :
    s.examineStep id i = s := by
  unfold State.examineStep
  rw [h]
  exact if_neg (mt (readyToPass_iff h i).mp waits)

theorem examineStep_unused {s : State} {id : Nat} (h : s.claim? id = none) (i : Nat) : s.examineStep id i = s := by
  unfold State.examineStep
  rw [h]

/-- The record whose step `i` has been seen occupied. -/
def stepSeen (i : Nat) (c : Claim) : Claim :=
  { c with steps := c.steps.modify i (fun x => { x with seen := true, orphan := none })
           setT := if c.state = .set then none else c.setT }

theorem seenOccupied_first {s : State} {id : Nat} {c : Claim} (h : s.claim? id = some c) :
    s.seenOccupied id 0 = s.modClaim id (stepSeen 0) := by
  unfold State.seenOccupied
  rw [h]
  rfl

/-- The step before the one seen has the condition of sectional release where it has passed, but for its successor. -/
theorem readyToPass_stepSeen {s t : State} (du : t.du = s.du) {c : Claim} {j : Nat} {st prev : ClaimStep}
    (hi : c.steps[j + 1]? = some st) (hj : c.steps[j]? = some prev) : ReadyToPass t (stepSeen (j + 1) c) j ↔
      c.state = .set ∧ c.releaseMark = false ∧ prev.locked = true ∧ prev.seen = true ∧ s.sectClear prev.sect = true := by
  have before : (stepSeen (j + 1) c).steps[j]? = some prev := by simp [stepSeen, hj]
  have seen : (stepSeen (j + 1) c).steps[j + 1]? = some { st with seen := true, orphan := none } := by simp [stepSeen, hi]
  unfold ReadyToPass
  rw [before, seen]
  refine and_congr_right fun _ => and_congr_right fun _ => ?_
  simp [sectClear_congr du]

theorem seenOccupied_next {s : State} {id j : Nat} {c : Claim} {st prev : ClaimStep} (h : s.claim? id = some c)
    (hi : c.steps[j + 1]? = some st) (hj : c.steps[j]? = some prev) : s.seenOccupied id (j + 1) =
      if st.seen = false ∧ prev.nextLocal = true then (s.modClaim id (stepSeen (j + 1))).examineStep id j
      else s.modClaim id (stepSeen (j + 1)) := by
  unfold State.seenOccupied
  rw [h]
  dsimp only
  rw [hi, hj]
  dsimp only
  split
  next waited => exact (if_pos (by simpa using waited)).symm
  next idle => exact (if_neg (by simpa using idle)).symm

theorem stepOn_spec {c : Claim} {k i : Nat} {st : ClaimStep} (on : c.stepOn k = some i) (hi : c.steps[i]? = some st) :
    st.sect = k ∧ st.locked = true := by
  obtain ⟨⟨x, hx, accepted⟩, -⟩ := (firstIndex_eq_some_iff _ _ _).mp on
  rw [hi] at hx
  cases hx
  simpa using accepted

theorem ctNotice_unlocked {s : State} {n : SectNotice} (h : s.lock? n.sect = none) : s.ctNotice n = s := by
  unfold State.ctNotice
  rw [h]

theorem ctNotice_locked {s : State} {n : SectNotice} {id i : Nat} {c : Claim} (lock : s.lock? n.sect = some id)
    (h : s.claim? id = some c) (on : c.stepOn n.sect = some i) :
    s.ctNotice n = if n.after = .clear then s.sectionCleared id i else s.seenOccupied id i := by
  unfold State.ctNotice
  rw [lock]
  dsimp only
  rw [h, Option.bind_some, on]

theorem sectionCleared_marked {s : State} {id i : Nat} {c : Claim} {st : ClaimStep} (h : s.claim? id = some c)
    (hi : c.steps[i]? = some st) (mark : c.releaseMark = true) : s.sectionCleared id i =
      if (c.state = .setting ∧ c.orders ≠ []) ∨ s.sectClear st.sect = false then s else s.releaseStep id i false := by
  unfold State.sectionCleared
  rw [h]
  dsimp only
  rw [if_pos mark, stepClear_eq h hi]

theorem sectionCleared_orphaned {s : State} {id : Nat} {c : Claim} (h : s.claim? id = some c) (mark : c.releaseMark = false)
    (orphaned : c.state = .orphaned) (i : Nat) : s.sectionCleared id i = s.modClaim id
      (fun c => { c with steps := c.steps.modify i (fun x => { x with orphan := some ⟨0, 30000⟩ }) }) := by
  unfold State.sectionCleared
  rw [h]
  dsimp only
  rw [if_neg (by simp [mark]), if_pos orphaned]
  rfl

theorem sectionCleared_examines {s : State} {id : Nat} {c : Claim} (h : s.claim? id = some c) (mark : c.releaseMark = false)
    (other : c.state ≠ .orphaned) (i : Nat) : s.sectionCleared id i = s.examineStep id i := by
  unfold State.sectionCleared
  rw [h]
  dsimp only
  rw [if_neg (by simp [mark]), if_neg other]

theorem sectionalRelease : Clause.SectionalRelease := by
  intro k s n rest first taken
  have notice : exec (.ctSectionChange k) s = .next (taken.ctNotice n) := by
    change execCtSectionChange k s = _
    unfold execCtSectionChange
    rw [first]
  refine ⟨fun free => notice.trans (congrArg _ (ctNotice_unlocked (s := taken) free)), fun id c i st lock h on hi => ?_⟩
  obtain ⟨sect, locked⟩ := stepOn_spec on hi
  have own : taken.claim? id = some c := h
  have cases := ctNotice_locked (s := taken) lock own on
  have cleared (clear : n.after = .clear) : exec (.ctSectionChange k) s = .next (taken.sectionCleared id i) :=
    notice.trans (congrArg _ (cases.trans (if_pos clear)))
  have occupied (other : n.after ≠ .clear) : exec (.ctSectionChange k) s = .next (taken.seenOccupied id i) :=
    notice.trans (congrArg _ (cases.trans (if_neg other)))
  have examines (clear : n.after = .clear) (mark : c.releaseMark = false) (set : c.state = .set) :
      exec (.ctSectionChange k) s = .next (taken.examineStep id i) :=
    (cleared clear).trans (congrArg _ (sectionCleared_examines own mark (by simp [set]) i))
  refine ⟨fun other zero => ?_, fun other => ⟨fun zero => ?_, fun j prev next hj => ⟨fun waited => ?_, fun idle => ?_⟩⟩,
    fun clear mark set seen isClear next => ?_, fun clear mark set waits => ?_, fun clear mark state isClear => ?_,
    fun clear mark state orders => ?_, fun clear mark orphaned => ?_⟩
  · subst zero
    refine ⟨_, (occupied other).trans (congrArg _ (seenOccupied_first own)), ?_⟩
    rw [claim?_modClaim own, stepSeen, modify_of_getElem? hi]
  · subst zero
    exact (occupied other).trans (congrArg _ (seenOccupied_first own))
  · subst next
    obtain ⟨unseen, nextLocal, state, mark, before⟩ := waited
    have ready := (readyToPass_stepSeen (s := s) (t := taken.modClaim id (stepSeen (j + 1))) rfl hi hj).mpr ⟨state, mark, before⟩
    rw [occupied other, seenOccupied_next own hi hj, if_pos ⟨unseen, nextLocal⟩, examineStep_ready (claim?_modClaim own _) ready]
    rfl
  · subst next
    have waits (unseen : st.seen = false) (nextLocal : prev.nextLocal = true) :
        ¬ ReadyToPass (taken.modClaim id (stepSeen (j + 1))) (stepSeen (j + 1) c) j := fun ready =>
      idle ⟨unseen, nextLocal, (readyToPass_stepSeen (s := s) rfl hi hj).mp ready⟩
    rw [occupied other, seenOccupied_next own hi hj]
    split
    next pair =>
      rw [examineStep_waits (claim?_modClaim own _) (waits pair.1 pair.2)]
      rfl
    next => rfl
  · exact (examines clear mark set).trans
      (congrArg _ (examineStep_ready own ⟨set, mark, st, hi, locked, seen, isClear, next⟩))
  · refine (examines clear mark set).trans (congrArg _ (examineStep_waits own fun ⟨_, _, x, hx, _, seen, _, passed⟩ => ?_))
    rw [hi] at hx
    cases hx
    rcases waits with unseen | ⟨next, hn, here, unseen⟩
    · simp [unseen] at seen
    · simpa [here, unseen] using passed next hn
  · rw [cleared clear, sectionCleared_marked own hi mark, if_neg]
    rintro (⟨setting, -⟩ | held)
    · exact state setting
    · exact Bool.noConfusion (held.symm.trans isClear)
  · rw [cleared clear, sectionCleared_marked own hi mark, if_pos (.inl ⟨state, orders⟩)]
  · exact (cleared clear).trans (congrArg _ (sectionCleared_orphaned own mark orphaned i))

/-! ### The timers of a record (R106, R112, R115) -/

theorem sendLost_unsent {s : State} {id : Nat} {c : Claim} (h : s.claim? id = some c) (unsent : c.lostSent = false) (cause : LostCause)
    (point : Option Nat) : s.sendLost id cause point = s.tellLost id c cause point := by
  unfold State.sendLost
  rw [h]
  exact if_neg (by simp [unsent])

theorem sendLost_sent {s : State} {id : Nat} {c : Claim} (h : s.claim? id = some c) (sent : c.lostSent = true) (cause : LostCause)
    (point : Option Nat) : s.sendLost id cause point = s := by
  unfold State.sendLost
  rw [h]
  exact if_pos sent

theorem claimTimersExpire : Clause.ClaimTimersExpire := by
  intro s id c h
  refine ⟨fun ended => congrArg Host.Outcome.next ?_, fun ended => congrArg Host.Outcome.next ?_,
    fun i st orphaned hi locked ended => congrArg Host.Outcome.next ?_, releaseAll_eq h, fun held => ?_, fun unsent cause p => ?_,
    fun sent cause p => sendLost_sent h sent cause p⟩
  · unfold State.reservedExpiry
    rw [h]
    exact if_pos ended
  · unfold State.setExpiry
    rw [h]
    exact if_pos ended
  · unfold State.orphanExpiry
    rw [h, Option.bind_some, if_pos orphaned, hi]
    exact if_pos (by simp [locked, ended])
  · obtain ⟨st, hst, locked⟩ := held
    exact ⟨releaseAll_claim? h (List.any_eq_true.mpr ⟨st, hst, locked⟩), fun x hx own => releaseAll_lock? h hx own⟩
  · obtain ⟨record, counted⟩ := sendLost_record h cause p
    exact ⟨record, counted unsent, sendLost_unsent h unsent cause p⟩

/-! ### What an operation on one record leaves of the others -/

/-- What an operation on other records keeps: record `j`, DU, and every section unlocked that was. -/
structure Beside (j : Nat) (s t : State) : Prop where
  claim : t.claim? j = s.claim? j
  du : t.du = s.du
  unlocked : ∀ k, s.lock? k = none → t.lock? k = none

theorem Beside.refl (j : Nat) (s : State) : Beside j s s := ⟨rfl, rfl, fun _ => id⟩

theorem Beside.trans {j : Nat} {s t u : State} (h : Beside j s t) (h' : Beside j t u) : Beside j s u :=
  ⟨h'.claim.trans h.claim, h'.du.trans h.du, fun k free => h'.unlocked k (h.unlocked k free)⟩

theorem Beside.forEach {α : Type} {j : Nat} {f : α → State → State} {l : List α} (h : ∀ a ∈ l, ∀ u, Beside j u (f a u)) (s : State) :
    Beside j s (forEach l f s) :=
  forEach_preserves (P := Beside j s) (fun a ha u hu => hu.trans (h a ha u)) (.refl j s)

/-- An operation that leaves CT and DU as they are. -/
theorem Beside.of_ct {s t : State} (ct : t.ct = s.ct) (du : t.du = s.du) (j : Nat) : Beside j s t :=
  ⟨claim?_congr (by rw [ct]) j, du, fun k free => (lock?_congr (by rw [ct]) k).trans free⟩

/-- An operation on each record in turn reaches record `j` with it and the sections as they were, and leaves it as it then is. -/
theorem forEach_at_record {j : Nat} {f : Nat → State → State} (beside : ∀ id u, id ≠ j → Beside j u (f id u)) {l : List Nat}
    (nodup : l.Nodup) (hj : j ∈ l) (s : State) : ∃ u, Beside j s u ∧ Beside j (f j u) (forEach l f s) :=
  forEach_reaches (P := Beside j s) (Q := fun v => ∃ u, Beside j s u ∧ Beside j (f j u) v)
    (fun k u apart hu => hu.trans (beside k u apart)) (fun u hu => ⟨u, hu, .refl j _⟩)
    (fun k _ apart ⟨u, hu, hv⟩ => ⟨u, hu, hv.trans (beside k _ apart)⟩) nodup hj (.refl j s)

section
variable {j id : Nat} (apart : id ≠ j) (s : State)
include apart

theorem modClaim_beside (f : Claim → Claim) : Beside j s (s.modClaim id f) :=
  ⟨claim?_modClaim_ne apart.symm s f, rfl, fun _ free => free⟩

theorem releaseStep_beside (i : Nat) (tell : Bool) : Beside j s (s.releaseStep id i tell) :=
  ⟨releaseStep_claim?_ne apart.symm s i tell, by simp, fun _ free => releaseStep_unlocked free id i tell⟩

theorem releaseClear_beside : Beside j s (s.releaseClear id) := by
  refine Beside.forEach (fun i _ u => ?_) s
  split
  · exact releaseStep_beside apart u i false
  · exact .refl j u

theorem windDown_beside : Beside j s (s.windDown id) := by
  rcases h : s.claim? id with _ | c
  · rw [windDown_unused h]
    exact .refl j s
  · have marked := modClaim_beside apart s releaseMarked
    rw [windDown_eq h]
    split
    · exact .refl j s
    · split
      · exact marked
      · exact marked.trans (releaseClear_beside apart _)

theorem dropRecord_beside : Beside j s (s.dropRecord id) :=
  (modClaim_beside apart s _).trans (windDown_beside apart _)

theorem examineStep_beside (i : Nat) : Beside j s (s.examineStep id i) := by
  unfold State.examineStep
  split
  · split
    · exact releaseStep_beside apart s i true
    · exact .refl j s
  · exact .refl j s

theorem tellLost_beside (c : Claim) (cause : LostCause) (point : Option Nat) : Beside j s (s.tellLost id c cause point) :=
  (modClaim_beside apart s (fun c => { c with lostSent := true })).trans
    (.of_ct (by simp [State.tellLost]) (by simp [State.tellLost]) j)

theorem enterOrphaned_beside : Beside j s (s.enterOrphaned id) := by
  unfold State.enterOrphaned
  split
  · exact (modClaim_beside apart s _).trans (.of_ct (by rfl) (by rfl) j)
  · exact .refl j s

theorem orphanRecord_beside : Beside j s (s.orphanRecord id) := by
  unfold State.orphanRecord
  split
  · split
    · exact .refl j s
    · split
      · exact enterOrphaned_beside apart s
      · exact enterOrphaned_beside apart s
      · exact modClaim_beside apart s _
      · exact .refl j s
  · exact .refl j s

theorem returnRecord_beside (c : Claim) : Beside j s (s.returnRecord id c) := by
  have examined (u : State) : Beside j u (u.examineAll id) := .forEach (fun i _ v => examineStep_beside apart v i) u
  unfold State.returnRecord
  dsimp only
  split <;> split
  · exact ((modClaim_beside apart s _).trans (examined _)).trans (tellLost_beside apart _ c _ _)
  · exact (modClaim_beside apart s _).trans (tellLost_beside apart _ c _ _)
  · exact (modClaim_beside apart s _).trans (examined _)
  · exact modClaim_beside apart s _

theorem unorphanRecord_beside : Beside j s (s.unorphanRecord id) := by
  unfold State.unorphanRecord
  split
  next c _ =>
    split
    · split
      · exact modClaim_beside apart s _
      · exact returnRecord_beside apart s c
    · exact modClaim_beside apart s _
    · exact .refl j s
    · exact .refl j s
  · exact .refl j s

theorem isolateRecord_beside : Beside j s (s.isolateRecord id) := by
  unfold State.isolateRecord
  split
  next c _ =>
    split
    · have ended : Beside j s ((forEach c.orders (fun p s => s.endPermission p) s).endPermissions c) := by
        rw [endPermissions_eq, forEach_endPermission]
        exact .of_ct (by rfl) (by rfl) j
      have left := ended.trans (modClaim_beside apart _ (fun c => { c with state := .reserved, orders := [], setFail := false }))
      split
      · exact left.trans ((modClaim_beside apart _ _).trans (releaseClear_beside apart _))
      · exact left.trans (dropRecord_beside apart _)
    · exact dropRecord_beside apart s
  · exact .refl j s

end

end Sys2Proof.Proofs
end

