-- ==== Sys2Proof/Proofs/Requesters.lean ====
section
/-! PROOF. What the loss, the return and the restart of its requester, and isolation, do to a claim record (R114, R116 to R118). -/

namespace Sys2Proof.Proofs
open Sys2Proof.Machine Sys2Proof.Laws

/-! ### The loss of the requester (R114) -/

/-- A record without release mark whose requester is UNUSABLE. -/
def requesterLost (s : State) (c : Claim) : Claim :=
  if c.state = .reserved ∨ c.state = .set then
    { c with state := .orphaned, prev := some c.state, orphanPending := false, reservedT := none, setT := none
             steps := c.steps.map (fun st =>
               { st with orphan := if st.locked && s.sectClear st.sect then some ⟨0, 30000⟩ else none }) }
  else if c.state = .setting then { c with orphanPending := true } else c

theorem enterOrphaned_claim? {s : State} {id : Nat} {c : Claim} (h : s.claim? id = some c) (ready : c.state = .reserved ∨ c.state = .set) :
    (s.enterOrphaned id).claim? id = some (requesterLost s c) := by
  unfold State.enterOrphaned
  rw [h, requesterLost, if_pos ready]
  exact claim?_modClaim h _

theorem orphanRecord_claim? {s : State} {id : Nat} {c : Claim} (h : s.claim? id = some c) :
    (s.orphanRecord id).claim? id = some (if c.releaseMark = false then requesterLost s c else c) := by
  unfold State.orphanRecord
  rw [h]
  dsimp only
  by_cases mark : c.releaseMark = true
  · rw [if_pos mark, if_neg (by simp [mark]), h]
  · rw [if_neg mark, if_pos (by simpa using mark)]
    cases state : c.state with
    | reserved => exact enterOrphaned_claim? h (.inl state)
    | set => exact enterOrphaned_claim? h (.inr state)
    | setting =>
      rw [requesterLost, if_neg (by simp [state]), if_pos state]
      exact claim?_modClaim h _
    | orphaned =>
      rw [requesterLost, if_neg (by simp [state]), if_neg (by simp [state])]
      exact h

theorem orphanRecord_locks_free (s : State) (id : Nat) :
    (s.orphanRecord id).ct.locks = s.ct.locks ∧ (s.orphanRecord id).ct.free = s.ct.free := by
  unfold State.orphanRecord State.enterOrphaned
  (repeat' split) <;> exact ⟨rfl, rfl⟩

theorem not_mem_claimsWhere {s : State} {p : Claim → Bool} {id : Nat} (h : ∀ c, s.claim? id = some c → p c = false) :
    id ∉ s.claimsWhere p := by
  rw [mem_claimsWhere]
  rintro ⟨c, hc, accepted⟩
  simp [h c hc] at accepted

/-- An operation on the records that `p` accepts leaves every other record as it is. -/
theorem forEach_claimsWhere_other {f : Nat → State → State} {j : Nat} (beside : ∀ id u, id ≠ j → Beside j u (f id u)) {s : State}
    {p : Claim → Bool} (other : ∀ c, s.claim? j = some c → p c = false) : Beside j s (forEach (s.claimsWhere p) f s) :=
  .forEach (fun id hid u => beside id u (ne_of_mem_of_not_mem hid (not_mem_claimsWhere other))) s

/-- Of the records that `p` accepts, each is reached as it was, and is left as it then is. -/
theorem forEach_claimsWhere_at {f : Nat → State → State} {j : Nat} (beside : ∀ id u, id ≠ j → Beside j u (f id u)) {s : State}
    {p : Claim → Bool} {c : Claim} (h : s.claim? j = some c) (accepted : p c = true) :
    ∃ u, u.claim? j = some c ∧ u.du = s.du ∧ Beside j (f j u) (forEach (s.claimsWhere p) f s) := by
  obtain ⟨u, before, after⟩ := forEach_at_record beside (claimsWhere_nodup s p) (mem_claimsWhere.mpr ⟨c, h, accepted⟩) s
  exact ⟨u, before.claim.trans h, before.du, after⟩

theorem requesterLost_congr {s t : State} (h : t.du = s.du) (c : Claim) : requesterLost t c = requesterLost s c := by
  unfold requesterLost
  simp only [sectClear_congr h]

theorem ctLost_claim? {s : State} {id : Nat} {c : Claim} (h : s.claim? id = some c) (peer : Nat) (epoch : Epoch) :
    (s.ctLost peer epoch).claim? id
      = some (if c.madeBy peer epoch = true ∧ c.releaseMark = false then requesterLost s c else c) := by
  by_cases made : c.madeBy peer epoch = true
  · obtain ⟨u, own, du, after⟩ := forEach_claimsWhere_at (p := fun c => c.madeBy peer epoch)
      (fun k u apart => orphanRecord_beside apart u) h made
    refine after.claim.trans ((orphanRecord_claim? own).trans ?_)
    simp only [made, true_and, requesterLost_congr du]
  · rw [if_neg (fun both => made both.1), ← h]
    refine (forEach_claimsWhere_other (fun k u apart => orphanRecord_beside apart u) fun d hd => ?_).claim
    rw [h] at hd
    cases hd
    simpa using made

theorem ctLost_locks_free (s : State) (peer : Nat) (epoch : Epoch) :
    (s.ctLost peer epoch).ct.locks = s.ct.locks ∧ (s.ctLost peer epoch).ct.free = s.ct.free :=
  ⟨forEach_keeps (·.ct.locks) _ _ (fun id u => (orphanRecord_locks_free u id).1) s,
    forEach_keeps (·.ct.free) _ _ (fun id u => (orphanRecord_locks_free u id).2) s⟩

/-! ### Isolation (R118) -/

/-- A record without its lost mark and its orphan pending mark. -/
def unmarked (c : Claim) : Claim :=
  { c with lost := false, lostPoint := none, orphanPending := false }

theorem allClear_releaseMarked (s : State) (c : Claim) : s.allClear (releaseMarked c) = s.allClear c := by
  simp only [State.allClear, releaseMarked, List.any_map, List.all_map]
  rfl

theorem windDown_claim? {s : State} {id : Nat} {c : Claim} (h : s.claim? id = some c) : (s.windDown id).claim? id =
    if c.releaseMark = true then some c
    else if c.state = .setting ∧ c.orders ≠ [] then some (releaseMarked c)
    else if s.allClear c = true then none else some (clearLetGo s (releaseMarked c)) := by
  have marked : (s.modClaim id releaseMarked).claim? id = some (releaseMarked c) := claim?_modClaim h _
  rw [windDown_eq h]
  split
  · exact h
  · split
    · exact marked
    · rw [releaseClear_claim? marked, allClear_releaseMarked]
      rfl

theorem dropRecord_claim? {s : State} {id : Nat} {c : Claim} (h : s.claim? id = some c) : (s.dropRecord id).claim? id =
    if c.releaseMark = true then some (unmarked c)
    else if c.state = .setting ∧ c.orders ≠ [] then some (releaseMarked (unmarked c))
    else if s.allClear c = true then none else some (clearLetGo s (releaseMarked (unmarked c))) :=
  windDown_claim? (s := s.dropMarks id) (claim?_modClaim h unmarked)

theorem clearLetGo_held {s : State} {c : Claim} {st : ClaimStep} (hst : st ∈ (clearLetGo s c).steps) (locked : st.locked = true) :
    s.sectClear st.sect = false := by
  obtain ⟨x, -, rfl⟩ := List.mem_map.mp hst
  split at locked
  · simp at locked
  next held =>
    rw [if_neg held]
    exact Bool.eq_false_iff.mpr fun clear => held ⟨locked, clear⟩

/-- A record after isolation: outside SETTING, with the release mark and no other mark, and, where it was in SETTING or had no release
mark, with no CLEAR section still locked. -/
structure Isolated (s : State) (c c' : Claim) : Prop where
  state : c'.state ≠ .setting
  mark : c'.releaseMark = true
  lost : c'.lost = false
  pending : c'.orphanPending = false
  held : c.state = .setting ∨ c.releaseMark = false → ∀ st ∈ c'.steps, st.locked = true → s.sectClear st.sect = false

/-- What winding down leaves of a record is isolated where the record was without the marks, and outside SETTING. -/
theorem isolated_clearLetGo {s t : State} (du : t.du = s.du) (c : Claim) {d : Claim} (state : d.state ≠ .setting)
    (mark : d.releaseMark = true) (lost : d.lost = false) (pending : d.orphanPending = false) : Isolated s c (clearLetGo t d) :=
  ⟨state, mark, lost, pending, fun _ _ hst locked => (sectClear_congr du _).symm.trans (clearLetGo_held hst locked)⟩

/-- The record that has left SETTING with its orders dropped. -/
def ordersDropped (c : Claim) : Claim :=
  { c with state := .reserved, orders := [], setFail := false }

theorem isolateRecord_setting {s : State} {id : Nat} {c : Claim} (h : s.claim? id = some c) (setting : c.state = .setting) :
    ∃ v : State, v.claim? id = some (ordersDropped c) ∧ v.du = s.du ∧ s.isolateRecord id =
      if c.releaseMark = true then (v.dropMarks id).releaseClear id else v.dropRecord id := by
  have ended : ((forEach c.orders (fun p u => u.endPermission p) s).endPermissions c).claim? id = some c := by
    rw [endPermissions_eq, forEach_endPermission]
    exact h
  refine ⟨_, claim?_modClaim ended ordersDropped, by simp, ?_⟩
  unfold State.isolateRecord
  rw [h]
  exact if_pos setting

theorem dropRecord_isolated {s t : State} {id : Nat} {c d d' : Claim} (h : t.claim? id = some d) (du : t.du = s.du)
    (state : d.state ≠ .setting) (marks : c.state = .setting ∨ c.releaseMark = false → d.releaseMark = false)
    (left : (t.dropRecord id).claim? id = some d') : Isolated s c d' := by
  rw [dropRecord_claim? h] at left
  by_cases mark : d.releaseMark = true
  · rw [if_pos mark] at left
    cases left
    exact ⟨state, mark, rfl, rfl, fun before => absurd mark (by simp [marks before])⟩
  · rw [if_neg mark, if_neg fun both => state both.1] at left
    split at left
    · contradiction
    · cases left
      exact isolated_clearLetGo du c state rfl rfl rfl

theorem isolateRecord_isolated {s : State} {id : Nat} {c c' : Claim} (h : s.claim? id = some c)
    (left : (s.isolateRecord id).claim? id = some c') : Isolated s c c' := by
  by_cases setting : c.state = .setting
  · obtain ⟨v, own, du, eq⟩ := isolateRecord_setting h setting
    rw [eq] at left
    by_cases mark : c.releaseMark = true
    · rw [if_pos mark, releaseClear_claim? (s := v.dropMarks id) (claim?_modClaim own unmarked)] at left
      split at left
      · contradiction
      · cases left
        exact isolated_clearLetGo du c (d := unmarked (ordersDropped c)) nofun mark rfl rfl
    · rw [if_neg mark] at left
      exact dropRecord_isolated own du nofun (fun _ => Bool.eq_false_iff.mpr mark) left
  · have drop : s.isolateRecord id = s.dropRecord id := by
      unfold State.isolateRecord
      rw [h]
      exact if_neg setting
    rw [drop] at left
    exact dropRecord_isolated h rfl setting (fun before => before.resolve_left setting) left

theorem ctIsolate_isolated {s : State} {id : Nat} {c' : Claim} (left : s.ctIsolate.claim? id = some c') :
    ∃ c, s.claim? id = some c ∧ Isolated s c c' := by
  have beside (k : Nat) (u : State) (apart : k ≠ id) : Beside id u (u.isolateRecord k) := isolateRecord_beside apart u
  rcases h : s.claim? id with _ | c
  · have same := (forEach_claimsWhere_other (s := s) (p := fun _ => true) beside (by simp [h])).claim
    exact absurd (same.symm.trans left) (by simp [h])
  · obtain ⟨u, own, du, after⟩ := forEach_claimsWhere_at (p := fun _ => true) beside h rfl
    obtain ⟨state, mark, lost, pending, held⟩ := isolateRecord_isolated own (after.claim.symm.trans left)
    exact ⟨c, rfl, state, mark, lost, pending, fun before st hst locked =>
      (sectClear_congr du _).symm.trans (held before st hst locked)⟩

/-! CT takes the isolation notice itself: no operation on a record touches it. -/

theorem releaseStep_isolated (s : State) (id i : Nat) (tell : Bool) : (s.releaseStep id i tell).ct.isolated = s.ct.isolated := by
  rcases releaseStep_cases s id i tell with same | ⟨c, st, h, hi, locked⟩
  · rw [same]
  · rw [releaseStep_ct h hi locked]
    unfold State.freeIfEmpty
    (repeat' split) <;> rfl

@[simp] theorem releaseClear_isolated (s : State) (id : Nat) : (s.releaseClear id).ct.isolated = s.ct.isolated := by
  refine forEach_keeps (·.ct.isolated) _ _ (fun i u => ?_) s
  split
  · exact releaseStep_isolated u id i false
  · rfl

@[simp] theorem dropRecord_isolatedNotice (s : State) (id : Nat) : (s.dropRecord id).ct.isolated = s.ct.isolated := by
  unfold State.dropRecord State.dropMarks State.windDown
  dsimp only
  (repeat' split) <;> simp

theorem isolateRecord_isolatedNotice (s : State) (id : Nat) : (s.isolateRecord id).ct.isolated = s.ct.isolated := by
  unfold State.isolateRecord State.dropMarks
  dsimp only
  (repeat' split) <;> simp [forEach_endPermission]

theorem requesterNoticesReachRecords : Clause.RequesterNoticesReachRecords := by
  intro k k' s e rest
  refine ⟨fun first => ?_, fun isolated => ?_⟩
  · have notice : exec (.ctUnusable k) s = .next (State.ctLost { s with ct := { s.ct with peerNotices := rest } } k e) := by
      change execCtUnusable k s = _
      unfold execCtUnusable
      rw [first]
    exact ⟨_, notice, fun id c h => ctLost_claim? (s := { s with ct := { s.ct with peerNotices := rest } }) h k e,
      ctLost_locks_free _ k e⟩
  · have notice : exec .ctIsolation s = .next (State.ctIsolate { s with ct := { s.ct with isolated := false } }) := if_pos isolated
    refine ⟨_, notice, ?_, fun id c h => ?_, fun id c c' h before left => ?_⟩
    · exact forEach_keeps (·.ct.isolated) _ _ (fun id u => isolateRecord_isolatedNotice u id) _
    · obtain ⟨-, -, state, mark, lost, pending, -⟩ := ctIsolate_isolated h
      exact ⟨state, mark, lost, pending⟩
    · obtain ⟨d, hd, final⟩ := ctIsolate_isolated left
      cases h.symm.trans hd
      exact final.held before

/-! ### The return of the requester (R116) -/

/-- An ORPHANED record back in its previous state. -/
def returned (c : Claim) : Claim :=
  { c with
    state := c.prev.getD .reserved, prev := none, steps := c.steps.map (fun st => { st with orphan := none })
    reservedT := if c.prev.getD .reserved = .reserved then some ⟨0, 10000⟩ else none
    setT := if c.prev.getD .reserved = .set ∧ c.anySeen = false then some ⟨0, 1000 * c.approach + 15000⟩ else none }

/-- An ORPHANED record back in its previous state, each of its steps examined where that is SET. -/
def backExamined (s : State) (id : Nat) (c : Claim) : State :=
  if c.prev.getD .reserved = .set then
    forEach (List.range c.steps.length) (fun i u => u.examineStep id i) (s.modClaim id (fun _ => returned c))
  else s.modClaim id (fun _ => returned c)

theorem unorphanRecord_orphaned {s : State} {id : Nat} {c : Claim} (h : s.claim? id = some c) (orphaned : c.state = .orphaned)
    (mark : c.releaseMark = false) : s.unorphanRecord id =
      if c.lost = true ∧ c.lostSent = false then (backExamined s id c).tellLost id c .pointLost c.lostPoint else backExamined s id c := by
  have back : s.modClaim id (fun d => { d with
      state := c.prev.getD .reserved, prev := none, steps := stopOrphanTimers d.steps
      reservedT := if c.prev.getD .reserved = .reserved then startTimer Config.reservedMs else none
      setT := if c.prev.getD .reserved = .set ∧ d.anySeen = false then setTimerOf d.approach else none })
      = s.modClaim id (fun _ => returned c) := modClaim_const s id c _ h
  have indices : (s.modClaim id (fun _ => returned c)).stepIndices id = List.range c.steps.length := by
    unfold State.stepIndices
    rw [claim?_modClaim h]
    exact congrArg List.range (List.length_map _)
  unfold State.unorphanRecord State.returnRecord State.examineAll
  rw [h]
  dsimp only
  rw [orphaned]
  dsimp only
  rw [if_neg (by simp [mark]), back, indices]
  simp only [Bool.and_eq_true, Bool.not_eq_true', backExamined]

/-- No step is released on the return to SET where none that has been seen has a CLEAR section. -/
theorem backExamined_held {s : State} {id : Nat} {c : Claim} (h : s.claim? id = some c)
    (held : c.prev.getD .reserved = .set → ∀ st ∈ c.steps, st.locked = true → st.seen = true → s.sectClear st.sect = false) :
    backExamined s id c = s.modClaim id (fun _ => returned c) := by
  unfold backExamined
  split
  next set =>
    refine forEach_id fun i _ => examineStep_waits (claim?_modClaim h _) ?_
    rintro ⟨-, -, x, hx, locked, seen, clear, -⟩
    obtain ⟨st, hst, rfl⟩ := List.mem_map.mp (List.mem_of_getElem? hx)
    exact Bool.noConfusion ((held set st hst locked seen).symm.trans clear)
  · rfl

theorem tellLost_claim? {s : State} {id : Nat} {d : Claim} (h : s.claim? id = some d) (c : Claim) (cause : LostCause)
    (point : Option Nat) : (s.tellLost id c cause point).claim? id = some { d with lostSent := true } :=
  (claim?_tellRe _ _ _ id).trans (claim?_modClaim h _)

theorem unorphanRecord_returned {s : State} {id : Nat} {c : Claim} (h : s.claim? id = some c) (orphaned : c.state = .orphaned)
    (mark : c.releaseMark = false)
    (held : c.prev.getD .reserved = .set → ∀ st ∈ c.steps, st.locked = true → st.seen = true → s.sectClear st.sect = false) :
    (s.unorphanRecord id).claim? id = some { returned c with lostSent := c.lostSent || c.lost } := by
  have back : (s.modClaim id (fun _ => returned c)).claim? id = some (returned c) := claim?_modClaim h _
  rw [unorphanRecord_orphaned h orphaned mark, backExamined_held h held]
  split
  next told => rw [tellLost_claim? back, told.1, Bool.or_true]
  next silent =>
    have same : (c.lostSent || c.lost) = c.lostSent := by
      cases lost : c.lost
      · exact Bool.or_false _
      · cases sent : c.lostSent
        · exact absurd ⟨lost, sent⟩ silent
        · rfl
    rw [back, same]
    rfl

theorem unorphanRecord_ready {s : State} {id : Nat} {c : Claim} (h : s.claim? id = some c) (ready : c.state = .reserved ∨ c.state = .set) :
    s.unorphanRecord id = s := by
  unfold State.unorphanRecord
  rw [h]
  rcases ready with state | state <;> simp only [state]

theorem unorphanRecord_setting {s : State} {id : Nat} {c : Claim} (h : s.claim? id = some c) (setting : c.state = .setting) :
    s.unorphanRecord id = s.modClaim id (fun c => { c with orphanPending := false }) := by
  unfold State.unorphanRecord
  rw [h]
  simp only [setting]

theorem unorphanRecord_marked {s : State} {id : Nat} {c : Claim} (h : s.claim? id = some c) (orphaned : c.state = .orphaned)
    (mark : c.releaseMark = true) :
    s.unorphanRecord id = s.modClaim id (fun c => { c with state := c.prev.getD .reserved, prev := none }) := by
  unfold State.unorphanRecord
  rw [h]
  simp only [orphaned, mark, if_true]

theorem ctReturned_claim? {s : State} {id : Nat} {c d : Claim} (h : s.claim? id = some c) {peer : Nat} {epoch : Epoch}
    (made : c.madeBy peer epoch = true)
    (left : ∀ u : State, u.claim? id = some c → u.du = s.du → (u.unorphanRecord id).claim? id = some d) :
    (s.ctReturned peer epoch).claim? id = some d := by
  obtain ⟨u, own, du, after⟩ := forEach_claimsWhere_at (p := fun c => c.madeBy peer epoch)
    (fun k u apart => unorphanRecord_beside apart u) h made
  exact after.claim.trans (left u own du)

theorem returned_reserved {c : Claim} (prev : c.prev = some .reserved) : returned c = { c with
    state := .reserved, prev := none, steps := c.steps.map (fun st => { st with orphan := none })
    reservedT := some ⟨0, 10000⟩, setT := none } := by
  simp [returned, prev]

theorem returned_set {c : Claim} (prev : c.prev = some .set) : returned c = { c with
    state := .set, prev := none, steps := c.steps.map (fun st => { st with orphan := none }), reservedT := none
    setT := if c.anySeen = true then none else some ⟨0, 1000 * c.approach + 15000⟩ } := by
  cases seen : c.anySeen <;> simp [returned, prev, seen]

theorem returningRequester : Clause.ReturningRequester := by
  refine ⟨fun k k' s e rest first => ?_, fun s id c h orphaned mark prev => ?_, fun s id i c h => ?_⟩
  · have notice : exec (.ctUsable k) s = .next (State.ctReturned { s with ct := { s.ct with peerNotices := rest } } k e) := by
      change execCtUsable k s = _
      unfold execCtUsable
      rw [first]
    refine ⟨_, notice, rfl, fun id c h other => ?_, fun id c h made => ?_⟩
    · have beside := forEach_claimsWhere_other (j := id) (s := { s with ct := { s.ct with peerNotices := rest } })
        (p := fun c => c.madeBy k e) (fun k u apart => unorphanRecord_beside apart u) fun d hd => by
          cases h.symm.trans hd
          exact other
      exact beside.claim.trans h
    · have here : State.claim? { s with ct := { s.ct with peerNotices := rest } } id = some c := h
      refine ⟨fun ready => ?_, fun setting => ?_, fun orphaned mark => ?_, fun orphaned mark prev => ?_,
        fun orphaned mark prev held => ?_⟩
      · refine ctReturned_claim? here made fun u own _ => ?_
        rw [unorphanRecord_ready own ready, own]
      · refine ctReturned_claim? here made fun u own _ => ?_
        rw [unorphanRecord_setting own setting, claim?_modClaim own]
      · refine ctReturned_claim? here made fun u own _ => ?_
        rw [unorphanRecord_marked own orphaned mark, claim?_modClaim own]
      · refine ctReturned_claim? here made fun u own _ => ?_
        rw [unorphanRecord_returned own orphaned mark (by simp [prev]), returned_reserved prev]
      · refine ctReturned_claim? here made fun u own du => ?_
        rw [unorphanRecord_returned own orphaned mark, returned_set prev]
        exact fun _ st hst locked seen => (sectClear_congr du _).trans (held st hst locked seen)
  · have set : c.prev.getD .reserved = .set := by simp [prev]
    have back := modClaim_const s id c (fun c => { c with
        state := .set, prev := none, steps := c.steps.map (fun st => { st with orphan := none }), reservedT := none
        setT := if c.anySeen = true then none else some ⟨0, 1000 * c.approach + 15000⟩ }) h
    rw [unorphanRecord_orphaned h orphaned mark, backExamined, if_pos set, returned_set prev]
    dsimp only at back ⊢
    rw [back]
    rfl
  · exact ⟨examineStep_ready h, examineStep_waits h⟩

/-! ### The restart of the requester (R117) -/

/-- A record that is wound down: its orphan clear timers stopped, and its CLEAR sections unlocked. -/
theorem clearLetGo_releaseMarked (s : State) (c : Claim) : clearLetGo s (releaseMarked c) = { releaseMarked c with
    steps := c.steps.map (fun st => { st with orphan := none, locked := st.locked && !s.sectClear st.sect }) } := by
  simp only [clearLetGo, releaseMarked, List.map_map]
  congr 1
  refine List.map_congr_left fun st _ => ?_
  simp only [Function.comp]
  cases locked : st.locked <;> cases clear : s.sectClear st.sect <;> simp

theorem windDown_lock? {s : State} {id : Nat} {c : Claim} (h : s.claim? id = some c) (mark : c.releaseMark = false)
    (free : c.state ≠ .setting ∨ c.orders = []) {st : ClaimStep} (hst : st ∈ c.steps) (locked : st.locked = true)
    (clear : s.sectClear st.sect = true) : (s.windDown id).lock? st.sect = none := by
  have own : (s.modClaim id releaseMarked).claim? id = some (releaseMarked c) := claim?_modClaim h _
  have step : { st with orphan := none } ∈ (releaseMarked c).steps := List.mem_map_of_mem hst
  rw [windDown_eq h, if_neg (by simp [mark]), if_neg]
  · exact releaseClear_lock? (st := { st with orphan := none }) own step locked clear
  · rintro ⟨setting, orders⟩
    exact free.elim (· setting) orders

theorem releaseStep_silent (s : State) (id i : Nat) : (s.releaseStep id i false).re.fromCt = s.re.fromCt := by
  rcases releaseStep_cases s id i false with same | ⟨c, st, h, hi, locked⟩
  · rw [same]
  · rw [releaseStep_fromCt h hi locked]
    rfl

@[simp] theorem releaseClear_silent (s : State) (id : Nat) : (s.releaseClear id).re.fromCt = s.re.fromCt := by
  refine forEach_keeps (·.re.fromCt) _ _ (fun i u => ?_) s
  split
  · exact releaseStep_silent u id i
  · rfl

/-- Winding down says nothing to RE. -/
theorem dropRecord_silent (s : State) (id : Nat) : (s.dropRecord id).re.fromCt = s.re.fromCt := by
  unfold State.dropRecord State.dropMarks State.windDown
  dsimp only
  (repeat' split) <;> simp

theorem restartedRequester : Clause.RestartedRequester := by
  refine ⟨fun k k' s e e' rest first => ?_, fun _ _ => rfl⟩
  have notice : exec (.ctEpochChange k) s = .next (State.ctRestarted { s with ct := { s.ct with peerNotices := rest } } k e) := by
    change execCtEpochChange k s = _
    unfold execCtEpochChange
    rw [first]
  refine ⟨_, notice, rfl, forEach_keeps (·.re.fromCt) _ _ (fun id u => dropRecord_silent u id) _, fun id c h other => ?_,
    fun id c h made => ?_⟩
  · have beside := forEach_claimsWhere_other (j := id) (s := { s with ct := { s.ct with peerNotices := rest } })
      (p := fun c => c.madeBy k e) (fun k u apart => dropRecord_beside apart u) fun d hd => by
        cases h.symm.trans hd
        exact other
    exact beside.claim.trans h
  · obtain ⟨u, own, du, after⟩ := forEach_claimsWhere_at (s := { s with ct := { s.ct with peerNotices := rest } })
      (p := fun c => c.madeBy k e) (fun k u apart => dropRecord_beside apart u) h made
    have record := after.claim.trans (dropRecord_claim? own)
    refine ⟨fun mark => ?_, fun mark setting orders => ?_, fun mark free => ⟨?_, fun st hst locked clear => ?_⟩⟩
    · rwa [if_pos mark] at record
    · rwa [if_neg (by simp [mark]), if_pos ⟨setting, orders⟩] at record
    · have allClear : u.allClear c = s.allClear c := by
        simp only [State.allClear, sectClear_congr du]
        rfl
      rw [if_neg (by simp [mark]), if_neg fun both => free.elim (· both.1) both.2, allClear, clearLetGo_releaseMarked] at record
      simp only [sectClear_congr du] at record
      exact record
    · have unlocked := windDown_lock? (s := u.dropMarks id) (claim?_modClaim own unmarked) mark free hst locked
        ((sectClear_congr du _).trans clear)
      exact after.unlocked _ unlocked

/-- Settles O41. -/
theorem sectionsTimersAndRequesters : Obligations.SectionsTimersAndRequesters :=
  ⟨sectionalRelease, claimTimersExpire, requesterNoticesReachRecords, returningRequester, restartedRequester⟩

end Sys2Proof.Proofs
end

