-- ==== Sys2Proof/Proofs/Replies.lean ====
section
/-! PROOF. Replies of owners in CLAIMING and SETTING, and stale GRANTs (R129, R130, R140, R141). -/

namespace Sys2Proof.Proofs
open Sys2Proof.Machine Sys2Proof.Laws

/-! ### How a reply reaches RE (R103, R129 to R136) -/

theorem deliverReply_frame {s : State} {k : Kind} {f : RxFrame} {fs' : FS} {m : ReMsg} (taken : s.fs.takeFrame k = some (f, fs'))
    (read : decReply f = some m) :
    s.deliverReply .frame k = (State.takeReply { s with fs := fs' } m (some f.rx)).finishFrame := by
  refine (withFrame_some taken replyFrame).trans ?_
  unfold replyFrame
  rw [read]

theorem deliverReply_handover {s : State} {k : Kind} {m : ReMsg} {rest : List ReMsg} (first : s.re.fromCt = m :: rest)
    (kind : m.kind = k) :
    s.deliverReply .handover k = State.takeReply { s with re := { s.re with fromCt := rest } } m none := by
  change s.withReHandover k = _
  unfold State.withReHandover
  rw [first]
  exact if_pos kind

/-- The six commands of RE for replies each deliver one of their kind. -/
theorem exec_reply (s : State) (v : Via) : ∀ kc ∈ [(Kind.grant, Instr.grant), (Kind.deny, Instr.deny), (Kind.setDone, Instr.setDone),
    (Kind.setFail, Instr.setFail), (Kind.passed, Instr.passed), (Kind.claimLost, Instr.claimLost)],
    exec (kc.2 v) s = .next (s.deliverReply v kc.1) := by
  simp only [List.forall_mem_cons]
  exact ⟨rfl, rfl, rfl, rfl, rfl, rfl, by simp⟩

theorem repliesReachRe : Clause.RepliesReachRe := by
  intro s kc hkc
  refine ⟨fun f fs' m taken read => ?_, fun m rest first kind => ?_⟩
  · rw [exec_reply s .frame kc hkc, deliverReply_frame taken read]
  · rw [exec_reply s .handover kc hkc, deliverReply_handover first kind]

/-! ### The `Inst` that a reply is for (R129, R140) -/

theorem instWithKey_none (s : State) (key : RouteKey) : s.instWithKey key = none ↔
    ∀ i x, s.inst? i = some x → x.state ≠ .calling → x.state ≠ .backoff → s.keyOf x ≠ key := by
  have keyed (x : Inst) : x.state.keyed = true ↔ x.state ≠ .calling ∧ x.state ≠ .backoff := by
    cases x.state <;> simp [ReState.keyed]
  unfold State.instWithKey
  rw [firstIndex_eq_none_iff]
  constructor
  · intro h i x hx calling backoff same
    have absent := h (some x) (List.mem_of_getElem? (inst?_eq_some.mp hx))
    simp [(keyed x).mpr ⟨calling, backoff⟩, same] at absent
  · rintro h (_ | x) hx
    · rfl
    · obtain ⟨i, hi⟩ := List.mem_iff_getElem?.mp hx
      rw [Bool.eq_false_iff]
      intro found
      obtain ⟨own, same⟩ := Bool.and_eq_true_iff.mp found
      exact h i x (inst?_eq_some.mpr hi) ((keyed x).mp own).1 ((keyed x).mp own).2 (by simpa using same)

theorem replyCounts_iff (s : State) (x : Inst) (rx : Option RxRec) : s.replyCounts x rx = true ↔
    (∃ o ∈ x.owners, o.asked = true ∧ o.node = s.replySource rx) ∧ ∀ r, rx = some r → r.epochMatch = true := by
  unfold State.replyCounts
  rw [Bool.and_eq_true]
  refine and_congr ?_ ?_
  · simp only [Inst.asked, List.any_eq_true, Bool.and_eq_true, beq_iff_eq, and_comm]
  · cases rx <;> simp [replyMatches]

theorem takeReply_unknown {s : State} {m : ReMsg} (mode : s.pt.mode ≠ .isolated) (other : m.kind ≠ .grant)
    (unknown : s.instWithKey m.key = none) (rx : Option RxRec) : s.takeReply m rx = s.stale := by
  unfold State.takeReply
  split
  · exact absurd rfl other
  · rw [if_neg mode, unknown]

theorem takeReply_isolated {s : State} {m : ReMsg} (mode : s.pt.mode = .isolated) (other : m.kind ≠ .grant) (rx : Option RxRec) :
    s.takeReply m rx = s := by
  unfold State.takeReply
  split
  · exact absurd rfl other
  · exact if_pos mode

section
variable {s : State} {key : RouteKey} {i : Nat} {x : Inst}

theorem takeReply_deny (mode : s.pt.mode ≠ .isolated) (keyed : s.instWithKey key = some i) (hx : s.inst? i = some x) (r : DenyReason)
    (st : Nat) (d : Option Nat) (rx : Option RxRec) : s.takeReply (.deny key r st d) rx = s.takeDeny i x r rx := by
  simp only [State.takeReply, if_neg mode, ReMsg.key, keyed, hx]

theorem takeReply_setDone (mode : s.pt.mode ≠ .isolated) (keyed : s.instWithKey key = some i) (hx : s.inst? i = some x) (a : Time)
    (rx : Option RxRec) : s.takeReply (.setDone key a) rx = s.takeSetDone i x a rx := by
  simp only [State.takeReply, if_neg mode, ReMsg.key, keyed, hx]

theorem takeReply_setFail (mode : s.pt.mode ≠ .isolated) (keyed : s.instWithKey key = some i) (hx : s.inst? i = some x) (p : Option Nat)
    (c : SetFailCause) (rx : Option RxRec) : s.takeReply (.setFail key p c) rx = s.takeSetFail i x rx := by
  simp only [State.takeReply, if_neg mode, ReMsg.key, keyed, hx]

end

/-! ### GRANT (R129, R140, R141) -/

theorem takeGrant_foreign {s : State} {key : RouteKey} (foreign : key.owner ≠ s.pt.node) (id : Nat) (rx : Option RxRec) :
    s.takeReply (.grant key id) rx = s :=
  if_pos foreign

theorem takeGrant_unknown {s : State} {key : RouteKey} (own : key.owner = s.pt.node) (unknown : s.instWithKey key = none) (id : Nat)
    (rx : Option RxRec) : s.takeReply (.grant key id) rx = s.answerStaleGrant key rx := by
  change s.takeGrant key id rx = _
  unfold State.takeGrant
  rw [if_neg (not_not_intro own), unknown]

theorem takeGrant_keyed {s : State} {key : RouteKey} {i : Nat} {x : Inst} (own : key.owner = s.pt.node)
    (keyed : s.instWithKey key = some i) (hx : s.inst? i = some x) (id : Nat) (rx : Option RxRec) :
    s.takeReply (.grant key id) rx =
      if x.state = .claiming then
        if s.replyCounts x rx = true then if s.pt.mode = .isolated then s else s.recordGrant i x id rx
        else s.answerStaleGrant key rx
      else s.stale := by
  change s.takeGrant key id rx = _
  unfold State.takeGrant
  rw [if_neg (not_not_intro own), keyed]
  dsimp only
  rw [hx]

theorem staleGrants : Clause.StaleGrants := by
  refine ⟨fun s key rx id foreign => takeGrant_foreign foreign id rx, fun s key rx id own =>
    ⟨fun unknown => takeGrant_unknown own unknown id rx, fun i x keyed hx => ?_, fun m mode other => takeReply_isolated mode other rx⟩⟩
  have taken := takeGrant_keyed own keyed hx id rx
  refine ⟨fun claiming doubted => ?_, fun past => ?_, fun isolated claiming counts => ?_⟩
  · rw [taken, if_pos claiming, if_neg (by simp [doubted])]
    rfl
  · rw [taken, if_neg past]
    rfl
  · rw [taken, if_pos claiming, if_pos counts, if_pos isolated]

/-- The `Inst` that has an owner's GRANT recorded. -/
def grantRecorded (s : State) (x : Inst) (id : Nat) (rx : Option RxRec) : Inst :=
  x.modOwner (s.replySource rx) (fun o => { o with reply := .granted id, epoch := some (s.replyEpoch rx) })

/-- The `Inst` in SETTING, the set window running (R130). -/
def settingBegun (x : Inst) : Inst :=
  { x with state := .setting, timers := { ReTimers.stopped with set := some ⟨0, 8000⟩ } }

/-- SET to an owner, as a handover or as a frame (R130). -/
def setGiven (node : Nat) (key : RouteKey) (o : OwnerEntry) (u : State) : State :=
  if o.node = node then u.handCt (.set key) else u.send .set o.node (encKey key)

theorem recordGrant_first {s : State} {x : Inst} {rx : Option RxRec}
    (first : ∀ o, x.owner? (s.replySource rx) = some o → o.hasGranted = false) (i id : Nat) : s.recordGrant i x id rx =
      if (grantRecorded s x id rx).owners.all OwnerEntry.hasGranted = true
      then (s.setInst i (some (grantRecorded s x id rx))).enterSettingRoute i else s.setInst i (some (grantRecorded s x id rx)) := by
  refine if_neg ?_
  rcases owner : x.owner? (s.replySource rx) with _ | o
  · simp
  · simp [first o owner]

theorem enterSettingRoute_eq {s : State} {i : Nat} {y : Inst} (hy : s.inst? i = some y) : s.enterSettingRoute i =
    forEach y.owners (setGiven s.pt.node (s.keyOf y)) (s.setInst i (some (settingBegun y))) := by
  unfold State.enterSettingRoute
  rw [hy]
  refine forEach_congr_on (P := fun u => u.pt = s.pt) (fun o _ u hu => ?_) (fun o _ u hu => ?_) rfl
  · unfold setGiven
    split <;> simp [hu]
  · unfold State.setTo setGiven
    rw [keyOf_congr hu, hu]

theorem setGiven_inst? (node : Nat) (key : RouteKey) (o : OwnerEntry) (u : State) (i : Nat) :
    (setGiven node key o u).inst? i = u.inst? i := by
  unfold setGiven
  split
  · rfl
  · exact inst?_of_insts (by simp) i

theorem setGiven_keeps_handovers {m : CtMsg} {u : State} (h : m ∈ u.ct.fromRe) (node : Nat) (key : RouteKey) (o : OwnerEntry) :
    m ∈ (setGiven node key o u).ct.fromRe := by
  unfold setGiven
  split
  · exact List.mem_append_left _ h
  · simpa only [send_keeps] using h

theorem setGiven_own {node : Nat} {o : OwnerEntry} (own : o.node = node) (key : RouteKey) (u : State) :
    .set key ∈ (setGiven node key o u).ct.fromRe := by
  unfold setGiven
  rw [if_pos own]
  exact List.mem_append_right _ (List.mem_singleton.mpr rfl)

/-- The own CT is handed the SET where the node is an owner. -/
theorem forEach_setGiven_own {node : Nat} {key : RouteKey} {l : List OwnerEntry} (own : ∃ o ∈ l, o.node = node) (u : State) :
    .set key ∈ (forEach l (setGiven node key) u).ct.fromRe := by
  induction l generalizing u with
  | nil => simp at own
  | cons o os ih =>
    obtain ⟨p, hp, node⟩ := own
    rcases List.mem_cons.mp hp with rfl | hp
    · exact forEach_preserves (P := fun v => .set key ∈ v.ct.fromRe) (fun q _ v hv => setGiven_keeps_handovers hv _ key q)
        (setGiven_own node key u)
    · exact ih ⟨p, hp, node⟩ _

theorem takeGrant_counts {s : State} {key : RouteKey} {i : Nat} {x : Inst} {rx : Option RxRec} (own : key.owner = s.pt.node)
    (mode : s.pt.mode ≠ .isolated) (keyed : s.instWithKey key = some i) (hx : s.inst? i = some x) (counts : s.replyCounts x rx = true)
    (claiming : x.state = .claiming) (first : ∀ o, x.owner? (s.replySource rx) = some o → o.hasGranted = false) (id : Nat) :
    s.takeReply (.grant key id) rx = if (grantRecorded s x id rx).owners.all OwnerEntry.hasGranted = true
      then forEach (grantRecorded s x id rx).owners (setGiven s.pt.node (s.keyOf x))
        (s.setInst i (some (settingBegun (grantRecorded s x id rx))))
      else s.setInst i (some (grantRecorded s x id rx)) := by
  rw [takeGrant_keyed own keyed hx, if_pos claiming, if_pos counts, if_neg mode, recordGrant_first first,
    enterSettingRoute_eq (setInst_inst?_self hx _), setInst_setInst]
  rfl

/-! ### SET-DONE (R130, R131) -/

/-- The `Inst` that has an owner's SET-DONE recorded. -/
def setDoneRecorded (s : State) (x : Inst) (a : Time) (rx : Option RxRec) : Inst :=
  x.modOwner (s.replySource rx) (fun o => { o with setDone := true, setDoneTime := some a })

theorem takeSetDone_counts {s : State} {x : Inst} {rx : Option RxRec} (setting : x.state = .setting) (counts : s.replyCounts x rx = true)
    (i : Nat) (a : Time) : s.takeSetDone i x a rx =
      if (setDoneRecorded s x a rx).owners.all (·.setDone) = true
      then (s.setInst i (some (setDoneRecorded s x a rx))).allSet i (setDoneRecorded s x a rx)
      else s.setInst i (some (setDoneRecorded s x a rx)) :=
  if_pos ⟨setting, counts⟩

theorem allSet_eq {s : State} {x : Inst} {k : Nat} (first : s.firstSect x = some k) (i : Nat) :
    s.allSet i x = if s.heldOccupied k = true then s.failAttempt i .other else s.enterClearing i := by
  unfold State.allSet
  rw [first]

theorem enterClearing_eq {s : State} {i : Nat} {x : Inst} {rc : RouteCfg} (hx : s.inst? i = some x) (route : s.routeOf x = some rc) :
    s.enterClearing i = (s.setInst i (some { x with
      state := .clearing, passed := List.replicate rc.steps.length false, timers := ReTimers.stopped })).commandSu
        (.proceed x.signal rc.dir) := by
  unfold State.enterClearing
  rw [hx]
  dsimp only
  rw [route]

theorem allSet_clear {s : State} {i k : Nat} {x y : Inst} {rc : RouteCfg} (hx : s.inst? i = some x) (route : s.routeOf y = some rc)
    (first : s.firstSect y = some k) (clear : s.heldOccupied k = false) : (s.setInst i (some y)).allSet i y =
      (s.setInst i (some { y with
        state := .clearing, passed := List.replicate rc.steps.length false, timers := ReTimers.stopped })).commandSu
          (.proceed y.signal rc.dir) := by
  have own : (s.setInst i (some y)).inst? i = some y := setInst_inst?_self hx _
  refine (allSet_eq (s := s.setInst i (some y)) first i).trans ((if_neg (Bool.eq_false_iff.mp clear)).trans ?_)
  rw [enterClearing_eq own route, setInst_setInst]

theorem repliesInClaimingAndSetting : Clause.RepliesInClaimingAndSetting := by
  intro s key rx mode own
  refine ⟨fun unknown => ⟨fun id => takeGrant_unknown own unknown id rx,
    fun r st d => takeReply_unknown (m := .deny key r st d) mode nofun unknown rx,
    fun a => takeReply_unknown (m := .setDone key a) mode nofun unknown rx⟩, fun i x keyed hx counts => ⟨fun claiming first id => ?_,
    fun claiming r st d => ?_, fun setting p c => ?_, fun setting a => ?_⟩⟩
  · have taken := takeGrant_counts own mode keyed hx counts claiming first id
    refine ⟨fun more => taken.trans (if_neg (Bool.eq_false_iff.mp more)), fun last => ?_⟩
    have begun := taken.trans (if_pos last)
    refine ⟨?_, fun here => ?_, begun⟩
    · rw [begun]
      exact forEach_preserves (P := fun u => u.inst? i = some (settingBegun (grantRecorded s x id rx)))
        (fun o _ u hu => (setGiven_inst? _ _ o u i).trans hu) (setInst_inst?_self hx _)
    · rw [begun]
      exact forEach_setGiven_own here _
  · rw [takeReply_deny mode keyed hx]
    exact if_pos ⟨claiming, counts⟩
  · rw [takeReply_setFail mode keyed hx]
    exact if_pos ⟨setting, counts⟩
  · have taken := (takeReply_setDone mode keyed hx a rx).trans (takeSetDone_counts setting counts i a)
    refine ⟨fun more => taken.trans (if_neg (Bool.eq_false_iff.mp more)), fun k rc last route first clear => ?_,
      fun k last first occupied => ?_⟩
    · exact taken.trans ((if_pos last).trans (allSet_clear (y := setDoneRecorded s x a rx) hx route first clear))
    · exact taken.trans ((if_pos last).trans
        ((allSet_eq (s := s.setInst i (some (setDoneRecorded s x a rx))) first i).trans (if_pos occupied)))

/-! ### Stale replies (R140) -/

theorem takeClaimLost_early {s : State} {x : Inst} (early : x.state = .claiming ∨ x.state = .setting) (i : Nat) (rx : Option RxRec) :
    s.takeClaimLost i x rx = if s.replyCounts x rx = true then s.failAttempt i .other else s.stale := by
  unfold State.takeClaimLost
  rcases early with state | state <;> rw [state]

theorem takeClaimLost_stale {s : State} {x : Inst} {rx : Option RxRec} (claiming : x.state ≠ .claiming) (setting : x.state ≠ .setting)
    (stale : x.asked (s.replySource rx) = false ∨ x.state = .cancelling) (i : Nat) : s.takeClaimLost i x rx = s.stale := by
  unfold State.takeClaimLost
  rcases stale with foreign | cancelling
  · cases state : x.state <;> simp_all
  · rw [cancelling]

theorem lostClaimsAndStaleReplies : Clause.LostClaimsAndStaleReplies := by
  intro s rx mode
  refine ⟨fun m other unknown => takeReply_unknown mode other unknown rx, instWithKey_none s, fun x => replyCounts_iff s x rx,
    fun key i x keyed hx => ⟨fun early counts cause p => ?_, fun early doubted cause p => ?_, fun claiming setting stale cause p => ?_,
      fun stale r st d => ?_, fun stale a => ?_, fun stale p c => ?_⟩⟩
  · rw [takeReply_claimLost mode keyed hx, takeClaimLost_early early, if_pos counts]
  · rw [takeReply_claimLost mode keyed hx, takeClaimLost_early early, if_neg (by simp [doubted])]
    rfl
  · rw [takeReply_claimLost mode keyed hx, takeClaimLost_stale claiming setting stale]
    rfl
  · rw [takeReply_deny mode keyed hx]
    exact if_neg fun both => stale.elim (· both.1) (fun doubted => Bool.noConfusion (doubted.symm.trans both.2))
  · rw [takeReply_setDone mode keyed hx]
    exact if_neg fun both => stale.elim (· both.1) (fun doubted => Bool.noConfusion (doubted.symm.trans both.2))
  · rw [takeReply_setFail mode keyed hx]
    exact if_neg fun both => stale.elim (· both.1) (fun doubted => Bool.noConfusion (doubted.symm.trans both.2))

/-- Settles O44. -/
theorem repliesOfOwners : Obligations.RepliesOfOwners :=
  ⟨repliesReachRe, repliesInClaimingAndSetting, lostClaimsAndStaleReplies, staleGrants⟩

end Sys2Proof.Proofs
end

