-- ==== Sys2Proof/Proofs/RoadTrack.lean ====
section
/-! PROOF. What pushes, pops, unlinks and body sections make of the roads, and the reports they give (R152, R154 to R156, R158, R167). -/

namespace Sys2Proof.Proofs
open Sys2Proof.Machine Sys2Proof.Laws

/-! ### Reports do not see the roads, nor the counts of pushes and pops (R167) -/

/-- The state with other road records. -/
def withRoads (s : State) (roads : List RoadRec) : State :=
  { s with yu := { s.yu with roads := roads } }

@[simp] theorem withRoads_withRoads (s : State) (a b : List RoadRec) : withRoads (withRoads s a) b = withRoads s b := rfl

theorem withRoads_self (s : State) : withRoads s s.yu.roads = s := rfl

theorem modRoad_eq (s : State) (r : Nat) (f : RoadRec → RoadRec) : s.modRoad r f = withRoads s (s.yu.roads.modify r f) := rfl

/-- A count that offering a frame neither reads nor advances. -/
def ApartFromSending (g : Counters → Counters) : Prop :=
  (∀ n, g { n with txDisplaced := bump n.txDisplaced } = { g n with txDisplaced := bump (g n).txDisplaced })
  ∧ ∀ n, g { n with txDrop := bump n.txDrop } = { g n with txDrop := bump (g n).txDrop }

/-- The count of a push (R155). -/
def pushCounted (n : Counters) : Counters := { n with pushes := bump n.pushes }

/-- The count of a pop (R156). -/
def popCounted (n : Counters) : Counters := { n with pops := bump n.pops }

theorem pushCounted_apart : ApartFromSending pushCounted := ⟨fun _ => rfl, fun _ => rfl⟩

theorem popCounted_apart : ApartFromSending popCounted := ⟨fun _ => rfl, fun _ => rfl⟩

theorem send_count {g : Counters → Counters} (apart : ApartFromSending g) (s : State) (k : Kind) (dest : Nat) (l : List Byte) :
    (s.count g).send k dest l = (s.send k dest l).count g := by
  obtain ⟨displaced, dropped⟩ := apart
  unfold State.send State.count
  dsimp only
  split
  · rfl
  · split
    · rfl
    · split
      · rfl
      · split
        · rw [displaced]
          rfl
        · rw [dropped]

theorem eventSent_count {g : Counters → Counters} (apart : ApartFromSending g) (s : State) (kind : Nat) (fields : List Byte) :
    (s.count g).eventSent kind fields = (s.eventSent kind fields).count g :=
  send_count apart { s with rp := { s.rp with serial := s.rp.serial + 1 } } _ _ _

theorem send_withRoads (s : State) (roads : List RoadRec) (k : Kind) (dest : Nat) (l : List Byte) :
    (withRoads s roads).send k dest l = withRoads (s.send k dest l) roads := by
  rw [send_eq s, send_eq (withRoads s roads), send_fs_congr (s := withRoads s roads) (t := s) rfl rfl,
    send_cnt_congr (s := withRoads s roads) (t := s) rfl rfl rfl]
  rfl

theorem eventSent_withRoads (s : State) (roads : List RoadRec) (kind : Nat) (fields : List Byte) :
    (withRoads s roads).eventSent kind fields = withRoads (s.eventSent kind fields) roads :=
  send_withRoads { s with rp := { s.rp with serial := s.rp.serial + 1 } } roads _ _ _

@[simp] theorem eventSent_yu (s : State) (kind : Nat) (fields : List Byte) : (s.eventSent kind fields).yu = s.yu := by
  rw [eventSent_eq]

@[simp] theorem eventSent_serial (s : State) (kind : Nat) (fields : List Byte) :
    (s.eventSent kind fields).rp.serial = s.rp.serial + 1 :=
  (eventSent_pu_ct_serial s kind fields).2.2

theorem send_pushes_pops (s : State) (k : Kind) (dest : Nat) (l : List Byte) :
    (s.send k dest l).cnt.pushes = s.cnt.pushes ∧ (s.send k dest l).cnt.pops = s.cnt.pops := by
  unfold State.send
  (repeat' split) <;> exact ⟨rfl, rfl⟩

@[simp] theorem eventSent_pushes_pops (s : State) (kind : Nat) (fields : List Byte) :
    (s.eventSent kind fields).cnt.pushes = s.cnt.pushes ∧ (s.eventSent kind fields).cnt.pops = s.cnt.pops :=
  send_pushes_pops { s with rp := { s.rp with serial := s.rp.serial + 1 } } _ _ _

@[simp] theorem announceGains_pushes_pops (s : State) (old : List RoadRec) :
    (s.announceGains old).cnt.pushes = s.cnt.pushes ∧ (s.announceGains old).cnt.pops = s.cnt.pops := by
  have one (r : Nat) (u : State) : (u.sendRoadChange r).cnt.pushes = u.cnt.pushes ∧ (u.sendRoadChange r).cnt.pops = u.cnt.pops := by
    unfold State.sendRoadChange
    (repeat' split) <;> simp [send_pushes_pops]
  constructor
  · refine forEach_keeps (·.cnt.pushes) _ _ (fun r u => ?_) s
    (repeat' split) <;> simp [one]
  · refine forEach_keeps (·.cnt.pops) _ _ (fun r u => ?_) s
    (repeat' split) <;> simp [one]

@[simp] theorem announceGains_roads (s : State) (old : List RoadRec) : (s.announceGains old).yu.roads = s.yu.roads := by
  simp

/-! ### A road becomes DOUBTFUL (R146, R167) -/

/-- A KNOWN road that becomes DOUBTFUL loses its offer; a DOUBTFUL one stays as it is. -/
def doubted (x : RoadRec) : RoadRec :=
  { x with cond := .doubtful, offer := if x.cond = .known then none else x.offer }

theorem doubted_known {x : RoadRec} (known : x.cond = .known) : doubted x = { x with cond := .doubtful, offer := none } := by
  rw [doubted, if_pos known]

theorem doubted_doubtful {x : RoadRec} (doubtful : x.cond = .doubtful) : doubted x = x := by
  rw [doubted, if_neg (by simp [doubtful]), ← doubtful]

theorem markDoubtful_known {s : State} {r : Nat} {x : RoadRec} (hx : s.yu.roads[r]? = some x) (known : x.cond = .known)
    (cause : DoubtCause) (tram : Option Nat) : s.markDoubtful r cause tram
      = (withRoads s (s.yu.roads.set r (doubted x))).eventSent 8 (doubtFields r cause tram) := by
  unfold State.markDoubtful
  rw [hx]
  dsimp only
  rw [if_pos known, modRoad_eq, modify_of_getElem? hx, doubted_known known]
  rfl

theorem markDoubtful_doubtful {s : State} {r : Nat} {x : RoadRec} (hx : s.yu.roads[r]? = some x) (doubtful : x.cond = .doubtful)
    (cause : DoubtCause) (tram : Option Nat) : s.markDoubtful r cause tram = s := by
  unfold State.markDoubtful
  rw [hx]
  exact if_neg (by simp [doubtful])

theorem cond_cases (c : RoadCond) : c = .known ∨ c = .doubtful := by
  cases c <;> simp

/-! ### UNLINK (R111, R152) -/

/-- An announcement reaches RE's handovers from YU, FS and the counters alone (R154). -/
theorem announceGains_eq (s : State) (old : List RoadRec) : s.announceGains old = { s with
    re := { s.re with fromYu := (s.announceGains old).re.fromYu }
    fs := (s.announceGains old).fs, cnt := (s.announceGains old).cnt } := by
  refine forEach_preserves (P := fun u => u = { s with re := { s.re with fromYu := u.re.fromYu }, fs := u.fs, cnt := u.cnt })
    (fun r _ u hu => ?_) rfl
  have one : u.sendRoadChange r = { u with re := { u.re with fromYu := (u.sendRoadChange r).re.fromYu }
                                           fs := (u.sendRoadChange r).fs, cnt := (u.sendRoadChange r).cnt } := by
    unfold State.sendRoadChange
    split
    · split
      · rw [send_eq]
        rfl
      · rfl
    · rfl
  split
  · split
    · rw [one, hu]
    · exact hu
  · exact hu

theorem unlinkFreesTheArrival : Clause.UnlinkFreesTheArrival := by
  intro s id
  have roads := unlinkArrival_roads s id
  have eq : s.unlinkArrival id = (withRoads s (s.yu.roads.map (RoadRec.unlink id))).announceGains s.yu.roads := rfl
  refine ⟨fun r x hx => ?_, ?_, ?_⟩
  · rw [roads, List.getElem?_map, hx]
    rfl
  · rw [roads, eq]
    rfl
  · rw [roads, eq, announceGains_eq]
    rfl

/-! ### POP (R156) -/

/-- What follows a change of road `r`: the road is queued for writing, and gains are announced (R154, R161). -/
def roadsSettled (old : List RoadRec) (rs : List Nat) (s : State) : State :=
  (s.queueRoads rs).announceGains old

@[simp] theorem roadsSettled_keeps (old : List RoadRec) (rs : List Nat) (s : State) :
    (roadsSettled old rs s).yu.roads = s.yu.roads ∧ (roadsSettled old rs s).rp = s.rp
    ∧ (roadsSettled old rs s).cnt.pushes = s.cnt.pushes ∧ (roadsSettled old rs s).cnt.pops = s.cnt.pops := by
  unfold roadsSettled
  simp

section
variable {s : State} {r tram : Nat} {x : RoadRec} (hx : s.yu.roads[r]? = some x)
include hx

theorem takePop_top (top : (x.stack.getLast?).map (·.tram) = some tram) : s.takePop r tram =
    roadsSettled s.yu.roads [r] ((withRoads s (s.yu.roads.set r (RoadRec.dropTram tram x))).count popCounted) := by
  have there : x.stack.any (fun e => e.tram == tram) = true := by
    obtain ⟨e, last, same⟩ := Option.map_eq_some_iff.mp top
    exact List.any_eq_true.mpr ⟨e, List.mem_of_getLast? last, by simp [same]⟩
  unfold State.takePop
  rw [hx]
  dsimp only
  rw [if_pos there, if_pos top, modRoad_eq, modify_of_getElem? hx]
  rfl

theorem takePop_deeper (top : (x.stack.getLast?).map (·.tram) ≠ some tram) (there : ∃ d ∈ x.stack, d.tram = tram) : s.takePop r tram =
    roadsSettled s.yu.roads [r]
      (if x.cond = .known
        then ((withRoads s (s.yu.roads.set r (doubted (RoadRec.dropTram tram x)))).count popCounted).eventSent 8
          (doubtFields r .outOfOrder (some tram))
        else (withRoads s (s.yu.roads.set r (doubted (RoadRec.dropTram tram x)))).count popCounted) := by
  obtain ⟨d, hd, same⟩ := there
  have found : x.stack.any (fun e => e.tram == tram) = true := List.any_eq_true.mpr ⟨d, hd, by simp [same]⟩
  have own : (withRoads s (s.yu.roads.set r (RoadRec.dropTram tram x))).yu.roads[r]? = some (RoadRec.dropTram tram x) :=
    List.getElem?_set_self (List.getElem?_eq_some_iff.mp hx).1
  unfold State.takePop
  rw [hx]
  dsimp only
  rw [if_pos found, if_neg top, modRoad_eq, modify_of_getElem? hx]
  refine congrArg (roadsSettled s.yu.roads [r]) ?_
  rcases cond_cases x.cond with known | doubtful
  · have marked := markDoubtful_known own known .outOfOrder (some tram)
    rw [if_pos known, eventSent_count popCounted_apart]
    refine congrArg (State.count · popCounted) (marked.trans ?_)
    simp [withRoads]
  · have kept := markDoubtful_doubtful own doubtful .outOfOrder (some tram)
    rw [if_neg (by simp [doubtful]), doubted_doubtful (x := RoadRec.dropTram tram x) doubtful]
    exact congrArg (State.count · popCounted) kept

theorem takePop_missing (missing : ∀ d ∈ x.stack, d.tram ≠ tram) : s.takePop r tram =
    if x.cond = .known then
      ((withRoads s (s.yu.roads.set r (doubted x))).eventSent 8 (doubtFields r .unknownDeparture (some tram))).queueRoads [r]
    else s := by
  unfold State.takePop
  rw [hx]
  dsimp only
  rw [if_neg (by simpa using missing)]
  split
  next known => rw [markDoubtful_known hx known]
  · rfl

end

theorem popTakesTheTram : Clause.PopTakesTheTram := by
  intro s r tram x hx
  refine ⟨fun front e stack same => ?_, fun front e stack other there => ?_, fun missing => ⟨fun known => ?_, fun doubtful => ?_⟩⟩
  · have pop := takePop_top (tram := tram) hx (by simp [stack, same])
    have roads : (s.takePop r tram).yu.roads = s.yu.roads.set r (RoadRec.dropTram tram x) := by
      rw [pop]
      simp [withRoads, State.count]
    refine ⟨roads, ?_, ?_, ?_⟩
    · rw [pop]
      simp [withRoads, State.count, popCounted]
    · rw [pop]
      simp [withRoads, State.count]
    · rw [roads]
      exact pop
  · have pop := takePop_deeper (tram := tram) hx (by simp [stack, other]) there
    have roads : (s.takePop r tram).yu.roads = s.yu.roads.set r (doubted (RoadRec.dropTram tram x)) := by
      rw [pop]
      split <;> simp [withRoads, State.count]
    have inside : r < s.yu.roads.length := (List.getElem?_eq_some_iff.mp hx).1
    refine ⟨doubted (RoadRec.dropTram tram x), ?_, rfl, rfl, rfl, rfl, fun j apart => ?_, ?_, ?_, ?_⟩
    · rw [roads, List.getElem?_set_self inside]
    · rw [roads, List.getElem?_set_ne apart.symm]
    · rw [pop]
      split <;> simp [withRoads, State.count, popCounted]
    · rw [pop]
      split <;> simp [withRoads, State.count]
    · rw [roads]
      exact pop
  · have pop := (takePop_missing hx missing).trans (if_pos known)
    have roads : (s.takePop r tram).yu.roads = s.yu.roads.set r (doubted x) := by
      rw [pop]
      simp [withRoads]
    refine ⟨doubted_known known ▸ roads, ?_, ?_, ?_⟩
    · rw [pop]
      simp [withRoads]
    · rw [pop]
      simp [withRoads]
    · rw [roads]
      exact pop
  · exact (takePop_missing hx missing).trans (if_neg (by simp [doubtful]))

/-! ### Body sections (R158) -/

/-- A road whose body is CLEAR. -/
def emptiedRoad (x : RoadRec) : RoadRec :=
  { x with stack := [], cond := .known }

theorem emptiedRoad_same {x : RoadRec} (stack : x.stack = []) (known : x.cond = .known) : emptiedRoad x = x := by
  rw [emptiedRoad, ← stack, ← known]

/-- The report of a road that has been emptied, where it had entries (R158, R167). -/
def emptyingTold (r : Nat) (x : RoadRec) (s : State) : State :=
  if x.stack = [] then s else s.eventSent 7 [byte r, byte x.stack.length]

section
variable {s : State} {r : Nat} {x : RoadRec} (hx : s.yu.roads[r]? = some x)
include hx

theorem bodyCleared_eq : s.bodyCleared r = if x.stack = [] ∧ x.cond = .known then s
    else roadsSettled s.yu.roads [r] (emptyingTold r x (withRoads s (s.yu.roads.set r (emptiedRoad x)))) := by
  unfold State.bodyCleared
  rw [hx]
  dsimp only
  rw [modRoad_eq, modify_of_getElem? hx]
  have told (u : State) : (if x.stack.isEmpty = true then u else u.reportRoadEmptied r x.stack.length) = emptyingTold r x u := by
    simp only [emptyingTold, List.isEmpty_iff]
    rfl
  rw [told]
  simp only [Bool.and_eq_true, List.isEmpty_iff, beq_iff_eq]
  split
  next same =>
    obtain ⟨stack, known⟩ := same
    rw [emptyingTold, if_pos stack]
    exact congrArg (withRoads s) ((congrArg (s.yu.roads.set r) (emptiedRoad_same stack known)).trans (set_same hx))
  · rfl

theorem bodyCleared_roads : (s.bodyCleared r).yu.roads = s.yu.roads.set r (emptiedRoad x) := by
  rw [bodyCleared_eq hx]
  split
  next same => rw [emptiedRoad_same same.1 same.2, set_same hx]
  · unfold emptyingTold
    split <;> simp [withRoads]

theorem bodyCleared_serial : (s.bodyCleared r).rp.serial = if x.stack = [] then s.rp.serial else s.rp.serial + 1 := by
  rw [bodyCleared_eq hx]
  split
  next same => rw [if_pos same.1]
  · unfold emptyingTold
    split <;> simp [withRoads]

theorem bodyOccupied_empty (known : x.cond = .known) (stack : x.stack = []) (unlinked : ∀ a ∈ x.arrivals, a.link = none) :
    s.bodyOccupied r = ((withRoads s (s.yu.roads.set r (doubted x))).eventSent 8
      (doubtFields r .unexpectedArrival none)).queueRoads [r] := by
  unfold State.bodyOccupied
  rw [hx]
  dsimp only
  rw [if_pos, markDoubtful_known hx known]
  simpa [stack, known] using unlinked

theorem bodyOccupied_expected (expected : x.cond = .doubtful ∨ x.stack ≠ [] ∨ ∃ a ∈ x.arrivals, a.link ≠ none) :
    s.bodyOccupied r = s := by
  unfold State.bodyOccupied
  rw [hx]
  refine if_neg fun unexpected => ?_
  simp only [Bool.and_eq_true, List.isEmpty_iff, Bool.not_eq_true', List.any_eq_false, Option.isSome_iff_ne_none, beq_iff_eq] at unexpected
  obtain ⟨⟨stack, unlinked⟩, known⟩ := unexpected
  rcases expected with doubtful | stacked | ⟨a, ha, linked⟩
  · simp [doubtful] at known
  · exact stacked stack
  · exact unlinked a ha linked

theorem bodyOccupied_roads : ∃ y, (s.bodyOccupied r).yu.roads = s.yu.roads.set r y := by
  by_cases expected : x.cond = .doubtful ∨ x.stack ≠ [] ∨ ∃ a ∈ x.arrivals, a.link ≠ none
  · exact ⟨x, by rw [bodyOccupied_expected hx expected, set_same hx]⟩
  · simp only [not_or, not_not, not_exists, not_and] at expected
    obtain ⟨certain, stack, unlinked⟩ := expected
    exact ⟨doubted x, by rw [bodyOccupied_empty hx ((cond_cases x.cond).resolve_right certain) stack unlinked]; simp [withRoads]⟩

end

theorem yuNotice_elsewhere {s : State} {n : SectNotice} (h : firstIndex (fun c : RoadCfg => c.body == n.sect) s.yard.roads = none) :
    s.yuNotice n = s := by
  unfold State.yuNotice
  rw [h]

theorem yuNotice_body {s : State} {n : SectNotice} {r : Nat}
    (h : firstIndex (fun c : RoadCfg => c.body == n.sect) s.yard.roads = some r) : s.yuNotice n =
      if n.after = .clear then s.bodyCleared r else if n.before = .clear then s.bodyOccupied r else s := by
  unfold State.yuNotice
  rw [h]

theorem yuNotice_roads {s : State} {n : SectNotice} {r : Nat} {x : RoadRec}
    (h : firstIndex (fun c : RoadCfg => c.body == n.sect) s.yard.roads = some r) (hx : s.yu.roads[r]? = some x) :
    ∃ y, (s.yuNotice n).yu.roads = s.yu.roads.set r y := by
  rw [yuNotice_body h]
  split
  · exact ⟨_, bodyCleared_roads hx⟩
  · split
    · exact bodyOccupied_roads hx
    · exact ⟨x, (set_same hx).symm⟩

theorem bodySectionsCorrectRoads : Clause.BodySectionsCorrectRoads := by
  intro k s n rest first taken
  have notice : exec (.yuSectionChange k) s = .next (taken.yuNotice n) := by
    change execYuSectionChange k s = _
    unfold execYuSectionChange
    rw [first]
  refine ⟨fun elsewhere => notice.trans (congrArg _ (yuNotice_elsewhere (s := taken) elsewhere)), fun r x body road =>
    ⟨_, notice, fun j apart => ?_, fun clear => ?_, fun before after => ?_, fun before after => ?_, ?_⟩⟩
  all_goals have hx : taken.yu.roads[r]? = some x := road
  all_goals have cases := yuNotice_body (s := taken) (n := n) body
  · obtain ⟨y, roads⟩ := yuNotice_roads (s := taken) (n := n) body hx
    rw [roads]
    exact List.getElem?_set_ne apart.symm
  · rw [if_pos clear] at cases
    rw [cases]
    refine ⟨?_, bodyCleared_serial hx, fun stack known => ?_, fun changes => ?_⟩
    · rw [bodyCleared_roads hx]
      exact List.getElem?_set_self (List.getElem?_eq_some_iff.mp hx).1
    · rw [bodyCleared_eq hx, if_pos ⟨stack, known⟩]
    · rw [bodyCleared_eq hx, if_neg]
      · rfl
      · rintro ⟨stack, known⟩
        rcases changes with stacked | doubtful
        · exact stacked stack
        · simp [doubtful] at known
  · rw [if_neg after, if_pos before] at cases
    rw [cases]
    refine ⟨fun known stack unlinked => ?_, bodyOccupied_expected hx⟩
    rw [bodyOccupied_empty hx known stack unlinked]
    refine ⟨?_, by simp [withRoads, taken], by rw [doubted_known known]; rfl⟩
    simp only [queueRoads_yu_roads, eventSent_yu, ← doubted_known known]
    exact List.getElem?_set_self (List.getElem?_eq_some_iff.mp hx).1
  · rw [cases, if_neg after, if_neg before]
  · simp [taken]

end Sys2Proof.Proofs
end

