-- ==== Sys2Proof/Proofs/RoadPush.lean ====
section
/-! PROOF. A push: the arrival it names is stacked, and an earlier entry for the tram goes from every road (R146, R155, R167). -/

namespace Sys2Proof.Proofs
open Sys2Proof.Machine Sys2Proof.Laws

/-! ### PUSH (R155) -/

/-- An operation that each item commutes with may come first. -/
theorem forEach_commutes {α : Type} {f : α → State → State} {φ : State → State} (h : ∀ a u, f a (φ u) = φ (f a u)) (l : List α)
    (s : State) : forEach l f (φ s) = φ (forEach l f s) := by
  induction l generalizing s with
  | nil => rfl
  | cons a as ih => rw [forEach, forEach, h, ih]

/-- Road records, those of several indices DOUBTFUL. -/
def doubtedAt (l : List Nat) (roads : List RoadRec) : List RoadRec :=
  roads.mapIdx (fun k x => if k ∈ l then doubted x else x)

theorem doubtedAt_getElem? (l : List Nat) (roads : List RoadRec) (j : Nat) :
    (doubtedAt l roads)[j]? = (roads[j]?).map (fun x => if j ∈ l then doubted x else x) :=
  List.getElem?_mapIdx

theorem doubted_doubted (x : RoadRec) : doubted (doubted x) = doubted x :=
  doubted_doubtful rfl

theorem doubtedAt_cons (k : Nat) (ks : List Nat) (roads : List RoadRec) :
    doubtedAt (k :: ks) roads = doubtedAt ks (roads.modify k doubted) := by
  apply List.ext_getElem?
  intro j
  rw [doubtedAt_getElem?, doubtedAt_getElem?, List.getElem?_modify]
  rcases roads[j]? with _ | x
  · rfl
  · by_cases hk : k = j
    · subst hk
      by_cases later : k ∈ ks <;> simp [later, doubted_doubted]
    · simp [hk, Ne.symm hk]

/-- The report of road `k`, which held a tram that is stacked elsewhere, where it was KNOWN. -/
def duplicateTold (before : List RoadRec) (tram k : Nat) (s : State) : State :=
  if (before[k]?).any (fun y => y.cond == .known) = true then s.eventSent 8 (doubtFields k .duplicateTram (some tram)) else s

theorem duplicateTold_withRoads (before : List RoadRec) (tram k : Nat) (s : State) (roads : List RoadRec) :
    duplicateTold before tram k (withRoads s roads) = withRoads (duplicateTold before tram k s) roads := by
  unfold duplicateTold
  split
  · exact eventSent_withRoads s roads _ _
  · rfl

theorem duplicateTold_count (before : List RoadRec) (tram k : Nat) (s : State) :
    duplicateTold before tram k (s.count pushCounted) = (duplicateTold before tram k s).count pushCounted := by
  unfold duplicateTold
  split
  · exact eventSent_count pushCounted_apart s _ _
  · rfl

theorem duplicateTold_keeps (before : List RoadRec) (tram k : Nat) (s : State) :
    (duplicateTold before tram k s).yu = s.yu ∧ (duplicateTold before tram k s).cnt.pushes = s.cnt.pushes := by
  unfold duplicateTold
  split <;> simp

theorem markDoubtful_duplicate {s : State} {k : Nat} {before : List RoadRec}
    (same : (s.yu.roads[k]?).map (·.cond) = (before[k]?).map (·.cond)) (tram : Nat) :
    s.markDoubtful k .duplicateTram (some tram) = duplicateTold before tram k (withRoads s (s.yu.roads.modify k doubted)) := by
  have told : (before[k]?).any (fun y => y.cond == .known) = ((s.yu.roads[k]?).map (·.cond)).any (· == .known) := by
    rw [same, Option.any_map]
  unfold duplicateTold
  rw [told]
  rcases hx : s.yu.roads[k]? with _ | x
  · have unchanged : s.yu.roads.modify k doubted = s.yu.roads := by
      rw [List.modify_eq_set_getElem?, hx]
      rfl
    unfold State.markDoubtful
    rw [hx, unchanged]
    rfl
  · rw [modify_of_getElem? hx]
    rcases cond_cases x.cond with known | doubtful
    · rw [markDoubtful_known hx known, if_pos (by simp [known])]
    · rw [markDoubtful_doubtful hx doubtful, if_neg (by simp [doubtful]), doubted_doubtful doubtful, set_same hx,
        withRoads_self]

/-- Several roads become DOUBTFUL, each KNOWN one with its report. -/
theorem forEach_markDoubtful {l : List Nat} (nodup : l.Nodup) {before : List RoadRec} (tram : Nat) {s : State}
    (same : ∀ k ∈ l, (s.yu.roads[k]?).map (·.cond) = (before[k]?).map (·.cond)) :
    forEach l (fun k u => u.markDoubtful k .duplicateTram (some tram)) s
      = forEach l (duplicateTold before tram) (withRoads s (doubtedAt l s.yu.roads)) := by
  induction l generalizing s with
  | nil =>
    have none : doubtedAt [] s.yu.roads = s.yu.roads := by
      apply List.ext_getElem?
      simp [doubtedAt_getElem?]
    rw [none]
    rfl
  | cons k ks ih =>
    obtain ⟨hk, nodup⟩ := List.nodup_cons.mp nodup
    have one := markDoubtful_duplicate (same k List.mem_cons_self) tram
    have roads : (s.markDoubtful k .duplicateTram (some tram)).yu.roads = s.yu.roads.modify k doubted := by
      rw [one, (duplicateTold_keeps before tram k _).1]
      rfl
    rw [forEach, forEach, ih nodup fun j hj => ?_, roads, one, ← duplicateTold_withRoads, withRoads_withRoads, doubtedAt_cons]
    have apart : k ≠ j := fun eq => hk (eq ▸ hj)
    rw [roads, List.getElem?_modify_ne _ _ apart]
    exact same j (List.mem_cons_of_mem k hj)

/-- The roads that hold an entry for a tram (R155). -/
theorem roadsHolding_eq (s : State) (tram : Nat) : s.roadsHolding tram = (List.range s.yu.roads.length).filter (fun k =>
    (s.yu.roads[k]?).any (fun y => y.stack.any (fun e => e.tram == tram))) := by
  refine List.filter_congr fun k _ => ?_
  rcases s.yu.roads[k]? with _ | y <;> rfl

theorem mem_roadsHolding {s : State} {k tram : Nat} {y : RoadRec} (hy : s.yu.roads[k]? = some y) :
    k ∈ s.roadsHolding tram ↔ ∃ e ∈ y.stack, e.tram = tram := by
  have inside : k < s.yu.roads.length := (List.getElem?_eq_some_iff.mp hy).1
  rw [roadsHolding_eq, List.mem_filter, hy]
  simp [inside]

/-- A road with an arrival stacked at the entry end. -/
def stacked (a : Arrival) (x : RoadRec) : RoadRec :=
  { x with arrivals := x.arrivals.erase a, stack := x.stack ++ [a.tram] }

/-- The roads after a push: no earlier entry for the tram, the roads that held one DOUBTFUL, and the arrival on its stack. -/
def pushedRoads (s : State) (r : Nat) (a : Arrival) : List RoadRec :=
  (doubtedAt (s.roadsHolding a.tram.tram) (s.yu.roads.map (RoadRec.dropTram a.tram.tram))).modify r (stacked a)

theorem pushArrival_eq (s : State) (r : Nat) (a : Arrival) : s.pushArrival r a =
    roadsSettled s.yu.roads (s.roadsHolding a.tram.tram ++ [r]) (forEach (s.roadsHolding a.tram.tram)
      (duplicateTold s.yu.roads a.tram.tram) ((withRoads s (pushedRoads s r a)).count pushCounted)) := by
  have nodup : (s.roadsHolding a.tram.tram).Nodup := List.nodup_range.filter _
  have marked := forEach_markDoubtful nodup (before := s.yu.roads) a.tram.tram
    (s := withRoads s (s.yu.roads.map (RoadRec.dropTram a.tram.tram))) fun k _ => by
      simp only [withRoads, List.getElem?_map, Option.map_map]
      rfl
  have outside (roads : List RoadRec) := forEach_commutes (f := duplicateTold s.yu.roads a.tram.tram) (φ := (withRoads · roads))
    (fun k u => duplicateTold_withRoads _ _ k u roads) (s.roadsHolding a.tram.tram) s
  have counted := forEach_commutes (f := duplicateTold s.yu.roads a.tram.tram) (φ := (State.count · pushCounted))
    (duplicateTold_count s.yu.roads a.tram.tram) (s.roadsHolding a.tram.tram) (withRoads s (pushedRoads s r a))
  refine congrArg (roadsSettled s.yu.roads (s.roadsHolding a.tram.tram ++ [r])) ?_
  refine Eq.trans (congrArg (fun u => (u.modRoad r (stacked a)).count pushCounted) (marked.trans (outside _))) ?_
  exact ((counted.trans (congrArg (State.count · pushCounted) (outside _))).symm : _)

theorem pushArrival_roads (s : State) (r : Nat) (a : Arrival) : (s.pushArrival r a).yu.roads = pushedRoads s r a
    ∧ (s.pushArrival r a).cnt.pushes = bump s.cnt.pushes := by
  have yu (u : State) := forEach_keeps (·.yu) (s.roadsHolding a.tram.tram) (duplicateTold s.yu.roads a.tram.tram)
    (fun k v => (duplicateTold_keeps _ _ k v).1) u
  have pushes (u : State) := forEach_keeps (·.cnt.pushes) (s.roadsHolding a.tram.tram) (duplicateTold s.yu.roads a.tram.tram)
    (fun k v => (duplicateTold_keeps _ _ k v).2) u
  rw [pushArrival_eq]
  simp only [roadsSettled_keeps, yu, pushes]
  exact ⟨rfl, rfl⟩

theorem pushedRoads_at {s : State} {j : Nat} {y : RoadRec} (hy : s.yu.roads[j]? = some y) (r : Nat) (a : Arrival) :
    ∃ z, (pushedRoads s r a)[j]? = some z
      ∧ z.stack = y.stack.filter (fun e => e.tram != a.tram.tram) ++ (if j = r then [a.tram] else [])
      ∧ z.arrivals = (if j = r then y.arrivals.erase a else y.arrivals)
      ∧ ((∃ e ∈ y.stack, e.tram = a.tram.tram) → z.cond = .doubtful ∧ z.offer = (if y.cond = .known then none else y.offer))
      ∧ ((∀ e ∈ y.stack, e.tram ≠ a.tram.tram) → z.cond = y.cond ∧ z.offer = y.offer) := by
  have holds := mem_roadsHolding (tram := a.tram.tram) hy
  have clear : (∀ e ∈ y.stack, e.tram ≠ a.tram.tram) → j ∉ s.roadsHolding a.tram.tram := fun free held => by
    obtain ⟨e, he, same⟩ := holds.mp held
    exact free e he same
  unfold pushedRoads
  rw [List.getElem?_modify, doubtedAt_getElem?, List.getElem?_map, hy]
  by_cases here : r = j
  · subst here
    refine ⟨_, rfl, ?_, ?_, fun held => ?_, fun free => ?_⟩
    · by_cases held : r ∈ s.roadsHolding a.tram.tram <;> simp [held, stacked, doubted, RoadRec.dropTram]
    · by_cases held : r ∈ s.roadsHolding a.tram.tram <;> simp [held, stacked, doubted, RoadRec.dropTram]
    · simp only [if_pos (holds.mpr held), if_true]
      exact ⟨rfl, rfl⟩
    · simp [clear free, stacked, RoadRec.dropTram]
  · refine ⟨_, rfl, ?_, ?_, fun held => ?_, fun free => ?_⟩
    · by_cases held : j ∈ s.roadsHolding a.tram.tram <;> simp [held, here, Ne.symm here, doubted, RoadRec.dropTram]
    · by_cases held : j ∈ s.roadsHolding a.tram.tram <;> simp [held, here, Ne.symm here, doubted, RoadRec.dropTram]
    · simp only [if_pos (holds.mpr held), if_neg here]
      exact ⟨rfl, rfl⟩
    · simp [clear free, here, RoadRec.dropTram]

theorem takePush_named {s : State} {r : Nat} {call : CallId} {key : RouteKey} {x : RoadRec} {a : Arrival}
    (hx : s.yu.roads[r]? = some x) (named : x.arrivals.find? (fun a => a.isFor call key) = some a) (tram : Nat) :
    s.takePush r call key tram = s.pushArrival r a := by
  unfold State.takePush
  rw [hx, Option.bind_some, named]

theorem takePush_unnamed {s : State} {r : Nat} {call : CallId} {key : RouteKey} {x : RoadRec}
    (hx : s.yu.roads[r]? = some x) (unnamed : x.arrivals.find? (fun a => a.isFor call key) = none) (tram : Nat) :
    s.takePush r call key tram = if x.cond = .known then
      ((withRoads s (s.yu.roads.set r (doubted x))).eventSent 8 (doubtFields r .unrecordedArrival (some tram))).queueRoads [r] else s := by
  unfold State.takePush
  rw [hx, Option.bind_some, unnamed]
  dsimp only
  rcases cond_cases x.cond with known | doubtful
  · rw [if_pos (by simp [State.roadKnown, hx, known]), if_pos known, markDoubtful_known hx known]
  · rw [if_neg (by simp [State.roadKnown, hx, doubtful]), if_neg (by simp [doubtful]), markDoubtful_doubtful hx doubtful]

theorem pushStacksTheArrival : Clause.PushStacksTheArrival := by
  intro s r call key tram x hx
  refine ⟨fun a named => ?_, fun unnamed => ⟨fun known => ?_, fun doubtful => ?_⟩⟩
  · have push := takePush_named hx named tram
    obtain ⟨roads, pushes⟩ := pushArrival_roads s r a
    rw [push, roads]
    refine ⟨fun j y hy => pushedRoads_at hy r a, pushes, ?_⟩
    rw [← roadsHolding_eq]
    exact pushArrival_eq s r a
  · have push := (takePush_unnamed hx unnamed tram).trans (if_pos known)
    have roads : (s.takePush r call key tram).yu.roads = s.yu.roads.set r (doubted x) := by
      rw [push]
      simp [withRoads]
    refine ⟨doubted_known known ▸ roads, ?_, ?_⟩
    · rw [push]
      simp [withRoads]
    · rw [roads]
      exact push
  · exact (takePush_unnamed hx unnamed tram).trans (if_neg (by simp [doubtful]))

/-- Settles O50. -/
theorem roadsFollowTheTrack : Obligations.RoadsFollowTheTrack :=
  ⟨doubtReportsNameTheirCause, bodySectionsCorrectRoads, pushStacksTheArrival, popTakesTheTram, unlinkFreesTheArrival⟩

end Sys2Proof.Proofs
end

