-- ==== Sys2Proof/Proofs/SignalReports.lean ====
section
/-! PROOF. What RE does with SU's reports about an entry signal: PROVED, CLEAR_FAIL and LAMP_FAULT (R131, R132, R140). -/

namespace Sys2Proof.Proofs
open Sys2Proof.Machine Sys2Proof.Laws

/-! ### Each command takes the oldest report about its signal -/

theorem exec_proved {s : State} {g g' : Nat} {rest : List SuReport}
    (h : takeFirst (fun r => r.signal == g) s.re.reports = some (.proved g', rest)) :
    exec (.proved g) s = .next ({ s with re := { s.re with reports := rest } }.takeProved g) := by
  unfold exec execProved
  dsimp only
  rw [h]

theorem exec_clearFail {s : State} {g g' : Nat} {rest : List SuReport}
    (h : takeFirst (fun r => r.signal == g) s.re.reports = some (.clearFail g', rest)) :
    exec (.clearFail g) s = .next ({ s with re := { s.re with reports := rest } }.takeClearFail g) := by
  unfold exec execClearFail
  dsimp only
  rw [h]

theorem exec_lampFault {s : State} {g g' : Nat} {rest : List SuReport}
    (h : takeFirst (fun r => r.signal == g) s.re.reports = some (.lampFault g', rest)) :
    exec (.lampFault g) s = .next ({ s with re := { s.re with reports := rest } }.takeLampFault g) := by
  unfold exec execLampFault
  dsimp only
  rw [h]

/-! ### PROVED (R131, R140) -/

theorem takeProved_unused {s : State} {g : Nat} (unused : s.instAt g = none) : s.takeProved g = s.commandSu (.stop g) := by
  unfold State.takeProved
  rw [unused]

/-- PROVED sets the route that waits for it in CLEARING, with its approach timer (R131). -/
theorem takeProved_clearing {s : State} {g i : Nat} {x : Inst} {rc : RouteCfg} (used : s.instAt g = some i)
    (hx : s.inst? i = some x) (clearing : x.state = .clearing) (route : s.routeOf x = some rc) :
    s.takeProved g = (s.setInst i (some { x with
      state := .clear, timers := { ReTimers.stopped with approach := some ⟨0, 1000 * rc.approach⟩ } })).count
        (fun c => { c with routesSet := bump c.routesSet }) := by
  unfold State.takeProved
  rw [used]
  dsimp only
  rw [hx]
  dsimp only
  rw [if_pos clearing, route]
  rfl

/-- A PROVED that comes too late for the route at its signal is answered with STOP (R140). -/
theorem takeProved_late {s : State} {g i : Nat} {x : Inst} (used : s.instAt g = some i) (hx : s.inst? i = some x)
    (late : x.state ≠ .clearing) : s.takeProved g = s.commandSu (.stop g) := by
  unfold State.takeProved
  rw [used]
  dsimp only
  rw [hx]
  exact if_neg late

/-! ### CLEAR_FAIL and LAMP_FAULT (R131, R132, R140) -/

theorem takeClearFail_unused {s : State} {g : Nat} (unused : s.instAt g = none) : s.takeClearFail g = s := by
  unfold State.takeClearFail
  rw [unused]
  rfl

theorem takeClearFail_used {s : State} {g i : Nat} {x : Inst} (used : s.instAt g = some i) (hx : s.inst? i = some x) :
    s.takeClearFail g = if x.state = .clearing then (s.commandSu (.stop g)).letGo i x .clearFail else s := by
  unfold State.takeClearFail
  rw [used, Option.bind_some, hx]
  rfl

theorem takeLampFault_unused {s : State} {g : Nat} (unused : s.instAt g = none) : s.takeLampFault g = s := by
  unfold State.takeLampFault
  rw [unused]
  rfl

theorem takeLampFault_used {s : State} {g i : Nat} {x : Inst} (used : s.instAt g = some i) (hx : s.inst? i = some x) :
    s.takeLampFault g = if x.state = .clear then s.enterCancelling i .lamp else s := by
  unfold State.takeLampFault
  rw [used, Option.bind_some, hx]
  rfl

/-- Settles O45: a command takes its report off the list, which moves no `Inst`, so each rule above is met at the state it leaves. -/
theorem signalReportsReachRe : Obligations.SignalReportsReachRe := by
  intro s g g' rest taken
  refine ⟨fun report => ?proved, fun report => ?clearFail, fun report => ?lampFault⟩
  case proved =>
    rw [exec_proved report]
    exact ⟨fun unused => congrArg Host.Outcome.next (takeProved_unused (s := taken) unused),
      fun i x rc used hx clearing route => congrArg Host.Outcome.next (takeProved_clearing (s := taken) used hx clearing route),
      fun i x used hx late => congrArg Host.Outcome.next (takeProved_late (s := taken) used hx late)⟩
  case clearFail =>
    rw [exec_clearFail report]
    exact ⟨fun unused => congrArg Host.Outcome.next (takeClearFail_unused (s := taken) unused),
      fun i x used hx => congrArg Host.Outcome.next (takeClearFail_used (s := taken) used hx)⟩
  case lampFault =>
    rw [exec_lampFault report]
    exact ⟨fun unused => congrArg Host.Outcome.next (takeLampFault_unused (s := taken) unused),
      fun i x used hx => congrArg Host.Outcome.next (takeLampFault_used (s := taken) used hx)⟩

end Sys2Proof.Proofs
end

