-- ==== Sys2Proof/Proofs/RunOutCheck.lean ====
section
/-! PROOF. The run-out check (R157). -/

namespace Sys2Proof.Proofs
open Sys2Proof.Machine Sys2Proof.Laws

section
variable {s : State} {r tram : Nat} {x : RoadRec} (hx : s.yu.roads[r]? = some x)
include hx

/-- YU refuses exactly the tram that stands on a KNOWN road behind another one. -/
theorem runOutAccepts_iff : s.runOutAccepts r tram = true ↔
    x.cond = .doubtful ∨ (x.stack.getLast?).map (·.tram) = some tram ∨ ∀ d ∈ x.stack, d.tram ≠ tram := by
  unfold State.runOutAccepts
  rw [hx]
  simp [or_assoc]

theorem runOutMark_missing (known : x.cond = .known) (missing : ∀ d ∈ x.stack, d.tram ≠ tram) : s.runOutMark r tram =
    ((withRoads s (s.yu.roads.set r (doubted x))).eventSent 8 (doubtFields r .unknownDeparture (some tram))).queueRoads [r] := by
  unfold State.runOutMark
  rw [hx]
  dsimp only
  rw [if_pos ⟨known, by simpa using missing⟩, markDoubtful_known hx known]

theorem runOutMark_same (h : x.cond = .doubtful ∨ ∃ d ∈ x.stack, d.tram = tram) : s.runOutMark r tram = s := by
  unfold State.runOutMark
  rw [hx]
  refine if_neg ?_
  rintro ⟨known, missing⟩
  rcases h with doubtful | ⟨d, hd, same⟩
  · simp [doubtful] at known
  · exact List.any_eq_false.mp missing d hd (by simp [same])

end

theorem runOutCheckRows : Clause.RunOutCheckRows := by
  intro s r tram x hx
  have accepts := runOutAccepts_iff (tram := tram) hx
  refine ⟨fun doubtful => ⟨accepts.mpr (.inl doubtful), runOutMark_same hx (.inl doubtful)⟩, fun known =>
    ⟨fun front e stack same => ?_, fun front e stack other there => ?_, fun missing => ?_⟩⟩
  · exact ⟨accepts.mpr (.inr (.inl (by simp [stack, same]))), runOutMark_same hx (.inr ⟨e, by simp [stack], same⟩)⟩
  · have refused : ¬ s.runOutAccepts r tram = true := by
      rw [accepts]
      rintro (doubtful | top | missing)
      · simp [known] at doubtful
      · simp [stack, other] at top
      · obtain ⟨d, hd, same⟩ := there
        exact missing d hd same
    exact ⟨eq_false_of_ne_true refused, runOutMark_same hx (.inr there)⟩
  · refine ⟨accepts.mpr (.inr (.inr missing)), ?_⟩
    rw [runOutMark_missing hx known missing, doubted_known known]
    rfl

/-- Settles O51. -/
theorem runOutCheckTable : Obligations.RunOutCheckTable :=
  ⟨runOutCheckRows, doubtReportsNameTheirCause⟩

end Sys2Proof.Proofs
end

