-- ==== Sys2Proof/Proofs/RoadWrites.lean ====
section
/-! PROOF. ROAD_WRITE_DONE and ROAD_WRITE_FAIL (R161, R162, R177). -/

namespace Sys2Proof.Proofs
open Sys2Proof.Machine Sys2Proof.Laws

/-- The state in which a road write has ended, and has left the memory as given. -/
def writeEnded (s : State) (mem : List Host.Cell) : State :=
  { s with mi := { s.mi with mem := mem, writing := none } }

/-- The count of a completed write (R162). -/
def writeCounted (n : Counters) : Counters := { n with roadWrites := bump n.roadWrites }

/-- The count of a failed write (R162). -/
def failCounted (n : Counters) : Counters := { n with roadWriteFails := bump n.roadWriteFails }

/-- Queueing roads reaches the write in hand and YU alone (R161). -/
theorem queueRoads_eq (s : State) (rs : List Nat) : s.queueRoads rs =
    { s with mi := { s.mi with writing := (s.queueRoads rs).mi.writing }, yu := (s.queueRoads rs).yu } := by
  unfold State.queueRoads State.serveRoadQueue
  split
  · split <;> rfl
  · rfl

/-- The state after a completed write, before the next road is handed over (R177). -/
def writeDone (s : State) (r : Nat) (content : List Byte) : State :=
  (writeEnded s (writeBytes s.mi.mem (roadAddr r) content)).count writeCounted

/-- The state after a failed write, before its road is queued again: its record holds free bytes (log entry 9). -/
def writeFailed (s : State) (r : Nat) (content : List Byte) : State :=
  { (writeEnded s (writeBytes s.mi.mem (roadAddr r) (freeBytes s.freeIdx content.length))).count failCounted with
    freeIdx := s.freeIdx + content.length }

section
variable {s : State} {r : Nat} {content : List Byte} (hw : s.mi.writing = some (r, content))
include hw

theorem exec_roadWriteDone : exec .roadWriteDone s = .next ((writeDone s r content).queueRoads []) := by
  unfold exec execRoadWriteDone
  dsimp only
  rw [hw]
  rfl

theorem exec_roadWriteFail : exec .roadWriteFail s = .next ((writeFailed s r content).queueRoads [r]) := by
  unfold exec execRoadWriteFail
  dsimp only
  rw [hw]
  rfl

/-- A record that MI writes lies inside the memory (R181). -/
theorem roadRecord_fits (inv : MemoryInv s) {l : List Byte} (len : l.length = 35) : roadAddr r + l.length ≤ Config.memoryBytes := by
  obtain ⟨-, -, -, -, inHand⟩ := inv
  have := (inHand r content hw).1
  simp only [roadAddr, Config.memoryBytes, len]
  omega

/-- What MI writes to a record leaves every byte outside it. -/
theorem roadRecord_outside (inv : MemoryInv s) {l : List Byte} (len : l.length = 35) {a : Nat}
    (outside : a < 8000 + 40 * r ∨ 8000 + 40 * r + 35 ≤ a) :
    readByte (writeBytes s.mi.mem (roadAddr r) l) a = readByte s.mi.mem a :=
  have ⟨wf, _⟩ := inv
  readByte_writeBytes_outside wf (roadRecord_fits hw inv len) (by rw [len]; exact outside)

end

/-- A failed write queues its road behind the others, where it does not wait there already. -/
theorem queuedRoads_again (q : Nat) (rest : List Nat) (r : Nat) :
    queuedRoads (q :: rest) [r] = q :: (if r ∈ q :: rest then rest else rest ++ [r]) := by
  change (if r ∈ q :: rest then q :: rest else q :: rest ++ [r]) = _
  split <;> rfl

theorem writesInHandEnd : Clause.WritesInHandEnd := by
  intro s r content inv hw
  have ⟨wf, _, _, _, inHand⟩ := inv
  have len : content.length = 35 := (inHand r content hw).2
  have freeLen : (freeBytes s.freeIdx content.length).length = 35 := by rw [freeBytes_length, len]
  refine ⟨⟨_, exec_roadWriteDone hw, ?content, fun a outside => ?doneOutside, ?doneCount, fun empty => ?doneLast,
      fun q rest x queue hx => ?doneNext, ?doneFrame⟩,
    ⟨_, exec_roadWriteFail hw, fun a outside => ?failOutside, ?failCount, fun x empty hx => ?failAlone,
      fun q rest x queue hx => ?failNext, ?failFrame⟩, encRoad_length⟩
  case content =>
    simp only [queueRoads_keeps]
    exact len ▸ readBytes_writeBytes wf (roadRecord_fits hw inv len)
  case doneOutside =>
    simp only [queueRoads_keeps]
    exact roadRecord_outside hw inv len outside
  case failOutside =>
    simp only [queueRoads_keeps]
    exact roadRecord_outside hw inv freeLen outside
  case doneCount | failCount =>
    simp only [queueRoads_keeps]
    rfl
  case doneLast =>
    rw [queueRoads_nothing (s := writeDone s r content) rfl (rs := []) empty]
    exact ⟨rfl, rfl⟩
  case doneNext =>
    rw [queueRoads_idle (s := writeDone s r content) rfl (rs := []) queue hx]
    exact ⟨rfl, rfl⟩
  case failAlone =>
    have alone : queuedRoads s.yu.queue [r] = [r] := by
      rw [empty]
      rfl
    rw [queueRoads_idle (s := writeFailed s r content) rfl alone hx, ← empty]
    exact ⟨rfl, rfl⟩
  case failNext =>
    have behind : queuedRoads s.yu.queue [r] = q :: (if r ∈ q :: rest then rest else rest ++ [r]) := by
      rw [queue, queuedRoads_again]
    rw [queueRoads_idle (s := writeFailed s r content) rfl behind hx]
    exact ⟨rfl, rfl⟩
  case doneFrame | failFrame =>
    rw [queueRoads_eq]
    rfl

/-- Settles O53. -/
theorem roadWritesEnd : Obligations.RoadWritesEnd :=
  ⟨changedRoadsAreQueued, writesInHandEnd⟩

end Sys2Proof.Proofs
end

