-- ==== Sys2Proof/Proofs/RoadChanges.lean ====
section
/-! PROOF. ROAD-CHANGE (R154), and what it leaves of the state in which road records were replaced. -/

namespace Sys2Proof.Proofs
open Sys2Proof.Machine Sys2Proof.Laws

/-! ### Counters that an announcement leaves -/

theorem send_counter {g : Counters → Counter} (displaced : ∀ n, g { n with txDisplaced := bump n.txDisplaced } = g n)
    (dropped : ∀ n, g { n with txDrop := bump n.txDrop } = g n) (s : State) (k : Kind) (dest : Nat) (l : List Byte) :
    g (s.send k dest l).cnt = g s.cnt := by
  unfold State.send
  split
  · rfl
  · split
    · rfl
    · split
      · rfl
      · split
        · exact displaced _
        · exact dropped _

theorem announceGains_counter {g : Counters → Counter} (displaced : ∀ n, g { n with txDisplaced := bump n.txDisplaced } = g n)
    (dropped : ∀ n, g { n with txDrop := bump n.txDrop } = g n) (s : State) (old : List RoadRec) :
    g (s.announceGains old).cnt = g s.cnt := by
  have one (r : Nat) (u : State) : g (u.sendRoadChange r).cnt = g u.cnt := by
    unfold State.sendRoadChange
    split
    · split
      · exact send_counter displaced dropped u _ _ _
      · rfl
    · rfl
  refine forEach_keeps (fun u => g u.cnt) _ _ (fun r u => ?_) s
  split
  · split
    · exact one r u
    · rfl
  · rfl

/-! ### The roads that gained (R154) -/

/-- Road `r` has become newly able to take trams between two moments. -/
def gainedAt (old new : List RoadRec) (r : Nat) : Bool :=
  match old[r]?, new[r]? with
  | some a, some b => roadGained a b
  | _, _ => false

/-- The roads that have, in rising index. -/
def gainedRoads (old new : List RoadRec) : List Nat :=
  (List.range old.length).filter (gainedAt old new)

theorem roadGained_self (x : RoadRec) : roadGained x x = false := by
  cases h : x.cond <;> simp [roadGained, h]

theorem gainedAt_self (roads : List RoadRec) (r : Nat) : gainedAt roads roads r = false := by
  unfold gainedAt
  cases roads[r]? with
  | none => rfl
  | some x => exact roadGained_self x

theorem gainedRoads_self (roads : List RoadRec) : gainedRoads roads roads = [] :=
  List.filter_eq_nil_iff.mpr fun r _ => by simp [gainedAt_self]

theorem gainedRoads_inside {old new : List RoadRec} {r : Nat} (h : r ∈ gainedRoads old new) :
    r < old.length ∧ ∃ x, new[r]? = some x := by
  obtain ⟨inside, gained⟩ := List.mem_filter.mp h
  refine ⟨List.mem_range.mp inside, ?_⟩
  cases hx : new[r]? with
  | none =>
    unfold gainedAt at gained
    rw [hx] at gained
    split at gained
    next found => cases found
    next => cases gained
  | some x => exact ⟨x, rfl⟩

/-- An announcement runs over the roads that gained; it changes no road itself. -/
theorem announceGains_gained (s : State) (old : List RoadRec) :
    s.announceGains old = forEach (gainedRoads old s.yu.roads) (fun r u => u.sendRoadChange r) s := by
  rw [gainedRoads, ← forEach_filter]
  refine forEach_congr_on (P := fun u => u.yu = s.yu) (fun r _ u hu => ?_) (fun r _ u hu => ?_) rfl
  · split <;> simp [hu]
  · rw [← hu]
    unfold gainedAt
    rcases old[r]? with _ | a
    · rfl
    · rcases u.yu.roads[r]? with _ | b <;> rfl

theorem announceGains_same (s : State) : s.announceGains s.yu.roads = s := by
  rw [announceGains_gained, gainedRoads_self]
  rfl

/-- Outside RUNNING no road change is announced, and none is handed over (log entry 54). -/
theorem announceGains_elsewhere {s : State} (mode : s.pt.mode ≠ .running) (old : List RoadRec) : s.announceGains old = s := by
  rw [announceGains_gained]
  exact forEach_id fun r _ => if_neg mode

/-! ### What is announced in RUNNING (R154) -/

/-- The ROAD-CHANGE of road `r`, as a frame and as a handover. -/
def roadChangeGiven (yard : Yard) (roads : List RoadRec) (r : Nat) (u : State) : State :=
  match yard.roads[r]?, roads[r]? with
  | some c, some x =>
    let sent := u.send .roadChange 63 [byte r, byte x.cond.code, byte (c.capacity - x.used)]
    { sent with re := { sent.re with fromYu := sent.re.fromYu ++ [.roadChange r] } }
  | _, _ => u

theorem sendRoadChange_running {u : State} (running : u.pt.mode = .running) (r : Nat) :
    u.sendRoadChange r = roadChangeGiven u.yard u.yu.roads r u := by
  unfold State.sendRoadChange roadChangeGiven
  rw [if_pos running]
  rfl

theorem announceGains_running {s : State} (running : s.pt.mode = .running) (old : List RoadRec) :
    s.announceGains old = forEach (gainedRoads old s.yu.roads) (roadChangeGiven s.yard s.yu.roads) s := by
  rw [announceGains_gained]
  refine forEach_congr_on (P := fun u => u.pt = s.pt ∧ u.yard = s.yard ∧ u.yu = s.yu) ?_ ?_ ⟨rfl, rfl, rfl⟩
  · rintro r - u ⟨pt, yard, yu⟩
    rw [← yard, ← yu, ← sendRoadChange_running (by rw [pt, running])]
    simp [pt, yard, yu]
  · rintro r - u ⟨pt, yard, yu⟩
    rw [sendRoadChange_running (by rw [pt, running]), yard, yu]

theorem roadChangeGiven_re {yard : Yard} {roads : List RoadRec} {r : Nat} {c : RoadCfg} {x : RoadRec} (hc : yard.roads[r]? = some c)
    (hx : roads[r]? = some x) (u : State) :
    (roadChangeGiven yard roads r u).re = { u.re with fromYu := u.re.fromYu ++ [.roadChange r] } := by
  unfold roadChangeGiven
  rw [hc, hx]
  simp

/-- Each road announced hands RE one change, in order. -/
theorem forEach_roadChangeGiven_re {yard : Yard} {roads : List RoadRec} {l : List Nat}
    (there : ∀ r ∈ l, (∃ c, yard.roads[r]? = some c) ∧ ∃ x, roads[r]? = some x) (s : State) :
    (forEach l (roadChangeGiven yard roads) s).re = { s.re with fromYu := s.re.fromYu ++ l.map FromYu.roadChange } := by
  induction l generalizing s with
  | nil => simp [forEach]
  | cons r rs ih =>
    obtain ⟨⟨c, hc⟩, x, hx⟩ := there r List.mem_cons_self
    rw [forEach, ih (fun k hk => there k (List.mem_cons_of_mem r hk)), roadChangeGiven_re hc hx]
    simp

theorem gainsAreAnnounced : Clause.GainsAreAnnounced := by
  intro s old configured
  refine ⟨fun running => ⟨?_, announceGains_running running old⟩, ?_, ?_⟩
  · rw [announceGains_running running]
    refine forEach_roadChangeGiven_re (fun r hr => ?_) s
    obtain ⟨inside, road⟩ := gainedRoads_inside hr
    exact ⟨⟨_, List.getElem?_eq_getElem (configured ▸ inside)⟩, road⟩
  · rintro (elsewhere | none)
    · exact announceGains_elsewhere elsewhere old
    · have none : gainedRoads old s.yu.roads = [] := none
      rw [announceGains_gained, none]
      rfl
  · rw [announceGains_eq]

/-! ### Road records replaced, and the gains announced (R147, R151, R153, R154, R159, R160) -/

section
variable {s u : State} {roads : List RoadRec} (h : u = (withRoads s roads).announceGains s.yu.roads)
include h

theorem replaced_yu : u.yu = { s.yu with roads := roads } := by
  rw [h, announceGains_eq]
  rfl

theorem replaced_announced : u = (withRoads s u.yu.roads).announceGains s.yu.roads := by
  rw [replaced_yu h]
  exact h

/-- It reaches YU, RE, FS and the counters alone. -/
theorem replaced_blocks : u = { s with yu := u.yu, re := u.re, fs := u.fs, cnt := u.cnt } := by
  rw [h, announceGains_eq]
  rfl

/-- Of YU it reaches the roads, and of RE the handovers from YU. -/
theorem replaced_frame : u =
    { s with yu := { s.yu with roads := u.yu.roads }, re := { s.re with fromYu := u.re.fromYu }, fs := u.fs, cnt := u.cnt } := by
  rw [h, announceGains_eq]
  rfl

end

end Sys2Proof.Proofs
end

