-- ==== Sys2Proof/Proofs/Awards.lean ====
section
/-! PROOF. Awards and withdrawals (R151, R153). -/

namespace Sys2Proof.Proofs
open Sys2Proof.Machine Sys2Proof.Laws

/-! ### What one road gives and takes (R147, R151, R153) -/

theorem eligible_iff (x : RoadRec) (capacity p : Nat) :
    x.eligible capacity p = true ↔ x.cond = .known ∧ x.offer = none ∧ x.used + p ≤ capacity := by
  simp [RoadRec.eligible, and_assoc]

theorem dropCall_unoffered (call : CallId) (epoch : Epoch) (x : RoadRec) : x.dropCall call epoch false =
    { x with arrivals := x.arrivals.filter (fun a => !(a.call == call && a.epoch == epoch && a.link == none)) } := by
  obtain ⟨cond, stack, arrivals, offer⟩ := x
  cases offer <;> simp [RoadRec.dropCall]

theorem acceptedRoad_eq (x : RoadRec) (call : CallId) (epoch : Epoch) (t : TramRec) (direct : Bool) : x.accept call epoch t direct =
    { x with
      arrivals := x.arrivals ++ [⟨call, epoch, t, direct, none, none, false⟩]
      offer := match x.offer with
        | some o => if o.call = call ∧ o.epoch = epoch then none else some o
        | none => none } := by
  obtain ⟨cond, stack, arrivals, offer⟩ := x
  cases offer <;> simp [RoadRec.accept]

theorem withdraw_eq (x : RoadRec) (call : CallId) (epoch : Epoch) : x.withdraw call epoch =
    { x with
      arrivals := x.arrivals.filter (fun a => !(a.call == call && a.epoch == epoch))
      offer := match x.offer with
        | some o => if o.call = call then none else some o
        | none => none } := by
  obtain ⟨cond, stack, arrivals, offer⟩ := x
  cases offer <;> simp [RoadRec.withdraw]

theorem takesAward_iff (x : RoadRec) (capacity p : Nat) (call : CallId) (epoch : Epoch) :
    x.takesAward capacity call epoch p = true ↔
      x.used + p ≤ capacity ∧ ((∃ e, x.offer = some ⟨call, epoch, e⟩) ∨ (x.cond = .known ∧ x.offer = none)) := by
  rcases offer : x.offer with _ | ⟨c, e, expiry⟩
  · simp [RoadRec.takesAward, RoadRec.eligible, offer, and_comm]
  · simp [RoadRec.takesAward, RoadRec.eligible, offer, and_comm]

/-! ### Linked arrivals (R147, R151) -/

theorem linkedCall_iff (s : State) (call : CallId) :
    s.linkedCall call = true ↔ ∃ x ∈ s.yu.roads, ∃ a ∈ x.arrivals, a.call = call ∧ a.link ≠ none := by
  simp [State.linkedCall, Option.isSome_iff_ne_none]

/-- A call ID that is cleared keeps its linked arrivals. -/
theorem linkedCall_dropCall (s : State) (call : CallId) (epoch : Epoch) (offers : Bool) :
    (withRoads s (s.yu.roads.map (RoadRec.dropCall call epoch offers))).linkedCall call = s.linkedCall call := by
  rw [Bool.eq_iff_iff, linkedCall_iff, linkedCall_iff]
  constructor
  · rintro ⟨y, hy, a, ha, named, linked⟩
    obtain ⟨x, hx, rfl⟩ := List.mem_map.mp hy
    exact ⟨x, hx, a, List.mem_of_mem_filter ha, named, linked⟩
  · rintro ⟨x, hx, a, ha, named, linked⟩
    exact ⟨_, List.mem_map.mpr ⟨x, hx, rfl⟩, a, List.mem_filter.mpr ⟨ha, by simp [Option.isSome_iff_ne_none.mpr linked]⟩, named, linked⟩

/-! ### An award (R151) -/

/-- The count of an award taken. -/
def takenCounted (n : Counters) : Counters := { n with awardsTaken := bump n.awardsTaken }

/-- The count of an award ignored. -/
def ignoredCounted (n : Counters) : Counters := { n with awardsIgnored := bump n.awardsIgnored }

/-- The roads without the unlinked arrivals of a call. -/
def withoutCall (s : State) (call : CallId) (epoch : Epoch) : List RoadRec :=
  s.yu.roads.map (RoadRec.dropCall call epoch false)

/-- An award is counted, and the gains of the arrivals that went before it are announced. -/
def awardSettled (s : State) (roads : List RoadRec) (g : Counters → Counters) : State :=
  ((withRoads s roads).count g).announceGains s.yu.roads

section
variable {s : State} {call : CallId} {epoch : Epoch} {road : Nat} {t : TramRec}

theorem takeAward_configured {c : RoadCfg} {x : RoadRec} (hc : s.yard.roads[road]? = some c)
    (hx : (withoutCall s call epoch)[road]? = some x) (direct : Bool) : s.takeAward call epoch road t direct =
      if s.linkedCall call = false ∧ x.arrivals.length < 4 ∧ x.takesAward c.capacity call epoch t.places = true
      then awardSettled s ((withoutCall s call epoch).set road (x.accept call epoch t direct)) takenCounted
      else awardSettled s (withoutCall s call epoch) ignoredCounted := by
  have cleared : (withRoads s (withoutCall s call epoch)).linkedCall call = s.linkedCall call := linkedCall_dropCall s call epoch false
  have conditions : (!(withRoads s (withoutCall s call epoch)).linkedCall call && decide (x.arrivals.length < 4)
      && x.takesAward c.capacity call epoch t.places) = true
      ↔ s.linkedCall call = false ∧ x.arrivals.length < 4 ∧ x.takesAward c.capacity call epoch t.places = true := by
    simp [cleared, and_assoc]
  have found : (s.yu.roads.map (RoadRec.dropCall call epoch false))[road]? = some x := hx
  unfold State.takeAward
  dsimp only
  rw [hc, found]
  by_cases met : s.linkedCall call = false ∧ x.arrivals.length < 4 ∧ x.takesAward c.capacity call epoch t.places = true
  · rw [if_pos met]
    refine congrArg (State.announceGains · s.yu.roads) ((if_pos (conditions.mpr met)).trans ?_)
    exact congrArg (fun l => (withRoads s l).count takenCounted) (modify_of_getElem? hx _)
  · rw [if_neg met]
    exact congrArg (State.announceGains · s.yu.roads) (if_neg (mt conditions.mp met))

theorem takeAward_unconfigured (h : s.yard.roads[road]? = none ∨ (withoutCall s call epoch)[road]? = none) (direct : Bool) :
    s.takeAward call epoch road t direct = awardSettled s (withoutCall s call epoch) ignoredCounted := by
  unfold State.takeAward
  dsimp only
  refine congrArg (State.announceGains · s.yu.roads) ?_
  split
  next c x hc hx =>
    rcases h with unconfigured | absent
    · simp [hc] at unconfigured
    · simp [withoutCall, hx] at absent
  · rfl

theorem takeAward_ignored (h : s.yard.roads[road]? = none ∨ (withoutCall s call epoch)[road]? = none ∨ s.linkedCall call = true
      ∨ ∃ c x, s.yard.roads[road]? = some c ∧ (withoutCall s call epoch)[road]? = some x
        ∧ (4 ≤ x.arrivals.length ∨ x.takesAward c.capacity call epoch t.places = false))
    (direct : Bool) : s.takeAward call epoch road t direct = awardSettled s (withoutCall s call epoch) ignoredCounted := by
  rcases hc : s.yard.roads[road]? with _ | c
  · exact takeAward_unconfigured (.inl hc) direct
  rcases hx : (withoutCall s call epoch)[road]? with _ | x
  · exact takeAward_unconfigured (.inr hx) direct
  rw [takeAward_configured hc hx]
  refine if_neg ?_
  rintro ⟨unlinked, room, takes⟩
  simp [hc, hx, unlinked, takes] at h
  omega

end

/-- What an award leaves: the roads as they were settled, its count, and what the announcement reaches. -/
theorem awardSettled_eq {s u : State} {roads : List RoadRec} {g : Counters → Counters} (h : u = awardSettled s roads g) :
    u.yu.roads = roads
    ∧ u = { s with yu := { s.yu with roads := u.yu.roads }, cnt := u.cnt, re := { s.re with fromYu := u.re.fromYu }, fs := u.fs } := by
  have same : u.yu.roads = roads := by
    rw [h, awardSettled, announceGains_roads]
    rfl
  refine ⟨same, ?_⟩
  rw [same, h, awardSettled, announceGains_eq]
  rfl

theorem awardSettled_counts (s : State) (roads : List RoadRec) (g : Counters → Counters) :
    (awardSettled s roads g).cnt.awardsTaken = (g s.cnt).awardsTaken
    ∧ (awardSettled s roads g).cnt.awardsIgnored = (g s.cnt).awardsIgnored :=
  ⟨announceGains_counter (g := (·.awardsTaken)) (fun _ => rfl) (fun _ => rfl) _ _,
    announceGains_counter (g := (·.awardsIgnored)) (fun _ => rfl) (fun _ => rfl) _ _⟩

/-- Every award is settled, one way or the other. -/
theorem takeAward_settled (s : State) (call : CallId) (epoch : Epoch) (road : Nat) (t : TramRec) (direct : Bool) :
    ∃ roads g, s.takeAward call epoch road t direct = awardSettled s roads g := by
  rcases hc : s.yard.roads[road]? with _ | c
  · exact ⟨_, _, takeAward_unconfigured (.inl hc) direct⟩
  rcases hx : (withoutCall s call epoch)[road]? with _ | x
  · exact ⟨_, _, takeAward_unconfigured (.inr hx) direct⟩
  rw [takeAward_configured hc hx]
  split <;> exact ⟨_, _, rfl⟩

theorem awardsAreTakenOrIgnored : Clause.AwardsAreTakenOrIgnored := by
  refine ⟨fun x capacity p call epoch => takesAward_iff x capacity p call epoch, fun s call epoch road t direct => ?_⟩
  refine ⟨fun c x hc hx unlinked room takes => ?_, fun refused => ?_, ?_, fun j x hx => ?_⟩
  · have award := (takeAward_configured hc hx direct).trans (if_pos ⟨unlinked, room, takes⟩)
    obtain ⟨roads, -⟩ := awardSettled_eq award
    obtain ⟨taken, ignored⟩ := awardSettled_counts s ((withoutCall s call epoch).set road (x.accept call epoch t direct)) takenCounted
    refine ⟨?_, fun j apart => ?_, ?_, ?_, ?_⟩
    · have inside : road < (withoutCall s call epoch).length := (List.getElem?_eq_some_iff.mp hx).1
      rw [roads, List.getElem?_set_self inside]
      exact congrArg some (acceptedRoad_eq x call epoch t direct)
    · rw [roads]
      exact List.getElem?_set_ne apart.symm
    · rw [award, taken]
      rfl
    · rw [award, ignored]
      rfl
    · rw [roads]
      exact award
  · have award := takeAward_ignored refused direct
    obtain ⟨roads, -⟩ := awardSettled_eq award
    obtain ⟨taken, ignored⟩ := awardSettled_counts s (withoutCall s call epoch) ignoredCounted
    refine ⟨roads, ?_, ?_, award⟩
    · rw [award, ignored]
      rfl
    · rw [award, taken]
      rfl
  · obtain ⟨roads, g, award⟩ := takeAward_settled s call epoch road t direct
    exact (awardSettled_eq award).2
  · rw [List.getElem?_map, hx]
    exact congrArg some (dropCall_unoffered call epoch x)

/-! ### A withdrawal (R153) -/

theorem withdrawalLetsGo : Clause.WithdrawalLetsGo := by
  intro s call epoch
  have withdrawn : s.takeWithdraw call epoch = (withRoads s (s.yu.roads.map (RoadRec.withdraw call epoch))).announceGains s.yu.roads := rfl
  refine ⟨fun r x hx => ?_, replaced_announced withdrawn, replaced_frame withdrawn⟩
  rw [replaced_yu withdrawn, List.getElem?_map, hx]
  exact congrArg some (withdraw_eq x call epoch)

/-- Settles O49. -/
theorem awardsAndWithdrawals : Obligations.AwardsAndWithdrawals :=
  ⟨awardsAreTakenOrIgnored, withdrawalLetsGo, gainsAreAnnounced⟩

end Sys2Proof.Proofs
end

