-- ==== Sys2Proof/Proofs/BidCalls.lean ====
section
/-! PROOF. Bid calls: how they reach YU, the score of a road, the road that is bid, and the earlier use of a call ID (R147 to R149). -/

namespace Sys2Proof.Proofs
open Sys2Proof.Machine Sys2Proof.Laws

/-! ### The traffic of YU (R147, R151, R153) -/

theorem callerTrusted_iff (rx : RxRec) (call : CallId) :
    callerTrusted rx call = true ↔ rx.usable = true ∧ rx.epochMatch = true ∧ rx.source = call.caller := by
  simp [callerTrusted, and_assoc]

/-- The oldest handover is taken where it is of the command's kind (log entry 4). -/
theorem withYuHandover_taken {s : State} {p : YuMsg → Bool} {m : YuMsg} {rest : List YuMsg} (first : s.yu.fromRe = m :: rest)
    (kind : p m = true) : s.withYuHandover p = { s with yu := { s.yu with fromRe := rest } }.yuTakes m := by
  unfold State.withYuHandover
  rw [first]
  exact if_pos kind

theorem bidCallFrame_eq (f : RxFrame) (s : State) : bidCallFrame f s =
    if s.pt.mode = .running ∧ f.rx.usable = true ∧ f.rx.epochMatch = true ∧ f.rx.source = (decCall f.payload 0).caller
    then s.takeBidCall (decCall f.payload 0) f.rx.epoch (decTram f.payload 2) else s := by
  simp only [bidCallFrame, callerTrusted_iff]

theorem awardFrame_eq (f : RxFrame) (s : State) : awardFrame f s =
    if s.pt.mode = .running ∧ f.rx.usable = true ∧ f.rx.epochMatch = true ∧ f.rx.source = (decCall f.payload 0).caller
    then s.takeAward (decCall f.payload 0) f.rx.epoch (byteAt f.payload 2) (decTram f.payload 3) (byteAt f.payload 7 % 2 = 1)
    else s.count ignoredCounted := by
  simp only [awardFrame, callerTrusted_iff]
  rfl

theorem yuTrafficReachesYu : Clause.YuTrafficReachesYu := by
  intro s
  refine ⟨fun f fs' turn => ?_, fun f fs' turn => ?_, fun f fs' turn => ?_, fun call t rest first => ?_,
    fun call road t direct rest first => ?_, fun call rest first => ?_⟩
  · refine congrArg Host.Outcome.next ((withFrame_some turn _).trans ?_)
    rw [bidCallFrame_eq]
    exact apply_ite State.finishFrame _ _ _
  · refine congrArg Host.Outcome.next ((withFrame_some turn _).trans ?_)
    rw [awardFrame_eq]
    exact apply_ite State.finishFrame _ _ _
  · exact congrArg Host.Outcome.next ((withFrame_some turn _).trans (apply_ite State.finishFrame _ _ _))
  · exact congrArg Host.Outcome.next (withYuHandover_taken first rfl)
  · exact congrArg Host.Outcome.next (withYuHandover_taken first rfl)
  · exact congrArg Host.Outcome.next (withYuHandover_taken first rfl)

/-! ### The score (R149) -/

theorem roadScore : Clause.RoadScore := by
  intro x c t
  refine ⟨fun empty => ?_, fun front e occupied => ?_⟩
  · have slots : x.occupantSlots = [] := empty
    simp [RoadRec.score, RoadRec.rawScore, RoadRec.freePlaces, slots]
  · have slots : x.occupantSlots = front ++ [e] := occupied
    have written : (x.stack ++ x.arrivals.map (·.tram)).map (·.slot) = x.occupantSlots := rfl
    simp only [RoadRec.score, RoadRec.rawScore, RoadRec.freePlaces, written, slots, List.getLast?_concat, slotDistance]

/-! ### The road that is bid (R148) -/

/-- Road `i` of a list is eligible with the score `sc`, and no eligible one has a lower score, or an equal one at a lower index. -/
def BestAt (t : TramRec) (cs : List RoadCfg) (rs : List RoadRec) (i sc : Nat) : Prop :=
  (∃ c x, cs[i]? = some c ∧ rs[i]? = some x ∧ x.eligible c.capacity t.places = true ∧ sc = x.score c t)
  ∧ ∀ (j : Nat) (d : RoadCfg) (y : RoadRec), cs[j]? = some d → rs[j]? = some y → y.eligible d.capacity t.places = true →
      sc < y.score d t ∨ (sc = y.score d t ∧ i ≤ j)

/-- No road of a list is eligible. -/
def NoneEligible (t : TramRec) (cs : List RoadCfg) (rs : List RoadRec) : Prop :=
  ∀ (j : Nat) (d : RoadCfg) (y : RoadRec), cs[j]? = some d → rs[j]? = some y → ¬ y.eligible d.capacity t.places = true

section
variable {t : TramRec} {c : RoadCfg} {x : RoadRec} {cs : List RoadCfg} {rs : List RoadRec} {i sc : Nat}

theorem bestAt_head (eligible : x.eligible c.capacity t.places = true)
    (least : ∀ (j : Nat) (d : RoadCfg) (y : RoadRec), cs[j]? = some d → rs[j]? = some y → y.eligible d.capacity t.places = true →
      x.score c t ≤ y.score d t) : BestAt t (c :: cs) (x :: rs) 0 (x.score c t) := by
  refine ⟨⟨c, x, rfl, rfl, eligible, rfl⟩, fun j d y hd hy other => ?_⟩
  cases j with
  | zero =>
    cases hd
    cases hy
    exact .inr ⟨rfl, Nat.le_refl 0⟩
  | succ j =>
    have := least j d y hd hy other
    omega

theorem BestAt.least (best : BestAt t cs rs i sc) {j : Nat} {d : RoadCfg} {y : RoadRec} (hd : cs[j]? = some d) (hy : rs[j]? = some y)
    (eligible : y.eligible d.capacity t.places = true) : sc ≤ y.score d t := by
  obtain ⟨-, least⟩ := best
  have := least j d y hd hy eligible
  omega

theorem bestAt_tail (later : BestAt t cs rs i sc) (head : x.eligible c.capacity t.places = true → sc < x.score c t) :
    BestAt t (c :: cs) (x :: rs) (i + 1) sc := by
  obtain ⟨there, least⟩ := later
  refine ⟨there, fun j d y hd hy other => ?_⟩
  cases j with
  | zero =>
    cases hd
    cases hy
    exact .inl (head other)
  | succ j =>
    have := least j d y hd hy other
    omega

theorem noneEligible_cons (head : ¬ x.eligible c.capacity t.places = true) (later : NoneEligible t cs rs) :
    NoneEligible t (c :: cs) (x :: rs) := by
  intro j d y hd hy
  cases j with
  | zero =>
    cases hd
    cases hy
    exact head
  | succ j => exact later j d y hd hy

end

/-- The road of a call, among roads indexed from `k`: the best one, or none where none is eligible. -/
theorem bestRoadFrom_spec (t : TramRec) (k : Nat) (cs : List RoadCfg) (rs : List RoadRec) :
    (bestRoadFrom t k cs rs = none ∧ NoneEligible t cs rs) ∨ ∃ i sc, bestRoadFrom t k cs rs = some (k + i, sc) ∧ BestAt t cs rs i sc := by
  induction cs generalizing rs k with
  | nil => exact .inl ⟨rfl, fun j d y hd => by simp at hd⟩
  | cons c cs ih =>
    cases rs with
    | nil => exact .inl ⟨rfl, fun j d y _ hy => by simp at hy⟩
    | cons x rs =>
      unfold bestRoadFrom
      dsimp only
      by_cases eligible : x.eligible c.capacity t.places = true
      · rw [if_pos eligible]
        rcases ih (k + 1) rs with ⟨later, none⟩ | ⟨i, sc, later, best⟩
        · rw [later]
          exact .inr ⟨0, _, rfl, bestAt_head eligible fun j d y hd hy other => absurd other (none j d y hd hy)⟩
        · rw [later]
          dsimp only
          by_cases le : x.score c t ≤ sc
          · rw [if_pos le]
            exact .inr ⟨0, _, rfl, bestAt_head eligible fun j d y hd hy other => le.trans (best.least hd hy other)⟩
          · rw [if_neg le, Nat.add_right_comm]
            exact .inr ⟨i + 1, sc, rfl, bestAt_tail best fun _ => Nat.lt_of_not_le le⟩
      · rw [if_neg eligible]
        rcases ih (k + 1) rs with ⟨later, none⟩ | ⟨i, sc, later, best⟩
        · exact .inl ⟨later, noneEligible_cons eligible none⟩
        · rw [later, Nat.add_right_comm]
          exact .inr ⟨i + 1, sc, rfl, bestAt_tail best fun head => absurd head eligible⟩

theorem bestRoad_best {s : State} {t : TramRec} {r sc : Nat} (h : s.bestRoad t = some (r, sc)) :
    BestAt t s.yard.roads s.yu.roads r sc := by
  rcases bestRoadFrom_spec t 0 s.yard.roads s.yu.roads with ⟨none, -⟩ | ⟨i, sc', found, best⟩
  · rw [State.bestRoad, none] at h
    cases h
  · rw [State.bestRoad, found, Nat.zero_add] at h
    cases h
    exact best

theorem bestRoad_none {s : State} {t : TramRec} (h : s.bestRoad t = none) : NoneEligible t s.yard.roads s.yu.roads := by
  rcases bestRoadFrom_spec t 0 s.yard.roads s.yu.roads with ⟨-, none⟩ | ⟨i, sc, found, -⟩
  · exact none
  · rw [State.bestRoad, found] at h
    cases h

/-! ### The answer (R148) -/

/-- The count of a bid. -/
def bidCounted (n : Counters) : Counters := { n with bidsSent := bump n.bidsSent }

/-- The roads with an offer on road `r`, which expires after 1000 ms. -/
def offeredRoads (s : State) (call : CallId) (epoch : Epoch) (r : Nat) : List RoadRec :=
  s.yu.roads.modify r (fun x => { x with offer := some ⟨call, epoch, s.time + 1000⟩ })

section
variable {s : State} {call : CallId} {epoch : Epoch} {t : TramRec}

theorem answerCall_none (h : s.bestRoad t = none) : s.answerCall call epoch t = s := by
  unfold State.answerCall
  rw [h]

variable {r sc : Nat} (best : s.bestRoad t = some (r, sc))
include best

theorem answerCall_own (own : call.caller = s.pt.node) : s.answerCall call epoch t =
    ((withRoads s (offeredRoads s call epoch r)).count bidCounted).handReFromYu (.bid call r sc) := by
  unfold State.answerCall
  rw [best]
  exact if_pos own

theorem answerCall_other (other : call.caller ≠ s.pt.node) : s.answerCall call epoch t =
    ((withRoads s (offeredRoads s call epoch r)).count bidCounted).send .bid call.caller (encBid call r sc) := by
  unfold State.answerCall
  rw [best]
  exact if_neg other

theorem answerCall_eq : (s.answerCall call epoch t).yu = { s.yu with roads := offeredRoads s call epoch r }
    ∧ (s.answerCall call epoch t).cnt.bidsSent = bump s.cnt.bidsSent
    ∧ s.answerCall call epoch t = { s with
        yu := (s.answerCall call epoch t).yu, cnt := (s.answerCall call epoch t).cnt
        re := (s.answerCall call epoch t).re, fs := (s.answerCall call epoch t).fs } := by
  by_cases own : call.caller = s.pt.node
  · rw [answerCall_own best own]
    exact ⟨rfl, rfl, rfl⟩
  · rw [answerCall_other best own]
    refine ⟨?_, ?_, ?_⟩
    · simp only [send_keeps]
      rfl
    · exact send_counter (g := (·.bidsSent)) (fun _ => rfl) (fun _ => rfl) _ _ _ _
    · rw [send_eq]
      rfl

end

theorem bestRoadIsBid : Clause.BestRoadIsBid := by
  refine ⟨fun s t r sc best => ?_, fun s t none j d y hd hy => ?_, fun s call epoch t => ⟨answerCall_none, fun r sc best => ?_⟩⟩
  · obtain ⟨⟨c, x, hc, hx, eligible, score⟩, least⟩ := bestRoad_best best
    obtain ⟨known, offer, room⟩ := (eligible_iff x c.capacity t.places).mp eligible
    exact ⟨c, x, hc, hx, known, offer, room, score, fun j d y hd hy known offer room =>
      least j d y hd hy ((eligible_iff y d.capacity t.places).mpr ⟨known, offer, room⟩)⟩
  · exact mt (eligible_iff y d.capacity t.places).mpr (bestRoad_none none j d y hd hy)
  · obtain ⟨yu, bids, frame⟩ := answerCall_eq (call := call) (epoch := epoch) best
    refine ⟨yu, bids, fun own => ?_, fun other => ?_, frame⟩
    · rw [answerCall_own best own]
      exact ⟨rfl, rfl⟩
    · rw [answerCall_other best other]
      refine ⟨?_, send_fs_congr (s := (withRoads s (offeredRoads s call epoch r)).count bidCounted) (t := s) rfl rfl .bid call.caller
        (encBid call r sc)⟩
      simp only [send_keeps]
      rfl

/-! ### The earlier use of a call ID (R147) -/

theorem dropCall_offered (call : CallId) (epoch : Epoch) (x : RoadRec) : x.dropCall call epoch true =
    { x with
      arrivals := x.arrivals.filter (fun a => !(a.call == call && a.epoch == epoch && a.link == none))
      offer := match x.offer with
        | some o => if o.call = call ∧ o.epoch = epoch then none else some o
        | none => none } := by
  obtain ⟨cond, stack, arrivals, offer⟩ := x
  cases offer <;> simp [RoadRec.dropCall]

theorem dropCall_offer (call : CallId) (epoch : Epoch) (x : RoadRec) {o : Offer} (offer : x.offer = some o) :
    (x.dropCall call epoch true).offer = if o.call = call ∧ o.epoch = epoch then none else some o := by
  simp [RoadRec.dropCall, offer]

/-- A road that an earlier use of the call ID has left nothing on stays as it is. -/
theorem dropCall_unused {call : CallId} {epoch : Epoch} {x : RoadRec}
    (arrivals : ∀ a ∈ x.arrivals, (a.call == call && a.epoch == epoch && a.link == none) = false)
    (offers : ∀ o, x.offer = some o → o.call ≠ call ∨ o.epoch ≠ epoch) : x.dropCall call epoch true = x := by
  have kept : x.arrivals.filter (fun a => !(a.call == call && a.epoch == epoch && a.link == none)) = x.arrivals :=
    List.filter_eq_self.mpr fun a ha => by rw [arrivals a ha]; rfl
  have offer : (x.dropCall call epoch true).offer = x.offer := by
    rcases found : x.offer with _ | o
    · simp [RoadRec.dropCall, found]
    · rw [dropCall_offer call epoch x found, if_neg (not_and_or.mpr (offers o found))]
  calc x.dropCall call epoch true
      = { x with arrivals := (x.dropCall call epoch true).arrivals, offer := (x.dropCall call epoch true).offer } := rfl
    _ = x := by
      rw [offer]
      exact congrArg (fun l => { x with arrivals := l }) kept

/-- The state in which what an earlier use of a call ID left is cleared, with the gains announced. -/
def callCleared (s : State) (call : CallId) (epoch : Epoch) : State :=
  (withRoads s (s.yu.roads.map (RoadRec.dropCall call epoch true))).announceGains s.yu.roads

theorem callCleared_linkedCall (s : State) (call : CallId) (epoch : Epoch) :
    (callCleared s call epoch).linkedCall call = s.linkedCall call := by
  rw [← linkedCall_dropCall s call epoch true]
  unfold State.linkedCall callCleared
  rw [announceGains_roads]

theorem takeBidCall_eq (s : State) (call : CallId) (epoch : Epoch) (t : TramRec) : s.takeBidCall call epoch t =
    if s.linkedCall call then callCleared s call epoch else (callCleared s call epoch).answerCall call epoch t := by
  rw [← callCleared_linkedCall s call epoch]
  rfl

theorem callCleared_unused {s : State} {call : CallId} {epoch : Epoch}
    (unused : ∀ x ∈ s.yu.roads, x.dropCall call epoch true = x) : callCleared s call epoch = s := by
  have same : s.yu.roads.map (RoadRec.dropCall call epoch true) = s.yu.roads :=
    (List.map_congr_left unused).trans (List.map_id _)
  rw [callCleared, same, withRoads_self, announceGains_same]

theorem bidCallClearsItsEarlierUse : Clause.BidCallClearsItsEarlierUse := by
  intro s call epoch t
  have cleared := takeBidCall_eq s call epoch t
  refine ⟨?_, fun unused => ?_, fun linked r x hx => ?_, linkedCall_iff s call⟩
  · have written : RoadRec.dropCall call epoch true = _ := funext (dropCall_offered call epoch)
    rw [cleared, callCleared, written]
    rfl
  · have clean (x : RoadRec) (hx : x ∈ s.yu.roads) : x.dropCall call epoch true = x := by
      obtain ⟨arrivals, offers⟩ := unused x hx
      exact dropCall_unused arrivals offers
    rw [cleared, callCleared_unused clean]
  · rw [cleared, if_pos linked]
    refine ⟨x.dropCall call epoch true, ?_, rfl, rfl, rfl, fun o offer named same => ?_, fun o offer other => ?_⟩
    · rw [replaced_yu (u := callCleared s call epoch) rfl, List.getElem?_map, hx]
      rfl
    · rw [dropCall_offer call epoch x offer, if_pos ⟨named, same⟩]
    · rw [dropCall_offer call epoch x offer, if_neg (not_and_or.mpr other)]

/-- Settles O48. -/
theorem bidCallsAreAnswered : Obligations.BidCallsAreAnswered :=
  ⟨yuTrafficReachesYu, roadScore, bestRoadIsBid, bidCallClearsItsEarlierUse⟩

end Sys2Proof.Proofs
end

