-- ==== Sys2Proof/Proofs/Callers.lean ====
section
/-! PROOF. Offers and holds that expire, and callers that are lost, return or restart (R150, R154, R159, R160). -/

namespace Sys2Proof.Proofs
open Sys2Proof.Machine Sys2Proof.Laws

/-! ### Expiries (R150, R159) -/

section
variable {s : State} {r : Nat} {x : RoadRec} (hx : s.yu.roads[r]? = some x)
include hx

theorem offerLapse_eq {o : Offer} (offer : x.offer = some o) : s.offerLapse r =
    if reached s.time o.expiry then withRoads s (s.yu.roads.set r { x with offer := none }) else s := by
  unfold State.offerLapse
  rw [modRoad_eq, modify_of_getElem? hx, offer]
  dsimp only
  split
  · rfl
  · rw [set_same hx, withRoads_self]

variable {j : Nat} {a : Arrival} (ha : x.arrivals[j]? = some a) (expired : due a.hold = true)
include ha expired

theorem holdExpiry_unlinked (unlinked : a.link = none) : s.holdExpiry r j =
    (withRoads s (s.yu.roads.set r { x with arrivals := x.arrivals.eraseIdx j })).announceGains s.yu.roads := by
  unfold State.holdExpiry
  rw [hx, Option.bind_some, ha]
  dsimp only
  rw [if_pos expired, unlinked]
  dsimp only
  rw [modRoad_eq, modify_of_getElem? hx]

theorem holdExpiry_linked (linked : a.link ≠ none) : s.holdExpiry r j =
    withRoads s (s.yu.roads.set r { x with arrivals := x.arrivals.set j { a with gone := true, hold := none } }) := by
  obtain ⟨id, link⟩ := Option.ne_none_iff_exists'.mp linked
  unfold State.holdExpiry
  rw [hx, Option.bind_some, ha]
  dsimp only
  rw [if_pos expired, link]
  dsimp only
  rw [modRoad_eq, modify_of_getElem? hx, modify_of_getElem? ha, link]

end

theorem offersAndHoldsExpire : Clause.OffersAndHoldsExpire := by
  intro s r x hx
  refine ⟨fun o offer reachedEnd => ?_, fun o offer notYet => ?_, fun j a ha expired => ⟨fun unlinked => ?_, fun linked => ?_⟩⟩
  · exact congrArg Host.Outcome.next ((offerLapse_eq hx offer).trans (if_pos reachedEnd))
  · exact congrArg Host.Outcome.next ((offerLapse_eq hx offer).trans (if_neg (by simp [notYet])))
  · have gone := holdExpiry_unlinked hx ha expired unlinked
    have yu := replaced_yu gone
    refine ⟨_, rfl, yu, ?_, replaced_blocks gone⟩
    rw [yu]
    exact gone
  · exact congrArg Host.Outcome.next (holdExpiry_linked hx ha expired linked)

/-! ### Notices of PT (R159, R160) -/

theorem callerRestarted_offer (k : Nat) (e : Epoch) (x : RoadRec) {o : Offer} (offer : x.offer = some o) :
    (x.callerRestarted k e).offer = if o.call.caller = k ∧ o.epoch = e then none else some o := by
  simp [RoadRec.callerRestarted, offer]

theorem yuRestarted_eq (s : State) (k : Nat) (e : Epoch) : s.yuRestarted k e =
    (withRoads s (s.yu.roads.map (RoadRec.callerRestarted k e))).announceGains s.yu.roads := rfl

section
variable {k : Nat} {s : State} {rest : List PeerNotice}

theorem exec_yuUnusable {k' : Nat} {e : Epoch} (first : takeFirst (fun n => n.peer == k) s.yu.peerNotices = some (.unusable k' e, rest)) :
    exec (.yuUnusable k) s = .next ({ s with yu := { s.yu with peerNotices := rest } }.yuLost k e) := by
  unfold exec execYuUnusable
  dsimp only
  rw [first]

theorem exec_yuUsable {k' : Nat} {e : Epoch} (first : takeFirst (fun n => n.peer == k) s.yu.peerNotices = some (.usable k' e, rest)) :
    exec (.yuUsable k) s = .next ({ s with yu := { s.yu with peerNotices := rest } }.yuReturned k e) := by
  unfold exec execYuUsable
  dsimp only
  rw [first]

theorem exec_yuEpochChange {k' : Nat} {e e' : Epoch}
    (first : takeFirst (fun n => n.peer == k) s.yu.peerNotices = some (.epochChange k' e e', rest)) :
    exec (.yuEpochChange k) s = .next ({ s with yu := { s.yu with peerNotices := rest } }.yuRestarted k e) := by
  unfold exec execYuEpochChange
  dsimp only
  rw [first]

end

theorem callersLostAndRestarted : Clause.CallersLostAndRestarted := by
  intro k k' s e e' rest
  refine ⟨exec_yuUnusable, exec_yuUsable, fun first => ?_, fun isolated => if_pos isolated⟩
  have restarted := yuRestarted_eq { s with yu := { s.yu with peerNotices := rest } } k e
  have yu := replaced_yu restarted
  refine ⟨_, exec_yuEpochChange first, fun r x hx => ?_, replaced_announced restarted, (replaced_blocks restarted).trans ?_⟩
  · refine ⟨x.callerRestarted k e, ?_, rfl, rfl, rfl, fun o offer caller epoch => ?_, fun o offer other => ?_⟩
    · rw [yu, List.getElem?_map, hx]
      rfl
    · rw [callerRestarted_offer k e x offer, if_pos ⟨caller, epoch⟩]
    · rw [callerRestarted_offer k e x offer, if_neg (by tauto)]
  · rw [yu]

/-- Settles O52. -/
theorem offersHoldsAndCallers : Obligations.OffersHoldsAndCallers :=
  ⟨offersAndHoldsExpire, callersLostAndRestarted⟩

end Sys2Proof.Proofs
end

