-- ==== Sys2Proof/Proofs/Inspection.lean ====
section
/-! PROOF. An INSPECT is answered, and with what: the reply frame of R168, the items of R169 and their parts (R168 to R170, R178). -/

namespace Sys2Proof.Proofs
open Sys2Proof.Machine Sys2Proof.Laws

/-! ### The reply (R168) -/

theorem exec_inspect {s : State} {f : RxFrame} {fs' : FS} (taken : s.fs.takeFrame .inspect = some (f, fs')) :
    exec .inspect s = .next (inspectFrame f { s with fs := fs' }).finishFrame :=
  congrArg Host.Outcome.next (withFrame_some taken inspectFrame)

section
variable {f : RxFrame} (s : State)

/-- A source that is no node gets no reply. -/
theorem inspectFrame_noNode (noNode : f.rx.source = 63) : inspectFrame f s = s :=
  if_pos noNode

/-- A node gets a reply with the answer as the state stood, and the reply is counted. -/
theorem inspectFrame_node (node : f.rx.source ≠ 63) : inspectFrame f s =
    (s.send .inspectReply f.rx.source (replyPayload (byteAt f.payload 0) (byteAt f.payload 1) (byteAt f.payload 2)
      (s.answer (byteAt f.payload 0) (byteAt f.payload 1) (byteAt f.payload 2)))).count
      (fun c => { c with inspectsAnswered := bump c.inspectsAnswered }) :=
  if_neg node

/-- Only the frame store and the counters change. -/
theorem inspectFrame_eq : inspectFrame f s = { s with fs := (inspectFrame f s).fs, cnt := (inspectFrame f s).cnt } := by
  by_cases source : f.rx.source = 63
  · rw [inspectFrame_noNode s source]
  · rw [inspectFrame_node s source, send_eq]
    rfl

end

theorem inspectIsAnswered : Clause.InspectIsAnswered := by
  intro s f fs' taken
  refine ⟨_, exec_inspect taken, fun noNode => ?_, fun node => ?_, ?_⟩
  · rw [inspectFrame_noNode _ noNode]
    rfl
  · rw [inspectFrame_node _ node]
  · rw [inspectFrame_eq]
    rfl

/-! ### Parts of an item (R168, R170, R178) -/

theorem partOf_within {item : List Byte} {part : Nat} (within : 44 * part < item.length) :
    partOf item part = .ok ((item.drop (44 * part)).take 44) (decide (item.length ≤ 44 * part + 44)) :=
  if_pos within

theorem partOf_past {item : List Byte} {part : Nat} (past : item.length ≤ 44 * part) : partOf item part = .none :=
  if_neg (Nat.not_lt.mpr past)

/-- A counter group has two parts. -/
theorem counterPart_past (l : List Counter) : ∀ {part : Nat}, 2 ≤ part → counterPart l part = .none
  | _ + 2, _ => rfl

/-! ### Items by kind (R169) -/

section
variable {s : State} {index : Nat} (part : Nat)

theorem answer_unknown (s : State) (index : Nat) : ∀ {kind : Nat}, 7 ≤ kind → s.answer kind index part = .none
  | _ + 7, _ => rfl

theorem answer_road {r : RoadRec} (configured : s.yu.roads[index]? = some r) :
    s.answer 1 index part = partOf (encRoadItem r) part := by
  simp only [State.answer, configured]

theorem answer_road_none (unconfigured : s.yu.roads[index]? = none) : s.answer 1 index part = .none := by
  simp only [State.answer, unconfigured]

theorem claimItem_used {c : Claim} (used : s.claim? index = some c) : s.claimItem index = encClaimItem c := by
  unfold State.claimItem
  rw [used]

theorem claimItem_free (free : s.claim? index = none) : s.claimItem index = [4, byte (s.freePosition index)] := by
  unfold State.claimItem
  rw [free]

theorem answer_claim (range : index < 32) : s.answer 2 index part = partOf (s.claimItem index) part :=
  if_pos range

theorem answer_claim_none (range : 32 ≤ index) : s.answer 2 index part = .none :=
  if_neg (Nat.not_lt.mpr range)

theorem answer_peer (range : index < 63) : s.answer 3 index part = partOf (s.peerItem index) part :=
  if_pos range

theorem answer_peer_none (range : 63 ≤ index) : s.answer 3 index part = .none :=
  if_neg (Nat.not_lt.mpr range)

theorem answer_route {x : Inst} (range : index < 8) (used : s.inst? index = some x) :
    s.answer 4 index part = partOf (encInst x) part := by
  simp only [State.answer, if_pos range, used]

theorem answer_route_free (range : index < 8) (free : s.inst? index = none) : s.answer 4 index part = .free := by
  simp only [State.answer, if_pos range, free]

theorem answer_route_none (range : 8 ≤ index) : s.answer 4 index part = .none :=
  if_neg (Nat.not_lt.mpr range)

theorem slotItem_slot (range : index < 16) : s.slotItem index = (s.rq.slots[index]?).map encSlot :=
  if_pos range

theorem slotItem_ring (low : 16 ≤ index) (high : index < 32) :
    s.slotItem index = (s.rq.ring[index - 16]?).map encOutcome :=
  (if_neg (Nat.not_lt.mpr low)).trans (if_pos high)

theorem slotItem_none (range : 32 ≤ index) : s.slotItem index = none :=
  (if_neg (by omega)).trans (if_neg (Nat.not_lt.mpr range))

/-- A ring position that is not yet written has no item, and neither has an index past the ring. -/
theorem slotItem_unwritten (low : 16 ≤ index) (unwritten : s.rq.ring[index - 16]? = none) : s.slotItem index = none := by
  by_cases high : index < 32
  · rw [slotItem_ring low high, unwritten, Option.map_none]
  · exact slotItem_none (Nat.not_lt.mp high)

theorem answer_slot {item : List Byte} (stands : s.slotItem index = some item) : s.answer 5 index part = partOf item part := by
  simp only [State.answer, stands]

theorem answer_slot_none (absent : s.slotItem index = none) : s.answer 5 index part = .none := by
  simp only [State.answer, absent]

theorem answer_counters_none (s : State) : ∀ {index : Nat}, 2 ≤ index → s.answer 6 index part = .none
  | _ + 2, _ => rfl

/-- No counter group has a part past its second. -/
theorem answer_counters_past (s : State) {part : Nat} (past : 2 ≤ part) : ∀ index, s.answer 6 index part = .none
  | 0 => counterPart_past s.cnt.values past
  | 1 => counterPart_past s.group1 past
  | _ + 2 => rfl

end

theorem inspectAnswersTable : Clause.InspectAnswersTable := by
  intro s index part
  refine ⟨fun _ => answer_unknown part s index, rfl,
    answer_road_none part, fun _ => answer_road part,
    answer_claim_none part, fun c range used => ?claimUsed, fun range free => ?claimFree,
    answer_peer_none part, answer_peer part,
    answer_route_none part, answer_route_free part, fun _ => answer_route part,
    fun x range slot => answer_slot part ?slot, fun x low high written => answer_slot part ?ring,
    fun low unwritten => answer_slot_none part (slotItem_unwritten low unwritten), fun range => answer_slot_none part (slotItem_none range),
    rfl, rfl, answer_counters_none part s, fun past => answer_counters_past s past index,
    fun _ => partOf_past, fun _ => partOf_within⟩
  case claimUsed => rw [answer_claim part range, claimItem_used used]
  case claimFree => rw [answer_claim part range, claimItem_free free]
  case slot => rw [slotItem_slot range, slot, Option.map_some]
  case ring => rw [slotItem_ring low high, written, Option.map_some]

/-- Settles O31. -/
theorem inspectsAreAnswered : Obligations.InspectsAreAnswered :=
  ⟨inspectIsAnswered, inspectAnswersTable⟩

end Sys2Proof.Proofs
end

