-- ==== Sys2Proof/Proofs/RoadsKept.lean ====
section
/-! PROOF. What the blocks do keeps the law of the roads (R161, R177): no more than four, each that waits for a write and the one in hand
among the four records. One lemma per operation that reaches YU: most leave the roads' number and their queue, and the others reach the
queue by `queueRoads` alone, for roads that stand. -/

namespace Sys2Proof.Proofs
open Sys2Proof.Machine Sys2Proof.Laws

/-! ### The law of the roads -/

/-- The number of roads, the roads that wait for a write, and the write in hand, as `MemoryInv` has them. -/
structure RoadLaw (count : Nat) (queue : List Nat) (inHand : Option (Nat × List Byte)) : Prop where
  four : count ≤ 4
  queued : ∀ r ∈ queue, r < 4
  writing : ∀ r l, inHand = some (r, l) → r < 4 ∧ l.length = 35

/-- The law of a state's roads; `simp` reads it as one of their number, their queue and the write in hand. -/
@[simp] abbrev RoadsLawful (s : State) : Prop := RoadLaw s.yu.roads.length s.yu.queue s.mi.writing

/-- `t` has as many roads as `s`, and the same ones wait for a write. -/
@[simp] abbrev SameRoads (s t : State) : Prop := t.yu.roads.length = s.yu.roads.length ∧ t.yu.queue = s.yu.queue

/-- The memory law is the memory's form, the four roads of the description, and the law of the roads. -/
theorem memoryInv_iff (s : State) : MemoryInv s ↔ Memory.wf s.mi.mem = true ∧ s.mi.desc.roads.length ≤ 4
    ∧ RoadLaw s.yu.roads.length s.yu.queue s.mi.writing :=
  ⟨fun ⟨wf, desc, four, queued, writing⟩ => ⟨wf, desc, four, queued, writing⟩,
    fun ⟨wf, desc, four, queued, writing⟩ => ⟨wf, desc, four, queued, writing⟩⟩

theorem RoadLaw.road_lt_four {roads : List RoadRec} {queue : List Nat} {inHand : Option (Nat × List Byte)}
    (h : RoadLaw roads.length queue inHand) {r : Nat} {x : RoadRec} (hx : roads[r]? = some x) : r < 4 :=
  Nat.lt_of_lt_of_le (List.getElem?_eq_some_iff.mp hx).1 h.four

theorem road_lt_four_of_known {s : State} (h : RoadsLawful s) {r : Nat} (known : s.roadKnown r = true) : r < 4 := by
  unfold State.roadKnown at known
  cases hx : s.yu.roads[r]? with
  | none => simp [hx] at known
  | some x => exact h.road_lt_four hx

theorem roadsHolding_inside {s : State} {k tram : Nat} (h : k ∈ s.roadsHolding tram) : k < s.yu.roads.length :=
  List.mem_range.mp (List.mem_of_mem_filter h)

/-! ### Runs of operations -/

theorem forEach_sameRoads {α : Type} {l : List α} {f : α → State → State} {s : State} (h : ∀ x u, SameRoads u (f x u)) :
    SameRoads s (forEach l f s) :=
  ⟨forEach_keeps (·.yu.roads.length) l f (fun x u => (h x u).1) s, forEach_keeps (·.yu.queue) l f (fun x u => (h x u).2) s⟩

@[simp] theorem forEach_roadCount {α : Type} (l : List α) (f : α → State → State) (s : State)
    (h : ∀ x s, (f x s).yu.roads.length = s.yu.roads.length) : (forEach l f s).yu.roads.length = s.yu.roads.length :=
  forEach_keeps (·.yu.roads.length) l f h s

@[simp] theorem forEach_roadQueue {α : Type} (l : List α) (f : α → State → State) (s : State)
    (h : ∀ x s, (f x s).yu.queue = s.yu.queue) : (forEach l f s).yu.queue = s.yu.queue :=
  forEach_keeps (·.yu.queue) l f h s

theorem forEach_roadsLawful {α : Type} {l : List α} {f : α → State → State} {s : State}
    (hf : ∀ x (u : State), RoadsLawful u → RoadsLawful (f x u)) (h : RoadsLawful s) : RoadsLawful (forEach l f s) :=
  forEach_preserves (P := RoadsLawful) (fun x _ u => hf x u) h

/-! ### Roads queued for writing (R161) -/

/-- A queue holds what it held and what went to its tail. -/
theorem mem_queuedRoads_iff {queue rs : List Nat} {k : Nat} : k ∈ queuedRoads queue rs ↔ k ∈ queue ∨ k ∈ rs := by
  induction rs generalizing queue with
  | nil => simp [queuedRoads]
  | cons r rs ih =>
    have step : queuedRoads queue (r :: rs) = queuedRoads (if r ∈ queue then queue else queue ++ [r]) rs := rfl
    rw [step, ih, List.mem_cons]
    split
    · rename_i there
      have own : k = r → k ∈ queue := fun same => same ▸ there
      tauto
    · rw [List.mem_append, List.mem_singleton, or_assoc]

/-- The head that is handed to MI was queued, and its record has 35 bytes. -/
@[simp] theorem queueRoads_roadLaw (s : State) {n : Nat} {rs : List Nat} (inside : ∀ r ∈ rs, r < 4)
    (h : RoadLaw n s.yu.queue s.mi.writing) : RoadLaw n (s.queueRoads rs).yu.queue (s.queueRoads rs).mi.writing := by
  obtain ⟨four, queued, writing⟩ := h
  have all : ∀ r ∈ queuedRoads s.yu.queue rs, r < 4 := fun r hr => (mem_queuedRoads_iff.mp hr).elim (queued r) (inside r)
  unfold State.queueRoads State.serveRoadQueue
  rw [foldl_addNew]
  dsimp only
  split
  · rename_i r rest idle queue
    rw [queue] at all
    have behind : ∀ k ∈ rest, k < 4 := fun k hk => all k (List.mem_cons_of_mem r hk)
    split
    · refine ⟨four, behind, fun k l same => ?_⟩
      cases same
      exact ⟨all r List.mem_cons_self, encRoad_length _⟩
    · exact ⟨four, behind, writing⟩
  · exact ⟨four, all, writing⟩

theorem queueRoads_lawful {s : State} {rs : List Nat} (inside : ∀ r ∈ rs, r < 4) (h : RoadsLawful s) :
    RoadsLawful (s.queueRoads rs) := by
  rw [RoadsLawful, queueRoads_yu_roads]
  exact queueRoads_roadLaw s inside h

section
variable {s : State}

/-! ### YU (R146 to R160) -/

@[simp] theorem markDoubtful_sameRoads (r : Nat) (cause : DoubtCause) (tram : Option Nat) : SameRoads s (s.markDoubtful r cause tram) := by
  unfold State.markDoubtful
  (repeat' split) <;> simp

@[simp] theorem answerCall_sameRoads (call : CallId) (epoch : Epoch) (t : TramRec) : SameRoads s (s.answerCall call epoch t) := by
  unfold State.answerCall
  dsimp only
  (repeat' split) <;> simp

@[simp] theorem takeBidCall_sameRoads (call : CallId) (epoch : Epoch) (t : TramRec) : SameRoads s (s.takeBidCall call epoch t) := by
  unfold State.takeBidCall
  dsimp only
  split <;> simp

@[simp] theorem takeAward_sameRoads (call : CallId) (epoch : Epoch) (road : Nat) (t : TramRec) (direct : Bool) :
    SameRoads s (s.takeAward call epoch road t direct) := by
  unfold State.takeAward
  dsimp only
  (repeat' split) <;> simp

@[simp] theorem takeWithdraw_sameRoads (call : CallId) (epoch : Epoch) : SameRoads s (s.takeWithdraw call epoch) := by
  unfold State.takeWithdraw
  simp

@[simp] theorem linkArrival_sameRoads (r : Nat) (call : CallId) (key : RouteKey) (id : Nat) :
    SameRoads s (s.linkArrival r call key id) := by
  unfold State.linkArrival
  simp

@[simp] theorem unlinkArrival_sameRoads (id : Nat) : SameRoads s (s.unlinkArrival id) := by
  unfold State.unlinkArrival
  simp

theorem pushArrival_roadsLawful {r : Nat} (a : Arrival) (inside : r < 4) (h : RoadsLawful s) : RoadsLawful (s.pushArrival r a) := by
  have holding : ∀ k ∈ s.roadsHolding a.tram.tram, k < 4 := fun k hk => Nat.lt_of_lt_of_le (roadsHolding_inside hk) h.four
  have queued : ∀ k ∈ s.roadsHolding a.tram.tram ++ [r], k < 4 := by simpa [or_imp, forall_and, inside] using holding
  unfold State.pushArrival
  simp only [RoadsLawful, announceGains_keeps]
  refine queueRoads_lawful queued ?_
  simp [h]

@[simp] theorem takePush_roadsLawful (r : Nat) (call : CallId) (key : RouteKey) (tram : Nat) (h : RoadsLawful s) :
    RoadsLawful (s.takePush r call key tram) := by
  unfold State.takePush
  split
  · rename_i a found
    obtain ⟨x, hx, -⟩ := Option.bind_eq_some_iff.mp found
    exact pushArrival_roadsLawful a (h.road_lt_four hx) h
  · dsimp only
    split
    · rename_i known
      simp [road_lt_four_of_known h known, h]
    · simp [h]

@[simp] theorem takePop_roadsLawful (r tram : Nat) (h : RoadsLawful s) : RoadsLawful (s.takePop r tram) := by
  unfold State.takePop
  split
  · rename_i x hx
    have inside := h.road_lt_four hx
    dsimp only
    (repeat' split) <;> simp [inside, h]
  · exact h

@[simp] theorem runOutMark_roadsLawful (r tram : Nat) (h : RoadsLawful s) : RoadsLawful (s.runOutMark r tram) := by
  unfold State.runOutMark
  split
  · rename_i x hx
    have inside := h.road_lt_four hx
    (repeat' split) <;> simp [inside, h]
  · exact h

@[simp] theorem bodyCleared_roadsLawful (r : Nat) (h : RoadsLawful s) : RoadsLawful (s.bodyCleared r) := by
  unfold State.bodyCleared
  split
  · rename_i x hx
    have inside := h.road_lt_four hx
    dsimp only
    (repeat' split) <;> simp [inside, h]
  · exact h

@[simp] theorem bodyOccupied_roadsLawful (r : Nat) (h : RoadsLawful s) : RoadsLawful (s.bodyOccupied r) := by
  unfold State.bodyOccupied
  split
  · rename_i x hx
    have inside := h.road_lt_four hx
    (repeat' split) <;> simp [inside, h]
  · exact h

@[simp] theorem yuNotice_roadsLawful (n : SectNotice) (h : RoadsLawful s) : RoadsLawful (s.yuNotice n) := by
  unfold State.yuNotice
  (repeat' split) <;> simp [h]

@[simp] theorem modArrivalsOf_sameRoads (peer : Nat) (epoch : Epoch) (f : Arrival → Arrival) :
    SameRoads s (s.modArrivalsOf peer epoch f) := by
  unfold State.modArrivalsOf
  simp

@[simp] theorem yuLost_sameRoads (peer : Nat) (epoch : Epoch) : SameRoads s (s.yuLost peer epoch) := by
  unfold State.yuLost
  simp

@[simp] theorem yuReturned_sameRoads (peer : Nat) (epoch : Epoch) : SameRoads s (s.yuReturned peer epoch) := by
  unfold State.yuReturned
  simp

@[simp] theorem yuRestarted_sameRoads (peer : Nat) (old : Epoch) : SameRoads s (s.yuRestarted peer old) := by
  unfold State.yuRestarted
  simp

@[simp] theorem holdExpiry_sameRoads (r j : Nat) : SameRoads s (s.holdExpiry r j) := by
  unfold State.holdExpiry
  (repeat' split) <;> simp

@[simp] theorem offerLapse_sameRoads (r : Nat) : SameRoads s (s.offerLapse r) := by
  unfold State.offerLapse
  simp

@[simp] theorem yuTakes_sameRoads (m : YuMsg) : SameRoads s (s.yuTakes m) := by
  unfold State.yuTakes
  (repeat' split) <;> simp

@[simp] theorem yuTakesAll_sameRoads : SameRoads s s.yuTakesAll := by
  unfold State.yuTakesAll
  simp

/-! ### CT (R95 to R118) -/

@[simp] theorem mouthRelease_roadsLawful (id : Nat) (c : Claim) (st : ClaimStep) (h :
    RoadsLawful s) : RoadsLawful (s.mouthRelease id c st) := by
  unfold State.mouthRelease
  (repeat' split) <;> simp [h]

@[simp] theorem releaseStep_roadsLawful (id i : Nat) (tell : Bool) (h : RoadsLawful s) : RoadsLawful (s.releaseStep id i tell) := by
  unfold State.releaseStep
  (repeat' split) <;> simp [h]

@[simp] theorem releaseClear_roadsLawful (id : Nat) (h : RoadsLawful s) : RoadsLawful (s.releaseClear id) := by
  refine forEach_roadsLawful (fun i u hu => ?_) h
  split <;> simp [hu]

@[simp] theorem releaseAll_roadsLawful (id : Nat) (h : RoadsLawful s) : RoadsLawful (s.releaseAll id) :=
  forEach_roadsLawful (fun i _ hu => releaseStep_roadsLawful id i false hu) h

@[simp] theorem windDown_roadsLawful (id : Nat) (h : RoadsLawful s) : RoadsLawful (s.windDown id) := by
  unfold State.windDown
  (repeat' split) <;> simp [h]

@[simp] theorem examineStep_roadsLawful (id i : Nat) (h : RoadsLawful s) : RoadsLawful (s.examineStep id i) := by
  unfold State.examineStep
  (repeat' split) <;> simp [h]

@[simp] theorem examineAll_roadsLawful (id : Nat) (h : RoadsLawful s) : RoadsLawful (s.examineAll id) :=
  forEach_roadsLawful (fun i _ hu => examineStep_roadsLawful id i hu) h

@[simp] theorem seenOccupied_roadsLawful (id i : Nat) (h : RoadsLawful s) : RoadsLawful (s.seenOccupied id i) := by
  unfold State.seenOccupied
  dsimp only
  (repeat' split) <;> simp [h]

@[simp] theorem sectionCleared_roadsLawful (id i : Nat) (h : RoadsLawful s) : RoadsLawful (s.sectionCleared id i) := by
  unfold State.sectionCleared
  (repeat' split) <;> simp [h]

@[simp] theorem ctNotice_roadsLawful (n : SectNotice) (h : RoadsLawful s) : RoadsLawful (s.ctNotice n) := by
  unfold State.ctNotice
  (repeat' split) <;> simp [h]

@[simp] theorem grantClaim_sameRoads (req : ClaimReq) (cls : RouteClass) (id : Nat) (free : List Nat) :
    SameRoads s (s.grantClaim req cls id free) := by
  unfold State.grantClaim
  dsimp only
  split <;> simp

@[simp] theorem finishClaim_sameRoads (req : ClaimReq) (cls : RouteClass) : SameRoads s (s.finishClaim req cls) := by
  unfold State.finishClaim
  (repeat' split) <;> simp

@[simp] theorem checkSteps_sameRoads (req : ClaimReq) : SameRoads s (s.checkSteps req) := by
  unfold State.checkSteps
  split <;> simp

@[simp] theorem checkEarlier_roadsLawful (req : ClaimReq) (h : RoadsLawful s) : RoadsLawful (s.checkEarlier req) := by
  have wound := fun l => forEach_roadsLawful (l := l) (fun id _ hu => windDown_roadsLawful id hu) h
  unfold State.checkEarlier
  dsimp only
  (repeat' split) <;> simp [wound, h]

@[simp] theorem evaluateClaim_roadsLawful (req : ClaimReq) (rx : Option RxRec) (h :
    RoadsLawful s) : RoadsLawful (s.evaluateClaim req rx) := by
  unfold State.evaluateClaim
  (repeat' split) <;> simp [h]

@[simp] theorem leaveSetting_roadsLawful (id : Nat) (h : RoadsLawful s) : RoadsLawful (s.leaveSetting id) := by
  unfold State.leaveSetting
  (repeat' split) <;> simp [h]

@[simp] theorem enterSetting_roadsLawful (id : Nat) (c : Claim) (h : RoadsLawful s) : RoadsLawful (s.enterSetting id c) := by
  unfold State.enterSetting
  split <;> simp [h]

@[simp] theorem setReserved_roadsLawful (id : Nat) (c : Claim) (h : RoadsLawful s) : RoadsLawful (s.setReserved id c) := by
  unfold State.setReserved
  (repeat' split) <;> simp [h]

@[simp] theorem takeSet_roadsLawful (key : RouteKey) (h : RoadsLawful s) : RoadsLawful (s.takeSet key) := by
  unfold State.takeSet
  (repeat' split) <;> simp [h]

@[simp] theorem answerOrder_roadsLawful (id p : Nat) (h : RoadsLawful s) : RoadsLawful (s.answerOrder id p) := by
  unfold State.answerOrder
  dsimp only
  (repeat' split) <;> simp [h]

@[simp] theorem ctMoveDone_roadsLawful (p : Nat) (h : RoadsLawful s) : RoadsLawful (s.ctMoveDone p) := by
  unfold State.ctMoveDone
  split <;> simp [h]

@[simp] theorem ctMoveFail_roadsLawful (p : Nat) (cause : MoveCause) (h : RoadsLawful s) : RoadsLawful (s.ctMoveFail p cause) := by
  unfold State.ctMoveFail
  (repeat' split) <;> simp [h]

@[simp] theorem takeRelease_roadsLawful (key : RouteKey) (h : RoadsLawful s) : RoadsLawful (s.takeRelease key) := by
  unfold State.takeRelease
  split <;> simp [h]

@[simp] theorem reservedExpiry_roadsLawful (id : Nat) (h : RoadsLawful s) : RoadsLawful (s.reservedExpiry id) := by
  unfold State.reservedExpiry
  (repeat' split) <;> simp [h]

@[simp] theorem setExpiry_roadsLawful (id : Nat) (h : RoadsLawful s) : RoadsLawful (s.setExpiry id) := by
  unfold State.setExpiry
  (repeat' split) <;> simp [h]

@[simp] theorem orphanExpiry_roadsLawful (id i : Nat) (h : RoadsLawful s) : RoadsLawful (s.orphanExpiry id i) := by
  unfold State.orphanExpiry
  (repeat' split) <;> simp [h]

@[simp] theorem returnRecord_roadsLawful (id : Nat) (c : Claim) (h : RoadsLawful s) : RoadsLawful (s.returnRecord id c) := by
  unfold State.returnRecord
  dsimp only
  (repeat' split) <;> simp [h]

@[simp] theorem unorphanRecord_roadsLawful (id : Nat) (h : RoadsLawful s) : RoadsLawful (s.unorphanRecord id) := by
  unfold State.unorphanRecord
  (repeat' split) <;> simp [h]

@[simp] theorem ctReturned_roadsLawful (peer : Nat) (epoch : Epoch) (h : RoadsLawful s) : RoadsLawful (s.ctReturned peer epoch) :=
  forEach_roadsLawful (fun id _ hu => unorphanRecord_roadsLawful id hu) h

@[simp] theorem dropRecord_roadsLawful (id : Nat) (h : RoadsLawful s) : RoadsLawful (s.dropRecord id) := by
  unfold State.dropRecord
  simp [h]

@[simp] theorem ctRestarted_roadsLawful (peer : Nat) (old : Epoch) (h : RoadsLawful s) : RoadsLawful (s.ctRestarted peer old) :=
  forEach_roadsLawful (fun id _ hu => dropRecord_roadsLawful id hu) h

@[simp] theorem isolateRecord_roadsLawful (id : Nat) (h : RoadsLawful s) : RoadsLawful (s.isolateRecord id) := by
  unfold State.isolateRecord
  (repeat' split) <;> simp [h]

@[simp] theorem ctIsolate_roadsLawful (h : RoadsLawful s) : RoadsLawful s.ctIsolate :=
  forEach_roadsLawful (fun id _ hu => isolateRecord_roadsLawful id hu) h

@[simp] theorem ctTakes_roadsLawful (m : CtMsg) (h : RoadsLawful s) : RoadsLawful (s.ctTakes m) := by
  unfold State.ctTakes
  split <;> simp [h]

@[simp] theorem ctTakesAll_roadsLawful (h : RoadsLawful s) : RoadsLawful s.ctTakesAll :=
  forEach_roadsLawful (fun m _ hu => ctTakes_roadsLawful m hu) h

/-! ### RE (R122 to R141) -/

@[simp] theorem withdrawAward_sameRoads (x : Inst) : SameRoads s (s.withdrawAward x) := by
  unfold State.withdrawAward
  (repeat' split) <;> simp

@[simp] theorem startCall_sameRoads (i : Nat) : SameRoads s (s.startCall i) := by
  unfold State.startCall
  split <;> simp

@[simp] theorem makeAttempt_roadsLawful (i : Nat) (x : Inst) (rc : RouteCfg) (h : RoadsLawful s) : RoadsLawful (s.makeAttempt i x rc) := by
  unfold State.makeAttempt
  simp [h]

@[simp] theorem beginAttempt_roadsLawful (i : Nat) (h : RoadsLawful s) : RoadsLawful (s.beginAttempt i) := by
  unfold State.beginAttempt
  (repeat' split) <;> simp [h]

@[simp] theorem failAttempt_sameRoads (i : Nat) (cause : AttemptCause) : SameRoads s (s.failAttempt i cause) := by
  unfold State.failAttempt
  (repeat' split) <;> simp

@[simp] theorem makeAward_roadsLawful (i : Nat) (x : Inst) (a : AwardRec) (route : Option Nat) (h :
    RoadsLawful s) : RoadsLawful (s.makeAward i x a route) := by
  unfold State.makeAward
  split <;> simp [h]

@[simp] theorem directAward_roadsLawful (i : Nat) (h : RoadsLawful s) : RoadsLawful (s.directAward i) := by
  unfold State.directAward
  (repeat' split) <;> simp [h]

@[simp] theorem bidExpiry_roadsLawful (i : Nat) (h : RoadsLawful s) : RoadsLawful (s.bidExpiry i) := by
  unfold State.bidExpiry
  (repeat' split) <;> simp [h]

@[simp] theorem takeRoadChange_sameRoads : SameRoads s s.takeRoadChange := by
  unfold State.takeRoadChange
  split
  · refine forEach_sameRoads fun i u => ?_
    (repeat' split) <;> simp
  · exact ⟨rfl, rfl⟩

@[simp] theorem allSet_sameRoads (i : Nat) (x : Inst) : SameRoads s (s.allSet i x) := by
  unfold State.allSet
  (repeat' split) <;> simp

@[simp] theorem letGo_sameRoads (i : Nat) (x : Inst) (code : OutcomeCode) : SameRoads s (s.letGo i x code) := by
  unfold State.letGo
  simp

@[simp] theorem enterCancelling_sameRoads (i : Nat) (cause : CancelCause) : SameRoads s (s.enterCancelling i cause) := by
  unfold State.enterCancelling
  dsimp only
  (repeat' split) <;> simp

@[simp] theorem takeCancel_sameRoads (m : CancelMsg) : SameRoads s (s.takeCancel m) := by
  unfold State.takeCancel
  (repeat' split) <;> simp

@[simp] theorem takeDeny_sameRoads (i : Nat) (x : Inst) (reason : DenyReason) (rx : Option RxRec) :
    SameRoads s (s.takeDeny i x reason rx) := by
  unfold State.takeDeny
  split <;> simp

@[simp] theorem takeSetDone_sameRoads (i : Nat) (x : Inst) (at_ : Time) (rx : Option RxRec) : SameRoads s (s.takeSetDone i x at_ rx) := by
  unfold State.takeSetDone
  dsimp only
  (repeat' split) <;> simp

@[simp] theorem takeSetFail_sameRoads (i : Nat) (x : Inst) (rx : Option RxRec) : SameRoads s (s.takeSetFail i x rx) := by
  unfold State.takeSetFail
  split <;> simp

@[simp] theorem takeClaimLost_sameRoads (i : Nat) (x : Inst) (rx : Option RxRec) : SameRoads s (s.takeClaimLost i x rx) := by
  unfold State.takeClaimLost
  (repeat' split) <;> simp

@[simp] theorem takeReply_sameRoads (m : ReMsg) (rx : Option RxRec) : SameRoads s (s.takeReply m rx) := by
  unfold State.takeReply
  (repeat' split) <;> simp

@[simp] theorem takeClearFail_sameRoads (g : Nat) : SameRoads s (s.takeClearFail g) := by
  unfold State.takeClearFail
  (repeat' split) <;> simp

@[simp] theorem takeLampFault_sameRoads (g : Nat) : SameRoads s (s.takeLampFault g) := by
  unfold State.takeLampFault
  (repeat' split) <;> simp

@[simp] theorem ownerGone_sameRoads (peer : Nat) (epoch : Epoch) (changed : Bool) (i : Nat) (x : Inst) :
    SameRoads s (s.ownerGone peer epoch changed i x) := by
  unfold State.ownerGone
  (repeat' split) <;> simp

@[simp] theorem reLost_sameRoads (peer : Nat) (epoch : Epoch) (changed : Bool) : SameRoads s (s.reLost peer epoch changed) := by
  refine forEach_sameRoads fun i u => ?_
  split <;> simp

@[simp] theorem isolateInst_sameRoads (i : Nat) (x : Inst) : SameRoads s (s.isolateInst i x) := by
  unfold State.isolateInst
  split <;> simp

@[simp] theorem reIsolate_sameRoads : SameRoads s s.reIsolate := by
  refine forEach_sameRoads fun i u => ?_
  split <;> simp

@[simp] theorem retry_roadsLawful (i : Nat) (x : Inst) (h : RoadsLawful s) : RoadsLawful (s.retry i x) := by
  unfold State.retry
  (repeat' split) <;> simp [h]

/-! ### RQ and SU (R34 to R37, R77 to R90) -/

@[simp] theorem startInst_roadsLawful (i : Nat) (code : ReqCode) (h : RoadsLawful s) : RoadsLawful (s.startInst i code) := by
  unfold State.startInst
  split <;> simp [h]

@[simp] theorem activate_roadsLawful (g k : Nat) (d : SlotData) (i : Nat) (h : RoadsLawful s) : RoadsLawful (s.activate g k d i) := by
  unfold State.activate
  simp [h]

@[simp] theorem visit_roadsLawful (n left g : Nat) (h : RoadsLawful s) : RoadsLawful (s.visit n left g) := by
  induction n generalizing s left g with
  | zero => simpa [State.visit] using h
  | succ n ih =>
    cases left with
    | zero => simpa [State.visit] using h
    | succ left =>
      rw [State.visit]
      split <;> simp [ih, h]

@[simp] theorem scan_roadsLawful (h : RoadsLawful s) : RoadsLawful s.scan := by
  unfold State.scan
  simp [h]

@[simp] theorem takeSlot_roadsLawful (t : Telegram) (c : ReqCode) (k : Nat) (h : RoadsLawful s) : RoadsLawful (s.takeSlot t c k) := by
  unfold State.takeSlot
  simp [h]

@[simp] theorem fileRequest_roadsLawful (t : Telegram) (c : ReqCode) (h : RoadsLawful s) : RoadsLawful (s.fileRequest t c) := by
  unfold State.fileRequest
  dsimp only
  (repeat' split) <;> simp [h]

@[simp] theorem newRequest_roadsLawful (c : Option ReqCode) (t : Telegram) (h : RoadsLawful s) : RoadsLawful (State.newRequest c t s) := by
  unfold State.newRequest
  (repeat' split) <;> simp [h]

@[simp] theorem takeOutcome_roadsLawful (m : OutcomeMsg) (h : RoadsLawful s) : RoadsLawful (s.takeOutcome m) := by
  unfold State.takeOutcome
  (repeat' split) <;> simp [h]

@[simp] theorem lampRecoveredNotice_roadsLawful (g : Nat) (h : RoadsLawful s) : RoadsLawful (s.lampRecoveredNotice g) := by
  unfold State.lampRecoveredNotice
  dsimp only
  split <;> simp [h]

@[simp] theorem evaluateSignal_roadsLawful (r : LampReadings) (g : Nat) (h : RoadsLawful s) : RoadsLawful (State.evaluateSignal r g s) := by
  unfold State.evaluateSignal
  (repeat' split) <;> simp [h]

@[simp] theorem evaluateSignals_roadsLawful (h : RoadsLawful s) : RoadsLawful s.evaluateSignals := by
  unfold State.evaluateSignals
  split
  · exact forEach_roadsLawful (fun g _ hu => evaluateSignal_roadsLawful _ g hu) h
  · exact h

/-! ### PT (R59 to R72) -/

@[simp] theorem changePeer_sameRoads (k : Nat) (before new : PeerRec) : SameRoads s (s.changePeer k before new) := by
  unfold State.changePeer
  split <;> simp

@[simp] theorem noteEpoch_sameRoads (k : Nat) (epoch : Epoch) : SameRoads s (s.noteEpoch k epoch) := by
  unfold State.noteEpoch
  (repeat' split) <;> simp

@[simp] theorem takeStateFrame_sameRoads (f : RxFrame) : SameRoads s (takeStateFrame f s) := by
  unfold takeStateFrame
  dsimp only
  (repeat' split) <;> simp

@[simp] theorem peerSilence_sameRoads (k : Nat) : SameRoads s (s.peerSilence k) := by
  unfold State.peerSilence
  (repeat' split) <;> simp

@[simp] theorem peerLoss_sameRoads (k : Nat) : SameRoads s (s.peerLoss k) := by
  unfold State.peerLoss
  (repeat' split) <;> simp

@[simp] theorem giveIsolation_sameRoads : SameRoads s s.giveIsolation := by
  unfold State.giveIsolation
  simp

@[simp] theorem enterIsolated_sameRoads (epoch : Epoch) : SameRoads s (s.enterIsolated epoch) := by
  unfold State.enterIsolated
  simp

@[simp] theorem examineOwn_sameRoads (r : RxRec) : SameRoads s (s.examineOwn r) := by
  unfold State.examineOwn
  dsimp only
  (repeat' split) <;> simp

/-! ### LI (R41 to R47) -/

@[simp] theorem accept_sameRoads (l : List Byte) (k : Kind) : SameRoads s (s.accept l k) := by
  unfold State.accept
  split <;> simp

@[simp] theorem examine_sameRoads (l : List Byte) : SameRoads s (s.examine l) := by
  unfold State.examine
  (repeat' split) <;> simp

@[simp] theorem endFrame_sameRoads : SameRoads s s.endFrame := by
  unfold State.endFrame
  (repeat' split) <;> simp

@[simp] theorem useSymbol_sameRoads (x : LineSymbol) : SameRoads s (s.useSymbol x) := by
  unfold State.useSymbol
  split <;> simp

@[simp] theorem inCheck_sameRoads (x : Option LineSymbol) : SameRoads s (s.inCheck x) := by
  unfold State.inCheck
  split <;> simp

@[simp] theorem inStep_sameRoads (x : Option LineSymbol) : SameRoads s (s.inStep x) := by
  unfold State.inStep
  split <;> simp

@[simp] theorem decode_sameRoads (g : LineGroup) : SameRoads s (s.decode g) := by
  unfold State.decode
  (repeat' split) <;> simp

@[simp] theorem hearGroup_sameRoads (g : LineGroup) : SameRoads s (s.hearGroup g) := by
  unfold State.hearGroup
  split <;> simp

@[simp] theorem hear_sameRoads (l : List LineGroup) : SameRoads s (s.hear l) := by
  unfold State.hear
  simp

/-! ### Deliveries (R50, R103) -/

@[simp] theorem withCtHandover_roadsLawful (p : CtMsg → Bool) (h : RoadsLawful s) : RoadsLawful (s.withCtHandover p) := by
  unfold State.withCtHandover
  (repeat' split) <;> simp [h]

@[simp] theorem withReHandover_sameRoads (k : Kind) : SameRoads s (s.withReHandover k) := by
  unfold State.withReHandover
  (repeat' split) <;> simp

@[simp] theorem withYuHandover_sameRoads (p : YuMsg → Bool) : SameRoads s (s.withYuHandover p) := by
  unfold State.withYuHandover
  (repeat' split) <;> simp

@[simp] theorem withChangeHandover_sameRoads : SameRoads s s.withChangeHandover := by
  unfold State.withChangeHandover
  split <;> simp

@[simp] theorem claimFrame_roadsLawful (f : RxFrame) (h : RoadsLawful s) : RoadsLawful (claimFrame f s) := by
  unfold claimFrame
  simp [h]

@[simp] theorem setFrame_roadsLawful (f : RxFrame) (h : RoadsLawful s) : RoadsLawful (setFrame f s) := by
  unfold setFrame
  dsimp only
  split <;> simp [h]

@[simp] theorem releaseFrame_roadsLawful (f : RxFrame) (h : RoadsLawful s) : RoadsLawful (releaseFrame f s) := by
  unfold releaseFrame
  dsimp only
  split <;> simp [h]

@[simp] theorem replyFrame_sameRoads (f : RxFrame) : SameRoads s (replyFrame f s) := by
  unfold replyFrame
  split <;> simp

@[simp] theorem bidCallFrame_sameRoads (f : RxFrame) : SameRoads s (bidCallFrame f s) := by
  unfold bidCallFrame
  dsimp only
  split <;> simp

@[simp] theorem awardFrame_sameRoads (f : RxFrame) : SameRoads s (awardFrame f s) := by
  unfold awardFrame
  dsimp only
  split <;> simp

@[simp] theorem withdrawFrame_sameRoads (f : RxFrame) : SameRoads s (withdrawFrame f s) := by
  unfold withdrawFrame
  dsimp only
  split <;> simp

/-! ### DU (R15) -/

@[simp] theorem evaluateSect_sameRoads (l : Levels) (k : Nat) : SameRoads s (State.evaluateSect l k s) := by
  unfold State.evaluateSect
  dsimp only
  (repeat' split) <;> simp

end

end Sys2Proof.Proofs
end

