-- ==== Sys2Proof/Proofs/StartUp.lean ====
section
/-! PROOF. Start-up up to the restore (O55): the straps, the image with its checks and its clamping, and the epoch (R172 to R176, R182). -/

namespace Sys2Proof.Proofs
open Sys2Proof.Machine Sys2Proof.Laws

/-! ### The image in the memory (R172, R181) -/

/-- The 13 bytes of the image's header. -/
def imageHeader (mem : List Host.Cell) : List Byte :=
  readBytes mem 0 13

/-- The body's length as the header gives it. -/
def imageLength (mem : List Host.Cell) : Nat :=
  wordAt (imageHeader mem) 0

/-- The body. -/
def imageBody (mem : List Host.Cell) : List Byte :=
  readBytes mem 13 (imageLength mem)

/-- The image as read. -/
def readImage (mem : List Host.Cell) : RawImage :=
  (readBody (imageHeader mem) (imageBody mem)).1

/-- None of the failures of R173 holds for the image. -/
def ImageAccepted (mem : List Host.Cell) (node : Nat) : Prop :=
  13 + imageLength mem ≤ 2048 ∧ bytes4 (crc32 (readBytes mem 0 9 ++ imageBody mem)).toNat = readBytes mem 9 4
    ∧ byteAt (imageHeader mem) 2 = node ∧ (readBody (imageHeader mem) (imageBody mem)).2 = imageLength mem
    ∧ (readImage mem).sound node

/-- A run of bytes is one run after another. -/
theorem readBytes_append (m : List Host.Cell) (a n k : Nat) : readBytes m a (n + k) = readBytes m a n ++ readBytes m (a + n) k := by
  induction n generalizing a with
  | zero => simp [readBytes]
  | succ n ih =>
    rw [Nat.add_right_comm, readBytes, ih, readBytes, List.cons_append, Nat.add_right_comm, Nat.add_assoc a n 1]

theorem imageHeader_eq (mem : List Host.Cell) : imageHeader mem = readBytes mem 0 9 ++ readBytes mem 9 4 :=
  readBytes_append mem 0 9 4

theorem imageHeader_take (mem : List Host.Cell) : (imageHeader mem).take 9 = readBytes mem 0 9 := by
  rw [imageHeader_eq]
  exact List.take_left' (readBytes_length mem 0 9)

theorem imageHeader_drop (mem : List Host.Cell) : (imageHeader mem).drop 9 = readBytes mem 9 4 := by
  rw [imageHeader_eq]
  exact List.drop_left' (readBytes_length mem 0 9)

/-- The structural checks pass exactly for a sound image: it has the counts of its header. -/
theorem structureOk_readImage (mem : List Host.Cell) (node : Nat) :
    structureOk (imageHeader mem) node (readImage mem) = true ↔ (readImage mem).sound node :=
  structureOk_iff _ _ _ (readList_length ..) (readList_length ..) (readList_length ..) (readList_length ..) (readList_length ..)
    (readRoutes_length ..)

theorem checkImage_eq (mem : List Host.Cell) (node : Nat) : checkImage mem node =
    if 2048 < 13 + imageLength mem then none
    else if bytes4 (crc32 ((imageHeader mem).take 9 ++ imageBody mem)).toNat ≠ (imageHeader mem).drop 9
        ∨ byteAt (imageHeader mem) 2 ≠ node then none
    else if structureOk (imageHeader mem) node (readImage mem)
        && (readBody (imageHeader mem) (imageBody mem)).2 == imageLength mem then
      some (useImage (readImage mem), clampsOf (readImage mem))
    else none := rfl

/-- An image with no failure is taken as read, with its values clamped. -/
theorem checkImage_accepted {mem : List Host.Cell} {node : Nat} (h : ImageAccepted mem node) :
    checkImage mem node = some (useImage (readImage mem), clampsOf (readImage mem)) := by
  obtain ⟨fits, crc, own, need, sound⟩ := h
  have checked : (structureOk (imageHeader mem) node (readImage mem) && (readBody (imageHeader mem) (imageBody mem)).2 == imageLength mem)
      = true := by
    rw [(structureOk_readImage mem node).mpr sound, need, beq_self_eq_true, Bool.and_self]
  rw [← imageHeader_take, ← imageHeader_drop] at crc
  rw [checkImage_eq, if_neg (Nat.not_lt.mpr fits), if_neg (not_or.mpr ⟨not_not.mpr crc, not_not.mpr own⟩), if_pos checked]

/-- An image that is taken has no failure. -/
theorem checkImage_some {mem : List Host.Cell} {node : Nat} {y : Yard} {clamps : List Clamp}
    (h : checkImage mem node = some (y, clamps)) : ImageAccepted mem node := by
  rw [checkImage_eq] at h
  split at h
  · cases h
  · rename_i fits
    split at h
    · cases h
    · rename_i agrees
      split at h
      · rename_i checked
        obtain ⟨crc, own⟩ := not_or.mp agrees
        obtain ⟨structured, need⟩ := Bool.and_eq_true_iff.mp checked
        refine ⟨Nat.le_of_not_lt fits, ?_, not_not.mp own, beq_iff_eq.mp need, (structureOk_readImage mem node).mp structured⟩
        rw [← imageHeader_take, ← imageHeader_drop]
        exact not_not.mp crc
      · cases h

theorem checkImage_eq_none {mem : List Host.Cell} {node : Nat} (h : ¬ ImageAccepted mem node) : checkImage mem node = none := by
  rcases hc : checkImage mem node with _ | ⟨y, clamps⟩
  · rfl
  · exact absurd (checkImage_some hc) h

/-! ### Clamping (R174) -/

theorem clampTo_bounds {lo hi : Nat} (h : lo ≤ hi) (v : Nat) : lo ≤ clampTo lo hi v ∧ clampTo lo hi v ≤ hi :=
  ⟨Nat.le_max_left .., Nat.max_le.mpr ⟨h, Nat.min_le_right ..⟩⟩

theorem clampTo_zero (hi v : Nat) : clampTo 0 hi v = min v hi := Nat.zero_max _

/-- There is at most one clamp note for each item. -/
theorem clampNotes_length {α : Type} (kind lo hi : Nat) (get : α → Nat) (k : Nat) (l : List α) :
    (clampNotes kind lo hi get k l).length ≤ l.length := by
  induction l generalizing k with
  | nil => exact Nat.le_refl _
  | cons x xs ih =>
    unfold clampNotes
    dsimp only
    split
    · exact Nat.le_succ_of_le (ih (k + 1))
    · exact Nat.succ_le_succ (ih (k + 1))

/-- The clamp list has a note for each point, two for each route and two for each road at most. -/
theorem clampsOf_length (m : RawImage) : (clampsOf m).length ≤ m.points.length + 2 * m.routes.length + 2 * m.roads.length := by
  have travels := clampNotes_length 1 1 6 (fun p : PointCfg => p.travel) 0 m.points
  have approaches := clampNotes_length 2 10 250 (fun r : RawRoute => r.approach) 0 m.routes
  have delays := clampNotes_length 3 5 60 (fun r : RawRoute => r.delay) 0 m.routes
  have capacities := clampNotes_length 4 1 8 (fun r : RoadCfg => r.capacity) 0 m.roads
  have weights := clampNotes_length 5 0 15 (fun r : RoadCfg => r.weight) 0 m.roads
  simp only [clampsOf, List.length_append]
  omega

/-- The notes of one kind, by their items. -/
theorem mem_clampNotes_zero {α : Type} (kind lo hi : Nat) (get : α → Nat) (l : List α) (c : Clamp) :
    c ∈ clampNotes kind lo hi get 0 l ↔ c.read ≠ c.used
      ∧ ∃ x, l[c.index]? = some x ∧ c.kind = kind ∧ c.read = get x ∧ c.used = clampTo lo hi (get x) := by
  rw [mem_clampNotes_iff]
  refine and_congr_right fun _ => ⟨?_, fun ⟨x, hx, note⟩ => ⟨c.index, x, hx, (Nat.zero_add _).symm, note⟩⟩
  rintro ⟨j, x, hx, index, note⟩
  rw [Nat.zero_add] at index
  exact ⟨x, index ▸ hx, note⟩

/-- The clamp list names exactly the values outside their ranges, with what is used for them. -/
theorem mem_clampsOf (m : RawImage) (c : Clamp) : c ∈ clampsOf m ↔ c.read ≠ c.used ∧
    ((∃ p, m.points[c.index]? = some p ∧ c.kind = 1 ∧ c.read = p.travel ∧ c.used = clampTo 1 6 p.travel)
    ∨ (∃ r, m.routes[c.index]? = some r ∧ c.kind = 2 ∧ c.read = r.approach ∧ c.used = clampTo 10 250 r.approach)
    ∨ (∃ r, m.routes[c.index]? = some r ∧ c.kind = 3 ∧ c.read = r.delay ∧ c.used = clampTo 5 60 r.delay)
    ∨ (∃ r, m.roads[c.index]? = some r ∧ c.kind = 4 ∧ c.read = r.capacity ∧ c.used = clampTo 1 8 r.capacity)
    ∨ (∃ r, m.roads[c.index]? = some r ∧ c.kind = 5 ∧ c.read = r.weight ∧ c.used = clampTo 0 15 r.weight)) := by
  simp only [clampsOf, List.mem_append, mem_clampNotes_zero, and_or_left, or_assoc]

/-- A sound route is used with the class, destination and direction that it has. -/
theorem useRoute_sound {m : RawImage} {node : Nat} {r : RawRoute} (h : r.sound m node) :
    some (useRoute r).cls = r.cls ∧ some (useRoute r).dest = r.dest ∧ some (useRoute r).dir = r.dir := by
  obtain ⟨⟨_, d, -, dir, -⟩, -, -, -, -, -, -, -, dest⟩ := h
  simp only [useRoute, dir]
  rcases dest with ⟨cls, n, k, dest⟩ | ⟨cls, dest⟩ | ⟨cls, k, dest, -⟩ <;> simp [cls, dest]

theorem soundImagesAreAccepted : Clause.SoundImagesAreAccepted := by
  intro mem node
  refine ⟨checkImage_eq_none, fun h => ⟨_, _, checkImage_accepted h, rfl, rfl, rfl, rfl, ?roads, List.length_map _, fun i r hr => ?route,
    fun c => ?clamps⟩⟩
  case roads =>
    simp only [useImage, clampTo_zero]
    rfl
  case route =>
    obtain ⟨-, -, -, -, sound⟩ := h
    obtain ⟨-, -, -, -, -, -, -, -, -, -, routes, -⟩ := sound
    obtain ⟨cls, dest, dir⟩ := useRoute_sound (routes r (List.mem_of_getElem? hr))
    have hu : (useImage (readImage mem)).routes[i]? = some (useRoute r) := by
      rw [useImage, List.getElem?_map]
      exact congrArg (Option.map useRoute) hr
    exact ⟨useRoute r, hu, rfl, cls, dest, dir, rfl, rfl, rfl⟩
  case clamps =>
    rw [mem_clampsOf]
    simp only [clampTo_zero]
    rfl

/-- The routes of a sound image, as used: both times in their ranges, and 1 to 12 steps. -/
theorem useRoute_ranges {m : RawImage} {node : Nat} {r : RawRoute} (h : r.sound m node) :
    10 ≤ (useRoute r).approach ∧ (useRoute r).approach ≤ 250 ∧ 5 ≤ (useRoute r).delay ∧ (useRoute r).delay ≤ 60
      ∧ 1 ≤ (useRoute r).steps.length ∧ (useRoute r).steps.length ≤ 12 := by
  obtain ⟨-, steps, ⟨st, rest, first, -⟩, -⟩ := h
  obtain ⟨approachLow, approachHigh⟩ := clampTo_bounds (show 10 ≤ 250 by decide) r.approach
  obtain ⟨delayLow, delayHigh⟩ := clampTo_bounds (show 5 ≤ 60 by decide) r.delay
  exact ⟨approachLow, approachHigh, delayLow, delayHigh, List.length_pos_iff.mpr (by simp [useRoute, first]), steps⟩

theorem takeImage_passed {s : State} {y : Yard} {clamps : List Clamp} (passed : checkImage s.mi.mem s.pt.node = some (y, clamps)) :
    s.takeImage true = { s with mi := { s.mi with desc := y, clamps := clamps, startup := .epoch } } := by
  unfold State.takeImage
  rw [if_pos rfl, passed]

theorem takeImage_failed {s : State} (failed : checkImage s.mi.mem s.pt.node = none) : s.takeImage true = s.configFault := by
  unfold State.takeImage
  rw [if_pos rfl, failed]

theorem imageIsCheckedAndClamped : Clause.ImageIsCheckedAndClamped := by
  refine ⟨fun s image => ⟨fun y clamps passed => (if_pos image).trans (congrArg _ (takeImage_passed passed)),
    fun failed => (if_pos image).trans (congrArg _ (takeImage_failed failed)), if_pos image⟩, fun mem node y clamps taken => ?_⟩
  have accepted := checkImage_some taken
  obtain ⟨rfl, rfl⟩ := Prod.mk.inj (Option.some.inj ((checkImage_accepted accepted).symm.trans taken))
  obtain ⟨-, crc, own, -, sound⟩ := accepted
  obtain ⟨⟨someSect, sects, points, signals, reqPoints, roads, routes⟩, -, -, listed, -, -, placed, -, -, -, sound, -⟩ := sound
  refine ⟨own, crc, someSect, sects, by simpa [useImage] using points, signals, reqPoints, by simpa [useImage] using roads,
    by simpa [useImage] using routes, fun p hp => ?travel, fun r hr => ?routes, fun r hr => ?roads, fun p c hp => ?listed, ?few,
    fun c hc => ((mem_clampsOf _ c).mp hc).1⟩
  case travel =>
    obtain ⟨q, -, rfl⟩ := List.mem_map.mp hp
    exact clampTo_bounds (by decide) _
  case routes =>
    obtain ⟨q, hq, rfl⟩ := List.mem_map.mp hr
    exact useRoute_ranges (sound q hq)
  case roads =>
    obtain ⟨q, hq, rfl⟩ := List.mem_map.mp hr
    obtain ⟨mouth, body, runOut⟩ := placed q hq
    obtain ⟨low, high⟩ := clampTo_bounds (show 1 ≤ 8 by decide) q.capacity
    obtain ⟨-, weight⟩ := clampTo_bounds (Nat.zero_le 15) q.weight
    exact ⟨low, high, weight, runOut, mouth, body⟩
  case listed =>
    obtain ⟨q, hq, rfl⟩ := Option.map_eq_some_iff.mp ((List.getElem?_map ..).symm.trans hp)
    exact listed p q hq
  case few =>
    have notes := clampsOf_length (readImage mem)
    omega

/-! ### The straps (R172) -/

theorem releaseSamplesTheStraps : Clause.ReleaseSamplesTheStraps := by
  intro straps s six
  have node : straps % 64 = straps := Nat.mod_eq_of_lt six
  refine ⟨fun held own => (if_pos held).trans ?_, fun held own => (if_pos held).trans ?_, fun going => if_neg going⟩
  · simp only [State.release, node, if_neg own]
  · subst own
    rfl

/-! ### The epoch (R175, R176) -/

/-- The memory with an epoch in copy A. -/
def copyAWritten (mem : List Host.Cell) (e : Epoch) : List Host.Cell :=
  writeBytes mem epochAddrA (encEpoch e)

/-- The memory with an epoch in both copies. -/
def bothCopiesWritten (mem : List Host.Cell) (e : Epoch) : List Host.Cell :=
  writeBytes (copyAWritten mem e) epochAddrB (encEpoch e)

section
variable {mem : List Host.Cell} (wf : Memory.wf mem = true)
include wf

theorem readByte_outsideA {l : List Byte} (len : l.length = 3) {a : Nat} (outside : a < 7936 ∨ 7939 ≤ a) :
    readByte (writeBytes mem epochAddrA l) a = readByte mem a := by
  obtain ⟨fitA, -⟩ := epochCopies_fit
  exact readByte_writeBytes_outside wf (by rwa [len]) (by rwa [len])

theorem readByte_outsideB {l : List Byte} (len : l.length = 3) {a : Nat} (outside : a < 7952 ∨ 7955 ≤ a) :
    readByte (writeBytes mem epochAddrB l) a = readByte mem a := by
  obtain ⟨-, fitB⟩ := epochCopies_fit
  exact readByte_writeBytes_outside wf (by rwa [len]) (by rwa [len])

theorem copyAWritten_wf (e : Epoch) : Memory.wf (copyAWritten mem e) = true :=
  have ⟨fitA, _⟩ := epochCopies_fit
  writeBytes_wf wf fitA

theorem epochCopy_copyAWritten (e : Epoch) : epochCopy (copyAWritten mem e) epochAddrA = some e :=
  have ⟨fitA, _⟩ := epochCopies_fit
  epochCopy_encEpoch e wf fitA

/-- What is written to copy B leaves copy A. -/
theorem epochCopy_writtenB {l : List Byte} (len : l.length = 3) :
    epochCopy (writeBytes mem epochAddrB l) epochAddrA = epochCopy mem epochAddrA :=
  have ⟨_, fitB⟩ := epochCopies_fit
  epochCopy_writeBytes_outside wf (by rwa [len]) (.inl (by decide))

end

section
variable {s : State}

theorem takeEpoch_none (none : storedEpoch s.mi.mem = none) (w : EpochWrite) : s.takeEpoch w = s.configFault := by
  unfold State.takeEpoch
  rw [none]

variable {old : Epoch} (stored : storedEpoch s.mi.mem = some old)
include stored

theorem takeEpoch_readFailed : s.takeEpoch .readFailed = s.configFault := by
  unfold State.takeEpoch
  rw [stored]

theorem takeEpoch_copyAFailed : s.takeEpoch .copyAFailed = s.failedCopy s.mi.mem epochAddrA := by
  unfold State.takeEpoch
  rw [stored]

theorem takeEpoch_copyBFailed : s.takeEpoch .copyBFailed = s.failedCopy (copyAWritten s.mi.mem (old + 1)) epochAddrB := by
  unfold State.takeEpoch
  rw [stored]
  rfl

theorem takeEpoch_confirmed : s.takeEpoch .confirmed = { s with
    mi := { s.mi with mem := bothCopiesWritten s.mi.mem (old + 1), startup := .restore }, pt := { s.pt with epoch := old + 1 } } := by
  unfold State.takeEpoch
  rw [stored]
  rfl

end

theorem exec_epochWriteDone {s : State} (epoch : s.mi.startup = .epoch) (w : EpochWrite) :
    exec (.epochWriteDone w) s = .next (s.takeEpoch w) := if_pos epoch

theorem epochAdvances : Clause.EpochAdvances := by
  refine ⟨fun s old inv epoch stored => ⟨?confirmed, fun w unconfirmed => ?failed⟩, fun s w epoch none => ?_,
    fun mem => ⟨fun e => storedEpoch_of_copyA, storedEpoch_of_badA⟩⟩
  case confirmed =>
    obtain ⟨wf, -⟩ := inv
    have wfA := copyAWritten_wf wf (old + 1)
    obtain ⟨-, fitB⟩ := epochCopies_fit
    refine ⟨_, (exec_epochWriteDone epoch _).trans (congrArg _ (takeEpoch_confirmed stored)), rfl, rfl, ?_,
      epochCopy_encEpoch _ wfA fitB, fun a outside => ?_, rfl⟩
    · exact (epochCopy_writtenB wfA rfl).trans (epochCopy_copyAWritten wf _)
    · exact (readByte_outsideB wfA rfl (by omega)).trans (readByte_outsideA wf rfl (by omega))
  case failed =>
    obtain ⟨wf, -⟩ := inv
    have wfA := copyAWritten_wf wf (old + 1)
    have free : (freeBytes s.freeIdx 3).length = 3 := freeBytes_length ..
    cases w with
    | confirmed => exact absurd rfl unconfirmed
    | readFailed =>
      exact ⟨_, (exec_epochWriteDone epoch _).trans (congrArg _ (takeEpoch_readFailed stored)), rfl, rfl, fun _ _ => rfl, fun _ => rfl,
        nofun, nofun, rfl⟩
    | copyAFailed =>
      exact ⟨_, (exec_epochWriteDone epoch _).trans (congrArg _ (takeEpoch_copyAFailed stored)), rfl, rfl,
        fun a outside => readByte_outsideA wf free (by omega), nofun, fun _ a low high => readByte_outsideA wf free (by omega),
        nofun, rfl⟩
    | copyBFailed =>
      exact ⟨_, (exec_epochWriteDone epoch _).trans (congrArg _ (takeEpoch_copyBFailed stored)), rfl, rfl,
        fun a outside => (readByte_outsideB wfA free (by omega)).trans (readByte_outsideA wf rfl (by omega)), nofun, nofun,
        fun _ => (epochCopy_writtenB wfA free).trans (epochCopy_copyAWritten wf _), rfl⟩
  · exact (exec_epochWriteDone epoch w).trans (congrArg _ (takeEpoch_none none w))

/-- Settles O55: the straps, the image as it is checked and clamped, the images that are accepted, and the epoch. -/
theorem startUp : Obligations.StartUp :=
  ⟨releaseSamplesTheStraps, imageIsCheckedAndClamped, soundImagesAreAccepted, epochAdvances⟩

end Sys2Proof.Proofs
end

