-- ==== Sys2Proof/Proofs/MemorySteps.lean ====
section
/-! PROOF. Every step keeps the canonical form of the configuration memory, and the roads that are written among the four records (O5):
start-up and resets, the road writes that end, and the cases of a command. -/

namespace Sys2Proof.Proofs
open Sys2Proof.Machine Sys2Proof.Laws

/-- `t` has the memory and the description of `s`, and keeps the law of the roads. -/
structure MemoryKept (s t : State) : Prop where
  mem : t.mi.mem = s.mi.mem
  desc : t.mi.desc = s.mi.desc
  roads : RoadsLawful s → RoadsLawful t

theorem MemoryKept.refl (s : State) : MemoryKept s s := ⟨rfl, rfl, id⟩

theorem MemoryKept.memoryInv {s t : State} (h : MemoryKept s t) (inv : MemoryInv s) : MemoryInv t := by
  rw [memoryInv_iff] at inv ⊢
  obtain ⟨wf, desc, roads⟩ := inv
  exact ⟨h.mem ▸ wf, h.desc ▸ desc, h.roads roads⟩

theorem MemoryKept.withFrame {act : RxFrame → State → State} (kept : ∀ f u, MemoryKept u (act f u)) (s : State) (k : Kind) :
    MemoryKept s (s.withFrame k act) := by
  unfold State.withFrame
  split
  · rename_i f fs _
    obtain ⟨mem, desc, roads⟩ := kept f { s with fs := fs }
    exact ⟨by simpa using mem, by simpa using desc, by simpa using roads⟩
  · exact .refl s

theorem MemoryKept.withTelegram {act : Telegram → State → State} (kept : ∀ x u, MemoryKept u (act x u)) (s : State) (p : Nat)
    (cls : TelClass) : MemoryKept s (s.withTelegram p cls act) := by
  unfold State.withTelegram
  split
  · split
    · dsimp only
      split
      · constructor <;> simp
      · obtain ⟨mem, desc, roads⟩ := kept _ { s with rq := { s.rq with telegrams := _ } }
        exact ⟨mem, desc, roads⟩
    · exact .refl s
  · exact .refl s

theorem windowEnds_memoryKept (s : State) (l : Levels) : MemoryKept s (s.windowEnds l) := by
  unfold State.windowEnds
  dsimp only
  split
  · split <;> constructor <;> simp +contextual [State.giveReadings]
  · constructor <;> simp +contextual

/-- A millisecond lets timers of the arrivals run (R159). -/
theorem tick_memoryKept (s : State) : MemoryKept s s.tick := by
  by_cases held : s.mi.startup = .held
  · rw [tick_held held]
    exact .refl s
  · rw [tick_running held]
    exact ⟨rfl, rfl, fun h => by simpa using h⟩

/-! ### Start-up and resets -/

theorem tornEpoch_wf {mem : List Host.Cell} (wf : Memory.wf mem = true) (k : Nat) : Memory.wf (tornEpoch mem k) = true := by
  obtain ⟨fitA, fitB⟩ := epochCopies_fit
  cases he : storedEpoch mem with
  | none => rwa [tornEpoch_none he]
  | some e =>
    rcases tornEpoch_cases he k with h | h | h | h <;> rw [h]
    · exact wf
    · exact writeBytes_wf wf (by simpa using fitA)
    · exact writeBytes_wf wf (by simpa using fitA)
    · exact writeBytes_wf (writeBytes_wf wf (by simpa using fitA)) (by simpa using fitB)

theorem tornRoad_wf {mem : List Host.Cell} (wf : Memory.wf mem = true) {r : Nat} (hr : r < 4) (k : Nat) :
    Memory.wf (tornRoad mem k r) = true := by
  rcases tornRoad_cases mem k r with h | h <;> rw [h]
  · exact wf
  · refine writeBytes_wf wf ?_
    simp only [badRecord_length, roadAddr, Config.memoryBytes]
    omega

theorem memAfterReset_wf {s : State} (inv : MemoryInv s) : Memory.wf s.memAfterReset.1 = true := by
  obtain ⟨wf, -, -, -, inHand⟩ := inv
  by_cases epoch : s.mi.startup = .epoch
  · rw [memAfterReset_epoch epoch]
    exact tornEpoch_wf wf _
  · rcases hw : s.mi.writing with _ | ⟨r, content⟩
    · rwa [memAfterReset_idle epoch hw]
    · rw [memAfterReset_road epoch hw]
      exact tornRoad_wf wf (inHand r content hw).1 _

theorem afterReset_memoryInv {s : State} (inv : MemoryInv s) (cause : ResetCause) : MemoryInv (s.afterReset cause) := by
  have ⟨_, desc, roads⟩ := (memoryInv_iff _).mp memoryInv_reset
  exact (memoryInv_iff _).mpr ⟨memAfterReset_wf inv, desc, roads⟩

theorem keepGroup1_memoryKept (s old : State) : MemoryKept s (s.keepGroup1 old) := ⟨rfl, rfl, id⟩

theorem configFault_memoryKept (s : State) : MemoryKept s s.configFault := ⟨rfl, rfl, id⟩

theorem release_memoryKept (s : State) (straps : Nat) : MemoryKept s (s.release straps) := by
  unfold State.release
  dsimp only
  split <;> exact ⟨rfl, rfl, id⟩

/-- An image that is taken describes at most four roads (R173). -/
theorem checkImage_roads {mem : List Host.Cell} {node : Nat} {y : Yard} {clamps : List Clamp}
    (taken : checkImage mem node = some (y, clamps)) : y.roads.length ≤ 4 := by
  have accepted := checkImage_some taken
  obtain ⟨rfl, rfl⟩ := Prod.mk.inj (Option.some.inj ((checkImage_accepted accepted).symm.trans taken))
  obtain ⟨-, -, -, -, ⟨-, -, -, -, -, roads, -⟩, -⟩ := accepted
  simpa [useImage] using roads

theorem takeImage_memoryInv {s : State} (inv : MemoryInv s) (acked : Bool) : MemoryInv (s.takeImage acked) := by
  cases acked with
  | false => exact (configFault_memoryKept s).memoryInv inv
  | true =>
    rcases taken : checkImage s.mi.mem s.pt.node with _ | ⟨y, clamps⟩
    · rw [takeImage_failed taken]
      exact (configFault_memoryKept s).memoryInv inv
    · rw [takeImage_passed taken]
      obtain ⟨wf, -, roads⟩ := (memoryInv_iff s).mp inv
      exact (memoryInv_iff _).mpr ⟨wf, checkImage_roads taken, roads⟩

/-- A memory in its canonical form may take the place of the one that stands. -/
theorem memoryInv_of_mem {s t : State} (wf : Memory.wf t.mi.mem = true) (desc : t.mi.desc = s.mi.desc) (yu : t.yu = s.yu)
    (writing : t.mi.writing = s.mi.writing) (inv : MemoryInv s) : MemoryInv t := by
  rw [memoryInv_iff, desc, yu, writing]
  exact ⟨wf, ((memoryInv_iff s).mp inv).2⟩

theorem takeEpoch_memoryInv {s : State} (inv : MemoryInv s) (w : EpochWrite) : MemoryInv (s.takeEpoch w) := by
  have faulted := (configFault_memoryKept s).memoryInv inv
  have ⟨wf, _⟩ := inv
  have ⟨fitA, fitB⟩ := epochCopies_fit
  have free : (freeBytes s.freeIdx 3).length = 3 := freeBytes_length ..
  rcases stored : storedEpoch s.mi.mem with _ | old
  · rwa [takeEpoch_none stored]
  · have wfA := copyAWritten_wf wf (old + 1)
    cases w with
    | readFailed => rwa [takeEpoch_readFailed stored]
    | copyAFailed =>
      rw [takeEpoch_copyAFailed stored]
      exact memoryInv_of_mem (s := s) (writeBytes_wf wf (by rwa [free])) rfl rfl rfl inv
    | copyBFailed =>
      rw [takeEpoch_copyBFailed stored]
      exact memoryInv_of_mem (s := s) (writeBytes_wf wfA (by rwa [free])) rfl rfl rfl inv
    | confirmed =>
      rw [takeEpoch_confirmed stored]
      exact memoryInv_of_mem (s := s) (writeBytes_wf wfA fitB) rfl rfl rfl inv

/-- The roads that restore corrects are roads of the description. -/
theorem correctedRoads_inside {restored : List Restored} {r : Nat} (h : r ∈ correctedRoads restored) : r < restored.length :=
  List.mem_range.mp (List.mem_of_mem_filter h)

/-- The entry into JOINING takes up to four roads of the description, and queues some of them (R163). -/
theorem enterJoining_memoryInv {s : State} (inv : MemoryInv s) {restored : List Restored}
    (count : restored.length = s.mi.desc.roads.length) : MemoryInv (s.enterJoining restored) := by
  obtain ⟨wf, desc, -, queued, writing⟩ := (memoryInv_iff s).mp inv
  have four : restored.length ≤ 4 := count ▸ desc
  have inside : ∀ r ∈ correctedRoads restored, r < 4 := fun r hr => Nat.lt_of_lt_of_le (correctedRoads_inside hr) four
  have joined : RoadsLawful (joiningState s restored) := ⟨by simpa [joiningState] using four, queued, writing⟩
  rw [memoryInv_iff, enterJoining_eq]
  refine ⟨by simpa [restoreReport_keeps, joiningState] using wf, by simpa [restoreReport_keeps, joiningState] using desc, ?_⟩
  exact queueRoads_lawful inside (by simpa [restoreReport_keeps] using joined)

/-! ### Road writes (R161, R162, R177) -/

/-- A road write that ends leaves its record's 35 bytes, whichever, and the next road may be handed over. -/
theorem writeEnded_memoryInv {s t : State} (inv : MemoryInv s) {r : Nat} {content : List Byte} (hw : s.mi.writing = some (r, content))
    {l : List Byte} (len : l.length = content.length) (mi : t.mi = { s.mi with mem := writeBytes s.mi.mem (roadAddr r) l, writing := none })
    (yu : t.yu = s.yu) {rs : List Nat} (inside : ∀ k ∈ rs, k < 4) : MemoryInv (t.queueRoads rs) := by
  obtain ⟨wf, desc, four, queued, inHand⟩ := (memoryInv_iff s).mp inv
  have fits := roadRecord_fits hw inv (len.trans (inHand r content hw).2)
  have ended : RoadsLawful t := by
    rw [RoadsLawful, mi, yu]
    exact ⟨four, queued, nofun⟩
  rw [memoryInv_iff]
  refine ⟨?_, ?_, queueRoads_lawful inside ended⟩
  · simpa [mi] using writeBytes_wf wf fits
  · simpa [mi] using desc

theorem roadWriteDone_memoryInv {s t : State} (inv : MemoryInv s) (h : exec .roadWriteDone s = .next t) : MemoryInv t := by
  rcases hw : s.mi.writing with _ | ⟨r, content⟩
  · simp only [exec, execRoadWriteDone, hw] at h
    cases h
    exact inv
  · rw [exec_roadWriteDone hw] at h
    cases h
    exact writeEnded_memoryInv (t := writeDone s r content) (rs := []) inv hw rfl rfl rfl nofun

theorem roadWriteFail_memoryInv {s t : State} (inv : MemoryInv s) (h : exec .roadWriteFail s = .next t) : MemoryInv t := by
  rcases hw : s.mi.writing with _ | ⟨r, content⟩
  · simp only [exec, execRoadWriteFail, hw] at h
    cases h
    exact inv
  · rw [exec_roadWriteFail hw] at h
    cases h
    have ⟨_, _, _, _, inHand⟩ := inv
    exact writeEnded_memoryInv (t := writeFailed s r content) inv hw (freeBytes_length s.freeIdx _) rfl rfl
      fun k hk => List.mem_singleton.mp hk ▸ (inHand r content hw).1

/-! ### One step -/

theorem exec_memoryInv {c : Instr} {s t : State} (inv : MemoryInv s) (h : exec c s = .next t) : MemoryInv t := by
  cases c with
  | powerOnReset =>
    cases h
    exact afterReset_memoryInv inv _
  | pinReset =>
    cases h
    exact (keepGroup1_memoryKept _ s).memoryInv (afterReset_memoryInv inv _)
  | resetRelease straps =>
    simp only [exec, execResetRelease] at h
    split at h <;> cases h
    · exact (release_memoryKept s straps).memoryInv inv
    · exact inv
  | imageReadDone acked =>
    simp only [exec, execImageReadDone] at h
    split at h <;> cases h
    · exact takeImage_memoryInv inv acked
    · exact inv
  | epochWriteDone result =>
    simp only [exec, execEpochWriteDone] at h
    split at h <;> cases h
    · exact takeEpoch_memoryInv inv result
    · exact inv
  | roadRestore acked =>
    simp only [exec, execRoadRestore] at h
    split at h <;> cases h
    · exact enterJoining_memoryInv inv (by simp [restoreRoads_eq])
    · exact inv
  | roadWriteDone => exact roadWriteDone_memoryInv inv h
  | roadWriteFail => exact roadWriteFail_memoryInv inv h
  | windowEnd levels =>
    simp only [exec, execWindowEnd] at h
    split at h <;> cases h
    · exact (windowEnds_memoryKept s levels).memoryInv inv
    · exact inv
  | startDelimiter align rd balance | commaReceived align rd balance =>
    cases h
    exact MemoryKept.memoryInv (by constructor <;> simp +contextual) inv
  | oversizeDiscard groups | lineQualityWindow groups | frameReceived groups =>
    cases h
    exact MemoryKept.memoryInv (by constructor <;> simp +contextual) inv
  | lossOfSync groups quiet =>
    cases quiet <;> cases h <;> exact MemoryKept.memoryInv (by constructor <;> simp +contextual) inv
  | holdOff | announce | state | inspect | inspectReply | event =>
    cases h
    exact (MemoryKept.withFrame (fun f u => by constructor <;> simp +contextual) s _).memoryInv inv
  | inRequest p | outRequest p | roadRequest p | destRequest p | unknownCodeTelegram p | cancel p =>
    cases h
    exact (MemoryKept.withTelegram (fun x u => by constructor <;> simp +contextual) s p _).memoryInv inv
  | grant v | deny v | setDone v | setFail v | claimLost v | passed v =>
    cases v <;> cases h
    · exact (MemoryKept.withFrame (fun f u => by constructor <;> simp +contextual) s _).memoryInv inv
    · exact MemoryKept.memoryInv (by constructor <;> simp +contextual [State.deliverReply]) inv
  | claim v | set v | release v | bidCall v | bid v | award v | awardWithdraw v =>
    cases v <;> cases h
    · exact (MemoryKept.withFrame (fun f u => by constructor <;> simp +contextual) s _).memoryInv inv
    · exact MemoryKept.memoryInv (by constructor <;> simp +contextual) inv
  | roadChange v =>
    cases v <;> cases h
    · exact (MemoryKept.withFrame (fun f u => by constructor <;> simp +contextual [roadChangeFrame]) s _).memoryInv inv
    · exact MemoryKept.memoryInv (by constructor <;> simp +contextual) inv
  | ownSourceFrame | lineAccess _ | transmissionEnd | accessRoundTimeout | firstIdlePoint | pointWindowEvaluation
  | signalWindowEvaluation | puSectionChange _ | ctSectionChange _ | reSectionChange _ | yuSectionChange _ | travelTimerExpiry _
  | permissionEnd _ | proceedCommand _ | stopCommand _ | clearingTimerExpiry _ | trialTimerExpiry _ | proved _ | clearFail _
  | lampFault _ | poolLowTimerExpiry | holdOffTimerExpiry _ | listenTimer | stateTimer | peerSilent _ | peerLost _ | ctUnusable _
  | ctUsable _ | ctEpochChange _ | reUnusable _ | reUsable _ | reEpochChange _ | yuUnusable _ | yuUsable _ | yuEpochChange _
  | ctIsolation | reIsolation | rqIsolation | yuIsolation | telegramGapTimeout _ | refusalHoldExpiry _ | slotLifetimeExpiry _
  | outcome | cancelInstance _ | moveDone _ | moveFail _ | detectionLost _ | reservedTimerExpiry _ | setTimerExpiry _
  | orphanClearExpiry _ _ | offerExpiry _ | holdTimerExpiry _ _ | bidTimerExpiry _ | roadWaitExpiry _ | awardWaitExpiry _
  | claimWindowExpiry _ | setWindowExpiry _ | approachTimerExpiry _ | releaseDelayExpiry _ | runThroughExpiry _
  | retryTimerExpiry _ | readerInputByte _ _ _ =>
    refine MemoryKept.memoryInv ?_ inv
    simp only [exec, execOwnSourceFrame, execLineAccess, execTransmissionEnd, execAccessRoundTimeout, execFirstIdlePoint,
      execPointWindowEvaluation, execSignalWindowEvaluation, execPuSectionChange, execCtSectionChange, execReSectionChange,
      execYuSectionChange, execTravelTimerExpiry, execPermissionEnd, execProceedCommand, execStopCommand, execClearingTimerExpiry,
      execTrialTimerExpiry, execProved, execClearFail, execLampFault, execPoolLowTimerExpiry, execHoldOffTimerExpiry,
      execListenTimer, execStateTimer, execPeerSilent, execPeerLost, execCtUnusable, execCtUsable, execCtEpochChange,
      execReUnusable, execReUsable, execReEpochChange, execYuUnusable, execYuUsable, execYuEpochChange, execCtIsolation,
      execReIsolation, execRqIsolation, execYuIsolation, execTelegramGapTimeout, execRefusalHoldExpiry, execSlotLifetimeExpiry,
      execOutcome, execCancelInstance, execMoveDone, execMoveFail, execDetectionLost, execReservedTimerExpiry,
      execSetTimerExpiry, execOrphanClearExpiry, execOfferExpiry, execHoldTimerExpiry, execBidTimerExpiry, execRoadWaitExpiry,
      execAwardWaitExpiry, execClaimWindowExpiry, execSetWindowExpiry, execApproachTimerExpiry, execReleaseDelayExpiry,
      execRunThroughExpiry, execRetryTimerExpiry, execReaderInputByte] at h
    (repeat' split at h) <;> (cases h; constructor <;> simp +contextual)

/-- Settles O5: by the cases of a command, of which each keeps the memory's form, the description's four roads and the law of the
roads. -/
theorem stepKeepsMemoryForm : Obligations.StepKeepsMemoryForm := by
  intro s t inv h
  cases hp : s.pending with
  | nil =>
    rw [step_idle hp] at h
    cases h
    exact (tick_memoryKept s).memoryInv inv
  | cons c rest =>
    simp only [step, hp] at h
    exact exec_memoryInv (s := { s with pending := rest }) ((memoryInv_iff _).mpr ((memoryInv_iff s).mp inv)) h

end Sys2Proof.Proofs
end

