-- ==== Sys2Proof/Proofs/Payloads.lean ====
section
/-! PROOF. Payloads read back as they were written (O60; R178, R179): one rule per shared field, then CLAIM, the replies of owners, BID-CALL
and AWARD. -/

namespace Sys2Proof.Proofs
open Sys2Proof.Machine Sys2Proof.Laws

/-! ### Offsets: a field behind other bytes is read from where it begins (R178) -/

theorem byteAt_append_right (pre l : List Byte) (k : Nat) : byteAt (pre ++ l) (pre.length + k) = byteAt l k := by
  rw [byteAt, byteAt, List.getElem?_append_right (Nat.le_add_right _ _), Nat.add_sub_cancel_left]

theorem wordAt_append_right (pre l : List Byte) (k : Nat) : wordAt (pre ++ l) (pre.length + k) = wordAt l k := by
  rw [wordAt, wordAt, Nat.add_assoc, byteAt_append_right, byteAt_append_right]

theorem decCall_append_right (pre l : List Byte) (k : Nat) : decCall (pre ++ l) (pre.length + k) = decCall l k := by
  rw [decCall, decCall, Nat.add_assoc, byteAt_append_right, byteAt_append_right]

theorem decTram_append_right (pre l : List Byte) (k : Nat) : decTram (pre ++ l) (pre.length + k) = decTram l k := by
  simp only [decTram, Nat.add_assoc, byteAt_append_right, wordAt_append_right]

theorem decStep_append_right (pre l : List Byte) (k : Nat) : decStep (pre ++ l) (pre.length + k) = decStep l k := by
  simp only [decStep, Nat.add_assoc, byteAt_append_right]

/-! ### Shared fields (R178, R179) -/

/-- A number that fits one byte is read where that byte stands. -/
theorem byteAt_of_byte {l : List Byte} {k n : Nat} (stands : l[k]? = some (byte n)) (h : n < 256) : byteAt l k = n := by
  rw [byteAt_of_getElem? stands, byte_toNat, Nat.mod_eq_of_lt h]

/-- A number that fits a 2-byte field is read where its bytes stand. -/
theorem wordAt_of_bytes {l : List Byte} {k n : Nat} (high : l[k]? = some (byte (n / 256))) (low : l[k + 1]? = some (byte n))
    (h : n < 65536) : wordAt l k = n := by
  rw [wordAt, byteAt_of_byte high (by omega), byteAt_of_getElem? low, byte_toNat]
  omega

/-- FFh stands for no index, so an index below it reads back. -/
theorem decAbsent_of_encAbsent {l : List Byte} {k : Nat} {x : Option Nat} (stands : l[k]? = some (encAbsent x))
    (h : ∀ n, x = some n → n < 255) : decAbsent (byteAt l k) = x := by
  cases x with
  | none =>
    rw [byteAt_of_getElem? stands]
    rfl
  | some n =>
    have small := h n rfl
    rw [byteAt_of_byte stands (by omega), decAbsent, if_neg (by omega)]

/-- The parts of a route key that the model holds as numbers fit their bytes. -/
structure KeyFits (k : RouteKey) : Prop where
  owner : k.owner < 256
  route : k.route < 256
  attempt : k.attempt < 256

theorem decKey_encKey {k : RouteKey} (h : KeyFits k) (rest : List Byte) : decKey (encKey k ++ rest) = k := by
  have owner : byteAt (encKey k ++ rest) 0 = k.owner := byteAt_of_byte rfl h.owner
  have epoch : wordAt (encKey k ++ rest) 1 = k.epoch.toNat := wordAt_of_bytes rfl rfl k.epoch.isLt
  have route : byteAt (encKey k ++ rest) 3 = k.route := byteAt_of_byte rfl h.route
  have serial : wordAt (encKey k ++ rest) 4 = k.serial.toNat := wordAt_of_bytes rfl rfl k.serial.isLt
  have attempt : byteAt (encKey k ++ rest) 6 = k.attempt := byteAt_of_byte rfl h.attempt
  simp only [decKey, owner, epoch, route, serial, attempt, BitVec.ofNat_toNat, BitVec.setWidth_eq]

theorem decCall_encCall {c : CallId} (hcaller : c.caller < 256) (hseq : c.seq < 256) (rest : List Byte) :
    decCall (encCall c ++ rest) 0 = c := by
  have caller : byteAt (encCall c ++ rest) 0 = c.caller := byteAt_of_byte rfl hcaller
  have seq : byteAt (encCall c ++ rest) 1 = c.seq := byteAt_of_byte rfl hseq
  rw [decCall, caller, seq]

/-- Places of 1 and 2 are the ones that a places field gives back. -/
theorem takenPlaces_of_valid {n : Nat} (h : n = 1 ∨ n = 2) : takenPlaces n = n := by
  obtain rfl | rfl := h <;> rfl

/-- The parts of a tram record fit their fields, and its places are a count that a places field names. -/
structure TramFits (t : TramRec) : Prop where
  tram : t.tram < 65536
  places : t.places = 1 ∨ t.places = 2
  slot : t.slot < 256

theorem decTram_encTram {t : TramRec} (h : TramFits t) (rest : List Byte) : decTram (encTram t ++ rest) 0 = t := by
  obtain ⟨htram, hplaces, hslot⟩ := h
  have tram : wordAt (encTram t ++ rest) 0 = t.tram := wordAt_of_bytes rfl rfl htram
  have places : byteAt (encTram t ++ rest) 2 = t.places := byteAt_of_byte rfl (by omega)
  have slot : byteAt (encTram t ++ rest) 3 = t.slot := byteAt_of_byte rfl hslot
  rw [decTram, tram, places, slot, takenPlaces_of_valid hplaces]

/-! ### The demands of a step (R179) -/

theorem demandNibble_lt (d : Demand) : demandNibble d < 16 := by
  obtain ⟨point, pos⟩ := d
  cases pos <;> simp only [demandNibble, Position.code] <;> omega

theorem ofNibble_demandNibble {d : Demand} (h : d.point < 8) : ofNibble (demandNibble d) = d := by
  obtain ⟨point, pos⟩ := d
  have low : point % 8 = point := Nat.mod_eq_of_lt h
  cases pos with
  | normal => simp [ofNibble, demandNibble, Position.code, low, Nat.div_eq_of_lt h]
  | reverse => simp [ofNibble, demandNibble, Position.code, low, Nat.add_div_left, Nat.div_eq_of_lt h]

theorem encDemands_lt (l : List Demand) : encDemands l < 256 := by
  match l with
  | [] => exact Nat.zero_lt_succ _
  | [d] =>
    have first := demandNibble_lt d
    simp only [encDemands]
    omega
  | d :: e :: _ =>
    have first := demandNibble_lt d
    have second := demandNibble_lt e
    simp only [encDemands]
    omega

theorem decDemands_encDemands {l : List Demand} (hlen : l.length ≤ 2) (hpoint : ∀ d ∈ l, d.point < 8) :
    decDemands l.length (encDemands l) = l := by
  match l with
  | [] => rfl
  | [d] =>
    have high : 16 * demandNibble d / 16 = demandNibble d := Nat.mul_div_cancel_left _ (by decide)
    rw [encDemands, decDemands, high, ofNibble_demandNibble (hpoint d (by simp))]
    rfl
  | [d, e] =>
    have small := demandNibble_lt e
    have high : (16 * demandNibble d + demandNibble e) / 16 = demandNibble d := by omega
    have low : (16 * demandNibble d + demandNibble e) % 16 = demandNibble e := by omega
    rw [encDemands, decDemands, high, low, ofNibble_demandNibble (hpoint d (by simp)), ofNibble_demandNibble (hpoint e (by simp))]
    rfl
  | _ :: _ :: _ :: _ => simp at hlen

/-! ### The steps of a CLAIM (R179) -/

/-- What a step must keep to for its three bytes to hold it. -/
structure StepFits (st : ReqStep) : Prop where
  number : st.number < 16
  sect : st.sect < 256
  count : st.demandCount = st.demands.length
  few : st.demands.length ≤ 2
  point : ∀ d ∈ st.demands, d.point < 8

/-- The second byte of a step: its number, its two flags and its demand count. -/
def stepFlags (st : ReqStep) : Nat :=
  16 * st.number + (if st.nextLocal then 8 else 0) + (if st.mouth then 4 else 0) + st.demandCount % 4

theorem encStep_eq (st : ReqStep) : encStep st = [byte st.sect, byte (stepFlags st), byte (encDemands st.demands)] := rfl

theorem stepFlags_lt {st : ReqStep} (h : st.number < 16) : stepFlags st < 256 := by
  unfold stepFlags
  split <;> split <;> omega

/-- The fields of the second byte do not overlap. -/
theorem stepFlags_fields (st : ReqStep) : stepFlags st / 16 = st.number ∧ decide (stepFlags st / 8 % 2 = 1) = st.nextLocal
    ∧ decide (stepFlags st / 4 % 2 = 1) = st.mouth ∧ stepFlags st % 4 = st.demandCount % 4 := by
  obtain ⟨number, sect, nextLocal, mouth, count, demands⟩ := st
  simp only [stepFlags]
  cases nextLocal <;> cases mouth <;> simp <;> omega

theorem decStep_encStep {st : ReqStep} (h : StepFits st) (rest : List Byte) : decStep (encStep st ++ rest) 0 = st := by
  obtain ⟨number, nextLocal, mouth, count⟩ := stepFlags_fields st
  have sect : byteAt (encStep st ++ rest) 0 = st.sect := byteAt_of_byte rfl h.sect
  have flags : byteAt (encStep st ++ rest) (0 + 1) = stepFlags st := byteAt_of_byte rfl (stepFlags_lt h.number)
  have demands : byteAt (encStep st ++ rest) (0 + 2) = encDemands st.demands := byteAt_of_byte rfl (encDemands_lt _)
  have counted : stepFlags st % 4 = st.demands.length := by
    rw [count, h.count, Nat.mod_eq_of_lt (Nat.lt_of_le_of_lt h.few (by decide))]
  simp only [decStep, sect, flags, demands, number, nextLocal, mouth, counted, decDemands_encDemands h.few h.point]
  rw [← h.count]

/-- Steps that stand one after the other from the end of `pre` on. -/
theorem decSteps_flatMap_encStep (pre : List Byte) {steps : List ReqStep} (h : ∀ st ∈ steps, StepFits st) :
    decSteps (pre ++ steps.flatMap encStep) pre.length steps.length = steps := by
  induction steps generalizing pre with
  | nil => rfl
  | cons st later ih =>
    have first : decStep (pre ++ (encStep st ++ later.flatMap encStep)) pre.length = st :=
      (decStep_append_right pre _ 0).trans (decStep_encStep (h st List.mem_cons_self) _)
    have next : pre.length + 3 = (pre ++ encStep st).length := by rw [List.length_append, encStep_eq]; rfl
    rw [List.flatMap_cons, List.length_cons, decSteps, first, next, ← List.append_assoc,
      ih _ (fun x hx => h x (List.mem_cons_of_mem _ hx))]

/-! ### The CLAIM (R179) -/

/-- The class of a CLAIM as a code; 3 is no class (R182). -/
def classCode (cls : Option RouteClass) : Nat :=
  match cls with
  | some k => k.code
  | none => 3

/-- Bits 6 and 7 of byte 7 of a CLAIM: whether it has an award reference, and of which kind. -/
def awardMarks (award : Option AwardRef) : Nat :=
  match award with
  | some a => 64 + (if a.direct then 128 else 0)
  | none => 0

/-- Byte 7 of a CLAIM. -/
def claimFlags (c : ClaimReq) : Nat :=
  classCode c.cls + awardMarks c.award

/-- Bytes 11 and 12 of a CLAIM. -/
def awardBytes (award : Option AwardRef) : List Byte :=
  match award with
  | some a => encCall a.call
  | none => [255, 255]

/-- The bytes of a CLAIM before its award call ID. -/
def claimFront (c : ClaimReq) : List Byte :=
  encKey c.key ++ byte (claimFlags c) :: bytes2 c.tram ++ [byte c.approach]

/-- The bytes of a CLAIM before its steps. -/
def claimHead (c : ClaimReq) : List Byte :=
  claimFront c ++ (awardBytes c.award ++ [byte c.steps.length])

theorem encClaim_eq (c : ClaimReq) : encClaim c = claimHead c ++ c.steps.flatMap encStep := by
  obtain ⟨key, cls, tram, approach, award, steps⟩ := c
  cases award <;> rfl

theorem awardBytes_length (award : Option AwardRef) : (awardBytes award).length = 2 := by
  cases award <;> rfl

theorem encClaim_count (c : ClaimReq) : (encClaim c)[13]? = some (byte c.steps.length) := by
  obtain ⟨key, cls, tram, approach, award, steps⟩ := c
  cases award <;> rfl

theorem claimHead_length (c : ClaimReq) : (claimHead c).length = 14 := by
  rw [claimHead, List.length_append, List.length_append, awardBytes_length]
  rfl

theorem classCode_lt (cls : Option RouteClass) : classCode cls < 4 := by
  match cls with
  | none | some .runIn | some .runOut | some .shunt => decide

theorem ofCode_classCode (cls : Option RouteClass) : RouteClass.ofCode (classCode cls) = cls := by
  match cls with
  | none | some .runIn | some .runOut | some .shunt => rfl

theorem awardMarks_some (a : AwardRef) : awardMarks (some a) = 64 + 128 * a.direct.toNat := by
  obtain ⟨call, direct⟩ := a
  cases direct <;> rfl

/-- The award leaves the class its two bits, and the byte holds both. -/
theorem claimFlags_class_and_lt (c : ClaimReq) : RouteClass.ofCode (claimFlags c % 4) = c.cls ∧ claimFlags c < 256 := by
  have small := classCode_lt c.cls
  obtain ⟨low, whole⟩ : claimFlags c % 4 = classCode c.cls ∧ claimFlags c < 256 := by
    unfold claimFlags
    cases c.award with
    | none => simp only [awardMarks]; omega
    | some a =>
      have bit := a.direct.toNat_lt
      rw [awardMarks_some]
      omega
  exact ⟨by rw [low, ofCode_classCode], whole⟩

/-- Bits 6 and 7 of byte 7 and the call ID give the award reference back. -/
theorem award_reads_back (c : ClaimReq) (h : ∀ a, c.award = some a → a.call.caller < 256 ∧ a.call.seq < 256) (rest : List Byte) :
    (if claimFlags c / 64 % 2 = 1 then some (AwardRef.mk (decCall (awardBytes c.award ++ rest) 0) (claimFlags c / 128 % 2 = 1)) else none)
      = c.award := by
  have small := classCode_lt c.cls
  unfold claimFlags
  cases award : c.award with
  | none => rw [if_neg (by simp only [awardMarks]; omega)]
  | some a =>
    obtain ⟨caller, seq⟩ := h a award
    have bit := a.direct.toNat_lt
    have direct : decide ((classCode c.cls + awardMarks (some a)) / 128 % 2 = 1) = a.direct := by
      have bit7 : (classCode c.cls + awardMarks (some a)) / 128 % 2 = a.direct.toNat := by rw [awardMarks_some]; omega
      rw [bit7]
      cases a.direct <;> rfl
    rw [if_pos (by rw [awardMarks_some]; omega), direct, awardBytes, decCall_encCall caller seq]

/-- What a CLAIM must keep to for its payload to hold it. -/
structure ClaimFits (c : ClaimReq) : Prop where
  key : KeyFits c.key
  tram : c.tram < 65536
  approach : c.approach < 256
  award : ∀ a, c.award = some a → a.call.caller < 256 ∧ a.call.seq < 256
  count : c.steps.length < 256
  steps : ∀ st ∈ c.steps, StepFits st

theorem decClaim_encClaim {c : ClaimReq} (h : ClaimFits c) : decClaim (encClaim c) = c := by
  obtain ⟨cls, fits⟩ := claimFlags_class_and_lt c
  have layout : encClaim c = claimFront c ++ (awardBytes c.award ++ (byte c.steps.length :: c.steps.flatMap encStep)) := by
    rw [encClaim_eq, claimHead, List.append_assoc, List.append_assoc, List.singleton_append]
  have key : decKey (encClaim c) = c.key := by
    rw [layout, claimFront, List.append_assoc, List.append_assoc]
    exact decKey_encKey h.key _
  have flags : byteAt (encClaim c) 7 = claimFlags c := by
    rw [layout]
    exact byteAt_of_byte rfl fits
  have tram : wordAt (encClaim c) 8 = c.tram := by
    rw [layout]
    exact wordAt_of_bytes rfl rfl h.tram
  have approach : byteAt (encClaim c) 10 = c.approach := by
    rw [layout]
    exact byteAt_of_byte rfl h.approach
  have call : decCall (encClaim c) 11 = decCall (awardBytes c.award ++ (byte c.steps.length :: c.steps.flatMap encStep)) 0 := by
    rw [layout]
    exact decCall_append_right (claimFront c) _ 0
  have count : byteAt (encClaim c) 13 = c.steps.length := byteAt_of_byte (encClaim_count c) h.count
  have steps : decSteps (encClaim c) 14 c.steps.length = c.steps := by
    rw [encClaim_eq, ← claimHead_length c]
    exact decSteps_flatMap_encStep _ h.steps
  simp only [decClaim, key, flags, tram, approach, call, count, steps, cls, award_reads_back c h.award]

/-! ### The replies of owners (R129, R179) -/

theorem denyReason_ofCode_code (r : DenyReason) : DenyReason.ofCode r.code = some r := by
  cases r <;> rfl

theorem denyReason_code_lt (r : DenyReason) : r.code < 256 := by
  cases r <;> decide

theorem setFailCause_ofCode_code (c : SetFailCause) : SetFailCause.ofCode c.code = some c := by
  cases c <;> rfl

theorem setFailCause_code_lt (c : SetFailCause) : c.code < 256 := by
  cases c <;> decide

theorem lostCause_ofCode_code (c : LostCause) : LostCause.ofCode c.code = some c := by
  cases c <;> rfl

theorem lostCause_code_lt (c : LostCause) : c.code < 256 := by
  cases c <;> decide

/-- The frame that carries a message to a route engine, as it is filed. -/
def filedReply (m : ReMsg) (rx : RxRec) : RxFrame :=
  ⟨m.kind, rx, encReMsg m⟩

section Replies
variable {key : RouteKey} (fits : KeyFits key) (rx : RxRec)
include fits

theorem decReply_grant {id : Nat} (h : id < 256) : decReply (filedReply (.grant key id) rx) = some (.grant key id) := by
  have back : byteAt (encKey key ++ [byte id]) 7 = id := byteAt_of_byte rfl h
  simp only [decReply, filedReply, encReMsg, ReMsg.kind, ReMsg.key, decKey_encKey fits, back]

theorem decReply_deny (r : DenyReason) {n : Nat} {d : Option Nat} (hn : n < 256) (hd : ∀ x, d = some x → x < 255) :
    decReply (filedReply (.deny key r n d) rx) = some (.deny key r n d) := by
  have reason : byteAt (encKey key ++ [byte r.code, byte n, encAbsent d]) 7 = r.code := byteAt_of_byte rfl (denyReason_code_lt r)
  have step : byteAt (encKey key ++ [byte r.code, byte n, encAbsent d]) 8 = n := byteAt_of_byte rfl hn
  have detail : decAbsent (byteAt (encKey key ++ [byte r.code, byte n, encAbsent d]) 9) = d := decAbsent_of_encAbsent rfl hd
  simp only [decReply, filedReply, encReMsg, ReMsg.kind, ReMsg.key, decKey_encKey fits, reason, step, detail, denyReason_ofCode_code,
    Option.getD_some]

/-- A SET-DONE carries no time: it gets the time of its arrival (R130). -/
theorem decReply_setDone (at_ : Time) : decReply (filedReply (.setDone key at_) rx) = some (.setDone key rx.arrival) := by
  simp only [decReply, filedReply, encReMsg, ReMsg.kind, ReMsg.key, decKey_encKey fits]

theorem decReply_passed {n : Nat} (h : n < 256) : decReply (filedReply (.passed key n) rx) = some (.passed key n) := by
  have back : byteAt (encKey key ++ [byte n]) 7 = n := byteAt_of_byte rfl h
  simp only [decReply, filedReply, encReMsg, ReMsg.kind, ReMsg.key, decKey_encKey fits, back]

theorem decReply_setFail {p : Option Nat} (c : SetFailCause) (hp : ∀ x, p = some x → x < 255) :
    decReply (filedReply (.setFail key p c) rx) = some (.setFail key p c) := by
  have point : decAbsent (byteAt (encKey key ++ [encAbsent p, byte c.code]) 7) = p := decAbsent_of_encAbsent rfl hp
  have cause : byteAt (encKey key ++ [encAbsent p, byte c.code]) 8 = c.code := byteAt_of_byte rfl (setFailCause_code_lt c)
  simp only [decReply, filedReply, encReMsg, ReMsg.kind, ReMsg.key, decKey_encKey fits, point, cause, setFailCause_ofCode_code,
    Option.getD_some]

theorem decReply_claimLost (c : LostCause) {p : Option Nat} (hp : ∀ x, p = some x → x < 255) :
    decReply (filedReply (.claimLost key c p) rx) = some (.claimLost key c p) := by
  have cause : byteAt (encKey key ++ [byte c.code, encAbsent p]) 7 = c.code := byteAt_of_byte rfl (lostCause_code_lt c)
  have point : decAbsent (byteAt (encKey key ++ [byte c.code, encAbsent p]) 8) = p := decAbsent_of_encAbsent rfl hp
  simp only [decReply, filedReply, encReMsg, ReMsg.kind, ReMsg.key, decKey_encKey fits, point, cause, lostCause_ofCode_code,
    Option.getD_some]

end Replies

/-! ### BID-CALL and AWARD (R123, R126, R179) -/

section Stabling
variable {call : CallId} (caller : call.caller < 256) (seq : call.seq < 256) {t : TramRec} (fits : TramFits t)
include caller seq fits

theorem encBidCall_reads_back : decCall (encBidCall call t) 0 = call ∧ decTram (encBidCall call t) 2 = t := by
  constructor
  · exact decCall_encCall caller seq (encTram t)
  · exact (decTram_append_right (encCall call) (encTram t) 0).trans (decTram_encTram fits [])

theorem encAward_reads_back {road : Nat} (hroad : road < 256) (direct : Bool) :
    decCall (encAward call road t direct) 0 = call ∧ byteAt (encAward call road t direct) 2 = road
      ∧ decTram (encAward call road t direct) 3 = t ∧ decide (byteAt (encAward call road t direct) 7 % 2 = 1) = direct := by
  have layout : encAward call road t direct = encCall call ++ byte road :: (encTram t ++ [if direct then 1 else 0]) := rfl
  refine ⟨?_, ?_, ?_, ?_⟩
  · rw [layout, decCall_encCall caller seq]
  · exact byteAt_of_byte rfl hroad
  · exact (decTram_append_right (encCall call ++ [byte road]) _ 0).trans (decTram_encTram fits _)
  · cases direct <;> rfl

end Stabling

/-- Settles O60: each field stands where its reader looks for it, and gives back a value that fits it. -/
theorem payloadsReadBack : Obligations.PayloadsReadBack := by
  refine ⟨fun c owner route attempt tram approach award count steps => ?_, fun m rx owner route attempt => ?_,
    fun call t road direct caller seq tram places slot road_lt => ?_⟩
  · refine decClaim_encClaim ⟨⟨owner, route, attempt⟩, tram, approach, award, count, fun st hst => ?_⟩
    obtain ⟨number, sect, counted, few, point⟩ := steps st hst
    exact ⟨number, sect, counted, few, point⟩
  · have fits : KeyFits m.key := ⟨owner, route, attempt⟩
    refine ⟨?_, ?_, ?_, ?_, ?_, ?_⟩
    · rintro key id rfl small
      exact decReply_grant fits rx small
    · rintro key r n d rfl small detail
      exact decReply_deny fits rx r small detail
    · rintro key at_ rfl
      exact decReply_setDone fits rx at_
    · rintro key n rfl small
      exact decReply_passed fits rx small
    · rintro key p cause rfl point
      exact decReply_setFail fits rx cause point
    · rintro key cause p rfl point
      exact decReply_claimLost fits rx cause point
  · have fits : TramFits t := ⟨tram, places, slot⟩
    obtain ⟨callBack, tramBack⟩ := encBidCall_reads_back caller seq fits
    exact ⟨callBack, tramBack, encAward_reads_back caller seq fits road_lt direct⟩

end Sys2Proof.Proofs
end

