-- ==== Sys2Proof/Proofs/Pieces.lean ====
section
/-! PROOF. What an operation leaves of a block that it does change: the pieces that the frame of the commands names (O58). The `_keeps`
lemmas of Laws/Frames.lean speak of whole blocks; a message, a notice or a report that one block gives another joins a list of the other
block's and leaves its records. One lemma per operation, in the order of the model. -/

namespace Sys2Proof.Proofs
open Sys2Proof.Machine Sys2Proof.Laws

/-! ### Running an operation for each item -/

@[simp] theorem forEach_pu_points {α : Type} (l : List α) (f : α → State → State) (s : State)
    (h : ∀ x s, (f x s).pu.points = s.pu.points) : (forEach l f s).pu.points = s.pu.points := forEach_keeps (·.pu.points) l f h s

@[simp] theorem forEach_pu_moves {α : Type} (l : List α) (f : α → State → State) (s : State)
    (h : ∀ x s, (f x s).pu.moves = s.pu.moves) : (forEach l f s).pu.moves = s.pu.moves := forEach_keeps (·.pu.moves) l f h s

@[simp] theorem forEach_pu_fails {α : Type} (l : List α) (f : α → State → State) (s : State)
    (h : ∀ x s, (f x s).pu.fails = s.pu.fails) : (forEach l f s).pu.fails = s.pu.fails := forEach_keeps (·.pu.fails) l f h s

@[simp] theorem forEach_su_signals {α : Type} (l : List α) (f : α → State → State) (s : State)
    (h : ∀ x s, (f x s).su.signals = s.su.signals) : (forEach l f s).su.signals = s.su.signals := forEach_keeps (·.su.signals) l f h s

@[simp] theorem forEach_re_insts {α : Type} (l : List α) (f : α → State → State) (s : State)
    (h : ∀ x s, (f x s).re.insts = s.re.insts) : (forEach l f s).re.insts = s.re.insts := forEach_keeps (·.re.insts) l f h s

@[simp] theorem forEach_re_callSeq {α : Type} (l : List α) (f : α → State → State) (s : State)
    (h : ∀ x s, (f x s).re.callSeq = s.re.callSeq) : (forEach l f s).re.callSeq = s.re.callSeq := forEach_keeps (·.re.callSeq) l f h s

@[simp] theorem forEach_yu_roads {α : Type} (l : List α) (f : α → State → State) (s : State)
    (h : ∀ x s, (f x s).yu.roads = s.yu.roads) : (forEach l f s).yu.roads = s.yu.roads := forEach_keeps (·.yu.roads) l f h s

/-! ### Messages to a route engine

A message to the own RE joins what CT or YU hands it; RE has not taken it yet (log entry 5). -/

@[simp] theorem tellRe_pieces (s : State) (dest : Nat) (m : ReMsg) : (s.tellRe dest m).re.callSeq = s.re.callSeq := by
  unfold State.tellRe
  (repeat' split) <;> simp

/-! ### SU

A report to RE joins the reports that wait. -/

@[simp] theorem takeProceed_pieces (s : State) (g : Nat) (d : Direction) :
    (s.takeProceed g d).re.insts = s.re.insts ∧ (s.takeProceed g d).re.callSeq = s.re.callSeq := by
  unfold State.takeProceed
  (repeat' split) <;> simp

@[simp] theorem clearingExpiry_pieces (s : State) (g : Nat) :
    (s.clearingExpiry g).re.insts = s.re.insts ∧ (s.clearingExpiry g).re.callSeq = s.re.callSeq := by
  unfold State.clearingExpiry
  (repeat' split) <;> simp

/-! ### YU

YU hands RE bids and road changes; the roads queue for their writes in MI (R161). -/

@[simp] theorem serveRoadQueue_pieces (s : State) : s.serveRoadQueue.yu.roads = s.yu.roads := by
  unfold State.serveRoadQueue
  (repeat' split) <;> simp

@[simp] theorem sendRoadChange_pieces (s : State) (r : Nat) : (s.sendRoadChange r).re.callSeq = s.re.callSeq := by
  unfold State.sendRoadChange
  (repeat' split) <;> simp

@[simp] theorem announceGains_pieces (s : State) (old : List RoadRec) : (s.announceGains old).re.callSeq = s.re.callSeq := by
  refine forEach_keeps (·.re.callSeq) _ _ (fun r u => ?_) s
  (repeat' split) <;> simp

@[simp] theorem answerCall_pieces (s : State) (call : CallId) (epoch : Epoch) (t : TramRec) :
    (s.answerCall call epoch t).re.insts = s.re.insts ∧ (s.answerCall call epoch t).re.callSeq = s.re.callSeq := by
  unfold State.answerCall
  dsimp only
  (repeat' split) <;> simp

@[simp] theorem takeBidCall_pieces (s : State) (call : CallId) (epoch : Epoch) (t : TramRec) :
    (s.takeBidCall call epoch t).re.callSeq = s.re.callSeq := by
  unfold State.takeBidCall
  dsimp only
  split <;> simp

@[simp] theorem takeAward_pieces (s : State) (call : CallId) (epoch : Epoch) (road : Nat) (t : TramRec) (direct : Bool) :
    (s.takeAward call epoch road t direct).re.callSeq = s.re.callSeq := by
  unfold State.takeAward
  dsimp only
  (repeat' split) <;> simp

@[simp] theorem takeWithdraw_pieces (s : State) (call : CallId) (epoch : Epoch) :
    (s.takeWithdraw call epoch).re.callSeq = s.re.callSeq := by
  unfold State.takeWithdraw
  simp

@[simp] theorem unlinkArrival_pieces (s : State) (id : Nat) : (s.unlinkArrival id).re.callSeq = s.re.callSeq := by
  unfold State.unlinkArrival
  simp

@[simp] theorem pushArrival_pieces (s : State) (r : Nat) (a : Arrival) :
    (s.pushArrival r a).re.insts = s.re.insts ∧ (s.pushArrival r a).re.callSeq = s.re.callSeq := by
  unfold State.pushArrival
  simp

@[simp] theorem takePush_pieces (s : State) (r : Nat) (call : CallId) (key : RouteKey) (tram : Nat) :
    (s.takePush r call key tram).re.callSeq = s.re.callSeq := by
  unfold State.takePush
  dsimp only
  (repeat' split) <;> simp

@[simp] theorem takePop_pieces (s : State) (r tram : Nat) : (s.takePop r tram).re.callSeq = s.re.callSeq := by
  unfold State.takePop
  (repeat' split) <;> simp

@[simp] theorem bodyCleared_pieces (s : State) (r : Nat) :
    (s.bodyCleared r).re.insts = s.re.insts ∧ (s.bodyCleared r).re.callSeq = s.re.callSeq := by
  unfold State.bodyCleared
  (repeat' split) <;> simp

@[simp] theorem yuNotice_pieces (s : State) (n : SectNotice) :
    (s.yuNotice n).re.insts = s.re.insts ∧ (s.yuNotice n).re.callSeq = s.re.callSeq := by
  unfold State.yuNotice
  (repeat' split) <;> simp

@[simp] theorem yuRestarted_pieces (s : State) (peer : Nat) (old : Epoch) :
    (s.yuRestarted peer old).re.insts = s.re.insts ∧ (s.yuRestarted peer old).re.callSeq = s.re.callSeq := by
  unfold State.yuRestarted
  simp

@[simp] theorem holdExpiry_pieces (s : State) (r j : Nat) :
    (s.holdExpiry r j).re.insts = s.re.insts ∧ (s.holdExpiry r j).re.callSeq = s.re.callSeq := by
  unfold State.holdExpiry
  (repeat' split) <;> simp

@[simp] theorem yuTakes_pieces (s : State) (m : YuMsg) : (s.yuTakes m).re.callSeq = s.re.callSeq := by
  unfold State.yuTakes
  (repeat' split) <;> simp

/-! ### CT

CT hands RE its answers and gives PU permission ends; neither is taken here, so the instances and the points stay. A SET alone orders
points to move, in this event (R104). -/

@[simp] theorem denyTo_pieces (s : State) (dest : Nat) (key : RouteKey) (reason : DenyReason) (step : Nat) (detail : Option Nat) :
    (s.denyTo dest key reason step detail).re.callSeq = s.re.callSeq := by
  unfold State.denyTo
  split <;> simp

@[simp] theorem tellLost_pieces (s : State) (id : Nat) (c : Claim) (cause : LostCause) (point : Option Nat) :
    (s.tellLost id c cause point).re.insts = s.re.insts ∧ (s.tellLost id c cause point).re.callSeq = s.re.callSeq := by
  unfold State.tellLost
  simp

@[simp] theorem sendLost_pieces (s : State) (id : Nat) (cause : LostCause) (point : Option Nat) :
    (s.sendLost id cause point).re.insts = s.re.insts ∧ (s.sendLost id cause point).re.callSeq = s.re.callSeq := by
  unfold State.sendLost
  (repeat' split) <;> simp

@[simp] theorem mouthRelease_pieces (s : State) (id : Nat) (c : Claim) (st : ClaimStep) :
    (s.mouthRelease id c st).re.callSeq = s.re.callSeq := by
  unfold State.mouthRelease
  (repeat' split) <;> simp

@[simp] theorem releaseStep_pieces (s : State) (id i : Nat) (tell : Bool) :
    (s.releaseStep id i tell).pu.points = s.pu.points ∧ (s.releaseStep id i tell).pu.moves = s.pu.moves
    ∧ (s.releaseStep id i tell).pu.fails = s.pu.fails ∧ (s.releaseStep id i tell).re.callSeq = s.re.callSeq := by
  unfold State.releaseStep
  (repeat' split) <;> simp

@[simp] theorem releaseClear_pieces (s : State) (id : Nat) :
    (s.releaseClear id).pu.points = s.pu.points ∧ (s.releaseClear id).pu.moves = s.pu.moves ∧ (s.releaseClear id).pu.fails = s.pu.fails
    ∧ (s.releaseClear id).re.callSeq = s.re.callSeq := by
  unfold State.releaseClear
  refine forEach_preserves (P := fun u => u.pu.points = s.pu.points ∧ u.pu.moves = s.pu.moves ∧ u.pu.fails = s.pu.fails
    ∧ u.re.callSeq = s.re.callSeq) (fun i _ u hu => ?_) ⟨rfl, rfl, rfl, rfl⟩
  split
  · simpa using hu
  · exact hu

@[simp] theorem releaseAll_pieces (s : State) (id : Nat) :
    (s.releaseAll id).pu.points = s.pu.points ∧ (s.releaseAll id).pu.moves = s.pu.moves ∧ (s.releaseAll id).pu.fails = s.pu.fails
    ∧ (s.releaseAll id).re.insts = s.re.insts ∧ (s.releaseAll id).re.callSeq = s.re.callSeq := by
  unfold State.releaseAll
  simp

@[simp] theorem windDown_pieces (s : State) (id : Nat) :
    (s.windDown id).pu.points = s.pu.points ∧ (s.windDown id).pu.moves = s.pu.moves ∧ (s.windDown id).pu.fails = s.pu.fails
    ∧ (s.windDown id).re.callSeq = s.re.callSeq := by
  unfold State.windDown
  (repeat' split) <;> simp

@[simp] theorem examineStep_pieces (s : State) (id i : Nat) :
    (s.examineStep id i).pu.points = s.pu.points ∧ (s.examineStep id i).pu.moves = s.pu.moves
    ∧ (s.examineStep id i).pu.fails = s.pu.fails ∧ (s.examineStep id i).re.insts = s.re.insts
    ∧ (s.examineStep id i).re.callSeq = s.re.callSeq := by
  unfold State.examineStep
  (repeat' split) <;> simp

@[simp] theorem examineAll_pieces (s : State) (id : Nat) :
    (s.examineAll id).pu.points = s.pu.points ∧ (s.examineAll id).pu.moves = s.pu.moves ∧ (s.examineAll id).pu.fails = s.pu.fails
    ∧ (s.examineAll id).re.insts = s.re.insts ∧ (s.examineAll id).re.callSeq = s.re.callSeq := by
  unfold State.examineAll
  simp

@[simp] theorem seenOccupied_pieces (s : State) (id i : Nat) :
    (s.seenOccupied id i).pu.points = s.pu.points ∧ (s.seenOccupied id i).pu.moves = s.pu.moves
    ∧ (s.seenOccupied id i).pu.fails = s.pu.fails ∧ (s.seenOccupied id i).re.insts = s.re.insts
    ∧ (s.seenOccupied id i).re.callSeq = s.re.callSeq := by
  unfold State.seenOccupied
  dsimp only
  (repeat' split) <;> simp

@[simp] theorem sectionCleared_pieces (s : State) (id i : Nat) :
    (s.sectionCleared id i).pu.points = s.pu.points ∧ (s.sectionCleared id i).pu.moves = s.pu.moves
    ∧ (s.sectionCleared id i).pu.fails = s.pu.fails ∧ (s.sectionCleared id i).re.insts = s.re.insts
    ∧ (s.sectionCleared id i).re.callSeq = s.re.callSeq := by
  unfold State.sectionCleared
  (repeat' split) <;> simp

@[simp] theorem ctNotice_pieces (s : State) (n : SectNotice) :
    (s.ctNotice n).pu.points = s.pu.points ∧ (s.ctNotice n).pu.moves = s.pu.moves ∧ (s.ctNotice n).pu.fails = s.pu.fails
    ∧ (s.ctNotice n).re.insts = s.re.insts ∧ (s.ctNotice n).re.callSeq = s.re.callSeq := by
  unfold State.ctNotice
  (repeat' split) <;> simp

@[simp] theorem grantClaim_pieces (s : State) (req : ClaimReq) (cls : RouteClass) (id : Nat) (free : List Nat) :
    (s.grantClaim req cls id free).re.callSeq = s.re.callSeq := by
  unfold State.grantClaim
  dsimp only
  split <;> simp

@[simp] theorem finishClaim_pieces (s : State) (req : ClaimReq) (cls : RouteClass) :
    (s.finishClaim req cls).re.insts = s.re.insts ∧ (s.finishClaim req cls).re.callSeq = s.re.callSeq := by
  unfold State.finishClaim
  (repeat' split) <;> simp

@[simp] theorem checkSteps_pieces (s : State) (req : ClaimReq) : (s.checkSteps req).re.callSeq = s.re.callSeq := by
  unfold State.checkSteps
  split <;> simp

@[simp] theorem checkEarlier_pieces (s : State) (req : ClaimReq) :
    (s.checkEarlier req).pu.points = s.pu.points ∧ (s.checkEarlier req).pu.moves = s.pu.moves
    ∧ (s.checkEarlier req).pu.fails = s.pu.fails ∧ (s.checkEarlier req).re.callSeq = s.re.callSeq := by
  unfold State.checkEarlier
  dsimp only
  (repeat' split) <;> simp

@[simp] theorem evaluateClaim_pieces (s : State) (req : ClaimReq) (rx : Option RxRec) :
    (s.evaluateClaim req rx).pu.points = s.pu.points ∧ (s.evaluateClaim req rx).pu.moves = s.pu.moves
    ∧ (s.evaluateClaim req rx).pu.fails = s.pu.fails ∧ (s.evaluateClaim req rx).re.callSeq = s.re.callSeq := by
  unfold State.evaluateClaim
  (repeat' split) <;> simp

@[simp] theorem sendSetFail_pieces (s : State) (key : RouteKey) (point : Option Nat) (cause : SetFailCause) :
    (s.sendSetFail key point cause).re.callSeq = s.re.callSeq := by
  unfold State.sendSetFail
  simp

@[simp] theorem endPermissions_pieces (s : State) (c : Claim) :
    (s.endPermissions c).pu.points = s.pu.points ∧ (s.endPermissions c).pu.moves = s.pu.moves
    ∧ (s.endPermissions c).pu.fails = s.pu.fails := by
  unfold State.endPermissions
  simp

@[simp] theorem leaveSetting_pieces (s : State) (id : Nat) :
    (s.leaveSetting id).pu.points = s.pu.points ∧ (s.leaveSetting id).pu.moves = s.pu.moves ∧ (s.leaveSetting id).pu.fails = s.pu.fails
    ∧ (s.leaveSetting id).re.callSeq = s.re.callSeq := by
  unfold State.leaveSetting
  (repeat' split) <;> simp

@[simp] theorem enterSetting_pieces (s : State) (id : Nat) (c : Claim) : (s.enterSetting id c).re.callSeq = s.re.callSeq := by
  unfold State.enterSetting
  split <;> simp

@[simp] theorem setReserved_pieces (s : State) (id : Nat) (c : Claim) :
    (s.setReserved id c).re.insts = s.re.insts ∧ (s.setReserved id c).re.callSeq = s.re.callSeq := by
  unfold State.setReserved
  (repeat' split) <;> simp

@[simp] theorem takeSet_pieces (s : State) (key : RouteKey) : (s.takeSet key).re.callSeq = s.re.callSeq := by
  unfold State.takeSet
  (repeat' split) <;> simp

@[simp] theorem answerOrder_pieces (s : State) (id p : Nat) :
    (s.answerOrder id p).pu.points = s.pu.points ∧ (s.answerOrder id p).pu.moves = s.pu.moves
    ∧ (s.answerOrder id p).pu.fails = s.pu.fails ∧ (s.answerOrder id p).re.insts = s.re.insts
    ∧ (s.answerOrder id p).re.callSeq = s.re.callSeq := by
  unfold State.answerOrder
  dsimp only
  (repeat' split) <;> simp

@[simp] theorem ctMoveDone_pieces (s : State) (p : Nat) :
    (s.ctMoveDone p).pu.points = s.pu.points ∧ (s.ctMoveDone p).pu.moves = s.pu.moves ∧ (s.ctMoveDone p).pu.fails = s.pu.fails
    ∧ (s.ctMoveDone p).re.insts = s.re.insts ∧ (s.ctMoveDone p).re.callSeq = s.re.callSeq := by
  unfold State.ctMoveDone
  split <;> simp

@[simp] theorem ctMoveFail_pieces (s : State) (p : Nat) (cause : MoveCause) :
    (s.ctMoveFail p cause).pu.points = s.pu.points ∧ (s.ctMoveFail p cause).pu.moves = s.pu.moves
    ∧ (s.ctMoveFail p cause).pu.fails = s.pu.fails ∧ (s.ctMoveFail p cause).re.insts = s.re.insts
    ∧ (s.ctMoveFail p cause).re.callSeq = s.re.callSeq := by
  unfold State.ctMoveFail
  (repeat' split) <;> simp

@[simp] theorem losePoint_pieces (s : State) (id p : Nat) (c : Claim) :
    (s.losePoint id p c).re.insts = s.re.insts ∧ (s.losePoint id p c).re.callSeq = s.re.callSeq := by
  unfold State.losePoint
  (repeat' split) <;> simp

@[simp] theorem ctDetectionLost_pieces (s : State) (p : Nat) :
    (s.ctDetectionLost p).re.insts = s.re.insts ∧ (s.ctDetectionLost p).re.callSeq = s.re.callSeq := by
  unfold State.ctDetectionLost
  (repeat' split) <;> simp

@[simp] theorem takeRelease_pieces (s : State) (key : RouteKey) :
    (s.takeRelease key).pu.points = s.pu.points ∧ (s.takeRelease key).pu.moves = s.pu.moves ∧ (s.takeRelease key).pu.fails = s.pu.fails
    ∧ (s.takeRelease key).re.callSeq = s.re.callSeq := by
  unfold State.takeRelease
  split <;> simp

@[simp] theorem reservedExpiry_pieces (s : State) (id : Nat) :
    (s.reservedExpiry id).pu.points = s.pu.points ∧ (s.reservedExpiry id).pu.moves = s.pu.moves
    ∧ (s.reservedExpiry id).pu.fails = s.pu.fails ∧ (s.reservedExpiry id).re.insts = s.re.insts
    ∧ (s.reservedExpiry id).re.callSeq = s.re.callSeq := by
  unfold State.reservedExpiry
  (repeat' split) <;> simp

@[simp] theorem setExpiry_pieces (s : State) (id : Nat) :
    (s.setExpiry id).pu.points = s.pu.points ∧ (s.setExpiry id).pu.moves = s.pu.moves ∧ (s.setExpiry id).pu.fails = s.pu.fails
    ∧ (s.setExpiry id).re.insts = s.re.insts ∧ (s.setExpiry id).re.callSeq = s.re.callSeq := by
  unfold State.setExpiry
  (repeat' split) <;> simp

@[simp] theorem orphanExpiry_pieces (s : State) (id i : Nat) :
    (s.orphanExpiry id i).pu.points = s.pu.points ∧ (s.orphanExpiry id i).pu.moves = s.pu.moves
    ∧ (s.orphanExpiry id i).pu.fails = s.pu.fails ∧ (s.orphanExpiry id i).re.insts = s.re.insts
    ∧ (s.orphanExpiry id i).re.callSeq = s.re.callSeq := by
  unfold State.orphanExpiry
  (repeat' split) <;> simp

@[simp] theorem returnRecord_pieces (s : State) (id : Nat) (c : Claim) :
    (s.returnRecord id c).pu.points = s.pu.points ∧ (s.returnRecord id c).pu.moves = s.pu.moves
    ∧ (s.returnRecord id c).pu.fails = s.pu.fails ∧ (s.returnRecord id c).re.insts = s.re.insts
    ∧ (s.returnRecord id c).re.callSeq = s.re.callSeq := by
  unfold State.returnRecord
  dsimp only
  (repeat' split) <;> simp

@[simp] theorem unorphanRecord_pieces (s : State) (id : Nat) :
    (s.unorphanRecord id).pu.points = s.pu.points ∧ (s.unorphanRecord id).pu.moves = s.pu.moves
    ∧ (s.unorphanRecord id).pu.fails = s.pu.fails ∧ (s.unorphanRecord id).re.insts = s.re.insts
    ∧ (s.unorphanRecord id).re.callSeq = s.re.callSeq := by
  unfold State.unorphanRecord
  (repeat' split) <;> simp

@[simp] theorem ctReturned_pieces (s : State) (peer : Nat) (epoch : Epoch) :
    (s.ctReturned peer epoch).pu.points = s.pu.points ∧ (s.ctReturned peer epoch).pu.moves = s.pu.moves
    ∧ (s.ctReturned peer epoch).pu.fails = s.pu.fails ∧ (s.ctReturned peer epoch).re.insts = s.re.insts
    ∧ (s.ctReturned peer epoch).re.callSeq = s.re.callSeq := by
  unfold State.ctReturned
  simp

@[simp] theorem dropRecord_pieces (s : State) (id : Nat) :
    (s.dropRecord id).pu.points = s.pu.points ∧ (s.dropRecord id).pu.moves = s.pu.moves ∧ (s.dropRecord id).pu.fails = s.pu.fails
    ∧ (s.dropRecord id).re.insts = s.re.insts ∧ (s.dropRecord id).re.callSeq = s.re.callSeq := by
  unfold State.dropRecord
  simp

@[simp] theorem ctRestarted_pieces (s : State) (peer : Nat) (old : Epoch) :
    (s.ctRestarted peer old).pu.points = s.pu.points ∧ (s.ctRestarted peer old).pu.moves = s.pu.moves
    ∧ (s.ctRestarted peer old).pu.fails = s.pu.fails ∧ (s.ctRestarted peer old).re.insts = s.re.insts
    ∧ (s.ctRestarted peer old).re.callSeq = s.re.callSeq := by
  unfold State.ctRestarted
  simp

@[simp] theorem isolateRecord_pieces (s : State) (id : Nat) :
    (s.isolateRecord id).pu.points = s.pu.points ∧ (s.isolateRecord id).pu.moves = s.pu.moves
    ∧ (s.isolateRecord id).pu.fails = s.pu.fails ∧ (s.isolateRecord id).re.insts = s.re.insts
    ∧ (s.isolateRecord id).re.callSeq = s.re.callSeq := by
  unfold State.isolateRecord
  (repeat' split) <;> simp

@[simp] theorem ctIsolate_pieces (s : State) :
    s.ctIsolate.pu.points = s.pu.points ∧ s.ctIsolate.pu.moves = s.pu.moves ∧ s.ctIsolate.pu.fails = s.pu.fails
    ∧ s.ctIsolate.re.insts = s.re.insts ∧ s.ctIsolate.re.callSeq = s.re.callSeq := by
  unfold State.ctIsolate
  simp

/-! ### RE

RE gives SU commands and RQ outcomes, and hands YU awards that it withdraws, its calls and releases; none is taken here, so the signals,
the slots and the roads stay. -/

@[simp] theorem withdrawAward_pieces (s : State) (x : Inst) : (s.withdrawAward x).yu.roads = s.yu.roads := by
  unfold State.withdrawAward
  (repeat' split) <;> simp

@[simp] theorem startCall_pieces (s : State) (i : Nat) : (s.startCall i).yu.roads = s.yu.roads := by
  unfold State.startCall
  split <;> simp

@[simp] theorem failAttempt_pieces (s : State) (i : Nat) (cause : AttemptCause) : (s.failAttempt i cause).yu.roads = s.yu.roads := by
  unfold State.failAttempt
  (repeat' split) <;> simp

@[simp] theorem takeRoadChange_pieces (s : State) : s.takeRoadChange.yu.roads = s.yu.roads := by
  unfold State.takeRoadChange
  split
  · refine forEach_keeps (·.yu.roads) _ _ (fun i u => ?_) s
    (repeat' split) <;> simp
  · rfl

@[simp] theorem enterClearing_pieces (s : State) (i : Nat) : (s.enterClearing i).su.signals = s.su.signals := by
  unfold State.enterClearing
  (repeat' split) <;> simp

@[simp] theorem allSet_pieces (s : State) (i : Nat) (x : Inst) :
    (s.allSet i x).su.signals = s.su.signals ∧ (s.allSet i x).yu.roads = s.yu.roads := by
  unfold State.allSet
  (repeat' split) <;> simp

@[simp] theorem endDegraded_pieces (s : State) (i : Nat) (x : Inst) (spareChanged : Bool) :
    (s.endDegraded i x spareChanged).rq.slots = s.rq.slots ∧ (s.endDegraded i x spareChanged).rq.queues = s.rq.queues
    ∧ (s.endDegraded i x spareChanged).rq.ring = s.rq.ring := by
  unfold State.endDegraded
  simp

@[simp] theorem checkEnd_pieces (s : State) (i : Nat) :
    (s.checkEnd i).rq.slots = s.rq.slots ∧ (s.checkEnd i).rq.queues = s.rq.queues ∧ (s.checkEnd i).rq.ring = s.rq.ring := by
  unfold State.checkEnd
  (repeat' split) <;> simp

@[simp] theorem enterEntered_pieces (s : State) (i : Nat) :
    (s.enterEntered i).rq.slots = s.rq.slots ∧ (s.enterEntered i).rq.queues = s.rq.queues ∧ (s.enterEntered i).rq.ring = s.rq.ring := by
  unfold State.enterEntered
  simp

@[simp] theorem countPassed_pieces (s : State) (i : Nat) (x : Inst) (p : Nat → RouteStep → Bool) :
    (s.countPassed i x p).rq.slots = s.rq.slots ∧ (s.countPassed i x p).rq.queues = s.rq.queues
    ∧ (s.countPassed i x p).rq.ring = s.rq.ring := by
  unfold State.countPassed
  dsimp only
  split <;> simp

@[simp] theorem letGo_pieces (s : State) (i : Nat) (x : Inst) (code : OutcomeCode) :
    (s.letGo i x code).rq.slots = s.rq.slots ∧ (s.letGo i x code).rq.queues = s.rq.queues ∧ (s.letGo i x code).rq.ring = s.rq.ring
    ∧ (s.letGo i x code).yu.roads = s.yu.roads := by
  unfold State.letGo
  simp

@[simp] theorem enterCancelling_pieces (s : State) (i : Nat) (cause : CancelCause) :
    (s.enterCancelling i cause).su.signals = s.su.signals ∧ (s.enterCancelling i cause).rq.slots = s.rq.slots
    ∧ (s.enterCancelling i cause).rq.queues = s.rq.queues ∧ (s.enterCancelling i cause).rq.ring = s.rq.ring
    ∧ (s.enterCancelling i cause).yu.roads = s.yu.roads := by
  unfold State.enterCancelling
  dsimp only
  (repeat' split) <;> simp

@[simp] theorem takeCancel_pieces (s : State) (m : CancelMsg) :
    (s.takeCancel m).su.signals = s.su.signals ∧ (s.takeCancel m).rq.slots = s.rq.slots ∧ (s.takeCancel m).rq.queues = s.rq.queues
    ∧ (s.takeCancel m).rq.ring = s.rq.ring ∧ (s.takeCancel m).yu.roads = s.yu.roads := by
  unfold State.takeCancel
  (repeat' split) <;> simp

@[simp] theorem takeDeny_pieces (s : State) (i : Nat) (x : Inst) (reason : DenyReason) (rx : Option RxRec) :
    (s.takeDeny i x reason rx).yu.roads = s.yu.roads := by
  unfold State.takeDeny
  split <;> simp

@[simp] theorem takeSetDone_pieces (s : State) (i : Nat) (x : Inst) (at_ : Time) (rx : Option RxRec) :
    (s.takeSetDone i x at_ rx).su.signals = s.su.signals ∧ (s.takeSetDone i x at_ rx).yu.roads = s.yu.roads := by
  unfold State.takeSetDone
  dsimp only
  (repeat' split) <;> simp

@[simp] theorem takeSetFail_pieces (s : State) (i : Nat) (x : Inst) (rx : Option RxRec) : (s.takeSetFail i x rx).yu.roads = s.yu.roads := by
  unfold State.takeSetFail
  split <;> simp

@[simp] theorem takeClaimLost_pieces (s : State) (i : Nat) (x : Inst) (rx : Option RxRec) :
    (s.takeClaimLost i x rx).su.signals = s.su.signals ∧ (s.takeClaimLost i x rx).yu.roads = s.yu.roads := by
  unfold State.takeClaimLost
  (repeat' split) <;> simp

@[simp] theorem takeReply_pieces (s : State) (m : ReMsg) (rx : Option RxRec) :
    (s.takeReply m rx).su.signals = s.su.signals ∧ (s.takeReply m rx).yu.roads = s.yu.roads := by
  unfold State.takeReply
  (repeat' split) <;> simp

@[simp] theorem takeProved_pieces (s : State) (g : Nat) : (s.takeProved g).su.signals = s.su.signals := by
  unfold State.takeProved
  (repeat' split) <;> simp

@[simp] theorem takeClearFail_pieces (s : State) (g : Nat) :
    (s.takeClearFail g).su.signals = s.su.signals ∧ (s.takeClearFail g).rq.slots = s.rq.slots
    ∧ (s.takeClearFail g).rq.queues = s.rq.queues ∧ (s.takeClearFail g).rq.ring = s.rq.ring ∧ (s.takeClearFail g).yu.roads = s.yu.roads := by
  unfold State.takeClearFail
  (repeat' split) <;> simp

@[simp] theorem takeLampFault_pieces (s : State) (g : Nat) :
    (s.takeLampFault g).su.signals = s.su.signals ∧ (s.takeLampFault g).rq.slots = s.rq.slots
    ∧ (s.takeLampFault g).rq.queues = s.rq.queues ∧ (s.takeLampFault g).rq.ring = s.rq.ring ∧ (s.takeLampFault g).yu.roads = s.yu.roads := by
  unfold State.takeLampFault
  (repeat' split) <;> simp

@[simp] theorem trampedFirst_pieces (s : State) (i : Nat) (x : Inst) :
    (s.trampedFirst i x).su.signals = s.su.signals ∧ (s.trampedFirst i x).rq.slots = s.rq.slots
    ∧ (s.trampedFirst i x).rq.queues = s.rq.queues ∧ (s.trampedFirst i x).rq.ring = s.rq.ring := by
  unfold State.trampedFirst
  split <;> simp

@[simp] theorem reNotice_pieces (s : State) (n : SectNotice) :
    (s.reNotice n).su.signals = s.su.signals ∧ (s.reNotice n).rq.slots = s.rq.slots ∧ (s.reNotice n).rq.queues = s.rq.queues
    ∧ (s.reNotice n).rq.ring = s.rq.ring := by
  unfold State.reNotice
  split
  · refine forEach_preserves (P := fun u => u.su.signals = s.su.signals ∧ u.rq.slots = s.rq.slots ∧ u.rq.queues = s.rq.queues
      ∧ u.rq.ring = s.rq.ring) (fun i _ u hu => ?_) ⟨rfl, rfl, rfl, rfl⟩
    (repeat' split) <;> simpa using hu
  · exact ⟨rfl, rfl, rfl, rfl⟩

@[simp] theorem ownerGone_pieces (s : State) (peer : Nat) (epoch : Epoch) (changed : Bool) (i : Nat) (x : Inst) :
    (s.ownerGone peer epoch changed i x).su.signals = s.su.signals ∧ (s.ownerGone peer epoch changed i x).yu.roads = s.yu.roads := by
  unfold State.ownerGone
  (repeat' split) <;> simp

@[simp] theorem reLost_pieces (s : State) (peer : Nat) (epoch : Epoch) (changed : Bool) :
    (s.reLost peer epoch changed).su.signals = s.su.signals ∧ (s.reLost peer epoch changed).yu.roads = s.yu.roads := by
  unfold State.reLost
  refine forEach_preserves (P := fun u => u.su.signals = s.su.signals ∧ u.yu.roads = s.yu.roads) (fun i _ u hu => ?_) ⟨rfl, rfl⟩
  split <;> simpa using hu

@[simp] theorem takeLockReport_pieces (s : State) (peer : Nat) (epoch : Epoch) (at_ : Time) (map : BitVec 16) :
    (s.takeLockReport peer epoch at_ map).rq.slots = s.rq.slots ∧ (s.takeLockReport peer epoch at_ map).rq.queues = s.rq.queues
    ∧ (s.takeLockReport peer epoch at_ map).rq.ring = s.rq.ring := by
  unfold State.takeLockReport
  refine forEach_preserves (P := fun u => u.rq.slots = s.rq.slots ∧ u.rq.queues = s.rq.queues ∧ u.rq.ring = s.rq.ring)
    (fun i _ u hu => ?_) ⟨rfl, rfl, rfl⟩
  (repeat' split) <;> simpa using hu

@[simp] theorem isolateInst_pieces (s : State) (i : Nat) (x : Inst) : (s.isolateInst i x).yu.roads = s.yu.roads := by
  unfold State.isolateInst
  split <;> simp

@[simp] theorem reIsolate_pieces (s : State) : s.reIsolate.yu.roads = s.yu.roads := by
  refine forEach_keeps (·.yu.roads) _ _ (fun i u => ?_) s
  split <;> simp

/-! ### RQ

Reader inputs fill telegrams (R75); a cancelled request that is ACTIVE gives RE its cancel (R86). -/

@[simp] theorem gapPassed_pieces (s : State) (p : Nat) :
    (s.gapPassed p).rq.slots = s.rq.slots ∧ (s.gapPassed p).rq.queues = s.rq.queues ∧ (s.gapPassed p).rq.ring = s.rq.ring := by
  unfold State.gapPassed
  (repeat' split) <;> simp

@[simp] theorem completeTelegram_pieces (s : State) (p : Nat) (l : List Byte) (damaged : Bool) :
    (s.completeTelegram p l damaged).rq.slots = s.rq.slots ∧ (s.completeTelegram p l damaged).rq.queues = s.rq.queues
    ∧ (s.completeTelegram p l damaged).rq.ring = s.rq.ring := by
  unfold State.completeTelegram
  (repeat' split) <;> simp

@[simp] theorem assembleByte_pieces (s : State) (p : Nat) (value : Byte) (framed : Bool) :
    (s.assembleByte p value framed).rq.slots = s.rq.slots ∧ (s.assembleByte p value framed).rq.queues = s.rq.queues
    ∧ (s.assembleByte p value framed).rq.ring = s.rq.ring := by
  unfold State.assembleByte
  dsimp only
  (repeat' split) <;> simp

@[simp] theorem readerByte_pieces (s : State) (p : Nat) (value : Byte) (framed : Bool) :
    (s.readerByte p value framed).rq.slots = s.rq.slots ∧ (s.readerByte p value framed).rq.queues = s.rq.queues
    ∧ (s.readerByte p value framed).rq.ring = s.rq.ring := by
  unfold State.readerByte
  split <;> simp

@[simp] theorem passCancel_pieces (s : State) (i : Nat) (d : SlotData) (inst : Nat) (cause : CancelMark) :
    (s.passCancel i d inst cause).re.insts = s.re.insts ∧ (s.passCancel i d inst cause).re.callSeq = s.re.callSeq := by
  unfold State.passCancel
  simp

@[simp] theorem withdrawSlot_pieces (s : State) (i : Nat) (cause : CancelMark) (code : OutcomeCode) :
    (s.withdrawSlot i cause code).re.insts = s.re.insts ∧ (s.withdrawSlot i cause code).re.callSeq = s.re.callSeq := by
  unfold State.withdrawSlot
  split <;> simp

@[simp] theorem takeCancelTelegram_pieces (t : Telegram) (s : State) :
    (State.takeCancelTelegram t s).re.insts = s.re.insts ∧ (State.takeCancelTelegram t s).re.callSeq = s.re.callSeq := by
  unfold State.takeCancelTelegram
  split
  · refine forEach_preserves (P := fun u => u.re.insts = s.re.insts ∧ u.re.callSeq = s.re.callSeq) (fun i _ u hu => ?_) ⟨rfl, rfl⟩
    (repeat' split) <;> simpa using hu
  · exact ⟨rfl, rfl⟩

@[simp] theorem lifetimeExpiry_pieces (s : State) (i : Nat) :
    (s.lifetimeExpiry i).re.insts = s.re.insts ∧ (s.lifetimeExpiry i).re.callSeq = s.re.callSeq := by
  unfold State.lifetimeExpiry
  (repeat' split) <;> simp

@[simp] theorem holdEnd_pieces (s : State) (p : Nat) :
    (s.holdEnd p).rq.slots = s.rq.slots ∧ (s.holdEnd p).rq.queues = s.rq.queues ∧ (s.holdEnd p).rq.ring = s.rq.ring := by
  unfold State.holdEnd
  simp

/-! ### PT

PT gives CT, RE and YU notices, and takes its own record of a peer alone (R65 to R68). Isolation marks each block (R72). -/

@[simp] theorem changePeer_pieces (s : State) (k : Nat) (before new : PeerRec) :
    (s.changePeer k before new).re.insts = s.re.insts ∧ (s.changePeer k before new).re.callSeq = s.re.callSeq
    ∧ (s.changePeer k before new).yu.roads = s.yu.roads := by
  unfold State.changePeer
  split <;> simp

@[simp] theorem noteEpoch_pieces (s : State) (k : Nat) (epoch : Epoch) :
    (s.noteEpoch k epoch).re.insts = s.re.insts ∧ (s.noteEpoch k epoch).re.callSeq = s.re.callSeq
    ∧ (s.noteEpoch k epoch).yu.roads = s.yu.roads := by
  unfold State.noteEpoch
  (repeat' split) <;> simp

@[simp] theorem takeStateFrame_pieces (f : RxFrame) (s : State) :
    (takeStateFrame f s).rq.slots = s.rq.slots ∧ (takeStateFrame f s).rq.queues = s.rq.queues ∧ (takeStateFrame f s).rq.ring = s.rq.ring
    ∧ (takeStateFrame f s).yu.roads = s.yu.roads := by
  unfold takeStateFrame
  dsimp only
  (repeat' split) <;> simp

@[simp] theorem peerSilence_pieces (s : State) (k : Nat) :
    (s.peerSilence k).re.insts = s.re.insts ∧ (s.peerSilence k).re.callSeq = s.re.callSeq ∧ (s.peerSilence k).yu.roads = s.yu.roads := by
  unfold State.peerSilence
  (repeat' split) <;> simp

@[simp] theorem peerLoss_pieces (s : State) (k : Nat) :
    (s.peerLoss k).re.insts = s.re.insts ∧ (s.peerLoss k).re.callSeq = s.re.callSeq ∧ (s.peerLoss k).yu.roads = s.yu.roads := by
  unfold State.peerLoss
  (repeat' split) <;> simp

@[simp] theorem stopAll_pieces (s : State) : s.stopAll.su.signals = s.su.signals := by
  unfold State.stopAll
  simp

@[simp] theorem giveIsolation_pieces (s : State) :
    s.giveIsolation.rq.slots = s.rq.slots ∧ s.giveIsolation.rq.queues = s.rq.queues ∧ s.giveIsolation.rq.ring = s.rq.ring
    ∧ s.giveIsolation.re.insts = s.re.insts ∧ s.giveIsolation.re.callSeq = s.re.callSeq ∧ s.giveIsolation.yu.roads = s.yu.roads := by
  unfold State.giveIsolation
  simp

@[simp] theorem enterIsolated_pieces (s : State) (epoch : Epoch) :
    (s.enterIsolated epoch).pt.peers = s.pt.peers ∧ (s.enterIsolated epoch).su.signals = s.su.signals
    ∧ (s.enterIsolated epoch).rq.slots = s.rq.slots ∧ (s.enterIsolated epoch).rq.queues = s.rq.queues
    ∧ (s.enterIsolated epoch).rq.ring = s.rq.ring ∧ (s.enterIsolated epoch).re.insts = s.re.insts
    ∧ (s.enterIsolated epoch).re.callSeq = s.re.callSeq ∧ (s.enterIsolated epoch).yu.roads = s.yu.roads := by
  unfold State.enterIsolated
  simp

@[simp] theorem examineOwn_pieces (s : State) (r : RxRec) :
    (s.examineOwn r).pt.peers = s.pt.peers ∧ (s.examineOwn r).su.signals = s.su.signals ∧ (s.examineOwn r).rq.slots = s.rq.slots
    ∧ (s.examineOwn r).rq.queues = s.rq.queues ∧ (s.examineOwn r).rq.ring = s.rq.ring ∧ (s.examineOwn r).re.insts = s.re.insts
    ∧ (s.examineOwn r).re.callSeq = s.re.callSeq ∧ (s.examineOwn r).yu.roads = s.yu.roads := by
  unfold State.examineOwn
  dsimp only
  (repeat' split) <;> simp

@[simp] theorem offerAnnounce_pieces (s : State) : s.offerAnnounce.pt.peers = s.pt.peers := by
  unfold State.offerAnnounce
  simp

@[simp] theorem enterRunning_pieces (s : State) :
    s.enterRunning.pt.peers = s.pt.peers ∧ s.enterRunning.rq.slots = s.rq.slots ∧ s.enterRunning.rq.queues = s.rq.queues
    ∧ s.enterRunning.rq.ring = s.rq.ring ∧ s.enterRunning.re.insts = s.re.insts ∧ s.enterRunning.re.callSeq = s.re.callSeq := by
  obtain ⟨pt, rq, -⟩ := enterRunning_leaves s
  rw [pt, rq]
  refine ⟨rfl, rfl, rfl, rfl, ?_⟩
  unfold State.enterRunning
  refine forEach_preserves (P := fun u => u.re.insts = s.re.insts ∧ u.re.callSeq = s.re.callSeq) (fun r _ u hu => ?_) (by simp)
  split <;> simpa using hu

@[simp] theorem listenMark_pieces (s : State) :
    s.listenMark.pt.peers = s.pt.peers ∧ s.listenMark.rq.slots = s.rq.slots ∧ s.listenMark.rq.queues = s.rq.queues
    ∧ s.listenMark.rq.ring = s.rq.ring ∧ s.listenMark.re.insts = s.re.insts ∧ s.listenMark.re.callSeq = s.re.callSeq := by
  unfold State.listenMark
  (repeat' split) <;> simp

/-! ### LI

LI files frames, and tells PT who has sent them (R43 to R46). -/

@[simp] theorem accept_pieces (s : State) (l : List Byte) (k : Kind) :
    (s.accept l k).re.insts = s.re.insts ∧ (s.accept l k).re.callSeq = s.re.callSeq ∧ (s.accept l k).yu.roads = s.yu.roads := by
  unfold State.accept
  split <;> simp

@[simp] theorem examine_pieces (s : State) (l : List Byte) :
    (s.examine l).re.insts = s.re.insts ∧ (s.examine l).re.callSeq = s.re.callSeq ∧ (s.examine l).yu.roads = s.yu.roads := by
  unfold State.examine
  (repeat' split) <;> simp

@[simp] theorem endFrame_pieces (s : State) :
    s.endFrame.re.insts = s.re.insts ∧ s.endFrame.re.callSeq = s.re.callSeq ∧ s.endFrame.yu.roads = s.yu.roads := by
  unfold State.endFrame
  (repeat' split) <;> simp

@[simp] theorem useSymbol_pieces (s : State) (x : LineSymbol) :
    (s.useSymbol x).re.insts = s.re.insts ∧ (s.useSymbol x).re.callSeq = s.re.callSeq ∧ (s.useSymbol x).yu.roads = s.yu.roads := by
  unfold State.useSymbol
  split <;> simp

@[simp] theorem inCheck_pieces (s : State) (x : Option LineSymbol) :
    (s.inCheck x).re.insts = s.re.insts ∧ (s.inCheck x).re.callSeq = s.re.callSeq ∧ (s.inCheck x).yu.roads = s.yu.roads := by
  unfold State.inCheck
  split <;> simp

@[simp] theorem inStep_pieces (s : State) (x : Option LineSymbol) :
    (s.inStep x).re.insts = s.re.insts ∧ (s.inStep x).re.callSeq = s.re.callSeq ∧ (s.inStep x).yu.roads = s.yu.roads := by
  unfold State.inStep
  split <;> simp

@[simp] theorem decode_pieces (s : State) (g : LineGroup) :
    (s.decode g).re.insts = s.re.insts ∧ (s.decode g).re.callSeq = s.re.callSeq ∧ (s.decode g).yu.roads = s.yu.roads := by
  unfold State.decode
  (repeat' split) <;> simp

@[simp] theorem hearGroup_pieces (s : State) (g : LineGroup) :
    (s.hearGroup g).re.insts = s.re.insts ∧ (s.hearGroup g).re.callSeq = s.re.callSeq ∧ (s.hearGroup g).yu.roads = s.yu.roads := by
  unfold State.hearGroup
  split <;> simp

@[simp] theorem hear_pieces (s : State) (l : List LineGroup) :
    (s.hear l).re.insts = s.re.insts ∧ (s.hear l).re.callSeq = s.re.callSeq ∧ (s.hear l).yu.roads = s.yu.roads := by
  unfold State.hear
  simp

/-! ### Deliveries of frames and of handovers

What an operation leaves, the delivery that brings its message leaves. -/

@[simp] theorem withReHandover_pieces (s : State) (k : Kind) :
    (s.withReHandover k).su.signals = s.su.signals ∧ (s.withReHandover k).yu.roads = s.yu.roads := by
  unfold State.withReHandover
  (repeat' split) <;> simp

@[simp] theorem withYuHandover_pieces (s : State) (p : YuMsg → Bool) :
    (s.withYuHandover p).re.insts = s.re.insts ∧ (s.withYuHandover p).re.callSeq = s.re.callSeq := by
  unfold State.withYuHandover
  (repeat' split) <;> simp

@[simp] theorem withChangeHandover_pieces (s : State) : s.withChangeHandover.yu.roads = s.yu.roads := by
  unfold State.withChangeHandover
  split <;> simp

@[simp] theorem claimFrame_pieces (f : RxFrame) (s : State) :
    (claimFrame f s).pu.points = s.pu.points ∧ (claimFrame f s).pu.moves = s.pu.moves ∧ (claimFrame f s).pu.fails = s.pu.fails
    ∧ (claimFrame f s).re.insts = s.re.insts ∧ (claimFrame f s).re.callSeq = s.re.callSeq := by
  unfold claimFrame
  simp

@[simp] theorem setFrame_pieces (f : RxFrame) (s : State) :
    (setFrame f s).re.insts = s.re.insts ∧ (setFrame f s).re.callSeq = s.re.callSeq := by
  unfold setFrame
  dsimp only
  split <;> simp

@[simp] theorem releaseFrame_pieces (f : RxFrame) (s : State) :
    (releaseFrame f s).pu.points = s.pu.points ∧ (releaseFrame f s).pu.moves = s.pu.moves ∧ (releaseFrame f s).pu.fails = s.pu.fails
    ∧ (releaseFrame f s).re.insts = s.re.insts ∧ (releaseFrame f s).re.callSeq = s.re.callSeq := by
  unfold releaseFrame
  dsimp only
  split <;> simp

@[simp] theorem replyFrame_pieces (f : RxFrame) (s : State) :
    (replyFrame f s).su.signals = s.su.signals ∧ (replyFrame f s).yu.roads = s.yu.roads := by
  unfold replyFrame
  split <;> simp

@[simp] theorem bidCallFrame_pieces (f : RxFrame) (s : State) :
    (bidCallFrame f s).re.insts = s.re.insts ∧ (bidCallFrame f s).re.callSeq = s.re.callSeq := by
  unfold bidCallFrame
  dsimp only
  split <;> simp

@[simp] theorem awardFrame_pieces (f : RxFrame) (s : State) :
    (awardFrame f s).re.insts = s.re.insts ∧ (awardFrame f s).re.callSeq = s.re.callSeq := by
  unfold awardFrame
  dsimp only
  split <;> simp

@[simp] theorem withdrawFrame_pieces (f : RxFrame) (s : State) :
    (withdrawFrame f s).re.insts = s.re.insts ∧ (withdrawFrame f s).re.callSeq = s.re.callSeq := by
  unfold withdrawFrame
  dsimp only
  split <;> simp

/-! ### RP -/

@[simp] theorem stateMark_pieces (s : State) : s.stateMark.pt.peers = s.pt.peers := by
  unfold State.stateMark
  (repeat' split) <;> simp

/-! ### Start-up and the sections

Start-up sets the mode, the node ID and the epoch and leaves the peer records (R58, R62). -/

@[simp] theorem configFault_pieces (s : State) : s.configFault.pt.peers = s.pt.peers := by
  unfold State.configFault
  simp

@[simp] theorem release_pieces (s : State) (straps : Nat) : (s.release straps).pt.peers = s.pt.peers := by
  unfold State.release
  split <;> simp

@[simp] theorem takeImage_pieces (s : State) (acked : Bool) : (s.takeImage acked).pt.peers = s.pt.peers := by
  unfold State.takeImage
  (repeat' split) <;> simp

@[simp] theorem failedCopy_pieces (s : State) (mem : List Host.Cell) (addr : Nat) : (s.failedCopy mem addr).pt.peers = s.pt.peers := by
  unfold State.failedCopy
  simp

@[simp] theorem takeEpoch_pieces (s : State) (result : EpochWrite) : (s.takeEpoch result).pt.peers = s.pt.peers := by
  unfold State.takeEpoch
  (repeat' split) <;> simp

@[simp] theorem evaluateSect_pieces (l : Levels) (k : Nat) (s : State) :
    (State.evaluateSect l k s).pu.points = s.pu.points ∧ (State.evaluateSect l k s).pu.moves = s.pu.moves
    ∧ (State.evaluateSect l k s).pu.fails = s.pu.fails ∧ (State.evaluateSect l k s).re.insts = s.re.insts
    ∧ (State.evaluateSect l k s).re.callSeq = s.re.callSeq ∧ (State.evaluateSect l k s).yu.roads = s.yu.roads := by
  unfold State.evaluateSect
  dsimp only
  (repeat' split) <;> simp

end Sys2Proof.Proofs
end

