-- ==== Sys2Proof/Proofs/CommandFrames.lean ====
section
/-! PROOF. What a command leaves alone (O3, O58), by one case split over the commands, and the step that takes one (O1). -/

namespace Sys2Proof.Proofs
open Sys2Proof.Machine Sys2Proof.Laws

/-! ### What a command leaves -/

/-- What the command `c` leaves of `s` in `t`: the commands that wait and the time base, and each piece of state of which `c` is not named
as one that may change it. -/
structure KeepsRest (c : Instr) (s t : State) : Prop where
  pending : t.pending = s.pending
  time : t.time = s.time
  yard : (∀ acked, c ≠ .roadRestore acked) → t.yard = s.yard
  clocks : c.clocks = false → t.windowMs = s.windowMs ∧ t.field = s.field
  oldWindows : c.clocks = false → (∀ acked, c ≠ .roadRestore acked) → t.oldWindows = s.oldWindows
  mem : c.setsMemory = false → t.mi.mem = s.mi.mem
  mode : c.setsMode = false → t.pt.mode = s.pt.mode ∧ t.pt.node = s.pt.node ∧ t.pt.epoch = s.pt.epoch
  sections : c.setsSections = false → t.du = s.du
  points : c.setsPoints = false → t.pu.points = s.pu.points ∧ t.pu.moves = s.pu.moves ∧ t.pu.fails = s.pu.fails
  signals : c.setsSignals = false → t.su.signals = s.su.signals
  line : c.setsLine = false → t.li = s.li
  peers : c.setsPeers = false → t.pt.peers = s.pt.peers
  slots : c.setsSlots = false → t.rq.slots = s.rq.slots ∧ t.rq.queues = s.rq.queues ∧ t.rq.ring = s.rq.ring
  claims : c.setsClaims = false → t.ct.records = s.ct.records ∧ t.ct.locks = s.ct.locks ∧ t.ct.free = s.ct.free
  insts : c.setsInsts = false → t.re.insts = s.re.insts ∧ t.re.callSeq = s.re.callSeq
  roads : c.setsRoads = false → t.yu.roads = s.yu.roads

theorem KeepsRest.refl (c : Instr) (s : State) : KeepsRest c s s := by
  constructor <;> simp

/-! ### Deliveries -/

/-- The frame handler changes FS alone (R50): the rest is what the frame's own operation does. -/
theorem KeepsRest.withFrame {c : Instr} {act : RxFrame → State → State} (kept : ∀ f u, KeepsRest c u (act f u)) (s : State)
    (k : Kind) : KeepsRest c s (s.withFrame k act) := by
  unfold State.withFrame
  split
  · rename_i f fs _
    obtain ⟨⟩ := kept f { s with fs := fs }
    constructor <;> simpa
  · exact .refl c s

/-- A telegram that is taken goes from the list of those that wait, and is counted where it is faulty (R75, R76): the rest is what its own
operation does. -/
theorem KeepsRest.withTelegram {c : Instr} {act : Telegram → State → State} (kept : ∀ x u, KeepsRest c u (act x u)) (s : State)
    (p : Nat) (cls : TelClass) : KeepsRest c s (s.withTelegram p cls act) := by
  unfold State.withTelegram
  split
  · split
    · dsimp only
      split
      · constructor <;> simp
      · obtain ⟨⟩ := kept _ { s with rq := { s.rq with telegrams := _ } }
        constructor <;> assumption
    · exact .refl c s
  · exact .refl c s

/-- CT takes the oldest handover of its RE where the command accepts it (R103, log entry 4). -/
theorem KeepsRest.withCtHandover {c : Instr} {p : CtMsg → Bool} (kept : ∀ m u, p m = true → KeepsRest c u (u.ctTakes m)) (s : State) :
    KeepsRest c s (s.withCtHandover p) := by
  unfold State.withCtHandover
  split
  · rename_i m rest _
    split
    · obtain ⟨⟩ := kept m { s with ct := { s.ct with fromRe := rest } } ‹_›
      constructor <;> assumption
    · exact .refl c s
  · exact .refl c s

/-! ### Commands with a case of their own

A field of `KeepsRest` whose set names the command has the hypothesis `true = false`, which `rintro ⟨⟩` refutes. -/

/-- A telegram of an unknown code takes no slot (R77): it is refused, or ignored while a refusal hold stands. -/
theorem newRequest_unknown (t : Telegram) (s : State) :
    State.newRequest none t s = s ∨ ∃ d, State.newRequest none t s = s.refuse t d := by
  unfold State.newRequest
  by_cases held : s.holdStands t
  · exact .inl (if_pos held)
  · rw [if_neg held]
    cases s.refusalOf t none with
    | none => exact .inl rfl
    | some d => exact .inr ⟨d, rfl⟩

theorem unknownCodeTelegram_keepsRest (p : Nat) (t : Telegram) (s : State) :
    KeepsRest (.unknownCodeTelegram p) s (State.newRequest none t s) := by
  rcases newRequest_unknown t s with ignored | ⟨d, refused⟩
  · rw [ignored]
    exact .refl _ s
  · rw [refused]
    constructor <;> (try rintro ⟨⟩) <;> simp

theorem restoreReport_clocks (restored : List Restored) (r : Nat) (s : State) :
    (restoreReport restored r s).pending = s.pending ∧ (restoreReport restored r s).time = s.time
    ∧ (restoreReport restored r s).field = s.field := by
  unfold restoreReport
  split <;> simp

theorem enterJoining_keepsRest (acked : List Bool) (s : State) (restored : List Restored) :
    KeepsRest (.roadRestore acked) s (s.enterJoining restored) := by
  rw [enterJoining_eq]
  constructor <;> (try rintro ⟨⟩) <;> simp [restoreReport_keeps, restoreReport_clocks, joiningState]

theorem windowEnds_keepsRest (l : Levels) (s : State) : KeepsRest (.windowEnd l) s (s.windowEnds l) := by
  unfold State.windowEnds
  dsimp only
  split
  · split <;> constructor <;> (try rintro ⟨⟩) <;> simp [State.giveReadings]
  · constructor <;> (try rintro ⟨⟩) <;> simp

/-! ### Every command -/

/-- Every command but a reset answers a next state, and leaves all it is not named for: a delivery by what its message's operation leaves,
every other command by the `_keeps` and `_pieces` laws of the operation that it names. -/
theorem exec_keepsRest (c : Instr) (s : State) (hc : c.isReset = false) : ∃ t, exec c s = .next t ∧ KeepsRest c s t := by
  cases c with
  | powerOnReset | pinReset => cases hc
  | roadRestore acked =>
    simp only [exec, execRoadRestore]
    split
    · exact ⟨_, rfl, enterJoining_keepsRest acked s _⟩
    · exact ⟨_, rfl, .refl _ s⟩
  | windowEnd levels =>
    simp only [exec, execWindowEnd]
    split
    · exact ⟨_, rfl, windowEnds_keepsRest levels s⟩
    · exact ⟨_, rfl, .refl _ s⟩
  | lossOfSync groups quiet =>
    refine ⟨_, rfl, ?_⟩
    cases quiet <;> constructor <;> (try rintro ⟨⟩) <;> simp
  | holdOff | announce | state | inspect | inspectReply | event =>
    exact ⟨_, rfl, .withFrame (fun f u => by constructor <;> (try rintro ⟨⟩) <;> simp) s _⟩
  | inRequest p | outRequest p | roadRequest p | destRequest p | cancel p =>
    exact ⟨_, rfl, .withTelegram (fun x u => by constructor <;> (try rintro ⟨⟩) <;> simp) s p _⟩
  | unknownCodeTelegram p => exact ⟨_, rfl, .withTelegram (unknownCodeTelegram_keepsRest p) s p _⟩
  | claim v | set v | release v =>
    cases v
    · exact ⟨_, rfl, .withFrame (fun f u => by constructor <;> (try rintro ⟨⟩) <;> simp) s _⟩
    · refine ⟨_, rfl, .withCtHandover (fun m u hm => ?_) s⟩
      cases m <;> cases hm
      constructor <;> (try rintro ⟨⟩) <;> simp [State.ctTakes]
  | grant v | deny v | setDone v | setFail v | claimLost v | passed v | bidCall v | bid v | award v | awardWithdraw v
  | roadChange v =>
    cases v
    · exact ⟨_, rfl, .withFrame (fun f u => by constructor <;> (try rintro ⟨⟩) <;> simp [roadChangeFrame]) s _⟩
    · refine ⟨_, rfl, ?_⟩
      constructor <;> (try rintro ⟨⟩) <;> simp [State.deliverReply]
  -- an event that the state may not hold: one operation, or nothing (log entry 2)
  | resetRelease _ | imageReadDone _ | epochWriteDone _ | puSectionChange _ | ctSectionChange _ | reSectionChange _ | yuSectionChange _
  | ctUnusable _ | ctUsable _ | ctEpochChange _ | reUnusable _ | reUsable _ | reEpochChange _ | yuUnusable _ | yuUsable _
  | yuEpochChange _ | ctIsolation | reIsolation | rqIsolation | yuIsolation | proceedCommand _ | stopCommand _ | proved _ | clearFail _
  | lampFault _ | moveDone _ | moveFail _ | detectionLost _ | outcome | cancelInstance _ | ownSourceFrame | transmissionEnd
  | accessRoundTimeout | firstIdlePoint | roadWriteDone | roadWriteFail | roadWaitExpiry _ | awardWaitExpiry _ | claimWindowExpiry _
  | setWindowExpiry _ | approachTimerExpiry _ | releaseDelayExpiry _ | runThroughExpiry _ | retryTimerExpiry _ =>
    simp only [exec, execResetRelease, execImageReadDone, execEpochWriteDone, execPuSectionChange, execCtSectionChange,
      execReSectionChange, execYuSectionChange, execCtUnusable, execCtUsable, execCtEpochChange, execReUnusable, execReUsable,
      execReEpochChange, execYuUnusable, execYuUsable, execYuEpochChange, execCtIsolation, execReIsolation, execRqIsolation,
      execYuIsolation, execProceedCommand, execStopCommand, execProved, execClearFail, execLampFault, execMoveDone, execMoveFail,
      execDetectionLost, execOutcome, execCancelInstance, execOwnSourceFrame, execTransmissionEnd, execAccessRoundTimeout,
      execFirstIdlePoint, execRoadWriteDone, execRoadWriteFail, execRoadWaitExpiry, execAwardWaitExpiry, execClaimWindowExpiry,
      execSetWindowExpiry, execApproachTimerExpiry, execReleaseDelayExpiry, execRunThroughExpiry, execRetryTimerExpiry]
    (repeat' split) <;> exact ⟨_, rfl, by constructor <;> (try rintro ⟨⟩) <;> simp⟩
  -- one operation, whatever the state
  | startDelimiter _ _ _ | commaReceived _ _ _ | oversizeDiscard _ | lineQualityWindow _ | frameReceived _ | lineAccess _
  | pointWindowEvaluation | travelTimerExpiry _ | permissionEnd _ | signalWindowEvaluation | clearingTimerExpiry _ | trialTimerExpiry _
  | poolLowTimerExpiry | holdOffTimerExpiry _ | listenTimer | stateTimer | peerSilent _ | peerLost _ | telegramGapTimeout _
  | refusalHoldExpiry _ | slotLifetimeExpiry _ | reservedTimerExpiry _ | setTimerExpiry _ | orphanClearExpiry _ _ | offerExpiry _
  | holdTimerExpiry _ _ | bidTimerExpiry _ | readerInputByte _ _ _ =>
    exact ⟨_, rfl, by constructor <;> (try rintro ⟨⟩) <;> simp⟩

/-- A reset keeps the commands that wait, which are the model's own (R171). -/
theorem exec_reset_pending {c : Instr} (hc : c.isReset = true) (s : State) : ∃ t, exec c s = .next t ∧ t.pending = s.pending := by
  cases c with
  | powerOnReset | pinReset => exact ⟨_, rfl, rfl⟩
  | _ => cases hc

/-- Settles O3: the resets by their definition, every other command by what it leaves. -/
theorem everyCommandCompletes : Obligations.EveryCommandCompletes := by
  intro c s
  cases hc : c.isReset with
  | true => exact exec_reset_pending hc s
  | false =>
    obtain ⟨t, next, rest⟩ := exec_keepsRest c s hc
    exact ⟨t, next, rest.pending⟩

/-- Settles O58: the one state that a command answers is the one of `exec_keepsRest`. -/
theorem commandsKeepTheRest : Obligations.CommandsKeepTheRest := by
  intro c s t next hc
  obtain ⟨u, next', rest⟩ := exec_keepsRest c s hc
  cases next.symm.trans next'
  obtain ⟨-, time, yard, clocks, oldWindows, mem, mode, sections, points, signals, line, peers, slots, claims, insts, roads⟩ := rest
  exact ⟨time, yard, clocks, oldWindows, mem, mode, sections, points, signals, line, peers, slots, claims, insts, roads⟩

/-- Settles O1: `step` is defined by the front of the queue. -/
theorem stepRunsFrontCommand : Obligations.StepRunsFrontCommand := fun _ _ _ => rfl

end Sys2Proof.Proofs
end
